-- ==== Sys2Proof/Word.lean ====
section
/-! DEFINITION. Word types and the plainest arithmetic on them: bytes, 32-, 64- and 512-bit words, field
extraction from a word (bit 0 least significant, R13), saturation and sign conversion. -/

namespace Sys2Proof

/-- One byte. -/
abbrev Byte := BitVec 8
/-- A register word (R6). -/
abbrev W32 := BitVec 32
/-- A flag word, a 64-bit register or a scalar register. -/
abbrev W64 := BitVec 64
/-- 64 bytes, little-endian: a launch descriptor, a fragment, a macro-op, an admin packet, a flit. -/
abbrev W512 := BitVec 512
/-- A sparse table keyed by a number: keys strictly rise and no entry equals the table's default. -/
abbrev Tbl (α : Type) := List (Nat × α)

/-- Bits [lo + w − 1 : lo] of a number (R13). -/
def nbits (x lo w : Nat) : Nat := (x >>> lo) % 2 ^ w
/-- Bits [lo + w − 1 : lo] of a word, as a number. -/
def fld {n : Nat} (x : BitVec n) (lo w : Nat) : Nat := nbits x.toNat lo w
/-- One bit of a word. -/
def bitOf {n : Nat} (x : BitVec n) (i : Nat) : Bool := x.getLsbD i
/-- A Bool as one bit. -/
def b2n (b : Bool) : Nat := if b then 1 else 0
/-- Place a value at bit `lo`. -/
def put (v lo : Nat) : Nat := v <<< lo
/-- A count that stays at the largest value of a `w`-bit field. -/
def satN (w v : Nat) : Nat := min v (2 ^ w - 1)
/-- The two's complement value of a `w`-bit number. -/
def sgn (w v : Nat) : Int := if v < 2 ^ (w - 1) then (v : Int) else (v : Int) - (2 : Int) ^ w
/-- The `w`-bit two's complement code of an integer. -/
def unsgn (w : Nat) (v : Int) : Nat := (v % ((2 : Int) ^ w)).toNat

end Sys2Proof
end

