-- ==== Sys2Proof/Syntax.lean ====
section
/-! DEFINITION. The commands of the block: one constructor for each row of spec/opcode_table.json, with the row's
operands. Data that the block reads from outside its ports (memory read data, pin words, measured times) stands in the
operands; the rest the command finds in State. Log entry 1. -/

namespace Sys2Proof

/-- R format of a native instruction (R247) on core `core` (0x300 + n Root core n, 0x200 + a core of agent a, R272). -/
structure FR where
  core : Nat
  pg : Nat
  pn : Bool
  d : Nat
  a : Nat
  b : Nat
  deriving DecidableEq, Repr

/-- I format (R247). -/
structure FI where
  core : Nat
  pg : Nat
  pn : Bool
  d : Nat
  a : Nat
  imm : BitVec 12
  deriving DecidableEq, Repr

/-- L format (R247). -/
structure FL where
  core : Nat
  pg : Nat
  pn : Bool
  d : Nat
  imm : BitVec 17
  deriving DecidableEq, Repr

/-- B format (R247). -/
structure FB where
  core : Nat
  pg : Nat
  pn : Bool
  off : BitVec 22
  deriving DecidableEq, Repr

/-- V format (R247). -/
structure FV where
  core : Nat
  pg : Nat
  pn : Bool
  d : Nat
  a : Nat
  b : Nat
  fmt : Nat
  deriving DecidableEq, Repr

/-- A subordinate-port access (R39, R40): function (AxUSER), block-window address, bytes, write, byte strobes, data,
AWID or ARID. -/
structure Access where
  fn : Nat
  addr : Nat
  size : Nat
  wr : Bool
  strobes : Nat
  data : BitVec 128
  id : Nat := 0
  deriving DecidableEq, Repr

/-- An engine's report with eq_done or eq_preempt_ack: cycles and tref_clk cycles since presentation (R304), flags (R286). -/
structure EngRep where
  cycles : Nat
  ns10 : Nat
  fflags : Nat
  deriving DecidableEq, Repr

/-- How a WAIT at the head of a lane ends (R171, R172): the lane, and 0 met, 1 poisoned, 2 timeout. -/
structure MopOutcome where
  be : Bool
  out : Nat
  deriving DecidableEq, Repr

/-- A node of a generation (R191, R192). `bodyOff` is BODY; `body` the 64 B, or fewer, of a body that is not code; `slot` and `room`
the place in the body area that the node's body has been given, and its length. -/
structure GNode where
  kind : Nat
  chained : Bool
  npred : Nat
  succ : List Nat
  target : Nat
  cost : Nat
  bodyOff : Nat
  body : W512
  vnode : Nat
  slot : Nat := 0
  room : Nat := 0
  deriving DecidableEq, Repr

/-- The native code that Iznum emits for a CODE record, and its PC map: native offsets with the indices of the virtual instructions
they were translated from (R332). -/
structure NatCode where
  code : List Byte := []
  map : List (Nat × Nat) := []
  deriving DecidableEq, Repr

/-- What the translation of an image yields where the spec does not give the code Iznum emits (R325, R328): the outcome of
the body, share and data-memory checks (0: passed, else a failure code with its offset), the slices, and the code of each node
record of the image. -/
structure TransOut where
  failCode : Nat
  failOff : Nat
  slices : Nat
  codes : List NatCode
  deriving DecidableEq, Repr

/-- The 64-bit words of a region that the Steward reads from the directory and the ledger (R424, R428). -/
structure StackWord where
  region : Nat
  dir : W64
  led : W64
  deriving DecidableEq, Repr

/-- Direction of a tide stream: toward the agent or toward the Root (R51). -/
inductive Dir where
  | down | up
  deriving DecidableEq, Repr

/-- The commands: every row of the table. -/
inductive Instr where
  -- start-up and resets
  | porRelease (testMode : Bool)
  | rstNAssert
  | warmReset (fn : Nat)
  | warmResetEntry
  | flrRequest (fn : Nat)
  | fuseValid (fuse : BitVec 256)
  | phaseComplete (meas : Nat) (iznum lib : List Byte)
  | phaseTimeout (detail : Nat)
  | agentsDeadline
  | agentInitDone (a : Nat) (mon : Option W32) (fuse : BitVec 256) (image : List Byte)
  | tideLinkUp (a : Nat)
  | bringupWaitTimeout (a : Nat)
  | sluiceTick (energy : List (Nat × Nat))
  | tick (a now : Nat)
  -- host port
  | hostAccess (x : Access)
  | agentRegRequest (a : Nat)
  | regReply (a : Nat)
  | agentRegTimeout (rtag : Nat)
  | doorbell (fn q : Nat) (data : W64)
  | flagRegionWrite (fn i : Nat) (data : W64)
  | pwinWerrinfoRead (fn p : Nat)
  | wordLatchRead (fn addr : Nat)
  | imemWindowWrite (x : Access)
  | dmemWindowWrite (x : Access)
  | schPeriodWrite (fn : Nat) (data : W32)
  | schAccselWrite (fn : Nat) (data : W32)
  | stewLedselWrite (fn : Nat) (data : W32) (word : W64)
  | logRdselWrite (fn : Nat) (data : W32)
  | logPop (fn : Nat) (data : W32)
  | logHeadWrite (fn : Nat) (data : W32)
  | watchSevereClear (fn index : Nat) (data : W32)
  -- admin queues
  | admQcfgWrite (fn q : Nat) (data : W32)
  | admSqtailWrite (fn q : Nat) (data : W32)
  | admCqheadWrite (fn q : Nat) (data : W32)
  | adminCommandRead (q : Nat) (ok : Bool) (pkt : W512)
  | adminCommandStart (image : List Byte)
  | adminReplyWriteResponse (q : Nat) (ok : Bool)
  | nop (q : Nat) (pkt : W512)
  | query (q : Nat) (pkt : W512)
  | partCreate (q : Nat) (pkt : W512)
  | partActivate (q : Nat) (pkt : W512)
  | partMaint (q : Nat) (pkt : W512)
  | partHalt (q : Nat) (pkt : W512)
  | partDestroy (q : Nat) (pkt : W512)
  | partReset (q : Nat) (pkt : W512)
  | partitionReachesFree (p : Nat)
  | qCreate (q : Nat) (pkt : W512)
  | qEnable (q : Nat) (pkt : W512)
  | qDisable (q : Nat) (pkt : W512)
  | qDestroy (q : Nat) (pkt : W512)
  | qReset (q : Nat) (pkt : W512)
  | qModify (q : Nat) (pkt : W512)
  | gLoad (q : Nat) (pkt : W512)
  | gPatch (q : Nat) (pkt : W512)
  | gUnload (q : Nat) (pkt : W512)
  | fCreate (q : Nat) (pkt : W512)
  | fDestroy (q : Nat) (pkt : W512)
  | hInval (q : Nat) (pkt : W512)
  | modeStage (q : Nat) (pkt : W512)
  | modeAbort (q : Nat) (pkt : W512)
  | agentDrain (q : Nat) (pkt : W512)
  | agentReadmit (q : Nat) (pkt : W512) (image : List Byte)
  | imemLoad (q : Nat) (pkt : W512) (image : List Byte)
  -- launch path
  | fetchGrant
  | timesliceExpiry (p : Nat) (be : Bool)
  | descriptorArrival (launch : Nat) (desc : W512)
  | fragmentTableArrival (launch : Nat) (frags : List W512)
  | fragmentTableRead (launch : Nat)
  | hostReadFault (launch : Nat) (loopback : Bool) (addr : Nat)
  | chainAnnounceTimeout (q : Nat)
  | chainLeavesInlet (q : Nat)
  | relocation (q : Nat)
  | handleCacheFill (p index : Nat) (ok : Bool) (entry : BitVec 128)
  | constBufferReadDone (launch : Nat) (ok : Bool) (data : BitVec 2048)
  | waitArm (q : Nat)
  | waitTimeout (launch entry : Nat)
  | signalApply
  | memoryFlagReadDone (p handle : Nat) (ok : Bool) (word : W64)
  | memoryFlagWriteDone (p handle : Nat) (ok : Bool)
  | flagSignal (a : Nat)
  | flagUpdate (a : Nat)
  | schedulerArrival (q : Nat)
  | heldLaunchRecheck (eq : Nat)
  | directPush (launch : Nat)
  | graphContextStart (launch : Nat)
  | nodeStart (launch node : Nat)
  | nodeComplete (launch node : Nat)
  | coreGrant (core : Nat)
  | csliceExpiry (core : Nat)
  | contextSaveDone (core : Nat)
  | contextRestoreDone (core : Nat)
  | runaway (core : Nat)
  -- native instructions of the sluice cores
  | scAdd (i : FR) | scSub (i : FR) | scAnd (i : FR) | scOr (i : FR) | scXor (i : FR)
  | scSll (i : FR) | scSrl (i : FR) | scSra (i : FR)
  | scMin (i : FR) | scMax (i : FR) | scMinu (i : FR) | scMaxu (i : FR)
  | scMul (i : FR) | scMulhu (i : FR) | scDivu (i : FR) | scRemu (i : FR)
  | scAddi (i : FI) | scAndi (i : FI) | scOri (i : FI) | scXori (i : FI) | scShi (i : FI)
  | scLi (i : FL) | scLsh (i : FL)
  | scEq (i : FR) | scNe (i : FR) | scLt (i : FR) | scGe (i : FR) | scLtu (i : FR) | scGeu (i : FR)
  | scPand (i : FR) | scPor (i : FR) | scPxor (i : FR) | scPnot (i : FR) | scPmov (i : FR) | scSpmov (i : FR)
  | scBr (i : FB) | scCall (i : FB) | scJr (i : FR) | scJalr (i : FR)
  | scLd64 (i : FI) | scLd32 (i : FI) | scSt64 (i : FI) | scSt32 (i : FI)
  | scVld (i : FV) | scVst (i : FV) | scVldx (i : FV) | scVstx (i : FV)
  | scTld (i : FV) | scTst (i : FV) | scTzero (i : FV)
  | scVadd (i : FV) | scVsub (i : FV) | scVmul (i : FV) | scVfma (i : FV) | scVmin (i : FV) | scVmax (i : FV)
  | scVexp2 (i : FV) | scVlog2 (i : FV) | scVrcp (i : FV) | scVrsqrt (i : FV)
  | scVrsum (i : FV) | scVrmax (i : FV) | scVbcast (i : FV) | scVext (i : FV) | scVins (i : FV)
  | scVclt (i : FV) | scVceq (i : FV) | scVcvt (i : FV)
  | scTmma (i : FV) | scTmmaS2 (i : FV) | scTmmaS3 (i : FV)
  | scQpush (i : FR) | scQpushc (i : FR) | scQtry (i : FR) | scQdrain (i : FR)
  | scAset (i : FR) | scAnext (i : FR) | scArst (i : FR)
  | scXld (i : FR) | scXst (i : FR) | scXlds (i : FR) | scXsts (i : FR) | scXwait (i : FR) | scHrel (i : FR)
  | transferDone (core : Nat) (tag : Nat) (ok : Bool) (data : List Byte)
  | scSpin (i : FR)
  | spinOutcome (core outcome : Nat)
  | scFsig (i : FR) | scFxadd (i : FR) | scFcas (i : FR) | scFrd (i : FR) | scFence (i : FR)
  | scAcall (i : FR) | scAwait (i : FR) | scNop (i : FR) | scEnd (i : FR)
  | scCsrr (i : FI) | scCsrw (i : FI)
  | stallRelease (core : Nat)
  | taskStart (a : Nat)
  | saveData (a : Nat)
  | restoreData (a : Nat)
  | taskEnd (a : Nat)
  | waitReport (a : Nat)
  -- engine queues
  | mopPush (a : Nat)
  | localPush (a : Nat)
  | presentMop (a l : Nat)
  | managerClassHead (a l : Nat) (be : Bool)
  | mopWaitOutcome (a l : Nat) (outcome : MopOutcome)
  | barrierSatisfied (a l : Nat) (be : Bool)
  | eqDone (a l : Nat) (word : W64) (rep : EngRep)
  | eqPreemptAck (a l tileAt : Nat) (rep : EngRep)
  | eqFlushAck (a l : Nat)
  | flushLate (a l : Nat)
  | flushGiveup (a l : Nat)
  | allowanceSpent (a l : Nat)
  | preemptLate (a l : Nat)
  | eqxAbort (a launch : Nat)
  | eqxResume (a launch l : Nat)
  | eqxPreempt (a mask : Nat)
  | eqPart (a l : Nat) (rec : W512)
  -- completion
  | completion (a : Nat)
  | recordWrite (launch : Nat)
  | recordWriteResponse (launch : Nat)
  | resetQueueSettles (q : Nat)
  | drainTimeout (q : Nat)
  | hostWriteFault (txn : Nat)
  | interruptPresent
  | interruptTransfer
  | translationStart (ok : Bool) (image : List Byte)
  | translationEnd (out : TransOut)
  | walkStart (tag : Nat)
  | rootCacheFill (p seq : Nat) (ok : Bool) (word : W64)
  | ptSwap (fn p : Nat) (table : W32) (kindOk : Bool) (root : W64)
  | ptSwapWriteDone (p : Nat)
  | epochReclaim (p seq epoch : Nat)
  | partialRec (a : Nat)
  | mergeWriteResponse (txn : Nat)
  | hold (tag : Nat)
  | commit (tag : Nat)
  | basinExpiry
  -- Crossing unit
  | xcAck (link : Nat) (word : W32)
  | xcHold (link : Nat) (word : W32)
  | remoteSetSend (chip : Nat)
  | xcRx (link : Nat) (msg : BitVec 128)
  | remoteWaitTimeout (launch entry : Nat)
  | xcUpFall (link : Nat)
  | holdTimeout (link group chip : Nat)
  -- Steward
  | stkBermReq (a deadline : Nat)
  | bermDeadlineBand (a deadline : Nat)
  | bermGrant (a : Nat)
  | bermRelease (a ns10 : Nat)
  | bermOverlong (a : Nat)
  | stkWear (a : Nat) (report : W64) (w : StackWord) (entry : BitVec 128) (others : List StackWord)
  | stkDefect (a : Nat) (report old new : W64) (entry : BitVec 128)
  | relocationCopyDone (ok : Bool)
  | unitFence (a unit : Nat) (weight : Bool)
  | stewRetry (a : Nat) (w : StackWord) (entry : BitVec 128) (others : List StackWord)
  -- Watch
  | errPairOnset (index : Nat)
  | wireFaultOnset (index : Nat)
  | watchEvent (a : Nat)
  | watchWindowClose
  | fenceReset (a : Nat)
  | chipFailReportsEnd
  | evacWriteDone (ok : Bool)
  | testInjpair (fn : Nat) (data : W32)
  | testInjev (fn : Nat) (data : W32)
  -- service life
  | ageEvaluation (readings : List (Nat × W32))
  | pmDone (die mhz : Nat)
  | svcModeWrite (fn : Nat) (data : W32)
  | stage (a : Nat) (recalOk : Bool) (latency : Nat)
  | modeAck (a : Nat)
  | modeDeadline
  | modeCommitOrAbort (a : Nat)
  | modeSwitch
  | drainEnd (a : Nat)
  | drainTmoExpiry (a : Nat)
  | readmitEnterService (a : Nat)
  | logSpillResponse (ok : Bool)
  | logSpillWrite
  -- loop-backs, links, test
  | lbGo (fn : Nat) (data : W32)
  | lbStop (fn : Nat) (data : W32)
  | loopbackSend (a : Nat)
  | loopback (a : Nat)
  | loopbackAnswer (a rtt phase mhz : Nat) (bytes : BitVec 416)
  | loopbackTimeout (a : Nat)
  | flitReceive (dir : Dir) (a : Nat) (flit : W512)
  | replayReq (dir : Dir) (a : Nat)
  | tideLinkFault (a : Nat)
  | agentReset (a : Nat)
  | agentSelfReset (a : Nat)
  | mbistStart (inst : Nat)
  | mbistDone (inst fails first : Nat)
  | scanEn (inst : Nat)
  | porRstNAssert
  | rstNRelease
  | errorLevelEnd (index : Nat) (wire : Bool)
  | codeCacheFill (set tag : Nat) (ok : Bool)
  deriving DecidableEq, Repr

end Sys2Proof
end

