-- ==== Sys2Proof/Config.lean ====
section
/-! DEFINITION. Configuration: the free values of the model (values the spec leaves open), each an opaque constant,
and the fixed sizes of the block (R33). -/

namespace Sys2Proof.Config

/-- A word that the block reads from outside itself (pins, memory) where the command carries none; applied to State's
counter `free`. Log entry 3. -/
opaque freeWord : Nat → BitVec 64
/-- A value that the spec does not state, as a function of what it depends on: the case, and two numbers made of the
operands, the context or the macro-op. Log entry 3. -/
opaque freeOf : Nat → Nat → Nat → BitVec 64
/-- VEXP2's result before it is held to 2 ulp (R350). Log entry 4. -/
opaque exp2Cand : BitVec 32 → BitVec 32
/-- VLOG2's result before it is held to 2 ulp (R350). Log entry 4. -/
opaque log2Cand : BitVec 32 → BitVec 32
/-- VRCP's result before it is held to 2 ulp (R350). Log entry 4. -/
opaque rcpCand : BitVec 32 → BitVec 32
/-- VRSQRT's result before it is held to 2 ulp (R350). Log entry 4. -/
opaque rsqrtCand : BitVec 32 → BitVec 32
/-- The merge unit's exp before it is held to 2 ulp (R408). Log entry 4. -/
opaque expCand : BitVec 32 → BitVec 32
/-- The order in which VRSUM adds lanes and TMMA adds products: an item's sort key (R323, R350, R352). Log entry 5. -/
opaque orderKey : Nat → Nat

/-- On-chip flags (R33). -/
def flagCount : Nat := 65536
/-- Host queues (R33). -/
def queueCount : Nat := 4096
/-- Armed wait entries of the block (R169). -/
def armedMax : Nat := 16384
/-- Memory-flag cache entries (R169). -/
def memFlagMax : Nat := 4096
/-- Inlet buffer entries (R116). -/
def inletMax : Nat := 4096
/-- Merge slots of the Outfall (R407). -/
def mergeMax : Nat := 8192
/-- Basin entries (R402). -/
def basinMax : Nat := 4096
/-- Walk-tracker counts (R388). -/
def walkMax : Nat := 4096
/-- Root-cache words (R383). -/
def rootCacheMax : Nat := 1024
/-- On-chip audit log entries (R498). -/
def logMax : Nat := 4096
/-- Open closure instances of the Crossing unit (R373). -/
def instMax : Nat := 256
/-- Units awaiting fencing at once (R427). -/
def fenceMax : Nat := 256
/-- Push credits the Root holds for one lane of an engine queue (R282). -/
def laneCredits : Nat := 28
/-- Slots of a lane kept for the agent's own core (R282). -/
def localSlots : Nat := 4
/-- Function number of the physical function, the manager (R39). -/
def fnManager : Nat := 0x40
/-- Function number that names no function in an audit entry (R495). -/
def fnNone : Nat := 0x7F

end Sys2Proof.Config
end

