-- ==== Sys2Proof/Machine/StateHost.lean ====
section
/-! DEFINITION. State of the host side: integration parameters, start-up and global registers, host ports, event port,
audit log, the Watch, service life, loop-back and test registers. Every field is plain data; its default is its value
at reset. -/

namespace Sys2Proof.Machine

/-- Integration parameters (R63). They are fixed at integration; the defaults are the reference package (R36). The
values that R36 leaves to the node design are log entry 6. -/
structure Params where
  numAgents : Nat := 44
  tidePorts : Nat := 8
  xingLinks : Nat := 8
  rootErrInputs : Nat := 192
  agentErrInputs : Nat := 24
  agentPort : List Nat := [0, 1, 2, 3, 0, 1, 2, 3, 4, 5, 6, 7, 0, 0, 0, 0, 1, 1, 1, 1, 2, 2, 2, 2, 3, 3, 3, 3,
    4, 4, 4, 4, 5, 5, 5, 5, 6, 6, 6, 6, 7, 7, 7, 7]
  /-- p_eq_present of agents that differ from 0xFFFF. -/
  eqAbsent : Tbl Nat := []
  /-- Agents with p_stack_if 1. -/
  stackAgents : List Nat := (List.range 32).map (· + 12)
  /-- eq_cap words that differ from the class default (R293). -/
  eqCap : Tbl W32 := []
  /-- p_scan_chains of the Root, and of agents that differ from it. -/
  scanChains : Nat := 1
  agentScanChains : Tbl Nat := []
  deriving DecidableEq, Repr

/-- The parameters lie in their ranges and break no constraint of R63; a combination that does fails elaboration, so it
makes no block. -/
def Params.elaborates (p : Params) : Bool :=
  decide (1 ≤ p.numAgents) && decide (p.numAgents ≤ 64) && decide (1 ≤ p.tidePorts) && decide (p.tidePorts ≤ 8)
    && decide (p.tidePorts ≤ p.numAgents) && p.agentPort.headD 0 == 0
    && (List.range p.numAgents).all (fun a => decide (p.agentPort.getD a 0 < p.tidePorts))
    && (List.range p.tidePorts).all (fun k => (List.range p.numAgents).any (fun a => p.agentPort.getD a 0 == k))
    && decide (p.xingLinks ≤ 8) && decide (p.rootErrInputs ≤ 192) && decide (p.agentErrInputs ≤ 24)
    && p.eqAbsent.all (fun x => decide (0 < x.2) && decide (x.2 < 65536))
    && decide (1 ≤ p.scanChains) && decide (p.scanChains ≤ 64)
    && p.agentScanChains.all (fun x => decide (1 ≤ x.2) && decide (x.2 ≤ 64))

/-- Block-level start-up state (R73). -/
inductive Blk where
  | reset | starting | failed | ready
  deriving DecidableEq, Repr

/-- Bring-up or re-admission of one agent (R77, R492): the step, exchanges done and sums measured. -/
structure Bring where
  step : Nat := 0
  readmit : Bool := false
  exch : Nat := 0
  rttSum : Nat := 0
  idSeen : Bool := false
  cfgSeen : Bool := false
  /-- tref_clk phase: smallest and largest of the exchanges, ns. -/
  phMin : Nat := 0
  phMax : Nat := 0
  eqMask : Nat := 0
  mhz : Nat := 0
  deriving DecidableEq, Repr

/-- Start-up, resets and the GLB registers. -/
structure Glb where
  blk : Blk := .reset
  /-- por_rst_n is asserted. -/
  por : Bool := true
  /-- rst_n is held low. -/
  rstn : Bool := false
  phase : Nat := 1
  failPhase : Nat := 0
  failDetail : Nat := 0
  testPin : Bool := false
  testLatched : Bool := false
  fuse : BitVec 256 := 0
  fuseSeen : Bool := false
  /-- The next start is a cold one: no start has begun since por_rst_n was asserted (R71). -/
  cold : Bool := true
  /-- Baseline of the Root's ageing monitors, stored in phase SENSOR (R71). -/
  monBase : W32 := 0
  /-- Tide ports whose tide_link_up is high (R50). -/
  portUp : List Nat := []
  /-- A function-level reset of the physical function is in progress (R49). -/
  pfFlr : Bool := false
  rstCause : W32 := 1
  rootMhz : Nat := 0
  dieId : W64 := 0
  early : Nat := 0
  frozen : Bool := false
  evacWfault : Bool := false
  /-- Agent table (R84), entry words. -/
  agents : Tbl W64 := []
  bring : Tbl Bring := []
  /-- Virtual functions whose FLR is in progress; flr_done assertions made, latest last (R49). -/
  flr : List Nat := []
  flrDone : List Nat := []
  /-- A warm reset has begun and waits for R61's end. -/
  warmBegun : Bool := false
  /-- The bit of GLB_RSTCAUSE of the warm reset that has begun. -/
  warmBit : Nat := 0
  mbist : W32 := 0
  mbistRun : Bool := false
  /-- Scan was asserted on the Root instance (R515). -/
  scanLost : Bool := false
  deriving DecidableEq, Repr

/-- What a manager-port write carries. -/
inductive WrKind where
  | record (launch q : Nat)
  | flag (key : Nat)
  | reply (q : Nat) (irq : Bool)
  | spill (n : Nat)
  | evac
  | merge (key slot eq tag : Nat)
  | root (part : Nat)
  | entry (p index : Nat)
  | save (slot : Nat)
  | xfer (core tag : Nat)
  | stewWord
  /-- A page of a generation (R187). -/
  | arena
  | loopWrite
  deriving DecidableEq, Repr

/-- An outstanding manager-port write (R44): function, PASID, address, length and data. -/
structure Wr where
  txn : Nat
  fn : Nat
  pasid : Nat
  addr : Nat
  len : Nat
  data : Nat
  kind : WrKind
  deriving DecidableEq, Repr

/-- What a manager-port read fetches. -/
inductive RdKind where
  /-- A piece of a burst of descriptors of a queue (R116). -/
  | ring (q : Nat)
  | fragTable (launch : Nat)
  | command (q : Nat)
  | handle (fill : Nat)
  | constBuf (launch : Nat)
  | flag (key : Nat)
  | image
  /-- A line of the graph store's code cache (R201). -/
  | code (line : Nat)
  | root (key : Nat)
  | xfer (core tag : Nat)
  | restore (slot : Nat)
  /-- What the merges of an OUTFALL loop-back exchange wrote (R507). -/
  | loop (agent : Nat)
  deriving DecidableEq, Repr

/-- A manager-port read whose data has not come (R44): function, PASID, address, bytes. -/
structure Rd where
  fn : Nat
  pasid : Nat
  addr : Nat
  len : Nat
  kind : RdKind
  deriving DecidableEq, Repr

/-- A 64-bit register write half made, or a read half made (R6): address and the word kept. -/
structure Half where
  addr : Nat
  word : W32
  deriving DecidableEq, Repr

/-- An agent-window access whose response is held (R43). -/
structure HeldAcc where
  fn : Nat
  addr : Nat
  wr : Bool
  data : W64
  agent : Nat
  internal : Nat := 0
  deriving DecidableEq, Repr

/-- An accepted access whose response is not given (R39): its ID, its direction, the RTAG it waits for, and its read data
once known. -/
structure Owed where
  id : Nat
  wr : Bool
  rtag : Option Nat
  val : Option Nat
  deriving DecidableEq, Repr

/-- Subordinate and manager port. `resps`: the responses that the last answer gave, in order (more than one when an answer
releases later responses of its ID); `resp` and `respId` are the last of them. -/
structure Port where
  resp : BitVec 128 := 0
  respId : Nat := 0
  respCount : Nat := 0
  resps : List Owed := []
  /-- Accepted accesses without a response, in the order of acceptance. -/
  owed : List Owed := []
  wlatch : List Half := []
  rlatch : List Half := []
  held : Tbl HeldAcc := []
  nextRtag : Nat := 0
  nextTxn : Nat := 0
  writes : List Wr := []
  reads : List Rd := []
  deriving DecidableEq, Repr

/-- Event port (R46, R47): pending vectors, the presented one, and requests that wait for write responses (R48). -/
structure Evt where
  pending : List Nat := []
  presented : Option (Nat × Nat) := none
  waiting : List (Nat × List Nat) := []
  /-- Queue vectors that wait for the host-memory signals of a launch (R152): vector and LAUNCH_ID. -/
  hostSig : List (Nat × Nat) := []
  deriving DecidableEq, Repr

/-- The audit log and its registers (R494–R503). -/
structure Log where
  entries : List (BitVec 256) := []
  seq : Nat := 0
  spill : Bool := false
  ringLog2 : Nat := 8
  thresh : Nat := 0x100
  ringBase : W64 := 0
  head : Nat := 0
  tail : Nat := 0
  lostFlag : Bool := false
  spillFault : Bool := false
  high : Bool := false
  lost : Nat := 0
  lostSince : Nat := 0
  rdsel : Nat := 0
  rddata : BitVec 256 := 0
  inflight : Nat := 0
  deriving DecidableEq, Repr

/-- A classification window of one entry and one scope key (R445). -/
structure Win where
  open_ : Bool := false
  start : Nat := 0
  n : Nat := 0
  severe : Bool := false
  /-- Code of the last event counted. -/
  code : Nat := 0
  deriving DecidableEq, Repr

/-- What an event may name beside a partition and an agent. -/
inductive Item where
  | fn | addr | queue | issuer | value | tick | core | launch | pc | cause | handle | lastQ | lastF | engineQueue
  | link | group | chip | tag | opcode | count | deadline | tier | unit | newUnit | reason | offset
  deriving DecidableEq, Repr

/-- A raised event: code, index, wire entry, partition and agent named, and what else it names. -/
structure Ev where
  code : Nat
  idx : Nat
  wire : Bool
  part : Option Nat
  agent : Option Nat
  named : List (Item × Nat) := []
  deriving DecidableEq, Repr

/-- An action the Watch has taken and the block has still to carry out (R447, R448). -/
structure Act where
  kind : Nat
  ev : Ev
  deriving DecidableEq, Repr

/-- The Watch (R439–R459). Entry key: index × 2 + 1 for a wire entry; window key: entry key × 128 + scope key. -/
structure Watch where
  cfg : Tbl W32 := []
  cfgNext : Tbl W32 := []
  wins : Tbl Win := []
  notarget : List Nat := []
  level : List Nat := []
  wire : List Nat := []
  cnt : Tbl Nat := []
  logmin : Bool := true
  chipfail : Bool := false
  evacDone : Bool := false
  evacNobase : Bool := false
  incomplete : Bool := false
  last : W64 := 0
  /-- The last event with all that it names (WATCH_LAST holds its code, source, partition and agent). -/
  lastEv : Option Ev := none
  fail : W64 := 0
  evacBase : W64 := 0
  evacSize : Nat := 0
  templim : Nat := 0x4D8
  actions : List Act := []
  /-- Chip-fail step in progress (R451), 0 when none. -/
  failStep : Nat := 0
  freezeTick : Nat := 0
  fencing : List Nat := []
  deriving DecidableEq, Repr

/-- A mode change (R484–R489): number, switch tick, items as words of 128 bits, acknowledgements. -/
structure Mode where
  state : Nat := 0
  result : Nat := 0
  items : Nat := 0
  rootLag : Nat := 0
  number : Nat := 0
  tick : Nat := 0
  lag : W64 := 0
  its : List (BitVec 128) := []
  acked : List Nat := []
  deriving DecidableEq, Repr

/-- A drain in progress (R491): the admin command that waits for it and the launches failed so far. -/
structure Drain where
  q : Nat := 0
  tag : Nat := 0
  failed : Nat := 0
  /-- DRAIN_TMO has passed (R491). -/
  late : Bool := false
  deriving DecidableEq, Repr

/-- An image on its way into an agent's inactive bank (R277, R492): the command's queue and tag, the bank, the offset of the
write that is out. -/
structure ImemJob where
  q : Nat
  tag : Nat
  readmit : Bool := false
  bankB : Bool := false
  off : Nat := 0
  image : List Byte := []
  deriving DecidableEq, Repr

/-- Service mode, ageing and live service (R478–R502). -/
structure Svc where
  mode : Nat := 0
  modeNext : Option Nat := none
  lead : Nat := 0x14
  drainTmo : Nat := 0x2710
  mc : Mode := {}
  interval : Nat := 0x3E8
  slackMin : Nat := 0x10
  levelMax : Nat := 0xF
  driftWarn : Nat := 0x52
  driftLimit : Nat := 0x148
  ceilMin : Nat := 0xC0
  ceilBase : Nat := 0x100
  gain : Nat := 0x10
  driftMax : Nat := 0
  driftAgent : Nat := 0
  driftRoot : Bool := false
  ageBits : Nat := 0
  ageRoot : W32 := 0
  lastCeil : Nat := 0x100
  wasAbove : List Nat := []
  dieLevel : Tbl Nat := []
  pmOut : Tbl Nat := []
  draining : Tbl Drain := []
  readmit : Tbl Drain := []
  readmitReady : List Nat := []
  readmitImage : Tbl (List Byte) := []
  recal : Tbl Nat := []
  imem : Tbl ImemJob := []
  deriving DecidableEq, Repr

/-- One loop-back exchange in flight (R505). -/
structure LbEx where
  agent : Nat
  k : Nat
  sent : BitVec 416
  deriving DecidableEq, Repr

/-- Loop-backs (R504–R512). -/
structure Lb where
  point : Nat := 0
  agent : Nat := 0
  all : Bool := false
  unit : Nat := 0
  count : Nat := 0
  pat : W32 := 1
  buf : W64 := 0
  busy : Bool := false
  done : Bool := false
  mismatch : Bool := false
  aborted : Bool := false
  refused : Bool := false
  exch : Nat := 0
  bad : Nat := 0
  rttMin : Nat := 0
  rttMax : Nat := 0
  rttSum : Nat := 0
  good : Nat := 0
  firstBad : Option (Nat × Nat × Nat × Nat) := none
  flight : List LbEx := []
  /-- Agents that take part; 0 alone for the points at the Root. -/
  members : List Nat := []
  next : Tbl Nat := []
  stopping : Bool := false
  deriving DecidableEq, Repr

/-- Fault-injection registers (R460). -/
structure Test where
  injPair : W32 := 0
  injEv : W32 := 0
  deriving DecidableEq, Repr

end Sys2Proof.Machine
end

