-- ==== Sys2Proof/Machine/StateTide.lean ====
section
/-! DEFINITION. Tide messages as data (R52, R53, R172, R284, R307, R406, R443, R488, R505) and the two streams between
the Root and one agent (R51, R54). -/

namespace Sys2Proof.Machine

/-- MOP_PUSH (R284). -/
structure PushMsg where
  eq : Nat := 0
  be : Bool := false
  chained : Bool := false
  predQ : Nat := 0
  tag : Nat := 0
  predTag : Nat := 0
  part : Nat := 0
  maint : Bool := false
  launch : Nat := 0
  charge : Nat := 0
  allow : Nat := 0
  used0 : Nat := 0
  mop : W512 := 0
  deftmo : Nat := 0
  deriving DecidableEq, Repr

/-- COMPLETION (R307). -/
structure Compl where
  eq : Nat := 0
  tag : Nat := 0
  launch : Nat := 0
  status : Nat := 0
  cause : Nat := 0
  error : Nat := 0
  cycles : Nat := 0
  ns10 : Nat := 0
  bytes : Nat := 0
  tileAt : Nat := 0
  flags : Nat := 0
  fflags : Nat := 0
  whandle : Nat := 0
  deriving DecidableEq, Repr

/-- A tide message (R52). -/
inductive Msg where
  | idle
  | tick (no period : Nat)
  | mopPush (p : PushMsg)
  | flagUpdate (handle : Nat) (word : W64)
  | flagSignal (handle op operand launch : Nat)
  | completion (c : Compl)
  | partialRec (eq tag launch : Nat) (rec : W512)
  | regRead (off rtag size : Nat)
  | regWrite (off rtag size strobes : Nat) (data : BitVec 256)
  | regReply (off rtag result : Nat) (data : BitVec 256)
  | watchEvent (j : Nat) (wire level : Bool) (count : Nat)
  | modeStage (sub items number tick : Nat) (its : BitVec 384)
  | modeAck (res cause reason number : Nat)
  | ctxXfer (sub slot launch off : Nat) (data : List Byte)
  | loopback (sub : Nat) (body : BitVec 416)
  | replayReq (seq : Nat)
  | agentReset (cause : Nat)
  deriving DecidableEq, Repr

/-- The sending end of a stream (R54): next SEQ, flits kept for replay, credits, flits that wait (TYPE, CONT, payload),
the IDLE and REPLAY_REQ flits on their way, and how often each SEQ kept has been replayed. -/
structure TxSide where
  seq : Nat := 0
  unacked : List (Nat × W512) := []
  credits : Nat := 0
  waiting : List (Nat × Bool × BitVec 416) := []
  control : List W512 := []
  replays : Tbl Nat := []
  deriving DecidableEq, Repr

/-- The receiving end of a stream: next SEQ expected, payloads of a message that continues, messages delivered and not
yet taken, flits freed since the last return. -/
structure RxSide where
  next : Nat := 0
  acc : List (BitVec 416) := []
  inbox : List Msg := []
  freed : Nat := 0
  used : Nat := 0
  deriving DecidableEq, Repr

/-- The two streams between the Root and one agent. -/
structure Link where
  up : Bool := false
  fault : Bool := false
  /-- An IDLE flit with credits has come from the agent since its port's link rose (R77). -/
  idleIn : Bool := false
  downTx : TxSide := {}
  downRx : RxSide := {}
  upTx : TxSide := {}
  upRx : RxSide := {}
  /-- Of each FLAG_SIGNAL that the agent has sent and the Root has not taken, oldest first: the save slot of the task whose FSIG it
  carries (R264, R265). -/
  sigBy : List (Option Nat) := []
  deriving DecidableEq, Repr

end Sys2Proof.Machine
end

