-- ==== Sys2Proof/Machine/StateCore.lean ====
section
/-! DEFINITION. State of sluice cores and their contexts (R245–R281) and of the agents: engine queues, flag mirror,
Watch relay, berm gate, tick (R21, R282–R316, R418–R422, R443, R53). -/

namespace Sys2Proof.Machine

/-- An address-stream generator (R258–R260): the descriptor loaded, its place in data memory, the indices reached. -/
structure Gen where
  active : Bool := false
  desc : BitVec 384 := 0
  descOff : Nat := 0
  idx : List Nat := [0, 0, 0, 0]
  ended : Bool := false
  deriving DecidableEq, Repr

/-- A transfer of a context (R255). -/
structure Xfer where
  tag : Nat
  pc : Nat
  load : Bool
  /-- Pieces moved: data-memory address, memory address, bytes. -/
  pieces : List (Nat × Nat × Nat)
  deriving DecidableEq, Repr

/-- Why a context is stalled (R265). -/
inductive Stall where
  | qpush (eq : Nat) (mop : W512) (chained : Bool)
  | qtry (eq : Nat) (mop : W512) (d : Nat)
  | qdrain (d : Nat)
  | xfer (op : Nat) (i : FR)
  | xwait
  | fence
  | spin (d handle compare crest : Nat) (out : Option Nat)
  | acall (agent entry : Nat) (arg : W512)
  | await
  | end_ (cause : Nat)
  | branch (target link : Nat)
  /-- HREL waits for a fill of the handle cache: destination, number of the fill. -/
  | hrel (d fill : Nat)
  | frd (d handle : Nat)
  /-- A SPIN that finds the mirror, or the memory-flag cache, full. -/
  | spinHold (d handle compare crest : Nat)
  deriving DecidableEq, Repr

/-- Context states (R270) and the steps between them. -/
inductive CtxSt where
  | held | running | saving | saved | restoring
  deriving DecidableEq, Repr

/-- A context (R245, R246, R270): a graph context of a Root core, Iznum's, or an agent task. -/
structure Ctx where
  launch : Nat := 0
  part : Nat := 0
  be : Bool := false
  task : Bool := false
  core : Nat := 0
  nslices : Nat := 0
  /-- Slice IDs held on the core; empty when written out to the save slot. -/
  slices : List Nat := []
  /-- Data memory while written out: data, written lines and ECC errors, by context address. -/
  outMem : List Host.Cell := []
  outWritten : List Nat := []
  st : CtxSt := .held
  saveOrder : Nat := 0
  node : Nat := 0
  gen : Nat := 0
  pc : Nat := 0
  s : Tbl W64 := []
  p : Tbl W64 := []
  g : Tbl Gen := []
  v : Tbl W512 := []
  t : Tbl (BitVec 8192) := []
  tfmt : Nat := 0
  fflags : Nat := 0
  cause : Nat := 0
  causePc : Nat := 0
  skips : Nat := 0
  spin : Nat := 3
  spinLeft : Nat := 0
  /-- The SPIN at the PC was interrupted by a save: its time runs on (R266). -/
  spinCut : Bool := false
  scratch : Tbl W64 := []
  /-- Free values that the context has taken (log entry 3). -/
  frees : Nat := 0
  /-- Macro-ops pushed by the running node and not completed; one of them ended badly. -/
  pend : Nat := 0
  pushBad : Bool := false
  /-- The previous push of the node: engine queue and tag. -/
  lastPush : Option (Nat × Nat) := none
  /-- The previous push has ended with a status other than ST_OK. -/
  lastBad : Bool := false
  xfers : List Xfer := []
  /-- Agent tasks outstanding: agent and save slot. -/
  tasks : List (Nat × Nat) := []
  unapplied : Nat := 0
  stall : Option Stall := none
  /-- A CODE node of the launch has started and waits for a core, or a task has been restored. -/
  ready : Bool := false
  firstSkip : Nat := 0
  /-- Number of the last grant, for the round robin of R231. -/
  lastGrant : Nat := 0
  /-- For a task: the agent's entry number, class, tick, the charges for local pushes, DEFTMO. -/
  entry : Nat := 0
  tick : Nat := 0
  deftmo : Nat := 0
  charges : List (Nat × Nat × Nat) := []
  arg : W512 := 0
  deriving DecidableEq, Repr

/-- A sluice core (R242, R250, R275, R280): instruction-memory banks as sparse tables of words, data memory by core
address, slices and the contexts that hold them. -/
structure Core where
  st : Nat := 0
  bankB : Bool := false
  staged : Bool := false
  imemA : Tbl W32 := []
  imemB : Tbl W32 := []
  /-- The inactive bank has taken an accepted write since it became inactive (R275). -/
  wroteInactive : Bool := false
  dmem : List Host.Cell := []
  /-- Written lines (R251), words with a single-bit and with a double-bit ECC error (R253), by core address. -/
  written : List Nat := []
  ecc1 : List Nat := []
  ecc2 : List Nat := []
  /-- Slice to context slot plus one; 0 is free. -/
  owner : Tbl Nat := []
  run : Option Nat := none
  skip : Nat := 0
  corr : Nat := 0
  uncorr : Nat := 0
  saves : Nat := 0
  deriving DecidableEq, Repr

/-- How a macro-op stands in its lane (R282–R312). -/
inductive EntSt where
  | queued | presented | stopped | flushing | ended
  deriving DecidableEq, Repr

/-- A macro-op in a lane. -/
structure Ent where
  /-- Order of entry at the agent, and the lane. -/
  seq : Nat := 0
  be : Bool := false
  tag : Nat := 0
  launch : Nat := 0
  part : Nat := 0
  maint : Bool := false
  chained : Bool := false
  predQ : Nat := 0
  predTag : Nat := 0
  chainGo : Bool := false
  mop : W512 := 0
  loc : Bool := false
  /-- Save slot of the task that pushed it locally. -/
  slot : Nat := 0
  deftmo : Nat := 0
  /-- Skip cause and ERROR found at entry or at the head, 0 when none (R312). -/
  cause : Nat := 0
  error : Nat := 0
  st : EntSt := .queued
  tstart : Nat := 0
  cycles : Nat := 0
  ns10 : Nat := 0
  bytes : Nat := 0
  fflags : Nat := 0
  /-- The macro-op ran on while a berm was granted at D = 0 (R420). -/
  cut : Bool := false
  /-- Final outcome: STATUS, CAUSE, ERROR, TILE_AT, FLAGS, WHANDLE. -/
  fin : Option (Nat × Nat × Nat × Nat × Nat × Nat) := none
  late : Bool := false
  deriving DecidableEq, Repr

/-- A launch's record at an engine queue manager (R284, R226). -/
structure LRec where
  charge : Nat := 0
  allow : Nat := 0
  used : Nat := 0
  paused : Bool := false
  deriving DecidableEq, Repr

/-- An armed WAIT at a lane head (R303), and the outcome that a value of its flag has given it: 0 met, 1 poison. -/
structure MWait where
  be : Bool
  seq : Nat
  out : Option Nat := none
  deriving DecidableEq, Repr

/-- An engine queue manager (R282–R316). `lc` and `be` hold the lanes, head first; `done_` the ended macro-ops whose
signal and COMPLETION wait for a flush, oldest first. -/
structure EqQ where
  lc : List Ent := []
  be : List Ent := []
  done_ : List Ent := []
  /-- The presented macro-op: lane and seq. -/
  pres : Option (Bool × Nat) := none
  genLc : Gen := {}
  genBe : Gen := {}
  genLcBy : Nat := 0
  genBeBy : Nat := 0
  recs : Tbl LRec := []
  wait : Option MWait := none
  /-- eq_preempt asserted: kind 0 or 1. -/
  preempt : Option Nat := none
  preemptLate : Bool := false
  /-- The stop asked for is: 0 overrun pause, 1 tick pre-emption, 2 berm. -/
  stopFor : Nat := 0
  /-- Tags whose macro-op has ended with a status other than DONE, until the tag is used again. -/
  badTags : List Nat := []
  nextLocal : Nat := 0
  count : Nat := 0
  skips : Nat := 0
  faults : Nat := 0
  lastCause : Nat := 0
  lastOpc : Nat := 0
  lastTag : Nat := 0
  lastId : Nat := 0
  preempts : Nat := 0
  deriving DecidableEq, Repr

/-- A flag of an agent's mirror (R172): the word, once it has arrived, and the users that name it. -/
structure Mir where
  word : Option W64 := none
  users : Nat := 0
  deriving DecidableEq, Repr

/-- Berm gate of a stack agent (R418–R422), its parameters and its counters (R438). -/
structure Berm where
  len : Nat := 2
  guard : Nat := 8
  hold : Nat := 0x14
  mask : Nat := 0xFFFF
  svcEq : Nat := 0
  req : Bool := false
  granted : Bool := false
  d : Nat := 0
  forced : Bool := false
  overlong : Bool := false
  noPresent : Bool := false
  deriving DecidableEq, Repr

/-- A mode change staged at an agent (R484, R488). -/
structure AgMode where
  staged : Bool := false
  committed : Bool := false
  number : Nat := 0
  tick : Nat := 0
  its : BitVec 384 := 0
  items : Nat := 0
  acked : Bool := false
  latency : Nat := 0
  deriving DecidableEq, Repr

/-- A Polder agent (R21). Contexts of its tasks are keyed by save slot; relay entries
by source × 2 + wire: onsets not yet sent, plus one. -/
structure Agent where
  /-- The agent is out of reset; its initialisation has ended, and ended well (R76). -/
  running : Bool := false
  initDone : Bool := false
  initOk : Bool := false
  fuse : BitVec 256 := 0
  testLatched : Bool := false
  /-- The fuse word has been read since the cold reset. -/
  latchSeen : Bool := false
  /-- Its CRC matched. -/
  fuseOk : Bool := false
  rstCauseMsg : Nat := 0
  /-- Baseline of the agent's ageing monitors (R76). -/
  monBase : W32 := 0
  core : Core := {}
  tasks : Tbl Ctx := []
  arrivals : List Nat := []
  /-- Save slots of tasks that had a push skipped and whose TASK_END the Root has not taken (R262). -/
  pushSkips : List Nat := []
  eqs : Tbl EqQ := []
  mirror : Tbl Mir := []
  relay : Tbl Nat := []
  level : List Nat := []
  wire : List Nat := []
  age : W32 := 0
  cal : W64 := 0
  berm : Berm := {}
  mode : AgMode := {}
  tickNo : Nat := 0
  period : Nat := 0
  /-- The instant fixed for the last tick, on the agent's tref_clk count, in ns (R53, R55). -/
  tickAt : Option Nat := none
  mbist : W32 := 0
  mbistRun : Bool := false
  scanLost : Bool := false
  /-- Order of the next entry into a lane. -/
  nextSeq : Nat := 0
  /-- Pieces of a slot image that arrive (R53). -/
  pieces : List (Nat × List Byte) := []
  deriving DecidableEq, Repr

end Sys2Proof.Machine
end

