-- ==== Sys2Proof/Machine/StateRoot.lean ====
section
/-! DEFINITION. State of the Root's units: admin queues, partitions, host queues, Inlet, launches, relocation unit, Weir,
graph store, Iznum, scheduler, save area, attention, Basin, Outfall, Crossing unit, Steward. -/

namespace Sys2Proof.Machine

/-- An admin command in flight (R98): started and not yet replied. -/
structure Cmd where
  pkt : W512
  waiting : Bool := false
  deriving DecidableEq, Repr

/-- An admin queue (R86, R87): registers, commands read and not started, commands in flight. -/
structure Adm where
  sqBase : W64 := 0
  cqBase : W64 := 0
  log2 : Nat := 4
  enable : Bool := false
  sqTail : Nat := 0
  sqHead : Nat := 0
  cqHead : Nat := 0
  cqTail : Nat := 0
  phase : Bool := true
  stat : Nat := 0
  read : List W512 := []
  flight : List Cmd := []
  /-- Replies written and not consumed. -/
  owed : Nat := 0
  deriving DecidableEq, Repr

/-- Partition states (R102). -/
inductive PSt where
  | free | maint | active | halted | resetting
  deriving DecidableEq, Repr

/-- Share of a partition, its state and its window registers (R93, R153, R184, R185, R241, R358, R415, R467, R477). -/
structure Part where
  st : PSt := .free
  flr : Bool := false
  pasid : Nat := 0
  queueLimit : Nat := 0
  engineShare : Nat := 0
  sluiceShare : Nat := 0
  flagBase : Nat := 0
  flagCount : Nat := 0
  gctxBase : Nat := 0
  gctxCount : Nat := 0
  htabEntries : Nat := 0
  htabBase : W64 := 0
  waitLimit : Nat := 0
  basinLimit : Nat := 0
  /-- Descriptors announced and not fetched of the queues that its reset freed (R113). -/
  lost : Nat := 0
  pstat : Nat := 0
  haltSrc : Bool := false
  haltCode : Nat := 0
  hits : Nat := 0
  misses : Nat := 0
  lerrId : Nat := 0
  lerrError : Nat := 0
  lerrStatus : Nat := 0
  lerrCount : Nat := 0
  dflag : W64 := 0
  dfcnt : Nat := 0
  wstat : Nat := 0
  werrId : Nat := 0
  werrHandle : Nat := 0
  werrAddr : Nat := 0
  werrInfo : W32 := 0
  peerId : Nat := 0
  peerHandle : Nat := 0
  /-- The words of the group latched by a read of PWIN_WERRINFO (R185): LAUNCH_ID, HANDLE, ADDR, peer ID, peer HANDLE. -/
  werrLatch : Option (Nat × Nat × Nat × Nat × Nat) := none
  sstat : Nat := 0
  slow : W32 := 0
  fsticky : W32 := 0
  deriving DecidableEq, Repr

/-- PWIN_SEQ and PWIN_PT registers of a partition and its swap in progress (R390, R415). -/
structure Seqs where
  base : W64 := 0
  cnt : Nat := 0
  rcl : Nat := 0
  busy : Bool := false
  result : Nat := 0
  dropped : Bool := false
  epoch : Nat := 0
  newEpoch : Nat := 0
  deriving DecidableEq, Repr

/-- Host queue states (R103). -/
inductive QSt where
  | unused | created | enabled | draining | idle | halted | resetting
  deriving DecidableEq, Repr

/-- A host queue: configuration, positions and registers (R94, R107, R128). -/
structure Queue where
  st : QSt := .unused
  owner : Nat := 0
  ringBase : W64 := 0
  log2 : Nat := 0
  be : Bool := false
  drainIrq : Bool := false
  ringLoc : Bool := false
  weight : Nat := 0
  burst : Nat := 0
  timeslice : Nat := 0
  defTmo : Nat := 0
  drainTmo : Nat := 0
  head : Nat := 0
  tail : Nat := 0
  idleBit : Bool := false
  drainTmoBit : Bool := false
  dbInvalid : Bool := false
  haltCause : Nat := 0
  ignored : Nat := 0
  discarded : Nat := 0
  toUnused : Bool := false
  /-- Positions by which HEAD has moved on in all, through every reset of the queue (R175). -/
  moved : Nat := 0
  /-- E_DRAIN_TIMEOUT has been raised for the drain in progress (R124). -/
  drainLate : Bool := false
  /-- Number within its chain of the next descriptor to be fetched, when an earlier member has failed in the Inlet (R141). -/
  broken : Nat := 0
  /-- Slots issued for fetch ahead of HEAD, and those of them that have arrived (R108). -/
  issued : Nat := 0
  ahead : List Nat := []
  /-- As captured at the freeze cycle (R451, R454): HEAD, TAIL, launches outstanding, position of the oldest that completes
  with E_CHIP_FAIL. -/
  capHead : Nat := 0
  capTail : Nat := 0
  capOut : Nat := 0
  capOld : Nat := 0
  engineNs : Nat := 0
  bytes : Nat := 0
  energyNj : Nat := 0
  deriving DecidableEq, Repr

/-- Inlet arbitration (R115, R116). Slice keys: partition × 2 + class. -/
structure Inlet where
  grants : Nat := 0
  nextSeq : Nat := 1
  holder : Tbl Nat := []
  credit : Tbl Nat := []
  lastLc : Nat := 63
  lastBe : Nat := 63
  reserveFor : Option Nat := none
  reserveWait : List Nat := []
  deriving DecidableEq, Repr

/-- Where a launch stands on the launch path (R29, R232). -/
inductive LStage where
  | fetch | fragWait | fragRead | inlet | reloc | weirIn | weir | sched | held | booked | running | outfall | written
  deriving DecidableEq, Repr

/-- A wait entry of a launch (R131, R165): number under R185, what it names, how it stands. -/
structure WaitE where
  entry : Nat := 0
  handle : Nat := 0
  dep : Bool := false
  compare : Nat := 0
  crest : Nat := 0
  tmo : Nat := 0
  met : Bool := false
  /-- A DEPS entry: the count of positions its queue's HEAD must have moved on in all for p to lie below HEAD (R175). -/
  below : Nat := 0
  /-- The node of a graph WAIT node, plus one. -/
  node : Nat := 0
  waitId : Option Nat := none
  deriving DecidableEq, Repr

/-- States of a node of a running graph launch (R197). -/
inductive NSt where
  | blocked | ready | started | done | failed
  deriving DecidableEq, Repr

/-- A node's state: predecessors left, state, macro-ops of it not completed, END retired. -/
structure NodeSt where
  left : Nat := 0
  st : NSt := .blocked
  pend : Nat := 0
  ended : Bool := false
  deriving DecidableEq, Repr

/-- A macro-op of a launch pushed to an engine queue and not finally completed: engine queue, tag, lane, node plus one,
walk count key plus one, merge key plus one and shard, a context's push, a local push of a task, its CFLAG and whether
the launch stands paused there. -/
structure Out where
  eq : Nat
  tag : Nat
  be : Bool := false
  node : Nat := 0
  walk : Nat := 0
  merge : Nat := 0
  shard : Nat := 0
  ctx : Bool := false
  paused : Bool := false
  cflag : Nat := 0
  opc : Nat := 0
  deriving DecidableEq, Repr

/-- A fetched launch (R29, R123). `cbData` and `frags` are copies; `rel` holds the handle-table entries resolved. -/
structure Launch where
  queue : Nat := 0
  pos : Nat := 0
  /-- Number in the order of fetch. -/
  seqNo : Nat := 0
  part : Nat := 0
  stage : LStage := .fetch
  desc : W512 := 0
  descIn : Bool := false
  frags : List W512 := []
  fragCount : Nat := 0
  fragLen : Nat := 0
  fragIn : Bool := false
  /-- The entry of its fragment table is shorter than the header says (R119). -/
  fragShort : Bool := false
  entries : Nat := 1
  reserved : Bool := false
  relocated : Bool := false
  cbData : BitVec 2048 := 0
  cbWait : Bool := false
  rel : List (Nat × BitVec 128) := []
  /-- Handle indices whose fill is awaited with the fill's number, those whose read met a fault, and the step of the relocation unit reached. -/
  relWant : List (Nat × Nat) := []
  relBad : List Nat := []
  relStep : Nat := 0
  be : Bool := false
  /-- Chain: position of the head, number of members known (R139). -/
  head : Nat := 0
  chainNo : Nat := 0
  /-- An earlier member of its chain has failed while this one was still to arrive: its number within the chain (R141). -/
  broken : Nat := 0
  /-- Address of its record, its owner's PASID (R44, R149), and whether it completed while its queue was DRAINING or RESETTING. -/
  recAt : Nat := 0
  pasid : Nat := 0
  drained : Bool := false
  waits : List WaitE := []
  charge : List (Nat × Nat) := []
  total : Nat := 0
  order : Nat := 0
  admTick : Nat := 0
  gctx : Nat := 0
  gen : Nat := 0
  pinned : Bool := false
  slot : Option Nat := none
  ctxWanted : Bool := false
  nodes : List NodeSt := []
  failErr : Nat := 0
  failTmo : Bool := false
  failed : Bool := false
  outs : List Out := []
  cycles : Tbl Nat := []
  /-- Cycles per engine queue since the last restart of the count, and queues paused for overrun (R226, R227). -/
  used : Tbl Nat := []
  paused : List Nat := []
  actual : Nat := 0
  status : Nat := 0
  error : Nat := 0
  skipErr : Nat := 0
  poisoned : Bool := false
  chained : Bool := false
  aborting : Bool := false
  /-- Agents that have not yet reported the stop of an aborted launch (R125, R310). -/
  stopOn : List Nat := []
  deriving DecidableEq, Repr

/-- A macro-op that waits at the Root to be pushed (R28, R261, R385, R388, R398, R407), in its push buffer's order.
`src`: 0 DIRECT, 1 MOP node, 2 QPUSH, 3 committed scatter; `node`: the node plus one; `waitPred`: the predecessor named by
`predEq` and `predTag` lies on another agent and has not completed; `want`: number of the handle-table fill awaited, plus one. A walk has
`walked` 0 before its start, 1 while it waits for its root word or table, 2 once started. -/
structure Push where
  eq : Nat
  launch : Nat
  mop : W512
  src : Nat := 0
  be : Bool := false
  node : Nat := 0
  chained : Bool := false
  predEq : Nat := 0
  predTag : Nat := 0
  waitPred : Bool := false
  tag : Nat := 0
  want : Nat := 0
  walked : Nat := 0
  walkKey : Nat := 0
  mergeKey : Nat := 0
  shard : Nat := 0
  core : Nat := 0
  deriving DecidableEq, Repr

/-- A fill under way (R145): partition × 2^20 + index, its number, and whether an invalidation or the Steward's write has
covered its entry since: its data then goes to those who waited, is not cached, and serves no later miss (R144, R146). -/
structure Fill where
  key : Nat
  no : Nat
  stale : Bool := false
  deriving DecidableEq, Repr

/-- The handle cache (R145): entries with partition × 2^20 + index, the entry, least recently used first; fills under way in
the order of issue. -/
structure HCache where
  lines : List (Nat × BitVec 128) := []
  filling : List Fill := []
  nextFill : Nat := 0
  deriving DecidableEq, Repr

/-- A signal operation on its way to a flag: source rank of R160 (100 the Outfall, 101 an owner's reset, 200 + n Root core n,
300 + a FLAG_SIGNAL of agent a, 400 the Crossing unit, 500 the subordinate port), partition, handle, operation (4: poison,
5: write of the flag region), operand, launch. -/
structure Sig where
  src : Nat
  part : Nat
  handle : Nat
  op : Nat
  x : Nat
  launch : Nat
  node : Nat := 0
  ctx : Option Nat := none
  /-- The agent task whose FSIG it is: agent and save slot. -/
  task : Option (Nat × Nat) := none
  /-- Address of a space 2 flag; none when its entry denies it (R143, R158). -/
  addr : Option Nat := none
  deriving DecidableEq, Repr

/-- A memory-flag cache entry (R157, R161): word once read, poison after a write fault, work in progress. -/
structure MemFlag where
  addr : Nat := 0
  word : Option W64 := none
  reading : Bool := false
  writing : Bool := false
  bad : Bool := false
  sigs : List Sig := []
  deriving DecidableEq, Repr

/-- A remote arming from another chip (R173). -/
structure RemArm where
  chip : Nat
  waitId : Nat
  part : Nat
  index : Nat
  compare : Nat
  crest : Nat
  link : Nat
  deriving DecidableEq, Repr

/-- The Weir (R154–R185). Owner table: flag handle to OWNER_Q plus one, with the partition for space 1 in the key. -/
structure Weir where
  flags : Tbl W64 := []
  owners : Tbl Nat := []
  mem : Tbl MemFlag := []
  subs : Tbl (List Nat) := []
  sigq : List Sig := []
  remote : List RemArm := []
  peak : Nat := 0
  memPeak : Nat := 0
  cycles : Nat := 0
  sats : Nat := 0
  tmos : Nat := 0
  lastId : Nat := 0
  lastHandle : Nat := 0
  lastAddr : Nat := 0
  lastInfo : W32 := 0
  lastPeerId : Nat := 0
  lastPeerHandle : Nat := 0
  deriving DecidableEq, Repr

/-- A generation (R189–R192, R328, R332). Its bytes lie along its pages, in their order: header, node table from byte 64, edges, and
from `bodyAt` the body area; `content` holds them, little-endian (log entry 13). -/
structure Generation where
  num : Nat := 0
  parent : Nat := 0
  pins : Nat := 0
  created : Nat := 0
  slices : Nat := 1
  nodes : List GNode := []
  costs : List (Nat × Nat) := []
  /-- Arena pages by number. -/
  pageIds : List Nat := []
  bodyAt : Nat := 0
  /-- Place of the cost vector, from BODY_ADDR, and the entries it has room for. -/
  costAt : Nat := 0
  costRoom : Nat := 0
  /-- Bytes in use. -/
  len : Nat := 0
  content : Nat := 0
  /-- Push declarations (node, engine queue, cost) and DMEM_BYTES of the image, which a patch builds on (R322, R328). -/
  decls : List (Nat × Nat × Nat) := []
  dmem : Nat := 0
  deriving DecidableEq, Repr

/-- A graph context (R104, R189, R207). -/
structure GCtx where
  st : Nat := 0
  owner : Nat := 0
  cur : Nat := 0
  counter : Nat := 1
  gens : List Generation := []
  deriving DecidableEq, Repr

/-- Graph arena of a partition (R206). -/
structure Arena where
  base : W64 := 0
  size : Nat := 0
  deriving DecidableEq, Repr

/-- A translation: the admin queue and packet it serves, the image once read (R324). -/
structure Job where
  q : Nat
  pkt : W512
  part : Nat
  gctx : Nat
  patch : Bool
  image : List Byte := []
  readOk : Bool := false
  deriving DecidableEq, Repr

/-- An entry of the translation cache (R330): the items of its key and the native code. -/
structure TcEnt where
  part : Nat
  ver : Nat
  amv : Nat
  dmem : Nat
  body : List Byte
  decls : List (Nat × Nat)
  code : NatCode := {}
  deriving DecidableEq, Repr

/-- Iznum and its registers (R324, R335). `cache`: the translation cache, least recently used first. -/
structure Iz where
  busy : Option Job := none
  queue : List Job := []
  tcBase : W64 := 0
  tcSize : Nat := 0
  cache : List TcEnt := []
  hits : Nat := 0
  misses : Nat := 0
  failDetail : Nat := 0
  failGctx : Nat := 0
  failPart : Nat := 0
  deriving DecidableEq, Repr

/-- Scheduler figures of a partition (R234, R236): the closing period's registers, the open period's sums. -/
structure PFig where
  index : Nat := 0
  deferred : Nat := 0
  overruns : Nat := 0
  tooLong : Nat := 0
  sumActual : Nat := 0
  sumCharge : Nat := 0
  curDef : Nat := 0
  curOvr : Nat := 0
  curLong : Nat := 0
  engineNs : Nat := 0
  bytes : Nat := 0
  energyNj : Nat := 0
  sluiceNs : Nat := 0
  coreUsed : Nat := 0
  deriving DecidableEq, Repr

/-- The scheduler (R209–R241). Booking keys: partition × 1024 + engine queue; energy keys as named. -/
structure Sched where
  period : Nat := 0x61A8
  allow : Nat := 0x0D
  slowThr : Nat := 0x140
  ceil : Nat := 0x100
  source : Bool := false
  cslice : Nat := 0x32
  tickNo : Nat := 0
  elapsed : Nat := 0
  stat : Nat := 0
  fbsel : W32 := 0
  accsel : Nat := 0
  accdata : List Nat := [0, 0, 0]
  eidleNj : Nat := 0
  eqcap : Tbl W32 := []
  periodNext : Option Nat := none
  /-- A PERIOD written after the first TICK of the coming tick has left: it takes effect a tick later (R210). -/
  periodLate : Option Nat := none
  ctrlNext : Option W32 := none
  fillNext : Option (Nat × Bool) := none
  csliceNext : Option Nat := none
  eqcapNext : Tbl W32 := []
  /-- Agent clocks measured after pm_done, in use from the next tick (R57). -/
  measNext : Tbl Nat := []
  bookCur : Tbl Nat := []
  bookNext : Tbl Nat := []
  figs : Tbl PFig := []
  order : Nat := 0
  /-- Energy counter last sampled per engine queue; ENGINE_NS of the period by queue × 64 + partition and queue × 4096 +
  host queue; remainders carried (R237). -/
  energy : Tbl Nat := []
  nsPart : Tbl Nat := []
  nsQueue : Tbl Nat := []
  remPart : Tbl Nat := []
  remQueue : Tbl Nat := []
  nextTag : Nat := 0
  grantNo : Nat := 0
  deriving DecidableEq, Repr

/-- Save area (R281). -/
structure Save where
  base : W64 := 0
  slots : Nat := 0
  used : List Nat := []
  peak : Nat := 0
  /-- Saves made, for the order of R270. -/
  order : Nat := 0
  /-- Saved agent tasks: slot, agent, launch; and the pieces of their slot images (R53). -/
  saved : List (Nat × Nat × Nat) := []
  pieces : Tbl (List (Nat × List Byte)) := []
  deriving DecidableEq, Repr

/-- Root cache and walk tracker (R383, R388, R391). Root key: partition × 65536 + sequence; walk key: root key × 65536
+ epoch. -/
structure Attn where
  roots : List (Nat × W64) := []
  reading : List Nat := []
  walks : Tbl Nat := []
  peak : Nat := 0
  hits : Nat := 0
  misses : Nat := 0
  reclaim : Tbl Nat := []
  deriving DecidableEq, Repr

/-- An entry held in the Basin (R398). -/
structure Held where
  part : Nat
  group : Nat
  idx : Nat
  launch : Nat
  tick : Nat
  eq : Nat
  mop : W512
  deriving DecidableEq, Repr

/-- The Basin (R398–R403, R416). -/
structure Basin where
  held : List Held := []
  peak : Nat := 0
  full : Bool := false
  expired : Bool := false
  committed : Nat := 0
  discarded : Nat := 0
  expCnt : Nat := 0
  errGroup : Nat := 0
  errPart : Nat := 0
  errCode : Nat := 0
  errLaunch : Nat := 0
  deriving DecidableEq, Repr

/-- A merge slot (R408): records taken, maximum, sum, outputs. -/
structure MSlot where
  n : Nat := 0
  m : W32 := 0
  l : W32 := 0
  o : List W32 := []
  final : Bool := false
  written : Bool := false
  deriving DecidableEq, Repr

/-- A merge reservation (R407). Key: LAUNCH_ID × 256 + MID; slot key: ROW × 64 + SLICE. -/
structure Merge where
  dim0 : Nat := 0
  dim1 : Nat := 0
  nshard : Nat := 0
  ncand : Nat := 0
  fmt : Nat := 0
  mdest : W64 := 0
  part : Nat := 0
  started : List Nat := []
  ended : List Nat := []
  failed : Bool := false
  slots : Tbl MSlot := []
  free : Nat := 0
  loop : Option Nat := none
  deriving DecidableEq, Repr

/-- The Outfall (R404–R417). `portHeld`: agents whose head message waits for merged writes. -/
structure Outf where
  merges : Tbl Merge := []
  peak : Nat := 0
  merged : Nat := 0
  drop : Nat := 0
  err : Bool := false
  errMid : Nat := 0
  errCode : Nat := 0
  errLaunch : Nat := 0
  /-- Figures already added of macro-ops that have reported a pause, by engine queue × 2^16 + tag: CYCLES, NS10, BYTES (R304, R307). -/
  counted : Tbl (Nat × Nat × Nat) := []
  deriving DecidableEq, Repr

/-- A closure instance (R373). Key: group × 64 + chip. -/
structure Inst where
  count : Nat := 0
  held : Option Nat := none
  released : Option Nat := none
  link : Nat := 0
  late : Bool := false
  deriving DecidableEq, Repr

/-- A remote SET queued (R374). -/
structure RSet where
  part : Nat
  chip : Nat
  index : Nat
  value : Nat
  poison : Bool
  launch : Nat := 0
  node : Nat := 0
  deriving DecidableEq, Repr

/-- A remote wait sent (R173): launch, entry, chip, link. -/
structure RWait where
  launch : Nat := 0
  entry : Nat := 0
  node : Nat := 0
  chip : Nat := 0
  link : Nat := 0
  deriving DecidableEq, Repr

/-- A Crossing link (R380). xc_up counts as 1 until it falls, and again from the next transfer on the link (log entry 19). -/
structure XLink where
  enable : Bool := false
  up : Bool := true
  deriving DecidableEq, Repr

/-- The Crossing unit (R370–R381). `tx` holds the remote flag messages sent, `rel` the releases presented. -/
structure Xing where
  chip : Nat := 0
  holdTmo : Nat := 0x3E8
  stat : Nat := 0
  lastWord : W32 := 0
  lastLink : Nat := 0
  lastCode : Nat := 0
  links : Tbl XLink := []
  routes : Tbl W32 := []
  insts : Tbl Inst := []
  sets : List RSet := []
  waits : Tbl RWait := []
  nextWait : Nat := 1
  tx : List (Nat × BitVec 128) := []
  rel : List (Nat × Nat) := []
  deriving DecidableEq, Repr

/-- Steward registers and counters of a stack agent (R438). -/
structure Stack where
  dramBase : W64 := 0
  dramUnits : Nat := 0
  nvUnits : Nat := 0
  nvBase : W64 := 0
  dir : Nat := 0
  led : Nat := 0
  endur : Nat := 0
  bermCfg : W32 := 0x140802
  bermQ : W32 := 0xFFFF
  berms : Nat := 0
  forced : Nat := 0
  misses : Nat := 0
  bermTime : Nat := 0
  relocs : Nat := 0
  fences : Nat := 0
  deriving DecidableEq, Repr

/-- A unit that awaits fencing (R427). -/
structure Fence where
  agent : Nat
  tier : Bool
  unit : Nat
  word : W64
  part : Nat
  launches : List Nat
  deriving DecidableEq, Repr

/-- A relocation copy (R430): region, target, mapping entry, pending region of R431. -/
structure Copy where
  agent : Nat
  region : Nat
  target : Nat
  word : W64
  tgtWord : W64
  entry : BitVec 128
  part : Nat
  pendReg : Bool
  /-- Tag of the COPY, the second of its two macro-ops; the copy number sent as launch ID. -/
  tag : Nat
  sent : Nat
  ended : Bool
  ok : Bool
  deriving DecidableEq, Repr

/-- The Steward (R424–R437). `retry`: agent and region; `pend`: pending regions with partition and agent. -/
structure Stew where
  enable : Bool := false
  stat : Nat := 0
  dirBase : W64 := 0
  ledBase : W64 := 0
  ledsel : W32 := 0
  ledger : W64 := 0
  errAgent : Nat := 0
  errTier : Bool := false
  errUnit : Nat := 0
  errCode : Nat := 0
  stk : Tbl Stack := []
  fences : List Fence := []
  copy : Option Copy := none
  copyNo : Nat := 0
  retry : List (Nat × Nat) := []
  pend : List (Nat × Nat × Nat) := []
  /-- Macro-ops that wait for a slot of their lane, and those that hold one: engine queue and tag (R282, R430). -/
  pushq : List PushMsg := []
  lane : List (Nat × Nat) := []
  deriving DecidableEq, Repr

end Sys2Proof.Machine
end

