-- ==== Sys2Proof/Machine/State.lean ====
section
/-! DEFINITION. The machine's state, its faults and refusals, and the state right after reset. -/

namespace Sys2Proof.Machine

/-- Why the machine stops with a fault. -/
inductive Fault where
  /-- Raised by a command that needs the functional state of an instance after scan_en was asserted on it (R515: that
  state is lost, and the instance is defined again only after a cold reset). Safe: the model stops where the spec gives no
  state. The number is the instance: 0 the Root, a + 1 agent a. -/
  | scanStateLost (instNo : Nat)
  deriving DecidableEq, Repr

/-- Why the machine refuses a command. -/
inductive Refusal where
  /-- Raised by an arm of exec whose command has no meaning in the model yet. Safe: the model stops. -/
  | notModelled (mnemonic : String)
  deriving DecidableEq, Repr

/-- What the evacuation record takes from the freeze cycle (R451, R453, R454; log entry 68). -/
structure Snap where
  parts : Tbl Part := []
  seqs : Tbl Seqs := []
  queues : Tbl Queue := []
  gctxs : Tbl GCtx := []
  weir : Weir := {}
  deriving DecidableEq, Repr

/-- The block's state: the Root's units, the agents, the tide streams, the model's own counter of free values (log entry
3) and the queue of waiting commands, first in first out. -/
structure State where
  par : Params := {}
  glb : Glb := {}
  port : Port := {}
  evt : Evt := {}
  log : Log := {}
  watch : Watch := {}
  svc : Svc := {}
  lb : Lb := {}
  test : Test := {}
  /-- Streams by agent. -/
  links : Tbl Link := []
  agents : Tbl Agent := []
  /-- Admin queues: 0–63 of the partitions, 0x40 of the manager. -/
  adms : Tbl Adm := []
  admRr : Nat := 63
  parts : Tbl Part := []
  seqs : Tbl Seqs := []
  queues : Tbl Queue := []
  inlet : Inlet := {}
  /-- Outstanding launches by LAUNCH_ID (log entry 7). -/
  launches : List (Nat × Launch) := []
  pushes : List Push := []
  hcache : HCache := {}
  weir : Weir := {}
  gctxs : Tbl GCtx := []
  arenas : Tbl Arena := []
  /-- Lines of the code cache by arena address, least recently used first (R201). -/
  ccache : List Nat := []
  iz : Iz := {}
  sched : Sched := {}
  /-- Root sluice cores 0–7. -/
  cores : Tbl Core := []
  /-- Contexts by save slot; Iznum's context stands at 512. -/
  ctxs : List (Nat × Ctx) := []
  save : Save := {}
  attn : Attn := {}
  basin : Basin := {}
  outf : Outf := {}
  xing : Xing := {}
  stew : Stew := {}
  snap : Snap := {}
  /-- Dual-rail pairs and conditions now held in error outside (index × 2), or at equal levels (index × 2 + 1): pins, which
  no reset changes (R58, R80). -/
  pins : List Nat := []
  /-- The model's own: the number of the next free value. -/
  free : Nat := 0
  /-- The model's own: commands that wait. -/
  pending : List Instr := []
  deriving DecidableEq, Repr

/-- The machine right after reset: por_rst_n asserted, every register at its reset value, no command waiting. -/
def State.reset : State := {}

end Sys2Proof.Machine
end

