-- ==== Sys2Proof/Machine/Tables.lean ====
section
/-! DEFINITION. Sparse tables in canonical form (keys strictly rising, no entry equal to the default), lists of keyed
records, and byte memories as lists of cells. A read takes the first entry with its key and a removal takes out all of them, so that
a read after a write is what was written in every table, canonical or not. -/

namespace Sys2Proof.Machine

/-- Read a sparse table: the entry at a key, or the default. -/
def tget {α : Type} (d : α) : Tbl α → Nat → α
  | [], _ => d
  | (k, v) :: t, i => if k = i then v else tget d t i

/-- Put a value at a key, listed even when it is the default. -/
def kput {α : Type} : List (Nat × α) → Nat → α → List (Nat × α)
  | [], i, x => [(i, x)]
  | (k, v) :: t, i, x => if i < k then (i, x) :: (k, v) :: t else if i = k then (i, x) :: t else (k, v) :: kput t i x

/-- Remove a key. -/
def kdel {α : Type} (t : List (Nat × α)) (i : Nat) : List (Nat × α) := t.filter (fun x => x.1 != i)

/-- Look a key up. -/
def kget {α : Type} : List (Nat × α) → Nat → Option α
  | [], _ => none
  | (k, v) :: t, i => if k = i then some v else kget t i

/-- Write a sparse table; writing the default removes the entry. -/
def tput {α : Type} [DecidableEq α] (d : α) (t : Tbl α) (i : Nat) (x : α) : Tbl α :=
  if x = d then kdel t i else kput t i x

/-- The canonical form of a sparse table: keys rise strictly from a bound and no entry equals the default. -/
def tblWf {α : Type} [DecidableEq α] (d : α) : Nat → Tbl α → Bool
  | _, [] => true
  | b, (k, v) :: t => decide (b ≤ k) && decide (v ≠ d) && tblWf d (k + 1) t

/-- Remove the first occurrence of each listed value. -/
def without (l : List Nat) (x : Nat) : List Nat := l.filter (fun y => y != x)

/-- Insert into a rising list without repeats. -/
def insertNat : List Nat → Nat → List Nat
  | [], x => [x]
  | y :: t, x => if x < y then x :: y :: t else if x = y then y :: t else y :: insertNat t x

/-- Read a byte of a memory; a byte nothing has written reads 0 (R251, R71). -/
def readByte (m : List Host.Cell) (a : Nat) : Byte := tget (0 : Byte) m a

/-- Write a byte of a memory. -/
def writeByte (m : List Host.Cell) (a : Nat) (b : Byte) : List Host.Cell := tput (0 : Byte) m a b

/-- The canonical form of a byte memory. -/
def memWf (m : List Host.Cell) : Bool := tblWf (0 : Byte) 0 m

/-- Read n bytes, little-endian (R13). -/
def readBytes (m : List Host.Cell) (a : Nat) : Nat → Nat
  | 0 => 0
  | n + 1 => (readByte m a).toNat + 256 * readBytes m (a + 1) n

/-- Write n bytes, little-endian. -/
def writeBytes (m : List Host.Cell) (a : Nat) (x : Nat) : Nat → List Host.Cell
  | 0 => m
  | n + 1 => writeBytes (writeByte m a (BitVec.ofNat 8 x)) (a + 1) (x / 256) n

/-- Bytes of a list as one little-endian number. -/
def bytesToNat : List Byte → Nat
  | [] => 0
  | b :: t => b.toNat + 256 * bytesToNat t

/-- The n bytes of a number, little-endian. -/
def natToBytes (x : Nat) : Nat → List Byte
  | 0 => []
  | n + 1 => BitVec.ofNat 8 x :: natToBytes (x / 256) n

/-- Sum of a list of numbers. -/
def sumBy {α : Type} (f : α → Nat) : List α → Nat
  | [] => 0
  | x :: t => f x + sumBy f t

/-- Insert before the first element that need not stand before the new one. -/
def insertBy {α : Type} (le : α → α → Bool) (x : α) : List α → List α
  | [] => [x]
  | y :: t => if le x y then x :: y :: t else y :: insertBy le x t

/-- Sort a list by an order; equal elements keep their order. -/
def sortBy {α : Type} (le : α → α → Bool) : List α → List α
  | [] => []
  | x :: t => insertBy le x (sortBy le t)

/-- The list 0 … n − 1. -/
def upTo (n : Nat) : List Nat := List.range n

/-- Replace bits [lo + w − 1 : lo] of a word. -/
def setFld {n : Nat} (x : BitVec n) (lo w v : Nat) : BitVec n :=
  BitVec.ofNat n (x.toNat - (fld x lo w) <<< lo + (v % 2 ^ w) <<< lo)

/-- Set or clear a bit of a number used as a status field. -/
def setBit (x i : Nat) : Nat := if x.testBit i then x else x + 2 ^ i
/-- Clear the bits of a mask. -/
def clrMask (x m : Nat) : Nat := x - (x &&& m)

end Sys2Proof.Machine
end

