-- ==== Sys2Proof/Machine/Access.lean ====
section
/-! DEFINITION. Reading and updating the records of the state. -/

namespace Sys2Proof.Machine

def getPart (s : State) (p : Nat) : Part := tget {} s.parts p
def modPart (s : State) (p : Nat) (f : Part → Part) : State :=
  { s with parts := tput {} s.parts p (f (getPart s p)) }
def getSeqs (s : State) (p : Nat) : Seqs := tget {} s.seqs p
def modSeqs (s : State) (p : Nat) (f : Seqs → Seqs) : State :=
  { s with seqs := tput {} s.seqs p (f (getSeqs s p)) }
def getQueue (s : State) (q : Nat) : Queue := tget {} s.queues q
def modQueue (s : State) (q : Nat) (f : Queue → Queue) : State :=
  { s with queues := tput {} s.queues q (f (getQueue s q)) }
def getAdm (s : State) (q : Nat) : Adm := tget {} s.adms q
def modAdm (s : State) (q : Nat) (f : Adm → Adm) : State :=
  { s with adms := tput {} s.adms q (f (getAdm s q)) }
def getLaunch? (s : State) (l : Nat) : Option Launch := kget s.launches l
def getLaunch (s : State) (l : Nat) : Launch := (kget s.launches l).getD {}
def setLaunch (s : State) (l : Nat) (x : Launch) : State := { s with launches := kput s.launches l x }
/-- Update a launch that is outstanding. -/
def modLaunch (s : State) (l : Nat) (f : Launch → Launch) : State :=
  match kget s.launches l with
  | none => s
  | some x => { s with launches := kput s.launches l (f x) }
def getLink (s : State) (a : Nat) : Link := tget {} s.links a
def modLink (s : State) (a : Nat) (f : Link → Link) : State :=
  { s with links := tput {} s.links a (f (getLink s a)) }
def getAgent (s : State) (a : Nat) : Agent := tget {} s.agents a
def modAgent (s : State) (a : Nat) (f : Agent → Agent) : State :=
  { s with agents := tput {} s.agents a (f (getAgent s a)) }
def getEq (s : State) (a l : Nat) : EqQ := tget {} (getAgent s a).eqs l
def modEq (s : State) (a l : Nat) (f : EqQ → EqQ) : State :=
  modAgent s a fun x => { x with eqs := tput {} x.eqs l (f (tget {} x.eqs l)) }
def getGctx (s : State) (c : Nat) : GCtx := tget {} s.gctxs c
def modGctx (s : State) (c : Nat) (f : GCtx → GCtx) : State :=
  { s with gctxs := tput {} s.gctxs c (f (getGctx s c)) }
def getArena (s : State) (p : Nat) : Arena := tget {} s.arenas p
def modArena (s : State) (p : Nat) (f : Arena → Arena) : State :=
  { s with arenas := tput {} s.arenas p (f (getArena s p)) }
def getFig (s : State) (p : Nat) : PFig := tget {} s.sched.figs p
def modFig (s : State) (p : Nat) (f : PFig → PFig) : State :=
  { s with sched := { s.sched with figs := tput {} s.sched.figs p (f (getFig s p)) } }
def getStack (s : State) (a : Nat) : Stack := tget {} s.stew.stk a
def modStack (s : State) (a : Nat) (f : Stack → Stack) : State :=
  { s with stew := { s.stew with stk := tput {} s.stew.stk a (f (getStack s a)) } }
def getMerge? (s : State) (k : Nat) : Option Merge := kget s.outf.merges k
def setMerge (s : State) (k : Nat) (m : Merge) : State :=
  { s with outf := { s.outf with merges := kput s.outf.merges k m } }
def delMerge (s : State) (k : Nat) : State := { s with outf := { s.outf with merges := kdel s.outf.merges k } }
def modGlb (s : State) (f : Glb → Glb) : State := { s with glb := f s.glb }
def modSched (s : State) (f : Sched → Sched) : State := { s with sched := f s.sched }
def modWeir (s : State) (f : Weir → Weir) : State := { s with weir := f s.weir }
def modWatch (s : State) (f : Watch → Watch) : State := { s with watch := f s.watch }
def modSvc (s : State) (f : Svc → Svc) : State := { s with svc := f s.svc }
def modXing (s : State) (f : Xing → Xing) : State := { s with xing := f s.xing }
def modStew (s : State) (f : Stew → Stew) : State := { s with stew := f s.stew }
def modBasin (s : State) (f : Basin → Basin) : State := { s with basin := f s.basin }
def modLog (s : State) (f : Log → Log) : State := { s with log := f s.log }
def modLb (s : State) (f : Lb → Lb) : State := { s with lb := f s.lb }

/-- The sluice core named 0x300 + n or 0x200 + a (R272). -/
def getCore (s : State) (c : Nat) : Core :=
  if 0x300 ≤ c then tget {} s.cores (c - 0x300) else (getAgent s (c - 0x200)).core
def modCore (s : State) (c : Nat) (f : Core → Core) : State :=
  if 0x300 ≤ c then { s with cores := tput {} s.cores (c - 0x300) (f (tget {} s.cores (c - 0x300))) }
  else modAgent s (c - 0x200) fun x => { x with core := f x.core }

/-- The context in a save slot, on the side of the core that runs it: the Root's table, or the agent's. -/
def getCtx? (s : State) (core slot : Nat) : Option Ctx :=
  if 0x300 ≤ core then kget s.ctxs slot else kget (getAgent s (core - 0x200)).tasks slot
def getCtx (s : State) (core slot : Nat) : Ctx := (getCtx? s core slot).getD {}
def setCtx (s : State) (core slot : Nat) (x : Ctx) : State :=
  if 0x300 ≤ core then { s with ctxs := kput s.ctxs slot x }
  else modAgent s (core - 0x200) fun g => { g with tasks := kput g.tasks slot x }
def modCtx (s : State) (core slot : Nat) (f : Ctx → Ctx) : State :=
  match getCtx? s core slot with
  | none => s
  | some x => setCtx s core slot (f x)

/-- Agent table entry fields (R84). -/
def agtEntry (s : State) (a : Nat) : W64 := tget 0 s.glb.agents a
def agtUp (s : State) (a : Nat) : Bool := bitOf (agtEntry s a) 0
def agtExcluded (s : State) (a : Nat) : Bool := bitOf (agtEntry s a) 1
def agtLatency (s : State) (a : Nat) : Nat := fld (agtEntry s a) 8 8
def agtEqMask (s : State) (a : Nat) : Nat := fld (agtEntry s a) 24 16
def setAgt (s : State) (a : Nat) (w : W64) : State := modGlb s fun g => { g with agents := tput 0 g.agents a w }
/-- Agents admitted (GLB_STATUS.AGENTS_UP). -/
def agentsUp (s : State) : Nat := sumBy (fun a => b2n (agtUp s a)) (upTo s.par.numAgents)
/-- At least one agent is excluded (GLB_STATUS.DEGRADED). -/
def degraded (s : State) : Bool := (upTo s.par.numAgents).any (agtExcluded s)
/-- The tide port of an agent (R25). -/
def portOf (s : State) (a : Nat) : Nat := s.par.agentPort.getD a 0
/-- p_eq_present of an agent (R63). -/
def eqPresent (s : State) (a : Nat) : Nat := tget 0xFFFF s.par.eqAbsent a
/-- The engine queue is reachable: its agent exists and is admitted, and its manager is connected (R23, R24). -/
def eqReach (s : State) (eq : Nat) : Bool :=
  decide (eq / 16 < s.par.numAgents) && agtUp s (eq / 16) && (eqPresent s (eq / 16)).testBit (eq % 16)
/-- p_stack_if of an agent. -/
def stackIf (s : State) (a : Nat) : Bool := s.par.stackAgents.contains a && decide (a < s.par.numAgents)
/-- The eq_cap word of an engine queue: classes and formats accepted (R293). Log entry 8. -/
def eqCap (s : State) (eq : Nat) : W32 :=
  tget (if eq / 16 < 4 then 0xFFFF001E#32 else if eq / 16 < 12 then 0xFFFF0030#32 else 0xFFFF0318#32) s.par.eqCap eq
/-- A word from outside the block that the command does not carry (log entry 3), and the state that has taken it. -/
def takeFree (s : State) : W64 × State := (Config.freeWord s.free, { s with free := s.free + 1 })

end Sys2Proof.Machine
end

