-- ==== Sys2Proof/Machine/Codes.lean ====
section
/-! DEFINITION. Error codes (R456), Watch sources, their scopes and default configurations (R441, R442), status codes (R91)
and skip causes (R273, R312). -/

namespace Sys2Proof.Machine

def eAccessDenied : Nat := 0x0101
def eDoorbellInvalid : Nat := 0x0102
def eHostReadFault : Nat := 0x0103
def eHostWriteFault : Nat := 0x0104
def eDrainTimeout : Nat := 0x0105
def eDescInvalid : Nat := 0x0201
def eFragInvalid : Nat := 0x0202
def eTargetAbsent : Nat := 0x0203
def eHandleInvalid : Nat := 0x0204
def eChainBroken : Nat := 0x0205
def eWaitTimeout : Nat := 0x0301
def eWaitPoisoned : Nat := 0x0302
def eWaitCycle : Nat := 0x0303
def eFlagDenied : Nat := 0x0304
def eFlagSaturated : Nat := 0x0305
def eTooLong : Nat := 0x0401
def eOverrun : Nat := 0x0402
def ePreemptLate : Nat := 0x0403
def eScIllegal : Nat := 0x0501
def eDmemEcc : Nat := 0x0502
def eImemActive : Nat := 0x0503
def eMopIllegal : Nat := 0x0601
def eMopEngine : Nat := 0x0602
def eFmtMismatch : Nat := 0x0603
def eFlushLate : Nat := 0x0604
def eAttnField : Nat := 0x0701
def eAttnRoot : Nat := 0x0702
def eAttnPage : Nat := 0x0703
def eAttnMerge : Nat := 0x0704
def eBasinExpired : Nat := 0x0705
def eBasinFull : Nat := 0x0706
def eBermForced : Nat := 0x0801
def eBermOverlong : Nat := 0x0802
def eRetentionMiss : Nat := 0x0803
def eStewDirMismatch : Nat := 0x0804
def eStewNoSpare : Nat := 0x0805
def eStewCopyFail : Nat := 0x0806
def eWearLimit : Nat := 0x0807
def eStackDefect : Nat := 0x0808
def eStackDataLoss : Nat := 0x0809
def eXingProtocol : Nat := 0x0901
def eXingHoldTimeout : Nat := 0x0902
def eXingLink : Nat := 0x0903
def eTideLink : Nat := 0x0A01
def eAgentUnreachable : Nat := 0x0A02
def eTideProtocol : Nat := 0x0A03
def eTickLate : Nat := 0x0A04
def eAgentBringup : Nat := 0x0A05
def eAgentFenced : Nat := 0x0A06
def eTideCrc : Nat := 0x0A07
def eSramEcc : Nat := 0x0B01
def eSramCorr : Nat := 0x0B02
def eOvertemp : Nat := 0x0B03
def eClockRange : Nat := 0x0B04
def eExtError : Nat := 0x0B05
def eWireFault : Nat := 0x0B06
def eChipFail : Nat := 0x0B07
def eModeAborted : Nat := 0x0C01
def eAgeDrift : Nat := 0x0C02
def eAgeLimit : Nat := 0x0C03
def eLoopbackMismatch : Nat := 0x0D01

/-- The Root source that counts a code (R456); none where the code is counted nowhere or at an agent or input. -/
def srcOfCode (c : Nat) : Option Nat :=
   if c = 0x0B01 then some 0
  else if c = 0x0B02 then some 1
  else if c = 0x0502 then some 2
  else if c = 0x0103 then some 3
  else if c = 0x0104 then some 4
  else if c = 0x0101 ∨ c = 0x0102 then some 5
  else if c = 0x0201 ∨ c = 0x0202 ∨ c = 0x0203 ∨ c = 0x0204 ∨ c = 0x0304 then some 6
  else if c = 0x0301 ∨ c = 0x0302 then some 7
  else if c = 0x0303 then some 8
  else if c = 0x0305 then some 9
  else if c = 0x0105 then some 10
  else if c = 0x0401 ∨ c = 0x0402 then some 11
  else if c = 0x0403 then some 12
  else if c = 0x0501 ∨ c = 0x0503 then some 13
  else if c = 0x0205 ∨ c = 0x0601 ∨ c = 0x0603 then some 14
  else if c = 0x0602 ∨ c = 0x0604 then some 15
  else if c = 0x0701 ∨ c = 0x0702 ∨ c = 0x0703 ∨ c = 0x0704 then some 16
  else if c = 0x0705 ∨ c = 0x0706 then some 17
  else if c = 0x0801 ∨ c = 0x0802 then some 18
  else if c = 0x0803 then some 19
  else if c = 0x0804 ∨ c = 0x0805 ∨ c = 0x0806 then some 20
  else if c = 0x0807 then some 21
  else if c = 0x0808 then some 22
  else if c = 0x0809 then some 23
  else if c = 0x0901 ∨ c = 0x0902 then some 24
  else if c = 0x0903 then some 25
  else if c = 0x0A01 ∨ c = 0x0A02 then some 26
  else if c = 0x0A03 ∨ c = 0x0A04 then some 27
  else if c = 0x0A05 then some 28
  else if c = 0x0C01 then some 29
  else if c = 0x0C02 ∨ c = 0x0C03 then some 30
  else if c = 0x0D01 then some 31
  else none

/-- The 16-bit codes that R456 lists. -/
def codeListed (c : Nat) : Bool :=
  c == 0x0101 ||
  c == 0x0102 || c == 0x0103 || c == 0x0104 || c == 0x0105 || c == 0x0201 || c == 0x0202 || c == 0x0203 || c == 0x0204 ||
  c == 0x0205 || c == 0x0301 || c == 0x0302 || c == 0x0303 || c == 0x0304 || c == 0x0305 || c == 0x0401 || c == 0x0402 ||
  c == 0x0403 || c == 0x0501 || c == 0x0502 || c == 0x0503 || c == 0x0601 || c == 0x0602 || c == 0x0603 || c == 0x0604 ||
  c == 0x0701 || c == 0x0702 || c == 0x0703 || c == 0x0704 || c == 0x0705 || c == 0x0706 || c == 0x0801 || c == 0x0802 ||
  c == 0x0803 || c == 0x0804 || c == 0x0805 || c == 0x0806 || c == 0x0807 || c == 0x0808 || c == 0x0809 || c == 0x0901 ||
  c == 0x0902 || c == 0x0903 || c == 0x0A01 || c == 0x0A02 || c == 0x0A03 || c == 0x0A04 || c == 0x0A05 || c == 0x0A06 ||
  c == 0x0A07 || c == 0x0B01 || c == 0x0B02 || c == 0x0B03 || c == 0x0B04 || c == 0x0B05 || c == 0x0B06 || c == 0x0B07 ||
  c == 0x0C01 || c == 0x0C02 || c == 0x0C03 || c == 0x0D01

/-- Scope of a source (R441, R444): 0 one key, 1 by partition, 2 by agent. -/
def scopeOf (i : Nat) : Nat :=
  if i = 3 ∨ i = 4 ∨ i = 5 ∨ i = 6 ∨ i = 7 ∨ i = 8 ∨ i = 9 ∨ i = 10 ∨ i = 11 ∨ i = 13 ∨ i = 14 ∨ i = 16 ∨ i = 17 ∨ i = 23 then 1
  else if i = 12 ∨ i = 15 ∨ i = 18 ∨ i = 19 ∨ i = 22 ∨ i = 26 ∨ i = 27 ∨ i = 28 ∨ i = 30 then 2
  else 0

/-- Reset value of WATCH_SRCCFG of a source: N, W at bit 8, ACTION at bit 24 (R441, R442, R458). -/
def srcDefault (i : Nat) : Nat :=
  if i = 5 ∨ i = 17 ∨ i = 27 then 0x110
  else if i = 6 ∨ i = 7 ∨ i = 11 ∨ i = 13 ∨ i = 14 ∨ i = 16 then 0x140
  else if i = 1 ∨ i = 9 then 0x1FF
  else if i = 2 then 0x1004
  else if i = 12 then 0x4004
  else if i = 15 then 0x4008
  else if i = 18 then 0x4010
  else if i = 22 then 0xFA010
  else if i = 26 then 0x2000101
  else if i = 0 then 0x3000101
  else if 256 ≤ i then
    (if i % 32 = 0 ∨ i % 32 = 3 then 0x2000101 else if i % 32 = 1 ∨ i % 32 = 4 then 0x1FF else 0x101)
  else 0x101

/-- Status codes (R91). -/
def stOk : Nat := 0
def stBusy : Nat := 1
def stIllegalState : Nat := 2
def stBadParam : Nat := 3
def stNoResource : Nat := 4
def stDenied : Nat := 5
def stGenLimit : Nat := 6
def stTooLong : Nat := 7
def stAborted : Nat := 8
def stTimeout : Nat := 9
def stUnsupported : Nat := 10

/-- Skip causes of native instructions (R273). -/
def scEncoding : Nat := 1
def scDmem : Nat := 2
def scCsr : Nat := 3
def scQueue : Nat := 4
def scFlag : Nat := 5
def scXfer : Nat := 6
def scStream : Nat := 7
def scRole : Nat := 8
def scFetch : Nat := 9
def scRunaway : Nat := 10
def scTile : Nat := 11
def scHandle : Nat := 12
def scEcc : Nat := 13
def scAgent : Nat := 14

end Sys2Proof.Machine
end

