-- ==== Sys2Proof/Machine/Events.lean ====
section
/-! DEFINITION. Interrupt vectors (R46–R48, R475, R476), audit log entries (R494–R498), and the Watch's counting and
classification of an event (R439–R447). -/

namespace Sys2Proof.Machine

/-- The block runs: READY has been reached (R73). -/
def isReady (s : State) : Bool := decide (s.glb.blk = .ready)

/-- A vector may be raised now (R471, R476, R451, R79). -/
def vecOpen (s : State) (v : Nat) : Bool :=
  if v = 4352 then decide (s.glb.blk = .ready ∨ s.glb.blk = .failed)
  else if ¬ isReady s then false
  else if v < 4096 then
    decide ((getQueue s v).st ≠ .unused) && decide ((getPart s (getQueue s v).owner).st ≠ .resetting) && !s.glb.frozen
  else if v < 4352 then
    match (getPart s ((v - 4096) / 4)).st with
    | .maint | .active | .halted => true
    | _ => false
  else decide (v ≤ 4362)

/-- Request an interrupt: its pending bit is set; requests merge (R47). -/
def reqVec (s : State) (v : Nat) : State :=
  if vecOpen s v then { s with evt := { s.evt with pending := insertNat s.evt.pending v } } else s

/-- Request an interrupt that reports writes: it is held until every one of them has its response (R48). -/
def reqVecAfter (s : State) (v : Nat) (txns : List Nat) : State :=
  match txns.filter (fun t => s.port.writes.any (fun w => w.txn == t)) with
  | [] => reqVec s v
  | ts => { s with evt := { s.evt with waiting := s.evt.waiting ++ [(v, ts)] } }

/-- A write has its response: interrupts that waited for it alone become pending. -/
def vecsRelease (s : State) (txn : Nat) : State :=
  let w := s.evt.waiting.map (fun x => (x.1, x.2.filter (fun t => t != txn)))
  let ready := w.filter (fun x => x.2.isEmpty)
  let s := { s with evt := { s.evt with waiting := w.filter (fun x => !x.2.isEmpty) } }
  ready.foldl (fun s x => reqVec s x.1) s

/-- Clear the pending bit of a vector without a request (R472, R476). -/
def clearVec (s : State) (v : Nat) : State :=
  { s with evt := { s.evt with
      pending := without s.evt.pending v, waiting := s.evt.waiting.filter (fun x => x.1 != v)
      hostSig := s.evt.hostSig.filter (fun x => x.1 != v) } }

/-- evt_fn of a vector (R46). -/
def vecFn (s : State) (v : Nat) : Nat :=
  if v < 4096 then (getQueue s v).owner else if v < 4352 then (v - 4096) / 4 else Config.fnManager

/-- Put an entry into the on-chip log, which has room (R497, R498). -/
def logPut (s : State) (e : BitVec 256) : State :=
  let e' := e ||| BitVec.ofNat 256 (put s.log.seq 48)
  let l : Log := { s.log with entries := s.log.entries ++ [e'], seq := (s.log.seq + 1) % 65536 }
  let high := decide (l.entries.length ≥ 3072) && !s.log.high && decide (s.log.entries.length < 3072)
  let s := { s with log := { l with high := l.high || high } }
  if high then reqVec s 4360 else s

/-- One audit log entry (R494, R495): origin, function, kind, code, WHERE, WHAT. None is made before READY (log entry 9). -/
def audit (s : State) (origin fn kind code loc what : Nat) : State :=
  if ¬ isReady s then s else
  let base := fun (o k c w : Nat) => BitVec.ofNat 256 (s.sched.tickNo % 2 ^ 48 + put (s.sched.elapsed % 2 ^ 21) 64 + put o 88
    + put (fn % 128) 96 + put k 104 + put (c % 65536) 112 + put (loc % 2 ^ 64) 128 + put (w % 2 ^ 64) 192)
  let lostNow := fun (s : State) =>
    let first := !s.log.lostFlag
    let s := modLog s fun l => { l with lost := satN 32 (l.lost + 1), lostSince := l.lostSince + 1, lostFlag := true }
    if first then reqVec s 4360 else s
  if s.log.entries.length ≥ Config.logMax then lostNow s
  else
    let s := if s.log.lostSince > 0 then
        let n := s.log.lostSince
        let s := modLog s fun l => { l with lostSince := 0 }
        logPut s (BitVec.ofNat 256 (s.sched.tickNo % 2 ^ 48 + put (s.sched.elapsed % 2 ^ 21) 64 + put 0x0D 88
          + put 0x7F 96 + put 0x0F 104 + put (n % 2 ^ 64) 192))
      else s
    if s.log.entries.length ≥ Config.logMax then lostNow s else logPut s (base origin kind code what)

/-- An index names a source (R439). -/
def srcExists (s : State) (i : Nat) : Bool :=
  if i < 64 then decide (i < 32)
  else if i < 256 then decide (i - 64 < s.par.rootErrInputs)
  else decide ((i - 256) / 32 < s.par.numAgents) &&
    (decide ((i - 256) % 32 < 5) || (decide (8 ≤ (i - 256) % 32) && decide ((i - 256) % 32 - 8 < s.par.agentErrInputs)))

/-- Configuration word of an entry: as written, or its reset value (R458). -/
def srcCfg (s : State) (key : Nat) : Nat :=
  let w := (tget 0#32 s.watch.cfg key).toNat
  if w ≠ 0 then w else if key % 2 = 1 then 0x101 else srcDefault (key / 2)

/-- Scope key of an event within its entry (R444): 64 stands for events that name none. -/
def scopeKey (e : Ev) : Nat :=
  match scopeOf e.idx with
  | 1 => e.part.getD 64
  | 2 => e.agent.getD 64
  | _ => 0

/-- WATCH_LAST layout (R459). -/
def evWord (e : Ev) (severe : Bool) : Nat :=
  e.code + put e.idx 16 + put (b2n e.wire) 28 + put (b2n severe) 29 +
    (match e.part with | some p => put p 32 + put 1 38 | none => 0) +
    (match e.agent with | some a => put a 39 + put 1 45 | none => 0)

/-- The action of an entry as it applies to an event (R447): reduced to INTERRUPT when the event names no target. -/
def actionOf (act : Nat) (e : Ev) : Nat :=
  if (act = 1 ∧ e.part = none) ∨ (act = 2 ∧ e.agent = none) then 0 else act

/-- The action taken, as an audit log entry gives it (R494); 4: none, as for any but INTERRUPT while FROZEN (R452). -/
def takenOf (s : State) (act : Nat) (e : Ev) : Nat := if s.glb.frozen ∧ actionOf act e ≠ 0 then 4 else actionOf act e

/-- Take an entry's action for an event (R447, R452): manager vector 6, and the rest put down for carrying out. -/
def takeAction (s : State) (act : Nat) (e : Ev) : State :=
  let a := actionOf act e
  let s := if a ≠ act then modWatch s fun w => { w with notarget := insertNat w.notarget e.idx } else s
  if s.glb.frozen then (if a = 0 then reqVec s 4358 else s)
  else
    let s := if a = 3 then s else reqVec s 4358
    if a = 0 then s else modWatch s fun w => { w with actions := w.actions ++ [{ kind := a, ev := e }] }

/-- Count and classify one event (R445, R446, R80). -/
def watchCount (s : State) (e : Ev) : State :=
  if ¬ srcExists s e.idx then s else
  let key := e.idx * 2 + b2n e.wire
  let wk := key * 128 + scopeKey e
  let w := tget {} s.watch.wins wk
  let opens := !w.open_
  let w1 : Win := if w.open_ then { w with n := w.n + 1, code := e.code }
    else { w with open_ := true, start := s.sched.tickNo, n := 1, code := e.code }
  let cfg := srcCfg s key
  let cross := isReady s && decide (w1.n ≥ cfg % 256) && !w1.severe
  let w2 := if cross then { w1 with severe := true } else w1
  let s := modWatch s fun x => { x with
    wins := tput {} x.wins wk w2
    cnt := tput 0 x.cnt e.idx (satN 32 (tget 0 x.cnt e.idx + 1))
    last := BitVec.ofNat 64 (evWord e cross), lastEv := some e }
  let act := (cfg >>> 24) % 4
  let s := if s.watch.logmin || opens || cross then
      audit s 4 Config.fnNone 6 e.code (evWord e cross)
        ((if cross then takenOf s act e else 4) + put (min w2.n 255) 8)
    else s
  if cross then takeAction s act e else s

/-- Raise an error event with a code of R456 at the Root source that counts it, and what the event names. -/
def raiseOn (s : State) (code : Nat) (part agent : Option Nat) (named : List (Item × Nat)) : State :=
  match srcOfCode code with
  | none => s
  | some i => watchCount s { code := code, idx := i, wire := false, part := part, agent := agent, named := named }
/-- Raise an event that names a partition or an agent at most. -/
def raise (s : State) (code : Nat) (part agent : Option Nat) : State := raiseOn s code part agent []

/-- Raise an event of a source given by its index. -/
def raiseAt (s : State) (code idx : Nat) (wire : Bool) (agent : Option Nat) : State :=
  watchCount s { code := code, idx := idx, wire := wire, part := none, agent := agent }

/-- Set bits of a W1C status; a bit that becomes 1 raises a vector. -/
def newBits (old mask : Nat) : Bool := decide (old &&& mask ≠ mask)

end Sys2Proof.Machine
end

