-- ==== Sys2Proof/Machine/Pack.lean ====
section
/-! DEFINITION. Bit layouts as lists of field widths, and CRC-32C. -/

namespace Sys2Proof.Machine

/-- Lay fields out from bit 0 up: width and value of each. -/
def pack : List (Nat × Nat) → Nat
  | [] => 0
  | (w, v) :: t => v % 2 ^ w + 2 ^ w * pack t

/-- Read fields of the given widths from bit 0 up. -/
def unpack : List Nat → Nat → List Nat
  | [], _ => []
  | w :: t, x => x % 2 ^ w :: unpack t (x / 2 ^ w)

/-- Eight steps of the CRC-32C shift register, least significant bit first (polynomial 0x1EDC_6F41, reflected). -/
def crcBits : Nat → Nat → Nat
  | 0, c => c
  | n + 1, c => crcBits n (if c % 2 = 1 then (c / 2) ^^^ 0x82F63B78 else c / 2)

/-- CRC-32C register over the n low bytes of a number, first byte first. -/
def crcRun : Nat → Nat → Nat → Nat
  | 0, _, c => c
  | n + 1, x, c => crcRun n (x / 256) (crcBits 8 (c ^^^ (x % 256)))

/-- CRC-32C of n bytes (log entry 10). -/
def crc32c (n x : Nat) : Nat := crcRun n x 0xFFFFFFFF ^^^ 0xFFFFFFFF

/-- CRC-32C of a list of bytes. -/
def crcList (l : List Byte) : Nat :=
  (l.foldl (fun c b => crcBits 8 (c ^^^ b.toNat)) 0xFFFFFFFF) ^^^ 0xFFFFFFFF

end Sys2Proof.Machine
end

