-- ==== Sys2Proof/Machine/Tide.lean ====
section
/-! DEFINITION. Tide messages: layouts of their payloads, flits, sending, receiving (R51–R54). -/

namespace Sys2Proof.Machine

/-- TYPE of a message (R52). -/
def msgType : Msg → Nat
  | .idle => 0
  | .tick _ _ => 1
  | .mopPush _ => 2
  | .flagUpdate _ _ => 3
  | .flagSignal _ _ _ _ => 4
  | .completion _ => 5
  | .partialRec _ _ _ _ => 6
  | .regRead _ _ _ => 7
  | .regWrite _ _ _ _ _ => 8
  | .regReply _ _ _ _ => 9
  | .watchEvent _ _ _ _ => 10
  | .modeStage _ _ _ _ _ => 11
  | .modeAck _ _ _ _ => 12
  | .ctxXfer _ _ _ _ _ => 13
  | .loopback _ _ => 14
  | .replayReq _ => 15
  | .agentReset _ => 16

/-- Flits a message takes (R51). -/
def msgFlits : Msg → Nat
  | .mopPush _ | .partialRec _ _ _ _ => 2
  | .modeStage sub _ _ _ _ => if sub = 1 then 2 else 1
  | .ctxXfer _ _ _ _ d => (16 + d.length + 51) / 52
  | _ => 1

def wTick : List Nat := [48, 16, 21, 11]
def wPush : List Nat := [10, 1, 1, 4, 16, 16, 6, 2, 1, 7, 32, 32, 32, 32, 512, 20, 12]
def wUpd : List Nat := [32, 32, 64]
def wSig : List Nat := [32, 3, 5, 24, 62, 2, 32]
def wCompl : List Nat := [10, 6, 16, 32, 8, 8, 16, 32, 32, 64, 16, 2, 6, 4, 4, 32]
def wPart : List Nat := [10, 6, 16, 32, 512]
def wRead : List Nat := [24, 8, 8]
def wWrite : List Nat := [24, 8, 8, 24, 32, 256]
def wReply : List Nat := [24, 8, 8, 56, 256]
def wWatch : List Nat := [5, 3, 1, 1, 6, 8]
def wMode : List Nat := [8, 8, 16, 32, 48, 16, 384]
def wAck : List Nat := [8, 8, 8, 8, 32]
def wCtx : List Nat := [8, 8, 10, 6, 32, 32, 16, 16]

/-- The payload of a message as one number, byte 0 lowest (R53, R172, R284, R307, R406, R443, R488, R505). -/
def msgPayload : Msg → Nat
  | .idle => 0
  | .tick n p => pack (wTick.zip [n, 0, p, 0])
  | .mopPush m => pack (wPush.zip [m.eq, b2n m.be, b2n m.chained, m.predQ, m.tag, m.predTag, m.part, 0, b2n m.maint, 0,
      m.launch, m.charge, m.allow, m.used0, m.mop.toNat, m.deftmo, 0])
  | .flagUpdate h w => pack (wUpd.zip [h, 0, w.toNat])
  | .flagSignal h op x l => pack (wSig.zip [h, op, 0, 0, x, 0, l])
  | .completion c => pack (wCompl.zip [c.eq, 0, c.tag, c.launch, c.status, c.cause, c.error, c.cycles, c.ns10, c.bytes,
      c.tileAt, c.flags, 0, c.fflags, 0, c.whandle])
  | .partialRec e t l r => pack (wPart.zip [e, 0, t, l, r.toNat])
  | .regRead o t z => pack (wRead.zip [o, t, z])
  | .regWrite o t z st d => pack (wWrite.zip [o, t, z, 0, st, d.toNat])
  | .regReply o t r d => pack (wReply.zip [o, t, r, 0, d.toNat])
  | .watchEvent j w l n => pack (wWatch.zip [j, 0, b2n w, b2n l, 0, n])
  | .modeStage sub i n t its => pack (wMode.zip [sub, i, 0, n, t, 0, its.toNat])
  | .modeAck r c re n => pack (wAck.zip [r, c, re, 0, n])
  | .ctxXfer sub sl l o d => pack (wCtx.zip [sub, 0, sl, 0, l, o, d.length, 0]) + 2 ^ 128 * bytesToNat d
  | .loopback sub b => sub % 256 + 256 * (b.toNat / 256)
  | .replayReq n => n % 4096
  | .agentReset c => c % 256

/-- A message's TYPE has a reserved value, or a field of it has (R53, R54): it is discarded. -/
def msgDecode (ty x : Nat) : Option Msg :=
  match ty with
  | 0 => some .idle
  | 1 => match unpack wTick x with
    | [n, _, p, _] => some (.tick n p)
    | _ => none
  | 2 => match unpack wPush x with
    | [eq, be, ch, pq, tag, pt, part, _, mt, _, l, c, al, u, mop, dt, _] =>
      some (.mopPush {
        eq := eq, be := be == 1, chained := ch == 1, predQ := pq, tag := tag, predTag := pt, part := part,
        maint := mt == 1, launch := l, charge := c, allow := al, used0 := u, mop := BitVec.ofNat 512 mop, deftmo := dt })
    | _ => none
  | 3 => match unpack wUpd x with
    | [h, _, w] => some (.flagUpdate h (BitVec.ofNat 64 w))
    | _ => none
  | 4 => match unpack wSig x with
    | [h, op, _, _, v, _, l] => if op = 7 then none else some (.flagSignal h op v l)
    | _ => none
  | 5 => match unpack wCompl x with
    | [eq, _, tag, l, st, ca, er, cy, ns, by_, ti, fl, _, ff, _, wh] =>
      if 4 < st then none else some (.completion {
        eq := eq, tag := tag, launch := l, status := st, cause := ca, error := er,
        cycles := cy, ns10 := ns, bytes := by_, tileAt := ti, flags := fl, fflags := ff, whandle := wh })
    | _ => none
  | 6 => match unpack wPart x with
    | [e, _, t, l, r] => some (.partialRec e t l (BitVec.ofNat 512 r))
    | _ => none
  | 7 => match unpack wRead x with
    | [o, t, z] => if z = 2 ∨ z = 3 ∨ z = 5 then (if o % 2 ^ z = 0 then some (.regRead o t z) else none) else none
    | _ => none
  | 8 => match unpack wWrite x with
    | [o, t, z, _, st, d] =>
      if z = 2 ∨ z = 3 ∨ z = 5 then (if o % 2 ^ z = 0 then some (.regWrite o t z st (BitVec.ofNat 256 d)) else none) else none
    | _ => none
  | 9 => match unpack wReply x with
    | [o, t, r, _, d] => if r ≤ 2 then some (.regReply o t r (BitVec.ofNat 256 d)) else none
    | _ => none
  | 10 => match unpack wWatch x with
    | [j, _, w, l, _, n] => some (.watchEvent j (w == 1) (l == 1) n)
    | _ => none
  | 11 => match unpack wMode x with
    | [sub, i, _, n, t, _, its] =>
      if 1 ≤ sub ∧ sub ≤ 3 then some (.modeStage sub i n t (BitVec.ofNat 384 its)) else none
    | _ => none
  | 12 => match unpack wAck x with
    | [r, c, re, _, n] => if 1 ≤ r ∧ r ≤ 2 then some (.modeAck r c re n) else none
    | _ => none
  | 13 => match unpack wCtx x with
    | [sub, _, sl, _, l, o, len, _] =>
      if 1 ≤ sub ∧ sub ≤ 5 ∧ len ≤ 4096 then some (.ctxXfer sub sl l o (natToBytes (x / 2 ^ 128) len)) else none
    | _ => none
  | 14 => some (.loopback (x % 256) (BitVec.ofNat 416 x))
  | 15 => some (.replayReq (x % 4096))
  | 16 => if 1 ≤ x % 256 ∧ x % 256 ≤ 5 then some (.agentReset (x % 256)) else none
  | _ => none

/-- Each field of a message lies within its width and holds no reserved value. -/
def msgWf : Msg → Bool
  | .idle => true
  | .tick n p => decide (n < 2 ^ 48) && decide (p < 2 ^ 21)
  | .mopPush m => decide (m.eq < 2 ^ 10) && decide (m.predQ < 16) && decide (m.tag < 2 ^ 16) && decide (m.predTag < 2 ^ 16)
      && decide (m.part < 64) && decide (m.launch < 2 ^ 32) && decide (m.charge < 2 ^ 32) && decide (m.allow < 2 ^ 32)
      && decide (m.used0 < 2 ^ 32) && decide (m.deftmo < 2 ^ 20)
  | .flagUpdate h _ => decide (h < 2 ^ 32)
  | .flagSignal h op x l => decide (h < 2 ^ 32) && decide (op < 7) && decide (x < 2 ^ 62) && decide (l < 2 ^ 32)
  | .completion c => decide (c.eq < 2 ^ 10) && decide (c.tag < 2 ^ 16) && decide (c.launch < 2 ^ 32) && decide (c.status ≤ 4)
      && decide (c.cause < 256) && decide (c.error < 2 ^ 16) && decide (c.cycles < 2 ^ 32) && decide (c.ns10 < 2 ^ 32)
      && decide (c.bytes < 2 ^ 64) && decide (c.tileAt < 2 ^ 16) && decide (c.flags < 4) && decide (c.fflags < 16)
      && decide (c.whandle < 2 ^ 32)
  | .partialRec e t l _ => decide (e < 2 ^ 10) && decide (t < 2 ^ 16) && decide (l < 2 ^ 32)
  | .regRead o t z => decide (o < 2 ^ 24) && decide (t < 256) && (z == 2 || z == 3 || z == 5) && decide (o % 2 ^ z = 0)
  | .regWrite o t z st _ => decide (o < 2 ^ 24) && decide (t < 256) && (z == 2 || z == 3 || z == 5)
      && decide (o % 2 ^ z = 0) && decide (st < 2 ^ 32)
  | .regReply o t r _ => decide (o < 2 ^ 24) && decide (t < 256) && decide (r ≤ 2)
  | .watchEvent j _ _ n => decide (j < 32) && decide (n < 256)
  | .modeStage sub i n t its => decide (1 ≤ sub) && decide (sub ≤ 3) && decide (i < 256) && decide (n < 2 ^ 32)
      && decide (t < 2 ^ 48) && (sub == 1 || its == 0)
  | .modeAck r c re n => decide (1 ≤ r) && decide (r ≤ 2) && decide (c < 256) && decide (re < 256) && decide (n < 2 ^ 32)
  | .ctxXfer sub sl l o d => decide (1 ≤ sub) && decide (sub ≤ 5) && decide (sl < 1024) && decide (l < 2 ^ 32)
      && decide (o < 2 ^ 32) && decide (d.length ≤ 4096)
  | .loopback sub b => decide (sub = b.toNat % 256)
  | .replayReq n => decide (n < 4096)
  | .agentReset c => decide (1 ≤ c) && decide (c ≤ 5)

/-- A flit (R51). -/
def mkFlit (ty : Nat) (cont : Bool) (agent seq ack credits : Nat) (payload : BitVec 416) : W512 :=
  let body := pack [(5, ty), (1, b2n cont), (2, 0), (6, agent), (2, 0), (12, seq), (12, ack), (8, credits), (16, 0),
    (416, payload.toNat)]
  BitVec.ofNat 512 (body + 2 ^ 480 * crc32c 60 body)

/-- The flit's CRC is good. -/
def flitCrcOk (f : W512) : Bool := decide (fld f 480 32 = crc32c 60 (f.toNat % 2 ^ 480))

/-- Cut a payload into flits of 52 bytes: TYPE, CONT, payload. -/
def cutFlits (ty : Nat) : Nat → Nat → List (Nat × Bool × BitVec 416)
  | 0, _ => []
  | n + 1, x => (ty, decide (n ≠ 0), BitVec.ofNat 416 x) :: cutFlits ty n (x / 2 ^ 416)

/-- Send the flits that wait while a credit is held and fewer than 64 are unacknowledged (R54). -/
def pumpTx (agent ack : Nat) : Nat → TxSide → Nat → TxSide × Nat
  | 0, t, freed => (t, freed)
  | n + 1, t, freed =>
    match t.waiting with
    | [] => (t, freed)
    | (ty, cont, pl) :: rest =>
      if t.credits = 0 ∨ 64 ≤ t.unacked.length then (t, freed)
      else
        let c := min freed 255
        let f := mkFlit ty cont agent t.seq ack c pl
        pumpTx agent ack n { t with
          seq := (t.seq + 1) % 4096, unacked := t.unacked ++ [(t.seq, f)],
          credits := t.credits - 1, waiting := rest } (freed - c)

/-- A sending end with 64 flits unacknowledged that has more to send puts an IDLE flit on its way (R54). -/
def stopIdle (a ack : Nat) (t : TxSide) (freed : Nat) : TxSide × Nat :=
  if 64 ≤ t.unacked.length ∧ ¬ t.waiting.isEmpty ∧ t.control.isEmpty then
    let c := min freed 255
    ({ t with control := [mkFlit 0 false a t.seq ack c 0] }, freed - c)
  else (t, freed)

/-- The SEQ last received in order. -/
def lastSeq (r : RxSide) : Nat := (r.next + 4095) % 4096

/-- Send what the Root may send to an agent. -/
def pumpDown (s : State) (a : Nat) : State :=
  modLink s a fun k =>
    if !k.up then k else
    let (t, f) := pumpTx a (lastSeq k.upRx) (k.downTx.waiting.length) k.downTx k.upRx.freed
    let (t, f) := stopIdle a (lastSeq k.upRx) t f
    { k with downTx := t, upRx := { k.upRx with freed := f } }

/-- Send what an agent may send to the Root. -/
def pumpUp (s : State) (a : Nat) : State :=
  modLink s a fun k =>
    if !k.up then k else
    let (t, f) := pumpTx a (lastSeq k.downRx) (k.upTx.waiting.length) k.upTx k.downRx.freed
    let (t, f) := stopIdle a (lastSeq k.downRx) t f
    { k with upTx := t, downRx := { k.downRx with freed := f } }

/-- Hand a message to the Root's sending end toward an agent. -/
def sendDown (s : State) (a : Nat) (m : Msg) : State :=
  pumpDown (modLink s a fun k =>
    { k with downTx := { k.downTx with waiting := k.downTx.waiting ++ cutFlits (msgType m) (msgFlits m) (msgPayload m) } }) a

/-- Hand a message to an agent's sending end toward the Root. -/
def sendUp (s : State) (a : Nat) (m : Msg) : State :=
  pumpUp (modLink s a fun k =>
    { k with upTx := { k.upTx with waiting := k.upTx.waiting ++ cutFlits (msgType m) (msgFlits m) (msgPayload m) } }) a

/-- An agent sends a FLAG_SIGNAL; `by_` names the task whose FSIG it is. -/
def sendSignal (s : State) (a : Nat) (by_ : Option Nat) (h op x launch : Nat) : State :=
  sendUp (modLink s a fun k => { k with sigBy := k.sigBy ++ [by_] }) a (.flagSignal h op x launch)

/-- The first message an agent has received and not yet taken. -/
def downHead (s : State) (a : Nat) : Option Msg := (getLink s a).downRx.inbox.head?
/-- The first message of an agent that the Root has received and not yet taken (R405). -/
def upHead (s : State) (a : Nat) : Option Msg := (getLink s a).upRx.inbox.head?

/-- Take the first message from a receiving end: its flits are freed (R54). -/
def takeRx (r : RxSide) : RxSide :=
  match r.inbox with
  | [] => r
  | m :: t => { r with inbox := t, freed := r.freed + msgFlits m, used := r.used - msgFlits m }

/-- Drop acknowledged flits: those up to and including ACK_SEQ, when it is one of them. -/
def ackTx (t : TxSide) (ack : Nat) : TxSide :=
  if t.unacked.any (fun x => x.1 == ack) then
    let rest := (t.unacked.dropWhile (fun x => x.1 != ack)).drop 1
    { t with unacked := rest, replays := t.replays.filter (fun r => rest.any (fun x => x.1 == r.1)) }
  else t

/-- Control flits (IDLE and REPLAY_REQ) take no SEQ and no credit (log entry 11). -/
def sendControl (a ack : Nat) (ty : Nat) (payload : Nat) (t : TxSide) (freed : Nat) : TxSide × Nat :=
  let c := min freed 255
  ({ t with control := t.control ++ [mkFlit ty false a t.seq ack c (BitVec.ofNat 416 payload)] }, freed - c)

/-- A sending end can send nothing (R54): no flit waits, no credit is held, or 64 flits are unacknowledged. -/
def txStuck (t : TxSide) : Bool := t.waiting.isEmpty || t.credits == 0 || decide (64 ≤ t.unacked.length)

/-- A receiver that can send nothing returns ACK_SEQ and CREDITS in an IDLE flit (R54): the agent, and the Root. -/
def idleUp (a : Nat) (k : Link) : Link :=
  if txStuck k.upTx then
    let (t, f) := sendControl a (lastSeq k.downRx) 0 0 k.upTx k.downRx.freed
    { k with upTx := t, downRx := { k.downRx with freed := f } }
  else k
def idleDown (a : Nat) (k : Link) : Link :=
  if txStuck k.downTx then
    let (t, f) := sendControl a (lastSeq k.upRx) 0 0 k.downTx k.upRx.freed
    { k with downTx := t, upRx := { k.upRx with freed := f } }
  else k

/-- The agent takes its first message. -/
def takeDown (s : State) (a : Nat) : State := modLink s a fun k => idleUp a { k with downRx := takeRx k.downRx }
/-- The Root takes the first message of an agent. -/
def takeUp (s : State) (a : Nat) : State := modLink s a fun k => idleDown a { k with upRx := takeRx k.upRx }

/-- The payloads of a message's flits as one number. -/
def joinPayload : List (BitVec 416) → Nat
  | [] => 0
  | p :: t => p.toNat + 2 ^ 416 * joinPayload t

/-- What an arriving flit does at a receiving end: control flit, wanted, already received, bad or out of order. -/
inductive FlitKind where
  | control | wanted | old | bad
  deriving DecidableEq, Repr

/-- Sort an arriving flit (R54). -/
def flitKind (r : RxSide) (f : W512) : FlitKind :=
  if ¬ flitCrcOk f then .bad
  else if fld f 0 5 = 0 ∨ fld f 0 5 = 15 then .control
  else if fld f 16 12 = r.next then .wanted
  else if (r.next + 4096 - fld f 16 12) % 4096 ≤ 2048 then .old
  else .bad

end Sys2Proof.Machine
end

