-- ==== Sys2Proof/Machine/Launches.lean ====
section
/-! DEFINITION. Launch descriptors and their fields (R130–R133), handle-table entries (R143), launch IDs (R150), manager
port writes (R44), and how a launch leaves the launch path (R141, R147, R411). -/

namespace Sys2Proof.Machine

/-- LAUNCH_ID of the launch at a linear position of a queue (R150). -/
def launchId (q pos : Nat) : Nat := 0x80000000 + (pos % 2 ^ 18) * 4096 + q

/-- The key of a launch fetched now (log entry 7): its LAUNCH_ID, or that plus a multiple of 2^32 while earlier launches that
bear the number are outstanding. -/
def freshKey (s : State) (id : Nat) : Nat :=
  (((List.range (s.launches.length + 1)).map (fun k => id + 2 ^ 32 * k)).find? (fun k => (kget s.launches k).isNone)).getD id

/-- The outstanding launch that a 32-bit LAUNCH_ID of a message means: the one with a property, else the first. -/
def launchNamed (s : State) (id : Nat) (f : Launch → Bool) : Nat :=
  let l := s.launches.filter (fun x => x.1 % 2 ^ 32 == id % 2 ^ 32)
  match l.find? (fun x => f x.2), l.head? with
  | some x, _ => x.1
  | none, some x => x.1
  | none, none => id

def dOpcode (d : W512) : Nat := fld d 0 8
def dClass (d : W512) : Bool := bitOf d 8
def dChain (d : W512) : Bool := bitOf d 9
def dCbInline (d : W512) : Bool := bitOf d 10
def dIrq (d : W512) : Bool := bitOf d 11
def dTarget (d : W512) : Nat := fld d 16 10
def dCbLen (d : W512) : Nat := fld d 26 6
def dCost (d : W512) : Nat := fld d 32 32
def dFrag (d : W512) : Nat := fld d 64 32
def dCbHandle (d : W512) : Nat := fld d 96 32
/-- Wait entry k of a descriptor, 128 bits (R131). -/
def dWait (d : W512) (k : Nat) : Nat := fld d (128 + 128 * k) 128
/-- Inline signal, 128 bits (R132). -/
def dSig (d : W512) : Nat := fld d 384 128

def wHandle (w : Nat) : Nat := nbits w 0 32
def wTimeout (w : Nat) : Nat := nbits w 32 20
def wCompare (w : Nat) : Nat := nbits w 52 3
def wCrest (w : Nat) : Nat := nbits w 64 62
def sHandle (w : Nat) : Nat := nbits w 0 32
def sOp (w : Nat) : Nat := nbits w 32 2
def sValue (w : Nat) : Nat := nbits w 64 62

/-- Flag handle bits that must be 0 are 0 (R156, R518). -/
def flagHandleOk (h : Nat) : Bool :=
  match h >>> 30 with
  | 0 => decide (nbits h 16 14 = 0)
  | 1 => true
  | 2 => decide (nbits h 20 10 = 0)
  | _ => decide (nbits h 16 8 = 0)
/-- A buffer handle's reserved bits are 0 (R142). -/
def bufHandleOk (h : Nat) : Bool := decide (h >>> 20 = 0)
/-- A wait entry breaks no rule on its reserved bits (R516). -/
def waitEntryOk (w : Nat) : Bool :=
  decide (wCompare w ≤ 5) && decide (nbits w 55 9 = 0) && decide (nbits w 126 2 = 0) && flagHandleOk (wHandle w)
/-- A signal entry breaks no rule on its reserved bits (R516). -/
def sigEntryOk (w : Nat) : Bool :=
  decide (nbits w 34 30 = 0) && decide (nbits w 126 2 = 0) && flagHandleOk (sHandle w)

/-- Handle-table entry fields (R143). -/
def hAddr (e : BitVec 128) : Nat := (fld e 6 58) * 64
def hLen64 (e : BitVec 128) : Nat := fld e 64 28
def hKind (e : BitVec 128) : Nat := fld e 92 4
def hValid (e : BitVec 128) : Bool := bitOf e 96
def hLoc (e : BitVec 128) : Bool := bitOf e 97
def hWritable (e : BitVec 128) : Bool := bitOf e 98
def hStew (e : BitVec 128) : Bool := bitOf e 99
/-- HREL form of an address in an entry (R255). -/
def hrel (e : BitVec 128) (off : Nat) : W64 :=
  BitVec.ofNat 64 ((hAddr e + off) / 64 * 64 + 2 * b2n (hWritable e) + b2n (hLoc e))

/-- The handle cache answers with an entry, which becomes the most recently used (R145). -/
def cacheLookup (s : State) (p i : Nat) : Option (BitVec 128) :=
  (s.hcache.lines.find? (fun x => x.1 == p * 2 ^ 20 + i)).map (·.2)
def cacheTouch (s : State) (p i : Nat) : State :=
  match s.hcache.lines.find? (fun x => x.1 == p * 2 ^ 20 + i) with
  | none => s
  | some x => { s with hcache := { s.hcache with lines := s.hcache.lines.filter (fun y => y.1 != x.1) ++ [x] } }

/-- Fill the handle cache: 1,024 sets of 8 ways, least recently used out, 2,048 entries a partition (R145). -/
def cacheFill (s : State) (p i : Nat) (e : BitVec 128) : State :=
  let key := p * 2 ^ 20 + i
  let set := fun (k : Nat) => k % 1024
  let lines := s.hcache.lines.filter (fun y => y.1 != key)
  let own := lines.filter (fun y => y.1 / 2 ^ 20 == p)
  let inSet := lines.filter (fun y => set y.1 == set key)
  let drop1 := fun (l : List (Nat × BitVec 128)) (v : Option (Nat × BitVec 128)) =>
    match v with
    | some x => l.filter (fun y => y.1 != x.1)
    | none => l
  let lines1 :=
    if 2048 ≤ own.length then
      match (own.filter (fun y => set y.1 == set key)).head? with
      | some x => drop1 lines (some x)
      | none => drop1 (if 8 ≤ inSet.length then drop1 lines inSet.head? else lines) own.head?
    else if 8 ≤ inSet.length then drop1 lines inSet.head? else lines
  { s with hcache := { s.hcache with lines := lines1 ++ [(key, e)] } }

/-- Fills under way whose key meets a test are stale from here on. -/
def staleFills (h : HCache) (f : Nat → Bool) : HCache :=
  { h with filling := h.filling.map (fun x => if f x.key then { x with stale := true } else x) }

/-- The Steward's write through the relocation unit updates any cached copy (R144). -/
def cacheUpdate (s : State) (p i : Nat) (e : BitVec 128) : State :=
  { s with hcache := staleFills { s.hcache with
      lines := s.hcache.lines.map (fun x => if x.1 = p * 2 ^ 20 + i then (x.1, e) else x) } fun k => k == p * 2 ^ 20 + i }

/-- The PASID of a function (R44). -/
def pasidOf (s : State) (fn : Nat) : Nat := if fn < 64 then (getPart s fn).pasid else 0

/-- Issue a write on the manager port under a PASID (R44): the transaction number, and the state with it outstanding. -/
def mgrWriteAs (s : State) (fn pasid addr len data : Nat) (k : WrKind) : Nat × State :=
  (s.port.nextTxn, { s with port := { s.port with
    nextTxn := s.port.nextTxn + 1
    writes := s.port.writes ++ [{ txn := s.port.nextTxn, fn := fn, pasid := pasid, addr := addr % 2 ^ 64, len := len,
                                  data := data, kind := k }] } })
/-- Issue a write for a function. -/
def mgrWrite (s : State) (fn addr len data : Nat) (k : WrKind) : Nat × State := mgrWriteAs s fn (pasidOf s fn) addr len data k

/-- Issue a read on the manager port (R44). -/
def mgrRead (s : State) (fn addr len : Nat) (k : RdKind) : State :=
  { s with port := { s.port with
    reads := s.port.reads ++ [{ fn := fn, pasid := pasidOf s fn, addr := addr % 2 ^ 64, len := len, kind := k }] } }

/-- The reads of a kind have brought their data, or have met their fault: they are outstanding no more. -/
def readDone (s : State) (k : RdKind) : State :=
  { s with port := { s.port with reads := s.port.reads.filter (fun r => decide (r.kind ≠ k)) } }

/-- A handle-table entry that the cache lacks (R145): the miss is counted and joins the fill under way, unless that has become
stale, or its read goes out. The number of the fill, and the state. -/
def hMiss (s : State) (p i : Nat) : Nat × State :=
  let s := modPart s p fun x => { x with misses := satN 32 (x.misses + 1) }
  let key := p * 2 ^ 20 + i
  match s.hcache.filling.find? (fun f => f.key == key && !f.stale) with
  | some f => (f.no, s)
  | none =>
    let n := s.hcache.nextFill
    (n, mgrRead { s with hcache := { s.hcache with filling := s.hcache.filling ++ [{ key := key, no := n }], nextFill := n + 1 } }
      p ((getPart s p).htabBase.toNat + 16 * i) 16 (.handle n))
/-- A hit: the entry becomes the most recently used, and is counted. -/
def hHit (s : State) (p i : Nat) : State := modPart (cacheTouch s p i) p fun x => { x with hits := satN 32 (x.hits + 1) }

/-- Cut a range of bytes into AXI reads of at most 4 KiB that cross no 4 KiB boundary, in ascending address order (R116). -/
def cutReads : Nat → Nat → Nat → List (Nat × Nat)
  | 0, _, _ => []
  | n + 1, a, len =>
    let k := min len (4096 - a % 4096)
    if len = 0 then [] else (a, k) :: cutReads n (a + k) (len - k)

/-- A write has had its response or its fault: it is outstanding no more. -/
def mgrDone (s : State) (txn : Nat) : State :=
  { s with port := { s.port with writes := s.port.writes.filter (fun w => w.txn != txn) } }

/-- Launches of a queue that are outstanding (R123). -/
def queueLaunches (s : State) (q : Nat) : List (Nat × Launch) := s.launches.filter (fun x => x.2.queue == q)
def outstanding (s : State) (q : Nat) : Nat := (queueLaunches s q).length

/-- The launch has completed: its record is to be written, or is on its way. -/
def isDone (l : Launch) : Bool := decide (l.stage = .outfall) || decide (l.stage = .written)

/-- The launch is past the Weir and not yet complete (R176). -/
def pastWeir (l : Launch) : Bool :=
  match l.stage with
  | .sched | .held | .booked | .running => true
  | _ => false

/-- The launch has been admitted and is not complete (R212). -/
def isAdmitted (l : Launch) : Bool := decide (l.stage = .running)

/-- Free a core's slices held for a context slot. -/
def freeSlices (s : State) (core slot : Nat) : State :=
  modCore s core fun c => { c with owner := c.owner.filter (fun x => x.2 != slot + 1) }

/-- A context ends: slot and slices are released (R270); a running one leaves its core without a save. -/
def freeCtx (s : State) (slot : Nat) : State :=
  match kget s.ctxs slot with
  | none => s
  | some c =>
    let s := freeSlices s c.core slot
    let s := modCore s c.core fun k => if k.run = some slot then { k with run := none, st := 0 } else k
    let gone := slot :: c.tasks.map (fun (t : Nat × Nat) => t.2)
    { s with
      ctxs := kdel s.ctxs slot
      save := { s.save with
        used := s.save.used.filter (fun k => !gone.contains k), saved := s.save.saved.filter (fun x => !gone.contains x.1)
        pieces := s.save.pieces.filter (fun x => !gone.contains x.1) }
      port := { s.port with
        writes := s.port.writes.filter (fun w => match w.kind with
          | .save k => !gone.contains k
          | _ => true)
        reads := s.port.reads.filter (fun r => match r.kind with
          | .restore k => k != slot
          | .xfer core tag => core != c.core || !c.xfers.any (fun x => x.tag == tag)
          | _ => true) }
      weir := { s.weir with
        sigq := s.weir.sigq.map (orphan slot gone)
        mem := s.weir.mem.map (fun x => (x.1, { x.2 with sigs := x.2.sigs.map (orphan slot gone) })) } }
where
  /-- A signal whose sender is gone is applied with nobody waiting for it. -/
  orphan (slot : Nat) (gone : List Nat) (g : Sig) : Sig :=
    { g with
      ctx := if g.ctx = some slot then none else g.ctx
      task := if g.task.any (fun t => gone.contains t.2) then none else g.task }

/-- Merge reservations of a launch. -/
def mergesOf (s : State) (l : Nat) : List (Nat × Merge) := s.outf.merges.filter (fun x => x.1 / 256 == l)

/-- A merge reservation holds a slot that is not finalised, and the merge has not failed (R411). -/
def mergeOpen (m : Merge) : Bool :=
  !m.failed && decide ((m.slots.filter (fun x => x.2.final)).length < m.dim0 * m.dim1 / 8)

/-- The last Outfall error (R417), and manager vector 4 when MERGE_ERR becomes 1. -/
def outErr (s : State) (launch mid : Nat) : State :=
  let was := s.outf.err
  let s := { s with outf := { s.outf with err := true, errMid := mid, errCode := eAttnMerge, errLaunch := launch % 2 ^ 32 } }
  if was then s else reqVec s 4356

/-- Key of a partition's booking on an engine queue. -/
def bookKey (p q : Nat) : Nat := p * 1024 + q
/-- Take a vector out of a period's bookings. -/
def unbook (t : Tbl Nat) (p : Nat) (v : List (Nat × Nat)) : Tbl Nat :=
  v.foldl (fun t (c : Nat × Nat) => tput 0 t (bookKey p c.1) (tget 0 t (bookKey p c.1) - c.2)) t
/-- A launch that leaves the scheduler booked releases its booking in the next period (R219, R232). -/
def unbookNext (s : State) (l : Launch) : State :=
  if l.stage = .booked then modSched s fun c => { c with bookNext := unbook c.bookNext l.part l.charge } else s

/-- A walk's outstanding count ends (R388). -/
def walkEnd (s : State) (walk : Nat) : State :=
  if walk = 0 then s else
  let n := tget 0 s.attn.walks (walk - 1)
  { s with attn := { s.attn with walks := tput 0 s.attn.walks (walk - 1) (n - 1) } }
/-- The pushes of a launch that still wait at the Root go, with the walks that have started among them. -/
def dropPushes (s : State) (id : Nat) : State :=
  let gone := s.pushes.filter (fun p => p.launch == id)
  { (gone.foldl (fun s p => walkEnd s p.walkKey) s) with pushes := s.pushes.filter (fun p => p.launch != id) }

/-- One launch leaves the launch path for the Outfall with its status and error (R141, R147, R411): waits are disarmed,
its context is released, its merge reservations are freed. -/
def leaveOne (s : State) (id status error : Nat) : State :=
  match kget s.launches id with
  | none => s
  | some l =>
    if isDone l then s else
    let bad := status = stOk ∧ (mergesOf s id).any (fun x => mergeOpen x.2)
    let s := if bad then raise (outErr s id 0) eAttnMerge (some l.part) none else s
    let status' := if bad then stAborted else status
    let error' := if bad then eAttnMerge else if status = stOk then l.skipErr else error
    let s := match l.slot with
      | some k => freeCtx s k
      | none => s
    let s := unbookNext s l
    let s := dropPushes s id
    let s := { s with outf := { s.outf with merges := s.outf.merges.filter (fun x => x.1 / 256 != id) } }
    setLaunch s id { l with
      drained := (match (getQueue s l.queue).st with
        | .draining | .resetting => true
        | _ => false)
      stage := .outfall, status := status', error := error', waits := [], outs := [], slot := none, ctxWanted := false
      poisoned := decide (status' ≠ stOk) }

/-- The later members of a launch's chain that hold no pushed macro-op (R141). -/
def laterMembers (s : State) (l : Launch) : List Nat :=
  if l.head = 0 then []
  else (s.launches.filter (fun x => x.2.head == l.head && decide (l.chainNo < x.2.chainNo) && x.2.outs.isEmpty
    && !isDone x.2)).map (·.1)

/-- A launch completes (R141, R147): with a status other than ST_OK the members of its chain not yet started complete
with ST_ABORTED and E_CHAIN_BROKEN. -/
def leave (s : State) (id status error : Nat) : State :=
  match kget s.launches id with
  | none => s
  | some l =>
    if isDone l then s else
    let later := laterMembers s l
    let s := leaveOne s id status error
    if status = stOk then s
    else later.foldl (fun s m => raise (leaveOne s m stAborted eChainBroken) eChainBroken (some l.part) none) s

/-- Partition status PWIN_WSTAT: each setting of a bit raises partition vector 2 (R185). -/
def wstatSet (s : State) (p bit : Nat) : State :=
  reqVec (modPart s p fun x => { x with wstat := setBit x.wstat bit }) (4096 + 4 * p + 2)

/-- SCH_STAT and PWIN_SSTAT bits and their vectors (R235). -/
def sstatSet (s : State) (p bit : Nat) : State :=
  let was := (getPart s p).sstat.testBit bit
  let s := modPart s p fun x => { x with sstat := setBit x.sstat bit }
  let s := if was then s else reqVec s (4096 + 4 * p + 3)
  let was := s.sched.stat.testBit bit
  let s := modSched s fun c => { c with stat := setBit c.stat bit }
  if was then s else reqVec s 4354

end Sys2Proof.Machine
end

