-- ==== Sys2Proof/Machine/Weir.lean ====
section
/-! DEFINITION. The Weir's operations: flag words, signal operations, comparisons, evaluation of waits, memory flags,
wait errors, owner chains (R154–R185). -/

namespace Sys2Proof.Machine

/-- A queue's launches, the oldest first. -/
def oldestOf (l : List (Nat × Launch)) : Option (Nat × Launch) :=
  l.foldl (fun b x => match b with
    | none => some x
    | some y => if x.2.seqNo < y.2.seqNo then some x else some y) none

/-- Result of a signal operation on a flag word, and whether it clamped (R159, R163): 0 ADD, 1 SUB, 2 SET, 3 MAX,
4 poison, 5 write of the flag region. -/
def sigResult (w : W64) (op x : Nat) : W64 × Bool :=
  let v := fld w 0 62
  let top := 2 ^ 62 - 1
  let mk := fun (v : Nat) (p s : Bool) => BitVec.ofNat 64 (v + put (b2n s) 62 + put (b2n p) 63)
  let p := bitOf w 63
  let sat := bitOf w 62
  match op with
  | 0 => (mk (min (v + x) top) p (sat || decide (top < v + x)), decide (top < v + x))
  | 1 => (mk (v - x) p (sat || decide (v < x)), decide (v < x))
  | 2 => (mk (x % 2 ^ 62) false false, false)
  | 3 => (mk (max v x) p sat, false)
  | 4 => (mk v true sat, false)
  | _ => (mk (x % 2 ^ 62) (x.testBit 63) false, false)

/-- A wait comparison (R164). -/
def cmpMet (compare v c : Nat) : Bool :=
  match compare with
  | 0 => decide (c ≤ v)
  | 1 => decide (c < v)
  | 2 => decide (v = c)
  | 3 => decide (v ≠ c)
  | 4 => decide (v &&& c = c)
  | _ => decide (v &&& c ≠ 0)

/-- Key of a flag of space 1 or 2 within the block: partition and handle. -/
def memKey (p h : Nat) : Nat := p * 2 ^ 32 + h
/-- Key of a flag in the owner table. -/
def ownKey (p h : Nat) : Nat := if h / 2 ^ 30 = 0 then h else memKey p h
/-- OWNER_Q of an owned flag (R105, R176). -/
def flagOwner (s : State) (p h : Nat) : Option Nat :=
  match tget 0 s.weir.owners (ownKey p h) with
  | 0 => none
  | q + 1 => some q
/-- An on-chip flag's word (R154). -/
def flagWord (s : State) (i : Nat) : W64 := tget 0 s.weir.flags i
def setFlag (s : State) (i : Nat) (w : W64) : State := modWeir s fun x => { x with flags := tput 0 x.flags i w }

/-- An on-chip flag index lies in a partition's range (R156). -/
def flagInRange (s : State) (p i : Nat) : Bool :=
  decide ((getPart s p).flagBase ≤ i) && decide (i < (getPart s p).flagBase + (getPart s p).flagCount)

/-- Address of a flag as R168 gives it. -/
def flagAddr (s : State) (p h memAddr : Nat) : Nat :=
  match h / 2 ^ 30 with
  | 0 => 0x200000 + (h % 65536) * 8
  | 1 => ((getPart s p).dflag.toNat + (h % 2 ^ 30) * 8) % 2 ^ 64
  | 2 => memAddr
  | _ => put (nbits h 24 6) 16 + h % 65536

/-- Write the wait-error group of a partition and WEIR_LASTERR (R168, R183, R185). -/
def werr (s : State) (p code launch handle addr entry waiter peerId peerHandle : Nat) : State :=
  let info := fun (x : Nat) => BitVec.ofNat 32 (code + put entry 16 + put x 20 + put 1 31)
  let w := waiter % 1024
  let s := modPart s p fun x => { x with
    werrId := launch % 2 ^ 32, werrHandle := handle, werrAddr := addr, werrInfo := info w, peerId := peerId % 2 ^ 32
    peerHandle := peerHandle }
  modWeir s fun x => { x with
    lastId := launch % 2 ^ 32, lastHandle := handle, lastAddr := addr, lastInfo := info (w / 64 * 64 + p % 64)
    lastPeerId := peerId % 2 ^ 32
    lastPeerHandle := peerHandle }

/-- Wait entries a launch holds armed (R169): all of a launch in the Weir, the open ones of graph WAIT nodes. -/
def armedOf (l : Launch) : Nat :=
  match l.stage with
  | .weir => l.waits.length
  | .running => (l.waits.filter (fun e => !e.met)).length
  | _ => 0
def armedTotal (s : State) : Nat := sumBy (fun x => armedOf x.2) s.launches + s.weir.remote.length
def armedPart (s : State) (p : Nat) : Nat :=
  sumBy (fun x => if x.2.part = p then armedOf x.2 else 0) s.launches + (s.weir.remote.filter (fun r => r.part == p)).length

/-- Space 1 bound of a partition (R158). -/
def dflagOk (s : State) (p h : Nat) : Bool := decide (h % 2 ^ 30 < (getPart s p).dfcnt)
/-- A space 2 handle's entry as a launch resolved it. -/
def relOf (l : Launch) (i : Nat) : Option (BitVec 128) := (l.rel.find? (fun x => x.1 == i)).map (·.2)
/-- HOSTFLAG conditions of R143. -/
def hostFlagOk (e : BitVec 128) (forSignal : Bool) : Bool :=
  hValid e && decide (hKind e = 3) && !hLoc e && (!forSignal || hWritable e)
/-- Memory address of a space 1 or 2 flag of a launch, or none when the flag is denied (R156, R158). -/
def memFlagAddr (s : State) (p h : Nat) (l : Option Launch) (forSignal : Bool) : Option Nat :=
  if h / 2 ^ 30 = 1 then (if dflagOk s p h then some (flagAddr s p h 0) else none)
  else match l with
    | none => none
    | some l => match relOf l (h % 2 ^ 20) with
      | some e => if hostFlagOk e forSignal then some (hAddr e) else none
      | none => none

def genOf (s : State) (l : Launch) : Option Generation := ((getGctx s l.gctx).gens.find? (fun g => g.num == l.gen))

/-- The write of a memory flag that a SIGNAL node asked for is on its way (R161). -/
def sigWriting (s : State) (id node : Nat) : Bool :=
  s.weir.mem.any (fun m => m.2.writing && m.2.sigs.head?.any (fun g => g.launch == id && g.node == node + 1))

/-- SIGNAL nodes of a launch whose operation has not been applied, and is not being applied, when another node fails. -/
def unappliedSignals (s : State) (id : Nat) (l : Launch) (failing : Nat) : List (Nat × GNode) :=
  ((((genOf s l).map (·.nodes)).getD []).zip l.nodes).zipIdx.filterMap (fun x =>
    if x.1.1.kind = 4 ∧ x.2 ≠ failing ∧ x.1.2.st ≠ .done ∧ ¬ x.1.2.ended ∧ ¬ sigWriting s id x.2 then some (x.2, x.1.1) else none)

/-- A node of a graph launch fails (R200). With the first failure no node becomes ready any more, and every SIGNAL node whose
operation has not been applied poisons its flag instead. -/
def failNode (s : State) (id node code : Nat) (tmo : Bool) : State :=
  match kget s.launches id with
  | none => s
  | some l =>
    let mark := fun (l : Launch) => { l with
      nodes := l.nodes.mapIdx (fun i x => if i = node then { x with st := .failed } else x) }
    if l.failed ∨ isDone l then setLaunch s id (mark l) else
    let todo := unappliedSignals s id l node
    let own := fun (n : Nat) => todo.any (fun x => x.1 + 1 == n)
    let mine := fun (g : Sig) => g.launch == id && own g.node
    let sigs := todo.map (fun x =>
      ({ src := 100, part := l.part, handle := sHandle x.2.body.toNat, op := 4, x := 0, launch := id
         addr := memFlagAddr s l.part (sHandle x.2.body.toNat) (some l) true } : Sig))
    let sets := sigs.filter (fun g => g.handle / 2 ^ 30 == 3)
    let s := modWeir s fun w => { w with
      sigq := w.sigq.filter (fun g => !mine g)
      mem := w.mem.map (fun m => (m.1, { m.2 with sigs := m.2.sigs.filter (fun g => !mine g) })) }
    let s := modXing s fun x => { x with sets := x.sets.filter (fun g => !(g.launch == id && own g.node)) }
    let stop := fun (l : Launch) => { l with
      nodes := l.nodes.mapIdx (fun i (x : NodeSt) => if own (i + 1) && x.st == NSt.started then { x with st := .failed, ended := true } else x) }
    let s := setLaunch s id { stop (mark l) with failed := true, failErr := code, failTmo := tmo }
    let s := modWeir s fun w => { w with sigq := w.sigq ++ sigs.filter (fun g => g.handle / 2 ^ 30 != 3) }
    modXing s fun x => { x with sets := x.sets ++ sets.map (fun g =>
      { part := l.part, chip := nbits g.handle 24 6, index := g.handle % 65536, value := 0, poison := true, launch := id }) }

/-- One entry of a launch ends in an outcome other than met (R166, R200). -/
def waitFail (s : State) (id : Nat) (e : WaitE) (code status : Nat) (addr : Nat) : State :=
  match kget s.launches id with
  | none => s
  | some l =>
    let h := if e.dep then 0 else e.handle
    let at_ := if e.dep then e.crest else addr
    let s := raiseOn s code (some l.part) none [(.launch, id), (.handle, h), (.addr, at_)]
    let s := werr s l.part code id h at_ e.entry 0 0 0
    let s := if code = eWaitTimeout then modWeir (wstatSet s l.part 0) fun w => { w with tmos := satN 32 (w.tmos + 1) }
      else wstatSet s l.part 1
    let s := if code = eFlagDenied then wstatSet s l.part 4 else s
    if e.node = 0 then leave s id status code
    else
      let s := modLaunch s id fun l => { l with waits := l.waits.filter (fun x => x.node != e.node) }
      failNode s id (e.node - 1) code (decide (code = eWaitTimeout))

/-- The members of a chain follow their head past the Weir (R140). -/
def releaseChain (s : State) (id : Nat) : State :=
  if (kget s.launches id).any (fun l => decide (l.stage = .sched)) then
    { s with launches := s.launches.map (fun x =>
        if x.2.head = id ∧ x.1 ≠ id ∧ x.2.stage = .weirIn then (x.1, { x.2 with stage := .sched }) else x) }
  else s

/-- One entry of a launch is met: a launch whose entries are all met is released to the scheduler (R165). -/
def waitMet (s : State) (id entry node : Nat) : State :=
  releaseChain (modLaunch s id fun l =>
    let ws := l.waits.map (fun e => if e.entry = entry ∧ e.node = node then { e with met := true } else e)
    if l.stage = .weir ∧ ws.all (fun e => e.met) then { l with waits := [], stage := .sched }
    else { l with waits := ws }) id

/-- Armed entries of the block that name a flag and are not met. -/
def waitersOf (s : State) (p h : Nat) (anyPart : Bool) : List (Nat × WaitE) :=
  s.launches.flatMap (fun x =>
    if (x.2.stage = .weir ∨ x.2.stage = .running) ∧ (anyPart ∨ x.2.part = p) then
      (x.2.waits.filter (fun e => !e.met && !e.dep && decide (e.handle = h))).map (fun e => (x.1, e))
    else [])

/-- Outcome that a flag word gives a SPIN or a WAIT macro-op: 0 met, 1 poison (R164, R171). -/
def spinOut (w : W64) (compare crest : Nat) : Option Nat :=
  if bitOf w 63 then some 1 else if cmpMet compare (fld w 0 62) crest then some 0 else none

/-- A context of a Root core runs a SPIN on a flag. -/
def spinsOn (p h : Nat) (anyPart : Bool) (c : Ctx) : Bool :=
  match c.stall with
  | some (.spin _ h' _ _ _) => h' == h && (anyPart || c.part == p)
  | some (.frd _ h') => h' == h && (anyPart || c.part == p)
  | _ => false

/-- Evaluate the SPINs of Root cores on a flag at a resulting value (R170). -/
def evalSpins (s : State) (p h : Nat) (anyPart : Bool) (w : W64) : State :=
  { s with ctxs := s.ctxs.map (fun (x : Nat × Ctx) =>
      match x.2.stall with
      | some (.spin d h' cm cr none) =>
        if spinsOn p h anyPart x.2 ∧ x.2.st = .running then (x.1, { x.2 with stall := some (.spin d h' cm cr (spinOut w cm cr)) })
        else x
      | _ => x) }

/-- Send a remote flag message on the link routed to a chip (R372, R375). -/
def xcSend (s : State) (chip : Nat) (msg : Nat) : State :=
  modXing s fun x => { x with tx := x.tx ++ [((tget 0#32 x.routes chip).toNat % 8, BitVec.ofNat 128 msg)] }

/-- WAIT_REPLY to a chip (R173, R375). -/
def waitReply (s : State) (r : RemArm) (poison : Bool) : State :=
  xcSend s r.chip (4 + put s.xing.chip 4 + put r.chip 10 + put r.part 16 + put (b2n poison) 22 + put r.index 24 + put r.waitId 46)

/-- An unmet armed entry of a launch, by its number under R185 and node plus one. -/
def openEntry (l : Launch) (entry node : Nat) : Option WaitE :=
  if l.stage = .weir ∨ l.stage = .running then l.waits.find? (fun e => !e.met && e.entry == entry && e.node == node) else none

/-- Evaluate every wait on a flag at a resulting value (R160, R164–R166, R182), and send the value to the mirrors. -/
def evalFlag (s : State) (p h : Nat) (w : W64) : State :=
  let v := fld w 0 62
  let onChip := decide (h / 2 ^ 30 = 0)
  let s := (waitersOf s p h onChip).foldl (fun s x =>
    if ((kget s.launches x.1).bind (fun l => openEntry l x.2.entry x.2.node)).isNone then s
    else if bitOf w 63 then waitFail s x.1 x.2 eWaitPoisoned stAborted (flagAddr s p h (tget {} s.weir.mem (memKey p h)).addr)
    else if cmpMet x.2.compare v x.2.crest then waitMet s x.1 x.2.entry x.2.node else s) s
  let hit := fun (r : RemArm) => onChip && decide (r.index = h) && (bitOf w 63 || cmpMet r.compare v r.crest)
  let s := (s.weir.remote.filter hit).foldl (fun s r => waitReply s r (bitOf w 63)) s
  let s := modWeir s fun x => { x with remote := x.remote.filter (fun r => !hit r) }
  let s := evalSpins s p h onChip w
  (tget [] s.weir.subs (ownKey p h)).foldl (fun s a => sendDown s a (.flagUpdate h w)) s

/-- A clamp (R159). -/
def clampEvent (s : State) (g : Sig) : State :=
  let s := raiseOn s eFlagSaturated (some g.part) none [(.launch, g.launch), (.handle, g.handle)]
  modWeir (wstatSet s g.part 3) fun w => { w with sats := satN 32 (w.sats + 1) }

/-- A signal that is not applied because its flag is denied (R158, R162). -/
def denySignal (s : State) (g : Sig) (addr : Nat) : State :=
  let s := raiseOn s eFlagDenied (some g.part) none [(.launch, g.launch), (.handle, g.handle), (.addr, addr)]
  let s := werr s g.part eFlagDenied g.launch g.handle addr 0 0 0 0
  let s := wstatSet s g.part 4
  if g.node = 0 then s else failNode s g.launch (g.node - 1) eFlagDenied false

/-- The operation has been applied, or refused: its sender goes on (R192, R264, R265). -/
def sigDone (s : State) (g : Sig) : State :=
  let s := match g.ctx with
    | none => s
    | some k => { s with ctxs := match kget s.ctxs k with
        | none => s.ctxs
        | some c => kput s.ctxs k { c with unapplied := c.unapplied - 1 } }
  let s := match g.task with
    | some (a, k) => modCtx s (0x200 + a) k fun c => { c with unapplied := c.unapplied - 1 }
    | none => s
  if g.node = 0 then s
  else modLaunch s g.launch fun l => { l with
    nodes := l.nodes.mapIdx (fun i x => if i + 1 = g.node then { x with ended := true } else x) }

/-- Apply an operation on an on-chip flag (R159, R160). -/
def applyOnChip (s : State) (g : Sig) : State :=
  let r := sigResult (flagWord s g.handle) g.op g.x
  let s := setFlag s g.handle r.1
  let s := if r.2 then clampEvent s g else s
  sigDone (evalFlag s g.part g.handle r.1) g

/-- The read of a memory flag goes out (R157). -/
def memRead (s : State) (key addr : Nat) : State := mgrRead s (key / 2 ^ 32) addr 8 (.flag key)

/-- Carry the next operation on a memory flag forward (R157, R161): one operation, its write-through issued. -/
def pumpMem (s : State) (key : Nat) : State :=
  let m := tget {} s.weir.mem key
  match m.word, m.writing, m.sigs with
  | some w, false, g :: _ =>
    let r := sigResult w g.op g.x
    let s := if r.2 then clampEvent s g else s
    let (_, s) := mgrWrite s g.part m.addr 8 r.1.toNat (.flag key)
    modWeir s fun x => { x with mem := tput {} x.mem key { m with word := some r.1, writing := true } }
  | none, false, _ :: _ =>
    if m.reading then s else memRead (modWeir s fun x => { x with mem := tput {} x.mem key { m with reading := true } }) key m.addr
  | _, _, _ => s

/-- A memory flag is in use: a wait on it is armed, or a signal or a read is in flight (R169). -/
def memInUse (s : State) (key : Nat) : Bool :=
  let m := tget {} s.weir.mem key
  m.reading || m.writing || !m.sigs.isEmpty || !(waitersOf s (key / 2 ^ 32) (key % 2 ^ 32) false).isEmpty
    || !(tget [] s.weir.subs key).isEmpty || s.ctxs.any (fun x => spinsOn (key / 2 ^ 32) (key % 2 ^ 32) false x.2)

/-- Drop a memory-flag cache entry that is in use no more. -/
def memRelease (s : State) (key : Nat) : State :=
  if memInUse s key then s else modWeir s fun x => { x with mem := kdel x.mem key }
/-- Drop every memory-flag cache entry that is in use no more: the next arming reads the flag from memory again (R157, R169). -/
def memSweep (s : State) : State := s.weir.mem.foldl (fun s x => memRelease s x.1) s

/-- Room for a memory flag: its entry is there, or fewer than 4,096 are (R169). -/
def memRoom (s : State) (key : Nat) : Bool :=
  (kget s.weir.mem key).isSome || decide (s.weir.mem.length < Config.memFlagMax)

/-- Put a memory flag into the cache: its word is read. -/
def memEnsure (s : State) (key addr : Nat) : State :=
  match kget s.weir.mem key with
  | some _ => s
  | none => memRead (modWeir s fun x =>
    let mem := kput x.mem key { addr := addr, reading := true }
    { x with mem := mem, memPeak := max x.memPeak mem.length }) key addr

/-- Start a signal on its flag (R158, R159, R161). -/
def startSignal (s : State) (g : Sig) : State :=
  let sp := g.handle / 2 ^ 30
  if sp = 0 then
    if g.op = 5 ∨ flagInRange s g.part g.handle then applyOnChip s g
    else sigDone (denySignal s g (flagAddr s g.part g.handle 0)) g
  else if sp = 3 then sigDone (denySignal s g (flagAddr s g.part g.handle 0)) g
  else
    let addr := if sp = 1 then (if dflagOk s g.part g.handle then some (flagAddr s g.part g.handle 0) else none)
      else g.addr
    match addr with
    | none => sigDone (denySignal s g (flagAddr s g.part g.handle 0)) g
    | some a =>
      let key := memKey g.part g.handle
      let s := memEnsure s key a
      let s := modWeir s fun x => { x with mem := tput {} x.mem key (let m := tget {} x.mem key
                                                                    { m with sigs := m.sigs ++ [g] }) }
      if (tget {} s.weir.mem key).reading then s else pumpMem s key

/-- Queue signal operations for the Weir. -/
def queueSigs (s : State) (l : List Sig) : State := modWeir s fun w => { w with sigq := w.sigq ++ l }

/-- The queued operation that is applied next: the first in the source order of R160 (log entry 12). -/
def nextSig (l : List Sig) : Option Sig :=
  l.foldl (fun b g => match b with
    | none => some g
    | some c => if g.src < c.src then some g else some c) none

def eraseSig (l : List Sig) (g : Sig) : List Sig := l.erase g

/-- Head of a queue for cycle detection (R176): its oldest launch not yet past the Weir. -/
def weirHead (s : State) (q : Nat) : Option (Nat × Launch) :=
  oldestOf ((queueLaunches s q).filter (fun x => !pastWeir x.2 && !isDone x.2))

/-- Unmet waits of a held launch on owned flags, in the order of R176. -/
def ownedWaits (s : State) (l : Launch) : List WaitE :=
  l.waits.filter (fun e => !e.met && !e.dep && decide (e.handle / 2 ^ 30 ≤ 1) && (flagOwner s l.part e.handle).isSome)

/-- Signals of completed launches of a queue are on their way to their flags. -/
def signalsLeft (s : State) (q : Nat) : Bool :=
  let f := fun (g : Sig) => g.src == 100 && g.launch % 4096 == q
  s.weir.sigq.any f || s.weir.mem.any (fun m => m.2.sigs.any f)

/-- A queue is blocked (R176). DEDUCED (log entry 77): a launch is complete once its record has been issued and its signals have
been applied, so that a wait on a launch's own signal never closes a cycle. -/
def blocked (s : State) (q : Nat) : Bool :=
  match weirHead s q with
  | none => false
  | some (_, l) => decide (l.stage = .weir) && !(ownedWaits s l).isEmpty
      && !(queueLaunches s q).any (fun x => pastWeir x.2 || decide (x.2.stage = .outfall)) && !signalsLeft s q

/-- The owner-chain walk (R177): the queues on the cycle and the last queue and flag, when it closes. -/
def walkChain (s : State) (w : Nat) : Nat → Nat → Nat → Nat → List Nat → Option (List Nat × Nat × Nat)
  | 0, _, _, _, _ => none
  | n + 1, q, lastQ, lastF, path =>
    if q = w then some (path, lastQ, lastF)
    else if ¬ blocked s q then none
    else match weirHead s q with
      | none => none
      | some (_, l) => match (ownedWaits s l).head? with
        | none => none
        | some e => match flagOwner s l.part e.handle with
          | none => none
          | some q' => walkChain s w n q' q e.handle (path ++ [q])

/-- A queue meets a queue fault (R103, R112): it fetches no more. -/
def haltQueue (s : State) (q cause : Nat) : State :=
  modQueue s q fun x => if x.st = .enabled ∨ x.st = .draining then { x with st := .halted, haltCause := cause } else x

/-- E_WAIT_CYCLE (R179). -/
def waitCycle (s : State) (w f : Nat) (path : List Nat) (lastQ lastF : Nat) : State :=
  match weirHead s w with
  | none => s
  | some (wid, wl) =>
    let peer := match weirHead s lastQ with
      | some (i, _) => i
      | none => 0
    let entry := ((wl.waits.find? (fun e => e.handle == f && !e.met)).map (·.entry)).getD 0
    let s := raiseOn s eWaitCycle (some wl.part) none
      [(.queue, w), (.handle, f), (.lastQ, lastQ), (.lastF, lastF), (.launch, wid), (.addr, flagAddr s wl.part f 0)]
    let s := werr s wl.part eWaitCycle wid f (flagAddr s wl.part f 0) entry 0 peer lastF
    let s := modWeir (wstatSet s wl.part 2) fun x => { x with cycles := satN 16 (x.cycles + 1) }
    path.foldl (fun s q =>
      let s := haltQueue s q 1
      ((queueLaunches s q).filter (fun x => decide (x.2.stage = .weir) || decide (x.2.stage = .weirIn))).foldl
        (fun s x => leave s x.1 stAborted eWaitCycle) s) s

/-- The walk for a queue that has become blocked by an arming, for each owned flag that it armed, or by the completion of its last
launch past the Weir, for its first owned wait (R177). -/
def cycleCheck (s : State) (w : Nat) (firstOnly : Bool) : State :=
  if ¬ blocked s w then s else
  match weirHead s w with
  | none => s
  | some (_, l) => (if firstOnly then (ownedWaits s l).take 1 else ownedWaits s l).foldl (fun s e =>
      if ¬ blocked s w then s else
      match flagOwner s l.part e.handle with
      | none => s
      | some q => match walkChain s w 8 q w e.handle [w] with
        | some (path, lq, lf) => waitCycle s w e.handle path lq lf
        | none => s) s

/-- The walk for a queue whose launch has issued its record or has had a signal applied: with nothing of the queue left past
the Weir, that was the completion of its last one (R177). -/
def completionWalk (s : State) (id : Nat) : State := cycleCheck s (id % 4096) true

/-- Of a DEPS entry armed now: the count that `Queue.moved` must reach for the position it names to lie below HEAD (R175). -/
def depBelow (s : State) (id : Nat) : Nat :=
  let x := getQueue s (id % 4096)
  let d := (id / 4096 % 2 ^ 18 + 2 ^ 18 - x.head % 2 ^ 18) % 2 ^ 18
  if d < 2 ^ 17 then x.moved + d + 1 else 0

/-- A DEPS entry's position lies below HEAD and no launch there is outstanding (R174, R175). -/
def depMet (s : State) (e : WaitE) : Bool :=
  decide (e.below ≤ (getQueue s (e.crest % 4096)).moved) && !s.launches.any (fun x => x.1 % 2 ^ 32 == e.crest)

/-- Evaluate every DEPS entry that is armed (R174). -/
def evalDeps (s : State) : State :=
  (s.launches.flatMap (fun x => if x.2.stage = .weir then
      (x.2.waits.filter (fun e => e.dep && !e.met && depMet s e)).map (fun e => (x.1, e)) else [])).foldl
    (fun s x => releaseChain (modLaunch s x.1 fun l =>
      let ws := l.waits.map (fun e => if e.dep && decide (e.crest = x.2.crest) then { e with met := true } else e)
      if ws.all (fun e => e.met) then { l with waits := [], stage := .sched } else { l with waits := ws }) x.1) s

end Sys2Proof.Machine
end

