-- ==== Sys2Proof/Machine/Fetch.lean ====
section
/-! DEFINITION. Which host queues may fetch, and which of them holds its partition's slice (R107, R114–R116). -/

namespace Sys2Proof.Machine

/-- M of R107. -/
def ringMod (x : Queue) : Nat := 65536 * 2 ^ x.log2
/-- Announced descriptors not yet issued for fetch. -/
def unissued (x : Queue) : Nat := (x.tail + ringMod x - (x.head + x.issued) % ringMod x) % ringMod x

/-- The launch holds entries of the Inlet buffer (R116). -/
def inInlet (l : Launch) : Bool :=
  match l.stage with
  | .fetch | .fragWait | .fragRead | .inlet => true
  | _ => false

/-- Inlet buffer entries in use of the launches that a test picks. -/
def inletUse (s : State) (f : Launch → Bool) : Nat :=
  sumBy (fun x => if inInlet x.2 && f x.2 then x.2.entries else 0) s.launches
/-- Room left in the Inlet buffer for a queue (R116); 17 entries stand apart. -/
def inletRoom (s : State) (q : Nat) : Nat :=
  let p := (getQueue s q).owner
  min (Config.inletMax - 17 - inletUse s fun _ => true)
    (min (256 - inletUse s fun l => l.queue == q) (1024 - inletUse s fun l => l.part == p))

/-- A host queue is eligible for fetch (R114). -/
def eligible (s : State) (q : Nat) : Bool :=
  let x := getQueue s q
  let p := (getPart s x.owner).st
  decide (x.st = .enabled) && decide (0 < unissued x) && (decide (p = .maint) || decide (p = .active))
    && decide (0 < inletRoom s q)

/-- Eligible queues of a partition and class, in ascending ID. -/
def eligibleOf (s : State) (p : Nat) (be : Bool) : List Nat :=
  (s.queues.filter (fun x => x.2.owner == p && x.2.be == be && eligible s x.1)).map (·.1)

/-- The next of a list after a number, wrapping. -/
def nextAfter (l : List Nat) (n : Nat) : Option Nat :=
  match l.find? (fun q => decide (n < q)) with
  | some q => some q
  | none => l.head?

/-- The slice of a partition and class (R115, step 2): it stays with its holder while that is eligible, and passes to the next
eligible queue, if there is one. 0 when nobody holds it, else the holder plus one. The first holder is the eligible queue of
lowest ID (log entry 38). -/
def sliceNext (s : State) (p : Nat) (be : Bool) : Nat :=
  let l := eligibleOf s p be
  match tget 0 s.inlet.holder (p * 2 + b2n be) with
  | 0 => match l.head? with
    | some q => q + 1
    | none => 0
  | h + 1 => if l.contains h then h + 1 else match nextAfter l h with
    | some q => q + 1
    | none => h + 1

/-- Partitions and classes that have a queue ENABLED. -/
def sliceKeys (s : State) : List Nat :=
  ((s.queues.filter (fun x => decide (x.2.st = .enabled))).map (fun x => x.2.owner * 2 + b2n x.2.be)).foldl insertNat []

/-- Every slice whose holder has become ineligible passes (R115, step 2). -/
def passSlices (s : State) : State :=
  let ks := sliceKeys s
  if ks.isEmpty then s else { s with inlet := { s.inlet with
    holder := ks.foldl (fun t k => tput 0 t k (sliceNext s (k / 2) (k % 2 == 1))) s.inlet.holder } }

end Sys2Proof.Machine
end

