-- ==== Sys2Proof/Machine/Control.lean ====
section
/-! DEFINITION. Admin replies (R87–R91), register messages to agents (R53, R285), aborting launches, resetting and halting
queues and partitions (R102–R104, R113, R125, R469, R470), fencing an agent (R450), chip-fail (R451), and carrying out the
Watch's actions at the end of a command. -/

namespace Sys2Proof.Machine

/-- State codes of R90. -/
def qCode : QSt → Nat
  | .unused => 0 | .created => 1 | .enabled => 2 | .draining => 3 | .idle => 4 | .halted => 5 | .resetting => 6
def pCode : PSt → Nat
  | .free => 0x10 | .maint => 0x11 | .active => 0x12 | .halted => 0x13 | .resetting => 0x14

def pktOp (p : W512) : Nat := fld p 0 8
def pktFlags (p : W512) : Nat := fld p 8 8
def pktTag (p : W512) : Nat := fld p 16 16
def pktObj (p : W512) : Nat := fld p 32 32
/-- Bytes lo … lo + n − 1 of a packet. -/
def pktB (p : W512) (lo n : Nat) : Nat := fld p (8 * lo) (8 * n)

/-- Write a reply (R87, R89) and take the command out of flight. -/
def admReply (s : State) (q : Nat) (pkt : W512) (status state detail : Nat) : State :=
  let a := getAdm s q
  let w := pack [(16, pktTag pkt), (8, status), (8, state), (32, pktObj pkt), (48, detail), (12, a.sqHead), (3, 0),
    (1, b2n a.phase)]
  let (_, s) := mgrWrite s q (a.cqBase.toNat + a.cqTail * 16) 16 w (.reply q (bitOf pkt 8))
  let size := 2 ^ a.log2
  modAdm s q fun a => { a with
    cqTail := (a.cqTail + 1) % size
    phase := if a.cqTail + 1 = size then !a.phase else a.phase
    owed := a.owed + 1
    flight := a.flight.eraseP (fun c => c.pkt == pkt) }

/-- Origin of an admin queue's commands (R496). -/
def admOrigin (q : Nat) : Nat := if q = Config.fnManager then 2 else 3

/-- Audit entry of an accepted command that changes an object, or of a rejection (R97, R494). -/
def admAudit (s : State) (q : Nat) (pkt : W512) (rejected : Bool) (status state detail : Nat) : State :=
  audit s (admOrigin q) q (if rejected then 5 else 4) (pktOp pkt + 256 * status) (pktObj pkt + put (pktTag pkt) 32)
    (state + put (detail % 2 ^ 48) 8)

/-- Reply to an accepted command that changes an object. -/
def admOk (s : State) (q : Nat) (pkt : W512) (state detail : Nat) : State :=
  admReply (admAudit s q pkt false stOk state detail) q pkt stOk state detail

/-- Reject a command: no effect but the reply and the audit log entry (R97). -/
def admReject (s : State) (q : Nat) (pkt : W512) (status state detail : Nat) : State :=
  admReply (admAudit s q pkt true status state detail) q pkt status state detail

/-- Reply ST_ABORTED to a started command that ends so; a G_LOAD has changed its context, so it leaves an audit entry (R97). -/
def admAbort (s : State) (q : Nat) (pkt : W512) (state : Nat) : State :=
  let s := if pktOp pkt = 0x30 then admAudit s q pkt false stAborted state 0 else s
  admReply s q pkt stAborted state 0

/-- Send a register message to an agent and hold its answer's use (R43, R53): 0 a host access, 1 nothing, 2 GLB_ID,
3 GLB_CFG, 4 the presence mask, 5 berm parameters, 6 an image word. -/
def sendReg (s : State) (a : Nat) (mk : Nat → Msg) (h : HeldAcc) : State :=
  let t := s.port.nextRtag
  let s := { s with port := { s.port with nextRtag := (t + 1) % 256, held := kput s.port.held t h } }
  sendDown s a (mk t)

/-- A register write of the Root's own (R285, R437). -/
def rootWrite (s : State) (a off size data use : Nat) : State :=
  sendReg s a (fun t => .regWrite off t size (2 ^ (2 ^ size) - 1) (BitVec.ofNat 256 data))
    { fn := Config.fnManager, addr := off, wr := true, data := BitVec.ofNat 64 data, agent := a, internal := use }

def rootRead (s : State) (a off size use : Nat) : State :=
  sendReg s a (fun t => .regRead off t size)
    { fn := Config.fnManager, addr := off, wr := false, data := 0, agent := a, internal := use }

/-- EQX_ABORT of a launch at an agent (R285). -/
def sendAbort (s : State) (a id : Nat) : State := rootWrite s a 0x7000 2 id 1

/-- Agents that hold macro-ops of a launch, in ascending order. -/
def outAgents (l : Launch) : List Nat := (l.outs.map (fun o => o.eq / 16)).foldl insertNat []
/-- Agents that run tasks of a launch's context. -/
def taskAgents (s : State) (l : Launch) : List Nat :=
  match l.slot with
  | none => []
  | some k => ((getCtx s 0x300 k).tasks.map (·.1)).foldl insertNat []

/-- Abort one launch (R125): it completes at once, or, with macro-ops on engines or a read in flight, once these have come
back. -/
def abortLaunch (s : State) (id : Nat) : State :=
  match kget s.launches id with
  | none => s
  | some l =>
    if isDone l then s else
    match l.stage with
    | .fetch | .fragRead => setLaunch s id { l with aborting := true }
    | _ =>
      let ags := (taskAgents s l).foldl insertNat (outAgents l)
      if ags.isEmpty then leave s id stAborted 0
      else
        let s := match l.slot with
          | some k => freeCtx s k
          | none => s
        let s := dropPushes s id
        let s := setLaunch s id { l with aborting := true, slot := none, ctxWanted := false, waits := [], stopOn := ags }
        ags.foldl (fun s a => sendAbort s a id) s

/-- Discard the Basin entries that a test picks (R403). -/
def basinDrop (s : State) (f : Held → Bool) : State :=
  modBasin s fun b => { b with held := b.held.filter (fun e => !f e) }

/-- Flags owned by a queue, as partition and handle. -/
def ownedBy (s : State) (q : Nat) : List (Nat × Nat) :=
  (s.weir.owners.filter (fun x => x.2 == q + 1)).map (fun x =>
    if x.1 < 2 ^ 32 then ((getQueue s q).owner, x.1) else (x.1 / 2 ^ 32, x.1 % 2 ^ 32))

/-- Start the queued operations on one flag, in the order of R160. -/
def flushFlag (p h : Nat) : Nat → State → State
  | 0, s => s
  | n + 1, s => match nextSig (s.weir.sigq.filter (fun g => g.handle == h && (decide (h / 2 ^ 30 = 0) || g.part == p))) with
    | none => s
    | some g => flushFlag p h n (startSignal (modWeir s fun w => { w with sigq := eraseSig w.sigq g }) g)

/-- Poison a flag at its owner's reset (R105, R125, R470): the operations that wait for it go first (R182). -/
def poisonFlag (s : State) (p h : Nat) : State :=
  let s := flushFlag p h s.weir.sigq.length s
  if h / 2 ^ 30 = 0 then applyOnChip s { src := 101, part := p, handle := h, op := 4, x := 0, launch := 0 }
  else startSignal s { src := 101, part := p, handle := h, op := 4, x := 0, launch := 0 }

/-- The flags of a queue become UNOWNED (R103, R105). -/
def disown (s : State) (q : Nat) : State :=
  let fs := ownedBy s q
  let s := modWeir s fun w => { w with owners := w.owners.filter (fun x => x.2 != q + 1) }
  fs.foldl (fun s x => audit s 9 Config.fnNone 0x0B 0 x.2 q) s

/-- Entry to IDLE (R126). -/
def enterIdle (s : State) (q : Nat) : State :=
  let s := modQueue s q fun x => { x with st := .idle, idleBit := true, haltCause := 0 }
  let txns := (s.port.writes.filter (fun w => match w.kind with
    | .record _ k => k == q
    | _ => false)).map (·.txn)
  reqVecAfter s (4096 + 4 * (getQueue s q).owner + 1) txns

/-- Descriptors announced and not fetched (R107). -/
def unfetched (x : Queue) : Nat := (x.tail + 65536 * 2 ^ x.log2 - x.head % (65536 * 2 ^ x.log2)) % (65536 * 2 ^ x.log2)

/-- Entry to UNUSED (R103, R113, R476): the binding is removed; the accounting counters stay until Q_CREATE (R236). -/
def enterUnused (s : State) (q : Nat) : State :=
  let s := disown s q
  let s := modQueue s q fun x => {
    engineNs := x.engineNs, bytes := x.bytes, energyNj := x.energyNj, moved := x.moved + unfetched x }
  clearVec s q

/-- Entry to RESETTING (R103, R113, R125). -/
def enterResetting (s : State) (q : Nat) (toUnused : Bool) : State :=
  let x := getQueue s q
  let m := 65536 * 2 ^ x.log2
  let lost := (x.tail + m - (x.head + x.issued) % m) % m
  let s := modQueue s q fun x => { x with
    st := .resetting, head := x.tail, issued := 0, ahead := [], discarded := satN 16 (x.discarded + lost)
    toUnused := toUnused, haltCause := 0, moved := x.moved + unfetched x, drainLate := false, broken := 0 }
  let s := (queueLaunches s q).foldl (fun s y => abortLaunch s y.1) s
  let s := basinDrop s fun e => decide (e.launch % 4096 = q)
  (ownedBy s q).foldl (fun s f => poisonFlag s f.1 f.2) s

/-- Queues of a partition that are not UNUSED (R477). -/
def partQueues (s : State) (p : Nat) : List Nat :=
  (s.queues.filter (fun x => decide (x.2.st ≠ .unused) && x.2.owner == p)).map (·.1)

/-- PWIN_PSTAT: a bit that becomes 1 raises partition vector 0 (R468). -/
def pstatSet (s : State) (p bit : Nat) : State :=
  let was := (getPart s p).pstat.testBit bit
  let s := modPart s p fun x => { x with pstat := setBit x.pstat bit }
  if was then s else reqVec s (4096 + 4 * p)

/-- A partition enters HALTED (R102, R469). -/
def haltPart (s : State) (p : Nat) (watch : Bool) (code : Nat) : State :=
  let s := modPart s p fun x => { x with st := .halted, haltSrc := watch, haltCode := if watch then code else 0 }
  let s := (partQueues s p).foldl (fun s q => haltQueue s q 3) s
  pstatSet s p 0

/-- The launches of a partition's contexts pin generations of a graph context. -/
def ctxPins (s : State) (c : Nat) : Nat := sumBy (fun g => g.pins) (getGctx s c).gens

/-- Arena pages of a partition that its live generations hold, each once (R202, R204, R206). -/
def arenaPages (s : State) (p : Nat) : List Nat :=
  ((s.gctxs.filter (fun x => x.2.owner == p)).flatMap (fun x => x.2.gens.flatMap (fun g => g.pageIds))).foldl insertNat []
/-- Address of a byte of a generation in its partition's arena (R187, R190). -/
def genAddr (a : Arena) (g : Generation) (o : Nat) : Nat := a.base.toNat + g.pageIds.getD (o / 4096) 0 * 4096 + o % 4096

/-- Free a graph context (R104, R204): every generation goes, and with it its pages. -/
def freeGctx (s : State) (c : Nat) : State := modGctx s c fun g => { counter := g.counter }

/-- Contexts of a partition's range that are not FREE. -/
def partCtxs (s : State) (p : Nat) : List Nat :=
  (s.gctxs.filter (fun x => decide (x.2.st ≠ 0) && x.2.owner == p)).map (·.1)

/-- Free the contexts of a resetting partition that no launch pins (R104, R204). -/
def freeUnpinned (s : State) (p : Nat) : State :=
  (partCtxs s p).foldl (fun s c => if ctxPins s c = 0 then freeGctx s c else s) s

/-- Remote SET message (R375). -/
def setMsg (s : State) (r : RSet) (poison : Bool) : Nat :=
  1 + put s.xing.chip 4 + put r.chip 10 + put r.part 16 + put (b2n poison) 22 + put r.index 24 + put (r.value % 2 ^ 62) 64

/-- Send remote SETs with POISON 1 (R376, R452). -/
def poisonSets (s : State) (f : RSet → Bool) : State :=
  let s := (s.xing.sets.filter f).foldl (fun s r => xcSend s r.chip (setMsg s r true)) s
  modXing s fun x => { x with sets := x.sets.filter (fun r => !f r) }

/-- The Crossing unit when a partition enters RESETTING (R376). -/
def xingReset (s : State) (p : Nat) : State :=
  let s := poisonSets s fun r => r.part == p
  let mine := s.xing.insts.filter (fun x => x.1 / 64 / 16 == p)
  let s := mine.foldl (fun s x => match x.2.held, x.2.released with
    | some t, none => modXing s fun g => { g with rel := g.rel ++ [(x.2.link, t)] }
    | _, _ => s) s
  modXing s fun g => { g with
    insts := g.insts.filter (fun x => x.1 / 64 / 16 != p) }

/-- The partition whose share holds the flag that a command names. Of a space 1 handle from the manager's QUERY or F_DESTROY the
spec names none: it is the first, by number, in which a flag of that handle is owned, else partition 0 (log entry 81). -/
def flagPart (s : State) (q : Nat) (pkt : W512) : Nat :=
  let h := pktObj pkt
  if h / 2 ^ 30 = 0 then ((upTo 64).find? (fun p => flagInRange s p h)).getD 0
  else if q < 64 then q
  else if pktOp pkt = 0x40 then (getQueue s (fld pkt 128 12)).owner
  else ((s.weir.owners.find? (fun x => decide (2 ^ 32 ≤ x.1) && x.1 % 2 ^ 32 == h)).map (fun x => x.1 / 2 ^ 32)).getD 0

/-- Class of the object of a command: 0 partition, 1 host queue, 2 graph context, 3 flag, 4 handle, 5 agent, 6 sluice core,
7 mode change, 8 none (R88, R92, R95). -/
def objClass (pkt : W512) : Nat :=
  let op := pktOp pkt
  if op = 1 then min (pktB pkt 8 1) 8
  else if 0x10 ≤ op ∧ op ≤ 0x15 then 0
  else if 0x20 ≤ op ∧ op ≤ 0x25 then 1
  else if 0x30 ≤ op ∧ op ≤ 0x32 then 2
  else if op = 0x40 ∨ op = 0x41 then 3
  else if op = 0x48 then 4
  else if op = 0x50 ∨ op = 0x51 then 7
  else if op = 0x52 ∨ op = 0x53 then 5
  else if op = 0x54 then 6
  else 8

/-- State code of the object of a command from an admin queue (R89, R90). -/
def objState (s : State) (q : Nat) (pkt : W512) : Nat :=
  let o := pktObj pkt
  match objClass pkt with
  | 0 => if o < 64 then pCode (getPart s o).st else 0xFF
  | 1 => if o < 4096 then qCode (getQueue s o).st else 0xFF
  | 2 => if o < 1024 then 0x20 + (getGctx s o).st else 0xFF
  | 3 => if o = 0 ∨ 2 ^ 31 ≤ o ∨ ¬ flagHandleOk o then 0xFF else if (flagOwner s (flagPart s q pkt) o).isSome then 0x31 else 0x30
  | _ => 0xFF

/-- Stop the translations of a partition (R334): a command of the manager's queue among them replies ST_ABORTED as the partition's
own do. -/
def izStop (s : State) (p : Nat) : State :=
  let jobs := (s.iz.busy.toList ++ s.iz.queue).filter (fun j => j.part == p && j.q != p)
  let s := { s with iz := { s.iz with
    busy := match s.iz.busy with
      | some j => if j.part = p then none else some j
      | none => none
    queue := s.iz.queue.filter (fun j => j.part != p) } }
  let s := if s.iz.busy.isNone then readDone s .image else s
  jobs.foldl (fun s j => admAbort s j.q j.pkt (objState s j.q j.pkt)) s

/-- A partition enters RESETTING (R102, R470). -/
def enterPartReset (s : State) (p : Nat) (flr : Bool) : State :=
  let lost := sumBy (fun q => unfetched (getQueue s q)) ((partQueues s p).filter (fun q =>
    decide ((getQueue s q).st = .created) || decide ((getQueue s q).st = .idle)))
  let s := modPart s p fun x => { x with st := .resetting, flr := x.flr || flr, lost := lost }
  let cmds := (getAdm s p).flight
  let s := cmds.foldl (fun s c => admAbort s p c.pkt (objState s p c.pkt)) s
  let s := izStop s p
  let s := (partQueues s p).foldl (fun s q =>
    match (getQueue s q).st with
    | .enabled | .draining | .halted => enterResetting s q true
    | .created | .idle => enterUnused s q
    | .resetting => modQueue s q fun x => { x with toUnused := true }
    | .unused => s) s
  let r := getPart s p
  let s := (List.range r.flagCount).foldl (fun s i => poisonFlag s p (r.flagBase + i)) s
  let s := basinDrop s fun e => e.part == p
  let s := xingReset s p
  freeUnpinned s p

/-- Set the measured engine clock of an agent's queues (R212, R239): 0 for an excluded agent. -/
def setMeas (s : State) (a mhz : Nat) : State :=
  modSched s fun c => { c with
    eqcap := (upTo 16).foldl (fun t l =>
      if (eqPresent s a).testBit l then tput 0 t (a * 16 + l) (setFld (tget 0 t (a * 16 + l)) 0 12 mhz) else t) c.eqcap }

/-- Write an agent table entry's UP, EXCLUDED and REASON (R84). -/
def agtMark (s : State) (a : Nat) (up excl : Bool) (reason : Nat) : State :=
  setAgt s a (setFld (setFld (setFld (agtEntry s a) 0 1 (b2n up)) 1 1 (b2n excl)) 40 4 reason)

/-- Every entry of a mode change to IDLE (R487): result, vector 9, audit entry; E_MODE_ABORTED for the aborts of STAGING. -/
def modeEnd (s : State) (result : Nat) (ev : Bool) (agentsLag : W64) (rootLag : Nat) : State :=
  let m := s.svc.mc
  let s := modSvc s fun v => { v with mc := { v.mc with
    state := 0, result := result, lag := agentsLag, rootLag := rootLag, acked := [] } }
  let s := { s with cores := s.cores.map (fun (x : Nat × Core) => (x.1, { x.2 with staged := false })) }
  let s := audit s 7 Config.fnNone 7 ((if result = 1 then 3 else 4) + 256 * result) m.number m.tick
  let s := if ev then raise s eModeAborted none none else s
  reqVec s 4361

/-- Items of a mode change: KIND, TARGET, VALUE (R484). -/
def itKind (i : BitVec 128) : Nat := fld i 0 8
def itTarget (i : BitVec 128) : Nat := fld i 16 16
def itValue (i : BitVec 128) : Nat := fld i 64 64

/-- An item concerns an agent (R484). -/
def itAgent (i : BitVec 128) (a : Nat) : Bool :=
  match itKind i with
  | 1 => true
  | 2 => itTarget i == 0x200 + a
  | 3 => true
  | 5 => itTarget i == a || itTarget i == 0xFFFF
  | _ => false

/-- Agents that take part in the mode change: admitted, and concerned by an item. -/
def mcAgents (s : State) : List Nat :=
  (upTo s.par.numAgents).filter (fun a => agtUp s a && s.svc.mc.its.any (fun i => itAgent i a))

/-- The message of a decision to the agents that take part (R488). -/
def mcTell (s : State) (sub : Nat) : State :=
  (mcAgents s).foldl (fun s a =>
    let mine := s.svc.mc.its.filter (fun i => itAgent i a)
    let its := if sub = 1 then joinIts mine else 0
    sendDown s a (.modeStage sub mine.length s.svc.mc.number s.svc.mc.tick its)) s
where
  joinIts : List (BitVec 128) → BitVec 384
    | [] => 0
    | i :: t => BitVec.ofNat 384 (i.toNat + 2 ^ 128 * (joinIts t).toNat)

/-- The abort of a mode change that is STAGING (R487). -/
def mcAbort (s : State) (result : Nat) (lag : W64) (rootLag : Nat) : State := modeEnd (mcTell s 3) result true lag rootLag

/-- A participating agent leaves service during a mode change (R487). -/
def mcAgentGone (s : State) (a : Nat) : State :=
  if s.svc.mc.state = 1 ∧ s.svc.mc.its.any (fun i => itAgent i a) then mcAbort s 5 0 0 else s

/-- End a drain whose agent is fenced or has lost its link (R493). -/
def drainGone (s : State) (a : Nat) : State :=
  match kget s.svc.draining a with
  | none => s
  | some d =>
    let s := modSvc s fun v => { v with draining := kdel v.draining a }
    let pkt := ((getAdm s d.q).flight.find? (fun c => pktTag c.pkt == d.tag && pktOp c.pkt == 0x52)).map (·.pkt)
    match pkt with
    | some p => admOk s d.q p 0xFF 0
    | none => s

/-- The relay levels of an agent that leaves service become 0 (R524). -/
def relayClear (s : State) (a : Nat) : State :=
  modWatch s fun w => { w with
    level := w.level.filter (fun i => i / 32 != 8 + a), wire := w.wire.filter (fun i => i / 32 != 8 + a) }

/-- The partition named by a context's events; Iznum's context names none. -/
def ctxPart (slot : Nat) (c : Ctx) : Option Nat := if slot = 512 then none else some c.part
/-- The agent of an agent core. -/
def coreAgent (core : Nat) : Option Nat := if core < 0x300 then some (core - 0x200) else none

/-- Record a skip (R273, R274): SC_CAUSE, SC_SKIPS, SC_SKIP, the event, and the launch's first skip. -/
def noteSkip (s : State) (core slot cause pc : Nat) : State :=
  match getCtx? s core slot with
  | none => s
  | some c =>
    let s := raiseOn s eScIllegal (ctxPart slot c) (coreAgent core)
      [(.core, core), (.launch, c.launch % 2 ^ 32), (.pc, pc), (.cause, cause)]
    let s := modCore s core fun k => { k with skip := satN 32 (k.skip + 1) }
    let s := if c.task ∨ slot = 512 then s
      else modLaunch s c.launch fun l => { l with
        skipErr := if l.skipErr = 0 then (if cause = scEcc then eDmemEcc else eScIllegal) else l.skipErr }
    modCtx s core slot fun c => { c with
      cause := cause, causePc := pc, skips := satN 32 (c.skips + 1), firstSkip := if c.firstSkip = 0 then cause else c.firstSkip }

/-- Agent tasks on an agent are lost (R269): each counts as a skipped END with cause AGENT of its caller, which waits no more. -/
def loseTasks (s : State) (a : Nat) : State :=
  let hit := s.ctxs.filter (fun x => x.2.tasks.any (fun t => t.1 == a))
  hit.foldl (fun s (x : Nat × Ctx) =>
    let lost := x.2.tasks.filter (fun t => t.1 == a)
    let s := { s with
      ctxs := kput s.ctxs x.1 { x.2 with tasks := x.2.tasks.filter (fun t => t.1 != a) }
      save := { s.save with
        used := s.save.used.filter (fun k => !lost.any (fun t => t.2 == k))
        saved := s.save.saved.filter (fun y => !lost.any (fun t => t.2 == y.1))
        pieces := s.save.pieces.filter (fun y => !lost.any (fun t => t.2 == y.1)) } }
    lost.foldl (fun s _ => noteSkip s x.2.core x.1 scAgent x.2.pc) s) s

/-- Launches that hold macro-ops on an agent. -/
def launchesOn (s : State) (a : Nat) : List Nat :=
  (s.launches.filter (fun x => !isDone x.2 && (x.2.outs.any (fun o => o.eq / 16 == a) || x.2.stopOn.contains a))).map (·.1)

/-- Launches that hold macro-ops or tasks on an agent. -/
def workOn (s : State) (a : Nat) : List Nat :=
  (s.launches.filter (fun x => (launchesOn s a).contains x.1 || (!isDone x.2 && (taskAgents s x.2).contains a))).map (·.1)
/-- EQX_ABORT of the Steward's relocation copy, wherever it runs or at one agent (R430, R450, R451). -/
def stewAbort (s : State) (at_ : Option Nat) : State :=
  match s.stew.copy with
  | some k => if at_.any (fun a => a != k.agent) then s else sendAbort s k.agent (0xC0000000 + k.sent)
  | none => s

/-- CHIP_FAIL, steps 1 to 3 (R451). -/
def chipFail (s : State) (e : Ev) : State :=
  if s.glb.frozen then s else
  let s := modWatch s fun w => { w with
    chipfail := true, fail := BitVec.ofNat 64 (evWord e true), failStep := 4, freezeTick := s.sched.tickNo }
  let s := { s with queues := s.queues.map (fun (x : Nat × Queue) => (x.1, { x.2 with
      capHead := x.2.head, capTail := x.2.tail, capOut := outstanding s x.1
      capOld := match oldestOf ((queueLaunches s x.1).filter (fun y => y.2.stage != LStage.written)) with
        | some y => y.2.pos
        | none => x.2.head })) }
  let s := { s with snap := { parts := s.parts, seqs := s.seqs, queues := s.queues, gctxs := s.gctxs, weir := s.weir } }
  let jobs := s.iz.busy.toList ++ s.iz.queue
  let s := jobs.foldl (fun s j => admAbort s j.q j.pkt (objState s j.q j.pkt))
    (readDone { s with iz := { s.iz with busy := none, queue := [] } } .image)
  let s := modBasin s fun b => { b with held := [] }
  let s := { s with
    cores := s.cores.map (fun (x : Nat × Core) => (x.1, { x.2 with run := none, st := 0 }))
    ctxs := s.ctxs.map (fun (x : Nat × Ctx) => (x.1, { x.2 with st := .held })) }
  let s := s.lb.flight.foldl (fun s x => readDone s (.loop x.agent)) s
  let s := if s.lb.busy then modLb s fun b => { b with busy := false, done := true, aborted := true, flight := [] } else s
  let s := poisonSets s fun _ => true
  let s := if s.svc.mc.state ≠ 0 then modeEnd (mcTell s 3) 5 false 0 0 else s
  let s := s.launches.foldl (fun s x => ((taskAgents s x.2).foldl insertNat (outAgents x.2)).foldl (fun s a => sendAbort s a x.1) s) s
  let s := stewAbort s none
  modGlb s fun g => { g with frozen := true }

/-- AGENT_FENCE, steps 1 and 2 (R450); a fence of agent 0 is CHIP_FAIL. -/
def agentFence (s : State) (e : Ev) (a : Nat) : State :=
  if a = 0 then chipFail s e
  else if ¬ agtUp s a then s
  else
    let s := agtMark s a false true 6
    let s := setMeas s a 0
    let s := audit s 4 Config.fnNone 0x0A 3 a 6
    let s := modWatch s fun w => { w with fencing := insertNat w.fencing a }
    let s := (workOn s a).foldl (fun s id => sendAbort s a id) s
    let s := loseTasks (stewAbort s (some a)) a
    let s := mcAgentGone s a
    let s := drainGone s a
    relayClear s a

/-- Carry out one action of the Watch (R447–R451). -/
def doAction (s : State) (x : Act) : State :=
  if s.glb.frozen then s else
  match x.kind with
  | 1 => match x.ev.part with
    | some p => match (getPart s p).st with
      | .active | .maint => haltPart s p true x.ev.code
      | _ => s
    | none => s
  | 2 => match x.ev.agent with
    | some a => agentFence s x.ev a
    | none => s
  | 3 => chipFail s x.ev
  | _ => s

/-- Carry out the actions put down, CHIP_FAIL first (R457); carrying one out may put down others. -/
def settleN : Nat → State → State
  | 0, s => s
  | n + 1, s =>
    match (s.watch.actions.filter (fun x => x.kind == 3)) ++ s.watch.actions.filter (fun x => x.kind != 3) with
    | [] => s
    | x :: t => settleN n (doAction (modWatch s fun w => { w with actions := t }) x)

/-- A signal of a launch to a host-memory flag has not been applied yet (R48, R152). -/
def hostSigLeft (s : State) (id : Nat) : Bool :=
  let f := fun (g : Sig) => g.launch == id && g.handle / 2 ^ 30 == 2 && g.src == 100
  s.weir.sigq.any f || s.weir.mem.any (fun m => m.2.sigs.any f)

/-- Queue vectors that waited for host-memory signals become pending once these have been applied (R152). -/
def sigVecs (s : State) : State :=
  let go := s.evt.hostSig.filter (fun x => !hostSigLeft s x.2)
  if go.isEmpty then s else
  go.foldl (fun s x => reqVec s x.1) { s with evt := { s.evt with hostSig := s.evt.hostSig.filter (fun x => hostSigLeft s x.2) } }

/-- The end of every command: the Watch's actions are carried out, DEPS entries whose launch is gone are met, memory flags no
longer in use leave their cache, slices pass, and interrupts held back are requested. -/
def settle (s : State) : State := sigVecs (passSlices (memSweep (evalDeps (settleN 256 s))))

/-- A command of the Root: after scan_en was asserted on it there is no state to act on (R515); while it is in reset the
command changes nothing (R60, log entry 2). -/
def liveRoot (s : State) (f : State → State) : Host.Outcome State Fault Refusal :=
  if s.glb.scanLost then .fault (.scanStateLost 0)
  else if s.glb.blk = .reset then .next s
  else .next (settle (f s))

/-- A command of an agent: as for the Root. -/
def liveAgent (s : State) (a : Nat) (f : State → State) : Host.Outcome State Fault Refusal :=
  if (getAgent s a).scanLost then .fault (.scanStateLost (a + 1))
  else if (getAgent s a).running then .next (settle (f s))
  else .next s

end Sys2Proof.Machine
end

