-- ==== Sys2Proof/Machine/Inputs.lean ====
section
/-! DEFINITION. The agents' Watch relays, and fault inputs as they go into error and leave it (R58, R80, R440–R443). -/

namespace Sys2Proof.Machine

/-- Send what the relay of an agent holds, as far as nothing waits ahead of it (R443). -/
def relayPumpN : Nat → State → Nat → State
  | 0, s, _ => s
  | n + 1, s, a =>
    let g := getAgent s a
    match g.relay with
    | [] => s
    | (k, c) :: rest =>
      if ¬ (getLink s a).upTx.waiting.isEmpty ∨ ¬ (getLink s a).up then s
      else
        let j := k / 2
        let w := decide (k % 2 = 1)
        let lv := if w then g.wire.contains j else g.level.contains j
        let now := min (c - 1) 255
        let s := modAgent s a fun g => { g with relay := if c - 1 > 255 then (k, c - 255) :: rest else rest }
        relayPumpN n (sendUp s a (.watchEvent j w lv now)) a
def relayPump (s : State) (a : Nat) : State := relayPumpN 64 s a

/-- Onsets and ends of levels handed to an agent's relay (R443). -/
def relayAdd (s : State) (a j : Nat) (wire : Bool) (onsets : Nat) : State :=
  relayPump (modAgent s a fun g =>
    let k := j * 2 + b2n wire
    { g with relay := kput g.relay k (max 1 (tget 0 g.relay k) + onsets) }) a

/-- The first code that R441 lists for a Root internal source. -/
def codeOfRoot (i : Nat) : Nat :=
  match i with
  | 0 => eSramEcc | 1 => eSramCorr | 2 => eDmemEcc | 3 => eHostReadFault | 4 => eHostWriteFault | 5 => eAccessDenied
  | 6 => eDescInvalid | 7 => eWaitTimeout | 8 => eWaitCycle | 9 => eFlagSaturated | 10 => eDrainTimeout | 11 => eTooLong
  | 12 => ePreemptLate | 13 => eScIllegal | 14 => eMopIllegal | 15 => eMopEngine | 16 => eAttnField | 17 => eBasinExpired
  | 18 => eBermForced | 19 => eRetentionMiss | 20 => eStewDirMismatch | 21 => eWearLimit | 22 => eStackDefect
  | 23 => eStackDataLoss | 24 => eXingProtocol | 25 => eXingLink | 26 => eTideLink | 27 => eTideProtocol
  | 28 => eAgentBringup | 29 => eModeAborted | 30 => eAgeDrift | _ => eLoopbackMismatch

/-- The code of an agent source (R442). -/
def codeOfAgent (j : Nat) : Nat :=
  match j with
  | 0 => eSramEcc | 1 => eSramCorr | 2 => eOvertemp | 3 => eClockRange | 4 => eTideCrc | _ => eExtError

/-- The source has a level: a fault input, or TEMP or CLOCK of an agent (R442, R455). -/
def hasLevel (i : Nat) : Bool :=
  if i < 256 then decide (64 ≤ i) else decide (8 ≤ i % 32) || decide (i % 32 = 2) || decide (i % 32 = 3)

/-- Fault inputs of the Root are sampled from the end of phase SRAM (R80). -/
def rootSampled (s : State) : Bool := decide (s.glb.blk = .ready) || decide (4 ≤ s.glb.phase)
/-- Fault inputs of an agent are sampled from the end of its initialisation (R80). -/
def agentSampled (s : State) (a : Nat) : Bool := (getAgent s a).running && (getAgent s a).initDone

/-- A pair changes to the error state, or comes into a wire fault, and is held there long enough (R58, R440, R443). -/
def pairOnset (s : State) (i : Nat) (wire : Bool) : State :=
  if ¬ srcExists s i then s
  else if i < 256 then
    if ¬ rootSampled s then s
    else if wire then
      if s.watch.wire.contains i then s
      else raiseAt (modWatch s fun w => { w with wire := insertNat w.wire i }) eWireFault i true none
    else if s.watch.level.contains i then s
    else
      let s := if hasLevel i then modWatch s fun w => { w with level := insertNat w.level i } else s
      raiseAt s (if i < 64 then codeOfRoot i else eExtError) i false none
  else
    let a := (i - 256) / 32
    let j := i % 32
    let g := getAgent s a
    if ¬ agentSampled s a then s
    else if wire then
      if g.wire.contains j then s
      else relayAdd (modAgent s a fun g => { g with wire := insertNat g.wire j }) a j true 1
    else if g.level.contains j then s
    else
      let s := if hasLevel i then modAgent s a fun g => { g with level := insertNat g.level j } else s
      relayAdd s a j false 1

/-- A level ends (R443): LEVEL or WIRE clears; a relay sends a message for it. -/
def pairEnd (s : State) (i : Nat) (wire : Bool) : State :=
  if i < 256 then modWatch s fun w =>
    if wire then { w with wire := without w.wire i } else { w with level := without w.level i }
  else
    let a := (i - 256) / 32
    let j := i % 32
    let g := getAgent s a
    if (if wire then g.wire.contains j else g.level.contains j) then
      relayAdd (modAgent s a fun g => if wire then { g with wire := without g.wire j }
        else { g with level := without g.level j }) a j wire 0
    else s

end Sys2Proof.Machine
end

