-- ==== Sys2Proof/Machine/Startup.lean ====
section
/-! DEFINITION. Resets, start-up to READY, fuse words, agent bring-up, function-level resets, memory self-test and scan
(R49, R60–R62, R66–R84, R244, R276, R492, R513–R515). -/

namespace Sys2Proof.Machine

/-- Instruction-memory words of an image, four bytes each, little-endian. -/
def imgWords : Nat → List Byte → Tbl W32
  | k, a :: b :: c :: d :: t =>
    let w := BitVec.ofNat 32 (bytesToNat [a, b, c, d])
    if w = 0 then imgWords (k + 1) t else (k, w) :: imgWords (k + 1) t
  | k, l =>
    let w := BitVec.ofNat 32 (bytesToNat l)
    if w = 0 then [] else [(k, w)]

/-- Bytes of an image header (R276). -/
def imgField (img : List Byte) (lo n : Nat) : Nat := bytesToNat ((img.drop lo).take n)

/-- CRC of an image over bytes 0–11 and 16 to LENGTH − 1 (R276). -/
def imgCrc (img : List Byte) (len : Nat) : Nat := crcList (img.take 12 ++ (img.take len).drop 16)

/-- Checks of an image (R276, R277): the header byte offset of the first that fails. -/
def imgBad (img : List Byte) (kind bytes : Nat) : Option Nat :=
  if imgField img 0 1 ≠ kind then some 0
  else if imgField img 6 2 > 256 then some 6
  else if imgField img 8 4 ≠ bytes then some 8
  else if img.length < bytes then some 8
  else if imgField img 12 4 ≠ imgCrc img bytes then some 12
  else none

/-- A bank's header word as SC_BANKA and SC_BANKB show it: COMPAT and VERSION, 0 without a valid image (R280). -/
def bankBytes (b : Tbl W32) (n : Nat) : List Byte :=
  (upTo (n / 4)).flatMap (fun i => natToBytes (tget 0#32 b i).toNat 4)
def bankLen (b : Tbl W32) : Nat := (tget 0#32 b 2).toNat
def bankValid (b : Tbl W32) (kind : Nat) : Bool :=
  let n := bankLen b
  decide (64 ≤ n) && decide (n ≤ 131072) && (imgBad (bankBytes b ((n + 3) / 4 * 4)) kind n).isNone
def bankVersion (b : Tbl W32) : Nat := fld (tget 0#32 b 0) 16 16
def bankCompat (b : Tbl W32) : Nat := fld (tget 0#32 b 1) 0 16
/-- KIND of the image that a core takes (R276). -/
def coreKind (core : Nat) : Nat := if core = 0x307 then 2 else if 0x300 ≤ core then 1 else 3

/-- The active bank of a core, the inactive one, and the core with a new inactive bank. -/
def activeBank (c : Core) : Tbl W32 := if c.bankB then c.imemB else c.imemA
def inactiveBank (c : Core) : Tbl W32 := if c.bankB then c.imemA else c.imemB
def setInactive (c : Core) (b : Tbl W32) : Core := if c.bankB then { c with imemA := b } else { c with imemB := b }

/-- What an agent keeps through a reset other than a cold one: the fuse word, the test latch, TEST_MBIST (R60, R514). -/
def resetAgent (g : Agent) (running : Bool) : Agent :=
  { running := running, fuse := g.fuse, testLatched := g.testLatched, latchSeen := g.latchSeen, mbist := g.mbist
    scanLost := g.scanLost }

/-- Agent numbers of the package with their records after a reset. -/
def resetAgents (s : State) (running : Bool) : Tbl Agent :=
  (upTo s.par.numAgents).foldl (fun t a => tput {} t a (resetAgent (getAgent s a) running)) []

/-- The state after a warm reset (R60): everything but the COLD-only registers at its reset value. -/
def warmState (s : State) (bit : Nat) (running : Bool) : State :=
  { par := s.par
    glb := {
      blk := .reset, por := s.glb.por, rstn := s.glb.rstn, testPin := s.glb.testPin, testLatched := s.glb.testLatched
      fuse := s.glb.fuse, fuseSeen := s.glb.fuseSeen, dieId := s.glb.dieId, mbist := s.glb.mbist, mbistRun := s.glb.mbistRun
      rstCause := BitVec.ofNat 32 (setBit (clrMask s.glb.rstCause.toNat 1) bit), flrDone := s.glb.flrDone
      scanLost := s.glb.scanLost, phase := 1, cold := s.glb.cold, portUp := s.glb.portUp }
    agents := resetAgents s running
    test := s.test
    pins := s.pins
    free := s.free
    pending := s.pending }

/-- Start-up begins: a cold start with FUSE, a warm one, which skips FUSE, with CLOCK (R71, R73). -/
def startUp (s : State) : State :=
  modGlb s fun g => { g with blk := .starting, phase := if g.cold then 1 else 2, cold := false }

/-- A start-up phase fails (R73). -/
def failPhase (s : State) (detail : Nat) : State :=
  let s := modGlb s fun g => { g with blk := .failed, failPhase := g.phase, failDetail := detail % 256 }
  reqVec s 4352

/-- The next agent of a tide port that is to be brought up: neither admitted nor excluded (R77). -/
def nextOnPort (s : State) (p : Nat) : Option Nat :=
  (upTo s.par.numAgents).find? (fun a => portOf s a == p && !agtUp s a && !agtExcluded s a)


/-- Every agent is admitted or excluded. -/
def agentsSettled (s : State) : Bool := (upTo s.par.numAgents).all (fun a => agtUp s a || agtExcluded s a)

/-- Phase AGENTS ends when every agent is admitted or excluded (R71, R78). -/
def agentsEnd (s : State) : State :=
  if s.glb.blk = .starting ∧ s.glb.phase = 5 ∧ agentsSettled s then
    if agtExcluded s 0 then failPhase s 5 else modGlb s fun g => { g with phase := 6, bring := [] }
  else s

/-- Exclude an agent (R77, R494): entry, AGENT_RESET with its cause, E_AGENT_BRINGUP. -/
def excludeAgent (s : State) (a reason cause : Nat) : State :=
  let s := agtMark s a false true reason
  let s := setMeas s a 0
  let s := sendDown s a (.agentReset cause)
  let s := audit s 9 Config.fnNone 0x0A 5 a reason
  raiseOn s eAgentBringup none (some a) [(.reason, reason)]

/-- Answer the AGENT_READMIT in progress for an agent (R492). -/
def readmitReply (s : State) (a status detail : Nat) : State :=
  match kget s.svc.readmit a with
  | none => s
  | some d =>
    let s := { s with
      svc := { s.svc with
        readmit := kdel s.svc.readmit a, readmitImage := kdel s.svc.readmitImage a
        readmitReady := without s.svc.readmitReady a, imem := kdel s.svc.imem a }
      glb := { s.glb with bring := kdel s.glb.bring a } }
    match ((getAdm s d.q).flight.find? (fun c => pktTag c.pkt == d.tag && pktOp c.pkt == 0x53)).map (·.pkt) with
    | none => s
    | some p => if status = stOk then admOk s d.q p 0xFF detail else admReject s d.q p status 0xFF detail

/-- Agents on a tide port, and the Root's receive credits for one of them (R404). -/
def portAgents (s : State) (p : Nat) : Nat := ((upTo s.par.numAgents).filter (fun a => portOf s a == p)).length
def upCredits (s : State) (a : Nat) : Nat := min 64 (512 / max 1 (portAgents s (portOf s a)))

/-- What step 1 of bring-up waits for holds (R77): the link of the agent's port is up, and an IDLE flit with credits has come
from the agent. -/
def linkReady (s : State) (a : Nat) : Bool := s.glb.portUp.contains (portOf s a) && (getLink s a).idleIn

/-- Steps 1 to 3 of bring-up: once step 1 has what it waits for, both streams start anew with their credits granted and the
agent's identity is read (R77, R404). -/
def bringLinkUp (s : State) (a : Nat) : State :=
  match kget s.glb.bring a with
  | none => s
  | some b =>
    if b.step ≠ 1 ∨ ¬ linkReady s a then s
    else
      let s := modLink s a fun k => {
        up := true, idleIn := true, downTx := { credits := 32 }, upTx := { credits := upCredits s a }
        upRx := { inbox := k.upRx.inbox, used := k.upRx.used } }
      let s := modGlb s fun g => { g with bring := kput g.bring a { b with step := 3 } }
      rootRead (rootRead s a 0 2 2) a 4 2 3

/-- Bring-up of the port's next agent begins with step 1, which ends at once where the agent has been answering (R77). -/
def bringStart (s : State) (p : Nat) : State :=
  match nextOnPort s p with
  | none => s
  | some a => bringLinkUp (modGlb s fun g => { g with bring := kput g.bring a { step := 1 } }) a

/-- Enter phase AGENTS: every port begins with its first agent. -/
def enterAgents (s : State) : State :=
  let s := modGlb s fun g => { g with phase := 5 }
  (upTo s.par.tidePorts).foldl bringStart s

/-- A step of bring-up fails for an agent (R77, R492). -/
def bringFail (s : State) (a reason : Nat) : State :=
  match kget s.glb.bring a with
  | none => s
  | some b =>
    let s := modGlb s fun g => { g with bring := kdel g.bring a }
    let s := excludeAgent s a reason 2
    if b.readmit then readmitReply s a stTimeout (a + put reason 8)
    else agentsEnd (bringStart s (portOf s a))

/-- A register read of bring-up is answered (R77, steps 3 and 4; R315). -/
def bringRead (s : State) (a use : Nat) (w : W32) : State :=
  match kget s.glb.bring a with
  | none => s
  | some b =>
    match use with
    | 2 =>
      if fld w 24 8 = 0xE7 ∧ fld w 0 16 = 0x0301 ∧ bitOf w 16 ∧ fld w 17 6 = a then
        modGlb s fun g => { g with bring := kput g.bring a { b with idSeen := true } }
      else bringFail s a 2
    | 3 =>
      let s := modGlb s fun g => { g with bring := kput g.bring a { b with cfgSeen := true, step := 4 } }
      rootRead s a 0x0010 2 4
    | 4 => modGlb s fun g => { g with bring := kput g.bring a { b with step := 5, eqMask := fld w 0 16 } }
    | _ => s

/-- UCIe crossings nearest to a latency held as 128 × ns (R26, R77). -/
def crossingsOf (a n : Nat) : Nat := if a = 0 then 0 else if n < 7680 then 1 else if n < 12800 then 2 else 3

/-- An agent's table entry after step 6 (R84); TICK_ADV is the measured latency, rounded down to whole ns (log entry 71). -/
def bringEntry (s : State) (a n : Nat) (b : Bring) (up : Bool) (old : W64) : W64 :=
  BitVec.ofNat 64 (b2n up + put (if up then 0 else fld old 1 1) 1 + put (crossingsOf a n) 2 + put (portOf s a) 4
    + put (n / 128 % 256) 8 + put (n / 128 % 256) 16 + put b.eqMask 24 + put (if up then 0 else fld old 40 4) 40)

/-- The calibration word of an agent (R53). -/
def calWord (latency adv : Nat) : Nat := latency % 256 + put (adv % 256) 8

/-- The command of an image job, as it stands in flight. -/
def imemCmd (s : State) (j : ImemJob) : Option W512 :=
  ((getAdm s j.q).flight.find? (fun c => pktTag c.pkt == j.tag && pktOp c.pkt == 0x54)).map (·.pkt)

/-- The whole bank of an agent has been written: the reply of IMEM_LOAD (R277), or the bank made active for a re-admission
(R492). -/
def imemEnd (s : State) (a : Nat) (j : ImemJob) : State :=
  let s := modSvc s fun v => { v with imem := kdel v.imem a }
  if j.readmit then
    let s := modAgent s a fun g => { g with core := { g.core with bankB := j.bankB, wroteInactive := false } }
    modSvc s fun v => { v with readmitReady := insertNat v.readmitReady a }
  else
    let w := imgWords 0 j.image
    match imemCmd s j with
    | some p => admOk s j.q p 0xFF (bankCompat w + put (bankVersion w) 16 + put (b2n j.bankB) 32)
    | none => s

/-- The Root's next write into an agent's bank (R277): 32 bytes in a REG_WRITE message, 0 past the image's end. -/
def imemSend (s : State) (a : Nat) : State :=
  match kget s.svc.imem a with
  | none => s
  | some j => rootWrite s a ((if j.bankB then 0x40000 else 0x20000) + j.off) 5
      (bytesToNat ((j.image.drop j.off).take 32)) 6

/-- The answer to such a write: the next one goes out, or the bank is written; a refusal ends the load (log entry 72). -/
def imemAnswer (s : State) (a res : Nat) : State :=
  match kget s.svc.imem a with
  | none => s
  | some j =>
    if res ≠ 0 then
      let s := modSvc s fun v => { v with imem := kdel v.imem a }
      if j.readmit then readmitReply s a stBadParam 0
      else match imemCmd s j with
        | some p => admReject s j.q p stIllegalState 0xFF 0
        | none => s
    else if 131072 ≤ j.off + 32 then imemEnd s a j
    else imemSend (modSvc s fun v => { v with imem := kput v.imem a { j with off := j.off + 32 } }) a

/-- The agent has been silent for 20 µs (R277): ST_TIMEOUT with the agent ID. -/
def imemSilent (s : State) (a : Nat) : State :=
  match kget s.svc.imem a with
  | none => s
  | some j =>
    let s := modSvc s fun v => { v with imem := kdel v.imem a }
    if j.readmit then readmitReply s a stTimeout (a + put 1 8)
    else match imemCmd s j with
      | some p => admReject s j.q p stTimeout 0xFF a
      | none => s

/-- Step 3 of a re-admission: the image is written and made active, or the active image's VERSION is checked (R492). -/
def readmitImage (s : State) (a : Nat) : State :=
  match kget s.svc.readmitImage a with
  | some img =>
    match imgBad img 3 img.length with
    | some o => readmitReply s a stBadParam o
    | none => imemSend (modSvc s fun v => { v with imem := kput v.imem a {
        q := 0, tag := 0, readmit := true, bankB := !(getAgent s a).core.bankB, image := img } }) a
  | none =>
    if bankVersion (activeBank (getAgent s a).core) = bankVersion (activeBank (getAgent s 0).core) then
      modSvc s fun v => { v with readmitReady := insertNat v.readmitReady a }
    else readmitReply s a stBadParam 8

/-- Steps 5 and 6 of bring-up after the last exchange (R77): exclusion conditions, table entry, calibration word. -/
def bringDone (s : State) (a : Nat) (b : Bring) : State :=
  let n := b.rttSum - 512
  if 140 * 128 < n then bringFail s a 3
  else if b.phMin + 5 < b.phMax then bringFail s a 4
  else
    let s := setAgt s a (bringEntry s a n b (!b.readmit) (agtEntry s a))
    let s := rootWrite s a 0x7200 3 (calWord (n / 128) (n / 128)) 1
    if b.readmit then readmitImage (modGlb s fun g => { g with bring := kput g.bring a { b with step := 6 } }) a
    else
      let s := setMeas s a b.mhz
      let s := modGlb s fun g => { g with bring := kdel g.bring a }
      agentsEnd (bringStart s (portOf s a))

/-- One timed exchange of bring-up ends (R77, step 5). -/
def bringExchange (s : State) (a rtt phase mhz : Nat) : State :=
  match kget s.glb.bring a with
  | none => s
  | some b =>
    if b.step ≠ 5 then s else
    let b := { b with
      exch := b.exch + 1, rttSum := b.rttSum + rtt, mhz := mhz
      phMin := if b.exch = 0 then phase else min b.phMin phase
      phMax := if b.exch = 0 then phase else max b.phMax phase }
    let s := modGlb s fun g => { g with bring := kput g.bring a b }
    if b.exch < 64 then s else bringDone s a b

/-- Close the classification of what was counted before READY: entries with N events are severe at tick 0 (R80). -/
def readyWindows (s : State) : State :=
  s.watch.wins.foldl (fun s x =>
    let key := x.1 / 128
    let cfg := srcCfg s key
    let w := x.2
    if cfg % 256 ≤ w.n ∧ ¬ w.severe then
      let sc := scopeOf (key / 2)
      let k := x.1 % 128
      let e : Ev := {
        code := w.code, idx := key / 2, wire := key % 2 = 1
        part := if sc = 1 ∧ k < 64 then some k else none
        agent := if 512 ≤ key then some ((key / 2 - 256) / 32) else if sc = 2 ∧ k < 64 then some k else none }
      let s := modWatch s fun y => { y with wins := tput {} y.wins x.1 { w with severe := true } }
      let s := audit s 4 Config.fnNone 6 e.code (evWord e true) (actionOf ((cfg >>> 24) % 4) e + put (min w.n 255) 8)
      takeAction s ((cfg >>> 24) % 4) e
    else s) s

/-- Phase TICK_START and READY (R71, R73): tick 0 to every admitted agent; manager vector 0. -/
def goReady (s : State) : State :=
  let s := modSched s fun c => { c with tickNo := 0, elapsed := 0 }
  let s := (upTo s.par.numAgents).foldl (fun s a => if agtUp s a then sendDown s a (.tick 0 s.sched.period) else s) s
  let s := modGlb s fun g => { g with blk := .ready, phase := 15 }
  readyWindows (reqVec s 4352)

/-- Phase FIRMWARE (R71, R244): Iznum into bank A of core 7, the library into bank A of cores 0–6; core 7 starts at the
image's first entry (log entry 15). -/
def loadFirmware (s : State) (iznum lib : List Byte) : State :=
  let lw := imgWords 0 lib
  let s := (upTo 7).foldl (fun s n => modCore s (0x300 + n) fun c => { c with imemA := lw }) s
  let s := modCore s 0x307 fun c => { c with
    imemA := imgWords 0 iznum, st := 1, run := some 512, owner := (upTo 16).map (fun k => (k, 513)) }
  { s with ctxs := kput s.ctxs 512 {
    core := 0x307, st := .running, pc := imgField iznum 0x40 4, nslices := 16, slices := upTo 16 } }

/-- Release of por_rst_n (R71, R73): the cold start begins, unless rst_n is low. -/
def execPorRelease (testMode : Bool) (s : State) : Host.Outcome State Fault Refusal :=
  if s.glb.por then
    let s := { s with
      glb := { s.glb with por := false, testPin := testMode }
      agents := (upTo s.par.numAgents).foldl (fun t a => tput {} t a { getAgent s a with running := !s.glb.rstn }) [] }
    .next (if s.glb.rstn then s else startUp s)
  else .next s

/-- The fall of rst_n (R61, R67, R73): warm reset, held until rst_n rises. Each agent's rst_n is the package's. -/
def execRstNAssert (s : State) : Host.Outcome State Fault Refusal :=
  if s.glb.por then .next { s with glb := { s.glb with rstn := true } }
  else
    let t := warmState s 1 false
    .next { t with glb := { t.glb with rstn := true } }

/-- The rise of rst_n starts the warm sequence (R73); a self-test that still runs goes on (R514). -/
def execRstNRelease (s : State) : Host.Outcome State Fault Refusal :=
  if s.glb.rstn ∧ ¬ s.glb.por then
    .next (startUp { s with
      glb := { s.glb with rstn := false }
      agents := (upTo s.par.numAgents).foldl (fun t a => tput {} t a { getAgent s a with running := true }) [] })
  else .next { s with glb := { s.glb with rstn := false } }

/-- The fall of por_rst_n resets everything in the COLD domain (R60). -/
def execPorRstNAssert (s : State) : Host.Outcome State Fault Refusal :=
  .next { par := s.par, glb := { rstn := s.glb.rstn, portUp := s.glb.portUp }, pins := s.pins, free := s.free, pending := s.pending }

/-- A warm reset begins (R61): AGENT_RESET to every agent; the Root resets with the entry step. -/
def warmBegin (s : State) (bit : Nat) : State :=
  if s.glb.warmBegun then s else
  let s := (upTo s.par.numAgents).foldl (fun s a => sendDown s a (.agentReset 1)) s
  modGlb s fun g => { g with warmBegun := true, warmBit := bit }

/-- The Root enters reset after the wait of R61 and starts the warm sequence (R61, R73). -/
def execWarmResetEntry (s : State) : Host.Outcome State Fault Refusal :=
  liveRoot s fun s => if s.glb.warmBegun then startUp (warmState s s.glb.warmBit true) else s

/-- A function-level reset (R49, R73, R79, R474). -/
def execFlrRequest (fn : Nat) (s : State) : Host.Outcome State Fault Refusal :=
  liveRoot s fun s =>
    let answer := modGlb s fun g => { g with flrDone := g.flrDone ++ [fn] }
    if fn = Config.fnManager then (if s.glb.pfFlr then s else warmBegin (modGlb answer fun g => { g with pfFlr := true }) 3)
    else if 64 ≤ fn then answer
    else if ¬ isReady s then answer
    else
      let join := modGlb s fun g => { g with flr := insertNat g.flr fn }
      match (getPart s fn).st with
      | .free => answer
      | .resetting => modPart join fn fun p => { p with flr := true }
      | _ => enterPartReset join fn true

/-- The shadow of a fuse word (R75): on a CRC mismatch in factory test mode SRAM_REPAIR and AGE_BASE are taken as 0. -/
def fuseShadow (fuse : BitVec 256) (good : Bool) : BitVec 256 :=
  if good then fuse else BitVec.ofNat 256 (fld fuse 0 64 + put (fld fuse 224 32) 224)
/-- FUSE_CRC matches (R75). -/
def fuseGood (fuse : BitVec 256) : Bool := decide (crc32c 28 (fld fuse 0 224) = fld fuse 224 32)

/-- Phase FUSE (R68, R75). -/
def execFuseValid (fuse : BitVec 256) (s : State) : Host.Outcome State Fault Refusal :=
  liveRoot s fun s =>
    if s.glb.blk = .starting ∧ s.glb.phase = 1 then
      let latched := s.glb.testPin && bitOf fuse 0
      let good := fuseGood fuse
      if ¬ good ∧ ¬ latched then failPhase s 2
      else
        let shadow := fuseShadow fuse good
        modGlb s fun g => { g with
          testLatched := latched, fuse := shadow, fuseSeen := true, dieId := BitVec.ofNat 64 (fld fuse 8 56), phase := 2 }
    else s

/-- Sampling of a set of fault inputs begins (R80): what is held in error outside counts as an onset. -/
def sampleStart (s : State) (mine : Nat → Bool) : State :=
  (s.pins.filter (fun k => mine (k / 2))).foldl (fun s k => pairOnset s (k / 2) (decide (k % 2 = 1))) s

/-- A phase's work is done (R71, R80, R83, R244): CLOCK with the MHz measured, SRAM, SENSOR with the monitors' word measured,
FIRMWARE with its images. -/
def execPhaseComplete (meas : Nat) (iznum lib : List Byte) (s : State) : Host.Outcome State Fault Refusal :=
  liveRoot s fun s =>
    if s.glb.blk ≠ .starting then s else
    match s.glb.phase with
    | 2 =>
      let s := modGlb s fun g => { g with rootMhz := meas % 4096 }
      if 100 ≤ meas ∧ meas ≤ 2020 then modGlb s fun g => { g with phase := 3 } else failPhase s 3
    | 3 => sampleStart (modGlb s fun g => { g with phase := 4 }) (fun i => decide (i < 256))
    | 4 => enterAgents (modGlb s fun g => { g with monBase := BitVec.ofNat 32 meas })
    | 6 =>
      if (imgBad iznum 2 (imgField iznum 8 4)).isSome then failPhase s 6
      else goReady (modGlb (loadFirmware s iznum lib) fun g => { g with phase := 7 })
    | _ => s

/-- FAIL_DETAIL by cause (R81): in SRAM and FIRMWARE the phase's check may be what fails, otherwise the time ran out. -/
def failCause (phase detail : Nat) : Nat :=
  if phase = 3 ∧ detail = 4 then 4 else if phase = 6 ∧ detail = 6 then 6 else 1

/-- A phase runs out of time or a check of it fails (R71, R73). -/
def execPhaseTimeout (detail : Nat) (s : State) : Host.Outcome State Fault Refusal :=
  liveRoot s fun s =>
    if s.glb.blk = .starting ∧ s.glb.phase ≠ 5 ∧ s.glb.phase ≠ 7 then failPhase s (failCause s.glb.phase detail) else s

/-- 2,300 µs after reset release: agents not yet admitted are excluded (R71, R77), with REASON 0x1 whatever step each has
reached (log entry 71). -/
def execAgentsDeadline (s : State) : Host.Outcome State Fault Refusal :=
  liveRoot s fun s =>
    if s.glb.blk = .starting ∧ s.glb.phase = 5 then
      let late := (upTo s.par.numAgents).filter (fun a => !agtUp s a && !agtExcluded s a)
      agentsEnd (late.foldl (fun s a => excludeAgent s a 1 2) (modGlb s fun g => { g with bring := [] }))
    else s

/-- An agent's own initialisation ends (R75, R76, R80, R244, R422): fuse word, test latch, monitor baseline, firmware in bank A,
sampling of its fault inputs; it returns IDLE flits, with the credits of its receive buffer when all went well and with none
when not (`mon` is none then). An agent instance's TEST_MODE input is the Root's pin (log entry 71). -/
def execAgentInitDone (a : Nat) (mon : Option W32) (fuse : BitVec 256) (image : List Byte) (s : State) : Host.Outcome State Fault Refusal :=
  liveAgent s a fun s =>
    let g := getAgent s a
    if g.initDone then s else
    let latched := if g.latchSeen then g.testLatched else s.glb.testPin && bitOf fuse 0
    let good := if g.latchSeen then g.fuseOk else fuseGood fuse
    let fine := mon.isSome && (good || latched)
    let s := modAgent s a fun g => { g with
      initDone := true, initOk := fine, fuse := if g.latchSeen then g.fuse else fuseShadow fuse good, fuseOk := good
      testLatched := latched, latchSeen := true, monBase := mon.getD g.monBase, core := { g.core with imemA := imgWords 0 image } }
    let s := modLink s a fun k => { k with upTx := { k.upTx with
      control := k.upTx.control ++ [mkFlit 0 false a 0 0 (if fine then 32 else 0) 0] } }
    sampleStart s (fun i => decide (256 ≤ i) && decide ((i - 256) / 32 = a))

/-- tide_link_up of the agent's port rises and its first IDLE flit, one with credits, arrives (R77). -/
def execTideLinkUp (a : Nat) (s : State) : Host.Outcome State Fault Refusal :=
  liveRoot s fun s =>
    let s := modGlb s fun g => { g with portUp := insertNat g.portUp (portOf s a) }
    let g := getAgent s a
    if g.running ∧ g.initDone ∧ g.initOk then bringLinkUp (modLink s a fun k => { k with idleIn := true }) a else s

/-- The wait of step 1 runs out (R77). -/
def execBringupWaitTimeout (a : Nat) (s : State) : Host.Outcome State Fault Refusal :=
  liveRoot s fun s => match kget s.glb.bring a with
    | some b => if b.step = 1 ∨ b.readmit then bringFail s a 1 else s
    | none => s

/-- The streams of a link that starts anew: what the Root has received and not taken is left. -/
def freshLink (k : Link) : Link :=
  { up := k.up, upRx := { inbox := k.upRx.inbox, used := k.upRx.used }
    sigBy := (k.upRx.inbox.filter isSignal).map (fun _ => none) }
where
  isSignal : Msg → Bool
    | .flagSignal _ _ _ _ => true
    | _ => false

/-- An AGENT_RESET message resets its agent (R60); the agent's streams start anew when its link comes up next. -/
def execAgentReset (a : Nat) (s : State) : Host.Outcome State Fault Refusal :=
  liveAgent s a fun s => match downHead s a with
    | some (.agentReset c) =>
      let s := modAgent s a fun g => { resetAgent g true with rstCauseMsg := c }
      modLink s a fun k => freshLink k
    | _ => s

/-- Onsets not yet sent are lost and an admitted agent is no longer answering when its link fails (R54, R78, R269, R493). An
exclusion before READY (R78) raises E_TIDE_LINK only and sends no AGENT_RESET: the link is down (log entry 71). -/
def linkFault (s : State) (a : Nat) : State :=
  let s := modLink s a fun k => { k with up := false, fault := true, idleIn := false }
  let s := relayClear (raise s eTideLink none (some a)) a
  let s := modAgent s a fun g => { g with relay := [] }
  let s := loseTasks s a
  if s.glb.blk = .starting ∧ agtUp s a then agtMark (setMeas s a 0) a false true 5
  else if (kget s.svc.draining a).isSome then
    let s := audit (setMeas (agtMark s a false true 1) a 0) 9 Config.fnNone 0x0A 5 a 1
    drainGone (mcAgentGone s a) a
  else s

/-- tide_link_up of a port falls: the link of every agent on the port is in fault (R50, R54). -/
def portFall (s : State) (p : Nat) : State :=
  let s := modGlb s fun g => { g with portUp := without g.portUp p }
  let ags := (upTo s.par.numAgents).filter (fun a => portOf s a == p)
  ags.foldl (fun s a => if (getLink s a).up then linkFault s a else modLink s a fun k => { k with idleIn := false }) s

/-- tide_link_up of the agent's port falls (R50, R54); a SEQ replayed eight times is REPLAY_REQ's. -/
def execTideLinkFault (a : Nat) (s : State) : Host.Outcome State Fault Refusal :=
  liveRoot s fun s => portFall s (portOf s a)

/-- An agent leaves reset on its own and drops its tide link (R62). -/
def execAgentSelfReset (a : Nat) (s : State) : Host.Outcome State Fault Refusal :=
  liveRoot s fun s =>
    let s := modAgent s a fun g => resetAgent g true
    if (getLink s a).up then
      let s := linkFault s a
      modLink s a fun k => { freshLink k with fault := true }
    else modLink s a fun k => { k with idleIn := false }

/-- TEST_MBIST while a self-test runs (R514). -/
def mbistBegin : W32 := 1
/-- TEST_MBIST after a self-test (R514). -/
def mbistResult (fails first : Nat) : W32 :=
  BitVec.ofNat 32 (2 + put (b2n (decide (fails ≠ 0))) 2 + put (if fails = 0 then 0 else first % 256) 8 + put (satN 16 fails) 16)

/-- A rising edge of mbist_start (R69, R514): honoured in factory test mode with rst_n low and por_rst_n high; the
contents of every SRAM of the instance are lost, which the reset then in force has already cleared. -/
def execMbistStart (inst : Nat) (s : State) : Host.Outcome State Fault Refusal :=
  if inst = 0 then
    .next (if s.glb.testLatched ∧ s.glb.rstn ∧ ¬ s.glb.por then
      { s with glb := { s.glb with mbist := mbistBegin, mbistRun := true } } else s)
  else
    let a := inst - 1
    .next (if (getAgent s a).testLatched ∧ s.glb.rstn ∧ ¬ s.glb.por then
      modAgent s a fun g => { g with mbist := mbistBegin, mbistRun := true } else s)

/-- The self-test ends (R514). -/
def execMbistDone (inst fails first : Nat) (s : State) : Host.Outcome State Fault Refusal :=
  if inst = 0 then
    .next (if s.glb.mbistRun then { s with glb := { s.glb with mbist := mbistResult fails first, mbistRun := false } } else s)
  else
    let a := inst - 1
    .next (if (getAgent s a).mbistRun then
      modAgent s a fun g => { g with mbist := mbistResult fails first, mbistRun := false } else s)

/-- scan_en in factory test mode: the functional state of the instance is lost until a cold reset (R69, R515). -/
def execScanEn (inst : Nat) (s : State) : Host.Outcome State Fault Refusal :=
  if inst = 0 then .next (if s.glb.testLatched then { s with glb := { s.glb with scanLost := true } } else s)
  else .next (if (getAgent s (inst - 1)).testLatched then modAgent s (inst - 1) fun g => { g with scanLost := true } else s)

end Sys2Proof.Machine
end

