-- ==== Sys2Proof/Machine/TideOps.lean ====
section
/-! DEFINITION. Receiving tide flits, replay and the agents' Watch relays (R51–R54, R405, R442, R443). -/

namespace Sys2Proof.Machine

/-- A message travels in the direction that R52 gives its type. -/
def msgDir (d : Dir) (m : Msg) : Bool :=
  match m, d with
  | .tick _ _, .down | .mopPush _, .down | .flagUpdate _ _, .down | .regRead _ _ _, .down | .regWrite _ _ _ _ _, .down
  | .modeStage _ _ _ _ _, .down | .agentReset _, .down => true
  | .flagSignal _ _ _ _, .up | .completion _, .up | .partialRec _ _ _ _, .up | .regReply _ _ _ _, .up
  | .watchEvent _ _ _ _, .up | .modeAck _ _ _ _, .up => true
  | .ctxXfer sub _ _ _ _, .down => sub == 1 || sub == 3
  | .ctxXfer sub _ _ _ _, .up => sub == 2 || sub == 4 || sub == 5
  | .loopback _ _, _ => true
  | _, _ => false

/-- The receiving end takes a flit that it wants: the message it ends, when it ends one, or its lack of meaning. -/
def rxWanted (d : Dir) (r : RxSide) (f : W512) : RxSide × Bool :=
  let acc := r.acc ++ [BitVec.ofNat 416 (fld f 64 416)]
  let r := { r with next := (r.next + 1) % 4096, used := r.used + 1 }
  if 16 < fld f 0 5 then ({ r with acc := [], freed := r.freed + acc.length, used := r.used - acc.length }, true)
  else if bitOf f 5 then ({ r with acc := acc }, false)
  else match msgDecode (fld f 0 5) (joinPayload acc) with
    | some m => if msgDir d m then ({ r with acc := [], inbox := r.inbox ++ [m] }, false)
      else ({ r with acc := [], freed := r.freed + acc.length, used := r.used - acc.length }, true)
    | none => ({ r with acc := [], freed := r.freed + acc.length, used := r.used - acc.length }, true)

/-- ACK_SEQ and CREDITS of a good flit at the sending end of the same side (R54). -/
def txReturn (t : TxSide) (f : W512) : TxSide :=
  let t := ackTx t (fld f 28 12)
  { t with credits := t.credits + fld f 40 8 }

/-- One end of a link, own receiving and sending side, takes a flit: the sides, whether E_TIDE_PROTOCOL is due, whether the
flit's CRC was bad. -/
def endTake (d : Dir) (a : Nat) (r : RxSide) (t : TxSide) (f : W512) : RxSide × TxSide × Bool × Bool :=
  match flitKind r f with
  | .bad =>
    let (t, fr) := sendControl a (lastSeq r) 15 r.next t r.freed
    ({ r with freed := fr }, t, false, !flitCrcOk f)
  | .old => (r, t, false, false)
  | .control =>
    let t := txReturn t f
    if fld f 0 5 = 15 then ({ r with inbox := .replayReq (fld f 64 12) :: r.inbox }, t, false, false) else (r, t, false, false)
  | .wanted =>
    let (r, bad) := rxWanted d r f
    (r, txReturn t f, bad, false)

/-- A flit arrives at the agent (down) or at the Root (up) (R54); before bring-up of an agent the Root sees its IDLE flits
(R77). -/
def flitTake (s : State) (d : Dir) (a : Nat) (f : W512) : State :=
  let s := match d with
    | .down => modLink s a fun k => { k with downTx := { k.downTx with control := k.downTx.control.erase f } }
    | .up => modLink s a fun k => { k with upTx := { k.upTx with control := k.upTx.control.erase f } }
  let k := getLink s a
  if ¬ k.up then
    (if d = .up ∧ flitCrcOk f ∧ fld f 0 5 = 0 ∧ fld f 40 8 ≠ 0 ∧ s.glb.portUp.contains (portOf s a) then
      bringLinkUp (modLink s a fun k => { k with idleIn := true }) a
    else s)
  else match d with
  | .down =>
    let (r, t, bad, crc) := endTake d a k.downRx k.upTx f
    let s := pumpUp (modLink s a fun k => { k with downRx := r, upTx := t }) a
    let s := if bad then raise s eTideProtocol none (some a) else s
    let s := if crc then relayAdd s a 4 false 1 else relayPump s a
    if flitKind k.downRx f = .bad ∨ flitKind k.downRx f = .control then s else modLink s a fun k => idleUp a k
  | .up =>
    let (r, t, bad, _) := endTake d a k.upRx k.downTx f
    let s := pumpDown (modLink s a fun k => { k with upRx := r, downTx := t }) a
    let s := if bad then raise s eTideProtocol none (some a) else s
    if flitKind k.upRx f = .bad ∨ flitKind k.upRx f = .control then s else modLink s a fun k => idleDown a k

/-- A tide flit is received (R54). -/
def execFlitReceive (d : Dir) (a : Nat) (f : W512) (s : State) : Host.Outcome State Fault Refusal :=
  match d with
  | .down => liveAgent s a fun s => flitTake s d a f
  | .up => liveRoot s fun s => flitTake s d a f

/-- The sender resends from a SEQ: every flit kept from it on has been replayed once more (R54). -/
def replayMark (t : TxSide) (seq : Nat) : TxSide :=
  { t with replays := (t.unacked.dropWhile (fun x => x.1 != seq)).foldl (fun r x => kput r x.1 (tget 0 r x.1 + 1)) t.replays }
/-- Some SEQ has been replayed 8 times without being acknowledged (R54). -/
def replayedOut (t : TxSide) : Bool := t.replays.any (fun r => decide (8 ≤ r.2))

/-- A REPLAY_REQ arrives at the agent (down) or at the Root (up): the flits from its SEQ on go out again, and the eighth
replay of one SEQ is a link fault (R54). -/
def execReplayReq (d : Dir) (a : Nat) (s : State) : Host.Outcome State Fault Refusal :=
  match d with
  | .down => liveAgent s a fun s => match downHead s a with
    | some (.replayReq seq) =>
      let s := modLink s a fun k => { k with
        downRx := { k.downRx with inbox := k.downRx.inbox.drop 1 }, upTx := replayMark k.upTx seq }
      if replayedOut (getLink s a).upTx then linkFault s a else s
    | _ => s
  | .up => liveRoot s fun s => match upHead s a with
    | some (.replayReq seq) =>
      let s := modLink s a fun k => { k with
        upRx := { k.upRx with inbox := k.upRx.inbox.drop 1 }, downTx := replayMark k.downTx seq }
      if replayedOut (getLink s a).downTx then linkFault s a else s
    | _ => s

end Sys2Proof.Machine
end

