-- ==== Sys2Proof/Machine/WatchOps.lean ====
section
/-! DEFINITION. Fault inputs, WATCH_EVENT, classification windows, clearing, agent fences, the end of chip-fail and the
evacuation record, injected faults (R58, R80, R439–R460, R523, R524). -/

namespace Sys2Proof.Machine

/-- An onset at the instance whose pair it is; the pins hold it, also while the instance does not sample them (R80). -/
def onsetAt (i : Nat) (wire : Bool) (s : State) : Host.Outcome State Fault Refusal :=
  let s := if wire || hasLevel i then { s with pins := insertNat s.pins (i * 2 + b2n wire) } else s
  if i < 256 then liveRoot s fun s => pairOnset s i wire
  else liveAgent s ((i - 256) / 32) fun s => pairOnset s i wire

/-- An error onset of a pair (R58). -/
def execErrPairOnset (i : Nat) (s : State) : Host.Outcome State Fault Refusal := onsetAt i false s
/-- A wire fault of a pair (R58). -/
def execWireFaultOnset (i : Nat) (s : State) : Host.Outcome State Fault Refusal := onsetAt i true s
/-- A pair leaves the error or wire-fault state (R443). -/
def execErrorLevelEnd (i : Nat) (wire : Bool) (s : State) : Host.Outcome State Fault Refusal :=
  let s := { s with pins := without s.pins (i * 2 + b2n wire) }
  if i < 256 then liveRoot s fun s => pairEnd s i wire
  else liveAgent s ((i - 256) / 32) fun s => pairEnd s i wire

/-- Count the same event a number of times. -/
def countN : Nat → State → Ev → State
  | 0, s, _ => s
  | n + 1, s, e => countN n (watchCount s e) e

/-- A WATCH_EVENT of an agent (R443, R524). -/
def watchEventIn (s : State) (a j : Nat) (wire level : Bool) (count : Nat) : State :=
  let i := 256 + 32 * a + j
  if ¬ srcExists s i then s else
  let s := modWatch s fun w =>
    if wire then { w with wire := if level then insertNat w.wire i else without w.wire i }
    else { w with level := if level then insertNat w.level i else without w.level i }
  countN count s {
    code := if wire then eWireFault else codeOfAgent j, idx := i, wire := wire, part := none, agent := some a }

/-- A WATCH_EVENT message arrives at the Root (R524). -/
def execWatchEvent (a : Nat) (s : State) : Host.Outcome State Fault Refusal :=
  liveRoot s fun s => match upHead s a with
    | some (.watchEvent j w l n) => watchEventIn (takeUp s a) a j w l n
    | _ => s

/-- At a tick the windows that have covered W periods close (R445). -/
def closeWindows (s : State) : State :=
  modWatch s fun w => { w with
    wins := (w.wins.map (·.1)).foldl (fun t k =>
      let x := tget {} t k
      if x.open_ ∧ x.start + (srcCfg s (k / 128) >>> 8) % 65536 ≤ s.sched.tickNo then
        tput {} t k { x with open_ := false, n := 0, start := 0, code := 0 }
      else t) w.wins }

/-- Windows close at a tick (R445). -/
def execWatchWindowClose (s : State) : Host.Outcome State Fault Refusal :=
  liveRoot s fun s => if isReady s then closeWindows s else s

/-- An entry is severe for some key; the highest n of its keys (R458). -/
def entrySevere (s : State) (key : Nat) : Bool := s.watch.wins.any (fun x => x.1 / 128 == key && x.2.severe)
def entryWinCnt (s : State) (key : Nat) : Nat :=
  s.watch.wins.foldl (fun m x => if x.1 / 128 = key then max m x.2.n else m) 0

/-- Clear SEVERE or WSEVERE of an entry (R455): the windows of every key reset; while the cause persists one event counts
and the action is taken again for the keys that were severe. -/
def severeClear (s : State) (key : Nat) : State :=
  let i := key / 2
  let wire := decide (key % 2 = 1)
  let was := s.watch.wins.filter (fun x => x.1 / 128 == key && x.2.severe)
  if was.isEmpty then s else
  let s := modWatch s fun w => { w with wins := w.wins.filter (fun x => x.1 / 128 != key) }
  let held := if wire then s.watch.wire.contains i else s.watch.level.contains i
  if ¬ held then s else
  was.foldl (fun s x =>
    let wk := x.1
    let s := modWatch s fun w => { w with
      wins := tput {} w.wins wk { open_ := true, start := s.sched.tickNo, n := 1, severe := true, code := x.2.code }
      cnt := tput 0 w.cnt i (satN 32 (tget 0 w.cnt i + 1)) }
    let e : Ev := {
      code := x.2.code, idx := i, wire := wire, part := none, agent := if i < 256 then none else some ((i - 256) / 32) }
    let s := modWatch s fun w => { w with last := BitVec.ofNat 64 (evWord e true), lastEv := some e }
    let act := (srcCfg s key >>> 24) % 4
    let s := audit s 4 Config.fnNone 6 e.code (evWord e true) (takenOf s act e + put 1 8)
    takeAction s act e) s

/-- 20 µs after a fence, or once every COMPLETION has come: AGENT_RESET; what has not reported fails (R450, step 3). -/
def execFenceReset (a : Nat) (s : State) : Host.Outcome State Fault Refusal :=
  liveRoot s fun s =>
    if s.watch.fencing.contains a then
      let s := modWatch s fun w => { w with fencing := without w.fencing a }
      let s := (launchesOn s a).foldl (fun s id => leave s id stAborted eAgentFenced) s
      let s := modStew s fun x => { x with
        lane := x.lane.filter (fun y => y.1 / 16 != a), pushq := x.pushq.filter (fun m => m.eq / 16 != a)
        copy := x.copy.map (fun k => if k.agent = a then { k with ended := true, ok := false } else k) }
      let s := { s with outf := { s.outf with counted := s.outf.counted.filter (fun y => y.1 / 2 ^ 20 != a) } }
      sendDown s a (.agentReset 3)
    else s

/-- Evacuation record entry of a partition (R454). -/
def evacPart (s : State) (p : Nat) : Nat :=
  let x := getPart s p
  let q := getSeqs s p
  if x.st = .free then 0 else
  pack [(8, pCode x.st), (24, 0), (32, x.pasid), (16, x.queueLimit), (8, x.engineShare), (8, x.sluiceShare), (32, x.flagBase),
    (32, x.flagCount), (16, x.gctxBase), (16, x.gctxCount), (32, x.htabEntries), (16, x.waitLimit), (16, x.basinLimit),
    (64, x.htabBase.toNat), (64, x.dflag.toNat), (32, x.dfcnt), (32, q.cnt), (64, q.base.toNat)]

/-- A linear position as IDX and GEN (R107). -/
def posWord (log2 pos : Nat) : Nat := pos % 2 ^ log2 + put (pos / 2 ^ log2 % 65536) 16

/-- Evacuation record entry of a host queue (R454). -/
def evacQueue (s : State) (q : Nat) : Nat :=
  let x := getQueue s q
  if x.st = .unused then 0 else
  pack [(8, qCode x.st), (6, x.owner), (1, b2n x.be), (1, b2n x.ringLoc), (32, posWord x.log2 x.capHead),
    (32, posWord x.log2 x.capTail), (32, posWord x.log2 x.capOld), (16, 0), (32, x.capOut), (8, x.log2), (24, 0),
    (64, x.ringBase.toNat)]

/-- Evacuation record entry of a graph context (R454). -/
def evacGctx (s : State) (c : Nat) : Nat :=
  let g := getGctx s c
  if g.st = 0 then 0 else
  let n := fun (i : Nat) => ((g.gens[i]?).map (·.num)).getD 0
  pack [(2, g.st), (6, g.owner), (8, g.gens.length), (16, g.cur), (16, n 0), (16, n 1), (16, n 2), (16, n 3), (32, ctxPins s c)]

/-- Evacuation record bytes from 64 on (R453): the block as it stood at the freeze cycle. -/
def evacBody (now : State) : Nat :=
  let s := { now with
    parts := now.snap.parts, seqs := now.snap.seqs, queues := now.snap.queues, gctxs := now.snap.gctxs, weir := now.snap.weir }
  pack [(64 * 512, pack ((upTo 64).map (fun p => (512, evacPart s p)))),
    (4096 * 256, pack ((upTo 4096).map (fun q => (256, evacQueue s q)))),
    (65536 * 64, pack ((upTo 65536).map (fun i => (64, (flagWord s i).toNat)))),
    (1024 * 128, pack ((upTo 1024).map (fun c => (128, evacGctx s c))))]

def evacBytes : Nat := 675904

/-- Evacuation record header without its CRC (R453). -/
def evacHead (s : State) : Nat :=
  pack [(32, 0x43415645), (16, 0x0301), (16, 0), (64, s.watch.freezeTick % 2 ^ 48), (64, s.watch.fail.toNat),
    (64, s.glb.dieId.toNat), (8, s.xing.chip), (8, b2n s.watch.incomplete), (16, 0), (32, evacBytes), (160, 0)]

/-- The evacuation record (R453). -/
def evacRecord (s : State) : Nat :=
  let h := evacHead s
  let b := evacBody s
  let crc := crcRun (evacBytes - 64) b (crcRun 60 h 0xFFFFFFFF) ^^^ 0xFFFFFFFF
  h + put crc 480 + b <<< 512

/-- Step 7 of R451. -/
def evacEnd (s : State) : State := reqVec (modWatch s fun w => { w with evacDone := true, failStep := 7 }) 4359

/-- Steps 4 to 6 of R451: what has not completed completes with E_CHIP_FAIL; the evacuation record is written. -/
def execChipFailReportsEnd (s : State) : Host.Outcome State Fault Refusal :=
  liveRoot s fun s =>
    if ¬ s.glb.frozen ∨ s.watch.failStep ≠ 4 then s else
    let late := s.launches.any (fun x => !isDone x.2 && !x.2.outs.isEmpty)
    let s := s.launches.foldl (fun s x => leaveOne s x.1 stAborted eChipFail) s
    let s := modWatch s fun w => { w with incomplete := late }
    if s.watch.evacSize * 65536 < evacBytes then evacEnd (modWatch s fun w => { w with evacNobase := true })
    else
      let (_, s) := mgrWrite s Config.fnManager s.watch.evacBase.toNat evacBytes (evacRecord s) .evac
      modWatch s fun w => { w with failStep := 6 }

/-- The last write response of the evacuation record (R45, R451). -/
def execEvacWriteDone (ok : Bool) (s : State) : Host.Outcome State Fault Refusal :=
  liveRoot s fun s =>
    match s.port.writes.find? (fun w => decide (w.kind = .evac)) with
    | none => s
    | some w =>
      let s := mgrDone s w.txn
      let s := if ok then s
        else raiseOn (modGlb s fun g => { g with evacWfault := true }) eHostWriteFault none none [(.addr, w.addr)]
      evacEnd s

/-- An injected event (R460, R523): the source that counts its code, of the agent named for an agent's source. -/
def injectEvent (s : State) (code : Nat) (part agent : Option Nat) : State :=
  let agentSrc := fun (j : Nat) => match agent with
    | some a => watchCount s { code := code, idx := 256 + 32 * a + j, wire := false, part := part, agent := some a }
    | none => s
  if code = eSramEcc ∧ agent.isSome then agentSrc 0
  else if code = eSramCorr ∧ agent.isSome then agentSrc 1
  else if code = eOvertemp then agentSrc 2
  else if code = eClockRange then agentSrc 3
  else if code = eTideCrc then agentSrc 4
  else raise s code part agent

/-- Drive a pair (R460): while HOLD is 1, or for 8 cycles. -/
def injectPair (s : State) (old new : W32) : State :=
  let i := fld new 0 12
  let wire := bitOf new 12
  let s := if bitOf old 13 ∧ (¬ bitOf new 13 ∨ fld old 0 13 ≠ fld new 0 13) then pairEnd s (fld old 0 12) (bitOf old 12) else s
  let s := if bitOf new 13 ∧ (¬ bitOf old 13 ∨ fld old 0 13 ≠ fld new 0 13) then pairOnset s i wire else s
  if bitOf new 14 ∧ ¬ bitOf new 13 then
    let had := if i < 256 then (if wire then s.watch.wire.contains i else s.watch.level.contains i)
      else (if wire then (getAgent s ((i - 256) / 32)).wire.contains (i % 32)
        else (getAgent s ((i - 256) / 32)).level.contains (i % 32))
    let s := pairOnset s i wire
    if had then s else pairEnd s i wire
  else s

end Sys2Proof.Machine
end

