-- ==== Sys2Proof/Machine/AdminOps.lean ====
section
/-! DEFINITION. Admin commands on partitions, host queues, graph contexts, flags and handles: their checks in the order of
R96 and their effects (R92–R105, R123–R127, R146, R188, R203, R204, R281, R324, R461, R472, R520). -/

namespace Sys2Proof.Machine

/-- Opcodes that R92 lists. -/
def opKnown (op : Nat) : Bool :=
  op ≤ 1 || (decide (0x10 ≤ op) && decide (op ≤ 0x15)) || (decide (0x20 ≤ op) && decide (op ≤ 0x25))
    || (decide (0x30 ≤ op) && decide (op ≤ 0x32)) || op == 0x40 || op == 0x41 || op == 0x48
    || (decide (0x50 ≤ op) && decide (op ≤ 0x54))
/-- Opcodes open to the manager's queue alone (R92). -/
def opManager (op : Nat) : Bool :=
  (decide (0x10 ≤ op) && decide (op ≤ 0x15)) || op == 0x20 || (decide (0x50 ≤ op) && decide (op ≤ 0x54))

/-- Checks 1 and 2 of R96: status and DETAIL of the first that fails. -/
def admCheck (q : Nat) (pkt : W512) : Option (Nat × Nat) :=
  if ¬ opKnown (pktOp pkt) then some (stBadParam, 0)
  else if 4 ≤ pktFlags pkt then some (stBadParam, 1)
  else if q < 64 ∧ opManager (pktOp pkt) then some (stDenied, 4)
  else none

/-- The lowest byte of a number that is not 0, counted from a start. -/
def lowByte : Nat → Nat → Nat → Option Nat
  | 0, _, _ => none
  | n + 1, k, x => if x % 256 ≠ 0 then some k else lowByte n (k + 1) (x / 256)

/-- Byte offset of the first non-zero bit of PARAMS that the opcode does not define; `def_` lists the defined fields as
first bit in the packet and width (R88). -/
def resvAt (pkt : W512) (def_ : List (Nat × Nat)) : Option Nat :=
  let mask := sumBy (fun x => (2 ^ x.2 - 1) <<< x.1) def_
  let x := pkt.toNat - (pkt.toNat &&& (mask + (2 ^ 64 - 1)))
  lowByte 56 8 (x >>> 64)

/-- Check 4 of R96: the first offending field, out of its range or reserved. -/
def badField (pkt : W512) (def_ : List (Nat × Nat)) (bad : List (Bool × Nat)) : Option Nat :=
  let r := match resvAt pkt def_ with
    | some k => [(true, k)]
    | none => []
  ((bad ++ r).filter (fun x => x.1)).foldl (fun b x => match b with
    | none => some x.2
    | some y => some (min y x.2)) none

/-- Reject a command with its object's state as found. -/
def rej (s : State) (q : Nat) (pkt : W512) (status detail : Nat) : State :=
  admReject s q pkt status (objState s q pkt) detail

/-- Engine queues that still hold a host queue's work (R91, R127): macro-ops that the Root has pushed, and those that an agent
core has pushed into a local queue. -/
def heldEngines (s : State) (k : Nat) : Nat :=
  let mine := fun (e : Ent) => decide (e.launch % 4096 = k) && s.launches.any (fun x => x.1 % 2 ^ 32 == e.launch % 2 ^ 32)
  let loc := s.agents.flatMap (fun x => (x.2.eqs.filter (fun y => (y.2.lc ++ y.2.be ++ y.2.done_).any mine)).map
    (fun y => x.1 * 16 + y.1))
  ((((queueLaunches s k).flatMap (fun x => x.2.outs.map (·.eq))) ++ loc).foldl insertNat []).length

/-- DETAIL of ST_ILLEGAL_STATE (R91): of a host queue in DRAINING or RESETTING, the engine queues holding its work. -/
def illegalDetail (s : State) (pkt : W512) : Nat :=
  if objClass pkt ≠ 1 then 0 else
  match (getQueue s (pktObj pkt)).st with
  | .draining | .resetting => heldEngines s (pktObj pkt)
  | _ => 0

/-- No row of the object's state table: ST_ILLEGAL_STATE. -/
def rejState (s : State) (q : Nat) (pkt : W512) : State := rej s q pkt stIllegalState (illegalDetail s pkt)

/-- Check 5 of R96 before the object's own table. The refusal of R452 while FROZEN stands here, after check 4 (log
entry 71). -/
def stateGate (s : State) (q : Nat) (pkt : W512) (k : State → State) : State :=
  if s.glb.frozen then rejState s q pkt
  else if q < 64 ∧ ((getPart s q).st = .halted ∨ (getPart s q).st = .resetting) then
    admReject s q pkt stIllegalState (pCode (getPart s q).st) (illegalDetail s pkt)
  else k s

def opNop (s : State) (q : Nat) (pkt : W512) : State :=
  match badField pkt [] [] with
  | some o => admReject s q pkt stBadParam 0xFF o
  | none => admReply s q pkt stOk 0xFF 0

/-- A partition's admin queue names something outside its share (check 3 of R96). -/
def outsideShare (s : State) (q : Nat) (pkt : W512) : Bool :=
  let o := pktObj pkt
  if 64 ≤ q then false else
  match objClass pkt with
  | 0 => o != q
  | 1 => decide (4096 ≤ o) || decide ((getQueue s o).st = .unused) || (getQueue s o).owner != q
  | 2 => decide (o < (getPart s q).gctxBase) || decide ((getPart s q).gctxBase + (getPart s q).gctxCount ≤ o)
  | 3 => if o / 2 ^ 30 = 0 then !flagInRange s q o else !dflagOk s q o
  | 4 => decide ((getPart s q).htabEntries ≤ o)
  | _ => false

/-- OBJECT names nothing of its class. -/
def objBad (pkt : W512) : Bool :=
  let o := pktObj pkt
  match objClass pkt with
  | 0 => decide (64 ≤ o)
  | 1 => decide (4096 ≤ o)
  | 2 => decide (1024 ≤ o)
  | 3 => o == 0 || !flagHandleOk o
  | 4 => decide (2 ^ 20 ≤ o)
  | _ => false

/-- The command names a flag of space 2 or 3 (R520). -/
def flagFar (pkt : W512) : Bool := objClass pkt == 3 && decide (2 ^ 31 ≤ pktObj pkt)

/-- DETAIL of QUERY (R95, R208). -/
def queryDetail (s : State) (q : Nat) (pkt : W512) : Nat :=
  let o := pktObj pkt
  match objClass pkt with
  | 1 => (getQueue s o).owner
  | 2 => let g := getGctx s o
    (if g.st = 2 then g.cur else 0) + put g.gens.length 16 + put (satN 28 (ctxPins s o)) 20
  | 3 => (flagOwner s (flagPart s q pkt) o).getD 0
  | _ => 0

def opQuery (s : State) (q : Nat) (pkt : W512) : State :=
  if 3 < pktB pkt 8 1 then admReject s q pkt stBadParam 0xFF 8
  else if flagFar pkt then rej s q pkt stUnsupported 0
  else if outsideShare s q pkt then rej s q pkt stDenied 4
  else if objBad pkt then rej s q pkt stBadParam 4
  else match badField pkt [(64, 8)] [] with
    | some o => rej s q pkt stBadParam o
    | none => admReply s q pkt stOk (objState s q pkt) (queryDetail s q pkt)

/-- Partitions that are not FREE. -/
def liveParts (s : State) : List (Nat × Part) := s.parts.filter (fun x => decide (x.2.st ≠ .free))

/-- Ranges [a, a + n) and [b, b + m) overlap; an empty one overlaps nothing (R461). -/
def overlaps (a n b m : Nat) : Bool := decide (0 < n) && decide (0 < m) && decide (a < b + m) && decide (b < a + n)

/-- The share that PART_CREATE asks for (R93). -/
def partOfPkt (pkt : W512) : Part :=
  { st := .maint, pasid := fld pkt 64 20, queueLimit := pktB pkt 12 2, engineShare := pktB pkt 14 1
    sluiceShare := pktB pkt 15 1, flagBase := fld pkt 128 16, flagCount := fld pkt 160 17, gctxBase := fld pkt 192 10
    gctxCount := fld pkt 208 11, htabEntries := fld pkt 224 21, htabBase := BitVec.ofNat 64 (pktB pkt 32 8)
    waitLimit := fld pkt 320 15, basinLimit := fld pkt 336 13 }

/-- The pool rule that a new partition breaks, as its resource code (R461). -/
def poolBreach (s : State) (x : Part) : Option Nat :=
  let l := (liveParts s).map (·.2)
  if 4096 < sumBy (·.queueLimit) l + x.queueLimit then some 1
  else if 256 < sumBy (·.engineShare) l + x.engineShare then some 2
  else if 256 < sumBy (·.sluiceShare) l + x.sluiceShare then some 3
  else if l.any (fun y => overlaps x.flagBase x.flagCount y.flagBase y.flagCount) then some 4
  else if l.any (fun y => overlaps x.gctxBase x.gctxCount y.gctxBase y.gctxCount) then some 5
  else if l.any (fun y => overlaps x.htabBase.toNat (x.htabEntries * 16) y.htabBase.toNat (y.htabEntries * 16)) then some 6
  else if 16384 < sumBy (·.waitLimit) l + x.waitLimit then some 7
  else if 4096 < sumBy (·.basinLimit) l + x.basinLimit then some 8
  else none

/-- Fields of PART_CREATE's PARAMS (R93). -/
def partFields : List (Nat × Nat) :=
  [(64, 20), (96, 16), (112, 8), (120, 8), (128, 16), (160, 17), (192, 10), (208, 11), (224, 21), (256, 64), (320, 15), (336, 13)]

/-- A partition leaves FREE with its shares (R102, R236): flags 0 and UNOWNED, window registers and accounting at reset. -/
def createPart (s : State) (p : Nat) (x : Part) : State :=
  let s := { s with
    parts := tput {} s.parts p x, seqs := tput {} s.seqs p {}, adms := tput {} s.adms p {}
    sched := { s.sched with figs := tput {} s.sched.figs p {} } }
  modWeir s fun w => { w with
    flags := w.flags.filter (fun f => !(decide (x.flagBase ≤ f.1) && decide (f.1 < x.flagBase + x.flagCount)))
    owners := w.owners.filter (fun f => !(decide (x.flagBase ≤ f.1) && decide (f.1 < x.flagBase + x.flagCount))) }

def opPartCreate (s : State) (q : Nat) (pkt : W512) : State :=
  let p := pktObj pkt
  let x := partOfPkt pkt
  let bad := [(decide (64 ≤ p), 4),
    ((liveParts s).any (fun y => y.1 != p && y.2.pasid == x.pasid), 8),
    (decide (x.queueLimit = 0) || decide (4096 < x.queueLimit), 12), (decide (x.engineShare = 0), 14),
    (decide (x.sluiceShare = 0), 15), (decide (65536 < x.flagBase + x.flagCount), 20),
    (decide (1024 < x.gctxBase + x.gctxCount), 26), (decide (2 ^ 20 < x.htabEntries), 28),
    (decide (x.htabBase.toNat % 4096 ≠ 0), 32), (decide (16384 < x.waitLimit), 40), (decide (4096 < x.basinLimit), 42)]
  match badField pkt partFields bad with
  | some o => rej s q pkt stBadParam o
  | none => stateGate s q pkt fun s =>
    if (getPart s p).st ≠ .free then rejState s q pkt
    else match poolBreach s x with
      | some r => rej s q pkt stNoResource r
      | none => admOk (createPart s p x) q pkt 0x11 0

/-- A command whose only operand is its OBJECT: checks 3 to 5, then its own table row. -/
def plainOp (s : State) (q : Nat) (pkt : W512) (k : State → State) : State :=
  if outsideShare s q pkt then rej s q pkt stDenied 4
  else if objBad pkt then rej s q pkt stBadParam 4
  else match badField pkt [] [] with
    | some o => rej s q pkt stBadParam o
    | none => stateGate s q pkt k

def opPartActivate (s : State) (q : Nat) (pkt : W512) : State :=
  plainOp s q pkt fun s =>
    let p := pktObj pkt
    if (getPart s p).st ≠ .maint then rejState s q pkt else
    let s := modPart s p fun x => { x with st := .active }
    let s := { s with attn := { s.attn with roots := s.attn.roots.filter (fun r => r.1 / 65536 != p) } }
    admOk (pstatSet s p 2) q pkt 0x12 0

/-- Queues that keep PART_MAINT from an ACTIVE partition (R102). -/
def busyQueues (s : State) (p : Nat) : Nat :=
  ((partQueues s p).filter (fun q => match (getQueue s q).st with
    | .enabled | .draining | .halted | .resetting => true
    | _ => false)).length

def opPartMaint (s : State) (q : Nat) (pkt : W512) : State :=
  plainOp s q pkt fun s =>
    let p := pktObj pkt
    let go := fun (s : State) => admOk (pstatSet (modPart s p fun x => { x with st := .maint }) p 1) q pkt 0x11 0
    match (getPart s p).st with
    | .active => if busyQueues s p = 0 then go s else rej s q pkt stBusy (busyQueues s p)
    | .halted => go s
    | _ => rejState s q pkt

def opPartHalt (s : State) (q : Nat) (pkt : W512) : State :=
  plainOp s q pkt fun s =>
    match (getPart s (pktObj pkt)).st with
    | .active | .maint => admOk (haltPart s (pktObj pkt) false 0) q pkt 0x13 0
    | _ => rejState s q pkt

/-- A partition reaches FREE (R102, R146, R331, R472, R476): its shares return, its cached entries go, its vectors clear. -/
def freePart (s : State) (p : Nat) : State :=
  let s := { s with
    parts := tput {} s.parts p {}, seqs := tput {} s.seqs p {}, adms := tput {} s.adms p {}
    hcache := staleFills { s.hcache with lines := s.hcache.lines.filter (fun x => x.1 / 2 ^ 20 != p) } fun k => k / 2 ^ 20 == p
    port := { s.port with reads := s.port.reads.filter (fun r => decide (r.kind ≠ .command p)) }
    iz := { s.iz with cache := s.iz.cache.filter (fun e => e.part != p) }
    attn := { s.attn with roots := s.attn.roots.filter (fun r => r.1 / 65536 != p) }
    outf := { s.outf with merges := s.outf.merges.filter (fun m => m.2.part != p || m.2.loop.isSome) }
    inlet := { s.inlet with
      holder := s.inlet.holder.filter (fun x => x.1 / 2 != p), credit := s.inlet.credit.filter (fun x => x.1 / 2 != p) } }
  (upTo 4).foldl (fun s n => clearVec s (4096 + 4 * p + n)) s

def opPartDestroy (s : State) (q : Nat) (pkt : W512) : State :=
  plainOp s q pkt fun s =>
    let p := pktObj pkt
    if (getPart s p).st ≠ .maint then rejState s q pkt else
    let n := (partQueues s p).length + (partCtxs s p).length
    if n ≠ 0 then rej s q pkt stBusy n else admOk (freePart s p) q pkt 0x10 0

/-- PART_RESET replies on reaching FREE (R100, R102). -/
def opPartReset (s : State) (q : Nat) (pkt : W512) : State :=
  plainOp s q pkt fun s =>
    match (getPart s (pktObj pkt)).st with
    | .maint | .active | .halted => enterPartReset s (pktObj pkt) false
    | _ => rejState s q pkt

/-- Reply to the commands of an opcode and object that are in flight on every admin queue; the audit entry counts the descriptors
that the command discarded (R113). -/
def replyAll (s : State) (op obj state lost : Nat) : State :=
  (s.adms.flatMap (fun (x : Nat × Adm) => (x.2.flight.filter (fun c => pktOp c.pkt == op && pktObj c.pkt == obj)).map
    (fun c => (x.1, c.pkt)))).foldl
      (fun s x => admReply (admAudit s x.1 x.2 false stOk state lost) x.1 x.2 stOk state 0) s

/-- A RESETTING partition whose queues are UNUSED and contexts FREE becomes FREE (R102, R472, R49). -/
def partitionFree (s : State) (p : Nat) : State :=
  if (getPart s p).st ≠ .resetting then s else
  let s := freeUnpinned s p
  if ¬ (partQueues s p).isEmpty ∨ ¬ (partCtxs s p).isEmpty then s else
  let flr := (getPart s p).flr
  let s := replyAll (freePart s p) 0x15 p 0x10 (getPart s p).lost
  if flr then modGlb s fun g => { g with flr := without g.flr p, flrDone := g.flrDone ++ [p] } else s

/-- Fields of Q_CREATE and Q_MODIFY (R94). -/
def queueFields : List (Nat × Nat) :=
  [(64, 64), (128, 8), (136, 3), (144, 6), (152, 8), (160, 16), (176, 16), (192, 20), (224, 20)]

/-- Ranges of the scheduling fields (R94). -/
def queueRanges (pkt : W512) : List (Bool × Nat) :=
  [(decide (pktB pkt 19 1 = 0), 19), (decide (pktB pkt 20 2 = 0) || decide (256 < pktB pkt 20 2), 20),
    (decide (pktB pkt 22 2 = 0), 22), (decide (fld pkt 192 20 = 0), 24), (decide (fld pkt 224 20 = 0), 28)]

/-- Replace a queue's scheduling fields (R94, R118). -/
def setSched (pkt : W512) (x : Queue) : Queue :=
  { x with
    be := bitOf pkt 136, drainIrq := bitOf pkt 137, weight := pktB pkt 19 1, burst := pktB pkt 20 2
    timeslice := pktB pkt 22 2, defTmo := fld pkt 192 20, drainTmo := fld pkt 224 20 }

def opQCreate (s : State) (q : Nat) (pkt : W512) : State :=
  let k := pktObj pkt
  let owner := fld pkt 144 6
  let bad := [(decide (4096 ≤ k), 4), (decide (pktB pkt 8 8 % 64 ≠ 0), 8),
    (decide (pktB pkt 16 1 < 4) || decide (16 < pktB pkt 16 1), 16), (decide ((getPart s owner).st = .free), 18)]
  match badField pkt queueFields (bad ++ queueRanges pkt) with
  | some o => rej s q pkt stBadParam o
  | none => stateGate s q pkt fun s =>
    if (getQueue s k).st ≠ .unused then rejState s q pkt
    else if (getPart s owner).queueLimit ≤ (partQueues s owner).length then rej s q pkt stNoResource 1
    else
      let x : Queue := setSched pkt {
        st := .created, owner := owner, ringBase := BitVec.ofNat 64 (pktB pkt 8 8), log2 := pktB pkt 16 1
        ringLoc := bitOf pkt 138, moved := (getQueue s k).moved }
      admOk { s with queues := tput {} s.queues k x } q pkt 0x01 0

def opQEnable (s : State) (q : Nat) (pkt : W512) : State :=
  plainOp s q pkt fun s =>
    let k := pktObj pkt
    match (getQueue s k).st with
    | .created | .idle => admOk (modQueue s k fun x => { x with st := .enabled }) q pkt 0x02 0
    | _ => rejState s q pkt

def opQDisable (s : State) (q : Nat) (pkt : W512) : State :=
  plainOp s q pkt fun s =>
    let k := pktObj pkt
    match (getQueue s k).st with
    | .created => admOk (enterIdle s k) q pkt 0x04 0
    | .enabled => if outstanding s k = 0 then admOk (enterIdle s k) q pkt 0x04 0
      else admOk (modQueue s k fun x => { x with st := .draining, drainLate := false }) q pkt 0x03 0
    | _ => rejState s q pkt

/-- Q_DESTROY (R103, R113, R127): the audit entry's DETAIL counts the descriptors discarded. -/
def opQDestroy (s : State) (q : Nat) (pkt : W512) : State :=
  plainOp s q pkt fun s =>
    let k := pktObj pkt
    match (getQueue s k).st with
    | .idle =>
      let n := unfetched (getQueue s k)
      let s := enterUnused s k
      admReply (admAudit s q pkt false stOk 0x00 n) q pkt stOk 0x00 0
    | _ => rejState s q pkt

def opQReset (s : State) (q : Nat) (pkt : W512) : State :=
  plainOp s q pkt fun s =>
    let k := pktObj pkt
    match (getQueue s k).st with
    | .enabled | .draining | .halted => admOk (enterResetting s k false) q pkt 0x06 0
    | _ => rejState s q pkt

def opQModify (s : State) (q : Nat) (pkt : W512) : State :=
  if outsideShare s q pkt then rej s q pkt stDenied 4
  else match badField pkt queueFields ((objBad pkt, 4) :: queueRanges pkt) with
    | some o => rej s q pkt stBadParam o
    | none => stateGate s q pkt fun s =>
      let k := pktObj pkt
      match (getQueue s k).st with
      | .created | .idle | .enabled => admOk (modQueue s k (setSched pkt)) q pkt (qCode (getQueue s k).st) 0
      | _ => rejState s q pkt

/-- The partition whose range holds a graph context (R186). -/
def gctxOwner (s : State) (c : Nat) : Option Nat :=
  ((liveParts s).find? (fun x => decide (x.2.gctxBase ≤ c) && decide (c < x.2.gctxBase + x.2.gctxCount))).map (·.1)

/-- Checks 3 to 5 of G_LOAD and G_PATCH (R95, R96), the last as far as it is theirs alike. -/
def imageOp (s : State) (q : Nat) (pkt : W512) (k : State → State) : State :=
  if outsideShare s q pkt then rej s q pkt stDenied 4
  else
    let n := pktB pkt 16 4
    let bad := [(objBad pkt, 4), (decide (pktB pkt 8 8 % 64 ≠ 0), 8), (decide (n < 64) || decide (2 ^ 24 < n), 16)]
    match badField pkt [(64, 64), (128, 32)] bad with
    | some o => rej s q pkt stBadParam o
    | none => stateGate s q pkt k

/-- G_LOAD joins Iznum's queue (R104, R188, R206, R281, R324). A context in no partition's range, which only the manager can
name, has no arena: resource 0x9 (log entry 81). -/
def opGLoad (s : State) (q : Nat) (pkt : W512) : State :=
  imageOp s q pkt fun s =>
    let c := pktObj pkt
    if (getGctx s c).st ≠ 0 then rejState s q pkt
    else match gctxOwner s c with
      | none => rej s q pkt stNoResource 9
      | some p =>
        if s.save.slots = 0 ∨ (getArena s p).size = 0 then rej s q pkt stNoResource 9
        else
          let s := modGctx s c fun g => { g with st := 1, owner := p }
          { s with iz := { s.iz with queue := s.iz.queue ++ [{ q := q, pkt := pkt, part := p, gctx := c, patch := false }] } }

/-- G_PATCH joins Iznum's queue, unless four generations are live (R104, R203, R324). -/
def opGPatch (s : State) (q : Nat) (pkt : W512) : State :=
  imageOp s q pkt fun s =>
    let c := pktObj pkt
    if (getGctx s c).st ≠ 2 then rejState s q pkt
    else if 4 ≤ (getGctx s c).gens.length then rej s q pkt stGenLimit 4
    else
      let p := (getGctx s c).owner
      { s with iz := { s.iz with queue := s.iz.queue ++ [{ q := q, pkt := pkt, part := p, gctx := c, patch := true }] } }

def opGUnload (s : State) (q : Nat) (pkt : W512) : State :=
  plainOp s q pkt fun s =>
    let c := pktObj pkt
    if (getGctx s c).st ≠ 2 then rejState s q pkt
    else if ctxPins s c ≠ 0 then rej s q pkt stBusy (ctxPins s c)
    else admOk (freeGctx s c) q pkt 0x20 0

/-- Owned flags of space 1 in the block (R169): every handle of space 1 is 2^30 or more. -/
def ownedMem (s : State) : Nat := (s.weir.owners.filter (fun x => decide (2 ^ 30 ≤ x.1))).length

/-- Write a flag's whole word as by SET (R105). -/
def setFlagWord (s : State) (p h x : Nat) : State :=
  let g : Sig := { src := 500, part := p, handle := h, op := 2, x := x, launch := 0 }
  if h / 2 ^ 30 = 0 then applyOnChip s g else startSignal s g

def opFCreate (s : State) (q : Nat) (pkt : W512) : State :=
  let h := pktObj pkt
  let k := fld pkt 128 12
  let o := getQueue s k
  if flagFar pkt then rej s q pkt stUnsupported 0
  else if o.st = .unused ∨ (q < 64 ∧ o.owner ≠ q) then rej s q pkt stDenied 16
  else if (if h / 2 ^ 30 = 0 then !flagInRange s o.owner h else !dflagOk s o.owner h) then rej s q pkt stDenied 4
  else match badField pkt [(64, 62), (128, 12)] [(objBad pkt, 4)] with
    | some x => rej s q pkt stBadParam (if x = 15 then 8 else x)
    | none => stateGate s q pkt fun s =>
      if (flagOwner s o.owner h).isSome then rejState s q pkt
      else if h / 2 ^ 30 = 1 ∧ 4096 ≤ ownedMem s then rej s q pkt stNoResource 4
      else
        let s := modWeir s fun w => { w with owners := tput 0 w.owners (ownKey o.owner h) (k + 1) }
        admOk (setFlagWord s o.owner h (fld pkt 64 62)) q pkt 0x31 0

/-- Waits armed on a flag (R105): the entries of launches held at the Weir, met or not, which free at release (R169), the open
ones of graph WAIT nodes, and other chips'. Waits at the agents, and SPINs, do not count (R170; log entry 81). -/
def armedOn (s : State) (p h : Nat) : Nat :=
  sumBy (fun (x : Nat × Launch) =>
    if h / 2 ^ 30 = 0 ∨ x.2.part = p then
      (x.2.waits.filter (fun e => !e.dep && decide (e.handle = h) &&
        (decide (x.2.stage = .weir) || (decide (x.2.stage = .running) && !e.met)))).length
    else 0) s.launches + (s.weir.remote.filter (fun r => h / 2 ^ 30 == 0 && r.index == h)).length

def opFDestroy (s : State) (q : Nat) (pkt : W512) : State :=
  if flagFar pkt then rej s q pkt stUnsupported 0 else
  plainOp s q pkt fun s =>
    let h := pktObj pkt
    let p := flagPart s q pkt
    if (flagOwner s p h).isNone then rejState s q pkt
    else if armedOn s p h ≠ 0 then rej s q pkt stBusy (armedOn s p h)
    else admOk (modWeir s fun w => { w with owners := tput 0 w.owners (ownKey p h) 0 }) q pkt 0x30 0

/-- H_INVAL (R95, R144, R146). -/
def opHInval (s : State) (q : Nat) (pkt : W512) : State :=
  if outsideShare s q pkt then rej s q pkt stDenied 4 else
  let n := fld pkt 64 21
  let pf := fld pkt 96 6
  let bad := [(objBad pkt, 4), (decide (n = 0) || decide (2 ^ 20 < n), 8),
    (if q < 64 then decide (pf ≠ 0) else decide ((getPart s pf).st = .free), 12)]
  match badField pkt [(64, 21), (96, 6)] bad with
  | some o => rej s q pkt stBadParam o
  | none => stateGate s q pkt fun s =>
    let p := if q < 64 then q else pf
    let lo := p * 2 ^ 20 + pktObj pkt
    let hit := fun (k : Nat) => k / 2 ^ 20 == p && decide (lo ≤ k) && decide (k < lo + n)
    let s := { s with hcache := staleFills { s.hcache with lines := s.hcache.lines.filter (fun x => !hit x.1) } hit }
    admOk s q pkt 0xFF 0

end Sys2Proof.Machine
end

