-- ==== Sys2Proof/Machine/ServiceOps.lean ====
section
/-! DEFINITION. Mode changes, drains, re-admission, image loads, ageing, the audit log's registers and its spill
(R276–R278, R478–R503). -/

namespace Sys2Proof.Machine

/-- An item of a mode change is well formed (R484): the byte in it that is not, counted from the item. -/
def itemBad (i : BitVec 128) : Option Nat :=
  let k := itKind i
  let t := itTarget i
  let v := itValue i
  if k = 0 ∨ 5 < k then some 0
  else if fld i 8 8 ≠ 0 then some 1
  else if fld i 32 32 ≠ 0 then some 4
  else if k = 1 then (if t ≠ 0 then some 2 else if v < 2000 ∨ 2000000 < v then some 8 else none)
  else if v ≠ 0 then some 8
  else if k = 2 then (if (0x300 ≤ t ∧ t ≤ 0x307) ∨ (0x200 ≤ t ∧ t < 0x240) then none else some 2)
  else if k = 5 then (if t < 64 ∨ t = 0xFFFF then none else some 2)
  else if t = 0xFFFF then none else some 2

/-- An item switches the bank of a core (R484). -/
def itemCore (i : BitVec 128) (core : Nat) : Bool :=
  match itKind i with
  | 2 => itTarget i == core
  | 3 => decide (core < 0x300)
  | 4 => decide (0x300 ≤ core) && decide (core ≤ 0x306)
  | _ => false

/-- Two items touch one core or one agent (R485): two periods, two banks of one core, two recalibrations of one agent. -/
def itemsClash (i j : BitVec 128) : Bool :=
  (itKind i == 1 && itKind j == 1)
    || (upTo 64).any (fun a => itemCore i (0x200 + a) && itemCore j (0x200 + a))
    || (upTo 8).any (fun n => itemCore i (0x300 + n) && itemCore j (0x300 + n))
    || (itKind i == 5 && itKind j == 5 && (itTarget i == itTarget j || itTarget i == 0xFFFF || itTarget j == 0xFFFF))

def itemAt (pkt : W512) (k : Nat) : BitVec 128 := BitVec.ofNat 128 (fld pkt (128 + 128 * k) 128)

/-- The first clash among the items, as the later item's number. -/
def clashAt (its : List (BitVec 128)) : Option Nat :=
  ((upTo its.length).filter (fun j => (upTo j).any (fun i =>
    match its[i]?, its[j]? with
    | some a, some b => itemsClash a b
    | _, _ => false))).head?

/-- Agents an item names by number (R485). -/
def itemNames (i : BitVec 128) : Option Nat :=
  if itKind i = 2 ∧ itTarget i < 0x300 then some (itTarget i - 0x200)
  else if itKind i = 5 ∧ itTarget i ≠ 0xFFFF then some (itTarget i)
  else none

/-- Time from now to the deadline of a mode change, in steps of 10 ns, none when it has passed (R486). -/
def deadlineLeft (s : State) (tick : Nat) : Nat :=
  (s.sched.period - s.sched.elapsed) + (tick - s.sched.tickNo - 1) * s.sched.period - s.svc.lead * 100

/-- The check of R485 that gives ST_BAD_PARAM, as its DETAIL. -/
def stageBad (s : State) (pkt : W512) : Option Nat :=
  let tick := pktB pkt 8 6
  let n := pktB pkt 14 1
  let its := (upTo (min n 3)).map (itemAt pkt)
  let bad := ((upTo its.length).filterMap (fun k => (its[k]?).bind (fun i => (itemBad i).map (fun o => 16 + 16 * k + o)))).head?
  if n = 0 ∨ 3 < n then some 14
  else if pktB pkt 15 1 ≠ 0 then some 15
  else match bad with
    | some o => some o
    | none => match ((upTo 3).filter (fun k => n ≤ k && decide (itemAt pkt k ≠ 0))).head? with
      | some k => some (16 + 16 * k)
      | none => match clashAt its with
        | some k => some (16 + 16 * k + 2)
        | none =>
          if tick < s.sched.tickNo + 2 ∨ s.sched.tickNo + 65535 < tick then some 8
          else if deadlineLeft s tick < 200 then some 8 else none

/-- Audit entry of a mode change (R494). -/
def modeAudit (s : State) (code : Nat) : State :=
  audit s 7 Config.fnNone 7 code s.svc.mc.number s.svc.mc.tick

/-- Root cores that an item of the mode change switches. -/
def mcCores (s : State) : List Nat :=
  ((upTo 8).map (0x300 + ·)).filter (fun c => s.svc.mc.its.any (fun i => itemCore i c))

/-- A context of a Root core, saved or not, has its PC in instruction memory, or core 7 is not idle (R278). A HELD context whose
node has not started has no PC. -/
def coreBusyImem (s : State) (core : Nat) : Bool :=
  if core = 0x307 then s.iz.busy.isSome
  else s.ctxs.any (fun x => x.2.core == core && decide (x.2.pc < 0x20000) && (decide (x.2.st ≠ .held) || x.2.ready))

/-- Images of the two banks have the same COMPAT (R278). -/
def sameCompat (c : Core) : Bool := bankCompat (activeBank c) == bankCompat (inactiveBank c)

/-- A Root core acknowledges staging (R278). -/
def coreAcks (s : State) (core : Nat) : Bool :=
  sameCompat (getCore s core) || !coreBusyImem s core

/-- Stage a mode change (R485–R487): audit entry, stage messages, Root cores staged; a core with no valid image refuses. -/
def stageMode (s : State) (pkt : W512) : State :=
  let n := pktB pkt 14 1
  let s := modSvc s fun v => { v with mc := {
    state := 1, result := v.mc.result, items := n, number := pktObj pkt, tick := pktB pkt 8 6
    its := (upTo n).map (itemAt pkt) } }
  let s := mcTell (modeAudit s 1) 1
  let s := (mcCores s).foldl (fun s c => modCore s c fun k => { k with staged := true }) s
  match (mcCores s).find? (fun c => !bankValid (inactiveBank (getCore s c)) (coreKind c)) with
  | some c => mcAbort s 3 0 (2 ^ (c - 0x300))
  | none => s

/-- A mode change is STAGING or COMMITTED. -/
def mcBusy (s : State) : Bool := decide (s.svc.mc.state ≠ 0)

/-- MODE_STAGE (R484, R485). The refusal of R452 while FROZEN stands before check 4 (log entry 81). -/
def opModeStage (s : State) (q : Nat) (pkt : W512) : State :=
  let illegal := fun (s : State) => admReject s q pkt stIllegalState 0xFF 0
  if s.glb.frozen then illegal s else
  match stageBad s pkt with
  | some o => admReject s q pkt stBadParam 0xFF o
  | none =>
    let its := (upTo (pktB pkt 14 1)).map (itemAt pkt)
    if mcBusy s ∨ ¬ s.svc.draining.isEmpty ∨ (s.svc.mode = 0 ∧ its.any (fun i => itKind i != 1))
        ∨ its.any (fun i => match itemNames i with
          | some a => !agtUp s a
          | none => false) then illegal s
    else stageMode (admOk s q pkt 0xFF 0) pkt

/-- MODE_ABORT (R490). -/
def opModeAbort (s : State) (q : Nat) (pkt : W512) : State :=
  match badField pkt [] [] with
  | some o => admReject s q pkt stBadParam 0xFF o
  | none =>
    if s.svc.mc.state = 1 ∧ s.svc.mc.number = pktObj pkt ∧ ¬ s.glb.frozen then mcAbort (admOk s q pkt 0xFF 0) 4 0 0
    else admReject s q pkt stIllegalState 0xFF 0

/-- An agent has acknowledged or refuses: what R278 and R486 let it answer now; none when it must wait, as a core with another
COMPAT does until it is idle. -/
def agentAnswer (g : Agent) (recalOk : Bool) (latency : Nat) : Option (Nat × Nat × Nat) :=
  let its := (upTo g.mode.items).map (fun k => BitVec.ofNat 128 (fld g.mode.its (128 * k) 128))
  let bank := its.any (fun i => itKind i == 2 || itKind i == 3)
  let recal := its.any (fun i => itKind i == 5)
  if bank ∧ ¬ bankValid (inactiveBank g.core) 3 then some (2, 1, 0)
  else if recal ∧ ¬ recalOk then some (2, 2, if 140 < latency then 3 else 4)
  else if bank ∧ ¬ sameCompat g.core ∧ g.core.run.isSome then none
  else some (1, 0, 0)

/-- A STAGE message arrives at an agent, or an agent that has staged comes to answer (R486, R488). -/
def execStage (a : Nat) (recalOk : Bool) (latency : Nat) (s : State) : Host.Outcome State Fault Refusal :=
  liveAgent s a fun s =>
    let s := match downHead s a with
      | some (.modeStage 1 n num tick its) => modAgent (takeDown s a) a fun g => { g with
          mode := { staged := true, number := num, tick := tick, its := its, items := n }
          core := { g.core with staged := true } }
      | _ => s
    let g := getAgent s a
    if ¬ g.mode.staged ∨ g.mode.acked then s else
    match agentAnswer g recalOk latency with
    | none => s
    | some (r, c, e) =>
      let s := modAgent s a fun g => { g with mode := { g.mode with acked := true, latency := latency } }
      let s := if r = 1 then modSvc s fun v => { v with recal := kput v.recal a latency } else s
      sendUp s a (.modeAck r c e g.mode.number)

/-- A MODE_ACK reaches the Root (R487, R488). -/
def execModeAck (a : Nat) (s : State) : Host.Outcome State Fault Refusal :=
  liveRoot s fun s => match upHead s a with
    | some (.modeAck r _ _ num) =>
      let s := takeUp s a
      if s.svc.mc.state ≠ 1 ∨ s.svc.mc.number ≠ num then s
      else if r = 1 then modSvc s fun v => { v with mc := { v.mc with acked := insertNat v.mc.acked a } }
      else mcAbort s 3 (BitVec.ofNat 64 (2 ^ a)) 0
    | _ => s

/-- LEAD µs before the switch tick: commit, or abort and name the laggards (R486, R487). -/
def execModeDeadline (s : State) : Host.Outcome State Fault Refusal :=
  liveRoot s fun s =>
    if s.svc.mc.state ≠ 1 then s else
    let lag := (mcAgents s).filter (fun a => !s.svc.mc.acked.contains a)
    let rlag := (mcCores s).filter (fun c => !coreAcks s c)
    if lag.isEmpty ∧ rlag.isEmpty then
      mcTell (modeAudit (modSvc s fun v => { v with mc := { v.mc with state := 2 } }) 2) 2
    else mcAbort s 2 (BitVec.ofNat 64 (sumBy (fun a => 2 ^ a) lag)) (sumBy (fun c => 2 ^ (c - 0x300)) rlag)

/-- Toggle the active bank (R278). -/
def toggleBank (c : Core) : Core := { c with bankB := !c.bankB, staged := false, wroteInactive := false }

/-- What the Root applies at the switch tick (R489). -/
def modeApply (s : State) : State :=
  let its := s.svc.mc.its
  let s := its.foldl (fun s i => if itKind i = 1 then modSched s fun c => { c with period := itValue i } else s) s
  let other := decide (bankVersion (activeBank (getCore s 0x307)) ≠ bankVersion (inactiveBank (getCore s 0x307)))
  let s := if (mcCores s).contains 0x307 ∧ other then { s with iz := { s.iz with cache := [] } } else s
  let s := (mcCores s).foldl (fun s c => modCore s c toggleBank) s
  let rc := (mcAgents s).filter (fun a => its.any (fun i => itKind i == 5 && itAgent i a))
  rc.foldl (fun s a =>
    let n := tget 0 s.svc.recal a % 256
    let s := setAgt s a (setFld (setFld (agtEntry s a) 8 8 n) 16 8 n)
    rootWrite s a 0x7200 3 (calWord n n) 1) s

/-- The Root at the switch tick (R487, R489). -/
def modeSwitch (s : State) : State :=
  if s.svc.mc.state = 2 ∧ s.svc.mc.tick ≤ s.sched.tickNo then modeEnd (modeApply s) 1 false 0 0 else s

def execModeSwitch (s : State) : Host.Outcome State Fault Refusal := liveRoot s modeSwitch

/-- An agent acts on a tick while it has staged a change (R489): it applies its items, or discards them. -/
def agentSwitch (g : Agent) (no : Nat) : Agent :=
  if ¬ g.mode.staged ∨ no < g.mode.tick then g
  else if g.mode.committed ∧ no = g.mode.tick then
    let its := (upTo g.mode.items).map (fun k => BitVec.ofNat 128 (fld g.mode.its (128 * k) 128))
    let g1 := if its.any (fun i => itKind i == 2 || itKind i == 3) then { g with core := toggleBank g.core }
      else { g with core := { g.core with staged := false } }
    { g1 with mode := {}, tickAt := if its.any (fun i => itKind i == 5) then none else g1.tickAt }
  else { g with mode := {}, core := { g.core with staged := false } }

/-- AGENT_DRAIN (R491, R493). -/
def opAgentDrain (s : State) (q : Nat) (pkt : W512) : State :=
  let a := pktObj pkt
  match badField pkt [] [(decide (64 ≤ a), 4)] with
  | some o => admReject s q pkt stBadParam 0xFF o
  | none =>
    if s.glb.frozen ∨ s.svc.mode = 0 ∨ a = 0 ∨ ¬ agtUp s a ∨ (kget s.svc.draining a).isSome ∨ mcBusy s then
      admReject s q pkt stIllegalState 0xFF 0
    else
      let s := modSvc s fun v => { v with draining := kput v.draining a { q := q, tag := pktTag pkt } }
      audit s (admOrigin q) q 0x0A 1 a 0

/-- A launch names an agent by its charges or its macro-ops. -/
def namesAgent (l : Launch) (a : Nat) : Bool := l.charge.any (fun c => c.1 / 16 == a) || l.outs.any (fun o => o.eq / 16 == a)

/-- Nothing is left on a draining agent (R491). -/
def drainClear (s : State) (a : Nat) : Bool :=
  let g := getAgent s a
  !s.launches.any (fun x => isAdmitted x.2 && namesAgent x.2 a)
    && g.eqs.all (fun e => e.2.lc.isEmpty && e.2.be.isEmpty && e.2.done_.isEmpty) && g.tasks.isEmpty

/-- The drain ends (R491): AGENT_RESET, REASON 0x7, the reply. -/
def drainFinish (s : State) (a : Nat) (d : Drain) : State :=
  let s := sendDown s a (.agentReset 4)
  let s := setMeas (agtMark s a false true 7) a 0
  let s := modSvc s fun v => { v with draining := kdel v.draining a }
  let s := relayClear (audit s 9 Config.fnNone 0x0A 2 a 7) a
  match ((getAdm s d.q).flight.find? (fun c => pktTag c.pkt == d.tag && pktOp c.pkt == 0x52)).map (·.pkt) with
  | some p => admOk s d.q p 0xFF d.failed
  | none => s

def execDrainEnd (a : Nat) (s : State) : Host.Outcome State Fault Refusal :=
  liveRoot s fun s => match kget s.svc.draining a with
    | some d => if drainClear s a then drainFinish s a d else s
    | none => s

/-- The drain runs past DRAIN_TMO (R491): what is left on the agent is aborted; its launches are counted. -/
def execDrainTmoExpiry (a : Nat) (s : State) : Host.Outcome State Fault Refusal :=
  liveRoot s fun s => match kget s.svc.draining a with
    | none => s
    | some d =>
      if d.late then s else
      let ls := workOn s a
      let n := ls.length
      let s := modSvc s fun v => { v with draining := kput v.draining a { d with late := true, failed := n } }
      loseTasks (ls.foldl (fun s id => sendAbort s a id) (stewAbort s (some a))) a

/-- AGENT_READMIT (R492): the agent is reset and brought up again. -/
def opAgentReadmit (s : State) (q : Nat) (pkt : W512) (image : List Byte) : State :=
  let a := pktObj pkt
  let addr := pktB pkt 8 8
  let n := pktB pkt 16 4
  let bad := [(decide (64 ≤ a), 4), (decide (addr % 64 ≠ 0), 8),
    (decide (n ≠ 0) && (decide (n < 64) || decide (131072 < n) || decide (n % 64 ≠ 0)), 16)]
  match badField pkt [(64, 64), (128, 32)] bad with
  | some o => admReject s q pkt stBadParam 0xFF o
  | none =>
    if s.glb.frozen ∨ s.svc.mode = 0 ∨ s.par.numAgents ≤ a ∨ agtUp s a ∨ (kget s.svc.draining a).isSome ∨ mcBusy s then
      admReject s q pkt stIllegalState 0xFF 0
    else
      let s := sendDown s a (.agentReset 5)
      let s := modSvc s fun v => { v with
        readmit := kput v.readmit a { q := q, tag := pktTag pkt }
        readmitImage := if n = 0 then kdel v.readmitImage a else kput v.readmitImage a (image.take n) }
      modGlb s fun g => { g with bring := kput g.bring a { step := 1, readmit := true } }

/-- IMEM_LOAD (R277): a Root core's bank is written at once, an agent's by REG_WRITE messages. -/
def opImemLoad (s : State) (q : Nat) (pkt : W512) (image : List Byte) : State :=
  let c := pktObj pkt
  let n := pktB pkt 16 4
  let known := (0x300 ≤ c ∧ c ≤ 0x307) ∨ (0x200 ≤ c ∧ c < 0x240)
  let bad := [(decide (¬ known), 4), (decide (pktB pkt 8 8 % 64 ≠ 0), 8),
    (decide (n < 64) || decide (131072 < n) || decide (n % 64 ≠ 0), 16)]
  let illegal := fun (s : State) => admReject s q pkt stIllegalState 0xFF 0
  match badField pkt [(64, 64), (128, 32)] bad with
  | some o => admReject s q pkt stBadParam 0xFF o
  | none =>
    if s.glb.frozen ∨ (c < 0x300 ∧ ¬ agtUp s (c - 0x200)) then illegal s
    else match imgBad image (coreKind c) n with
      | some o => admReject s q pkt stBadParam 0xFF o
      | none =>
        if (getCore s c).staged then illegal s
        else if c < 0x300 then
          imemSend (modSvc s fun v => { v with imem := kput v.imem (c - 0x200) {
            q := q, tag := pktTag pkt, bankB := !(getCore s c).bankB, image := image.take n } }) (c - 0x200)
        else
          let w := imgWords 0 (image.take n)
          let bank := !(getCore s c).bankB
          let s := modCore s c fun k => setInactive k w
          admOk s q pkt 0xFF (bankCompat w + put (bankVersion w) 16 + put (b2n bank) 32)

/-- Set bits of SVC_AGESTAT; a bit that becomes 1 raises manager vector 10 (R502). -/
def ageSet (s : State) (bit : Nat) : State :=
  let was := s.svc.ageBits.testBit bit
  let s := modSvc s fun v => { v with ageBits := setBit v.ageBits bit }
  if was then s else reqVec s 4362

/-- Level a die stands at (R483). -/
def dieLevel (s : State) (d : Nat) : Nat := tget 0 s.svc.dieLevel d
/-- The margin re-plan runs (R478). -/
def replanOn (s : State) : Bool := decide (s.svc.mode ≠ 1)

/-- Events of one source of an evaluation (R482); source 64 is the Root. -/
def ageEvents (s : State) (src : Nat) (w : W32) : State :=
  let drift := fld w 0 12
  let slack := fld w 12 8
  let ag := if src < 64 then some src else none
  let above := decide (s.svc.driftWarn ≤ drift)
  let s := if above ∧ ¬ s.svc.wasAbove.contains src then ageSet (raise s eAgeDrift none ag) 21 else s
  let s := modSvc s fun v => { v with wasAbove := if above then insertNat v.wasAbove src else without v.wasAbove src }
  let d := if src < 64 then src else 0
  if s.svc.driftLimit ≤ drift ∨ (slack < s.svc.slackMin ∧ (s.svc.levelMax ≤ dieLevel s d ∨ ¬ replanOn s)) then
    ageSet (raise s eAgeLimit none ag) 22
  else s

/-- Step 1 of the re-plan for one source (R483). -/
def replanDie (s : State) (src : Nat) (w : W32) : State :=
  let d := if src < 64 then src else 0
  let lv := dieLevel s d
  if fld w 12 8 < s.svc.slackMin ∧ lv < s.svc.levelMax ∧ (kget s.svc.pmOut d).isNone then
    let s := modSvc s fun v => { v with pmOut := kput v.pmOut d (lv + 1) }
    ageSet (audit s 6 Config.fnNone 8 2 d (lv + 1)) 20
  else s

/-- Step 2 of the re-plan (R483). -/
def replanCeil (s : State) : State :=
  let c := max s.svc.ceilMin (s.svc.ceilBase - s.svc.driftMax * s.svc.gain / 256)
  if c = s.svc.lastCeil then s else
  let s := modSvc s fun v => { v with lastCeil := c }
  let s := modSched s fun k => { k with fillNext := some (c, true) }
  ageSet (audit s 6 Config.fnNone 8 1 0 c) 19

/-- Source with the highest DRIFT (R481). -/
def maxDrift (l : List (Nat × W32)) : Option (Nat × Nat) :=
  l.foldl (fun b x => match b with
    | none => some (x.1, fld x.2 0 12)
    | some y => if y.2 < fld x.2 0 12 then some (x.1, fld x.2 0 12) else some y) none

/-- An ageing evaluation with the monitors' readings (R481–R483); 64 stands for the Root's own. -/
def execAgeEvaluation (readings : List (Nat × W32)) (s : State) : Host.Outcome State Fault Refusal :=
  liveRoot s fun s =>
    if ¬ isReady s ∨ s.sched.tickNo % max 1 s.svc.interval ≠ 0 then s else
    let s := readings.foldl (fun s x => if x.1 = 64 then modSvc s fun v => { v with ageRoot := x.2 }
      else if agtUp s x.1 then modAgent s x.1 fun g => { g with age := x.2 } else s) s
    let l := readings.filter (fun x => bitOf x.2 20 && (x.1 == 64 || (decide (x.1 < 64) && agtUp s x.1)))
    let s := match maxDrift l with
      | none => s
      | some (src, d) => modSvc s fun v => { v with
        driftMax := d, driftAgent := if src < 64 then src else 0, driftRoot := decide (src = 64) }
    let s := l.foldl (fun s x => ageEvents s x.1 x.2) s
    if replanOn s then replanCeil (l.foldl (fun s x => replanDie s x.1 x.2) s) else s

/-- pm_done for a die, with the clock measured then (R57, R83, R483). -/
def execPmDone (die mhz : Nat) (s : State) : Host.Outcome State Fault Refusal :=
  liveRoot s fun s =>
    let s := match kget s.svc.pmOut die with
      | some lv => modSvc s fun v => { v with dieLevel := tput 0 v.dieLevel die lv, pmOut := kdel v.pmOut die }
      | none => s
    let s := audit s 10 Config.fnNone 8 3 die (dieLevel s die)
    let s := if die = 0 then modGlb s fun g => { g with rootMhz := mhz % 4096 } else s
    if agtUp s die then modSched s fun c => { c with measNext := kput c.measNext die mhz } else s

/-- Entries of the spill ring (R499). -/
def ringSize (s : State) : Nat := 2 ^ s.log.ringLog2
def ringUsed (s : State) : Nat := (s.log.tail + ringSize s - s.log.head % ringSize s) % ringSize s

/-- The log issues a burst to its ring (R499). -/
def execLogSpillWrite (s : State) : Host.Outcome State Fault Refusal :=
  liveRoot s fun s =>
    let n := min 32 (min s.log.entries.length (min (ringSize s - s.log.tail % ringSize s) (ringSize s - 1 - ringUsed s)))
    if ¬ isReady s ∨ ¬ s.log.spill ∨ s.log.inflight ≠ 0 ∨ n = 0 then s else
    let data := pack ((s.log.entries.take n).map (fun e => (256, e.toNat)))
    let (_, s) := mgrWrite s Config.fnManager (s.log.ringBase.toNat + s.log.tail * 32) (32 * n) data (.spill n)
    modLog s fun l => { l with inflight := n }

/-- A spill write has its response (R498–R500); a fault loses its entries. -/
def spillDone (s : State) (txn n : Nat) (ok : Bool) : State :=
  let addr := ((s.port.writes.find? (fun w => w.txn == txn)).map (·.addr)).getD 0
  let s := mgrDone s txn
  let s := modLog s fun l => { l with entries := l.entries.drop n, inflight := 0 }
  if ok then
    let s := modLog s fun l => { l with tail := (l.tail + n) % 2 ^ l.ringLog2 }
    vecsRelease (if s.log.thresh ≤ ringUsed s then reqVec s 4360 else s) txn
  else
    let first := !s.log.spillFault
    let s := modLog s fun l => { l with lost := satN 32 (l.lost + n), spillFault := true }
    let s := raiseOn s eHostWriteFault none none [(.addr, addr)]
    vecsRelease (if first then reqVec s 4360 else s) txn

def execLogSpillResponse (ok : Bool) (s : State) : Host.Outcome State Fault Refusal :=
  liveRoot s fun s => match s.port.writes.find? (fun w => match w.kind with
      | .spill _ => true
      | _ => false) with
    | some w => match w.kind with
      | .spill n => spillDone s w.txn n ok
      | _ => s
    | none => s

end Sys2Proof.Machine
end

