-- ==== Sys2Proof/Machine/Admin.lean ====
section
/-! DEFINITION. The admin queues: reading, starting and replying to commands, and the commands themselves (R85–R105). -/

namespace Sys2Proof.Machine

/-- An admin queue exists: the manager's, or that of a partition that is not FREE (R85). -/
def admExists (s : State) (q : Nat) : Bool := q == Config.fnManager || (decide (q < 64) && decide ((getPart s q).st ≠ .free))

/-- Carry a command out: checks 1 and 2 of R96, then its own (R92). -/
def admPerform (s : State) (q : Nat) (pkt : W512) (image : List Byte) : State :=
  match admCheck q pkt with
  | some (st, d) => rej s q pkt st d
  | none =>
    match pktOp pkt with
    | 0x00 => opNop s q pkt
    | 0x01 => opQuery s q pkt
    | 0x10 => opPartCreate s q pkt
    | 0x11 => opPartActivate s q pkt
    | 0x12 => opPartMaint s q pkt
    | 0x13 => opPartHalt s q pkt
    | 0x14 => opPartDestroy s q pkt
    | 0x15 => opPartReset s q pkt
    | 0x20 => opQCreate s q pkt
    | 0x21 => opQEnable s q pkt
    | 0x22 => opQDisable s q pkt
    | 0x23 => opQDestroy s q pkt
    | 0x24 => opQReset s q pkt
    | 0x25 => opQModify s q pkt
    | 0x30 => opGLoad s q pkt
    | 0x31 => opGPatch s q pkt
    | 0x32 => opGUnload s q pkt
    | 0x40 => opFCreate s q pkt
    | 0x41 => opFDestroy s q pkt
    | 0x48 => opHInval s q pkt
    | 0x50 => opModeStage s q pkt
    | 0x51 => opModeAbort s q pkt
    | 0x52 => opAgentDrain s q pkt
    | 0x53 => opAgentReadmit s q pkt image
    | _ => opImemLoad s q pkt image

/-- A command enters flight and is carried out (R98). -/
def admStart (s : State) (q : Nat) (pkt : W512) (image : List Byte) : State :=
  admPerform (modAdm s q fun a => { a with flight := a.flight ++ [{ pkt := pkt }] }) q pkt image

/-- Reading stops: commands read and not started count as not read (R87). -/
def admUnread (a : Adm) : Adm :=
  { a with
    enable := false, read := [], sqHead := (a.sqHead + 2 ^ a.log2 - a.read.length % 2 ^ a.log2) % 2 ^ a.log2 }

/-- Address of the command slot that is read next (R87). -/
def admSlot (a : Adm) : Nat := a.sqBase.toNat + 64 * a.sqHead

/-- The read of the next command slot goes out on the manager port, with the issuer's function and PASID, while the ring is not
empty and none is out (R87); a queue that no longer runs has no read out. -/
def admFetch (s : State) (q : Nat) : State :=
  let a := getAdm s q
  if ¬ a.enable then readDone s (.command q)
  else if a.sqHead = a.sqTail ∨ s.port.reads.any (fun r => decide (r.kind = .command q)) then s
  else mgrRead s q (admSlot a) 64 (.command q)

/-- A command arrives from the ring (R87), or its read faults (R45, R86). -/
def admRead (s : State) (q : Nat) (ok : Bool) (pkt : W512) : State :=
  let a := getAdm s q
  if ¬ isReady s ∨ ¬ admExists s q ∨ ¬ a.enable ∨ a.sqHead = a.sqTail then s
  else
    let s := readDone s (.command q)
    if ok then admFetch (modAdm s q fun a => { a with read := a.read ++ [pkt], sqHead := (a.sqHead + 1) % 2 ^ a.log2 }) q
    else
      let s := modAdm s q fun a => { admUnread a with stat := setBit a.stat 0 }
      raiseOn s eHostReadFault (if q < 64 then some q else none) none [(.issuer, q), (.addr, admSlot a)]

def execAdminCommandRead (q : Nat) (ok : Bool) (pkt : W512) (s : State) : Host.Outcome State Fault Refusal :=
  liveRoot s fun s => admRead s q ok pkt

/-- A command in flight keeps another from starting, its object being the same (R98). -/
def sameObject (p : W512) (c : Cmd) : Bool := objClass p != 8 && objClass c.pkt == objClass p && pktObj c.pkt == pktObj p

/-- The first command read of a queue may start (R87, R98): a free reply slot, fewer than 8 in flight, no earlier command
in flight on its object, and with FENCE none in flight at all. Commands on one graph context do not overlap whatever their
queues (R203; log entry 72). -/
def admMayStart (s : State) (q : Nat) : Bool :=
  let a := getAdm s q
  admExists s q && decide (a.flight.length < 8) && decide (a.owed + a.flight.length < 2 ^ a.log2) &&
  match a.read with
  | [] => false
  | p :: _ => if bitOf p 9 then a.flight.isEmpty
    else !a.flight.any (sameObject p) && !(objClass p == 2 && s.adms.any (fun x => x.2.flight.any (sameObject p)))

/-- The queue served next: the manager's first, then the partitions' in round robin (R99). -/
def admNext (s : State) : Option Nat :=
  if admMayStart s Config.fnManager then some Config.fnManager
  else ((upTo 64).map (fun i => (s.admRr + 1 + i) % 64)).find? (admMayStart s)

def admStartNext (s : State) (image : List Byte) : State :=
  if ¬ isReady s then s else
  match admNext s with
  | none => s
  | some q =>
    match (getAdm s q).read with
    | [] => s
    | p :: t =>
      let s := { s with admRr := if q = Config.fnManager then s.admRr else q }
      admStart (modAdm s q fun a => { a with read := t }) q p image

/-- The executor starts the next command; the image is what a read at IMAGE_ADDR returns, for opcodes that carry one. -/
def execAdminCommandStart (image : List Byte) (s : State) : Host.Outcome State Fault Refusal :=
  liveRoot s fun s => admStartNext s image

/-- The executor starts the command that stands in the row: the one that is next (R98, R99), with the row's opcode. -/
def admDirect (s : State) (op q : Nat) (pkt : W512) (image : List Byte) : State :=
  if pktOp pkt = op ∧ admNext s = some q ∧ (getAdm s q).read.head? = some pkt then admStartNext s image else s

def execNop (q : Nat) (pkt : W512) (s : State) : Host.Outcome State Fault Refusal := liveRoot s fun s => admDirect s 0x00 q pkt []
def execQuery (q : Nat) (pkt : W512) (s : State) : Host.Outcome State Fault Refusal := liveRoot s fun s => admDirect s 0x01 q pkt []
def execPartCreate (q : Nat) (pkt : W512) (s : State) : Host.Outcome State Fault Refusal := liveRoot s fun s => admDirect s 0x10 q pkt []
def execPartActivate (q : Nat) (pkt : W512) (s : State) : Host.Outcome State Fault Refusal := liveRoot s fun s => admDirect s 0x11 q pkt []
def execPartMaint (q : Nat) (pkt : W512) (s : State) : Host.Outcome State Fault Refusal := liveRoot s fun s => admDirect s 0x12 q pkt []
def execPartHalt (q : Nat) (pkt : W512) (s : State) : Host.Outcome State Fault Refusal := liveRoot s fun s => admDirect s 0x13 q pkt []
def execPartDestroy (q : Nat) (pkt : W512) (s : State) : Host.Outcome State Fault Refusal := liveRoot s fun s => admDirect s 0x14 q pkt []
def execPartReset (q : Nat) (pkt : W512) (s : State) : Host.Outcome State Fault Refusal := liveRoot s fun s => admDirect s 0x15 q pkt []
def execQCreate (q : Nat) (pkt : W512) (s : State) : Host.Outcome State Fault Refusal := liveRoot s fun s => admDirect s 0x20 q pkt []
def execQEnable (q : Nat) (pkt : W512) (s : State) : Host.Outcome State Fault Refusal := liveRoot s fun s => admDirect s 0x21 q pkt []
def execQDisable (q : Nat) (pkt : W512) (s : State) : Host.Outcome State Fault Refusal := liveRoot s fun s => admDirect s 0x22 q pkt []
def execQDestroy (q : Nat) (pkt : W512) (s : State) : Host.Outcome State Fault Refusal := liveRoot s fun s => admDirect s 0x23 q pkt []
def execQReset (q : Nat) (pkt : W512) (s : State) : Host.Outcome State Fault Refusal := liveRoot s fun s => admDirect s 0x24 q pkt []
def execQModify (q : Nat) (pkt : W512) (s : State) : Host.Outcome State Fault Refusal := liveRoot s fun s => admDirect s 0x25 q pkt []
def execGLoad (q : Nat) (pkt : W512) (s : State) : Host.Outcome State Fault Refusal := liveRoot s fun s => admDirect s 0x30 q pkt []
def execGPatch (q : Nat) (pkt : W512) (s : State) : Host.Outcome State Fault Refusal := liveRoot s fun s => admDirect s 0x31 q pkt []
def execGUnload (q : Nat) (pkt : W512) (s : State) : Host.Outcome State Fault Refusal := liveRoot s fun s => admDirect s 0x32 q pkt []
def execFCreate (q : Nat) (pkt : W512) (s : State) : Host.Outcome State Fault Refusal := liveRoot s fun s => admDirect s 0x40 q pkt []
def execFDestroy (q : Nat) (pkt : W512) (s : State) : Host.Outcome State Fault Refusal := liveRoot s fun s => admDirect s 0x41 q pkt []
def execHInval (q : Nat) (pkt : W512) (s : State) : Host.Outcome State Fault Refusal := liveRoot s fun s => admDirect s 0x48 q pkt []
def execModeStage (q : Nat) (pkt : W512) (s : State) : Host.Outcome State Fault Refusal := liveRoot s fun s => admDirect s 0x50 q pkt []
def execModeAbort (q : Nat) (pkt : W512) (s : State) : Host.Outcome State Fault Refusal := liveRoot s fun s => admDirect s 0x51 q pkt []
def execAgentDrain (q : Nat) (pkt : W512) (s : State) : Host.Outcome State Fault Refusal := liveRoot s fun s => admDirect s 0x52 q pkt []
/-- AGENT_READMIT; the image is what a read at IMAGE_ADDR returns. -/
def execAgentReadmit (q : Nat) (pkt : W512) (image : List Byte) (s : State) : Host.Outcome State Fault Refusal :=
  liveRoot s fun s => admDirect s 0x53 q pkt image
/-- IMEM_LOAD; the image is what a read at IMAGE_ADDR returns. -/
def execImemLoad (q : Nat) (pkt : W512) (image : List Byte) (s : State) : Host.Outcome State Fault Refusal :=
  liveRoot s fun s => admDirect s 0x54 q pkt image

/-- The admin vector of a queue (R101). -/
def admVector (q : Nat) : Nat := if q = Config.fnManager then 4353 else 4096 + 4 * q

/-- The oldest reply write of an admin queue has its response (R101), or faults (R45). -/
def admReplyDone (s : State) (q : Nat) (ok : Bool) : State :=
  match s.port.writes.find? (fun w => match w.kind with
    | .reply k _ => k == q
    | _ => false) with
  | none => s
  | some w =>
    let s := vecsRelease (mgrDone s w.txn) w.txn
    if ok then (if w.kind = .reply q true then reqVec s (admVector q) else s)
    else
      let s := modAdm s q fun a => { (if a.enable then admUnread a else a) with stat := setBit a.stat 3 }
      raiseOn (admFetch s q) eHostWriteFault (if q < 64 then some q else none) none [(.issuer, q), (.addr, w.addr)]

def execAdminReplyWriteResponse (q : Nat) (ok : Bool) (s : State) : Host.Outcome State Fault Refusal :=
  liveRoot s fun s => admReplyDone s q ok

def execPartitionReachesFree (p : Nat) (s : State) : Host.Outcome State Fault Refusal :=
  liveRoot s fun s => partitionFree s p

/-- The function of an admin queue's own accesses to memory changes with the write of its registers only while ENABLE is 0:
a write that would change a locked field is dropped for that field and sets CFG_LOCKED (R86). -/
def admSetBase (a : Adm) (cq : Bool) (v : W64) : Adm :=
  let v := BitVec.ofNat 64 (v.toNat / 64 * 64)
  let old := if cq then a.cqBase else a.sqBase
  if a.enable ∧ v ≠ old then { a with stat := setBit a.stat 2 }
  else if cq then { a with cqBase := v } else { a with sqBase := v }

/-- ADM_QCFG (R86, R87). A LOG2_SIZE outside 4–12 is not stored (R8). -/
def admSetCfg (a : Adm) (v : W32) : Adm :=
  let n := fld v 0 4
  let lock := a.enable && n != a.log2
  let a := if lock then { a with stat := setBit a.stat 2 }
    else if 4 ≤ n ∧ n ≤ 12 then { a with log2 := n } else a
  match a.enable, bitOf v 4 with
  | false, true => { a with enable := true, sqTail := 0, sqHead := 0, cqHead := 0, cqTail := 0, phase := true, read := [], owed := 0 }
  | true, false => admUnread a
  | _, _ => a

/-- ADM_SQTAIL (R86). -/
def admSetTail (a : Adm) (v : W32) : Adm :=
  if 2 ^ a.log2 ≤ fld v 0 12 then { a with stat := setBit a.stat 1 } else { a with sqTail := fld v 0 12 }

/-- ADM_CQHEAD: the host consumes replies by advancing the head (R87); the head it already has consumes none (log entry 34). -/
def admSetHead (a : Adm) (v : W32) : Adm :=
  let n := 2 ^ a.log2
  let h := fld v 0 12 % n
  if fld v 0 12 = a.cqHead then a else { a with cqHead := fld v 0 12, owed := (a.cqTail + n - h) % n }

end Sys2Proof.Machine
end

