-- ==== Sys2Proof/Machine/Capacity.lean ====
section
/-! DEFINITION. The quantities of the Freeboard check (R212). -/

namespace Sys2Proof.Machine

/-- RATE of an engine queue: engine-cycles per µs; 0 when it is absent or its agent is excluded. -/
def rateOf (s : State) (q : Nat) : Nat :=
  if ¬ eqReach s q then 0 else
  let w := tget 0#32 s.sched.eqcap q
  if fld w 12 12 ≠ 0 then fld w 12 12 else fld w 0 12
/-- CAP of an engine queue. -/
def capOf (s : State) (q : Nat) : Nat := rateOf s q * s.sched.period * s.sched.ceil / 25600
/-- B: a partition's budget on an engine queue. -/
def budgetOf (s : State) (p q : Nat) : Nat :=
  rateOf s q * s.sched.period * s.sched.ceil * (getPart s p).engineShare / 6553600
/-- FBP_CUR and FBP_NEXT, never below 0. -/
def fbpCur (s : State) (p q : Nat) : Nat := budgetOf s p q - tget 0 s.sched.bookCur (bookKey p q)
def fbpNext (s : State) (p q : Nat) : Nat := budgetOf s p q - tget 0 s.sched.bookNext (bookKey p q)
/-- LEFT, in units of 10 ns. -/
def leftOf (s : State) : Nat := s.sched.period - s.sched.elapsed
/-- A launch's charge on an engine queue. -/
def chargeOn (l : Launch) (q : Nat) : Nat := sumBy (fun c => if c.1 = q then c.2 else 0) l.charge
/-- OUT and BOUT: the charges on a queue of the launches of a class that are admitted and not complete. -/
def outOf (s : State) (be : Bool) (q : Nat) : Nat :=
  sumBy (fun x => if isAdmitted x.2 && x.2.be == be then chargeOn x.2 q else 0) s.launches
/-- H: a queue's headroom before the next tick, 0 when it would be negative. -/
def headroom (s : State) (q : Nat) : Nat := rateOf s q * leftOf s * s.sched.ceil / 25600 - outOf s false q

end Sys2Proof.Machine
end

