-- ==== Sys2Proof/Machine/HostRead.lean ====
section
/-! DEFINITION. The block window as read: regions, the registers of each with their width and value, and what a read
clears or latches (R6, R39–R42, R64–R67, R81–R84, R86, R128, R153, R163, R183–R185, R206, R238–R241, R280, R281, R335,
R358, R379–R381, R415–R417, R437, R438, R458–R460, R466, R467, R477, R502, R503, R512, R514). -/

namespace Sys2Proof.Machine

/-- Regions of the block window (R42). -/
inductive Rg where
  | glb | adm | pwin (p : Nat) | db (q : Nat) | flags | sch | out | watch | log | xing | stew | basin | test
  | imem (core : Nat) (b : Bool) | dmem (core : Nat) | agent (a : Nat) | none
  deriving DecidableEq, Repr

/-- The region of an address and the offset in it. -/
def regionOf (x : Nat) : Rg × Nat :=
  if x < 0x1000 then (.glb, x)
  else if x < 0x10000 then (.adm, x - 0x1000)
  else if x < 0x50000 then (.pwin ((x - 0x10000) / 0x1000), x % 0x1000)
  else if x < 0x100000 then (.none, x)
  else if x < 0x140000 then (.db ((x - 0x100000) / 0x40), x % 0x40)
  else if x < 0x200000 then (.none, x)
  else if x < 0x280000 then (.flags, x - 0x200000)
  else if x < 0x300000 then (.none, x)
  else if x < 0x310000 then (.sch, x % 0x10000)
  else if x < 0x320000 then (.out, x % 0x10000)
  else if x < 0x330000 then (.watch, x % 0x10000)
  else if x < 0x340000 then (.log, x % 0x10000)
  else if x < 0x350000 then (.xing, x % 0x10000)
  else if x < 0x360000 then (.stew, x % 0x10000)
  else if x < 0x370000 then (.basin, x % 0x10000)
  else if x < 0x380000 then (.test, x % 0x10000)
  else if x < 0x400000 then (.none, x)
  else if x < 0x800000 then
    let o := (x - 0x400000) % 0x80000
    let c := 0x300 + (x - 0x400000) / 0x80000
    if o < 0x20000 then (.imem c false, o) else if o < 0x40000 then (.imem c true, o - 0x20000) else (.dmem c, o - 0x40000)
  else if x < 0x1000000 then (.none, x)
  else if x < 0x1400000 then (.agent ((x - 0x1000000) / 0x10000), x % 0x10000)
  else (.none, x)

/-- A register: 64 bits wide, and its value. -/
abbrev RegV := Option (Bool × Nat)
def r32 (v : Nat) : RegV := some (false, v % 2 ^ 32)
def r64 (v : Nat) : RegV := some (true, v % 2 ^ 64)

/-- GLB_ID of the Root, or of agent a (R64). -/
def glbId (agent : Option Nat) : Nat :=
  match agent with
  | none => 0xE7000301
  | some a => 0xE7010301 + a * 0x20000
/-- GLB_CFG of the Root (R65). -/
def glbCfg (s : State) : Nat :=
  pack [(7, s.par.numAgents), (4, s.par.tidePorts), (4, s.par.xingLinks), (8, s.par.rootErrInputs), (5, 0),
    (1, b2n s.glb.testLatched)]
/-- GLB_CFG of an agent. -/
def agentCfg (s : State) (a : Nat) : Nat := put s.par.agentErrInputs 23 + put (b2n (getAgent s a).testLatched) 28
/-- GLB_STATUS (R81). -/
def glbStatus (s : State) : Nat :=
  pack [(1, b2n (isReady s)), (1, b2n (decide (s.glb.blk = .failed))), (1, b2n (degraded s)), (1, b2n s.glb.frozen),
    (1, b2n s.glb.evacWfault), (3, 0), (4, s.glb.phase), (4, s.glb.failPhase), (8, s.glb.failDetail), (7, agentsUp s)]

def regGlb (s : State) (o : Nat) : RegV :=
  match o with
  | 0x000 => r32 (glbId none)
  | 0x004 => r32 (glbCfg s)
  | 0x008 => r32 (glbStatus s)
  | 0x00C => r32 0
  | 0x010 => r32 s.glb.rstCause.toNat
  | 0x014 => r32 s.glb.early
  | 0x018 => r32 s.glb.rootMhz
  | 0x020 => r64 s.glb.dieId.toNat
  | _ => if 0x100 ≤ o ∧ o < 0x300 ∧ o % 8 = 0 then r64 (agtEntry s ((o - 0x100) / 8)).toNat else none

/-- Registers of an admin queue (R86). -/
def regAdmQ (a : Adm) (o : Nat) : RegV :=
  match o with
  | 0x000 => r64 a.sqBase.toNat
  | 0x008 => r64 a.cqBase.toNat
  | 0x010 => r32 (a.log2 + put (b2n a.enable) 4)
  | 0x014 => r32 a.sqTail
  | 0x018 => r32 a.sqHead
  | 0x01C => r32 a.cqHead
  | 0x020 => r32 (a.stat + put a.flight.length 8)
  | _ => none

/-- SC_STAT and the registers that follow it, of a sluice core (R280). -/
def regSc (c : Core) (kind run : Nat) (o : Nat) : RegV :=
  let owners := (c.owner.map (·.2)).foldl insertNat []
  match o with
  | 0x00 => r32 (c.st + put (b2n c.bankB) 3 + put (b2n c.staged) 4 + put (16 - c.owner.length) 8 + put owners.length 16)
  | 0x04 => r32 run
  | 0x08 => r32 c.skip
  | 0x0C => r32 (c.corr + put c.uncorr 16)
  | 0x10 => r32 (if bankValid c.imemA kind then bankCompat c.imemA + put (bankVersion c.imemA) 16 else 0)
  | 0x14 => r32 (if bankValid c.imemB kind then bankCompat c.imemB + put (bankVersion c.imemB) 16 else 0)
  | 0x18 => r32 c.saves
  | _ => none

/-- LAUNCH_ID of the context that runs on a core; 0 when idle. -/
def runOf (s : State) (core : Nat) : Nat :=
  match (getCore s core).run with
  | some k => (getCtx s core k).launch
  | none => 0

/-- ADM_POOL0 to ADM_POOL2 and ADM_PART (R477). -/
def regPool (s : State) (o : Nat) : RegV :=
  let l := (liveParts s).map (·.2)
  if o = 0x100 then r32 ((4096 - sumBy (·.queueLimit) l) + put (256 - sumBy (·.engineShare) l) 16)
  else if o = 0x104 then r32 ((256 - sumBy (·.sluiceShare) l) + put (16384 - sumBy (·.waitLimit) l) 16)
  else if o = 0x108 then r32 ((4096 - sumBy (·.basinLimit) l) + put l.length 16)
  else if 0x200 ≤ o ∧ o < 0x400 ∧ o % 8 = 0 then
    let p := (o - 0x200) / 8
    let x := getPart s p
    r64 (pCode x.st - 0x10 + put (b2n x.flr) 3 + put x.pasid 8 + put (partQueues s p).length 32)
  else none

/-- The WEIR registers of the ADM region (R183). -/
def regWeir (s : State) (o : Nat) : RegV :=
  let w := s.weir
  match o with
  | 0xC000 => r32 (armedTotal s + put (max w.peak (armedTotal s)) 16)
  | 0xC004 => r32 (w.mem.length + put (max w.memPeak w.mem.length) 16)
  | 0xC008 => r32 w.cycles
  | 0xC00C => r32 w.sats
  | 0xC010 => r32 w.tmos
  | 0xC020 => r32 w.lastId
  | 0xC024 => r32 w.lastHandle
  | 0xC028 => r64 w.lastAddr
  | 0xC030 => r32 w.lastInfo.toNat
  | 0xC034 => r32 w.lastPeerId
  | 0xC038 => r32 w.lastPeerHandle
  | _ => none

/-- VERSION of the active Iznum image, 0 without one (R335). -/
def izVersion (s : State) : Nat :=
  let b := activeBank (getCore s 0x307)
  if bankValid b 2 then bankVersion b else 0

/-- GS_ARENA (R206), Iznum (R335) and FMT_STICKY (R358). -/
def regGraph (s : State) (o : Nat) : RegV :=
  if 0xC100 ≤ o ∧ o < 0xC500 then
    let p := (o - 0xC100) / 16
    let x := getArena s p
    match o % 16 with
    | 0 => r64 x.base.toNat
    | 8 => r32 x.size
    | 12 => r32 (arenaPages s p).length
    | _ => none
  else if 0xC900 ≤ o ∧ o < 0xCB00 ∧ o % 8 = 0 then r32 (getPart s ((o - 0xC900) / 8)).fsticky.toNat
  else match o with
  | 0xC800 => r32 (b2n s.iz.busy.isSome + put (satN 8 s.iz.queue.length) 8 + match s.iz.busy with
      | some j => put j.gctx 16 + put j.part 26
      | none => 0)
  | 0xC808 => r64 s.iz.tcBase.toNat
  | 0xC810 => r32 s.iz.tcSize
  | 0xC814 => r32 (s.iz.hits + put s.iz.misses 16)
  | 0xC818 => r64 (s.iz.failDetail % 2 ^ 48 + put s.iz.failGctx 48 + put s.iz.failPart 58)
  | 0xC820 => r32 (izVersion s + put 0x0102 16)
  | _ => none

/-- SVC registers (R502). -/
def regSvc (s : State) (o : Nat) : RegV :=
  let v := s.svc
  match o with
  | 0xCB00 => r32 (v.modeNext.getD v.mode)
  | 0xCB04 => r32 (v.lead + put v.drainTmo 8)
  | 0xCB08 => r32 (v.mc.state + put v.mc.result 2 + put v.mc.items 8 + put v.mc.rootLag 16)
  | 0xCB0C => r32 v.mc.number
  | 0xCB10 => r64 v.mc.tick
  | 0xCB18 => r64 v.mc.lag.toNat
  | 0xCB20 => r32 (v.interval + put v.slackMin 16 + put v.levelMax 24)
  | 0xCB24 => r32 (v.driftWarn + put v.driftLimit 12 + put v.ceilMin 24)
  | 0xCB28 => r32 (v.ceilBase + put v.gain 16)
  | 0xCB2C => r32 (v.driftMax + put v.driftAgent 12 + put (b2n v.driftRoot) 18 + put v.ageBits 19)
  | 0xCB30 => r32 v.ageRoot.toNat
  | 0xCB38 => r64 (v.draining.foldl (fun n x => n + 2 ^ x.1) 0)
  | _ => if 0xCB40 ≤ o ∧ o < 0xCB60 ∧ o % 4 = 0 then
      let k := (o - 0xCB40) / 4
      r32 (sumBy (fun j => put (dieLevel s (8 * k + j)) (4 * j)) (upTo 8))
    else none

/-- LB registers (R512). -/
def regLb (s : State) (o : Nat) : RegV :=
  let b := s.lb
  match o with
  | 0xCC00 => r32 (b.point + put b.agent 4 + put (b2n b.all) 10 + put b.unit 11 + put b.count 16)
  | 0xCC04 => r32 b.pat.toNat
  | 0xCC08 => r64 b.buf.toNat
  | 0xCC10 => r32 (pack [(1, b2n b.busy), (1, b2n b.done), (1, b2n b.mismatch), (1, b2n b.aborted), (1, b2n b.refused)])
  | 0xCC14 => r32 (satN 16 b.exch + put (satN 16 b.bad) 16)
  | 0xCC18 => r32 (b.rttMin % 65536 + put (b.rttMax % 65536) 16)
  | 0xCC1C => r32 (b.rttSum / max 1 b.good % 65536)
  | 0xCC20 => r64 (match b.firstBad with
      | some (k, a, x, d) => k % 4096 + put (a % 64) 12 + put (x % 64) 18 + put (d % 2 ^ 32) 32
      | none => 0)
  | _ => none

/-- GS_CTX (R207). -/
def regGsCtx (s : State) (c : Nat) : RegV :=
  let g := getGctx s c
  r64 (g.st + put ((gctxOwner s c).getD 0) 2 + put (if g.st = 2 then g.cur else 0) 8 + put g.gens.length 24
    + put (satN 32 (ctxPins s c)) 32)

/-- GS_CTXHDR (R207). -/
def regCtxHdr (s : State) (c : Nat) : RegV :=
  let g := getGctx s c
  r64 (if g.st = 2 then ((g.gens.find? (fun x => x.num == g.cur)).map (fun x => genAddr (getArena s g.owner) x 0)).getD 0 else 0)

/-- INL_QMGR (R129). -/
def regQmgr (s : State) (k : Nat) : RegV :=
  let x := getQueue s k
  r64 (qCode x.st + put (b2n x.idleBit) 3 + put (if x.st = .unused then 0 else x.owner) 4
    + put (satN 16 (outstanding s k)) 16 + put (posWord x.log2 x.head) 32)

def regAdm (s : State) (o : Nat) : RegV :=
  if o < 0x100 then regAdmQ (getAdm s Config.fnManager) o
  else if o < 0x400 then regPool s o
  else if 0x1000 ≤ o ∧ o < 0x3000 then (if o % 8 = 0 then regCtxHdr s ((o - 0x1000) / 8) else none)
  else if o < 0x3000 then none
  else if o < 0x3100 then
    let c := 0x300 + (o - 0x3000) / 0x20
    regSc (getCore s c) (coreKind c) (runOf s c) (o % 0x20)
  else if o = 0x3100 then r64 s.save.base.toNat
  else if o = 0x3108 then r32 s.save.slots
  else if o = 0x310C then r32 (s.save.used.length + put (max s.save.peak s.save.used.length) 16)
  else if 0x4000 ≤ o ∧ o < 0xC000 then (if o % 8 = 0 then regQmgr s ((o - 0x4000) / 8) else none)
  else if o < 0xC000 then none
  else if o < 0xC100 then regWeir s o
  else if o < 0xCB00 then regGraph s o
  else if o < 0xCC00 then regSvc s o
  else if 0xD000 ≤ o ∧ o < 0xF000 then (if o % 8 = 0 then regGsCtx s ((o - 0xD000) / 8) else none)
  else regLb s o

/-- Registers of partition p's window below 0x100 (R153, R184, R185, R241, R358, R415). -/
def regPwinLow (s : State) (p : Nat) (o : Nat) : RegV :=
  let x := getPart s p
  let q := getSeqs s p
  let f := getFig s p
  let w := x.werrLatch.getD (x.werrId, x.werrHandle, x.werrAddr, x.peerId, x.peerHandle)
  match o with
  | 0x040 => r64 (x.hits + put x.misses 32)
  | 0x048 => r64 (x.lerrId + put x.lerrError 32 + put x.lerrStatus 48 + put x.lerrCount 56)
  | 0x060 => r64 x.dflag.toNat
  | 0x068 => r32 x.dfcnt
  | 0x06C => r32 (x.wstat + put (armedPart s p) 16)
  | 0x070 => r32 w.1
  | 0x074 => r32 w.2.1
  | 0x078 => r64 w.2.2.1
  | 0x080 => r32 x.werrInfo.toNat
  | 0x084 => r32 w.2.2.2.1
  | 0x088 => r32 w.2.2.2.2
  | 0x090 => r32 x.slow.toNat
  | 0x094 => r32 x.sstat
  | 0x098 => r64 f.engineNs
  | 0x0A0 => r64 f.bytes
  | 0x0A8 => r64 (f.energyNj / 1000)
  | 0x0B0 => r64 f.sluiceNs
  | 0x0C0 => r32 x.fsticky.toNat
  | 0x0D0 => r64 q.base.toNat
  | 0x0D8 => r32 q.cnt
  | 0x0DC => r32 q.rcl
  | 0x0E0 => r64 0
  | 0x0E8 => r32 (b2n q.busy + put q.result 1 + put (b2n q.dropped) 4 + put q.epoch 16)
  | _ => none

/-- PWIN_PINFO0 to PWIN_PSTAT (R467). -/
def regPinfo (s : State) (p : Nat) (o : Nat) : RegV :=
  let x := getPart s p
  match o with
  | 0x100 => r32 (p + put (pCode x.st - 0x10) 8 + put x.engineShare 16 + put x.sluiceShare 24)
  | 0x104 => r32 (x.queueLimit + put x.flagBase 16)
  | 0x108 => r32 x.flagCount
  | 0x10C => r32 (x.gctxBase + put x.gctxCount 16)
  | 0x110 => r32 x.htabEntries
  | 0x114 => r32 (x.waitLimit + put x.basinLimit 16)
  | 0x118 => r32 (x.pstat + put (b2n x.haltSrc) 4 + put x.haltCode 16)
  | _ => none

/-- A partition window; all of it reads 0 while the partition is FREE (R466). -/
def regPwin (s : State) (p : Nat) (o : Nat) : RegV :=
  let r := if o < 0x40 then regAdmQ (getAdm s p) o else if o < 0x100 then regPwinLow s p o else regPinfo s p o
  if (getPart s p).st = .free then r.map (fun x => (x.1, 0)) else r

/-- A doorbell slot (R109, R128). -/
def regDb (s : State) (k : Nat) (o : Nat) : RegV :=
  let x := getQueue s k
  match o with
  | 0x00 => r64 0
  | 0x08 => r32 (qCode x.st + put (b2n x.idleBit) 3 + put (b2n x.drainTmoBit) 4 + put (b2n x.dbInvalid) 5
      + put (if x.st = .halted then x.haltCause else 0) 8 + put (satN 16 (outstanding s k)) 16)
  | 0x10 => r32 (posWord x.log2 x.head)
  | 0x14 => r32 (posWord x.log2 x.tail)
  | 0x18 => r32 (x.ignored + put x.discarded 16)
  | 0x20 => r32 (x.log2 + put (b2n x.be) 5 + put (b2n x.drainIrq) 6 + put (b2n x.ringLoc) 7 + put x.weight 8 + put x.burst 16)
  | 0x24 => r32 x.timeslice
  | 0x28 => r32 x.defTmo
  | 0x2C => r32 x.drainTmo
  | _ => none

/-- Launches that the scheduler has checked and holds or has booked (R238). -/
def schHeld (s : State) : Nat :=
  (s.launches.filter (fun x => decide (x.2.stage = .held) || decide (x.2.stage = .booked))).length

/-- SCH_EQCAP of a queue: as measured and as last written (R239). -/
def eqcapWord (s : State) (q : Nat) : Nat :=
  let w := (tget 0#32 s.sched.eqcap q).toNat
  let n := (tget 0#32 s.sched.eqcapNext q).toNat
  let w := if n.testBit 31 then w % 4096 + put (nbits n 12 12) 12 else w
  if eqReach s q then w else w - w % 4096

def regSch (s : State) (o : Nat) : RegV :=
  let c := s.sched
  let p := fld c.fbsel 0 6
  let q := fld c.fbsel 16 10
  match o with
  | 0x00 => r32 (c.periodLate.getD (c.periodNext.getD c.period))
  | 0x04 => r32 (match c.ctrlNext with
      | some w => w.toNat
      | none => c.allow + put c.slowThr 16)
  | 0x08 => r32 (match c.fillNext with
      | some (v, b) => v + put (b2n b) 9
      | none => c.ceil + put (b2n c.source) 9)
  | 0x0C => r32 (c.csliceNext.getD c.cslice)
  | 0x10 => r64 (c.tickNo % 2 ^ 48)
  | 0x18 => r32 (c.elapsed % 2 ^ 21)
  | 0x1C => r32 (c.stat + put (satN 16 (schHeld s)) 16)
  | 0x20 => r32 c.fbsel.toNat
  | 0x24 => r32 (satN 32 (if bitOf c.fbsel 31 then fbpNext s p q else fbpCur s p q))
  | 0x28 => r32 (satN 32 (headroom s q))
  | 0x30 => r32 c.accsel
  | 0x38 => r64 (c.accdata.getD 0 0)
  | 0x40 => r64 (c.accdata.getD 1 0)
  | 0x48 => r64 (c.accdata.getD 2 0)
  | 0x50 => r64 (c.eidleNj / 1000)
  | _ =>
    if 0x1000 ≤ o ∧ o < 0x2000 ∧ o % 4 = 0 then r32 (eqcapWord s ((o - 0x1000) / 4))
    else if 0x2000 ≤ o ∧ o < 0x3000 then
      let f := getFig s ((o - 0x2000) / 0x40)
      match o % 0x40 with
      | 0x00 => r32 (f.index + put f.deferred 16)
      | 0x04 => r32 (f.overruns + put f.tooLong 16)
      | 0x08 => r64 f.engineNs
      | 0x10 => r64 f.bytes
      | 0x18 => r64 (f.energyNj / 1000)
      | 0x20 => r64 f.sluiceNs
      | _ => none
    else none

/-- Merge slots a reservation holds (R407): one for each row and slice of 8 outputs, less those freed. -/
def mergeHeld (m : Merge) : Nat := m.dim0 * m.dim1 / 8 - m.free
def mergeUsed (s : State) : Nat := sumBy (fun x => mergeHeld x.2) s.outf.merges

def regOut (s : State) (o : Nat) : RegV :=
  let x := s.outf
  match o with
  | 0x40 => r32 (mergeUsed s + put (max x.peak (mergeUsed s)) 16)
  | 0x44 => r32 x.merged
  | 0x48 => r32 x.drop
  | 0x4C => r32 (b2n x.err)
  | 0x50 => r64 (x.errMid + put x.errCode 16 + put x.errLaunch 32)
  | _ => if o < 0x20 ∧ o % 4 = 0 then
      let n := o / 4
      let ags := (upTo s.par.numAgents).filter (fun a => portOf s a == n)
      if s.par.tidePorts ≤ n then r32 0
      else r32 (sumBy (fun a => (getLink s a).upRx.used) ags + put ags.length 16 + put (min 64 (512 / max 1 ags.length)) 23)
    else none

/-- Indices with SEVERE or WSEVERE set. -/
def severeIdx (s : State) : List Nat := ((s.watch.wins.filter (fun x => x.2.severe)).map (fun x => x.1 / 256)).foldl insertNat []

def regWatch (s : State) (o : Nat) : RegV :=
  let w := s.watch
  match o with
  | 0x00 => r32 (b2n w.logmin)
  | 0x04 => r32 (b2n w.chipfail + put (b2n w.evacDone) 1 + put (b2n w.evacNobase) 2 + put (severeIdx s).length 16)
  | 0x08 => r64 w.last.toNat
  | 0x10 => r64 w.fail.toNat
  | 0x18 => r64 w.evacBase.toNat
  | 0x20 => r32 w.evacSize
  | 0x24 => r32 w.templim
  | _ =>
    if 0x100 ≤ o ∧ o < 0x220 ∧ o % 4 = 0 then
      r32 (sumBy (fun i => if i / 32 = (o - 0x100) / 4 then 2 ^ (i % 32) else 0) (severeIdx s))
    else if 0x1000 ≤ o ∧ o < 0xA000 ∧ o % 4 = 0 then
      let i := (o - 0x1000) / 16
      if ¬ srcExists s i then r32 0
      else
        let cfg := fun (k : Nat) => match tget 0#32 w.cfgNext k with
          | 0 => srcCfg s k
          | n => n.toNat
        match o % 16 with
        | 0 => r32 (cfg (i * 2))
        | 4 => r32 (cfg (i * 2 + 1))
        | 8 => r32 (b2n (entrySevere s (i * 2)) + put (b2n (entrySevere s (i * 2 + 1))) 1 + put (b2n (w.level.contains i)) 2
            + put (b2n (w.wire.contains i)) 3 + put (b2n (w.notarget.contains i)) 4 + put (min 255 (entryWinCnt s (i * 2))) 8)
        | _ => r32 (tget 0 w.cnt i)
    else none

def regLog (s : State) (o : Nat) : RegV :=
  let l := s.log
  match o with
  | 0x00 => r32 (b2n l.spill + put l.ringLog2 1 + put l.thresh 16)
  | 0x08 => r64 l.ringBase.toNat
  | 0x10 => r32 l.head
  | 0x14 => r32 l.tail
  | 0x18 => r32 (l.entries.length + put (b2n l.lostFlag) 16 + put (b2n l.spillFault) 17 + put (b2n l.high) 18)
  | 0x1C => r32 l.lost
  | 0x20 => r32 l.seq
  | 0x24 => r32 l.rdsel
  | 0x28 => r32 0
  | _ => if 0x40 ≤ o ∧ o < 0x60 ∧ o % 4 = 0 then r32 (fld l.rddata (8 * (o - 0x40)) 32) else none

def regXing (s : State) (o : Nat) : RegV :=
  let x := s.xing
  match o with
  | 0x00 => r32 x.chip
  | 0x04 => r32 x.holdTmo
  | 0x08 => r32 (x.stat + put x.insts.length 16)
  | 0x0C => r32 ((x.insts.filter (fun i => i.2.held.isSome && i.2.released.isNone)).length + put (satN 16 x.sets.length) 16)
  | 0x10 => r64 (x.lastWord.toNat + put x.lastLink 32 + put x.lastCode 40)
  | _ =>
    if 0x100 ≤ o ∧ o < 0x120 ∧ o % 4 = 0 then
      let l := (o - 0x100) / 4
      if s.par.xingLinks ≤ l then r32 0
      else
        let k := tget {} x.links l
        r32 (b2n k.enable + put (b2n k.up) 1 + put ((Config.freeWord s.free).toNat % 33) 2)
    else if 0x200 ≤ o ∧ o < 0x300 ∧ o % 4 = 0 then r32 (tget 0#32 x.routes ((o - 0x200) / 4)).toNat
    else none

/-- Registers of a stack agent (R438); STEW_DEADLINE is a pin, sampled at the read: a free value. -/
def regStack (s : State) (a : Nat) (o : Nat) : RegV :=
  let k := getStack s a
  let r := match o with
    | 0x00 => r64 k.dramBase.toNat
    | 0x08 => r32 k.dramUnits
    | 0x0C => r32 k.nvUnits
    | 0x10 => r64 k.nvBase.toNat
    | 0x18 => r32 k.dir
    | 0x1C => r32 k.led
    | 0x20 => r32 k.endur
    | 0x24 => r32 k.bermCfg.toNat
    | 0x28 => r32 k.bermQ.toNat
    | 0x2C => r32 k.berms
    | 0x30 => r32 (k.forced + put k.misses 16)
    | 0x34 => r32 k.bermTime
    | 0x38 => r32 (k.relocs + put k.fences 16)
    | 0x3C => r32 ((Config.freeWord s.free).toNat % 2 ^ 20)
    | _ => none
  if stackIf s a then r else r.map (fun x => (x.1, 0))

def regStew (s : State) (o : Nat) : RegV :=
  let x := s.stew
  match o with
  | 0x00 => r32 (b2n x.enable)
  | 0x04 => r32 (x.stat + put x.fences.length 16 + put (b2n x.copy.isSome) 25)
  | 0x08 => r64 x.dirBase.toNat
  | 0x10 => r64 x.ledBase.toNat
  | 0x18 => r32 x.ledsel.toNat
  | 0x20 => r64 x.ledger.toNat
  | 0x28 => r64 (x.errAgent + put (b2n x.errTier) 6 + put x.errUnit 8 + put x.errCode 32)
  | _ =>
    if 0x100 ≤ o ∧ o < 0x200 ∧ o % 4 = 0 then r32 (satN 16 (x.pend.filter (fun e => e.1 == (o - 0x100) / 4)).length)
    else if 0x1000 ≤ o ∧ o < 0x2000 then regStack s ((o - 0x1000) / 0x40) (o % 0x40)
    else none

def regBasin (s : State) (o : Nat) : RegV :=
  let b := s.basin
  match o with
  | 0x00 => r32 (b.held.length + put (max b.peak b.held.length) 16 + put (b2n b.full) 29 + put (b2n b.expired) 30)
  | 0x04 => r32 b.committed
  | 0x08 => r32 b.discarded
  | 0x0C => r32 b.expCnt
  | 0x10 => r64 (b.errGroup + put b.errPart 8 + put b.errCode 16 + put b.errLaunch 32)
  | 0x20 => r32 (s.attn.walks.length + put (max s.attn.peak s.attn.walks.length) 16)
  | 0x24 => r32 (s.attn.hits + put s.attn.misses 16)
  | _ => if 0x100 ≤ o ∧ o < 0x200 ∧ o % 4 = 0 then r32 (b.held.filter (fun e => e.part == (o - 0x100) / 4)).length else none

def regTest (s : State) (o : Nat) : RegV :=
  match o with
  | 0x000 => r32 s.glb.mbist.toNat
  | 0x100 => r32 (s.test.injPair.toNat % 2 ^ 14)
  | 0x104 => r32 (s.test.injEv.toNat % 2 ^ 30)
  | _ => none

/-- The register at an offset of a region. -/
def regAt (s : State) (g : Rg) (o : Nat) : RegV :=
  match g with
  | .glb => regGlb s o
  | .adm => regAdm s o
  | .pwin p => regPwin s p o
  | .db q => regDb s q o
  | .sch => regSch s o
  | .out => regOut s o
  | .watch => regWatch s o
  | .log => regLog s o
  | .xing => regXing s o
  | .stew => regStew s o
  | .basin => regBasin s o
  | .test => regTest s o
  | _ => none

/-- The register that holds the word at an offset: its own offset, its width and its value (R6). -/
def regHolding (s : State) (g : Rg) (o : Nat) : Option (Nat × Bool × Nat) :=
  let w := o / 4 * 4
  match regAt s g w with
  | some (b, v) => some (w, b, v)
  | none => if w < 4 then none else match regAt s g (w - 4) with
    | some (true, v) => some (w - 4, true, v)
    | _ => none

/-- What a read of a register clears or latches (R8 RC, R185); `lo`, `hi`: the words read; `ret`: the high word returned. -/
def onRead (s : State) (g : Rg) (o : Nat) (lo hi : Bool) (ret : Nat) : State :=
  match g with
  | .glb => if o = 0x014 then modGlb s fun x => { x with early := 0 } else s
  | .pwin p =>
    if (getPart s p).st = .free then s
    else if o = 0x040 then modPart s p fun x => { x with
      hits := if lo then 0 else x.hits, misses := if hi then x.misses - ret else x.misses }
    else if o = 0x048 ∧ hi then modPart s p fun x => { x with lerrCount := x.lerrCount - ret / 2 ^ 24 }
    else if o = 0x080 then modPart s p fun x => { x with
      werrLatch := some (x.werrId, x.werrHandle, x.werrAddr, x.peerId, x.peerHandle) }
    else s
  | .db q => if o = 0x18 then modQueue s q fun x => { x with ignored := 0, discarded := 0 } else s
  | .xing => if 0x100 ≤ o ∧ o < 0x120 then (takeFree s).2 else s
  | .adm =>
    if 0x3000 ≤ o ∧ o < 0x3100 then modCore s (0x300 + (o - 0x3000) / 0x20) fun c =>
      match o % 0x20 with
      | 0x08 => { c with skip := 0 }
      | 0x0C => { c with corr := 0, uncorr := 0 }
      | 0x18 => { c with saves := 0 }
      | _ => c
    else match o with
    | 0x310C => { s with save := { s.save with peak := s.save.used.length } }
    | 0xC000 => let n := armedTotal s
      modWeir s fun w => { w with peak := n }
    | 0xC004 => modWeir s fun w => { w with memPeak := w.mem.length }
    | 0xC008 => modWeir s fun w => { w with cycles := 0 }
    | 0xC00C => modWeir s fun w => { w with sats := 0 }
    | 0xC010 => modWeir s fun w => { w with tmos := 0 }
    | 0xC814 => { s with iz := { s.iz with hits := 0, misses := 0 } }
    | _ => s
  | .out => match o with
    | 0x40 => { s with outf := { s.outf with peak := mergeUsed s } }
    | 0x44 => { s with outf := { s.outf with merged := 0 } }
    | 0x48 => { s with outf := { s.outf with drop := 0 } }
    | _ => s
  | .watch => if 0x1000 ≤ o ∧ o % 16 = 12 then modWatch s fun w => { w with cnt := tput 0 w.cnt ((o - 0x1000) / 16) 0 } else s
  | .log => if o = 0x1C then modLog s fun l => { l with lost := 0 } else s
  | .stew => if 0x1000 ≤ o ∧ stackIf s ((o - 0x1000) / 0x40) then
    if o % 0x40 = 0x3C then (takeFree s).2 else modStack s ((o - 0x1000) / 0x40) fun k =>
      match o % 0x40 with
      | 0x2C => { k with berms := 0 }
      | 0x30 => { k with forced := 0, misses := 0 }
      | 0x34 => { k with bermTime := 0 }
      | 0x38 => { k with relocs := 0, fences := 0 }
      | _ => k
    else s
  | .basin => match o with
    | 0x00 => modBasin s fun b => { b with peak := b.held.length }
    | 0x04 => modBasin s fun b => { b with committed := 0 }
    | 0x08 => modBasin s fun b => { b with discarded := 0 }
    | 0x0C => modBasin s fun b => { b with expCnt := 0 }
    | 0x20 => { s with attn := { s.attn with peak := s.attn.walks.length } }
    | 0x24 => { s with attn := { s.attn with hits := 0, misses := 0 } }
    | _ => s
  | _ => s

end Sys2Proof.Machine
end

