-- ==== Sys2Proof/Machine/HostWrite.lean ====
section
/-! DEFINITION. The block window as written: the effect of a write on each register, and its audit log entry (R8, R11,
R66, R67, R86, R110, R163, R184, R206, R210, R238, R239, R253, R275, R281, R334, R335, R358, R379–R381, R390, R415–R417, R437, R438,
R455, R458–R460, R479, R494, R498, R499, R502, R503, R509, R510, R512). -/

namespace Sys2Proof.Machine

/-- A write from the subordinate port: function, block-window address, value, what the block reads outside itself for it. -/
structure WrReq where
  fn : Nat
  addr : Nat
  v : Nat
  ext : W64
  flag : Bool

/-- Audit entry of an accepted write, and of one that a rule ignores (R494). -/
def wrLog (s : State) (r : WrReq) : State := audit s 1 r.fn 1 0 r.addr r.v
def wrIgnored (s : State) (r : WrReq) (code : Nat) : State := audit s 1 r.fn 2 code r.addr r.v
/-- The entry of a write whose fields are all accepted, or of one with a field that is not. -/
def wrEnd (s : State) (r : WrReq) (ok : Bool) : State := if ok then wrLog s r else wrIgnored s r 0
/-- A bit of the value written. -/
def WrReq.bit (r : WrReq) (i : Nat) : Bool := r.v.testBit i
/-- A field of the value written. -/
def WrReq.f (r : WrReq) (lo w : Nat) : Nat := nbits r.v lo w
/-- Clear by W1C, over the writable bits of a mask (R9, R10). -/
def w1c (old v mask : Nat) : Nat := clrMask old (v &&& mask)
/-- A base register whose low bits are reserved. -/
def baseOf (v align : Nat) : W64 := BitVec.ofNat 64 (v / 2 ^ align * 2 ^ align)

/-- Every partition is FREE or MAINT. -/
def partsQuiet (s : State) : Bool := s.parts.all (fun x => decide (x.2.st = .free) || decide (x.2.st = .maint))

def wrGlb (s : State) (o : Nat) (r : WrReq) : State :=
  match o with
  | 0x00C => if r.bit 0 then warmBegin (wrLog s r) 2 else wrLog s r
  | 0x010 => modGlb s fun g => { g with rstCause := BitVec.ofNat 32 (w1c g.rstCause.toNat r.v 0xF) }
  | _ => s

/-- Registers of an admin queue (R86, R87). -/
def wrAdmQ (s : State) (q o : Nat) (r : WrReq) : State :=
  let a := getAdm s q
  let w := BitVec.ofNat 32 r.v
  match o with
  | 0x000 =>
    let b := admSetBase a false (BitVec.ofNat 64 r.v)
    let same := decide (baseOf r.v 6 = a.sqBase)
    wrEnd (modAdm s q fun _ => b) r (!a.enable || same)
  | 0x008 =>
    let b := admSetBase a true (BitVec.ofNat 64 r.v)
    let same := decide (baseOf r.v 6 = a.cqBase)
    wrEnd (modAdm s q fun _ => b) r (!a.enable || same)
  | 0x010 =>
    let n := r.f 0 4
    let ok := if a.enable then n == a.log2 else decide (4 ≤ n) && decide (n ≤ 12)
    wrEnd (admFetch (modAdm s q fun _ => admSetCfg a w) q) r ok
  | 0x014 => admFetch (modAdm s q fun _ => admSetTail a w) q
  | 0x01C => if 2 ^ a.log2 ≤ r.f 0 12 then s else modAdm s q fun _ => admSetHead a w
  | 0x020 => modAdm s q fun _ => { a with stat := w1c a.stat r.v 0xF }
  | _ => s

/-- GS_ARENA (R206). -/
def wrArena (s : State) (p o : Nat) (r : WrReq) : State :=
  let x := getArena s p
  let y := if o = 0 then { x with base := baseOf r.v 16 } else { x with size := r.f 0 16 }
  let far := (upTo 64).all fun k => k == p ||
    let z := getArena s k
    !overlaps y.base.toNat (y.size * 65536) z.base.toNat (z.size * 65536)
  if (partCtxs s p).isEmpty ∧ far then wrLog (modArena s p fun _ => y) r else wrIgnored s r 0

/-- SVC registers (R479, R502). -/
def wrSvc (s : State) (o : Nat) (r : WrReq) : State :=
  match o with
  | 0xCB00 =>
    if s.svc.mc.state ≠ 0 ∨ ¬ s.svc.draining.isEmpty ∨ r.f 0 2 = 3 then wrIgnored s r 0
    else wrLog (modSvc s fun v => { v with modeNext := some (r.f 0 2) }) r
  | 0xCB04 =>
    let okL := decide (2 ≤ r.f 0 8)
    let okD := decide (0 < r.f 8 20)
    wrEnd (modSvc s fun v => { v with
      lead := if okL then r.f 0 8 else v.lead, drainTmo := if okD then r.f 8 20 else v.drainTmo }) r (okL && okD)
  | 0xCB20 =>
    let ok := decide (0 < r.f 0 16)
    wrEnd (modSvc s fun v => { v with
      interval := if ok then r.f 0 16 else v.interval, slackMin := r.f 16 8, levelMax := r.f 24 4 }) r ok
  | 0xCB24 =>
    let ok := decide (0 < r.f 24 8)
    wrEnd (modSvc s fun v => { v with
      driftWarn := r.f 0 12, driftLimit := r.f 12 12, ceilMin := if ok then r.f 24 8 else v.ceilMin }) r ok
  | 0xCB28 =>
    let ok := decide (0 < r.f 0 9) && decide (r.f 0 9 ≤ 256)
    wrEnd (modSvc s fun v => { v with ceilBase := if ok then r.f 0 9 else v.ceilBase, gain := r.f 16 8 }) r ok
  | 0xCB2C => modSvc s fun v => { v with ageBits := w1c v.ageBits (r.f 19 4) 0xF }
  | _ => s

/-- GO of LB_CTRL is served (R509). -/
def lbMayGo (s : State) : Bool :=
  let b := s.lb
  isReady s && !s.glb.frozen && !b.busy && decide (1 ≤ b.point) && decide (b.point ≤ 7) && decide (1 ≤ b.count) &&
  (if 4 ≤ b.point ∧ b.point ≤ 6 then (if b.all then decide (0 < agentsUp s) else agtUp s b.agent) else true) &&
  (if b.point = 3 then decide (b.unit < s.par.tidePorts) else true) &&
  (if b.point = 7 then decide (b.unit < s.par.xingLinks) && !(tget {} s.xing.links b.unit).enable else true) &&
  (if b.point = 2 ∨ b.point = 6 then decide (b.buf ≠ 0) else true)

/-- Start a run (R509), or refuse it. -/
def lbStart (s : State) : State :=
  if lbMayGo s then modLb s fun b => { b with
    busy := true, stopping := false, exch := 0, bad := 0, rttMin := 0, rttMax := 0, rttSum := 0, good := 0, firstBad := none
    flight := b.flight.filter (fun x => (kget s.glb.bring x.agent).any (fun k => k.step == 5)), next := []
    members := if 4 ≤ b.point ∧ b.point ≤ 6 then (if b.all then (upTo s.par.numAgents).filter (agtUp s) else [b.agent]) else [0] }
  else modLb s fun b => { b with refused := true }

/-- The loop-back merge reservations go (R510). -/
def lbFree (s : State) : State :=
  { s with outf := { s.outf with merges := s.outf.merges.filter (fun m => m.2.loop.isNone) } }

/-- STOP ends a run; the exchanges in flight finish (R510). -/
def lbHalt (s : State) : State :=
  if ¬ s.lb.busy then s else
  lbFree (modLb s fun b => { b with busy := false, done := true, aborted := true, stopping := true })

/-- A bad exchange (R506, R512). -/
def lbBad (s : State) (k a off diff : Nat) : State :=
  modLb s fun b => { b with
    exch := b.exch + 1, bad := b.bad + 1
    firstBad := match b.firstBad with
      | some x => some x
      | none => some (k, a, off, diff) }

/-- A fault on a loop-back access ends the run (R510). -/
def lbPortFault (s : State) : State :=
  let s := match s.lb.flight.head? with
    | some x => lbBad (modLb (readDone s (.loop x.agent)) fun b => { b with flight := b.flight.drop 1 }) x.k x.agent 0x3E 0
    | none => s
  lbHalt (modLb s fun b => { b with mismatch := true })

/-- LB registers (R509–R512). -/
def wrLb (s : State) (o : Nat) (r : WrReq) : State :=
  match o with
  | 0xCC00 =>
    let p := r.f 0 4
    let ok := decide (1 ≤ p) && decide (p ≤ 7)
    let s := modLb s fun b => { b with
      point := if ok then p else b.point, agent := r.f 4 6, all := r.bit 10, unit := r.f 11 3, count := r.f 16 12 }
    let s := wrEnd s r ok
    if r.bit 30 then lbHalt s
    else if r.bit 31 then (if ok then lbStart s else modLb s fun b => { b with refused := true })
    else s
  | 0xCC04 => wrLog (modLb s fun b => { b with pat := BitVec.ofNat 32 r.v }) r
  | 0xCC08 => wrLog (modLb s fun b => { b with buf := baseOf r.v 16 }) r
  | 0xCC10 => modLb s fun b => { b with
      done := b.done && !r.bit 1, mismatch := b.mismatch && !r.bit 2, aborted := b.aborted && !r.bit 3
      refused := b.refused && !r.bit 4 }
  | _ => s

/-- Every context of R270 is FREE: none holds a save slot, on the Root's side or an agent's (R281). -/
def ctxsFree (s : State) : Bool := s.ctxs.isEmpty && s.save.used.isEmpty
/-- SC_SAVE_SLOTS may take a value (R281): 0 not while a graph context is RESIDENT. -/
def slotsOk (s : State) (n : Nat) : Bool :=
  ctxsFree s && decide (n ≤ 512) && (decide (n ≠ 0) || s.gctxs.all (fun x => decide (x.2.st ≠ 2)))

def wrAdm (s : State) (o : Nat) (r : WrReq) : State :=
  if o < 0x40 then wrAdmQ s Config.fnManager o r
  else if o = 0x3100 then
    if ctxsFree s then wrLog { s with save := { s.save with base := baseOf r.v 16 } } r else wrIgnored s r 0
  else if o = 0x3108 then
    if slotsOk s (r.f 0 10) then wrLog { s with save := { s.save with slots := r.f 0 10 } } r else wrIgnored s r 0
  else if 0xC100 ≤ o ∧ o < 0xC500 then (if o % 16 = 12 then s else wrArena s ((o - 0xC100) / 16) (o % 16) r)
  else if 0xC900 ≤ o ∧ o < 0xCB00 then modPart s ((o - 0xC900) / 8) fun x =>
    { x with fsticky := BitVec.ofNat 32 (w1c x.fsticky.toNat r.v 0xFFF) }
  else if (o = 0xC808 ∨ o = 0xC810) ∧ (s.iz.busy.isSome ∨ ¬ s.iz.queue.isEmpty) then wrIgnored s r 0
  else if o = 0xC808 then wrLog { s with iz := { s.iz with tcBase := baseOf r.v 16, cache := [] } } r
  else if o = 0xC810 then wrLog { s with iz := { s.iz with tcSize := r.f 0 16, cache := [] } } r
  else if 0xCC00 ≤ o ∧ o < 0xD000 then wrLb s o r
  else if 0xCB00 ≤ o ∧ o < 0xCC00 then wrSvc s o r
  else s

/-- Put a root word into the root cache: 1,024 words, the least recently used out first (R383). -/
def rootPut (s : State) (key : Nat) (w : W64) : State :=
  let l := s.attn.roots.filter (fun x => x.1 != key)
  let l := if Config.rootCacheMax ≤ l.length then l.drop 1 else l
  { s with attn := { s.attn with roots := l ++ [(key, w)] } }
/-- The root word that the root cache holds, if any. -/
def rootGet (s : State) (key : Nat) : Option W64 := (s.attn.roots.find? (fun x => x.1 == key)).map (·.2)

/-- The commit of PWIN_PTSWAP (R390); `kindOk`: the table handle meets the PAGE_TABLE conditions of R143; `mem`: the root
word in memory, for a root that the cache does not hold. -/
def ptSwap (s : State) (p : Nat) (seq table : Nat) (kindOk : Bool) (mem : W64) : State :=
  let x := getPart s p
  let q := getSeqs s p
  if q.busy then modSeqs s p fun q => { q with dropped := true } else
  let fail := fun (res : Nat) =>
    audit (modSeqs s p fun q => { q with result := res }) 9 Config.fnNone 0x0B res seq table
  let rcl := q.rcl
  let rclOk := rcl == 0 || (rcl / 2 ^ 30 == 0 && flagHandleOk rcl && flagInRange s p rcl)
    || (rcl / 2 ^ 30 == 1 && dflagOk s p rcl)
  let key := p * 65536 + seq
  let root := (rootGet s key).getD mem
  let ep := (fld root 32 16 + 1) % 65536
  if x.st ≠ .maint ∧ x.st ≠ .active then fail 4
  else if q.cnt ≤ seq then fail 1
  else if table ≠ 0 ∧ ¬ kindOk then fail 2
  else if ¬ rclOk then fail 3
  else if (tget 0 s.attn.walks (key * 65536 + ep)) ≠ 0 then fail 5
  else
    let word := table + put ep 32 + put (b2n (decide (table ≠ 0))) 63
    let old := fld root 32 16
    let s := rootPut s key (BitVec.ofNat 64 word)
    let s := if rcl ≠ 0 then { s with attn := { s.attn with reclaim := tput 0 s.attn.reclaim (key * 65536 + old) (rcl + 1) } } else s
    let (_, s) := mgrWrite s p (q.base.toNat + 8 * seq) 8 word (.root p)
    modSeqs s p fun q => { q with busy := true, newEpoch := ep }

/-- Registers of a partition window. While the partition is FREE it ignores writes (R466), with an audit log entry for those
that take effect in MAINT only (R184, R415). -/
def wrPwin (s : State) (p : Nat) (o : Nat) (r : WrReq) : State :=
  let x := getPart s p
  let maint := decide (x.st = .maint)
  if x.st = .free then (if o = 0x060 ∨ o = 0x068 ∨ o = 0x0D0 ∨ o = 0x0D8 then wrIgnored s r 0 else s)
  else if o < 0x40 then wrAdmQ s p o r
  else match o with
  | 0x060 => if maint then wrLog (modPart s p fun x => { x with dflag := baseOf r.v 12 }) r else wrIgnored s r 0
  | 0x068 => if maint then wrLog (modPart s p fun x => { x with dfcnt := r.f 0 30 }) r else wrIgnored s r 0
  | 0x06C => modPart s p fun x => { x with wstat := w1c x.wstat r.v 0x1F }
  | 0x094 => modPart s p fun x => { x with sstat := w1c x.sstat r.v 7 }
  | 0x0C0 => modPart s p fun x => { x with fsticky := BitVec.ofNat 32 (w1c x.fsticky.toNat r.v 0xFFF) }
  | 0x0D0 => if maint then wrLog (modSeqs s p fun q => { q with base := baseOf r.v 12 }) r else wrIgnored s r 0
  | 0x0D8 => if maint ∧ r.f 0 17 ≤ 65536 then wrLog (modSeqs s p fun q => { q with cnt := r.f 0 17 }) r else wrIgnored s r 0
  | 0x0DC => wrLog (modSeqs s p fun q => { q with rcl := r.f 0 32 }) r
  | 0x0E0 => ptSwap s p (r.f 0 16) (r.f 32 32) r.flag r.ext
  | 0x0E8 => modSeqs s p fun q => { q with dropped := q.dropped && !r.bit 4 }
  | 0x118 => modPart s p fun x => { x with pstat := w1c x.pstat r.v 7 }
  | _ => s

/-- A doorbell (R107, R110–R112). -/
def ringBell (s : State) (k : Nat) (r : WrReq) : State :=
  let x := getQueue s k
  let n := 2 ^ x.log2
  let m := 65536 * n
  let bad := modQueue (raiseOn s eDoorbellInvalid (some x.owner) none [(.queue, k), (.value, r.v % 2 ^ 64)]) k fun x => { x with dbInvalid := true }
  let notAhead := modQueue s k fun x => { x with ignored := satN 16 (x.ignored + 1) }
  if x.st = .resetting then notAhead
  else if r.f 16 16 ≠ 0 ∨ r.f 48 16 ≠ 0 ∨ n ≤ r.f 0 16 then bad
  else
    let t := r.f 32 16 * n + r.f 0 16
    let dOld := (x.tail + m - x.head % m) % m
    let dNew := (t + m - x.head % m) % m
    if n < dNew then bad
    else if dNew ≤ dOld then notAhead
    else modQueue s k fun x => { x with tail := t }

def wrDb (s : State) (k o : Nat) (r : WrReq) : State :=
  match o with
  | 0x00 => ringBell s k r
  | 0x08 => modQueue s k fun x => { x with
      idleBit := x.idleBit && !r.bit 3, drainTmoBit := x.drainTmoBit && !r.bit 4, dbInvalid := x.dbInvalid && !r.bit 5 }
  | _ => s

/-- The first TICK message of the coming tick has left: the tick is nearer than the largest TICK_ADV (R28, R210). -/
def tickSent (s : State) : Bool :=
  decide ((s.sched.period - s.sched.elapsed) * 10 <
    (upTo s.par.numAgents).foldl (fun n a => if agtUp s a then max n (fld (agtEntry s a) 16 8) else n) 0)

def wrSch (s : State) (o : Nat) (r : WrReq) : State :=
  match o with
  | 0x00 => if partsQuiet s ∧ 2000 ≤ r.f 0 21 ∧ r.f 0 21 ≤ 2000000 then
      wrLog (if tickSent s then modSched s fun c => { c with periodLate := some (r.f 0 21) }
        else modSched s fun c => { c with periodNext := some (r.f 0 21) }) r
    else wrIgnored s r 0
  | 0x04 =>
    let ok := decide (r.f 0 7 ≤ 64)
    let old := match s.sched.ctrlNext with
      | some w => fld w 0 7
      | none => s.sched.allow
    wrEnd (modSched s fun c => { c with
      ctrlNext := some (BitVec.ofNat 32 ((if ok then r.f 0 7 else old) + put (r.f 16 16) 16)) }) r ok
  | 0x08 =>
    if 1 ≤ r.f 0 9 ∧ r.f 0 9 ≤ 256 then wrLog (modSched s fun c => { c with fillNext := some (r.f 0 9, false) }) r
    else wrIgnored s r 0
  | 0x0C => if r.f 0 16 = 0 then wrIgnored s r 0 else wrLog (modSched s fun c => { c with csliceNext := some (r.f 0 16) }) r
  | 0x1C => modSched s fun c => { c with stat := w1c c.stat r.v 7 }
  | 0x20 => modSched s fun c => { c with fbsel := BitVec.ofNat 32 (r.f 0 6 + put (r.f 16 10) 16 + put (b2n (r.bit 31)) 31) }
  | 0x30 =>
    let x := getQueue s (r.f 0 12)
    modSched s fun c => { c with accsel := r.f 0 12, accdata := [x.engineNs, x.bytes, x.energyNj / 1000] }
  | _ =>
    if 0x1000 ≤ o ∧ o < 0x2000 then
      if r.f 12 12 ≤ 2000 then wrLog (modSched s fun c => { c with
        eqcapNext := tput 0 c.eqcapNext ((o - 0x1000) / 4) (BitVec.ofNat 32 (put (r.f 12 12) 12 + 2 ^ 31)) }) r
      else wrIgnored s r 0
    else s

def wrOut (s : State) (o : Nat) (r : WrReq) : State :=
  if o = 0x4C then { s with outf := { s.outf with err := s.outf.err && !r.bit 0 } } else s

/-- WATCH_SRCCFG and WATCH_SRCWCFG (R445, R458): in effect from the next tick. -/
def wrSrcCfg (s : State) (key : Nat) (r : WrReq) : State :=
  let old := match tget 0#32 s.watch.cfgNext key with
    | 0 => srcCfg s key
    | w => w.toNat
  let okN := decide (0 < r.f 0 8)
  let okW := decide (0 < r.f 8 16)
  let w := (if okN then r.f 0 8 else nbits old 0 8) + put (if okW then r.f 8 16 else nbits old 8 16) 8 + put (r.f 24 2) 24
  wrEnd (modWatch s fun x => { x with cfgNext := tput 0 x.cfgNext key (BitVec.ofNat 32 w) }) r (okN && okW)

def wrWatch (s : State) (o : Nat) (r : WrReq) : State :=
  match o with
  | 0x00 => wrLog (modWatch s fun w => { w with logmin := r.bit 0 }) r
  | 0x18 => wrLog (modWatch s fun w => { w with evacBase := baseOf r.v 12 }) r
  | 0x20 => wrLog (modWatch s fun w => { w with evacSize := r.f 0 16 }) r
  | 0x24 => wrLog (modWatch s fun w => { w with templim := r.f 0 12 }) r
  | _ =>
    let i := (o - 0x1000) / 16
    if o < 0x1000 ∨ ¬ srcExists s i then s
    else match o % 16 with
    | 0 => wrSrcCfg s (i * 2) r
    | 4 => wrSrcCfg s (i * 2 + 1) r
    | 8 =>
      let s := if r.v &&& 0x13 ≠ 0 then wrLog s r else s
      let s := if r.bit 4 then modWatch s fun w => { w with notarget := without w.notarget i } else s
      let s := if r.bit 0 then severeClear s (i * 2) else s
      if r.bit 1 then severeClear s (i * 2 + 1) else s
    | _ => s

/-- The held entry that LOG_RDSEL selects (R503). -/
def logEntry (s : State) (i : Nat) : BitVec 256 := s.log.entries.getD i 0

def wrLogReg (s : State) (o : Nat) (r : WrReq) : State :=
  match o with
  | 0x00 =>
    let okT := decide (0 < r.f 16 16)
    let same := decide (r.f 1 5 = s.log.ringLog2)
    let okR := same || (!s.log.spill && decide (8 ≤ r.f 1 5) && decide (r.f 1 5 ≤ 20))
    wrEnd (modLog s fun l => { l with
      spill := r.bit 0, ringLog2 := if okR then r.f 1 5 else l.ringLog2, thresh := if okT then r.f 16 16 else l.thresh }) r
      (okT && okR)
  | 0x08 => if s.log.spill then wrIgnored s r 0 else wrLog (modLog s fun l => { l with ringBase := baseOf r.v 12 }) r
  | 0x10 =>
    let n := ringSize s
    let h := r.f 0 20
    if n ≤ h ∨ ringUsed s < (h + n - s.log.head % n) % n then wrIgnored s r 0
    else modLog s fun l => { l with head := h }
  | 0x18 => modLog s fun l => { l with
      lostFlag := l.lostFlag && !r.bit 16, spillFault := l.spillFault && !r.bit 17, high := l.high && !r.bit 18 }
  | 0x24 => modLog s fun l => { l with rdsel := r.f 0 12, rddata := l.entries.getD (r.f 0 12) 0 }
  | 0x28 =>
    let n := r.f 0 13
    if s.log.spill ∨ s.log.entries.length < n then wrIgnored s r 0
    else audit (modLog s fun l => { l with entries := l.entries.drop n }) 1 r.fn 0x0E 0 0 n
  | _ => s

def wrXing (s : State) (o : Nat) (r : WrReq) : State :=
  match o with
  | 0x00 => if partsQuiet s then wrLog (modXing s fun x => { x with chip := r.f 0 6 }) r else wrIgnored s r 0
  | 0x04 => if r.f 0 20 = 0 then wrIgnored s r 0 else wrLog (modXing s fun x => { x with holdTmo := r.f 0 20 }) r
  | 0x08 => modXing s fun x => { x with stat := w1c x.stat r.v 7 }
  | _ =>
    if 0x100 ≤ o ∧ o < 0x120 then
      let l := (o - 0x100) / 4
      if s.par.xingLinks ≤ l then s
      else wrLog (modXing s fun x => { x with links := tput {} x.links l { tget {} x.links l with enable := r.bit 0 } }) r
    else if 0x200 ≤ o ∧ o < 0x300 then
      let c := (o - 0x200) / 4
      let ok := decide (r.f 0 3 < s.par.xingLinks)
      if ¬ partsQuiet s then wrIgnored s r 0
      else wrEnd (modXing s fun x => { x with routes := tput 0 x.routes c (BitVec.ofNat 32
        ((if ok then r.f 0 3 else (tget 0#32 x.routes c).toNat % 8) + put (b2n (r.bit 3)) 3)) }) r ok
    else s

/-- Send the berm parameters to a stack agent (R437, R438). -/
def sendBerm (s : State) (a : Nat) : State :=
  let k := getStack s a
  rootWrite s a 0x7100 3 (k.bermCfg.toNat % 2 ^ 24 + put (k.bermQ.toNat % 2 ^ 20) 32) 5

/-- Registers of a stack agent (R438). DEDUCED (log entry 74): LEN 0 is a reserved encoding under R11, so it leaves LEN as it
is, and GUARD and HOLD are held against the LEN that stands. -/
def wrStack (s : State) (a o : Nat) (r : WrReq) : State :=
  if ¬ stackIf s a then s else
  let gate := fun (f : Stack → Stack) => if s.stew.enable then wrIgnored s r 0 else wrLog (modStack s a f) r
  match o with
  | 0x00 => gate fun k => { k with dramBase := baseOf r.v 16 }
  | 0x08 => gate fun k => { k with dramUnits := r.f 0 24 }
  | 0x0C => gate fun k => { k with nvUnits := r.f 0 24 }
  | 0x10 => gate fun k => { k with nvBase := baseOf r.v 20 }
  | 0x18 => gate fun k => { k with dir := r.f 0 32 }
  | 0x1C => gate fun k => { k with led := r.f 0 32 }
  | 0x20 => gate fun k => { k with endur := r.f 0 32 }
  | 0x24 =>
    let ok := decide (r.f 0 8 ≠ 0)
    let len := if ok then r.f 0 8 else fld (getStack s a).bermCfg 0 8
    if r.f 8 8 < len + 3 ∨ r.f 16 8 < r.f 8 8 then wrIgnored s r 0
    else sendBerm (wrEnd (modStack s a fun k => { k with bermCfg := BitVec.ofNat 32 (len + put (r.f 8 16) 8) }) r ok) a
  | 0x28 => sendBerm (wrLog (modStack s a fun k => { k with bermQ := BitVec.ofNat 32 (r.f 0 20) }) r) a
  | _ => s

def wrStew (s : State) (o : Nat) (r : WrReq) : State :=
  match o with
  | 0x00 => wrLog (modStew s fun x => { x with enable := r.bit 0 }) r
  | 0x04 => modStew s fun x => { x with stat := w1c x.stat r.v 0x7F }
  | 0x08 => if s.stew.enable then wrIgnored s r 0 else wrLog (modStew s fun x => { x with dirBase := baseOf r.v 12 }) r
  | 0x10 => if s.stew.enable then wrIgnored s r 0 else wrLog (modStew s fun x => { x with ledBase := baseOf r.v 12 }) r
  | 0x18 => modStew s fun x => { x with ledsel := BitVec.ofNat 32 (r.f 0 6 + put (r.f 8 24) 8), ledger := r.ext }
  | _ => if 0x1000 ≤ o ∧ o < 0x2000 then wrStack s ((o - 0x1000) / 0x40) (o % 0x40) r else s

def wrBasin (s : State) (o : Nat) (r : WrReq) : State :=
  if o = 0 then modBasin s fun b => { b with full := b.full && !r.bit 29, expired := b.expired && !r.bit 30 } else s

/-- The TEST region (R11, R42, R460, R513): every write makes an entry with origin 0x0C; a reserved code is not taken. -/
def wrTest (s : State) (o : Nat) (r : WrReq) : State :=
  if o = 0 then s
  else if ¬ s.glb.testLatched then audit s 0x0C r.fn 2 0 r.addr r.v
  else
    let ok := o = 0x100 ∨ codeListed (r.f 0 16)
    let s := audit s 0x0C r.fn (if ok then 1 else 2) 0 r.addr r.v
    let w := BitVec.ofNat 32 r.v
    if o = 0x100 then injectPair { s with test := { s.test with injPair := BitVec.ofNat 32 (r.f 0 14) } } s.test.injPair w
    else
      let code := if ok then r.f 0 16 else fld s.test.injEv 0 16
      let s := { s with test := { s.test with injEv := BitVec.ofNat 32 (code + put (r.f 16 14) 16) } }
      if r.bit 31 ∧ ok then
        let s := audit s 0x0C r.fn 1 (r.f 0 16) r.addr r.v
        injectEvent s (r.f 0 16) (if r.bit 22 then some (r.f 16 6) else none) (if r.bit 29 then some (r.f 23 6) else none)
      else s

/-- The effect of a whole write on the register at an offset of a region. -/
def regWrite (s : State) (g : Rg) (o : Nat) (r : WrReq) : State :=
  match g with
  | .glb => wrGlb s o r
  | .adm => wrAdm s o r
  | .pwin p => wrPwin s p o r
  | .db q => wrDb s q o r
  | .sch => wrSch s o r
  | .out => wrOut s o r
  | .watch => wrWatch s o r
  | .log => wrLogReg s o r
  | .xing => wrXing s o r
  | .stew => wrStew s o r
  | .basin => wrBasin s o r
  | .test => wrTest s o r
  | _ => s

end Sys2Proof.Machine
end

