-- ==== Sys2Proof/Machine/HostPort.lean ====
section
/-! DEFINITION. The subordinate port: decode of an access, the sizes and functions it admits, what is answered before READY
(R6, R39–R43, R79), register messages at the agents (R53, R285, R315, R316), and the commands for registers with a behaviour
of their own. -/

namespace Sys2Proof.Machine

/-- Part the accesses without a response into those whose response goes out now and the rest: an access is answered once its
data is known and no earlier one of its ID and direction waits (R39). `held`: IDs and directions that have one waiting. -/
def owedSplit : List Owed → List (Nat × Bool) → List Owed × List Owed
  | [], _ => ([], [])
  | e :: l, held =>
    if e.val.isSome && !held.contains (e.id, e.wr) then (e :: (owedSplit l held).1, (owedSplit l held).2)
    else ((owedSplit l ((e.id, e.wr) :: held)).1, e :: (owedSplit l ((e.id, e.wr) :: held)).2)

/-- Give every response that the order of its ID allows (R39). -/
def answerOwed (p : Port) : Port :=
  let r := owedSplit p.owed []
  let p := { p with owed := r.2, resps := r.1, respCount := p.respCount + r.1.length }
  match r.1.getLast? with
  | some e => { p with resp := BitVec.ofNat 128 (e.val.getD 0), respId := e.id }
  | none => p

/-- The data of an access in hand: the one accepted that is neither answered nor held for an agent's reply. -/
def Owed.fill (v : Nat) (e : Owed) : Owed := if e.rtag.isNone && e.val.isNone then { e with val := some v } else e

/-- Answer the access in hand (R39). -/
def respond (s : State) (v : Nat) : State :=
  { s with port := answerOwed { s.port with owed := s.port.owed.map (Owed.fill v) } }

/-- Accept an access: its response is owed (R39). -/
def accept (s : State) (x : Access) : State :=
  { s with port := { s.port with owed := s.port.owed ++ [{ id := x.id % 256, wr := x.wr, rtag := none, val := none }] } }

/-- Outstanding accesses of a direction; the port takes up to 32 of each (R39). -/
def owedOf (s : State) (wr : Bool) : Nat := (s.port.owed.filter (fun e => e.wr == wr)).length

/-- The access in hand waits for the reply with an RTAG (R43). -/
def holdFor (t : Nat) (s : State) : State :=
  { s with port := { s.port with
    owed := s.port.owed.map (fun e => if e.rtag.isNone && e.val.isNone then { e with rtag := some t } else e) } }
/-- Its reply has come, or its time has passed: it is the access in hand again. -/
def unhold (t : Nat) (s : State) : State :=
  { s with port := { s.port with owed := s.port.owed.map (fun e => if e.rtag = some t then { e with rtag := none } else e) } }

/-- A denied access, or one to a reserved range (R42): E_ACCESS_DENIED names the function and the address. A function
below 64 is the partition too. -/
def denied (s : State) (fn addr : Nat) : State :=
  respond (raiseOn s eAccessDenied (if fn < 64 then some fn else none) none [(.fn, fn), (.addr, addr)]) 0

/-- A malformed access (R41). -/
def malformed (s : State) (x : Access) : State := respond (audit s 1 x.fn 3 x.size x.addr 0) 0

/-- The function may make an access in a region (R42, R465); only its own function reaches a partition's admin queue (R85). -/
def admits (s : State) (g : Rg) (o fn : Nat) (wr : Bool) : Bool :=
  if fn = Config.fnManager then (match g with
    | .db _ => false
    | .pwin _ => decide (0x024 ≤ o)
    | .agent a => decide (a < s.par.numAgents)
    | .none => false
    | _ => true)
  else if 64 ≤ fn then false
  else match g with
    | .glb => !wr && (o / 4 == 0 || o / 4 == 2)
    | .pwin p => p == fn
    | .db q => decide ((getQueue s q).st ≠ .unused) && (getQueue s q).owner == fn
    | .flags => flagInRange s fn (o / 8)
    | _ => false

/-- What is answered normally before READY (R79). -/
def earlyOk (s : State) (g : Rg) (o : Nat) (x : Access) : Bool :=
  match g with
  | .test => x.fn == Config.fnManager && x.wr && s.glb.testLatched
  | .glb =>
    if x.fn = Config.fnManager then
      (if x.wr then o / 4 == 3 || o / 4 == 4 else o / 4 ≤ 2 || (decide (0x010 ≤ o) && decide (o < 0x01C)) ||
        (decide (0x020 ≤ o) && decide (o < 0x028)) ||
        (decide (0x100 ≤ o) && decide (o < 0x300)))
    else decide (x.fn < 64) && !x.wr && (o / 4 == 0 || o / 4 == 2)
  | _ => false

/-- Aligned, of the size given, and for a write with every strobe set (R40). -/
def shaped (x : Access) (n : Nat) : Bool := x.size == n && decide (x.addr % n = 0) && (!x.wr || x.strobes == 2 ^ n - 1)

/-- Low words written last, and high words latched, by block-window address. -/
def halfGet (l : List Half) (a : Nat) : Option W32 := (l.find? (fun h => h.addr == a)).map (·.word)
def halfPut (l : List Half) (a : Nat) (w : W32) : List Half := { addr := a, word := w } :: l.filter (fun h => h.addr != a)

/-- A word of 64-bit data memory holds a double-bit error within a range of bytes (R253). -/
def eccHit (c : Core) (a n : Nat) : List Nat := c.ecc2.filter (fun w => decide (w < a + n) && decide (a < w + 8))

/-- A read of a register (R6, R8): `w` is 32-bit or 64-bit. DESIGN CHOICE (log entry 14): a read of the high word takes the
word that the last read of the low word latched, once; with none latched it takes the word as it stands. -/
def readReg (s : State) (g : Rg) (o : Nat) (x : Access) : State :=
  match regHolding s g o with
  | none => denied s x.fn x.addr
  | some (b, wide, v) =>
    let hiAddr := x.addr - o + b + 4
    if shaped x 4 then
      if ¬ wide then respond (onRead s g b true false 0) v
      else if o = b then
        let s := { s with port := { s.port with rlatch := halfPut s.port.rlatch hiAddr (BitVec.ofNat 32 (v / 2 ^ 32)) } }
        respond (onRead s g b true false 0) (v % 2 ^ 32)
      else
        let hi := match halfGet s.port.rlatch hiAddr with
          | some w => w.toNat
          | none => v / 2 ^ 32
        let s := { s with port := { s.port with rlatch := s.port.rlatch.filter (fun h => h.addr != hiAddr) } }
        respond (onRead s g b false true hi) hi
    else if wide ∧ o = b ∧ shaped x 8 then respond (onRead s g b true true (v / 2 ^ 32)) v
    else malformed s x

/-- A write of a register (R6, R8, R40). -/
def writeReg (s : State) (g : Rg) (o : Nat) (x : Access) (ext : W64) (flag : Bool) : State :=
  match regHolding s g o with
  | none => denied s x.fn x.addr
  | some (b, wide, _) =>
    let base := x.addr - o + b
    let req := fun (v : Nat) => ({ fn := x.fn, addr := base, v := v, ext := ext, flag := flag } : WrReq)
    let isDb : Bool := match g with
      | .db _ => b == 0
      | _ => false
    let setLow := fun (s : State) (w : Nat) =>
      { s with port := { s.port with wlatch := halfPut s.port.wlatch base (BitVec.ofNat 32 w) } }
    if shaped x 4 && !isDb then
      if ¬ wide then respond (regWrite s g b (req (x.data.toNat % 2 ^ 32))) 0
      else if o = b then respond (setLow s (x.data.toNat % 2 ^ 32)) 0
      else
        let low := ((halfGet s.port.wlatch base).getD 0).toNat
        respond (regWrite s g b (req (low + 2 ^ 32 * (x.data.toNat % 2 ^ 32)))) 0
    else if wide ∧ o = b ∧ shaped x 8 then
      respond (regWrite (setLow s (x.data.toNat % 2 ^ 32)) g b (req (x.data.toNat % 2 ^ 64))) 0
    else malformed s x

/-- The flag region (R40, R163). -/
def flagAccess (s : State) (o : Nat) (x : Access) : State :=
  if ¬ shaped x 8 then malformed s x
  else if ¬ x.wr then respond s (flagWord s (o / 8)).toNat
  else if s.glb.frozen then respond s 0
  else respond (queueSigs s [{
    src := 500, part := x.fn % 64, handle := o / 8, op := 5
    x := x.data.toNat % 2 ^ 62 + put (b2n (x.data.getLsbD 63)) 63, launch := 0 }]) 0

/-- Words of an instruction-memory bank as one number. -/
def bankRead (b : Tbl W32) (i : Nat) : Nat → Nat
  | 0 => 0
  | n + 1 => (tget 0#32 b i).toNat + 2 ^ 32 * bankRead b (i + 1) n
def bankWrite (b : Tbl W32) (i : Nat) (v : Nat) : Nat → Tbl W32
  | 0 => b
  | n + 1 => bankWrite (tput 0 b i (BitVec.ofNat 32 v)) (i + 1) (v / 2 ^ 32) n

/-- A Root core's instruction-memory window (R275). -/
def imemAccess (s : State) (core : Nat) (bankB : Bool) (o : Nat) (x : Access) : State :=
  if ¬ (shaped x 4 || shaped x 8 || shaped x 16) then malformed s x else
  let c := getCore s core
  let b := if bankB then c.imemB else c.imemA
  if ¬ x.wr then respond s (bankRead b (o / 4) (x.size / 4))
  else if c.bankB = bankB ∨ c.staged then
    respond (raiseOn (audit s 1 x.fn 2 eImemActive x.addr x.data.toNat) eImemActive none none [(.core, core), (.offset, o)]) 0
  else
    let s := if c.wroteInactive then s else audit s 1 x.fn 1 0 x.addr x.data.toNat
    respond (modCore s core fun c => { setInactive c (bankWrite b (o / 4) x.data.toNat (x.size / 4)) with wroteInactive := true }) 0

/-- Lines of data memory that a range of bytes touches. -/
def linesOf (a n : Nat) : List Nat := (List.range ((a % 64 + n + 63) / 64)).map (fun k => a / 64 + k)

/-- The LAUNCH_ID of the context on a core, for an event that names it. -/
def ctxItems (s : State) (core : Nat) : List (Item × Nat) :=
  match (getCore s core).run with
  | some k => [(.launch, (getCtx s core k).launch)]
  | none => []

/-- A Root core's data-memory window (R253). -/
def dmemAccess (s : State) (core o : Nat) (x : Access) : State :=
  if ¬ (shaped x 4 || shaped x 8 || shaped x 16) then malformed s x else
  let c := getCore s core
  if ¬ x.wr then
    let bad := eccHit c o x.size
    let one := c.ecc1.filter (fun w => decide (w < o + x.size) && decide (o < w + 8))
    let s := modCore s core fun c => { c with ecc1 := c.ecc1.filter (fun w => !one.contains w), corr := satN 16 (c.corr + one.length) }
    let s := bad.foldl (fun s w => raiseOn s eDmemEcc none none ([(.core, core), (.addr, w)] ++ ctxItems s core)) s
    respond s (readBytes (bad.foldl (fun m w => writeBytes m w 0 8) c.dmem) o x.size)
  else if c.owner.isEmpty ∨ s.glb.testLatched then
    respond (modCore s core fun c => { c with
      dmem := writeBytes c.dmem o x.data.toNat x.size, written := (linesOf o x.size).foldl insertNat c.written
      ecc1 := c.ecc1.filter (fun w => !(decide (o ≤ w) && decide (w + 8 ≤ o + x.size)))
      ecc2 := c.ecc2.filter (fun w => !(decide (o ≤ w) && decide (w + 8 ≤ o + x.size))) }) 0
  else respond (audit s 1 x.fn 2 0 x.addr x.data.toNat) 0

/-- An agent window access travels as a register message (R43); 0x7000 and up are reserved to the host (R275, R285). -/
def agentAccess (s : State) (a o : Nat) (x : Access) : State :=
  if 0x7000 ≤ o then denied s x.fn x.addr
  else if ¬ shaped x 4 then malformed s x
  else holdFor s.port.nextRtag <| sendReg s a (fun t => if x.wr then .regWrite o t 2 15 (BitVec.ofNat 256 (x.data.toNat % 2 ^ 32)) else .regRead o t 2)
    { fn := x.fn, addr := x.addr, wr := x.wr, data := BitVec.ofNat 64 x.data.toNat, agent := a }

/-- What an accepted access does (R39–R43). DESIGN CHOICE (log entry 73): one that is both denied or reserved and malformed
is a denied one. -/
def serveAccess (s : State) (x : Access) (ext : W64) (flag : Bool) : State :=
  let r := regionOf x.addr
  let g := r.1
  let o := r.2
  if ¬ isReady s ∧ ¬ earlyOk s g o x then
    respond (modGlb s fun w => { w with early := satN 16 (w.early + 1) }) 0
  else if ¬ admits s g o x.fn x.wr then denied s x.fn x.addr
  else match g with
    | .flags => flagAccess s o x
    | .imem c b => imemAccess s c b o x
    | .dmem c => dmemAccess s c o x
    | .agent a => agentAccess s a o x
    | .none => denied s x.fn x.addr
    | _ => if x.wr then writeReg s g o x ext flag else readReg s g o x

/-- Every access of the subordinate port; `ext`, `flag`: what the block reads outside itself for it. With 32 of its direction
outstanding the port takes none (R39). -/
def subAccess (s : State) (x : Access) (ext : W64) (flag : Bool) : State :=
  if s.glb.warmBegun ∨ 2 ^ 26 ≤ x.addr ∨ 32 ≤ owedOf s x.wr then s else serveAccess (accept s x) x ext flag

/-- An access whose write needs a word from outside the block: STEW_LEDSEL's ledger word, PWIN_PTSWAP's root and table. -/
def needsExt (x : Access) : Bool :=
  x.wr && match regionOf x.addr with
    | (.stew, 0x18) => true
    | (.pwin _, 0x0E4) => true
    | (.pwin _, 0x0E0) => true
    | _ => false

/-- A subordinate-port access (R39–R43). What such a write reads outside the block is free here; the rows STEW_LEDSEL_WRITE
and PT_SWAP carry it. -/
def execHostAccess (x : Access) (s : State) : Host.Outcome State Fault Refusal :=
  liveRoot s fun s => if needsExt x then (let (w, s) := takeFree s
                                          subAccess s x w (bitOf w 63)) else subAccess s x 0 false

/-- A 32-bit write, and a 64-bit write, with every strobe set. -/
def wr32 (fn addr : Nat) (v : W32) : Access := { fn := fn, addr := addr, size := 4, wr := true, strobes := 15, data := v.setWidth 128 }
def wr64 (fn addr : Nat) (v : W64) : Access := { fn := fn, addr := addr, size := 8, wr := true, strobes := 255, data := v.setWidth 128 }
def rd32 (fn addr : Nat) : Access := { fn := fn, addr := addr, size := 4, wr := false, strobes := 15, data := 0 }

/-- Base of an admin queue's registers: the ADM region, or the partition's window (R85). -/
def admBase (q : Nat) : Nat := if q = Config.fnManager then 0x1000 else 0x10000 + q * 0x1000

def execWarmReset (fn : Nat) (s : State) : Host.Outcome State Fault Refusal := liveRoot s fun s => subAccess s (wr32 fn 0x00C 1) 0 false
def execDoorbell (fn q : Nat) (data : W64) (s : State) : Host.Outcome State Fault Refusal :=
  liveRoot s fun s => subAccess s (wr64 fn (0x100000 + q % 4096 * 0x40) data) 0 false
def execFlagRegionWrite (fn i : Nat) (data : W64) (s : State) : Host.Outcome State Fault Refusal :=
  liveRoot s fun s => subAccess s (wr64 fn (0x200000 + i % 65536 * 8) data) 0 false
def execPwinWerrinfoRead (fn p : Nat) (s : State) : Host.Outcome State Fault Refusal :=
  liveRoot s fun s => subAccess s (rd32 fn (0x10080 + p % 64 * 0x1000)) 0 false
/-- A read of the word at an address, the low word of a 64-bit register (R6). -/
def execWordLatchRead (fn addr : Nat) (s : State) : Host.Outcome State Fault Refusal := liveRoot s fun s => subAccess s (rd32 fn addr) 0 false
/-- A write to an instruction-memory window; another access is no such command. -/
def execImemWindowWrite (x : Access) (s : State) : Host.Outcome State Fault Refusal :=
  liveRoot s fun s => match regionOf x.addr with
    | (.imem _ _, _) => if x.wr then subAccess s x 0 false else s
    | _ => s
def execDmemWindowWrite (x : Access) (s : State) : Host.Outcome State Fault Refusal :=
  liveRoot s fun s => match regionOf x.addr with
    | (.dmem _, _) => if x.wr then subAccess s x 0 false else s
    | _ => s
def execSchPeriodWrite (fn : Nat) (data : W32) (s : State) : Host.Outcome State Fault Refusal := liveRoot s fun s => subAccess s (wr32 fn 0x300000 data) 0 false
def execSchAccselWrite (fn : Nat) (data : W32) (s : State) : Host.Outcome State Fault Refusal := liveRoot s fun s => subAccess s (wr32 fn 0x300030 data) 0 false
/-- `word`: the selected region's ledger word, as read from memory. -/
def execStewLedselWrite (fn : Nat) (data : W32) (word : W64) (s : State) : Host.Outcome State Fault Refusal :=
  liveRoot s fun s => subAccess s (wr32 fn 0x350018 data) word false
def execLogRdselWrite (fn : Nat) (data : W32) (s : State) : Host.Outcome State Fault Refusal := liveRoot s fun s => subAccess s (wr32 fn 0x330024 data) 0 false
def execLogPop (fn : Nat) (data : W32) (s : State) : Host.Outcome State Fault Refusal := liveRoot s fun s => subAccess s (wr32 fn 0x330028 data) 0 false
def execLogHeadWrite (fn : Nat) (data : W32) (s : State) : Host.Outcome State Fault Refusal := liveRoot s fun s => subAccess s (wr32 fn 0x330010 data) 0 false
def execWatchSevereClear (fn index : Nat) (data : W32) (s : State) : Host.Outcome State Fault Refusal :=
  liveRoot s fun s => subAccess s (wr32 fn (0x321008 + index % 2304 * 16) data) 0 false
def execAdmQcfgWrite (fn q : Nat) (data : W32) (s : State) : Host.Outcome State Fault Refusal :=
  liveRoot s fun s => subAccess s (wr32 fn (admBase (q % 65) + 0x010) data) 0 false
def execAdmSqtailWrite (fn q : Nat) (data : W32) (s : State) : Host.Outcome State Fault Refusal :=
  liveRoot s fun s => subAccess s (wr32 fn (admBase (q % 65) + 0x014) data) 0 false
def execAdmCqheadWrite (fn q : Nat) (data : W32) (s : State) : Host.Outcome State Fault Refusal :=
  liveRoot s fun s => subAccess s (wr32 fn (admBase (q % 65) + 0x01C) data) 0 false
/-- The high-word write of PWIN_PTSWAP; `root`: the root word in memory; `kindOk`: the table handle meets R143's conditions. -/
def execPtSwap (fn p : Nat) (table : W32) (kindOk : Bool) (root : W64) (s : State) : Host.Outcome State Fault Refusal :=
  liveRoot s fun s => subAccess s (wr32 fn (0x100E4 + p % 64 * 0x1000) table) root kindOk
def execSvcModeWrite (fn : Nat) (data : W32) (s : State) : Host.Outcome State Fault Refusal := liveRoot s fun s => subAccess s (wr32 fn 0xDB00 data) 0 false
/-- A write of LB_CTRL with GO (R509). -/
def execLbGo (fn : Nat) (data : W32) (s : State) : Host.Outcome State Fault Refusal :=
  liveRoot s fun s => subAccess s (wr32 fn 0xDC00 (BitVec.ofNat 32 (setBit data.toNat 31))) 0 false
/-- A write of LB_CTRL with STOP (R510). -/
def execLbStop (fn : Nat) (data : W32) (s : State) : Host.Outcome State Fault Refusal :=
  liveRoot s fun s => subAccess s (wr32 fn 0xDC00 (BitVec.ofNat 32 (setBit data.toNat 30))) 0 false
def execTestInjpair (fn : Nat) (data : W32) (s : State) : Host.Outcome State Fault Refusal := liveRoot s fun s => subAccess s (wr32 fn 0x370100 data) 0 false
def execTestInjev (fn : Nat) (data : W32) (s : State) : Host.Outcome State Fault Refusal := liveRoot s fun s => subAccess s (wr32 fn 0x370104 data) 0 false

/-- EQ_STAT (R316): a slot is in use until its macro-op's completion has left (R282). -/
def eqStat (q : EqQ) : Nat :=
  let stopped := q.be.head?.any (fun e => decide (e.st = .stopped))
  let ending := fun (be : Bool) => (q.done_.filter (fun e => e.be == be)).length
  q.lc.length + ending false + put (q.be.length + ending true) 8 + put (b2n q.pres.isSome) 16 + put (b2n stopped) 17
    + put (b2n (q.recs.any (fun r => r.2.paused))) 18 + put (b2n q.wait.isSome) 19 + put (b2n q.preempt.isSome) 20

/-- Registers of a local engine queue (R316). -/
def regEq (s : State) (a l o : Nat) : Option Nat :=
  let q := getEq s a l
  let v := match o with
    | 0x00 => some (eqCap s (a * 16 + l)).toNat
    | 0x04 => some (eqStat q)
    | 0x08 => some q.count
    | 0x0C => some (q.skips + put q.faults 16)
    | 0x10 => some (q.lastCause + put q.lastOpc 8 + put q.lastTag 16)
    | 0x14 => some q.lastId
    | 0x18 => some q.preempts
    | _ => none
  if (eqPresent s a).testBit l then v else v.map (fun _ => 0)

/-- The agent window as the agent presents it (R53, R64, R65, R280, R315, R316, R480, R514). -/
def regAgent (s : State) (a o : Nat) : Option Nat :=
  let g := getAgent s a
  match o with
  | 0x0000 => some (glbId (some a))
  | 0x0004 => some (agentCfg s a)
  | 0x0010 => some (eqPresent s a)
  | 0x0020 => some g.age.toNat
  | 0x0030 => some g.mbist.toNat
  | 0x7200 => some (g.cal.toNat % 2 ^ 32)
  | 0x7204 => some (g.cal.toNat / 2 ^ 32)
  | _ =>
    if 0x400 ≤ o ∧ o < 0x41C then (regSc g.core 3 (runOf s (0x200 + a)) (o - 0x400)).map (·.2)
    else if 0x1000 ≤ o ∧ o < 0x1400 then regEq s a ((o - 0x1000) / 0x40) (o % 0x40)
    else none

/-- What a register read clears at an agent (R8 RC). -/
def agentOnRead (s : State) (a o : Nat) : State :=
  if 0x1000 ≤ o ∧ o < 0x1400 then modEq s a ((o - 0x1000) / 0x40) fun q =>
    match o % 0x40 with
    | 0x08 => { q with count := 0 }
    | 0x0C => { q with skips := 0, faults := 0 }
    | 0x18 => { q with preempts := 0 }
    | _ => q
  else modAgent s a fun g => { g with core := match o with
      | 0x408 => { g.core with skip := 0 }
      | 0x40C => { g.core with corr := 0, uncorr := 0 }
      | 0x418 => { g.core with saves := 0 }
      | _ => g.core }

/-- Bytes of a number under byte strobes: the new one where the strobe is set, else the old (R53). -/
def strobed (old d st : Nat) : Nat → Nat
  | 0 => 0
  | n + 1 => nbits (if st.testBit 0 then d else old) 0 8 + 256 * strobed (old / 256) (d / 256) (st / 2) n

/-- Write data of a register message into a bank, under its strobes. -/
def bankStore (b : Tbl W32) (i st d n : Nat) : Tbl W32 := bankWrite b i (strobed (bankRead b i n) d st (4 * n)) n

/-- The 64-bit words that the Root writes at an agent: the berm parameters (R437) and the calibration word (R53). -/
def agentWide (g : Agent) (o : Nat) : Option Nat :=
  match o with
  | 0x7100 => some (pack [(8, g.berm.len), (8, g.berm.guard), (8, g.berm.hold), (8, 0), (16, g.berm.mask), (16, g.berm.svcEq)])
  | 0x7200 => some g.cal.toNat
  | _ => none
def setWide (g : Agent) (o v : Nat) : Agent :=
  if o = 0x7100 then { g with berm := { g.berm with
    len := nbits v 0 8, guard := nbits v 8 8, hold := nbits v 16 8, mask := nbits v 32 16, svcEq := nbits v 48 4 } }
  else { g with cal := BitVec.ofNat 64 v }

/-- The agent answers a register read (R53). -/
def agentRead (s : State) (a o t z : Nat) : State :=
  let g := getAgent s a
  let done := fun (s : State) (v : Nat) => sendUp s a (.regReply o t 0 (BitVec.ofNat 256 v))
  if 0x20000 ≤ o ∧ o < 0x60000 then
    done s (bankRead (if o < 0x40000 then g.core.imemA else g.core.imemB) (o % 0x20000 / 4) (2 ^ z / 4))
  else match agentWide g (o / 8 * 8), regAgent s a o with
    | some v, _ => if z ≤ 3 then done s (v / 2 ^ (8 * (o % 8)) % 2 ^ (8 * 2 ^ z)) else sendUp s a (.regReply o t 1 0)
    | none, some v => if z = 2 then done (agentOnRead s a o) (v % 2 ^ 32) else sendUp s a (.regReply o t 1 0)
    | none, none => sendUp s a (.regReply o t 1 0)

/-- The agent applies a register write (R53, R275, R437). -/
def agentWrite (s : State) (a o t z st : Nat) (d : BitVec 256) : State :=
  let g := getAgent s a
  let ok := fun (s : State) => sendUp s a (.regReply o t 0 0)
  if 0x20000 ≤ o ∧ o < 0x60000 then
    let toB := decide (0x40000 ≤ o)
    if g.core.bankB = toB ∨ g.core.staged then sendUp s a (.regReply o t 2 0)
    else ok (modAgent s a fun g => { g with
      core := { setInactive g.core (bankStore (inactiveBank g.core) (o % 0x20000 / 4) st d.toNat (2 ^ z / 4)) with
        wroteInactive := true } })
  else match agentWide g (o / 8 * 8), regAgent s a o with
    | some v, _ => if z ≤ 3 then
        ok (modAgent s a fun g => setWide g (o / 8 * 8) (strobed v (d.toNat * 2 ^ (8 * (o % 8))) (st * 2 ^ (o % 8)) 8))
      else sendUp s a (.regReply o t 1 0)
    | none, some _ => ok s
    | none, none => sendUp s a (.regReply o t 1 0)

/-- An agent takes a register message that is no engine queue command (R53; those are the EQX rows). -/
def agentReg (s : State) (a : Nat) : State :=
  match downHead s a with
  | some (.regRead o t z) => agentRead (takeDown s a) a o t z
  | some (.regWrite o t z st d) =>
    if o = 0x7000 ∨ o = 0x7008 ∨ o = 0x7010 then s else agentWrite (takeDown s a) a o t z st d
  | _ => s

def execAgentRegRequest (a : Nat) (s : State) : Host.Outcome State Fault Refusal := liveAgent s a fun s => agentReg s a

/-- An answer to a register message (R43, R53, R77); E_IMEM_ACTIVE is named where the write was refused (R275). -/
def takeReply (s : State) (a t res : Nat) (d : BitVec 256) : State :=
  match kget s.port.held t with
  | none => s
  | some h =>
    if h.agent ≠ a then s else
    let s := { s with port := { s.port with held := kdel s.port.held t } }
    let active := fun (s : State) => raiseOn s eImemActive none (some a) [(.core, 0x200 + a), (.offset, h.addr % 0x20000)]
    match h.internal with
    | 0 =>
      let s := unhold t s
      if res = 0 then respond s (if h.wr then 0 else d.toNat % 2 ^ 32)
      else if res = 1 then denied s h.fn h.addr
      else respond (active s) 0
    | 2 => bringRead s a 2 (BitVec.ofNat 32 d.toNat)
    | 3 => bringRead s a 3 (BitVec.ofNat 32 d.toNat)
    | 4 => bringRead s a 4 (BitVec.ofNat 32 d.toNat)
    | 6 => imemAnswer (if res = 2 then active s else s) a res
    | _ => if res = 2 then active s else s

end Sys2Proof.Machine
end

