-- ==== Sys2Proof/Machine/Inlet.lean ====
section
/-! DEFINITION. The Inlet: fetch arbitration, bursts, descriptor and fragment arrival, fetch faults, and how launches and
chains leave it (R107, R108, R112–R123, R139, R140, R521). -/

namespace Sys2Proof.Machine

/-- The slice holder of a partition and class, when it is eligible (R115, step 2). -/
def holderOf (s : State) (p : Nat) (be : Bool) : Option Nat :=
  match sliceNext s p be with
  | 0 => none
  | h + 1 => if (eligibleOf s p be).contains h then some h else none

/-- Eligible slice holders of a class, in ascending partition ID starting after the last partition served. -/
def holders (s : State) (be : Bool) : List (Nat × Nat) :=
  let last := if be then s.inlet.lastBe else s.inlet.lastLc
  ((upTo 64).map (fun i => (last + 1 + i) % 64)).filterMap (fun p => (holderOf s p be).map (fun h => (p, h)))

/-- A round of a class starts: every slice holder of the class, eligible or not, gets its WEIGHT (R115, step 3). -/
def newRound (s : State) (be : Bool) : State :=
  let hs := s.inlet.holder.filter (fun x => x.1 % 2 == b2n be && decide (0 < x.2))
  { s with inlet := { s.inlet with
    credit := hs.foldl (fun t x => tput 0 t x.1 (getQueue s (x.2 - 1)).weight) s.inlet.credit } }

/-- Fetch n descriptors of a queue from its fetch position (R116, R123): a launch is outstanding from here on. -/
def fetchN (s : State) (q : Nat) : Nat → State
  | 0 => s
  | n + 1 =>
    let x := getQueue s q
    let pos := (x.head + x.issued) % ringMod x
    let s := setLaunch s (freshKey s (launchId q pos)) {
      queue := q, pos := pos, seqNo := s.inlet.nextSeq, part := x.owner, broken := x.broken, pasid := (getPart s x.owner).pasid
      recAt := x.ringBase.toNat + 2 ^ x.log2 * 64 + pos % 2 ^ x.log2 * 16 }
    let s := { s with inlet := { s.inlet with nextSeq := s.inlet.nextSeq + 1 } }
    fetchN (modQueue s q fun x => { x with issued := x.issued + 1, broken := 0 }) q n

/-- The burst of R116, as AXI reads. -/
def burst (s : State) (q : Nat) : State :=
  let x := getQueue s q
  let i := (x.head + x.issued) % 2 ^ x.log2
  let n := min (min x.burst (unissued x)) (min (2 ^ x.log2 - i) (inletRoom s q))
  (cutReads (n + 1) (x.ringBase.toNat + i * 64) (n * 64)).foldl (fun s r => mgrRead s x.owner r.1 r.2 (.ring q)) (fetchN s q n)

/-- One grant of R115. -/
def fetchGrant (s : State) : State :=
  let s := passSlices s
  let lc := holders s false
  let beH := holders s true
  if s.glb.frozen ∨ (lc.isEmpty ∧ beH.isEmpty) then s else
  let be := (s.inlet.grants % 16 == 15 && !beH.isEmpty) || lc.isEmpty
  let hs := if be then beH else lc
  let credit := fun (s : State) (p : Nat) => tget 0 s.inlet.credit (p * 2 + b2n be)
  let s := if hs.any (fun h => decide (0 < credit s h.1)) then s else newRound s be
  match hs.find? (fun h => decide (0 < credit s h.1)) with
  | none => s
  | some (p, q) =>
    let k := p * 2 + b2n be
    burst { s with inlet := { s.inlet with
      grants := s.inlet.grants + 1, credit := tput 0 s.inlet.credit k (credit s p - 1)
      lastLc := if be then s.inlet.lastLc else p, lastBe := if be then p else s.inlet.lastBe } } q

/-- FETCH_GRANT (R114–R116). -/
def execFetchGrant (s : State) : Host.Outcome State Fault Refusal := liveRoot s fetchGrant

/-- TIMESLICE_EXPIRY (R115, step 2): with no other eligible queue an eligible holder keeps the slice. -/
def execTimesliceExpiry (p : Nat) (be : Bool) (s : State) : Host.Outcome State Fault Refusal :=
  liveRoot s fun s =>
    match tget 0 s.inlet.holder (p * 2 + b2n be) with
    | 0 => s
    | h + 1 => match nextAfter (without (eligibleOf s p be) h) h with
      | none => s
      | some q => { s with inlet := { s.inlet with holder := tput 0 s.inlet.holder (p * 2 + b2n be) (q + 1) } }

/-- HEAD passes every slot at its front that has arrived (R108). -/
def passHead : Nat → Queue → Queue
  | 0, x => x
  | n + 1, x =>
    let h := x.head % ringMod x
    if x.ahead.contains h ∧ 0 < x.issued then
      passHead n { x with
        head := (h + 1) % ringMod x, issued := x.issued - 1, ahead := without x.ahead h, moved := x.moved + 1 }
    else x

/-- A slot's descriptor, and its whole fragment table if it has one, have arrived (R108). -/
def arriveSlot (s : State) (q pos : Nat) : State :=
  modQueue s q fun x =>
    let d := (pos + ringMod x - x.head % ringMod x) % ringMod x
    if d < x.issued then passHead x.issued { x with ahead := insertNat x.ahead pos } else x

/-- Launches of a queue in the Inlet, in ring order. -/
def inletOf (s : State) (q : Nat) : List (Nat × Launch) :=
  sortBy (fun (a b : Nat × Launch) => decide (a.2.seqNo ≤ b.2.seqNo)) ((queueLaunches s q).filter (fun x => inInlet x.2))

/-- The position behind a launch's is the next one to be fetched: nothing behind it has been fetched. -/
def lastFetched (s : State) (l : Launch) : Bool :=
  let x := getQueue s l.queue
  (l.pos + 1) % ringMod x == (x.head + x.issued) % ringMod x

/-- Members of its chain that stand in the Inlet directly ahead of a position; `m` is M of R107, the list runs backward. -/
def chainBack (m : Nat) : Nat → List (Nat × Launch) → Nat
  | _, [] => 0
  | p, x :: t => if (x.2.pos + 1) % m = p ∧ x.2.descIn ∧ dChain x.2.desc then chainBack m x.2.pos t + 1 else 0
/-- Number of a descriptor within its chain, from 1, as far as the Inlet holds the members ahead of it. -/
def chainIdx (s : State) (l : Launch) : Nat :=
  chainBack (ringMod (getQueue s l.queue)) l.pos ((inletOf s l.queue).filter (fun x => decide (x.2.seqNo < l.seqNo))).reverse % 16 + 1

/-- A member of a chain has failed in the Inlet (R141): the members that follow it complete with ST_ABORTED and
E_CHAIN_BROKEN, those still to arrive when they do. `k` is the failed member's number within the chain; a chain ends with its
16th member (R139). -/
def breakFrom : Nat → State → Nat → Nat → Nat → State
  | 0, s, _, _, _ => s
  | n + 1, s, q, pos, k =>
    let x := getQueue s q
    let next := (pos + 1) % ringMod x
    if 16 ≤ k then s
    else if next = (x.head + x.issued) % ringMod x then modQueue s q fun x => { x with broken := k + 1 }
    else match (queueLaunches s q).find? (fun y => inInlet y.2 && y.2.pos == next) with
      | none => s
      | some y =>
        if y.2.stage ≠ .inlet then setLaunch s y.1 { y.2 with broken := k + 1 }
        else
          let s := leaveOne (raise s eChainBroken (some y.2.part) none) y.1 stAborted eChainBroken
          if dChain y.2.desc then breakFrom n s q next (k + 1) else s

/-- A launch completes in the Inlet with a failure (R122, R141, R521); a descriptor of which nothing is known ends its chain. -/
def failIn (s : State) (id status error : Nat) : State :=
  match kget s.launches id with
  | none => s
  | some l =>
    let k := if l.broken ≠ 0 then l.broken else chainIdx s l
    let s := leaveOne (arriveSlot s l.queue l.pos) id status error
    if l.descIn && dChain l.desc then breakFrom 16 s l.queue l.pos k else s

/-- A launch whose chain is broken completes once it has arrived whole (R141); any other stands in the Inlet, ready to leave it. -/
def arrived (s : State) (id : Nat) : State :=
  match kget s.launches id with
  | none => s
  | some l =>
    if l.broken ≠ 0 then failIn (raise s eChainBroken (some l.part) none) id stAborted eChainBroken
    else arriveSlot (setLaunch s id { l with stage := .inlet }) l.queue l.pos

/-- Handle-table index of a buffer or space 2 flag handle. -/
def hIndex (h : Nat) : Nat := h % 2 ^ 20

/-- The relocation unit looks an index up for a launch (R145): a hit is taken, a miss waits for its fill. -/
def lookupFor (s : State) (id i : Nat) : State :=
  match kget s.launches id with
  | none => s
  | some l =>
    if (relOf l i).isSome ∨ l.relWant.any (fun x => x.1 == i) ∨ l.relBad.contains i then s else
    match cacheLookup s l.part i with
    | some e => setLaunch (hHit s l.part i) id { l with rel := l.rel ++ [(i, e)] }
    | none =>
      let r := hMiss s l.part i
      setLaunch r.2 id { l with relWant := l.relWant ++ [(i, r.1)] }

/-- An index that the partition's handle table has (R142). -/
def hInTable (s : State) (p i : Nat) : Bool := decide (0 < i) && decide (i < (getPart s p).htabEntries)

/-- The entry of a launch's fragment table, when its handle names a usable one (R143). -/
def fragEntry (l : Launch) : Option (BitVec 128) :=
  match relOf l (hIndex (dFrag l.desc)) with
  | some e => if hValid e ∧ hKind e = 1 ∧ hLen64 e ≠ 0 then some e else none
  | none => none

/-- The read of a fragment table, in one burst (R119). -/
def fragRead (s : State) (id p addr n : Nat) : State := mgrRead s p addr (64 * n) (.fragTable id)

/-- Issue the fragment-table read of a launch when the entries it needs are free (R116): in the queue's and the partition's
room, or, for the oldest descriptor of its queue, in the 17 entries kept apart, in the order in which such descriptors began
to wait. -/
def fragTry (s : State) (id : Nat) : State :=
  match kget s.launches id with
  | none => s
  | some l =>
    if l.stage ≠ .fragWait ∨ ¬ l.relWant.isEmpty then s else
    match fragEntry l with
    | none => arrived s id
    | some e =>
      let n := min (hLen64 e) 17
      let waits := s.inlet.reserveWait.filter (fun k => (kget s.launches k).any (fun x => decide (x.stage = .fragWait)))
      let busy := match s.inlet.reserveFor with
        | some k => (kget s.launches k).any inInlet
        | none => false
      if s.glb.frozen then s
      else if n ≤ inletRoom s l.queue then
        let s := fragRead (setLaunch s id { l with stage := .fragRead, entries := 1 + n, fragLen := n }) id l.part (hAddr e) n
        { s with inlet := { s.inlet with reserveWait := without waits id } }
      else if (queueLaunches s l.queue).any (fun x => inInlet x.2 && decide (x.2.seqNo < l.seqNo)) then s
      else if !busy && waits.head?.getD id == id then
        let s := fragRead (setLaunch s id { l with stage := .fragRead, fragLen := n, reserved := true }) id l.part (hAddr e) n
        { s with inlet := { s.inlet with reserveFor := some id, reserveWait := without waits id } }
      else { s with inlet := { s.inlet with reserveWait := if waits.contains id then waits else waits ++ [id] } }

/-- Header fields of a fragment table (R120). -/
def fhCount (h : W512) : Nat := fld h 0 8
def fhKind (h : W512) (f : Nat) : Nat := fld h (60 + 4 * f) 4
/-- The table of a launch. -/
def fragHead (l : Launch) : W512 := l.frags.headD 0
/-- Contents of the fragments of one kind, in fragment order (R121). -/
def fragsOf (l : Launch) (kind : Nat) : List W512 :=
  ((upTo (fhCount (fragHead l))).filter (fun k => fhKind (fragHead l) (k + 1) == kind)).filterMap (fun k => l.frags[k + 1]?)
/-- The four 16-byte entries of a WAITS or SIGNALS fragment. -/
def quads (f : W512) : List Nat := (upTo 4).map (fun k => fld f (128 * k) 128)
/-- The sixteen launch IDs of a DEPS fragment. -/
def depIds (f : W512) : List Nat := (upTo 16).map (fun k => fld f (32 * k) 32)

/-- The fragment table is rejected (R122). -/
def fragBad (l : Launch) : Bool :=
  let h := fragHead l
  let n := fhCount h
  let cnt := fun (k : Nat) => ((upTo n).filter (fun f => fhKind h (f + 1) == k)).length
  decide (n = 0) || decide (16 < n) || decide (fld h 8 56 ≠ 0) || decide (fld h 128 384 ≠ 0)
    || decide (nbits (fld h 64 64) (4 * n) 64 ≠ 0)
    || (upTo n).any (fun f => decide (fhKind h (f + 1) = 0) || decide (4 < fhKind h (f + 1)))
    || decide (2 < cnt 1) || decide (1 < cnt 2) || decide (2 < cnt 3) || decide (8 < cnt 4)
    || (decide (0 < cnt 4) && decide (dOpcode l.desc ≠ 2))
    || (fragsOf l 1).any (fun f => (quads f).any (fun w => !waitEntryOk w))
    || (fragsOf l 3).any (fun f => (quads f).any (fun w => !sigEntryOk w))
    || (fragsOf l 2).any (fun f => (depIds f).any (fun d => decide (d ≠ 0xFFFFFFFF) && decide (d >>> 30 ≠ 2)))

/-- Check 1 of R147 on a descriptor by itself (R130, R133, R135, R137, R142, R516, R518). -/
def descBad (d : W512) : Bool :=
  let op := dOpcode d
  let inl := dCbInline d
  let h := dCbHandle d
  let n := dCbLen d
  decide (op = 0) || decide (3 < op) || decide (fld d 12 4 ≠ 0)
    || (inl && (decide (h ≠ 0) || decide (n ≠ 0)))
    || (!inl && decide (h = 0) != decide (n = 0)) || decide (32 < n)
    || !bufHandleOk (dFrag d) || !bufHandleOk h
    || (!inl && (!waitEntryOk (dWait d 0) || !waitEntryOk (dWait d 1))) || !sigEntryOk (dSig d)
    || (decide (op = 3) && (decide (dTarget d ≠ 0) || inl || decide (h ≠ 0)))
    || (decide (op = 1) && !inl && decide (n ≠ 8))

/-- A launch fails a check of R147: its code goes to the Watch and the launch to the Outfall. -/
def failAt (s : State) (id status code : Nat) : State :=
  match kget s.launches id with
  | none => s
  | some l => leave (raise s code (some l.part) none) id status code

/-- Reads of a queue's ring that have brought all their descriptors are outstanding no more. -/
def ringDone (s : State) (q : Nat) : State :=
  let x := getQueue s q
  let wait := (queueLaunches s q).filter (fun y => decide (y.2.stage = .fetch))
  let slot := fun (l : Launch) => x.ringBase.toNat + l.pos % 2 ^ x.log2 * 64
  { s with port := { s.port with reads := s.port.reads.filter (fun r =>
    decide (r.kind ≠ .ring q) || wait.any (fun y => decide (r.addr ≤ slot y.2) && decide (slot y.2 < r.addr + r.len))) } }

/-- DESCRIPTOR_ARRIVAL (R108, R119, R125). DEDUCED (log entry 75): a launch aborted meanwhile completes here, and a fragment table
that its descriptor names is not read any more, so that its inline signal alone is poisoned. -/
def execDescriptorArrival (id : Nat) (desc : W512) (s : State) : Host.Outcome State Fault Refusal :=
  liveRoot s fun s =>
    match kget s.launches id with
    | none => s
    | some l =>
      if l.stage ≠ .fetch then s else
      let l := { l with desc := desc, descIn := true }
      let s := ringDone (setLaunch s id { l with stage := .fragWait }) l.queue
      if l.aborting then leave (arriveSlot s l.queue l.pos) id stAborted 0
      else if dFrag desc = 0 ∨ ¬ bufHandleOk (dFrag desc) ∨ ¬ hInTable s l.part (hIndex (dFrag desc)) then arrived s id
      else fragTry (lookupFor s id (hIndex (dFrag desc))) id

/-- FRAGMENT_TABLE_READ (R116). -/
def execFragmentTableRead (id : Nat) (s : State) : Host.Outcome State Fault Refusal := liveRoot s fun s => fragTry s id

/-- FRAGMENT_TABLE_ARRIVAL (R119, R122, R125): fragments behind FRAG_COUNT are dropped. A table rejected completes its launch at
once, unless the descriptor has already failed check 1 of R147 by itself, which then gives the status; a handle whose entry is
shorter than the header says is found out here, and fails the launch as check 6. -/
def execFragmentTableArrival (id : Nat) (frags : List W512) (s : State) : Host.Outcome State Fault Refusal :=
  liveRoot s fun s =>
    match kget s.launches id with
    | none => s
    | some l =>
      if l.stage ≠ .fragRead then s else
      let got := (frags ++ List.replicate 17 0).take l.fragLen
      let n := fhCount (got.headD 0)
      let kept := if n ≤ 16 then got.take (1 + n) else got
      let l := { l with
        frags := kept, fragIn := true, fragCount := n, fragShort := decide (n ≤ 16) && decide (l.fragLen < 1 + n)
        entries := if l.reserved then 1 else 1 + kept.length }
      let s := readDone (setLaunch s id l) (.fragTable id)
      if l.aborting then leave (arriveSlot s l.queue l.pos) id stAborted 0
      else if l.broken = 0 ∧ fragBad l then
        (if descBad l.desc then failIn (raise s eDescInvalid (some l.part) none) id stBadParam eDescInvalid
        else failIn (raise s eFragInvalid (some l.part) none) id stBadParam eFragInvalid)
      else arrived s id

/-- A read of a loop-back run meets a fault: the run ends aborted (R510). -/
def lbReadFault (s : State) (addr : Nat) : State :=
  if ¬ s.lb.busy then s else lbPortFault (raiseOn s eHostReadFault none none [(.addr, addr)])

/-- HOST_READ_FAULT on a descriptor or fragment-table read (R45, R125, R521): the event names queue and address. With
`loopback` the read is one of a loop-back run. -/
def execHostReadFault (id : Nat) (loopback : Bool) (addr : Nat) (s : State) : Host.Outcome State Fault Refusal :=
  liveRoot s fun s =>
    if loopback then lbReadFault s addr
    else
    match kget s.launches id with
    | none => s
    | some l =>
      if l.stage ≠ .fetch ∧ l.stage ≠ .fragRead then s else
      let s := raiseOn s eHostReadFault (some l.part) none [(.queue, l.queue), (.addr, addr)]
      let s := haltQueue s l.queue 2
      let s := ringDone (readDone (setLaunch s id { l with stage := .fragWait }) (.fragTable id)) l.queue
      if l.aborting then leave (arriveSlot s l.queue l.pos) id stAborted eHostReadFault
      else failIn s id stAborted eHostReadFault

/-- The run of descriptors that the oldest one begins (R139): up to the first without CHAIN, to the 16th, or to one whose next has
failed in the Inlet; and whether it is complete. A descriptor that has not arrived, or has not been fetched, ends it short. -/
def chainRun (s : State) : Nat → List (Nat × Launch) → List (Nat × Launch) × Bool
  | 0, _ => ([], true)
  | _, [] => ([], false)
  | n + 1, x :: t =>
    if x.2.stage ≠ .inlet then ([], false)
    else if ¬ dChain x.2.desc ∨ n = 0 then ([x], true)
    else match t with
      | [] => ([x], !lastFetched s x.2)
      | y :: _ =>
        if y.2.pos = (x.2.pos + 1) % ringMod (getQueue s x.2.queue) then
          (x :: (chainRun s n t).1, (chainRun s n t).2)
        else ([x], true)

/-- CHAIN_ANNOUNCE_TIMEOUT (R139): DEF_TIMEOUT has passed since d1 arrived and a member has not been announced. -/
def execChainAnnounceTimeout (q : Nat) (s : State) : Host.Outcome State Fault Refusal :=
  liveRoot s fun s =>
    let ms := inletOf s q
    let run := ms.takeWhile (fun x => x.2.descIn)
    if run.isEmpty ∨ run.length ≠ ms.length ∨ (chainRun s 16 ms).2 ∨ run.any (fun x => !dChain x.2.desc)
        ∨ unissued (getQueue s q) ≠ 0 then s
    else run.foldl (fun s x =>
      leaveOne (raise (arriveSlot s q x.2.pos) eChainBroken (some x.2.part) none) x.1 stTimeout eChainBroken) s

/-- CHAIN_LEAVES_INLET (R117, R140): the oldest launch of the queue, or its whole chain, goes to the relocation unit. -/
def execChainLeavesInlet (q : Nat) (s : State) : Host.Outcome State Fault Refusal :=
  liveRoot s fun s =>
    match chainRun s 16 (inletOf s q) with
    | ([], _) => s
    | (_, false) => s
    | (x :: t, true) =>
      let be := (getQueue s q).be || (x :: t).any (fun y => dClass y.2.desc)
      let head := if dChain x.2.desc then x.1 else 0
      (x :: t).foldl (fun s y =>
        modLaunch s y.1 fun l => { l with
          stage := .reloc, be := be, head := head, chainNo := ((x :: t).takeWhile (fun z => z.1 != y.1)).length }) s

end Sys2Proof.Machine
end

