-- ==== Sys2Proof/Machine/Mop.lean ====
section
/-! DEFINITION. Macro-op fields (R288–R292), stream descriptors (R258–R260, R296, R522) and the checks of R312 that a
macro-op meets before its push or at its entry (R294, R297, R386, R392–R395, R399, R517). -/

namespace Sys2Proof.Machine

def mOpc (m : W512) : Nat := fld m 0 8
def mAbs (m : W512) : Bool := bitOf m 8
def mRel (m : W512) : Bool := bitOf m 9
def mSigop (m : W512) : Nat := fld m 10 2
def mFmt (m : W512) (k : Nat) : Nat := fld m (16 + 8 * k) 8
def mLay (m : W512) (k : Nat) : Nat := fld m (40 + 2 * k) 2
def mTiles (m : W512) : Nat := fld m 48 16
def mCflag (m : W512) : Nat := fld m 64 32
def mCval (m : W512) : Nat := fld m 96 32
/-- End word i: IN0–IN3, OUT0, OUT1. -/
def mEnd (m : W512) (i : Nat) : Nat := fld m (128 + 16 * i) 16
def mDim (m : W512) (i : Nat) : Nat := fld m (224 + 16 * i) 16
def mParam (m : W512) : Nat := fld m 320 64
def eKind (e : Nat) : Nat := nbits e 0 2
def ePeer (e : Nat) : Nat := nbits e 2 10
def ends (m : W512) : List Nat := (upTo 6).map (mEnd m)

def mEngine (m : W512) : Bool :=
  match mOpc m with
  | 1 | 2 | 3 | 4 | 5 | 8 | 9 => true
  | _ => false
def mManager (m : W512) : Bool := decide (0x10 ≤ mOpc m) && decide (mOpc m ≤ 0x13)
def mWalk (m : W512) : Bool := mOpc m == 8 || mOpc m == 9
def mSeq (m : W512) : Nat := nbits (mParam m) 0 16
def mBmode (m : W512) : Nat := nbits (mParam m) 16 2
def mGroup (m : W512) : Nat := nbits (mParam m) 18 8
def mIdx (m : W512) : Nat := nbits (mParam m) 26 8
def mMerge (m : W512) : Bool := (mParam m).testBit 16
def mShard (m : W512) : Nat := nbits (mParam m) 17 5
def mNshard (m : W512) : Nat := nbits (mParam m) 22 5 + 1
def mNcand (m : W512) : Nat := nbits (mParam m) 27 3 + 1
def mMid (m : W512) : Nat := nbits (mParam m) 30 8
/-- The walk block's first half: TABLE or MDEST (R387, R407). -/
def mBlock (m : W512) : Nat := fld m 384 64

/-- The descriptor of a STREAM macro-op. -/
def mDesc (m : W512) : BitVec 384 := BitVec.ofNat 384 (fld m 128 384)

def gBase (d : BitVec 384) : Nat := fld d 0 64
def gRec (d : BitVec 384) : Nat := fld d 64 16
def gMem (d : BitVec 384) : Bool := bitOf d 80
def gCount (d : BitVec 384) (k : Nat) : Nat := fld d (128 + 64 * k) 16
def gStride (d : BitVec 384) (k : Nat) : Int := sgn 32 (fld d (160 + 64 * k) 32)
/-- Addresses that a descriptor yields (R259). -/
def gTotal (d : BitVec 384) : Nat := gCount d 0 * gCount d 1 * gCount d 2 * gCount d 3
/-- A descriptor breaks R258, REC's range apart. -/
def gBadShape (d : BitVec 384) : Bool :=
  decide (fld d 81 7 ≠ 0) || decide (fld d 88 40 ≠ 0)
    || (upTo 4).any (fun k => decide (gCount d k = 0) || decide (fld d (144 + 64 * k) 16 ≠ 0))
/-- A descriptor breaks R258. -/
def gBad (d : BitVec 384) : Bool := gBadShape d || decide (gRec d = 0) || decide (4096 < gRec d)
/-- The rules on SPACE, BASE and the strides that R259 sets for memory streams. -/
def gMemOk (d : BitVec 384) : Bool :=
  gMem d && decide (nbits (gBase d) 2 4 = 0) && (upTo 4).all (fun k => decide (gStride d k % 64 = 0))
/-- A descriptor may load an engine generator (R258–R260, R522). REC is not used by an engine stream. -/
def gEngineOk (d : BitVec 384) : Bool := !gBadShape d && gMemOk d
/-- The address at the indices reached (R259), modulo 2^64. -/
def gAddr (d : BitVec 384) (base : Nat) (idx : List Nat) : Nat :=
  unsgn 64 ((base : Int) + (idx.mapIdx (fun k i => (i : Int) * gStride d k)).foldl (· + ·) 0)
/-- Index of the next address in the stream's order. -/
def gPos (d : BitVec 384) (idx : List Nat) : Nat :=
  idx.getD 0 0 + gCount d 0 * (idx.getD 1 0 + gCount d 1 * (idx.getD 2 0 + gCount d 2 * idx.getD 3 0))
/-- The indices n addresses into the stream. -/
def gIdx (d : BitVec 384) (n : Nat) : List Nat :=
  [n % gCount d 0, n / gCount d 0 % gCount d 1, n / gCount d 0 / gCount d 1 % gCount d 2,
   n / gCount d 0 / gCount d 1 / gCount d 2]
/-- Advance a generator by n addresses. -/
def gStep (g : Gen) (n : Nat) : Gen :=
  let p := gPos g.desc g.idx + n
  if gTotal g.desc ≤ p then { g with ended := true, idx := gIdx g.desc p } else { g with idx := gIdx g.desc p }
/-- Addresses left in a generator. -/
def gLeft (g : Gen) : Nat := if g.ended then 0 else gTotal g.desc - gPos g.desc g.idx

/-- The span check of R296: lowest and highest address plus REC within the entry. -/
def gSpanOk (d : BitVec 384) (start : Nat) (e : BitVec 128) : Bool :=
  let ext := fun (k : Nat) => ((gCount d k - 1 : Nat) : Int) * gStride d k
  let lo := ((upTo 4).map (fun k => min 0 (ext k))).foldl (· + ·) (start : Int)
  let hi := ((upTo 4).map (fun k => max 0 (ext k))).foldl (· + ·) (start : Int)
  decide ((hAddr e : Int) ≤ lo) && decide (hi + gRec d ≤ ((hAddr e + hLen64 e * 64 : Nat) : Int))

/-- Relocate a STREAM's BASE through an entry (R296): the descriptor's first word in the HREL form, or none. -/
def streamRel (m : W512) (e : BitVec 128) : Option W512 :=
  let base := fld m 128 64
  let off := (base / 2 ^ 32) * 64
  if hValid e ∧ (hKind e = 0 ∨ hKind e = 5 ∨ hKind e = 6) ∧ gSpanOk (mDesc m) (hAddr e + off) e then
    some (setFld m 128 64 (hrel e off).toNat)
  else none

/-- Format bytes that a class uses (R517, R392, R395), by position. -/
def fmtUsed (m : W512) : List Nat :=
  match mOpc m with
  | 1 => [0, 1, 2]
  | 2 => if mParam m % 256 ≤ 2 then [0, 1, 2] else [0, 2]
  | 3 | 4 | 5 => [0, 2]
  | 8 => if eKind (mEnd m 1) = 0 then [0, 2] else [0, 1, 2]
  | 9 => [0]
  | _ => []

/-- A format byte with reserved bits set, or MXV with a code other than 0xC or 0xD (R289). -/
def fmtBad (b : Nat) : Bool := decide (b / 32 ≠ 0) || (b.testBit 4 && !(b % 16 == 12 || b % 16 == 13))

/-- Cause ENCODING of R312. -/
def mopEncBad (m : W512) : Bool :=
  if ¬ mEngine m ∧ ¬ mManager m then true
  else if bitOf m 15 ∨ 2 ≤ fld m 12 2 ∨ ¬ flagHandleOk (mCflag m) then true
  else if mManager m then
    decide (fld m 16 48 ≠ 0)
      || (mOpc m == 0x11 && (decide (fld m 256 256 ≠ 0) || !waitEntryOk (fld m 128 128)))
      || (mOpc m == 0x12 && decide (fld m 144 368 ≠ 0))
      || (mOpc m == 0x13 && decide (fld m 128 384 ≠ 0))
  else
    (upTo 3).any (fun k => decide (mLay m k = 3)) || decide (fld m 46 2 ≠ 0) || decide (mTiles m = 0)
      || (fmtUsed m).any (fun k => fmtBad (mFmt m k))
      || (mOpc m != 8 && (upTo 3).any (fun k => !(fmtUsed m).contains k && decide (mFmt m k ≠ 0)))
      || (!mAbs m && !mWalk m && decide (fld m 384 128 ≠ 0))
      || (mOpc m == 2 && decide (6 < mParam m % 256))
      || (mOpc m == 9 && mBmode m == 3)

/-- A COPY or COLLECTIVE that writes to another chip carries a closure group of its partition in PARAM [57:48], with bits [63:59] 0
(R371). The field is ignored where no remote write is made; which macro-ops make one only the engine knows: a free value (log
entry 80). -/
def groupBad (part : Nat) (m : W512) : Bool :=
  (mOpc m == 4 || mOpc m == 5) && bitOf (Config.freeOf 41 m.toNat 0) 0
    && (decide (nbits (mParam m) 48 10 / 16 ≠ part) || decide (nbits (mParam m) 59 5 ≠ 0))

/-- Cause END of R312 on the shape of the end words (R290, R291). -/
def mopEndBad (m : W512) : Bool :=
  mEngine m && (if mAbs m then (ends m).any (fun e => decide (e ≠ 0))
    else (upTo 6).any (fun i =>
      let e := mEnd m i
      eKind e == 3 || decide (e / 2 ^ 14 ≠ 0) || (eKind e != 2 && decide (nbits e 2 12 ≠ 0))
        || (eKind e == 2 && decide (i < 4) && decide (1 < nbits e 12 2))))

/-- Peers that the end words name. -/
def peers (m : W512) : List Nat :=
  if mEngine m && !mAbs m then ((ends m).filter (fun e => eKind e == 2)).map ePeer else []

/-- Page and IN1 formats that R394 lists for a query format. -/
def attnFmtOk (q f : Nat) : Bool :=
  match q with
  | 0 => [0, 1, 2, 3, 4, 5, 6, 7, 12, 13, 14, 15].contains (f % 16)
  | 1 => [1, 3, 4, 5, 6, 7].contains f
  | 2 => [2, 3, 4, 5, 6, 7].contains f
  | 3 => [3, 5, 6, 7].contains f
  | 4 => [4, 5, 7].contains f
  | _ => false

/-- Causes FMT_PAIR and ATTN of an ATTN_WALK at entry (R392), 0 when it passes. -/
def walkCause (m : W512) : Nat :=
  let used1 := decide (eKind (mEnd m 1) ≠ 0)
  if 5 ≤ mFmt m 0 then 0x0C
  else if used1 ∧ ¬ attnFmtOk (mFmt m 0) (mFmt m 1) then 0x0C
  else
    let rows := mDim m 0
    let hd := mDim m 1
    let bad := mAbs m || bitOf m 14 || decide (fld m 12 2 ≠ 0) || (!used1 && decide (mFmt m 1 ≠ 0)) || decide (2 < mFmt m 2)
      || decide (mLay m 1 ≠ 0) || (mMerge m && decide (mLay m 2 ≠ 0)) || decide (mTiles m ≠ mDim m 3)
      || decide (eKind (mEnd m 0) = 0) || decide (eKind (mEnd m 4) = 0) != mMerge m
      || decide (eKind (mEnd m 2) ≠ 0) || decide (eKind (mEnd m 3) ≠ 0) || decide (eKind (mEnd m 5) ≠ 0)
      || decide (rows = 0) || decide (256 < rows) || decide (rows % mNcand m ≠ 0)
      || decide (hd < 8) || decide (256 < hd) || decide (hd % 8 ≠ 0) || decide (mDim m 3 = 0) || decide (fld m 288 32 ≠ 0)
    if bad then 0x0D else 0

/-- Cause ATTN of a KV_SCATTER at entry (R395), 0 when it passes. -/
def scatterCause (m : W512) : Nat :=
  let hd := mDim m 1
  let bad := mAbs m || bitOf m 14 || decide (fld m 12 2 ≠ 0) || decide (mLay m 1 ≠ 0) || decide (mLay m 2 ≠ 0)
    || decide (mTiles m ≠ mDim m 0) || decide (eKind (mEnd m 0) = 0) || decide (eKind (mEnd m 1) = 0)
    || decide (eKind (mEnd m 2) ≠ 0) || decide (eKind (mEnd m 3) ≠ 0) || decide (eKind (mEnd m 4) ≠ 0)
    || decide (eKind (mEnd m 5) ≠ 0) || decide (mDim m 0 = 0) || decide (64 < mDim m 0)
    || decide (hd < 8) || decide (256 < hd) || decide (hd % 8 ≠ 0) || decide (mDim m 2 ≠ 0) || decide (mDim m 3 ≠ 0)
    || decide (fld m 288 32 ≠ 0)
  if bad then 0x0D else 0

/-- The entry checks of R312 in the table's order: the cause of the first that fails, or 0. `cap` is the queue's eq_cap, `peerOk`
whether the peers of a local push pass R294, `isLocal` whether an agent core pushed it (R385). -/
def entryCause (cap : W32) (part : Nat) (maint peerOk isLocal : Bool) (m : W512) : Nat :=
  if mopEncBad m ∨ groupBad part m then 0x01
  else if mEngine m ∧ ¬ bitOf cap (mOpc m) then 0x02
  else if (fmtUsed m).any (fun k => !bitOf cap (16 + mFmt m k % 16)) then 0x03
  else if mAbs m ∧ ¬ maint then 0x04
  else if mopEndBad m ∨ ¬ peerOk then 0x05
  else if mOpc m = 0x10 ∧ ¬ gEngineOk (mDesc m) then 0x06
  else if 2 ≤ mCflag m / 2 ^ 30 ∨ (mOpc m = 0x11 ∧ 2 ≤ fld m 128 32 / 2 ^ 30) then 0x07
  else if mWalk m ∧ isLocal then 0x0D
  else if mOpc m = 8 then walkCause m
  else if mOpc m = 9 then scatterCause m
  else 0

/-- ERROR of a skip cause (R312); cause ATTN gives the code of the check that failed. -/
def causeErr (c attn : Nat) : Nat :=
  if c = 0 then 0
  else if c ≤ 8 then eMopIllegal
  else if c = 9 then eWaitPoisoned
  else if c = 10 then eWaitTimeout
  else if c = 11 then eChainBroken
  else if c = 12 then eFmtMismatch
  else attn

/-- A COMMIT's other bytes and PARAM bits are 0 (R399). -/
def commitOk (m : W512) : Bool :=
  decide (fld m 16 48 = 0) && decide (fld m 128 192 = 0) && decide (fld m 384 128 = 0)
    && decide (nbits (mParam m) 0 16 = 0) && decide (nbits (mParam m) 34 30 = 0)

/-- The macro-op's CFLAG names a flag that can be signalled (R313). -/
def cflagLive (m : W512) : Bool := decide (mCflag m ≠ 0) && flagHandleOk (mCflag m) && decide (mCflag m / 2 ^ 30 < 2)

/-- The macro-op of a DIRECT launch (R135). -/
def directMop (l : Launch) : W512 :=
  if dCbInline l.desc then BitVec.ofNat 512 (fld l.desc 128 256) else BitVec.ofNat 512 (fld l.cbData 0 512)

end Sys2Proof.Machine
end

