-- ==== Sys2Proof/Machine/Reloc.lean ====
section
/-! DEFINITION. The relocation unit: handle lookups, constant buffers, and the ordered checks of a launch (R134–R147). -/

namespace Sys2Proof.Machine

/-- Inline and fragment wait entries of a launch with their numbers under R185. -/
def waitWords (l : Launch) : List (Nat × Nat) :=
  let inl : List (Nat × Nat) := if dCbInline l.desc then [] else [(0, dWait l.desc 0), (1, dWait l.desc 1)]
  let ws := (fragsOf l 1).flatMap quads
  inl ++ ws.mapIdx (fun i (w : Nat) => (i + 2, w))
/-- Signals of a launch in list order (R121, R151). -/
def sigWords (l : Launch) : List Nat := dSig l.desc :: (fragsOf l 3).flatMap quads
/-- Launch IDs of a launch's DEPS fragment. -/
def depWords (l : Launch) : List Nat := ((fragsOf l 2).flatMap depIds).filter (fun d => d != 0xFFFFFFFF)
/-- Flag handles a launch names, with the wait entry of each, 0 for a signal. -/
def flagHandles (l : Launch) : List (Nat × Nat) :=
  ((waitWords l).map (fun (w : Nat × Nat) => (w.1, wHandle w.2)) ++ (sigWords l).map (fun w => (0, sHandle w))).filter
    (fun (x : Nat × Nat) => x.2 != 0)

/-- A space 3 handle names a chip that can be reached (R56, R381). -/
def chipReach (s : State) (h : Nat) : Bool :=
  decide (0 < s.par.xingLinks) && (tget 0#32 s.xing.routes (nbits h 24 6)).getLsbD 3

/-- The rules of R139 that the member itself breaks: every member is DIRECT, members behind d1 have no waits, d16 ends. -/
def chainBad (l : Launch) : Bool :=
  decide (l.head ≠ 0) && (decide (dOpcode l.desc ≠ 1)
    || (decide (0 < l.chainNo) && ((!dCbInline l.desc && (decide (wHandle (dWait l.desc 0) ≠ 0) || decide (wHandle (dWait l.desc 1) ≠ 0)))
      || !(fragsOf l 1).isEmpty || !(fragsOf l 2).isEmpty))
    || (l.chainNo == 15 && dChain l.desc))

/-- Checks 1 to 5 of R147: status and error code of the first that fails. -/
def checkEarly (s : State) (l : Launch) : Option (Nat × Nat) :=
  let d := l.desc
  let p := getPart s l.part
  if descBad d ∨ chainBad l then some (stBadParam, eDescInvalid)
  else if l.fragIn ∧ fragBad l then some (stBadParam, eFragInvalid)
  else if ¬ dClass d ∧ (getQueue s l.queue).be then some (stDenied, eDescInvalid)
  else if dOpcode d = 2 ∧ (dTarget d < p.gctxBase ∨ p.gctxBase + p.gctxCount ≤ dTarget d) then some (stDenied, eTargetAbsent)
  else if dOpcode d = 1 ∧ ¬ eqReach s (dTarget d) then some (stIllegalState, eTargetAbsent)
  else if dOpcode d = 2 ∧ (getGctx s (dTarget d)).st ≠ 2 then some (stIllegalState, eTargetAbsent)
  else none

/-- The entry of a constant buffer meets R143. -/
def constOk (l : Launch) : Bool :=
  match relOf l (hIndex (dCbHandle l.desc)) with
  | some e => hValid e && hKind e == 2 && decide (dCbLen l.desc * 8 ≤ hLen64 e * 64)
  | none => false

/-- Checks 6 to 8 of R147, once the lookups have returned; check 7 gives the handle and its wait entry as well. -/
def checkLate (s : State) (l : Launch) : Option (Nat × Nat × Nat × Nat) :=
  let bad := fun (h : Nat) => l.relBad.contains (hIndex h)
  let f := dFrag l.desc
  let c := dCbHandle l.desc
  let frag6 := decide (f ≠ 0) && !bad f && (!hInTable s l.part (hIndex f) || !l.fragIn || l.fragShort)
  let cb6 := decide (c ≠ 0) && !bad c && (!hInTable s l.part (hIndex c) || !constOk l)
  if frag6 ∨ cb6 then some (stBadParam, eHandleInvalid, 0, 0)
  else match (flagHandles l).find? (fun x =>
      (decide (x.2 / 2 ^ 30 = 0) && !flagInRange s l.part x.2) || (decide (x.2 / 2 ^ 30 = 3) && !chipReach s x.2)) with
    | some x => some (stDenied, eFlagDenied, x.2, x.1)
    | none => if l.relBad.isEmpty then none else some (stAborted, eHostReadFault, 0, 0)

/-- Handle-table indices that step 3 of R29 looks up: constant buffer and space 2 flags. -/
def relNeeds (s : State) (l : Launch) : List Nat :=
  let cb := if dCbHandle l.desc = 0 then [] else [hIndex (dCbHandle l.desc)]
  let fl := (flagHandles l).filterMap (fun x => if x.2 / 2 ^ 30 = 2 then some (hIndex x.2) else none)
  (cb ++ fl).filter (hInTable s l.part)

/-- The BASE handle of a DIRECT launch's STREAM macro-op (R296). -/
def streamHandle (l : Launch) : Option Nat :=
  if dOpcode l.desc = 1 ∧ mOpc (directMop l) = 0x10 then some (fld (directMop l) 128 32) else none

/-- The read of a launch's constant buffer (R138). -/
def constRead (s : State) (id : Nat) (l : Launch) : State :=
  mgrRead s l.part (((relOf l (hIndex (dCbHandle l.desc))).map hAddr).getD 0) (8 * dCbLen l.desc) (.constBuf id)

/-- The steps of the relocation unit on one launch: 0 the early checks and the lookups, 1 the late checks and the constant
buffer, 2 a STREAM's BASE, 3 the end. A launch that waits for a read stays where it is. -/
def relocGo : Nat → Nat → State → State
  | 0, _, s => s
  | n + 1, id, s =>
    match kget s.launches id with
    | none => s
    | some l =>
      if l.stage ≠ .reloc ∨ l.relocated ∨ ¬ l.relWant.isEmpty ∨ l.cbWait then s else
      match l.relStep with
      | 0 => match checkEarly s l with
        | some (st, e) => failAt s id st e
        | none => relocGo n id ((relNeeds s l).foldl (fun s i => lookupFor s id i) (setLaunch s id { l with relStep := 1 }))
      | 1 => match checkLate s l with
        | some (st, e, h, entry) =>
          let s := if e = eFlagDenied then
              wstatSet (werr s l.part e id h (flagAddr s l.part h 0) entry 0 0 0) l.part 4
            else s
          failAt s id st e
        | none =>
          if dCbHandle l.desc ≠ 0 ∧ ¬ dCbInline l.desc then constRead (setLaunch s id { l with relStep := 2, cbWait := true }) id l
          else relocGo n id (setLaunch s id { l with relStep := 2 })
      | 2 =>
        let s := setLaunch s id { l with relStep := 3 }
        match streamHandle l with
        | some h => relocGo n id (if bufHandleOk h ∧ hInTable s l.part (hIndex h) then lookupFor s id (hIndex h) else s)
        | none => relocGo n id s
      | _ => if l.relBad.isEmpty then setLaunch s id { l with relocated := true } else failAt s id stAborted eHostReadFault

/-- Wait entries of a launch as the Weir holds them (R131, R165, R167). -/
def waitEntries (s : State) (l : Launch) : List WaitE :=
  let def_ := (getQueue s l.queue).defTmo
  ((waitWords l).filter (fun (w : Nat × Nat) => wHandle w.2 != 0)).map (fun (w : Nat × Nat) =>
      ({ entry := w.1, handle := wHandle w.2, compare := wCompare w.2, crest := wCrest w.2
         tmo := if wTimeout w.2 = 0 then def_ else wTimeout w.2 } : WaitE))
    ++ (depWords l).map (fun d => ({ entry := 10, dep := true, crest := d, tmo := def_ } : WaitE))

/-- The oldest launch of a queue in a stage. -/
def oldestIn (s : State) (q : Nat) (st : LStage) : Option (Nat × Launch) :=
  oldestOf ((queueLaunches s q).filter (fun x => x.2.stage == st))

/-- A launch with the members of its chain that stand in the same stage, in ring order (R140). -/
def unitOf (s : State) (x : Nat × Launch) : List (Nat × Launch) :=
  if x.2.head = 0 then [x]
  else sortBy (fun (a b : Nat × Launch) => decide (a.2.seqNo ≤ b.2.seqNo))
    (s.launches.filter (fun y => y.2.head == x.2.head && y.2.stage == x.2.stage && y.2.queue == x.2.queue))

/-- A launch, or its whole chain, passes to the Weir when every member has been relocated; during the copy of a pending region the
owner's launches are held (R431). -/
def relocPass (s : State) (q : Nat) : State :=
  match oldestIn s q .reloc with
  | none => s
  | some x =>
    let u := unitOf s x
    let copying := s.stew.copy.any (fun k => k.pendReg && k.part == x.2.part)
    if u.all (fun y => y.2.relocated) ∧ ¬ copying then
      u.foldl (fun s y => modLaunch s y.1 fun l => { l with stage := .weirIn, waits := waitEntries s l }) s
    else s

/-- The relocation unit takes up the oldest launch of a queue, with its chain. -/
def relocQueue (s : State) (q : Nat) : State :=
  match oldestIn s q .reloc with
  | none => s
  | some x => relocPass ((unitOf s x).foldl (fun s y => relocGo 5 y.1 s) s) q

/-- RELOCATION (R144, R147). -/
def execRelocation (q : Nat) (s : State) : Host.Outcome State Fault Refusal := liveRoot s fun s => relocQueue s q

/-- CONST_BUFFER_READ_DONE (R138, R147): the launch keeps the copy for its whole life. -/
def execConstBufferReadDone (id : Nat) (ok : Bool) (data : BitVec 2048) (s : State) : Host.Outcome State Fault Refusal :=
  liveRoot s fun s =>
    match kget s.launches id with
    | none => s
    | some l =>
      if ¬ l.cbWait ∨ l.stage ≠ .reloc then readDone s (.constBuf id) else
      let s := readDone s (.constBuf id)
      if ok then
        relocQueue (setLaunch s id { l with
          cbWait := false, cbData := BitVec.ofNat 2048 (fld data 0 (64 * dCbLen l.desc)) }) l.queue
      else relocPass (failAt s id stAborted eHostReadFault) l.queue

end Sys2Proof.Machine
end

