-- ==== Sys2Proof/Machine/WeirCmds.lean ====
section
/-! DEFINITION. Commands of the Weir: arming, timeouts, signals, memory flags, agents' flag messages, remote waits
(R157–R185, R519). -/

namespace Sys2Proof.Machine

/-- Send WAIT_ARM for a space 3 wait (R173, R375). -/
def remoteArm (s : State) (id : Nat) (e : WaitE) : State :=
  match kget s.launches id with
  | none => s
  | some l =>
    let chip := nbits e.handle 24 6
    let w := s.xing.nextWait
    let link := (tget 0#32 s.xing.routes chip).toNat % 8
    let s := modXing s fun x => { x with
      nextWait := (w + 1) % 2 ^ 14, waits := kput x.waits w { launch := id, entry := e.entry, node := e.node, chip := chip, link := link } }
    xcSend s chip (2 + put s.xing.chip 4 + put chip 10 + put l.part 16 + put (e.handle % 65536) 24 + put e.compare 40 + put w 46
      + put e.crest 64)

/-- Arm one entry and evaluate it (R158, R165, R166, R174). -/
def armEntry (s : State) (id : Nat) (e : WaitE) : State :=
  match kget s.launches id with
  | none => s
  | some l =>
    if isDone l then s else
    if e.dep then
      let q := e.crest % 4096
      let x := getQueue s q
      if x.st = .unused ∨ x.owner ≠ l.part then waitFail s id e eFlagDenied stAborted 0 else s
    else match e.handle / 2 ^ 30 with
      | 0 =>
        let w := flagWord s e.handle
        if bitOf w 63 then waitFail s id e eWaitPoisoned stAborted (flagAddr s l.part e.handle 0)
        else if cmpMet e.compare (fld w 0 62) e.crest then waitMet s id e.entry e.node else s
      | 3 => remoteArm s id e
      | _ =>
        match memFlagAddr s l.part e.handle (some l) false with
        | none => waitFail s id e eFlagDenied stAborted (flagAddr s l.part e.handle 0)
        | some a =>
          let key := memKey l.part e.handle
          match kget s.weir.mem key with
          | none => memEnsure s key a
          | some m =>
            if m.bad then waitFail s id e eWaitPoisoned stAborted a
            else match m.word, m.writing with
              | some w, false =>
                if bitOf w 63 then waitFail s id e eWaitPoisoned stAborted a
                else if cmpMet e.compare (fld w 0 62) e.crest then waitMet s id e.entry e.node else s
              | _, _ => s

/-- Memory-flag cache entries that the waits of a launch need and the cache lacks (R169). -/
def memNeed (s : State) (l : Launch) (ws : List WaitE) : Nat :=
  ((ws.filterMap (fun e =>
      if !e.dep && (e.handle / 2 ^ 30 == 1 || e.handle / 2 ^ 30 == 2)
          && (memFlagAddr s l.part e.handle (some l) false).isSome && (kget s.weir.mem (memKey l.part e.handle)).isNone
      then some e.handle else none)).foldl insertNat []).length

/-- The wait entries can all be armed at once (R169). -/
def canArm (s : State) (l : Launch) (ws : List WaitE) : Bool :=
  decide (armedTotal s + ws.length ≤ Config.armedMax) && decide (armedPart s l.part + ws.length ≤ (getPart s l.part).waitLimit)
    && decide (s.weir.mem.length + memNeed s l ws ≤ Config.memFlagMax)

/-- WEIR_WAITCNT.PEAK follows ARMED (R183). -/
def notePeak (s : State) : State := modWeir s fun w => { w with peak := max w.peak (armedTotal s) }

/-- Arm a launch that has come to the Weir (R165): with no entry it is released at once. -/
def armLaunch (s : State) (id : Nat) (l : Launch) : State :=
  if l.waits.isEmpty then releaseChain (setLaunch s id { l with stage := .sched }) id
  else
    let s := notePeak (setLaunch s id { l with
      stage := .weir, waits := l.waits.map (fun e => if e.dep then { e with below := depBelow s e.crest } else e) })
    let s := l.waits.foldl (fun s e => armEntry s id e) s
    cycleCheck (evalDeps s) l.queue false

/-- WAIT_ARM (R165, R169, R177): the oldest launch of the queue at the Weir. -/
def execWaitArm (q : Nat) (s : State) : Host.Outcome State Fault Refusal :=
  liveRoot s fun s =>
    match oldestIn s q .weirIn with
    | none => s
    | some (id, l) =>
      if s.glb.frozen ∨ (oldestIn s q .weir).isSome ∨ (l.head ≠ 0 ∧ l.head ≠ id) ∨ ¬ canArm s l l.waits then s
      else armLaunch s id l

/-- A launch past the Weir is pre-empted (R181): all its work on engines is paused for overrun, or its context is saved. -/
def launchHalted (s : State) (l : Launch) : Bool :=
  (!l.paused.isEmpty && l.outs.all (fun o => l.paused.contains o.eq))
    || (match l.slot with
      | some k => (getCtx? s 0x300 k).any (fun c => decide (c.st = .saved))
      | none => false)

/-- The owner of a flag is pre-empted (R181). -/
def ownerPreempted (s : State) (p h : Nat) : Bool :=
  match flagOwner s p h with
  | none => false
  | some q =>
    let past := (queueLaunches s q).filter (fun x => pastWeir x.2)
    !past.isEmpty && past.all (fun x => launchHalted s x.2)

/-- WAIT_TIMEOUT (R166, R167, R181): `entry` is the entry's number under R185, plus 16 × (node + 1) for a graph WAIT node.
The clock stands while the flag's owner is pre-empted; a remote wait has its own command. -/
def execWaitTimeout (id entry : Nat) (s : State) : Host.Outcome State Fault Refusal :=
  liveRoot s fun s =>
    match kget s.launches id with
    | none => s
    | some l => match openEntry l (entry % 16) (entry / 16) with
      | none => s
      | some e =>
        if (!e.dep && e.handle / 2 ^ 30 == 3) || (!e.dep && ownerPreempted s l.part e.handle) then s
        else waitFail s id e eWaitTimeout stTimeout (flagAddr s l.part e.handle (tget {} s.weir.mem (memKey l.part e.handle)).addr)

/-- A queued operation can start: on a memory flag not in the cache there must be room (R169). -/
def sigReady (s : State) (g : Sig) : Bool :=
  let sp := g.handle / 2 ^ 30
  (sp != 1 && sp != 2) || memRoom s (memKey g.part g.handle)

/-- SIGNAL_APPLY (R159–R161): the next operation in the source order of R160. None is applied once frozen (R451). -/
def execSignalApply (s : State) : Host.Outcome State Fault Refusal :=
  liveRoot s fun s =>
    match nextSig (s.weir.sigq.filter (sigReady s)) with
    | none => s
    | some g =>
      if s.glb.frozen then s
      else
        let s := startSignal (modWeir s fun w => { w with sigq := eraseSig w.sigq g }) g
        if g.src = 100 then completionWalk s g.launch else s

/-- Release the waiters of a memory flag whose read or write met a fault (R45, log entry 16). -/
def memFault (s : State) (key : Nat) : State :=
  let w := BitVec.ofNat 64 (2 ^ 63)
  evalFlag (modWeir s fun x => { x with mem := tput {} x.mem key { tget {} x.mem key with bad := true } }) (key / 2 ^ 32) (key % 2 ^ 32) w

/-- MEMORY_FLAG_READ_DONE (R157, R161). -/
def execMemoryFlagReadDone (p handle : Nat) (ok : Bool) (word : W64) (s : State) : Host.Outcome State Fault Refusal :=
  liveRoot s fun s =>
    let key := memKey p handle
    match kget s.weir.mem key with
    | none => s
    | some m =>
      let s := readDone s (.flag key)
      if ¬ m.reading then s
      else if ok then
        let s := modWeir s fun x => { x with mem := kput x.mem key { m with reading := false, word := some word } }
        memRelease (pumpMem (evalFlag s p handle word) key) key
      else
        let s := raiseOn s eHostReadFault (some p) none [(.handle, handle), (.addr, m.addr)]
        let s := modWeir s fun x => { x with mem := kput x.mem key { m with reading := false, sigs := [] } }
        memRelease (m.sigs.foldl sigDone (memFault s key)) key

/-- The write-through of a memory flag has its response or its fault (R157, R161). -/
def memWritten (s : State) (key : Nat) (ok : Bool) : State :=
  match kget s.weir.mem key with
  | none => s
  | some m =>
    if ¬ m.writing then s else
    let txn := (s.port.writes.find? (fun w => match w.kind with
      | .flag k => k == key
      | _ => false)).map (·.txn)
    let s := match txn with
      | some t => vecsRelease (mgrDone s t) t
      | none => s
    let p := key / 2 ^ 32
    let s := modWeir s fun x => { x with mem := kput x.mem key { m with writing := false, sigs := m.sigs.drop 1 } }
    let s := if ok then evalFlag s p (key % 2 ^ 32) (m.word.getD 0) else memFault (raiseOn s eHostWriteFault (some p) none [(.addr, m.addr)]) key
    match m.sigs.head? with
    | some g =>
      let s := memRelease (pumpMem (sigDone s g) key) key
      if g.src = 100 then completionWalk s g.launch else s
    | none => memRelease (pumpMem s key) key

/-- MEMORY_FLAG_WRITE_DONE. -/
def execMemoryFlagWriteDone (p handle : Nat) (ok : Bool) (s : State) : Host.Outcome State Fault Refusal :=
  liveRoot s fun s => memWritten s (memKey p handle) ok

/-- A merged write of a walk that an agent's completion signal or COMPLETION belongs to is outstanding (R410). -/
def mergeHolds (s : State) (eq tag : Nat) : Bool :=
  s.port.writes.any (fun w => match w.kind with
    | .merge _ _ e t => e == eq && t == tag
    | _ => false)

/-- The FLAG_SIGNAL is the completion signal of a walk whose merged writes are outstanding (R410). -/
def signalHeld (s : State) (a launch handle : Nat) : Bool :=
  (getLaunch s (launchNamed s launch fun l => l.outs.any (fun o => o.eq / 16 == a))).outs.any (fun o => o.eq / 16 == a && o.cflag == handle && decide (o.merge ≠ 0) && mergeHolds s o.eq o.tag)

/-- The partition of the launch that an agent's message names. -/
def launchPart (s : State) (launch : Nat) : Nat :=
  ((kget s.launches (launchNamed s launch fun _ => true)).map (·.part)).getD (getQueue s (launch % 4096)).owner

/-- Answer a subscription with the flag's word (R172). -/
def subscribe (s : State) (a p h launch : Nat) : State :=
  let add := fun (s : State) => modWeir s fun w => { w with subs := tput [] w.subs (ownKey p h) (insertNat (tget [] w.subs (ownKey p h)) a) }
  let deny := fun (s : State) =>
    let s := wstatSet (werr (raiseOn s eFlagDenied (some p) (some a) [(.launch, launch), (.handle, h)]) p eFlagDenied launch h (flagAddr s p h 0) 0 0 0 0) p 4
    sendDown s a (.flagUpdate h (BitVec.ofNat 64 (2 ^ 63)))
  if h / 2 ^ 30 = 0 then
    (if flagInRange s p h ∧ flagHandleOk h then sendDown (add s) a (.flagUpdate h (flagWord s h)) else deny s)
  else if h / 2 ^ 30 = 1 ∧ dflagOk s p h then
    let s := memEnsure (add s) (memKey p h) (flagAddr s p h 0)
    match (tget {} s.weir.mem (memKey p h)).word with
    | some w => sendDown s a (.flagUpdate h w)
    | none => s
  else deny s

/-- FLAG_SIGNAL (R172, R405, R410): a signal, a poison, a subscription or its end; a message that cannot be taken yet holds
its port. -/
def execFlagSignal (a : Nat) (s : State) : Host.Outcome State Fault Refusal :=
  liveRoot s fun s =>
    match upHead s a with
    | some (.flagSignal h op x launch) =>
      let p := launchPart s launch
      let key := memKey p h
      if signalHeld s a launch h then s
      else if op = 5 ∧ h / 2 ^ 30 = 1 ∧ dflagOk s p h ∧ ¬ memRoom s key then s
      else
        let by_ := (getLink s a).sigBy.headD none
        let s := modLink (takeUp s a) a fun k => { k with sigBy := k.sigBy.tail }
        if op = 5 then subscribe s a p h launch
        else if op = 6 then
          let s := modWeir s fun w => { w with subs := tput [] w.subs (ownKey p h) (without (tget [] w.subs (ownKey p h)) a) }
          if h / 2 ^ 30 = 1 then memRelease s key else s
        else queueSigs s [{ src := 300 + a, part := p, handle := h, op := op, x := x, launch := launch, task := by_.map (fun k => (a, k)) }]
    | _ => s

/-- Mark the agent's WAITs and SPINs on a flag with the outcome of a word (R170, R171). -/
def agentEval (s : State) (a h : Nat) (w : W64) : State :=
  modAgent s a fun g =>
    let wOut := fun (q : EqQ) => match q.wait with
      | some m =>
        let e := ((if m.be then q.be else q.lc).find? (fun e => e.seq == m.seq)).map (fun e => fld e.mop 128 128)
        match e, m.out with
        | some x, none => if wHandle x = h then { q with wait := some { m with out := spinOut w (wCompare x) (wCrest x) } } else q
        | _, _ => q
      | none => q
    { g with
      eqs := g.eqs.map (fun (x : Nat × EqQ) => (x.1, wOut x.2))
      tasks := g.tasks.map (fun (x : Nat × Ctx) => match x.2.stall with
        | some (.spin d h' cm cr none) =>
          if h' = h ∧ x.2.st = .running then (x.1, { x.2 with stall := some (.spin d h' cm cr (spinOut w cm cr)) }) else x
        | _ => x) }

/-- FLAG_UPDATE at an agent (R22, R172). A word for a flag that nothing names any longer is dropped. -/
def execFlagUpdate (a : Nat) (s : State) : Host.Outcome State Fault Refusal :=
  liveAgent s a fun s =>
    match downHead s a with
    | some (.flagUpdate h w) =>
      let s := takeDown s a
      if ((getAgent s a).mirror.any (fun m => m.1 == h)) then
        agentEval (modAgent s a fun g => { g with mirror := kput g.mirror h { tget {} g.mirror h with word := some w } }) a h w
      else s
    | _ => s

/-- REMOTE_WAIT_TIMEOUT (R173): the waiting chip sends a cancel, and the wait times out. -/
def execRemoteWaitTimeout (id entry : Nat) (s : State) : Host.Outcome State Fault Refusal :=
  liveRoot s fun s =>
    match kget s.launches id with
    | none => s
    | some l => match openEntry l (entry % 16) (entry / 16) with
      | none => s
      | some e =>
        if e.dep || e.handle / 2 ^ 30 != 3 then s else
        let hit := s.xing.waits.filter (fun x => x.2.launch == id && x.2.entry == e.entry && x.2.node == e.node)
        let s := hit.foldl (fun s x => xcSend s x.2.chip
          (3 + put s.xing.chip 4 + put x.2.chip 10 + put l.part 16 + put x.1 46)) s
        let s := modXing s fun x => { x with waits := x.waits.filter (fun y => !hit.any (fun z => z.1 == y.1)) }
        waitFail s id e eWaitTimeout stTimeout (flagAddr s l.part e.handle 0)

/-- WAIT_REPORT (R519): a SPIN at an agent core ended in poison or timeout. -/
def execWaitReport (a : Nat) (s : State) : Host.Outcome State Fault Refusal :=
  liveRoot s fun s =>
    match upHead s a with
    | some (.ctxXfer 5 _ launch _ data) =>
      let s := takeUp s a
      let x := bytesToNat data
      let h := nbits x 0 32
      let p := launchPart s launch
      if nbits x 32 8 = 2 then
        let s := raiseOn s eWaitTimeout (some p) (some a) [(.launch, launch), (.handle, h)]
        let s := werr s p eWaitTimeout launch h (flagAddr s p h 0) 0xC (0x200 + a) 0 0
        modWeir (wstatSet s p 0) fun w => { w with tmos := satN 32 (w.tmos + 1) }
      else wstatSet s p 1
    | _ => s

end Sys2Proof.Machine
end

