-- ==== Sys2Proof/Machine/Outcome.lean ====
section
/-! DEFINITION. Macro-ops on their way from the Root: lanes and credits, push buffers, chains, skips without a push, and
what the end of a macro-op does to its launch, node, walk and merge (R54, R140, R197–R200, R261–R264, R282, R284, R294,
R308, R312, R313, R388, R411). -/

namespace Sys2Proof.Machine

/-- Push credits in use on a lane (R282). -/
def laneUsed (s : State) (eq : Nat) (be : Bool) : Nat :=
  sumBy (fun x => (x.2.outs.filter (fun o => o.eq == eq && o.be == be)).length) s.launches
    + (if be then (s.stew.lane.filter (fun x => x.1 == eq)).length else 0)
/-- The lane has space for a push of the Root. -/
def laneFree (s : State) (eq : Nat) (be : Bool) : Bool := decide (laneUsed s eq be < Config.laneCredits)

/-- ALLOW of R226 and R284. -/
def allowOf (s : State) (q : Nat) : Nat := rateOf s q * s.sched.period * s.sched.allow / 25600

/-- An unused tag of an engine queue, bit 15 clear (R284). -/
def freeTag (s : State) (eq : Nat) : Nat → Nat → Nat
  | 0, t => t
  | n + 1, t =>
    if s.launches.any (fun x => x.2.outs.any (fun o => o.eq == eq && o.tag == t)) || s.pushes.any (fun p => p.eq == eq && p.tag == t)
      || s.stew.lane.contains (eq, t) || s.stew.pushq.any (fun m => m.eq == eq && m.tag == t)
    then freeTag s eq n ((t + 1) % 2 ^ 15) else t

/-- The push is a HOLD or a COMMIT, which the Basin takes (R398, R399). -/
def forBasin (p : Push) : Bool := mOpc p.mop == 9 && (mBmode p.mop == 1 || mBmode p.mop == 2)
/-- The push is a walk that starts at its push (R385). -/
def isWalk (p : Push) : Bool := mWalk p.mop && !forBasin p

/-- The context a push belongs to. -/
def pushCtx (s : State) (id : Nat) : Option Nat := (kget s.launches id).bind (·.slot)

/-- Send a MOP_PUSH (R284): the chained mark only while the predecessor is outstanding on the same agent (R140, R263). -/
def sendPush (s : State) (p : Push) : State :=
  match kget s.launches p.launch with
  | none => s
  | some l =>
    let chain := p.chained && p.predEq / 16 == p.eq / 16 && l.outs.any (fun o => o.eq == p.predEq && o.tag == p.predTag)
      || p.chained && p.predEq / 16 == p.eq / 16 && p.src == 0
          && s.launches.any (fun x => x.2.outs.any (fun o => o.eq == p.predEq && o.tag == p.predTag))
    let m : PushMsg := {
      eq := p.eq, be := p.be, chained := chain, predQ := if chain then p.predEq % 16 else 0
      tag := p.tag, predTag := if chain then p.predTag else 0, part := l.part
      maint := decide ((getPart s l.part).st = .maint), launch := p.launch
      charge := if p.be then 0 else satN 32 (chargeOn l p.eq)
      allow := if p.be then 0xFFFFFFFF else satN 32 (allowOf s p.eq)
      used0 := satN 32 (tget 0 l.used p.eq), mop := p.mop, deftmo := (getQueue s l.queue).defTmo }
    let o : Out := {
      eq := p.eq, tag := p.tag, be := p.be, node := p.node, walk := p.walkKey, merge := p.mergeKey, shard := p.shard
      ctx := p.src == 2 || (p.src == 3 && decide (p.core ≠ 0)), cflag := mCflag p.mop, opc := mOpc p.mop }
    sendDown (setLaunch s p.launch { l with outs := l.outs ++ [o] }) (p.eq / 16) (.mopPush m)

/-- Earlier flag operations of a context are applied and its stores have their responses (R264). -/
def ctxSettled (s : State) (p : Push) : Bool :=
  p.src != 2 || (match pushCtx s p.launch with
    | none => true
    | some k => (getCtx? s 0x300 k).all (fun c => c.unapplied == 0 && c.xfers.all (·.load)))

/-- A push may be sent, with those ahead of it in the buffers given (R28, R54, R261, R264, R385). -/
def canPush (s : State) (ahead : List Push) (p : Push) : Bool :=
  !forBasin p && !p.waitPred && !(p.chained && s.pushes.any (fun q => q.eq == p.predEq && q.tag == p.predTag)) && p.want == 0 && (!isWalk p || p.walked == 2) && laneFree s p.eq p.be && ctxSettled s p
    && !ahead.any (fun a => (a.eq == p.eq && a.be == p.be && !forBasin a)
      || (p.src == 2 && a.core == p.core && isWalk a && a.walked != 2 && portOf s (a.eq / 16) == portOf s (p.eq / 16)))

/-- The first push that may be sent. -/
def nextPush (s : State) : List Push → List Push → Option Push
  | _, [] => none
  | ahead, p :: t => if canPush s ahead p then some p else nextPush s (ahead ++ [p]) t

/-- Send every push that may be sent, in order. -/
def pumpN : Nat → State → State
  | 0, s => s
  | n + 1, s =>
    match nextPush s [] s.pushes with
    | none => s
    | some p => pumpN n (sendPush { s with pushes := s.pushes.erase p } p)
/-- Send the Steward's next macro-op, if its lane has a slot (R282, R430). -/
def pumpStew (s : State) : State :=
  match s.stew.pushq with
  | [] => s
  | m :: t =>
    if laneFree s m.eq m.be then
      sendDown (modStew s fun x => { x with pushq := t, lane := x.lane ++ [(m.eq, m.tag)] }) (m.eq / 16) (.mopPush m)
    else s
def pumpPushes (s : State) : State := if s.glb.frozen then s else pumpStew (pumpStew (pumpN s.pushes.length s))

/-- A shard of a merge has given its final COMPLETION (R411). -/
def mergeEnd (s : State) (merge shard status : Nat) : State :=
  if merge = 0 then s else
  match kget s.outf.merges (merge - 1) with
  | none => s
  | some m =>
    let m := { m with ended := insertNat m.ended shard, failed := m.failed || decide (status ≠ 0) }
    if m.failed ∧ m.started.all (fun k => m.ended.contains k) then delMerge s (merge - 1) else setMerge s (merge - 1) m

/-- A shard of a merge is skipped before its start: the merge fails (R411). A SHARD that has started, or lies beyond NSHARD, is none of
its further shards (log entry 48). -/
def mergeSkip (s : State) (p : Push) : State :=
  if mOpc p.mop ≠ 8 ∨ ¬ mMerge p.mop ∨ p.mergeKey ≠ 0 then s else
  let key := p.launch * 256 + mMid p.mop
  match kget s.outf.merges key with
  | none => s
  | some m =>
    if m.nshard ≤ mShard p.mop ∨ m.started.contains (mShard p.mop) then s
    else if m.started.all (fun k => m.ended.contains k) then delMerge s key
    else setMerge s key { m with failed := true }

/-- A node of a running graph launch is at work: started, or failed with its macro-op or its code still running. -/
def nodeBusy (kind : Nat) (n : NodeSt) : Bool :=
  match n.st with
  | .started => true
  | .failed => decide (0 < n.pend) || (kind == 1 && !n.ended)
  | _ => false

/-- The launch has macro-ops outstanding, pushes waiting or agent tasks. -/
def hasWork (s : State) (id : Nat) (l : Launch) : Bool :=
  !l.outs.isEmpty || s.pushes.any (fun p => p.launch == id)
    || (match l.slot with
      | some k => (getCtx? s 0x300 k).any (fun c => !c.tasks.isEmpty)
      | none => false)

/-- Whether a graph launch has come to its end (R199, R200), or an aborted launch to its stop (R125). -/
def graphSettle (s : State) (id : Nat) : State :=
  match kget s.launches id with
  | none => s
  | some l =>
    if isDone l ∨ l.stage ≠ .running then s
    else if l.aborting then (if hasWork s id l ∨ ¬ l.stopOn.isEmpty then s else leave s id stAborted l.failErr)
    else if dOpcode l.desc ≠ 2 then s
    else
      let gn := ((genOf s l).map (·.nodes)).getD []
      let busy := (gn.zip l.nodes).any (fun x => nodeBusy x.1.kind x.2)
      if l.failed then
        if busy ∨ hasWork s id l then s else leave s id (if l.failTmo then stTimeout else stAborted) l.failErr
      else if ¬ l.nodes.isEmpty ∧ l.nodes.all (fun n => n.st == NSt.done) ∧ ¬ hasWork s id l then leave s id stOk 0
      else s

/-- STATUS of the launch record for a macro-op's final status (R308). -/
def recStatus (status cause : Nat) : Nat :=
  if status = 0 then stOk else if status = 1 ∧ cause = 10 then stTimeout else stAborted

/-- A macro-op of a context has ended (R246, R263, R265). -/
def ctxPopped (s : State) (id eq tag : Nat) (bad : Bool) : State :=
  match pushCtx s id with
  | none => s
  | some k => modCtx s 0x300 k fun c => { c with
      pend := c.pend - 1, pushBad := c.pushBad || bad, lastBad := c.lastBad || (bad && c.lastPush == some (eq, tag)) }

/-- A macro-op of a launch has ended for good: its walk and its merge, its node and context, its launch (R308, R200, R411).
`status`, `cause` and `error` as in a COMPLETION. -/
def mopEnded (s : State) (id : Nat) (o : Out) (status cause error : Nat) : State :=
  let s := mergeEnd (walkEnd s o.walk) o.merge o.shard status
  match kget s.launches id with
  | none => s
  | some l =>
    let l := { l with outs := l.outs.filter (fun x => !(x.eq == o.eq && x.tag == o.tag)) }
    let s := setLaunch s id l
    let s := if o.ctx then ctxPopped s id o.eq o.tag (decide (status ≠ 0)) else s
    if isDone l then s
    else if l.aborting then graphSettle (modLaunch s id fun l => if error = eAgentFenced then { l with failErr := error } else l) id
    else if dOpcode l.desc = 2 then
      let s := if o.node = 0 ∨ o.ctx then s else modLaunch s id fun l => { l with
        nodes := l.nodes.mapIdx (fun i n => if i + 1 = o.node then { n with pend := n.pend - 1, ended := true } else n) }
      let s := if status = 0 ∨ o.node = 0 then s else failNode s id (o.node - 1) error (decide (recStatus status cause = stTimeout))
      graphSettle s id
    else
      let l := if status = 0 ∨ l.failed then l
        else { l with failed := true, failErr := error, failTmo := decide (recStatus status cause = stTimeout) }
      let s := setLaunch s id l
      if hasWork s id l then s
      else if l.failed then leave s id (if l.failTmo then stTimeout else stAborted) l.failErr
      else leave s id stOk 0

/-- Report a macro-op as skipped for its target queue without a push (R312, R313): the event, the poison of its CFLAG, and the
end of the macro-op. Pushes that waited for it at the Root are skipped with cause CHAIN in turn. -/
def rootSkip : Nat → State → Push → Nat → Nat → State
  | n, s, p, cause, error =>
    match kget s.launches p.launch with
    | none => { s with pushes := s.pushes.erase p }
    | some l =>
      let s := raiseOn { s with pushes := s.pushes.erase p } error (some l.part) (some (p.eq / 16))
        [(.launch, p.launch % 2 ^ 32), (.engineQueue, p.eq), (.tag, p.tag), (.opcode, mOpc p.mop), (.cause, cause)]
      let s := mergeSkip (if error = eAttnMerge then outErr s p.launch (mMid p.mop) else s) p
      let s := if cflagLive p.mop then
          queueSigs s [{ src := 100, part := l.part, handle := mCflag p.mop, op := 4, x := 0, launch := p.launch }]
        else s
      let s := mopEnded s p.launch {
        eq := p.eq, tag := p.tag, node := p.node, ctx := p.src == 2 || (p.src == 3 && decide (p.core ≠ 0)), walk := p.walkKey
        merge := p.mergeKey, shard := p.shard } 1 cause error
      match n with
      | 0 => s
      | n + 1 => (s.pushes.filter (fun q => (q.waitPred || q.chained) && q.predEq == p.eq && q.predTag == p.tag)).foldl
          (fun s q => rootSkip n s q 0x0B eChainBroken) s

/-- The predecessor that pushes wait for at the Root has ended (R140, R263). -/
def predEnded (s : State) (eq tag : Nat) (ok : Bool) : State :=
  let hit := fun (q : Push) => (q.waitPred || q.chained) && q.predEq == eq && q.predTag == tag
  if ok then { s with pushes := s.pushes.map (fun q => if hit q then { q with waitPred := false, chained := false } else q) }
  else (s.pushes.filter hit).foldl (fun s q => rootSkip s.pushes.length s q 0x0B eChainBroken) s

/-- Peers of a push have a charge in the launch's vector (R294). -/
def peersOk (l : Launch) (m : W512) : Bool := (peers m).all (fun e => decide (chargeOn l e ≠ 0))

/-- The charge vector of the launch, or of its chain: a chain's members share one vector (R215). -/
def vectorOf (s : State) (id : Nat) (l : Launch) : Launch :=
  if l.head = 0 then l
  else { l with charge := (s.launches.filter (fun x => x.2.head == l.head && x.2.queue == l.queue)).flatMap (fun x =>
    if x.1 = id then l.charge else x.2.charge) }

/-- Put a macro-op into a push buffer, or skip it at once where the Root's checks say so (R24, R294, R296, R399). -/
def queuePush (s : State) (p : Push) : State :=
  match kget s.launches p.launch with
  | none => s
  | some l =>
    let t := freeTag s p.eq 1024 s.sched.nextTag
    let p := { p with tag := t }
    let s := modSched s fun c => { c with nextTag := (t + 1) % 2 ^ 15 }
    let s := { s with pushes := s.pushes ++ [p] }
    let v := vectorOf s p.launch l
    if ¬ eqReach s p.eq then rootSkip 16 s p 0x08 eMopIllegal
    else if mOpc p.mop = 9 ∧ mBmode p.mop = 2 then
      (if commitOk p.mop then s else rootSkip 16 s p 0x01 eMopIllegal)
    else if forBasin p then s
    else if ¬ peersOk v p.mop then rootSkip 16 s p 0x05 eMopIllegal
    else if p.src = 3 ∧ chargeOn v p.eq = 0 then rootSkip 16 s p 0x04 eMopIllegal
    else if p.src = 0 ∧ mOpc p.mop = 0x10 then
      match (relOf l (hIndex (fld p.mop 128 32))).bind (streamRel p.mop) with
      | some m =>
        if bufHandleOk (fld p.mop 128 32) then { s with pushes := s.pushes.map (fun q => if q = p then { q with mop := m } else q) }
        else rootSkip 16 s p 0x06 eMopIllegal
      | none => rootSkip 16 s p 0x06 eMopIllegal
    else if p.src = 1 ∧ mOpc p.mop = 0x10 then
      let h := fld p.mop 128 32
      if ¬ bufHandleOk h ∨ ¬ hInTable s l.part h then rootSkip 16 s p 0x06 eMopIllegal
      else match cacheLookup s l.part h with
        | some e => match streamRel p.mop e with
          | some m =>
            let s := hHit s l.part h
            { s with pushes := s.pushes.map (fun q => if q = p then { q with mop := m } else q) }
          | none => rootSkip 16 s p 0x06 eMopIllegal
        | none =>
          let r := hMiss s l.part h
          { r.2 with pushes := r.2.pushes.map (fun q => if q = p then { q with want := r.1 + 1 } else q) }
    else s

/-- The last push queued for a launch. -/
def lastPushOf (s : State) (id : Nat) : Option Push := (s.pushes.filter (fun p => p.launch == id)).getLast?

end Sys2Proof.Machine
end

