-- ==== Sys2Proof/Machine/Fp.lean ====
section
/-! DEFINITION. Numbers: the element formats, exact values, rounding to nearest even, arithmetic, conversion and the block
formats (R336–R352). Flags are numbers with OVF at bit 0, UNF 1, INX 2, INV 3 (R356). -/

namespace Sys2Proof.Machine

/-- A value: a NaN with its sign, an infinity, or ± m × 2^e. -/
inductive Fv where
  | nan (neg : Bool)
  | inf (neg : Bool)
  | fin (neg : Bool) (m : Nat) (e : Int)
  deriving DecidableEq, Repr

/-- A floating format (R336): width, mantissa bits, bias, infinity, NaN code when there is one, largest finite code, and
whether the one subnormal is flushed. -/
structure Fmt where
  w : Nat
  mb : Nat
  bias : Nat
  hasInf : Bool
  nan : Option Nat
  top : Nat
  flush : Bool := false
  deriving DecidableEq, Repr

def fp32 : Fmt := { w := 32, mb := 23, bias := 127, hasInf := true, nan := some 0x7FC00000, top := 0x7F7FFFFF }
def fp16 : Fmt := { w := 16, mb := 10, bias := 15, hasInf := true, nan := some 0x7E00, top := 0x7BFF }
def bf16 : Fmt := { w := 16, mb := 7, bias := 127, hasInf := true, nan := some 0x7FC0, top := 0x7F7F }
def e4m3 : Fmt := { w := 8, mb := 3, bias := 7, hasInf := false, nan := some 0x7F, top := 0x7E }
def e5m2 : Fmt := { w := 8, mb := 2, bias := 15, hasInf := true, nan := some 0x7E, top := 0x7B }
def e3m2 : Fmt := { w := 6, mb := 2, bias := 3, hasInf := false, nan := none, top := 0x1F }
def e2m3 : Fmt := { w := 6, mb := 3, bias := 1, hasInf := false, nan := none, top := 0x1F }
def e2m1 : Fmt := { w := 4, mb := 1, bias := 1, hasInf := false, nan := none, top := 7 }
def fp4 : Fmt := { e2m1 with flush := true }

/-- The element of a code (R336, R337): a float format, or an integer of a width, with the MXV bit for codes 0xC and 0xD. -/
inductive Elem where
  | flt (f : Fmt)
  | int (w : Nat)
  deriving DecidableEq, Repr

def elemOf (code : Nat) (mxv : Bool) : Elem :=
  match code with
  | 0 => .flt fp32
  | 1 => .flt fp16
  | 2 => .flt bf16
  | 3 => .flt e4m3
  | 4 => .flt e5m2
  | 5 => .flt e3m2
  | 6 => .flt e2m3
  | 7 => .flt fp4
  | 8 => .int 32
  | 9 => .int 16
  | 10 => .int 8
  | 11 => .int 4
  | 12 => .flt (if mxv then e5m2 else e4m3)
  | 13 => .flt (if mxv then e2m3 else e3m2)
  | 14 => .flt e2m1
  | _ => .int 8

/-- Bits of an element. -/
def elemW : Elem → Nat
  | .flt f => f.w
  | .int w => w

/-- The code is an MX code. -/
def isMx (code : Nat) : Bool := decide (12 ≤ code)
/-- The code is an integer format (R337). -/
def isInt (code : Nat) : Bool := decide (8 ≤ code) && decide (code ≤ 11)

/-- The value of a code of a format. -/
def fdec (f : Fmt) (x : Nat) : Fv :=
  let neg := x.testBit (f.w - 1)
  let m := x % 2 ^ f.mb
  let ef := nbits x f.mb (f.w - 1 - f.mb)
  let ones := 2 ^ (f.w - 1 - f.mb) - 1
  if f.hasInf ∧ ef = ones then (if m = 0 then .inf neg else .nan neg)
  else if ¬ f.hasInf ∧ f.nan.isSome ∧ ef = ones ∧ m = 2 ^ f.mb - 1 then .nan neg
  else if ef = 0 then .fin neg (if f.flush then 0 else m) (1 - (f.bias : Int) - f.mb)
  else .fin neg (2 ^ f.mb + m) ((ef : Int) - f.bias - f.mb)

def flOvf : Nat := 1
def flUnf : Nat := 2
def flInx : Nat := 4
def flInv : Nat := 8

/-- Place a magnitude code under its sign. -/
def signed (f : Fmt) (neg : Bool) (mag : Nat) : Nat := mag + put (b2n neg) (f.w - 1)

/-- Exponent of a magnitude's leading bit. -/
def topExp (m : Nat) (e : Int) : Int := (Nat.log2 m : Int) + e
/-- Exponent of the quantum that a format gives a magnitude. -/
def quantum (f : Fmt) (m : Nat) (e : Int) : Int := max (topExp m e - f.mb) (1 - (f.bias : Int) - f.mb)

/-- m × 2^e as a multiple of 2^q, rounded to nearest even, and whether that was inexact. -/
def rne (m : Nat) (e q : Int) : Nat × Bool :=
  if q ≤ e then (m * 2 ^ (e - q).toNat, false)
  else
    let sh := (q - e).toNat
    if Nat.log2 m + 2 < sh then (0, decide (m ≠ 0))
    else
      let r := m / 2 ^ sh
      let rem := m % 2 ^ sh
      (if 2 ^ sh < 2 * rem ∨ (2 * rem = 2 ^ sh ∧ r % 2 = 1) then r + 1 else r, decide (rem ≠ 0))

/-- Round a magnitude into a format (R343, R344): code of the magnitude and flags. `sat` holds an overflow at the largest
finite value. -/
def fround (f : Fmt) (m : Nat) (e : Int) : Nat × Nat :=
  if m = 0 then (0, 0) else
  let q := quantum f m e
  let (r, inx) := rne m e q
  let code := r + (q - (1 - (f.bias : Int) - f.mb)).toNat * 2 ^ f.mb
  if f.top < code then ((if f.hasInf then f.top + 1 else f.top), flOvf ||| flInx)
  else if f.flush ∧ code = 1 then (0, flUnf ||| flInx)
  else (code, if inx then flInx ||| (if code < 2 ^ f.mb then flUnf else 0) else 0)

/-- Deliver a value in a float format (R343, R344). -/
def fput (f : Fmt) : Fv → Nat × Nat
  | .nan _ => match f.nan with
    | some n => (n, 0)
    | none => (0, flInv)
  | .inf neg => if f.hasInf then (signed f neg (f.top + 1), 0) else (signed f neg f.top, flOvf)
  | .fin neg m e => let (c, fl) := fround f m e
    (signed f neg c, fl)

/-- Saturate an integer into w bits of two's complement: code and whether it was beyond the range. -/
def isat (w : Nat) (v : Int) : Nat × Bool :=
  let hi : Int := 2 ^ (w - 1) - 1
  let lo : Int := -(2 ^ (w - 1))
  if hi < v then (unsgn w hi, true) else if v < lo then (unsgn w lo, true) else (unsgn w v, false)

/-- A value's sign applied to a magnitude. -/
def withSign (neg : Bool) (m : Nat) : Int := if neg then -(m : Int) else m

/-- Deliver a value in an integer format (R344). -/
def iput (w : Nat) : Fv → Nat × Nat
  | .nan _ => (0, flInv)
  | .inf neg => ((isat w (withSign neg (2 ^ w))).1, flInv)
  | .fin neg m e =>
    let (r, inx) := if m = 0 then (0, false) else if (w : Int) + 1 < topExp m e then (2 ^ w, true) else rne m e 0
    let (c, sat) := isat w (withSign neg r)
    (c, if sat then flOvf ||| flInx else if inx then flInx else 0)

/-- The value of an integer code. -/
def ival (w x : Nat) : Fv :=
  let v := sgn w (x % 2 ^ w)
  .fin (decide (v < 0)) v.natAbs 0

/-- The value of an element's code. -/
def edec : Elem → Nat → Fv
  | .flt f, x => fdec f x
  | .int w, x => ival w x

/-- Convert a code of one element type to another (R341, R343, R344, R348). Integers narrow with OVF alone. -/
def econv (src dst : Elem) (x : Nat) : Nat × Nat :=
  match src, dst with
  | .int w, .int v => let (c, sat) := isat v (sgn w (x % 2 ^ w))
    (c, if sat then flOvf else 0)
  | .int w, .flt f => fput f (ival w x)
  | .flt f, .int v => iput v (fdec f x)
  | .flt f, .flt g => fput g (fdec f x)

/-- Expansion to FP32: a NaN keeps its sign and takes the canonical payload (R341). -/
def expand32 (f : Fmt) (x : Nat) : Nat :=
  match fdec f x with
  | .nan neg => signed fp32 neg 0x7FC00000
  | v => (fput fp32 v).1

def isNan : Fv → Bool
  | .nan _ => true
  | _ => false
def isZero : Fv → Bool
  | .fin _ m _ => m == 0
  | _ => false
def isInf : Fv → Bool
  | .inf _ => true
  | _ => false
def signOf : Fv → Bool
  | .nan s | .inf s | .fin s _ _ => s

/-- ± m × 2^e as an integer multiple of 2^q, q ≤ e. -/
def scaled (neg : Bool) (m : Nat) (e q : Int) : Int := withSign neg (m * 2 ^ (e - q).toNat)

/-- Exact sum (R350): a value and INV for ∞ − ∞. -/
def fadd : Fv → Fv → Fv × Nat
  | .nan _, _ | _, .nan _ => (.nan false, 0)
  | .inf a, .inf b => if a = b then (.inf a, 0) else (.nan false, flInv)
  | .inf a, _ | _, .inf a => (.inf a, 0)
  | .fin a m e, .fin b n g =>
    if m = 0 ∧ n = 0 then (.fin (a && b) 0 0, 0)
    else if m = 0 then (.fin b n g, 0)
    else if n = 0 then (.fin a m e, 0)
    else
      let q := min e g
      let v := scaled a m e q + scaled b n g q
      (.fin (decide (v < 0)) v.natAbs q, 0)

/-- Exact product: INV for 0 × ∞. -/
def fmul : Fv → Fv → Fv × Nat
  | .nan _, _ | _, .nan _ => (.nan false, 0)
  | .inf a, .inf b => (.inf (a != b), 0)
  | .inf a, .fin b n _ | .fin b n _, .inf a => if n = 0 then (.nan false, flInv) else (.inf (a != b), 0)
  | .fin a m e, .fin b n g => (.fin (a != b) (m * n) (e + g), 0)

/-- Change a value's sign. -/
def fneg : Fv → Fv
  | .nan s => .nan (!s)
  | .inf s => .inf (!s)
  | .fin s m e => .fin (!s) m e

/-- d + a × b exactly (R350). A NaN operand raises no flag. -/
def ffma (d a b : Fv) : Fv × Nat :=
  if isNan d ∨ isNan a ∨ isNan b then (.nan false, 0)
  else
    let (p, f) := fmul a b
    if f ≠ 0 then (p, f) else fadd d p

/-- A first operation's flags with those of the rounding. -/
def fres (f : Fmt) (r : Fv × Nat) : Nat × Nat :=
  let (c, fl) := fput f r.1
  (c, r.2 ||| fl)

/-- a < b in value, no operand NaN. −0 and +0 are equal. -/
def fltv : Fv → Fv → Bool
  | .nan _, _ | _, .nan _ => false
  | .inf a, .inf b => a && !b
  | .inf a, _ => a
  | _, .inf b => !b
  | .fin a m e, .fin b n g =>
    let q := min e g
    decide (scaled a m e q < scaled b n g q)
/-- a = b in value. -/
def feqv (a b : Fv) : Bool := !isNan a && !isNan b && !fltv a b && !fltv b a

/-- The smaller of two values (R350): −0 lies below +0, a NaN gives way. -/
def fmin (a b : Fv) : Fv :=
  if isNan a then (if isNan b then .nan false else b)
  else if isNan b then a
  else if fltv a b then a else if fltv b a then b
  else if signOf a then a else b
def fmax (a b : Fv) : Fv :=
  if isNan a then (if isNan b then .nan false else b)
  else if isNan b then a
  else if fltv a b then b else if fltv b a then a
  else if signOf a then b else a

/-- Integer square root, bit by bit. -/
def isqrtN : Nat → Nat → Nat → Nat
  | 0, _, r => r
  | n + 1, x, r => isqrtN n x (if (r + 2 ^ n) * (r + 2 ^ n) ≤ x then r + 2 ^ n else r)
def isqrt (x : Nat) : Nat := isqrtN (Nat.log2 x / 2 + 1) x 0

/-- Append a bit that says whether anything is left below a magnitude. -/
def sticky (m : Nat) (e : Int) (rest : Bool) : Nat × Int := if rest then (2 * m + 1, e - 1) else (m, e)

/-- 1 ÷ (m × 2^e) to more than 40 bits. -/
def rcpMag (m : Nat) (e : Int) : Nat × Int :=
  let k := Nat.log2 m + 40
  sticky (2 ^ k / m) (-e - k) (decide (2 ^ k % m ≠ 0))

/-- 1 ÷ √(m × 2^e) to more than 40 bits. -/
def rsqrtMag (m : Nat) (e : Int) : Nat × Int :=
  let (m, e) := if e % 2 = 0 then (m, e) else (2 * m, e - 1)
  let k := Nat.log2 m + 41
  let r := isqrt (2 ^ (2 * k) / m)
  sticky r (-(e / 2) - k) (decide (r * r * m ≠ 2 ^ (2 * k)))

/-- Fraction bits of log2 of x / 2^p, 1 ≤ x / 2^p < 2, by squaring. -/
def logBits (p : Nat) : Nat → Nat → Nat → Nat
  | 0, _, acc => acc
  | n + 1, x, acc =>
    let y := x * x / 2 ^ p
    if 2 ^ (p + 1) ≤ y then logBits p n (y / 2) (2 * acc + 1) else logBits p n y (2 * acc)

/-- log2 of m × 2^e. -/
def log2Val (m : Nat) (e : Int) : Fv :=
  let l := Nat.log2 m
  let ex := (l : Int) + e
  if m = 2 ^ l then .fin (decide (ex < 0)) ex.natAbs 0
  else
    let f := logBits 200 120 (m * 2 ^ 200 / 2 ^ l) 0
    let v : Int := 2 * (ex * 2 ^ 120 + f) + 1
    .fin (decide (v < 0)) v.natAbs (-121)

/-- 2^(f / 2^n) × 2^p for the n-bit fraction f, from its highest bit down; c is 2^(2^−i) × 2^p. -/
def expBits (p : Nat) : Nat → Nat → Nat → Nat → Nat
  | 0, _, _, acc => acc
  | n + 1, f, c, acc => expBits p n (f % 2 ^ n) (isqrt (c * 2 ^ p)) (if 2 ^ n ≤ f then acc * c / 2 ^ p else acc)

/-- 2^x for x = v × 2^−n, with a mark that x has more bits below. -/
def exp2Mag (v : Int) (n : Nat) (rest : Bool) : Nat × Int :=
  let ip := v / (2 ^ n : Int)
  let fp := (v % (2 ^ n : Int)).toNat
  if fp = 0 ∧ ¬ rest then (1, ip)
  else sticky (expBits 160 n fp (isqrt (2 * 2 ^ 320)) (2 ^ 160)) (ip - 160) true

/-- ± m × 2^e as a multiple of 2^−n rounded down, and whether anything is left. -/
def fixed (neg : Bool) (m : Nat) (e : Int) (n : Nat) : Int × Bool :=
  if -(n : Int) ≤ e then (withSign neg (m * 2 ^ (e + n).toNat), false)
  else
    let sh := (-(n : Int) - e).toNat
    if Nat.log2 m < sh then (if neg ∧ m ≠ 0 then -1 else 0, decide (m ≠ 0))
    else
      let v := withSign neg m
      (v / (2 ^ sh : Int), decide (m % 2 ^ sh ≠ 0))

/-- 2^x of a finite value; a large |x| is cut, far beyond the range of every format. -/
def exp2Val (neg : Bool) (m : Nat) (e : Int) : Fv :=
  if m ≠ 0 ∧ 12 < topExp m e then .fin false 1 (if neg then -4096 else 4096)
  else
    let (v, r) := fixed neg m e 100
    let (m, e) := exp2Mag v 100 r
    .fin false m e

/-- e^x of a finite value: 2^(x × log2 e), log2 e to 160 bits. -/
def expVal (neg : Bool) (m : Nat) (e : Int) : Fv :=
  if m = 0 then .fin false 1 0
  else exp2Val neg (2 * (m * 2108501164428393954197770173035669514763056903506) + 1) (e - 161)

/-- A candidate is delivered where it lies within 2 ulp of the exact result, else the rounded result is (R350, log entry 4). -/
def within2 (cand : W32) : Fv → Nat × Nat
  | .fin neg m e =>
    if m = 0 then fput fp32 (.fin neg 0 e) else
    match fdec fp32 cand.toNat with
    | .fin cn cm ce =>
      let q := quantum fp32 m e
      let lo := min (min e ce) q
      let diff := (scaled neg m e lo - scaled cn cm ce lo).natAbs
      if -1000 < lo ∧ lo < 1000 ∧ topExp m e < 200 ∧ cn = neg ∧ diff ≤ 2 * 2 ^ (q - lo).toNat then
        (cand.toNat, if diff = 0 then 0 else flInx ||| (if cand.toNat % 2 ^ 31 < 2 ^ 23 then flUnf else 0))
      else fput fp32 (.fin neg m e)
    | _ => fput fp32 (.fin neg m e)
  | v => fput fp32 v

/-- VRCP, VRSQRT, VEXP2 on an FP32 lane (R350): code and flags. Log entry 17: the limits at the infinities. -/
def rcp32 (x : W32) : Nat × Nat :=
  match fdec fp32 x.toNat with
  | .nan _ => fput fp32 (.nan false)
  | .inf s => fput fp32 (.fin s 0 0)
  | .fin s m e => if m = 0 then (signed fp32 s 0x7F800000, flOvf)
    else let (a, b) := rcpMag m e
      within2 (Config.rcpCand x) (.fin s a b)
def rsqrt32 (x : W32) : Nat × Nat :=
  match fdec fp32 x.toNat with
  | .nan _ => fput fp32 (.nan false)
  | .inf s => if s then (0x7FC00000, flInv) else (0, 0)
  | .fin s m e =>
    if m = 0 then (signed fp32 s 0x7F800000, flOvf)
    else if s then (0x7FC00000, flInv)
    else let (a, b) := rsqrtMag m e
      within2 (Config.rsqrtCand x) (.fin false a b)
def exp232 (x : W32) : Nat × Nat :=
  match fdec fp32 x.toNat with
  | .nan _ => fput fp32 (.nan false)
  | .inf s => (if s then 0 else 0x7F800000, 0)
  | .fin s m e => within2 (Config.exp2Cand x) (exp2Val s m e)
/-- VLOG2: none for ±0, where the spec states no result. -/
def log232 (x : W32) : Option (Nat × Nat) :=
  match fdec fp32 x.toNat with
  | .nan _ => some (fput fp32 (.nan false))
  | .inf s => some (if s then (0x7FC00000, flInv) else (0x7F800000, 0))
  | .fin s m e =>
    if m = 0 then none
    else if s then some (0x7FC00000, flInv)
    else some (within2 (Config.log2Cand x) (log2Val m e))
/-- The merge unit's exp of an FP32 value (R408). -/
def exp32 (x : W32) : Nat × Nat :=
  match fdec fp32 x.toNat with
  | .nan _ => fput fp32 (.nan false)
  | .inf s => (if s then 0 else 0x7F800000, 0)
  | .fin s m e => if m = 0 then (0x3F800000, 0) else within2 (Config.expCand x) (expVal s m e)

/-- FP32 arithmetic on codes. -/
def add32 (a b : Nat) : Nat × Nat := fres fp32 (fadd (fdec fp32 a) (fdec fp32 b))
def mul32 (a b : Nat) : Nat × Nat := fres fp32 (fmul (fdec fp32 a) (fdec fp32 b))
def sub32 (a b : Nat) : Nat × Nat := fres fp32 (fadd (fdec fp32 a) (fneg (fdec fp32 b)))

/-- Value of an MX element before its scale (R337): MXINT8 counts 2^−6. -/
def mxVal (code : Nat) (mxv : Bool) (x : Nat) : Fv :=
  match elemOf code mxv with
  | .flt f => fdec f x
  | .int w => match ival w x with
    | .fin s m _ => .fin s m (-6)
    | v => v

/-- A value times 2^k. -/
def fscale (v : Fv) (k : Int) : Fv :=
  match v with
  | .fin s m e => .fin s m (e + k)
  | v => v

/-- Expansion of an MX element to FP32 with scale byte S (R342). INV for S = 0xFF is the block's. -/
def mxExpand (code : Nat) (mxv : Bool) (sc x : Nat) : Nat × Nat :=
  if sc = 255 then (0x7FC00000, 0)
  else fput fp32 (fscale (mxVal code mxv x) ((sc : Int) - 127))

/-- emax of R345. -/
def mxEmax (code : Nat) (mxv : Bool) : Int :=
  match code with
  | 12 => if mxv then 15 else 8
  | 13 => if mxv then 2 else 4
  | 14 => 2
  | _ => 0

/-- Step 4 of R345: one element under the exponent X; `cl` says that X was clamped at 127. -/
def mxElem (code : Nat) (mxv : Bool) (x : Int) (cl : Bool) (v : Fv) : Nat × Nat :=
  let satFl := fun (i : Bool) => flInx ||| (if i || cl then flOvf else 0)
  match elemOf code mxv with
  | .flt f => match v with
    | .inf neg => (signed f neg f.top, satFl true)
    | .fin neg m e =>
      let (c, fl) := fround { f with hasInf := false } m (e - x)
      (signed f neg c, if fl &&& flOvf ≠ 0 then satFl false else fl)
    | .nan s => fput f (.nan s)
  | .int w => match v with
    | .inf neg => ((isat w (withSign neg (2 ^ w))).1, satFl true)
    | .nan _ => (0, flInv)
    | .fin neg m e =>
      let (c, fl) := iput w (.fin neg m (e - x + 6))
      (c, if fl &&& flOvf ≠ 0 then satFl false else fl)

/-- Compression of a block (R345): scale byte, element codes, flags. -/
def mxCompress (code : Nat) (mxv : Bool) (vs : List Fv) : Nat × List Nat × Nat :=
  if vs.any isNan then (255, vs.map (fun _ => 0), flInv)
  else
    let tops := vs.filterMap (fun v => match v with
      | .fin _ m e => if m = 0 then none else some (topExp m e)
      | _ => none)
    let x0 : Option Int := match tops with
      | [] => none
      | t :: r => some (r.foldl max t - mxEmax code mxv)
    let x : Int := match x0 with
      | none => -127
      | some x => max (-127) (min 127 x)
    let cl := match x0 with
      | none => false
      | some x => decide (127 < x)
    let es := vs.map (mxElem code mxv x cl)
    ((x + 127).toNat, es.map (·.1), es.foldl (fun a (e : Nat × Nat) => a ||| e.2) 0)

/-- Block record of R340: bytes of the record, byte of the scale, byte of element 16. -/
def mxRec (code : Nat) : Nat := if code = 13 then 32 else if code = 14 then 24 else 40
def mxScaleAt (code : Nat) : Nat := if code = 13 then 24 else if code = 14 then 16 else 32
def mxHalf (code : Nat) : Nat := mxScaleAt code / 2

/-- Elements of w bits packed from bit 0 (R339). -/
def packE (w : Nat) : List Nat → Nat
  | [] => 0
  | x :: t => x % 2 ^ w + 2 ^ w * packE w t
/-- The first n elements of w bits. -/
def unpackE (w : Nat) : Nat → Nat → List Nat
  | 0, _ => []
  | n + 1, x => x % 2 ^ w :: unpackE w n (x / 2 ^ w)

/-- Or the flags of a list of results. -/
def flagsOf (l : List (Nat × Nat)) : Nat := l.foldl (fun a (e : Nat × Nat) => a ||| e.2) 0

/-- K of R257 for a tag. -/
def tileK (code : Nat) : Nat :=
  match code with
  | 7 | 14 | 11 => 128
  | 3 | 4 | 5 | 6 | 12 | 13 | 10 | 15 => 64
  | 1 | 2 | 9 => 32
  | _ => 16

/-- Bits of an element of a code. -/
def codeW (code : Nat) : Nat := elemW (elemOf code false)

/-- Elements of a tile with their element type. -/
def tileElems (tag : Nat) (t : BitVec 8192) : List Nat := unpackE (codeW tag) (16 * tileK tag) t.toNat

/-- Value of a tile's element as TMMA and TST take it (R351): self-standing, of the element type. -/
def tileVal (tag : Nat) (mxv : Bool) (x : Nat) : Fv :=
  match elemOf tag mxv with
  | .flt f => fdec f x
  | .int w => if tag = 15 then mxVal 15 mxv x else ival w x

/-- Sort by the opaque order of R323 (log entry 5). -/
def byOrder {α : Type} (l : List α) : List α :=
  (sortBy (fun (a b : Nat × α) => decide (a.1 ≤ b.1)) (l.mapIdx (fun i x => (Config.orderKey i, x)))).map (·.2)

/-- FP32 accumulation of values from a start, each addition rounded: code and flags. -/
def accum (start : Nat) (vs : List (Fv × Nat)) : Nat × Nat :=
  vs.foldl (fun (a : Nat × Nat) (v : Fv × Nat) =>
    let r := fres fp32 (fadd (fdec fp32 a.1) v.1)
    (r.1, a.2 ||| v.2 ||| r.2)) (start, 0)

/-- BF16 pieces of an FP32 operand (R354). -/
def pieces (x : Nat) : List Fv :=
  match fdec fp32 x with
  | .fin s m e =>
    let a := Fv.fin s m e
    let a0 := fdec bf16 (fput bf16 a).1
    let d1 := (fadd a (fneg a0)).1
    let a1 := fdec bf16 (fput bf16 d1).1
    let d2 := (fadd d1 (fneg a1)).1
    [a0, a1, fdec bf16 (fput bf16 d2).1]
  | v => [v, .fin false 0 0, .fin false 0 0]

/-- One TMMA accumulator element: start, operand rows; split 0, 2 or 3 (R352, R354). -/
def tmmaElem (tag : Nat) (ma mb : Bool) (split start : Nat) (ra rb : List Nat) : Nat × Nat :=
  if isInt tag then
    let w := codeW tag
    let sum := ((ra.zip rb).map (fun (x : Nat × Nat) => sgn w x.1 * sgn w x.2)).foldl (· + ·) (sgn 32 start)
    let (c, sat) := isat 32 sum
    (c, if sat then flOvf else 0)
  else if split = 0 then
    accum start (byOrder ((ra.zip rb).map (fun (x : Nat × Nat) => fmul (tileVal tag ma x.1) (tileVal tag mb x.2))))
  else
    let pa := ra.map pieces
    let pb := rb.map pieces
    let pairs : List (Nat × Nat) := if split = 2 then [(1, 0), (0, 1), (0, 0)] else [(2, 0), (1, 1), (0, 2), (1, 0), (0, 1), (0, 0)]
    let z := Fv.fin false 0 0
    accum start (pairs.flatMap (fun (k : Nat × Nat) =>
      byOrder ((pa.zip pb).map (fun (x : List Fv × List Fv) => fmul (x.1.getD k.1 z) (x.2.getD k.2 z)))))

end Sys2Proof.Machine
end

