-- ==== Sys2Proof/Machine/Attn.lean ====
section
/-! DEFINITION. Walks, page-table roots, the Basin, and the Outfall's merges (R382–R416). -/

namespace Sys2Proof.Machine

/-- Change one waiting push. -/
def setPush (s : State) (old new : Push) : State :=
  { s with pushes := s.pushes.map (fun q => if q = old then new else q) }

/-- Width in bytes of an element of merged output (R409). -/
def outWidth (fmt : Nat) : Nat := if fmt = 0 then 4 else 2

/-- Reservation key of a merge. -/
def mergeKeyOf (launch mid : Nat) : Nat := launch * 256 + mid

/-- Slots that a walk's merge takes (R407). -/
def mergeSlots (m : W512) : Nat := mDim m 0 * mDim m 1 / 8

/-- A buffer handle that a walk names, found in the cache, or awaited (R144). -/
inductive Look where
  | bad
  | wait (s : State)
  | hit (s : State) (e : BitVec 128)

/-- Look a handle up for a push. -/
def lookPush (s : State) (p : Push) (part h : Nat) : Look :=
  if ¬ bufHandleOk h ∨ ¬ hInTable s part h then .bad
  else match cacheLookup s part h with
    | some e => .hit (hHit s part h) e
    | none => let r := hMiss s part h
      .wait (setPush r.2 p { p with walked := 1, want := r.1 + 1 })

/-- Report a walk as skipped at its start (R386). -/
def walkSkip (s : State) (p : Push) (error : Nat) : State := pumpPushes (rootSkip 16 s p 0x0D error)

/-- A merge's later start breaks a reservation rule (R407). -/
def mergeClash (m : Merge) (w : W512) (dest : Nat) : Bool :=
  m.dim0 != mDim w 0 || m.dim1 != mDim w 1 || m.nshard != mNshard w || m.ncand != mNcand w || m.fmt != mFmt w 2
    || m.mdest.toNat != dest || m.started.contains (mShard w) || decide (mNshard w ≤ mShard w)

/-- The walk starts (R385, R387, R388): its count, its merge, its walk block. `t` is the table's entry. -/
def walkGo (s : State) (p : Push) (part root : Nat) (t : BitVec 128) (merge : Nat) : State :=
  let n := tget 0 s.attn.walks root + 1
  let walks := tput 0 s.attn.walks root n
  let s := { s with attn := { s.attn with walks := walks, peak := max s.attn.peak walks.length } }
  let x := getPart s part
  let lo := hAddr t / 64 * 64 + b2n (hLoc t)
  let hi := x.htabBase.toNat / 4096 + put (x.htabEntries / 512 % 4096) 52
  let m := setFld (setFld p.mop 384 64 lo) 448 64 hi
  pumpPushes (setPush s p { p with mop := m, walked := 2, want := 0, walkKey := root + 1, mergeKey := merge, shard := mShard p.mop })

/-- The merge step of a walk's start (R407), then the start. -/
def walkMerge (s : State) (p : Push) (part root : Nat) (t : BitVec 128) : State :=
  if mOpc p.mop ≠ 8 ∨ ¬ mMerge p.mop then
    (if tget 0 s.attn.walks root = 0 ∧ Config.walkMax ≤ s.attn.walks.length then s else walkGo s p part root t 0)
  else
    let key := mergeKeyOf p.launch (mMid p.mop)
    let n := mergeSlots p.mop
    let start := fun (s : State) (dest : Nat) =>
      match getMerge? s key with
      | some m =>
        if mergeClash m p.mop dest then walkSkip s p eAttnMerge
        else if tget 0 s.attn.walks root = 0 ∧ Config.walkMax ≤ s.attn.walks.length then s
        else walkGo (setMerge s key { m with started := insertNat m.started (mShard p.mop) }) p part root t (key + 1)
      | none =>
        if Config.mergeMax < n then walkSkip s p eAttnMerge
        else if Config.mergeMax < mergeUsed s + n then s
        else if tget 0 s.attn.walks root = 0 ∧ Config.walkMax ≤ s.attn.walks.length then s
        else
          let s := setMerge s key {
            dim0 := mDim p.mop 0, dim1 := mDim p.mop 1, nshard := mNshard p.mop, ncand := mNcand p.mop, fmt := mFmt p.mop 2
            mdest := BitVec.ofNat 64 dest, part := part, started := [mShard p.mop] }
          let s := { s with outf := { s.outf with peak := max s.outf.peak (mergeUsed s) } }
          walkGo s p part root t (key + 1)
    if p.src = 2 then start s (mBlock p.mop / 64 * 64)
    else
      let off := mBlock p.mop / 2 ^ 32 * 64
      match lookPush s p part (mBlock p.mop % 2 ^ 32) with
      | .bad => walkSkip s p eAttnMerge
      | .wait s => s
      | .hit s e =>
        if ¬ hValid e ∨ ¬ hWritable e ∨ hLen64 e * 64 < off + mDim p.mop 0 * mDim p.mop 1 * outWidth (mFmt p.mop 2) then
          walkSkip s p eAttnMerge
        else start s (hAddr e + off)

/-- The checks of a walk at its start, in the order of R386. -/
def walkTry (s : State) (p : Push) : State :=
  match kget s.launches p.launch with
  | none => s
  | some l =>
    let q := getSeqs s l.part
    let seq := mSeq p.mop
    let rk := l.part * 65536 + seq
    if q.cnt ≤ seq then walkSkip s p eAttnRoot
    else match rootGet s rk with
      | none =>
        let s := if s.attn.reading.contains rk then s
          else mgrRead { s with attn := { s.attn with
            reading := insertNat s.attn.reading rk, misses := satN 16 (s.attn.misses + 1) } }
            l.part (q.base.toNat + 8 * seq) 8 (.root rk)
        setPush s p { p with walked := 1, want := 0 }
      | some w =>
        let s := rootPut s rk w
        let s := if p.walked = 0 then { s with attn := { s.attn with hits := satN 16 (s.attn.hits + 1) } } else s
        if ¬ bitOf w 63 then walkSkip s p eAttnRoot
        else match lookPush s p l.part (fld w 0 32) with
          | .bad => walkSkip s p eAttnRoot
          | .wait s => s
          | .hit s t =>
            if ¬ hValid t ∨ hKind t ≠ 4 then walkSkip s p eAttnRoot
            else if mOpc p.mop = 8 ∧ hLen64 t * 8 < mDim p.mop 2 + mDim p.mop 3 then walkSkip s p eAttnRoot
            else walkMerge s p l.part (rk * 65536 + fld w 32 16) t

/-- Pushes ahead of one in the buffers. -/
def aheadOf (s : State) (p : Push) : List Push := s.pushes.takeWhile (fun q => !decide (q = p))

/-- WALK_START (R385, R386): the walk is the next push of its lane, with space reserved. -/
def execWalkStart (tag : Nat) (s : State) : Host.Outcome State Fault Refusal :=
  liveRoot s fun s =>
    match s.pushes.find? (fun p => p.tag == tag && isWalk p && decide (p.walked ≠ 2)) with
    | none => s
    | some p =>
      if s.glb.frozen ∨ p.want ≠ 0 ∨ ¬ canPush s (aheadOf s p) { p with walked := 2 } then s
      else walkTry s p

/-- Walks that wait for a root word go on. -/
def retryRoot (s : State) (rk : Nat) (ok : Bool) : State :=
  (s.pushes.filter (fun p => isWalk p && p.walked == 1 && p.want == 0)).foldl (fun s p =>
    match kget s.launches p.launch with
    | some l => if l.part * 65536 + mSeq p.mop = rk then (if ok then walkTry s p else walkSkip s p eHostReadFault) else s
    | none => s) s

/-- ROOT_CACHE_FILL (R383): a read that met a fault ends the walks that waited for it. -/
def execRootCacheFill (p seq : Nat) (ok : Bool) (word : W64) (s : State) : Host.Outcome State Fault Refusal :=
  liveRoot s fun s =>
    let rk := p * 65536 + seq
    if ¬ s.attn.reading.contains rk then s else
    let s := readDone { s with attn := { s.attn with reading := without s.attn.reading rk } } (.root rk)
    if ok then retryRoot (if (rootGet s rk).isSome then s else rootPut s rk word) rk true else retryRoot s rk false

/-- PT_SWAP_WRITE_DONE (R390). -/
def execPtSwapWriteDone (p : Nat) (s : State) : Host.Outcome State Fault Refusal :=
  liveRoot s fun s =>
    match s.port.writes.find? (fun w => w.kind == .root p) with
    | none => s
    | some w =>
      let s := vecsRelease (mgrDone s w.txn) w.txn
      modSeqs s p fun q => if q.busy then { q with busy := false, result := 0, epoch := q.newEpoch } else q

/-- EPOCH_RECLAIM (R391): the count of an old epoch is 0. -/
def execEpochReclaim (p seq epoch : Nat) (s : State) : Host.Outcome State Fault Refusal :=
  liveRoot s fun s =>
    let k := (p * 65536 + seq) * 65536 + epoch
    match tget 0 s.attn.reclaim k with
    | 0 => s
    | h + 1 =>
      if tget 0 s.attn.walks k ≠ 0 then s
      else
        let s := { s with attn := { s.attn with reclaim := tput 0 s.attn.reclaim k 0 } }
        queueSigs s [{ src := 100, part := p, handle := h, op := 0, x := 1, launch := 0 }]

/-- R262 on the target of a push that the Basin takes: the cause, or 0. -/
def basinTarget (s : State) (p : Push) : Nat :=
  match kget s.launches p.launch with
  | none => 0
  | some l => if ¬ eqReach s p.eq then 8 else if chargeOn (vectorOf s p.launch l) p.eq = 0 then 4 else 0

/-- The Basin has taken a push: it ends with ST_OK, with no cycles and no signal (R398, R399). -/
def basinTook (s : State) (p : Push) : State :=
  let s := { s with pushes := s.pushes.erase p }
  let s := mopEnded s p.launch { eq := p.eq, tag := p.tag, node := p.node, ctx := p.src == 2 } 0 0 0
  pumpPushes (predEnded s p.eq p.tag true)

/-- The Basin's last event (R416), with manager vector 4 when its bit becomes 1. -/
def basinErr (s : State) (group part code launch : Nat) : State :=
  let was := if code = eBasinFull then s.basin.full else s.basin.expired
  let s := modBasin s fun b => { b with
    errGroup := group, errPart := part, errCode := code, errLaunch := launch
    full := b.full || code == eBasinFull, expired := b.expired || code == eBasinExpired }
  if was then s else reqVec s 4356

/-- The push may go to the Basin now: its turn in its context or lane has come. -/
def basinTurn (s : State) (p : Push) : Bool := !s.glb.frozen && !p.waitPred && p.want == 0 && ctxSettled s p
  && !(aheadOf s p).any (fun q => q.launch == p.launch && q.eq == p.eq && (q.src != 3 || p.src == 3))

/-- HOLD (R398, R402). -/
def execHold (tag : Nat) (s : State) : Host.Outcome State Fault Refusal :=
  liveRoot s fun s =>
    match s.pushes.find? (fun p => p.tag == tag && mOpc p.mop == 9 && mBmode p.mop == 1) with
    | none => s
    | some p => match kget s.launches p.launch with
      | none => s
      | some l =>
        if ¬ basinTurn s p then s
        else if basinTarget s p ≠ 0 then pumpPushes (rootSkip 16 s p (basinTarget s p) eMopIllegal)
        else if Config.basinMax ≤ s.basin.held.length
            ∨ (getPart s l.part).basinLimit ≤ (s.basin.held.filter (fun e => e.part == l.part)).length then
          pumpPushes (rootSkip 16 (basinErr s (mGroup p.mop) l.part eBasinFull p.launch) p 0x0D eBasinFull)
        else
          let e : Held := {
            part := l.part, group := mGroup p.mop, idx := mIdx p.mop, launch := p.launch, tick := s.sched.tickNo, eq := p.eq
            mop := p.mop }
          basinTook (modBasin s fun b => { b with held := b.held ++ [e], peak := max b.peak (b.held.length + 1) }) p

/-- Macro-ops are added to the work of the node or context that committed them (R400). -/
def addPend (s : State) (p : Push) (n : Nat) : State :=
  if p.src = 2 then
    match pushCtx s p.launch with
    | none => s
    | some k => modCtx s 0x300 k fun c => { c with pend := c.pend + n }
  else if p.node = 0 then s
  else modLaunch s p.launch fun l => { l with
    nodes := l.nodes.mapIdx (fun i x => if i + 1 = p.node then { x with pend := x.pend + n } else x) }

/-- COMMIT (R399, R400). -/
def execCommit (tag : Nat) (s : State) : Host.Outcome State Fault Refusal :=
  liveRoot s fun s =>
    match s.pushes.find? (fun p => p.tag == tag && mOpc p.mop == 9 && mBmode p.mop == 2) with
    | none => s
    | some p => match kget s.launches p.launch with
      | none => s
      | some l =>
        if ¬ basinTurn s p then s
        else if basinTarget s p ≠ 0 then pumpPushes (rootSkip 16 s p (basinTarget s p) eMopIllegal)
        else
          let mine := s.basin.held.filter (fun e => e.part == l.part && e.group == mGroup p.mop)
          let yes := mine.filter (fun e => decide (e.idx < mIdx p.mop))
          let s := modBasin s fun b => { b with
            held := b.held.filter (fun e => !(e.part == l.part && e.group == mGroup p.mop))
            committed := satN 32 (b.committed + yes.length), discarded := satN 32 (b.discarded + (mine.length - yes.length)) }
          let s := addPend s p yes.length
          let s := yes.foldl (fun s e => queuePush s {
            eq := e.eq, launch := p.launch, mop := setFld e.mop 336 2 0, src := 3, be := l.be, node := p.node
            core := if p.src = 2 then p.core else 0 }) s
          basinTook s p

/-- BASIN_EXPIRY (R401): E_BASIN_EXPIRED once for each partition and group. -/
def execBasinExpiry (s : State) : Host.Outcome State Fault Refusal :=
  liveRoot s fun s =>
    let old := fun (e : Held) => decide (e.tick + 2 ≤ s.sched.tickNo)
    let gone := s.basin.held.filter old
    if gone.isEmpty ∨ s.glb.frozen then s else
    let s := modBasin s fun b => { b with
      held := b.held.filter (fun e => !old e), expCnt := satN 32 (b.expCnt + gone.length) }
    let groups := (gone.map (fun e => e.part * 256 + e.group)).foldl insertNat []
    groups.foldl (fun s g =>
      let mine := gone.filter (fun e => e.part * 256 + e.group == g)
      let last := ((mine.getLast?).map (·.launch)).getD 0
      raiseOn (basinErr s (g % 256) (g / 256) eBasinExpired last) eBasinExpired (some (g / 256)) none
        [(.group, g % 256), (.count, mine.length), (.launch, last % 2 ^ 32)]) s

/-- Quotient of two values as VRCP and R409 take it: none of the operands' flags, INV for 0 ÷ 0 and ∞ ÷ ∞. -/
def fdiv : Fv → Fv → Fv × Nat
  | .nan _, _ | _, .nan _ => (.nan false, 0)
  | .inf _, .inf _ => (.nan false, flInv)
  | .inf a, .fin b _ _ => (.inf (a != b), 0)
  | .fin a _ _, .inf b => (.fin (a != b) 0 0, 0)
  | .fin a m e, .fin b n g =>
    if n = 0 then (.nan false, flInv)
    else
      let k := Nat.log2 n + 40
      let (q, x) := sticky (m * 2 ^ k / n) (e - g - k) (decide (m * 2 ^ k % n ≠ 0))
      (.fin (a != b) q x, 0)

/-- L × a + l × b in FP32, each operation rounded (R408). -/
def mixF (x a y b : Nat) : Nat × Nat :=
  let p := mul32 x a
  let q := mul32 y b
  let r := add32 p.1 q.1
  (r.1, p.2 ||| q.2 ||| r.2)

/-- Fields of a record (R406). -/
def prOut (r : W512) : List Nat := (upTo 8).map (fun i => fld r (32 * i) 32)
def prM (r : W512) : Nat := fld r 256 32
def prL (r : W512) : Nat := fld r 288 32
def prRow (r : W512) : Nat := fld r 320 16
def prSlice (r : W512) : Nat := fld r 336 8
def prMid (r : W512) : Nat := fld r 344 8

/-- −∞ in FP32. -/
def negInf : Nat := 0xFF800000

/-- Merge a record into a slot (R408): the slot and the flags raised. -/
def mergeRec (t : MSlot) (r : W512) : MSlot × Nat :=
  let w := fun (x : Nat) => BitVec.ofNat 32 x
  if t.n = 0 then ({ t with n := 1, m := w (prM r), l := w (prL r), o := (prOut r).map w }, 0)
  else if prM r = negInf then ({ t with n := t.n + 1 }, 0)
  else if t.m.toNat = negInf then ({ t with n := t.n + 1, m := w (prM r), l := w (prL r), o := (prOut r).map w }, 0)
  else
    let n := (fput fp32 (fmax (fdec fp32 t.m.toNat) (fdec fp32 (prM r)))).1
    let da := sub32 t.m.toNat n
    let db := sub32 (prM r) n
    let a := exp32 (w da.1)
    let b := exp32 (w db.1)
    let l := mixF t.l.toNat a.1 (prL r) b.1
    let os := (t.o.zip (prOut r)).map (fun (x : W32 × Nat) => mixF x.1.toNat a.1 x.2 b.1)
    ({ t with n := t.n + 1, m := w n, l := w l.1, o := os.map (fun (x : Nat × Nat) => w x.1) },
      da.2 ||| db.2 ||| a.2 ||| b.2 ||| l.2 ||| flagsOf os)

/-- The output elements of a finished slot in a format (R409): codes and flags. -/
def finishSlot (t : MSlot) (fmt : Nat) : List (Nat × Nat) :=
  let f := if fmt = 0 then fp32 else if fmt = 1 then fp16 else bf16
  t.o.map (fun o =>
    if isZero (fdec fp32 t.l.toNat) then ((f.nan.getD 0), flInv)
    else
      let y := fres fp32 (fdiv (fdec fp32 o.toNat) (fdec fp32 t.l.toNat))
      let z := fput f (fdec fp32 y.1)
      (z.1, y.2 ||| z.2))

/-- Flags of a partition's merges (R356); a loop-back merge sets none (R507). -/
def outFlags (s : State) (m : Merge) (fl : Nat) : State :=
  if m.loop.isSome then s else modPart s m.part fun x => { x with fsticky := x.fsticky ||| BitVec.ofNat 32 (put fl 8) }

/-- Drop a record (R408, R411). -/
def dropRec (s : State) : State := { s with outf := { s.outf with drop := satN 16 (s.outf.drop + 1) } }

/-- Take one record (R408–R411). -/
def takeRec (s : State) (eq tag launch : Nat) (r : W512) : State :=
  let key := mergeKeyOf launch (prMid r)
  match getMerge? s key with
  | none => outErr (raiseOn (dropRec s) eAttnMerge ((kget s.launches launch).map (·.part)) none [(.launch, launch % 2 ^ 32)])
      launch (prMid r)
  | some m =>
    if m.dim0 ≤ prRow r ∨ m.dim1 / 8 ≤ prSlice r then
      outErr (raiseOn (dropRec s) eAttnMerge (some m.part) none [(.launch, launch % 2 ^ 32)]) launch (prMid r)
    else if m.failed then dropRec s
    else
      let k := prRow r * 64 + prSlice r
      let t0 := tget {} m.slots k
      if t0.final then dropRec s else
      let (t, fl) := mergeRec t0 r
      let s := outFlags s m fl
      let s := { s with outf := { s.outf with merged := satN 32 (s.outf.merged + 1) } }
      if t.n < m.nshard then setMerge s key { m with slots := tput {} m.slots k t }
      else
        let ys := finishSlot t m.fmt
        let wd := outWidth m.fmt
        let s := outFlags s m (flagsOf ys)
        let (_, s) := mgrWrite s m.part (m.mdest.toNat + (prRow r * m.dim1 + 8 * prSlice r) * wd) (8 * wd)
          (packE (8 * wd) (ys.map (·.1))) (.merge key k eq tag)
        setMerge s key { m with slots := tput {} m.slots k { t with final := true }, free := m.free + 1 }

/-- PARTIAL (R406, R408). Messages of an agent out of service are dropped. -/
def execPartialRec (a : Nat) (s : State) : Host.Outcome State Fault Refusal :=
  liveRoot s fun s =>
    match upHead s a with
    | some (.partialRec eq tag launch r) =>
      let id := launchNamed s launch fun l => l.outs.any (fun o => o.eq == eq && o.tag == tag)
      if agtUp s a ∧ ¬ s.glb.frozen then takeRec (takeUp s a) eq tag id r else takeUp s a
    | _ => s

/-- MERGE_WRITE_RESPONSE (R410). After the last one of an OUTFALL loop-back exchange its output is read back (R507). -/
def execMergeWriteResponse (txn : Nat) (s : State) : Host.Outcome State Fault Refusal :=
  liveRoot s fun s =>
    match s.port.writes.find? (fun w => w.txn == txn) with
    | none => s
    | some w => match w.kind with
      | .merge key k _ _ =>
        let s := vecsRelease (mgrDone s txn) txn
        match getMerge? s key with
        | none => s
        | some m =>
          let m := { m with slots := tput {} m.slots k { tget {} m.slots k with written := true } }
          let s := setMerge s key m
          match m.loop with
          | some a => if (m.slots.filter (fun y => y.2.written)).length = 16 then
              mgrRead s Config.fnManager m.mdest.toNat 512 (.loop a) else s
          | none => s
      | _ => s

end Sys2Proof.Machine
end

