-- ==== Sys2Proof/Machine/Sched.lean ====
section
/-! DEFINITION. The scheduler: the Freeboard check, admission, booking, holding, the sluice tick (R209–R237), and the first push
of a DIRECT launch (R135, R140). -/

namespace Sys2Proof.Machine

/-- Engine queues of a charge vector, each once. -/
def vecQueues (v : List (Nat × Nat)) : List Nat := (v.map (fun (c : Nat × Nat) => c.1)).foldl insertNat []
/-- A vector's charge on a queue. -/
def vecOn (v : List (Nat × Nat)) (q : Nat) : Nat := sumBy (fun (c : Nat × Nat) => if c.1 = q then c.2 else 0) v
/-- The vector of a launch with its chain (R215). -/
def unitVec (u : List (Nat × Launch)) : List (Nat × Nat) := u.flatMap (fun x => x.2.charge)

/-- An agent that is draining or has been drained holds the launches that name it (R491). -/
def holdsAgent (s : State) (a : Nat) : Bool :=
  (kget s.svc.draining a).isSome || (agtExcluded s a && fld (agtEntry s a) 40 4 == 7)
def drainHeld (s : State) (v : List (Nat × Nat)) : Bool := v.any (fun c => holdsAgent s (c.1 / 16))

/-- A charge exceeds a whole budget (R217), or the whole capacity for BE work (R221). -/
def tooLong (s : State) (p : Nat) (be : Bool) (v : List (Nat × Nat)) : Bool :=
  (vecQueues v).any (fun q => decide ((if be then capOf s q else budgetOf s p q) < vecOn v q))

/-- c ≤ H and, for LC work, c ≤ FBP_CUR; for BE work c ≤ H − BOUT (R217, R221). -/
def fitsCur (s : State) (p : Nat) (be : Bool) (v : List (Nat × Nat)) : Bool :=
  (vecQueues v).all (fun q =>
    let c := vecOn v q
    let room := rateOf s q * leftOf s * s.sched.ceil / 25600
    decide (c + outOf s false q + (if be then outOf s true q else 0) ≤ room) && (be || decide (c ≤ fbpCur s p q)))
/-- c ≤ FBP_NEXT (R217). -/
def fitsNext (s : State) (p : Nat) (v : List (Nat × Nat)) : Bool :=
  (vecQueues v).all (fun q => decide (vecOn v q ≤ fbpNext s p q))

/-- Charge a vector to a period's bookings. -/
def bookVec (t : Tbl Nat) (p : Nat) (v : List (Nat × Nat)) : Tbl Nat :=
  v.foldl (fun t (c : Nat × Nat) => tput 0 t (bookKey p c.1) (tget 0 t (bookKey p c.1) + c.2)) t

/-- The current generation of a resident context. -/
def curGen (s : State) (c : Nat) : Option Generation :=
  if (getGctx s c).st = 2 then (getGctx s c).gens.find? (fun g => g.num == (getGctx s c).cur) else none

/-- A graph launch pins the current generation (R195). -/
def pinGen (s : State) (c n : Nat) : State :=
  modGctx s c fun g => { g with gens := g.gens.map (fun x => if x.num = n then { x with pins := x.pins + 1 } else x) }

/-- A launch enters the period (R232). -/
def admitOne (s : State) (id : Nat) : State :=
  match kget s.launches id with
  | none => s
  | some l =>
    let l := { l with stage := .running, admTick := s.sched.tickNo }
    if dOpcode l.desc = 2 then
      match curGen s (dTarget l.desc) with
      | none => failAt s id stIllegalState eTargetAbsent
      | some g =>
        let l := { l with
          gctx := dTarget l.desc, gen := g.num, pinned := true, ctxWanted := true, charge := g.costs
          total := sumBy (fun (c : Nat × Nat) => c.2) g.costs }
        setLaunch (pinGen s (dTarget l.desc) g.num) id l
    else setLaunch s id l

/-- Charge of a launch at its arrival at the scheduler (R215); none: its context is not resident (R195). -/
def arrivalCharge (s : State) (l : Launch) : Option (List (Nat × Nat)) :=
  if dOpcode l.desc = 1 then some [(dTarget l.desc, dCost l.desc)]
  else if dOpcode l.desc = 2 then (curGen s (dTarget l.desc)).map (·.costs)
  else some []

/-- Put a launch's charge down. -/
def setCharge (s : State) (x : Nat × Launch) : State :=
  modLaunch s x.1 fun l => { l with
    charge := (arrivalCharge s l).getD [], total := sumBy (fun (c : Nat × Nat) => c.2) ((arrivalCharge s l).getD []) }

/-- Admit a launch or chain: bookings and OUT or BOUT rise in the same cycle (R217, R221). -/
def admitUnit (s : State) (u : List (Nat × Launch)) (p : Nat) (be : Bool) (v : List (Nat × Nat)) : State :=
  let s := if be then s else modSched s fun c => { c with bookCur := bookVec c.bookCur p v }
  u.foldl (fun s x => admitOne s x.1) s

/-- Count launches booked or held (R232, R234). -/
def countDeferred (s : State) (p n : Nat) : State := modFig s p fun f => { f with curDef := f.curDef + n }

/-- Move a launch or chain to a stage of the scheduler, with its order of arrival. -/
def parkUnit (s : State) (u : List (Nat × Launch)) (st : LStage) : State :=
  let n := s.sched.order
  let s := modSched s fun c => { c with order := n + 1 }
  u.foldl (fun s x => modLaunch s x.1 fun l => { l with
    stage := st, order := n }) s

/-- ST_TOO_LONG (R218). -/
def failLong (s : State) (id p : Nat) : State :=
  let s := sstatSet (raise s eTooLong (some p) none) p 0
  leave (modFig s p fun f => { f with curLong := f.curLong + 1 }) id stTooLong eTooLong

/-- The check of a launch or chain at its arrival, or at a tick, when it may also be booked (R217, R221, R232, R491). -/
def checkUnit (s : State) (u : List (Nat × Launch)) (arrival : Bool) : State :=
  match u with
  | [] => s
  | (id, l) :: _ =>
    let v := unitVec u
    if drainHeld s v then
      (if arrival then countDeferred (parkUnit s u .held) l.part u.length else s)
    else if arrival ∧ tooLong s l.part l.be v then failLong s id l.part
    else if fitsCur s l.part l.be v then admitUnit s u l.part l.be v
    else if ¬ l.be ∧ fitsNext s l.part v then
      let s := modSched s fun c => { c with bookNext := bookVec c.bookNext l.part v }
      countDeferred (parkUnit s u .booked) l.part u.length
    else if arrival then countDeferred (parkUnit s u .held) l.part u.length
    else s

/-- SCHEDULER_ARRIVAL (R217–R222, R232): the queue's oldest launch past the Weir, with its chain. -/
def execSchedulerArrival (q : Nat) (s : State) : Host.Outcome State Fault Refusal :=
  liveRoot s fun s =>
    match oldestIn s q .sched with
    | none => s
    | some x =>
      if s.glb.frozen ∨ (oldestIn s q .held).isSome ∨ (oldestIn s q .booked).isSome then s
      else if dOpcode x.2.desc = 3 then leave s x.1 stOk 0
      else if (arrivalCharge s x.2).isNone then failAt s x.1 stIllegalState eTargetAbsent
      else
        let ids := (unitOf s x).map (·.1)
        let s := (unitOf s x).foldl setCharge s
        checkUnit s (ids.filterMap (fun i => (kget s.launches i).map (fun l => (i, l)))) true

/-- Held launches and chain heads of a class, in the order in which they reached the scheduler. -/
def heldUnits (s : State) (be : Bool) : List (Nat × Launch) :=
  sortBy (fun (a b : Nat × Launch) => decide (a.2.order ≤ b.2.order))
    (s.launches.filter (fun x => decide (x.2.stage = .held) && x.2.be == be && decide (x.2.head = 0 ∨ x.2.head = x.1 ∨
      ¬ (s.launches.any (fun y => y.2.head == x.2.head && decide (y.2.stage = .held) && decide (y.2.chainNo < x.2.chainNo))))))

/-- Check the held launches of a class that a test picks again: `tick` also allows a booking. A graph launch's charge is that of the
generation which is current now (R215). -/
def recheck (s : State) (be tick : Bool) (f : List (Nat × Nat) → Bool) : State :=
  (heldUnits s be).foldl (fun s x =>
    match kget s.launches x.1 with
    | none => s
    | some l0 =>
      let s := if dOpcode l0.desc = 2 then setCharge s (x.1, l0) else s
      let l := (kget s.launches x.1).getD l0
      let u := unitOf s (x.1, l)
      let v := unitVec u
      if l.stage ≠ .held ∨ ¬ f v then s
      else if tick then checkUnit s u false
      else if ¬ drainHeld s v ∧ fitsCur s l.part l.be v then admitUnit s u l.part l.be v
      else s) s

/-- HELD_LAUNCH_RECHECK (R219, R221): after a completion on an engine queue, LC launches first. -/
def execHeldLaunchRecheck (eq : Nat) (s : State) : Host.Outcome State Fault Refusal :=
  liveRoot s fun s =>
    if s.glb.frozen then s else
    let names := fun (v : List (Nat × Nat)) => (vecQueues v).contains eq
    recheck (recheck s false false names) true false names

/-- DIRECT_PUSH (R29, R135, R140): a DIRECT launch's macro-op goes to its push buffer; a chain's members follow one another. -/
def execDirectPush (id : Nat) (s : State) : Host.Outcome State Fault Refusal :=
  liveRoot s fun s =>
    match kget s.launches id with
    | none => s
    | some l =>
      let waiting := s.pushes.any (fun p => p.launch == id)
      if s.glb.frozen ∨ l.stage ≠ .running ∨ dOpcode l.desc ≠ 1 ∨ l.aborting ∨ ¬ l.outs.isEmpty ∨ waiting then s else
      let prev := if l.head = 0 then none else s.launches.find? (fun x => x.2.head == l.head && x.2.queue == l.queue
        && decide (x.2.chainNo + 1 = l.chainNo))
      let base : Push := { eq := dTarget l.desc, launch := id, mop := directMop l, be := l.be }
      match prev with
      | none => pumpPushes (queuePush s base)
      | some (pid, pl) =>
        let at_ : Option (Nat × Nat) := match pl.outs.head? with
          | some o => some (o.eq, o.tag)
          | none => (lastPushOf s pid).map (fun p => (p.eq, p.tag))
        match at_ with
        | some (e, t) => pumpPushes (queuePush s { base with
            chained := true, predEq := e, predTag := t, waitPred := decide (e / 16 ≠ dTarget l.desc / 16) })
        | none => if isDone pl then pumpPushes (queuePush s base) else s

/-- Step 2 of R211: the figures of the closing period (R234, R236). -/
def closeFigs (s : State) (p : Nat) : State :=
  let f := getFig s p
  let index := if f.sumCharge = 0 then 0 else min (256 * f.sumActual / f.sumCharge) 0xFFFF
  let s := modFig s p fun f => { f with
    index := index, deferred := satN 16 f.curDef, overruns := satN 16 f.curOvr, tooLong := satN 16 f.curLong
    curDef := 0, curOvr := 0, curLong := 0, sumActual := 0, sumCharge := 0
    sluiceNs := (f.sluiceNs + f.coreUsed) % 2 ^ 64, coreUsed := 0 }
  let s := modPart s p fun x => { x with slow := BitVec.ofNat 32 (index + put (satN 16 f.curDef) 16) }
  if index ≠ 0 ∧ s.sched.slowThr < index then sstatSet s p 2 else s

/-- Divide whole nJ in proportion (R237): parts, and what is left over. -/
def divide (d : Nat) (l : List (Nat × Nat)) : List (Nat × Nat) × Nat :=
  let total := sumBy (fun (x : Nat × Nat) => x.2) l
  let parts := l.map (fun (x : Nat × Nat) => (x.1, d * x.2 / total))
  (parts, d - sumBy (fun (x : Nat × Nat) => x.2) parts)

/-- Energy of one engine queue over the closing period (R237). Remainders are carried by engine queue, and by engine queue and
partition. -/
def energyStep (s : State) (eq counter : Nat) : State :=
  let c := s.sched
  let d := (counter + 2 ^ 32 - tget 0 c.energy eq % 2 ^ 32) % 2 ^ 32
  let s := modSched s fun c => { c with energy := tput 0 c.energy eq (counter % 2 ^ 32) }
  let ps := (upTo 64).filterMap (fun p => if tget 0 c.nsPart (eq * 64 + p) = 0 then none else some (p, tget 0 c.nsPart (eq * 64 + p)))
  if ps.isEmpty then modSched s fun c => { c with eidleNj := (c.eidleNj + d) % (1000 * 2 ^ 64) }
  else
    let (parts, left) := divide (d + tget 0 c.remPart eq) ps
    let s := modSched s fun c => { c with remPart := tput 0 c.remPart eq left }
    parts.foldl (fun s (x : Nat × Nat) =>
      let s := modFig s x.1 fun f => { f with energyNj := f.energyNj + x.2 }
      let qs := (c.nsQueue.filter (fun (y : Nat × Nat) => y.1 / 4096 == eq * 64 + x.1)).map
        (fun (y : Nat × Nat) => (y.1 % 4096, y.2))
      if qs.isEmpty then s else
      let (qparts, qleft) := divide (x.2 + tget 0 c.remQueue (eq * 64 + x.1)) qs
      let s := modSched s fun c => { c with remQueue := tput 0 c.remQueue (eq * 64 + x.1) qleft }
      qparts.foldl (fun s (y : Nat × Nat) => modQueue s y.1 fun q => { q with energyNj := q.energyNj + y.2 }) s) s

/-- The vector of a launch with all members of its chain. -/
def chainVec (s : State) (x : Nat × Launch) : List (Nat × Nat) :=
  if x.2.head = 0 then x.2.charge
  else (s.launches.filter (fun y => y.2.head == x.2.head && y.2.queue == x.2.queue)).flatMap (fun y => y.2.charge)

/-- A booked graph launch runs the generation that is current when it is sent: its booking becomes that one's charge (R215, R232). -/
def bookAgain (s : State) (x : Nat × Launch) : State :=
  if dOpcode x.2.desc ≠ 2 then s else
  match arrivalCharge s x.2 with
  | none => s
  | some v =>
    let s := modSched s fun c => { c with bookCur := bookVec (unbook c.bookCur x.2.part x.2.charge) x.2.part v }
    setCharge s x

/-- Step 4 of R211: booked launches are sent in the order in which they were booked; one that names an agent being drained is
held (R491). -/
def sendBooked (s : State) : State :=
  (sortBy (fun (a b : Nat × Launch) => decide (a.2.order < b.2.order ∨ (a.2.order = b.2.order ∧ a.2.seqNo ≤ b.2.seqNo)))
    (s.launches.filter (fun x => decide (x.2.stage = .booked)))).foldl
      (fun s x => if drainHeld s (chainVec s x) then modLaunch s x.1 fun l => { l with stage := .held }
        else admitOne (bookAgain s x) x.1) s

/-- Step 5 of R211: work paused for overrun is booked again and resumes (R227). -/
def rebook (s : State) : State :=
  (s.launches.filter (fun x => isAdmitted x.2 && !x.2.paused.isEmpty)).foldl (fun s x =>
    x.2.paused.foldl (fun s q =>
      let c := chargeOn x.2 q
      if fbpCur s x.2.part q < c then s
      else
        let s := modSched s fun k => { k with bookCur := bookVec k.bookCur x.2.part [(q, c)] }
        let s := modLaunch s x.1 fun l => { l with
          paused := without l.paused q, used := tput 0 l.used q 0
          outs := l.outs.map (fun o => if o.eq = q then { o with paused := false } else o) }
        rootWrite s (q / 16) 0x7008 3 (x.1 % 2 ^ 32 + put (q % 16) 32) 1) s) s

/-- Step 6 of R211: unused charges are carried forward (R225). -/
def carryForward (s : State) : State :=
  (s.launches.filter (fun x => isAdmitted x.2 && !x.2.be && decide (x.2.admTick ≠ s.sched.tickNo))).foldl (fun s x =>
    let v := (vecQueues x.2.charge).map (fun q => (q, chargeOn x.2 q - tget 0 x.2.cycles q))
    modSched s fun k => { k with bookCur := bookVec k.bookCur x.2.part v }) s

/-- An LC task of a launch runs on an agent. -/
def lcTaskOn (s : State) (a : Nat) : Bool := s.ctxs.any (fun x => !x.2.be && x.2.tasks.any (fun t => t.1 == a))

/-- Step 8 of R211: EQX_PREEMPT to the agents where LC work may wait (R229). -/
def tickPreempt (s : State) : State :=
  (upTo s.par.numAgents).foldl (fun s a =>
    if ¬ agtUp s a then s else
    let mask := if lcTaskOn s a then eqPresent s a
      else ((s.launches.flatMap (fun x => x.2.outs.filterMap (fun o =>
        if o.eq / 16 = a ∧ ¬ o.be then some (o.eq % 16) else none))).foldl insertNat []).foldl (fun m l => m + 2 ^ l) 0
    if mask = 0 then s else rootWrite s a 0x7010 2 mask 1) s

/-- SVC_MODE takes effect (R479), with its audit entry (R494). -/
def takeMode (s : State) : State :=
  match s.svc.modeNext with
  | none => s
  | some m => audit (modSvc s fun v => { v with mode := m, modeNext := none }) 7 Config.fnNone 7 5 0 (put m 48)

/-- Step 9 of R211: values written since the last tick take effect. -/
def takeStaged (s : State) : State :=
  let s := takeMode s
  let s := modSched s fun c =>
    let c := match c.ctrlNext with
      | some w => { c with allow := fld w 0 7, slowThr := fld w 16 16, ctrlNext := none }
      | none => c
    let c := match c.fillNext with
      | some (v, src) => { c with ceil := v, source := src, fillNext := none }
      | none => c
    let c := match c.csliceNext with
      | some v => { c with cslice := v, csliceNext := none }
      | none => c
    { c with
      eqcap := c.eqcapNext.foldl (fun t (x : Nat × W32) => tput 0 t x.1 (setFld (tget 0 t x.1) 12 12 (fld x.2 12 12))) c.eqcap
      eqcapNext := [] }
  let s := s.sched.measNext.foldl (fun s (x : Nat × Nat) => if agtUp s x.1 then setMeas s x.1 x.2 else s) s
  let s := modSched s fun c => { c with measNext := [] }
  modWatch s fun w => { w with
    cfg := w.cfgNext.foldl (fun t (x : Nat × W32) => tput 0 t x.1 x.2) w.cfg, cfgNext := [] }

/-- The PERIOD that opens with the next tick: as written before its first TICK message left (R210), or as a committed mode change
sets it (R489). -/
def nextPeriod (s : State) : Nat :=
  let base := s.sched.periodNext.getD s.sched.period
  let m := s.svc.mc
  if m.state = 2 ∧ m.tick = s.sched.tickNo + 1 then
    ((m.its.find? (fun i => itKind i == 1)).map itValue).getD base
  else base

/-- SLUICE_TICK (R209–R211), its steps in order. `energy`: eq_energy of each engine queue as sampled at the tick (R57). -/
def execSluiceTick (energy : List (Nat × Nat)) (s : State) : Host.Outcome State Fault Refusal :=
  liveRoot s fun s =>
    if s.glb.blk ≠ .ready then s else
    let n := s.sched.tickNo + 1
    let per := nextPeriod s
    let s := modSched s fun c => { c with tickNo := n, elapsed := 0, period := per, periodNext := c.periodLate, periodLate := none }
    let s := (upTo s.par.numAgents).foldl (fun s a => if agtUp s a then sendDown s a (.tick n per) else s) s
    let s := (upTo 64).foldl closeFigs s
    let s := energy.foldl (fun s (x : Nat × Nat) => energyStep s x.1 x.2) s
    let s := modSched s fun c => { c with nsPart := [], nsQueue := [], bookCur := c.bookNext, bookNext := [] }
    let s := if s.glb.frozen then s
      else
        let s := carryForward (rebook (sendBooked s))
        let s := recheck (recheck s false true fun _ => true) true true fun _ => true
        tickPreempt s
    takeStaged s

/-- READMIT_ENTER_SERVICE (R492, step 4). -/
def execReadmitEnterService (a : Nat) (s : State) : Host.Outcome State Fault Refusal :=
  liveRoot s fun s =>
    if ¬ s.svc.readmitReady.contains a then s else
    let mhz := ((kget s.glb.bring a).map (·.mhz)).getD 0
    let s := agtMark s a true false 0
    let s := setMeas s a mhz
    let s := modSvc s fun v => { v with dieLevel := tput 0 v.dieLevel a 0 }
    let s := audit s 9 Config.fnNone 0x0A 4 a 0
    let s := readmitReply s a stOk 0
    if s.glb.frozen then s else recheck (recheck s false true fun _ => true) true true fun _ => true

end Sys2Proof.Machine
end

