-- ==== Sys2Proof/Machine/ScBase.lean ====
section
/-! DEFINITION. Sluice core contexts: registers, data memory, fetch, skips, CSRs, slot images, slices (R245–R254, R270–R274). -/

namespace Sys2Proof.Machine

/-- The context that a core runs, with its save slot. -/
def running (s : State) (core : Nat) : Option (Nat × Ctx) :=
  match (getCore s core).run with
  | none => none
  | some k => (getCtx? s core k).map (fun c => (k, c))

/-- Scalar registers: s0 reads 0 and ignores writes (R245). -/
def sReg (c : Ctx) (i : Nat) : Nat := if i = 0 then 0 else (tget 0#64 c.s i).toNat
def setS (c : Ctx) (i v : Nat) : Ctx := if i = 0 then c else { c with s := tput 0 c.s i (BitVec.ofNat 64 v) }
/-- Predicates: p0 reads all ones and ignores writes. -/
def pReg (c : Ctx) (i : Nat) : W64 := if i = 0 then BitVec.allOnes 64 else tget 0 c.p i
def setP (c : Ctx) (i : Nat) (v : W64) : Ctx := if i = 0 then c else { c with p := tput 0 c.p i v }
def setPAll (c : Ctx) (i : Nat) (b : Bool) : Ctx := setP c i (if b then BitVec.allOnes 64 else 0)
def vReg (c : Ctx) (i : Nat) : W512 := tget 0 c.v i
def setV (c : Ctx) (i : Nat) (v : W512) : Ctx := { c with v := tput 0 c.v i v }
def tReg (c : Ctx) (i : Nat) : BitVec 8192 := tget 0 c.t i
def setT (c : Ctx) (i : Nat) (v : BitVec 8192) : Ctx := { c with t := tput 0 c.t i v }
def gReg (c : Ctx) (i : Nat) : Gen := tget {} c.g i
def setG (c : Ctx) (i : Nat) (g : Gen) : Ctx := { c with g := tput {} c.g i g }
/-- Format tag and MXV bit of a tile (R246, R338). -/
def tileTag (c : Ctx) (i : Nat) : Nat := nbits c.tfmt (4 * i) 4
def tileMxv (c : Ctx) (i : Nat) : Bool := c.tfmt.testBit (16 + i)
def setTag (c : Ctx) (i tag : Nat) : Ctx := { c with tfmt := c.tfmt - put (tileTag c i) (4 * i) + put (tag % 16) (4 * i) }
/-- The next free value of a context (log entry 3): a function of the case, of what the context was started with, and of how many it
has taken. -/
def ctxFree (case_ core : Nat) (c : Ctx) : W64 × Ctx :=
  (Config.freeOf case_ (pack [(32, c.launch), (12, if c.task then core else 0), (8, c.entry), (512, c.arg.toNat)]) c.frees,
    { c with frees := c.frees + 1 })
/-- Or exception flags into SC_FFLAGS (R356). -/
def orFlags (c : Ctx) (fl : Nat) : Ctx := { c with fflags := c.fflags ||| fl }

/-- The guard of a scalar instruction (R248). -/
def guardOn (c : Ctx) (pg : Nat) (pn : Bool) : Bool := bitOf (pReg c pg) 0 != pn
/-- The lane mask of a V instruction: lane i. -/
def laneOn (c : Ctx) (pg : Nat) (pn : Bool) (i : Nat) : Bool := bitOf (pReg c pg) i != pn

/-- Core address of a context address (R251). -/
def coreAddr (c : Ctx) (a : Nat) : Nat := c.slices.getD (a / 16384) 0 * 16384 + a % 16384
/-- An access lies in the context's slices and on its own size. -/
def dmOk (c : Ctx) (a n : Nat) : Bool := decide (a + n ≤ c.nslices * 16384) && decide (a % n = 0)

/-- n bytes at a context address; a line not written since allocation reads 0 (R251). -/
def dmBytes (k : Core) (c : Ctx) (a : Nat) : Nat → Nat
  | 0 => 0
  | n + 1 =>
    let p := coreAddr c a
    (if k.written.contains (p / 64) then (readByte k.dmem p).toNat else 0) + 256 * dmBytes k c (a + 1) n

/-- Store n bytes at a context address. -/
def dmPut (k : Core) (c : Ctx) (a v : Nat) : Nat → Core
  | 0 => k
  | n + 1 =>
    let p := coreAddr c a
    let line := p / 64
    let k := if k.written.contains line then k
      else { k with
        dmem := k.dmem.filter (fun x => x.1 / 64 != line), written := insertNat k.written line }
    dmPut { k with
      dmem := writeByte k.dmem p (BitVec.ofNat 8 v)
      ecc1 := without k.ecc1 (p / 8 * 8), ecc2 := without k.ecc2 (p / 8 * 8) } c (a + 1) (v / 256) n

/-- Words of a range, as core addresses. -/
def dmWords (c : Ctx) (a n : Nat) : List Nat := (upTo n).foldl (fun l i => insertNat l (coreAddr c (a + i) / 8 * 8)) []

/-- What a read of data memory gives: cause ECC, or 0 with the value; and the state after ECC's work (R253). -/
def dmFetch (s : State) (core : Nat) (c : Ctx) (a n : Nat) : State × Nat × Nat :=
  let k := getCore s core
  let ws := dmWords c a n
  let bad := k.ecc2.filter (fun w => ws.contains w && k.written.contains (w / 64))
  let one := k.ecc1.filter (fun w => ws.contains w && k.written.contains (w / 64))
  let k := { k with ecc1 := k.ecc1.filter (fun w => !one.contains w), corr := satN 16 (k.corr + one.length) }
  if bad.isEmpty then (modCore s core fun _ => k, 0, dmBytes k c a n)
  else
    let k := { k with
      dmem := bad.foldl (fun m w => writeBytes m w 0 8) k.dmem, ecc2 := k.ecc2.filter (fun w => !bad.contains w)
      uncorr := satN 16 (k.uncorr + bad.length) }
    (bad.foldl (fun s w => raiseOn s eDmemEcc none (coreAgent core) [(.core, core), (.launch, c.launch % 2 ^ 32), (.addr, w)])
      (modCore s core fun _ => k), scEcc, 0)

/-- A load of data memory: cause DMEM where the access is out of range or not on its own size (R251). -/
def dmLoad (s : State) (core : Nat) (c : Ctx) (a n : Nat) : State × Nat × Nat :=
  if dmOk c a n then dmFetch s core c a n else (s, scDmem, 0)

/-- The instruction at the PC retires. -/
def retire (s : State) (core slot : Nat) (c : Ctx) : State :=
  setCtx s core slot { c with pc := (c.pc + 4) % 2 ^ 32, stall := none, spinCut := false }

/-- The instruction at the PC is skipped (R274): the PC advances and nothing else of the context changes. -/
def skipAt (s : State) (core slot cause : Nat) : State :=
  let pc := (getCtx s core slot).pc
  modCtx (noteSkip s core slot cause pc) core slot fun c => { c with pc := (c.pc + 4) % 2 ^ 32, stall := none, spinCut := false }

/-- Or a context's flags into FMT_STICKY.SC (R246, R356). -/
def scSticky (s : State) (p fl : Nat) : State :=
  modPart s p fun x => { x with fsticky := x.fsticky ||| BitVec.ofNat 32 (fl % 16) }

/-- Slices of a core held by nobody. -/
def freeSlicesOf (s : State) (core : Nat) : List Nat := (upTo 16).filter (fun k => (tget 0 (getCore s core).owner k) = 0)

/-- Allocate slices to a context: all their written bits are cleared (R251). -/
def takeSlices (s : State) (core slot : Nat) (ids : List Nat) : State :=
  let gone := fun (line : Nat) => ids.contains (line / 256)
  modCore s core fun k => { k with
    owner := ids.foldl (fun t i => tput 0 t i (slot + 1)) k.owner
    written := k.written.filter (fun l => !gone l), dmem := k.dmem.filter (fun x => !gone (x.1 / 64))
    ecc1 := k.ecc1.filter (fun w => !gone (w / 64)), ecc2 := k.ecc2.filter (fun w => !gone (w / 64)) }

/-- CSR values that need nothing but the context (R246). -/
def csrOwn (slot : Nat) (gen : Nat) (c : Ctx) (i : Nat) : Option Nat :=
  if 0x10 ≤ i ∧ i ≤ 0x17 then some (tget 0#64 c.scratch i).toNat else
  match i with
  | 0x00 => some c.pc
  | 0x01 => some (c.part + put (b2n c.be) 6 + put (b2n c.task) 7 + put slot 8 + put c.nslices 18)
  | 0x02 => some (c.launch + put gen 32)
  | 0x03 => some c.node
  | 0x06 => some c.fflags
  | 0x07 => some c.tfmt
  | 0x08 => some (c.cause + put c.causePc 32)
  | 0x09 => some c.skips
  | 0x0A => some (c.spin + put c.spinLeft 44)
  | 0x0B => some (min c.pend 0xFF + put c.xfers.length 8 + put c.tasks.length 11)
  | _ => none

/-- The saved state of a generator, 24 B (R259): descriptor offset, indices, active. -/
def genImage (g : Gen) : Nat :=
  pack [(64, g.descOff), (16, g.idx.getD 0 0), (16, g.idx.getD 1 0), (16, g.idx.getD 2 0), (16, g.idx.getD 3 0), (1, b2n g.active), (63, 0)]

/-- Header, registers and CSRs of a slot, 6,144 B (R272). `tick` and `cycles` are SC_TICK and SC_CYCLES. -/
def slotImage (core slot : Nat) (c : Ctx) (tick cycles : Nat) : Nat :=
  pack ([(32, c.launch), (16, core), (8, c.nslices), (8, b2n (!c.slices.isEmpty)), (32, c.pc),
      (8, c.slices.getD 0 0), (8, c.slices.getD 1 0), (8, c.slices.getD 2 0), (8, c.slices.getD 3 0), (384, 0)]
    ++ (upTo 32).map (fun i => (64, sReg c i)) ++ (upTo 8).map (fun i => (64, (pReg c i).toNat))
    ++ (upTo 4).map (fun i => (192, genImage (gReg c i))) ++ [(256, 0)]
    ++ (upTo 16).map (fun i => (512, (vReg c i).toNat)) ++ (upTo 4).map (fun i => (8192, (tReg c i).toNat))
    ++ (upTo 64).map (fun i => (64, if i = 4 then tick else if i = 5 then cycles else (csrOwn slot c.gen c i).getD 0)) ++ [(16384, 0)])

/-- A little-endian field of a slot image, by byte offset and width in bytes. -/
def imgAt (x off n : Nat) : Nat := nbits x (8 * off) (8 * n)

/-- Registers and CSRs read back from a slot image (R271, R272). A generator's descriptor is read again from data memory. -/
def slotLoad (x : Nat) (k : Core) (c : Ctx) : Ctx :=
  let c := { c with
    pc := imgAt x 8 4
    s := (upTo 32).foldl (fun t i => tput 0 t i (if i = 0 then 0 else BitVec.ofNat 64 (imgAt x (0x40 + 8 * i) 8))) []
    p := (upTo 8).foldl (fun t i => tput 0 t i (if i = 0 then 0 else BitVec.ofNat 64 (imgAt x (0x140 + 8 * i) 8))) []
    v := (upTo 16).foldl (fun t i => tput 0 t i (BitVec.ofNat 512 (imgAt x (0x200 + 64 * i) 64))) []
    t := (upTo 4).foldl (fun t i => tput 0 t i (BitVec.ofNat 8192 (imgAt x (0x600 + 1024 * i) 1024))) []
    fflags := imgAt x 0x1630 8 % 16, tfmt := imgAt x 0x1638 8 % 2 ^ 21, cause := imgAt x 0x1640 8 % 256
    causePc := imgAt x 0x1644 4, skips := imgAt x 0x1648 4
    scratch := (upTo 8).foldl (fun t i => tput 0 t (0x10 + i) (BitVec.ofNat 64 (imgAt x (0x1680 + 8 * i) 8))) [] }
  { c with g := (upTo 4).foldl (fun t i =>
      let o := 0x180 + 24 * i
      let off := imgAt x o 8
      if (imgAt x (o + 16) 1) % 2 = 0 then tput {} t i {}
      else
        let d := BitVec.ofNat 384 (dmBytes k c off 48)
        let idx := [imgAt x (o + 8) 2, imgAt x (o + 10) 2, imgAt x (o + 12) 2, imgAt x (o + 14) 2]
        tput {} t i { active := true, desc := d, descOff := off, idx := idx, ended := decide (gTotal d ≤ gPos d idx) }) [] }

/-- Address of a save slot (R272). -/
def slotAddr (s : State) (slot : Nat) : Nat := s.save.base.toNat + slot * 0x12000

/-- Bytes of the k-th slice of a context. -/
def sliceBytes (s : State) (core : Nat) (c : Ctx) (k : Nat) : Nat := dmBytes (getCore s core) c (k * 16384) 16384

/-- Write a context's slices out to its slot (R270): RESIDENT becomes 0. -/
def writeOut (s : State) (slot : Nat) : State :=
  match kget s.ctxs slot with
  | none => s
  | some c =>
    if c.slices.isEmpty then s else
    let s := (upTo c.nslices).foldl (fun s i =>
      (mgrWrite s Config.fnManager (slotAddr s slot + 0x2000 + i * 16384) 16384 (sliceBytes s c.core c i) (.save slot)).2) s
    let k := getCore s c.core
    let lines := (upTo (c.nslices * 256)).filter (fun i => k.written.contains (coreAddr c (i * 64) / 64))
    let mem := lines.foldl (fun m i => writeBytes m (i * 64) (dmBytes k c (i * 64) 64) 64) []
    let s := (mgrWrite s Config.fnManager (slotAddr s slot + 7) 1 0 (.save slot)).2
    let s := freeSlices s c.core slot
    setCtx s 0x300 slot { c with slices := [], outMem := mem, outWritten := lines }

/-- Contexts resident on a core whose slices it may write out, oldest save first (R270). -/
def evictable (s : State) (core but_ : Nat) : List (Nat × Ctx) :=
  sortBy (fun (a b : Nat × Ctx) => decide (a.2.saveOrder ≤ b.2.saveOrder))
    (s.ctxs.filter (fun (x : Nat × Ctx) => x.1 != but_ && decide (x.1 < 512) && x.2.core == core && !x.2.slices.isEmpty
      && (x.2.st == CtxSt.held || x.2.st == CtxSt.saved) && decide ((getCore s core).run ≠ some x.1)))

/-- A core has n slices, or can free them. -/
def canSlices (s : State) (core slot n : Nat) : Bool :=
  decide (n ≤ (freeSlicesOf s core).length + sumBy (fun (x : Nat × Ctx) => x.2.nslices) (evictable s core slot))

/-- Free n slices of a core, writing out as few contexts as needed, oldest save first. -/
def makeRoom (s : State) (core slot n : Nat) : State :=
  (evictable s core slot).foldl (fun s x => if n ≤ (freeSlicesOf s core).length then s else writeOut s x.1) s

/-- Give a context whose slices were written out slices on a core again. -/
def bringIn (s : State) (core slot : Nat) : State :=
  match kget s.ctxs slot with
  | none => s
  | some c =>
    if ¬ c.slices.isEmpty then s else
    let s := makeRoom s core slot c.nslices
    let ids := (freeSlicesOf s core).take c.nslices
    let s := takeSlices s core slot ids
    let c := { c with slices := ids, core := core }
    let s := (upTo c.nslices).foldl (fun s i =>
      mgrRead s Config.fnManager (slotAddr s slot + 0x2000 + i * 16384) 16384 (.restore slot)) s
    let s := modCore s core fun k =>
      c.outWritten.foldl (fun k i => dmPut k c (i * 64) (readBytes c.outMem (i * 64) 64) 64) k
    setCtx s 0x300 slot { c with outMem := [], outWritten := [] }

/-- Core time of a partition in the period is not spent (R230). -/
def coreTimeLeft (s : State) (p : Nat) : Bool :=
  decide ((getFig s p).coreUsed < (getPart s p).sluiceShare * 7 * s.sched.period * 10 / 256)

/-- Rank group of a context (R231): lower runs first. -/
def rankOf (s : State) (c : Ctx) : Nat := 2 * b2n c.be + b2n (!coreTimeLeft s c.part)

/-- Where an instruction comes from (R254): fetched, awaited from the arena, or a FETCH end. -/
inductive Fetch where
  | ok | wait | bad
  deriving DecidableEq, Repr

/-- The generation that a context's launch has pinned. -/
def ctxGen (s : State) (c : Ctx) : Option Generation := (kget s.launches c.launch).bind (genOf s)

/-- Lines of 256 B of the code cache that n bytes of a generation lie in (R201). -/
def genLines (s : State) (p : Nat) (g : Generation) (o n : Nat) : List Nat :=
  let a := getArena s p
  ((upTo n).map (fun k => genAddr a g (o + k) / 256)).foldl insertNat []
/-- The line of the code window that holds a PC (R201, R254). -/
def codeLine (s : State) (p : Nat) (g : Generation) (pc : Nat) : Nat := genAddr (getArena s p) g (g.bodyAt + (pc - 0x80000000)) / 256
/-- A line becomes the most recently used of the code cache. -/
def lineUsed (s : State) (k : Nat) : State := { s with ccache := without s.ccache k ++ [k] }
/-- A line is read from the arena, once (R187, R201). -/
def lineWant (s : State) (k : Nat) : State :=
  if s.port.reads.any (fun r => r.kind == RdKind.code k) then s else mgrRead s Config.fnManager (k * 256) 256 (.code k)
/-- A line enters the code cache: 256 sets of 8, the least recently used of a full set leaves. -/
def linePut (s : State) (k : Nat) : State :=
  let set := s.ccache.filter (fun x => x % 256 == k % 256)
  { s with ccache := (match set with
      | v :: _ => if 8 ≤ set.length then without s.ccache v else s.ccache
      | [] => s.ccache) ++ [k] }

def fetchOf (s : State) (core : Nat) (c : Ctx) : Fetch :=
  if c.pc % 4 ≠ 0 then .bad
  else if c.pc < 0x20000 then (if c.pc + 4 ≤ bankLen (activeBank (getCore s core)) then .ok else .bad)
  else if 0x300 ≤ core ∧ core ≠ 0x307 ∧ 0x80000000 ≤ c.pc ∧ c.pc < 0xC0000000 then
    match ctxGen s c with
    | none => .bad
    | some g =>
      if g.pageIds.length * 4096 < g.bodyAt + (c.pc - 0x80000000) + 4 then .bad
      else if s.ccache.contains (codeLine s c.part g c.pc) then .ok else .wait
  else .bad

/-- A command of a sluice core: of the Root, or of an agent. -/
def liveCore (s : State) (core : Nat) (f : State → State) : Host.Outcome State Fault Refusal :=
  if 0x300 ≤ core then liveRoot s f else liveAgent s (core - 0x200) f

/-- TICK_NO as a core knows it. -/
def coreTick (s : State) (core : Nat) : Nat :=
  (if 0x300 ≤ core then s.sched.tickNo else (getAgent s (core - 0x200)).tickNo) % 2 ^ 48
/-- A context's slot image at its save (R272). SC_CYCLES is a word from outside: cycles are not modelled (log entry 3). -/
def saveImage (s : State) (core slot : Nat) (c : Ctx) : Nat × State :=
  let (w, s) := takeFree s
  (slotImage core slot c (coreTick s core) w.toNat, s)

/-- The core exists. -/
def coreOk (core : Nat) : Bool := (decide (0x200 ≤ core) && decide (core < 0x240)) || (decide (0x300 ≤ core) && decide (core < 0x308))

/-- A switch with a different COMPAT is staged for a core of 0–6: branches into instruction memory stall (R265, R278). -/
def branchHeld (s : State) (core target : Nat) : Bool :=
  decide (0x300 ≤ core) && decide (core < 0x307) && decide (target < 0x20000) && (getCore s core).staged && !sameCompat (getCore s core)

end Sys2Proof.Machine
end

