-- ==== Sys2Proof/Machine/EngineOps.lean ====
section
/-! DEFINITION. Engine queue managers: entry into lanes, heads, skips, ends, completion signals and COMPLETIONs, chains, the
flag mirror (R170–R172, R282–R313). -/

namespace Sys2Proof.Machine

/-- Entries of a lane with those whose completion has not left (R282). -/
def laneLoad (q : EqQ) (be loc : Bool) : Nat :=
  (((if be then q.be else q.lc).filter (fun (e : Ent) => e.loc == loc)).length)
    + (q.done_.filter (fun (e : Ent) => e.be == be && e.loc == loc)).length

/-- The launch stands aside for overrun on the queue (R300). -/
def aside (q : EqQ) (e : Ent) : Bool := !e.be && (tget {} q.recs e.launch).paused

/-- Head of a lane (R300). -/
def headOf (q : EqQ) (be : Bool) : Option Ent := (if be then q.be else q.lc).find? (fun e => !aside q e)

/-- Replace an entry of a queue. -/
def putEnt (q : EqQ) (e : Ent) : EqQ :=
  let f := fun (x : Ent) => if x.seq = e.seq then e else x
  if e.be then { q with be := q.be.map f } else { q with lc := q.lc.map f }
def dropEnt (q : EqQ) (e : Ent) : EqQ :=
  if e.be then { q with be := q.be.filter (fun x => x.seq != e.seq) } else { q with lc := q.lc.filter (fun x => x.seq != e.seq) }
def findEnt (q : EqQ) (be : Bool) (seq : Nat) : Option Ent := (if be then q.be else q.lc).find? (fun e => e.seq == seq)
/-- The macro-op that the engine holds. -/
def presEnt (q : EqQ) : Option Ent := q.pres.bind (fun (x : Bool × Nat) => findEnt q x.1 x.2)

/-- The chained mark of an entry is answered (R311). -/
def chainOpen (e : Ent) : Bool := !e.chained || e.chainGo

/-- Lane stream of R295. -/
def laneGen (q : EqQ) (be : Bool) : Gen := if be then q.genBe else q.genLc
def setGen (q : EqQ) (be : Bool) (g : Gen) (launch : Nat) : EqQ :=
  if be then { q with genBe := g, genBeBy := launch } else { q with genLc := g, genLcBy := launch }

/-- Memory ends of a macro-op: all, and those that are outputs (R290, R295). -/
def memEnds (m : W512) : Nat := if mEngine m && !mAbs m then ((ends m).filter (fun e => eKind e == 1)).length else 0
def memOuts (m : W512) : Bool := mEngine m && !mAbs m && (eKind (mEnd m 4) == 1 || eKind (mEnd m 5) == 1)

/-- The generator rows of R312 at the head. -/
def streamBad (q : EqQ) (e : Ent) : Bool :=
  let g := laneGen q e.be
  decide (0 < memEnds e.mop) && (!g.active || decide (gLeft g < mTiles e.mop * memEnds e.mop)
    || (memOuts e.mop && !bitOf g.desc 1))

/-- eq_mop_info of a presented macro-op (R286). -/
def eqMopInfo (e : Ent) : W64 := BitVec.ofNat 64 (pack [(32, e.launch), (6, e.part), (1, b2n e.be), (16, e.tstart), (9, 0)])
/-- The next address of a lane's generator, in HREL form; none once the stream is exhausted (R259, R260). -/
def genNext (g : Gen) : Option Nat := if g.active && !g.ended then some (gAddr g.desc (gBase g.desc) g.idx) else none
/-- eq_addr of the macro-op that the engine holds (R286). -/
def eqAddr (q : EqQ) : Option Nat := (presEnt q).bind (fun e => if memEnds e.mop = 0 then none else genNext (laneGen q e.be))
/-- The addresses that the memory ends of one tile take, with the end's number, in the order IN0 to IN3, OUT0, OUT1 (R295): `g` stands
where the tile begins. -/
def tileAddrs (g : Gen) (m : W512) : List (Nat × Option Nat) :=
  ((upTo 6).filter (fun k => eKind (mEnd m k) == 1)).mapIdx (fun j k => (k, genNext (gStep g j)))

/-- A barrier's queues have nothing of its launch that entered before it (R302). -/
def barrierMet (s : State) (a : Nat) (e : Ent) : Bool :=
  (upTo 16).all (fun l => !(fld e.mop 128 16).testBit l ||
    (let q := getEq s a l
     !(q.lc ++ q.be ++ q.done_).any (fun (x : Ent) => x.launch == e.launch && decide (x.seq < e.seq))))

/-- The head of a lane is ready (R300). -/
def headReady (s : State) (a l : Nat) (be : Bool) : Bool :=
  let q := getEq s a l
  match headOf q be with
  | none => false
  | some e => chainOpen e && e.cause == 0 && (e.st == EntSt.queued || e.st == EntSt.stopped)
      && (mOpc e.mop != 0x11 || (match q.wait with
        | some w => w.seq == e.seq && w.out == some 0
        | none => decide (wHandle (fld e.mop 128 128) = 0)))
      && (mOpc e.mop != 0x12 || barrierMet s a e)

/-- Take a record of a launch away when its last macro-op has left the queue (R284). -/
def dropRecs (q : EqQ) : EqQ :=
  { q with recs := q.recs.filter (fun (x : Nat × LRec) => (q.lc ++ q.be ++ q.done_).any (fun (e : Ent) => e.launch == x.1)) }

/-- Tell chained successors on the agent how their predecessor ended (R311). -/
def chainTell (s : State) (a l tag : Nat) (ok : Bool) : State :=
  modAgent s a fun g => { g with eqs := g.eqs.map (fun (x : Nat × EqQ) =>
    let f := fun (e : Ent) =>
      if e.chained ∧ ¬ e.chainGo ∧ e.predQ = l ∧ e.predTag = tag then
        (if ok then { e with chainGo := true } else if e.cause = 0 then { e with cause := 0x0B, error := eChainBroken } else e)
      else e
    let q := { x.2 with lc := x.2.lc.map f, be := x.2.be.map f }
    (x.1, if x.1 = l then { q with badTags := if ok then without q.badTags tag else insertNat q.badTags tag } else q)) }

/-- A macro-op that a task pushed locally has ended (R246, R265). -/
def taskPopped (s : State) (a l : Nat) (e : Ent) (bad : Bool) : State :=
  if ¬ e.loc then s else
  modCtx s (0x200 + a) e.slot fun c => { c with
    pend := c.pend - 1, pushBad := c.pushBad || bad
    lastBad := c.lastBad || (bad && (match c.lastPush with
      | some (q, t) => t == e.tag && q % 16 == l
      | none => false)) }

/-- Send the completion signal and the COMPLETION of an ended macro-op (R305, R307, R313); its slot is freed. -/
def sendEnd (s : State) (a l : Nat) (e : Ent) : State :=
  match e.fin with
  | none => s
  | some (status, cause, error, tileAt, flags, wh) =>
    let s := if status = 0 then
        (if mCflag e.mop = 0 then s else sendSignal s a none (mCflag e.mop) (mSigop e.mop) (mCval e.mop) e.launch)
      else if cflagLive e.mop then sendSignal s a none (mCflag e.mop) 4 0 e.launch
      else s
    let s := sendUp s a (.completion {
      eq := a * 16 + l, tag := e.tag, launch := e.launch, status := status, cause := cause, error := error
      cycles := satN 32 e.cycles, ns10 := satN 32 e.ns10, bytes := e.bytes % 2 ^ 64, tileAt := tileAt, flags := flags
      fflags := e.fflags % 16, whandle := wh })
    let s := modEq s a l fun q =>
      let q := { q with
        count := satN 32 (q.count + 1)
        skips := if status = 1 then satN 16 (q.skips + 1) else q.skips
        faults := if status = 2 then satN 16 (q.faults + 1) else q.faults }
      if status = 1 then { q with lastCause := cause, lastOpc := mOpc e.mop, lastTag := e.tag, lastId := e.launch } else q
    taskPopped (chainTell s a l e.tag (decide (status = 0))) a l e (decide (status ≠ 0))

/-- Send what has ended, in the order of the ends, up to one whose flush is pending (R305). -/
def drainDone : Nat → State → Nat → Nat → State
  | 0, s, _, _ => s
  | n + 1, s, a, l =>
    match (getEq s a l).done_ with
    | [] => s
    | e :: t =>
      if e.st = .flushing then s
      else drainDone n (modEq (sendEnd (modEq s a l fun q => { q with done_ := t }) a l e) a l dropRecs) a l

/-- Leave of a flag in the mirror (R172): the last user's leaving ends the subscription. -/
def mirrorDrop (s : State) (a launch h : Nat) : State :=
  match kget (getAgent s a).mirror h with
  | none => s
  | some m =>
    if m.users ≤ 1 then
      sendSignal (modAgent s a fun g => { g with mirror := kdel g.mirror h }) a none h 6 0 launch
    else modAgent s a fun g => { g with mirror := kput g.mirror h { m with users := m.users - 1 } }

/-- A user of a flag begins (R172): the first subscribes. -/
def mirrorAdd (s : State) (a launch h : Nat) : State :=
  match kget (getAgent s a).mirror h with
  | some m => modAgent s a fun g => { g with mirror := kput g.mirror h { m with users := m.users + 1 } }
  | none => sendSignal (modAgent s a fun g => { g with mirror := kput g.mirror h { users := 1 } }) a none h 5 0 launch

/-- The WAIT that a manager has armed is disarmed. -/
def disarm (s : State) (a l : Nat) : State :=
  let q := getEq s a l
  match q.wait with
  | none => s
  | some w =>
    let s := modEq s a l fun q => { q with wait := none }
    match findEnt q w.be w.seq with
    | some e => mirrorDrop s a e.launch (wHandle (fld e.mop 128 128))
    | none => s

/-- End a macro-op (R305): it leaves its lane and waits to be reported. -/
def endEnt (s : State) (a l : Nat) (e : Ent) (fin : Nat × Nat × Nat × Nat × Nat × Nat) (flush : Bool) : State :=
  let q := getEq s a l
  let s := match q.wait with
    | some w => if w.seq = e.seq then disarm s a l else s
    | none => s
  let s := modEq s a l fun q =>
    let q := dropEnt q e
    { q with
      pres := if q.pres == some (e.be, e.seq) then none else q.pres
      preempt := if q.pres == some (e.be, e.seq) then none else q.preempt
      preemptLate := if q.pres == some (e.be, e.seq) then false else q.preemptLate
      done_ := q.done_ ++ [{ e with fin := some fin, st := if flush then .flushing else .ended }] }
  drainDone 64 s a l

/-- FLAGS of a COMPLETION (R307). -/
def endFlags (e : Ent) (flush : Bool) : Nat := b2n (e.chained && e.chainGo) + 2 * b2n flush

/-- Report the marked entries at the heads of a queue's lanes; the generator rows are checked there (R312). -/
def settleHeads : Nat → State → Nat → Nat → State
  | 0, s, _, _ => s
  | n + 1, s, a, l =>
    let q := getEq s a l
    let bad : Bool → Option Ent := fun (be : Bool) => match headOf q be with
      | none => none
      | some e =>
        if e.st ≠ EntSt.queued then none
        else if e.cause ≠ 0 then some e
        else if streamBad q e then some { e with cause := 6, error := eMopIllegal }
        else none
    match (bad false).orElse (fun _ => bad true) with
    | none => s
    | some e =>
      settleHeads n (endEnt s a l { e with cycles := 0, ns10 := 0, bytes := 0, fflags := 0 }
        (1, e.cause, e.error, mTiles e.mop, endFlags e false, 0) false) a l

/-- Every queue of an agent after a change: chains reach over its queues, at most from head to head of its 32 lanes. -/
def settleAgent (s : State) (a : Nat) : State :=
  (List.range 32).foldl (fun s _ => (upTo 16).foldl (fun s l => settleHeads 64 s a l) s) s

/-- The record that a launch's first macro-op opens (R284). -/
def openRec (q : EqQ) (launch charge allow used : Nat) : EqQ :=
  match kget q.recs launch with
  | some _ => q
  | none => { q with recs := kput q.recs launch { charge := charge, allow := allow, used := used } }

/-- A macro-op enters its lane (R283, R284, R312). -/
def enterLane (s : State) (a l : Nat) (e : Ent) (peerOk : Bool) (charge allow used : Nat) : State :=
  let c := entryCause (eqCap s (a * 16 + l)) e.part e.maint peerOk e.loc e.mop
  let n := (getAgent s a).nextSeq
  let s := modAgent s a fun g => { g with nextSeq := n + 1 }
  let pred := getEq s a e.predQ
  let live := (pred.lc ++ pred.be ++ pred.done_).any (fun (x : Ent) => x.tag == e.predTag)
  let broken := e.chained && !live && pred.badTags.contains e.predTag
  let c := if c = 0 ∧ broken then 0x0B else c
  let e := { e with
    seq := n, cause := c, error := causeErr c eAttnField, chainGo := e.chained && !live && !broken }
  let s := modEq s a l fun q =>
    let q := openRec q e.launch charge allow used
    let q := { q with badTags := without q.badTags e.tag }
    if e.be then { q with be := q.be ++ [e] } else { q with lc := q.lc ++ [e] }
  settleAgent s a

/-- Berm gate: nothing is presented on a masked queue while the gate says so (R418). -/
def bermShut (s : State) (a l : Nat) : Bool :=
  let b := (getAgent s a).berm
  b.mask.testBit l && (b.granted || (b.req && b.noPresent))

/-- The launch has a charge on a local queue of its task's agent (R262): an entry of TASK_START that is all 0 says that it has none. -/
def chargedAt (c : Ctx) (l : Nat) : Bool := decide (c.charges.getD l (0, 0, 0) ≠ (0, 0, 0))

/-- A local push enters a lane (R283, R284, R294, R297, R385): the charges are those of TASK_START. -/
def localEnter (s : State) (a slot l : Nat) (m : W512) (chained : Bool) : State :=
  match getCtx? s (0x200 + a) slot with
  | none => s
  | some c =>
    let tag := 0x8000 + (getEq s a l).nextLocal % 0x8000
    let s := modEq s a l fun q => { q with nextLocal := (q.nextLocal + 1) % 0x8000 }
    let chg := c.charges.getD l (0, 0, 0)
    let ok := (peers m).all (fun e => e / 16 == a && chargedAt c (e % 16))
    let prev := if chained then c.lastPush else none
    let s := modCtx s (0x200 + a) slot fun c => { c with pend := c.pend + 1, lastPush := some (a * 16 + l, tag), lastBad := false }
    let e : Ent := {
      be := c.be, tag := tag, launch := c.launch, part := c.part, maint := decide ((getPart s c.part).st = .maint)
      chained := prev.isSome
      predQ := (prev.map (fun (x : Nat × Nat) => x.1 % 16)).getD 0, predTag := (prev.map (fun (x : Nat × Nat) => x.2)).getD 0
      mop := m, loc := true, slot := slot, deftmo := c.deftmo }
    enterLane s a l e ok chg.1 (if c.be then 0xFFFFFFFF else chg.2.1) chg.2.2

/-- A lane has a slot for a push of the agent's own core (R282). -/
def localRoom (s : State) (a l : Nat) (be : Bool) : Bool := decide (laneLoad (getEq s a l) be true < Config.localSlots)

end Sys2Proof.Machine
end

