-- ==== Sys2Proof/Machine/ScScalar.lean ====
section
/-! DEFINITION. Sluice core instructions: issue, END, scalar and predicate arithmetic, branches, loads and stores, CSRs (R243–R254,
R265, R268–R274). -/

namespace Sys2Proof.Machine

/-- Lay out slice 0 of a new context (R252): argument area, then the info block. -/
def layOut (s : State) (core : Nat) (c : Ctx) (arg : Nat) : State :=
  modCore s core fun k =>
    let k := dmPut k c 0 arg 768
    dmPut k c 0x300 (pack [(32, c.launch), (16, c.gen), (8, c.part), (8, b2n c.be), (64, c.tick), (8, c.nslices)]) 64

/-- The next task of an agent core (R269): LC before BE, in order of arrival; a BE task that is saved holds those behind it. -/
def agentPick (s : State) (a : Nat) : Option Nat :=
  let g := getAgent s a
  let of_ := fun (be : Bool) => g.arrivals.find? (fun k => (kget g.tasks k).any (fun c => c.be == be))
  match of_ false with
  | some k => some k
  | none => match of_ true with
    | some k => if (kget g.tasks k).any (fun c => c.st == CtxSt.held) then some k else none
    | none => none

/-- The agent core takes up its next task. While a bank switch with a different COMPAT is staged it starts none (R278). -/
def agentNext (s : State) (a : Nat) : State :=
  let g := getAgent s a
  if g.core.run.isSome ∨ (g.core.staged ∧ ¬ sameCompat g.core) then s else
  match agentPick s a with
  | none => s
  | some k => match kget g.tasks k with
    | none => s
    | some c =>
      if c.st ≠ .held then s
      else if c.ready then
        modCore (setCtx s (0x200 + a) k { c with st := .running, ready := false }) (0x200 + a) fun x => { x with run := some k, st := 1 }
      else match freeSlicesOf s (0x200 + a) with
        | [] => s
        | i :: _ =>
          let s := takeSlices s (0x200 + a) k [i]
          let c := { c with
            slices := [i], st := .running, p := [], s := tput 0 [] 1 (BitVec.ofNat 64 c.entry)
            pc := (tget 0#32 (activeBank g.core) (16 + c.entry)).toNat }
          let s := layOut (setCtx s (0x200 + a) k c) (0x200 + a) c c.arg.toNat
          modCore s (0x200 + a) fun x => { x with run := some k, st := 1 }

/-- A task leaves its agent core. -/
def dropTask (s : State) (a slot : Nat) : State :=
  let s := freeSlices s (0x200 + a) slot
  modAgent s a fun g => { g with
    tasks := kdel g.tasks slot, arrivals := without g.arrivals slot
    core := if g.core.run = some slot then { g.core with run := none, st := 0 } else g.core }

/-- END may retire (R265): no macro-op, transfer or task of the node is left. -/
def endReady (c : Ctx) : Bool := c.pend == 0 && c.xfers.isEmpty && c.tasks.isEmpty

/-- END retires (R246, R269, R270). Iznum's END ends nothing: it goes on (log entry 18). -/
def endRetire (s : State) (core slot : Nat) : State :=
  match getCtx? s core slot with
  | none => s
  | some c =>
    if slot = 512 ∧ 0x300 ≤ core then retire s core slot c
    else if 0x300 ≤ core then
      let s := setCtx (scSticky s c.part c.fflags) core slot { c with st := .held, stall := none, ready := false }
      let s := modCore s core fun k => { k with run := none, st := 0 }
      let s := modLaunch s c.launch fun l => { l with
        nodes := l.nodes.mapIdx (fun i n => if i = c.node then { n with ended := true } else n) }
      graphSettle s c.launch
    else
      let a := core - 0x200
      let data := natToBytes (pack [(32, c.skips), (8, c.firstSkip), (8, c.fflags), (16, 0)]) 8
      agentNext (sendUp (dropTask s a slot) a (.ctxXfer 4 slot c.launch 0 data)) a

/-- END, or an end that counts as a skipped END, waits until it may retire. -/
def tryEnd (s : State) (core slot cause : Nat) : State :=
  match getCtx? s core slot with
  | none => s
  | some c => if endReady c then endRetire s core slot else setCtx s core slot { c with stall := some (.end_ cause) }

/-- A skipped END (R254, R269). -/
def endSkip (s : State) (core slot cause : Nat) : State :=
  tryEnd (noteSkip s core slot cause (getCtx s core slot).pc) core slot cause

/-- The line that an instruction came from becomes the most recently used of the code cache (R201). -/
def touchCode (s : State) (c : Ctx) : State :=
  if c.pc < 0x80000000 then s
  else match ctxGen s c with
    | none => s
    | some g => lineUsed s (codeLine s c.part g c.pc)
/-- A fetch that misses the code cache asks for its line (R201). -/
def missCode (s : State) (c : Ctx) : State :=
  match ctxGen s c with
  | none => s
  | some g => lineWant s (codeLine s c.part g c.pc)

/-- Issue the instruction at a core's PC (R243, R248, R254): the core runs a context that is not stalled, the fetch has its
data, and the encoding is sound. -/
def issueV (s : State) (core : Nat) (enc : Bool) (k : State → Nat → Ctx → State) : State :=
  if ¬ coreOk core then s else
  match running s core with
  | none => s
  | some (slot, c) =>
    if c.st ≠ .running ∨ c.stall.isSome then s
    else match fetchOf s core c with
      | .wait => missCode s c
      | .bad => endSkip s core slot scFetch
      | .ok => if enc then k (touchCode s c) slot c else skipAt (touchCode s c) core slot scEncoding

/-- Issue of an instruction under a scalar guard. -/
def issue (s : State) (core pg : Nat) (pn enc : Bool) (k : State → Nat → Ctx → State) : State :=
  issueV s core enc fun s slot c => if guardOn c pg pn then k s slot c else retire s core slot c

/-- An R-format instruction. -/
def issueR (i : FR) (enc : Bool) (s : State) (k : State → Nat → Ctx → State) : Host.Outcome State Fault Refusal :=
  liveCore s i.core fun s => issue s i.core i.pg i.pn enc k
/-- An I-format instruction. -/
def issueI (i : FI) (enc : Bool) (s : State) (k : State → Nat → Ctx → State) : Host.Outcome State Fault Refusal :=
  liveCore s i.core fun s => issue s i.core i.pg i.pn enc k

/-- s[D] ← s[A] op s[B] (R249). -/
def aluR (i : FR) (f : Nat → Nat → Nat) (s : State) : Host.Outcome State Fault Refusal :=
  issueR i true s fun s slot c => retire s i.core slot (setS c i.d (f (sReg c i.a) (sReg c i.b)))
/-- s[D] ← s[A] op sign-extended IMM12. -/
def aluI (i : FI) (f : Nat → Nat → Nat) (s : State) : Host.Outcome State Fault Refusal :=
  issueI i true s fun s slot c => retire s i.core slot (setS c i.d (f (sReg c i.a) (unsgn 64 (sgn 12 i.imm.toNat))))

def sraN (x n : Nat) : Nat := unsgn 64 (sgn 64 x / 2 ^ n)

def execScAdd (i : FR) (s : State) : Host.Outcome State Fault Refusal := aluR i (fun a b => a + b) s
def execScSub (i : FR) (s : State) : Host.Outcome State Fault Refusal := aluR i (fun a b => a + 2 ^ 64 - b) s
def execScAnd (i : FR) (s : State) : Host.Outcome State Fault Refusal := aluR i (fun a b => a &&& b) s
def execScOr (i : FR) (s : State) : Host.Outcome State Fault Refusal := aluR i (fun a b => a ||| b) s
def execScXor (i : FR) (s : State) : Host.Outcome State Fault Refusal := aluR i (fun a b => a ^^^ b) s
def execScSll (i : FR) (s : State) : Host.Outcome State Fault Refusal := aluR i (fun a b => a <<< (b % 64)) s
def execScSrl (i : FR) (s : State) : Host.Outcome State Fault Refusal := aluR i (fun a b => a >>> (b % 64)) s
def execScSra (i : FR) (s : State) : Host.Outcome State Fault Refusal := aluR i (fun a b => sraN a (b % 64)) s
def execScMin (i : FR) (s : State) : Host.Outcome State Fault Refusal := aluR i (fun a b => if sgn 64 a ≤ sgn 64 b then a else b) s
def execScMax (i : FR) (s : State) : Host.Outcome State Fault Refusal := aluR i (fun a b => if sgn 64 a ≤ sgn 64 b then b else a) s
def execScMinu (i : FR) (s : State) : Host.Outcome State Fault Refusal := aluR i (fun a b => min a b) s
def execScMaxu (i : FR) (s : State) : Host.Outcome State Fault Refusal := aluR i (fun a b => max a b) s
def execScMul (i : FR) (s : State) : Host.Outcome State Fault Refusal := aluR i (fun a b => a * b) s
def execScMulhu (i : FR) (s : State) : Host.Outcome State Fault Refusal := aluR i (fun a b => a * b / 2 ^ 64) s
def execScDivu (i : FR) (s : State) : Host.Outcome State Fault Refusal := aluR i (fun a b => if b = 0 then 2 ^ 64 - 1 else a / b) s
def execScRemu (i : FR) (s : State) : Host.Outcome State Fault Refusal := aluR i (fun a b => if b = 0 then a else a % b) s
def execScAddi (i : FI) (s : State) : Host.Outcome State Fault Refusal := aluI i (fun a b => a + b) s
def execScAndi (i : FI) (s : State) : Host.Outcome State Fault Refusal := aluI i (fun a b => a &&& b) s
def execScOri (i : FI) (s : State) : Host.Outcome State Fault Refusal := aluI i (fun a b => a ||| b) s
def execScXori (i : FI) (s : State) : Host.Outcome State Fault Refusal := aluI i (fun a b => a ^^^ b) s
/-- SHI (R249): IMM12 [7:6] the operation, [5:0] the amount, [11:8] 0; operation 3 is reserved. -/
def execScShi (i : FI) (s : State) : Host.Outcome State Fault Refusal :=
  let op := fld i.imm 6 2
  let n := fld i.imm 0 6
  issueI i (decide (fld i.imm 8 4 = 0) && op != 3) s fun s slot c =>
    let x := sReg c i.a
    retire s i.core slot (setS c i.d (if op = 0 then x <<< n else if op = 1 then x >>> n else sraN x n))
def execScLi (i : FL) (s : State) : Host.Outcome State Fault Refusal :=
  liveCore s i.core fun s => issue s i.core i.pg i.pn true fun s slot c =>
    retire s i.core slot (setS c i.d (unsgn 64 (sgn 17 i.imm.toNat)))
def execScLsh (i : FL) (s : State) : Host.Outcome State Fault Refusal :=
  liveCore s i.core fun s => issue s i.core i.pg i.pn true fun s slot c =>
    retire s i.core slot (setS c i.d ((sReg c i.d * 2 ^ 17) % 2 ^ 64 ||| i.imm.toNat))

/-- p[D] ← s[A] cmp s[B], every bit (R249). -/
def cmpR (i : FR) (f : Nat → Nat → Bool) (s : State) : Host.Outcome State Fault Refusal :=
  issueR i (decide (i.d < 8)) s fun s slot c => retire s i.core slot (setPAll c i.d (f (sReg c i.a) (sReg c i.b)))
def execScEq (i : FR) (s : State) : Host.Outcome State Fault Refusal := cmpR i (fun a b => a == b) s
def execScNe (i : FR) (s : State) : Host.Outcome State Fault Refusal := cmpR i (fun a b => a != b) s
def execScLt (i : FR) (s : State) : Host.Outcome State Fault Refusal := cmpR i (fun a b => decide (sgn 64 a < sgn 64 b)) s
def execScGe (i : FR) (s : State) : Host.Outcome State Fault Refusal := cmpR i (fun a b => decide (sgn 64 b ≤ sgn 64 a)) s
def execScLtu (i : FR) (s : State) : Host.Outcome State Fault Refusal := cmpR i (fun a b => decide (a < b)) s
def execScGeu (i : FR) (s : State) : Host.Outcome State Fault Refusal := cmpR i (fun a b => decide (b ≤ a)) s

/-- p[D] ← p[A] op p[B]. -/
def predR (i : FR) (f : W64 → W64 → W64) (s : State) : Host.Outcome State Fault Refusal :=
  issueR i (decide (i.d < 8) && decide (i.a < 8) && decide (i.b < 8)) s fun s slot c =>
    retire s i.core slot (setP c i.d (f (pReg c i.a) (pReg c i.b)))
def execScPand (i : FR) (s : State) : Host.Outcome State Fault Refusal := predR i (fun a b => a &&& b) s
def execScPor (i : FR) (s : State) : Host.Outcome State Fault Refusal := predR i (fun a b => a ||| b) s
def execScPxor (i : FR) (s : State) : Host.Outcome State Fault Refusal := predR i (fun a b => a ^^^ b) s
def execScPnot (i : FR) (s : State) : Host.Outcome State Fault Refusal := predR i (fun a _ => ~~~ a) s
def execScPmov (i : FR) (s : State) : Host.Outcome State Fault Refusal :=
  issueR i (decide (i.a < 8)) s fun s slot c => retire s i.core slot (setS c i.d (pReg c i.a).toNat)
def execScSpmov (i : FR) (s : State) : Host.Outcome State Fault Refusal :=
  issueR i (decide (i.d < 8)) s fun s slot c => retire s i.core slot (setP c i.d (BitVec.ofNat 64 (sReg c i.a)))

/-- Go to a target, writing PC + 4 to a link register, 0 for none; a branch into instruction memory waits while a switch with a
different COMPAT is staged (R265). -/
def jump (s : State) (core slot : Nat) (c : Ctx) (target link : Nat) : State :=
  if branchHeld s core target then setCtx s core slot { c with stall := some (.branch target link) }
  else setCtx s core slot { setS c link (c.pc + 4) with pc := target % 2 ^ 32, stall := none }
/-- Target of a B-format branch. -/
def brTarget (c : Ctx) (off : BitVec 22) : Nat := unsgn 32 ((c.pc : Int) + 4 * sgn 22 off.toNat)
def execScBr (i : FB) (s : State) : Host.Outcome State Fault Refusal :=
  liveCore s i.core fun s => issue s i.core i.pg i.pn true fun s slot c => jump s i.core slot c (brTarget c i.off) 0
def execScCall (i : FB) (s : State) : Host.Outcome State Fault Refusal :=
  liveCore s i.core fun s => issue s i.core i.pg i.pn true fun s slot c => jump s i.core slot c (brTarget c i.off) 31
def execScJr (i : FR) (s : State) : Host.Outcome State Fault Refusal :=
  issueR i true s fun s slot c => jump s i.core slot c (sReg c i.a % 2 ^ 32) 0
/-- JALR first writes its link register and then reads s[A] (R249). -/
def execScJalr (i : FR) (s : State) : Host.Outcome State Fault Refusal :=
  issueR i true s fun s slot c => jump s i.core slot c (sReg (setS c i.d (c.pc + 4)) i.a % 2 ^ 32) i.d

/-- Address of a load or store (R249). -/
def ldAddr (c : Ctx) (i : FI) (n : Nat) : Nat := unsgn 64 ((sReg c i.a : Int) + sgn 12 i.imm.toNat * n)
def loadI (i : FI) (n : Nat) (s : State) : Host.Outcome State Fault Refusal :=
  issueI i true s fun s slot c =>
    let (s, cause, v) := dmLoad s i.core c (ldAddr c i n) n
    if cause = 0 then retire s i.core slot (setS c i.d v) else skipAt s i.core slot cause
def storeI (i : FI) (n : Nat) (s : State) : Host.Outcome State Fault Refusal :=
  issueI i true s fun s slot c =>
    if dmOk c (ldAddr c i n) n then
      retire (modCore s i.core fun k => dmPut k c (ldAddr c i n) (sReg c i.d) n) i.core slot c
    else skipAt s i.core slot scDmem
def execScLd64 (i : FI) (s : State) : Host.Outcome State Fault Refusal := loadI i 8 s
def execScLd32 (i : FI) (s : State) : Host.Outcome State Fault Refusal := loadI i 4 s
def execScSt64 (i : FI) (s : State) : Host.Outcome State Fault Refusal := storeI i 8 s
def execScSt32 (i : FI) (s : State) : Host.Outcome State Fault Refusal := storeI i 4 s

def execScNop (i : FR) (s : State) : Host.Outcome State Fault Refusal :=
  issueR i true s fun s slot c => retire s i.core slot c
/-- END (R254, R265): it ends the CODE node or agent task. -/
def execScEnd (i : FR) (s : State) : Host.Outcome State Fault Refusal :=
  issueR i true s fun s slot _ => tryEnd s i.core slot 0

/-- CSRR (R246). SC_CYCLES is a word from outside: cycles are not modelled (log entry 3). -/
def execScCsrr (i : FI) (s : State) : Host.Outcome State Fault Refusal :=
  let n := fld i.imm 0 6
  issueI i (decide (fld i.imm 6 6 = 0)) s fun s slot c =>
    let gen := ((kget s.launches c.launch).map (·.gen)).getD c.gen
    if n = 4 then retire s i.core slot (setS c i.d (coreTick s i.core))
    else if n = 5 then
      let (w, s) := takeFree s
      retire s i.core slot (setS c i.d w.toNat)
    else match csrOwn slot gen c n with
      | some v => retire s i.core slot (setS c i.d v)
      | none => skipAt s i.core slot scCsr
/-- CSRW (R246). -/
def execScCsrw (i : FI) (s : State) : Host.Outcome State Fault Refusal :=
  let n := fld i.imm 0 6
  issueI i (decide (fld i.imm 6 6 = 0)) s fun s slot c =>
    let v := sReg c i.a
    if n = 6 then retire s i.core slot { c with fflags := v % 16 }
    else if n = 7 then retire s i.core slot { c with tfmt := v % 2 ^ 21 }
    else if 0x10 ≤ n ∧ n ≤ 0x17 then retire s i.core slot { c with scratch := tput 0 c.scratch n (BitVec.ofNat 64 v) }
    else skipAt s i.core slot scCsr

/-- The fetch of a Root core's context waits for a line. -/
def fetchWaits (s : State) (line core : Nat) : Option (Nat × Ctx) :=
  (running s core).filter (fun x => x.2.st == CtxSt.running && x.2.stall.isNone && fetchOf s core x.2 == Fetch.wait
    && ((ctxGen s x.2).any (fun g => codeLine s x.2.part g x.2.pc == line)))

/-- CODE_CACHE_FILL (R201): the arena read of a line, tag × 256 + set, returns. With a fault a node whose fetch waits for it ends as a skipped END with
cause FETCH; a node record or body is asked for again when its node is next started (log entry 76). -/
def execCodeCacheFill (set tag : Nat) (ok : Bool) (s : State) : Host.Outcome State Fault Refusal :=
  liveRoot s fun s =>
    let line := tag * 256 + set
    if ¬ s.port.reads.any (fun r => r.kind == RdKind.code line) then s else
    let s := readDone s (.code line)
    if ok then linePut s line
    else
      let s := raiseOn s eHostReadFault none none [(.issuer, Config.fnManager), (.addr, line * 256)]
      (upTo 7).foldl (fun s n => match fetchWaits s line (0x300 + n) with
        | some x => endSkip s (0x300 + n) x.1 scFetch
        | none => s) s

end Sys2Proof.Machine
end

