-- ==== Sys2Proof/Machine/ScVector.lean ====
section
/-! DEFINITION. Sluice core instructions of the V format: vector loads and stores, tiles, arithmetic by lanes, reductions, conversion,
the matrix unit (R249, R256, R257, R336–R355). -/

namespace Sys2Proof.Machine

/-- Formats of a lane (R249, R349): codes 0x0–0x4 and 0x8–0xA. -/
def laneFmt (f : Nat) : Bool := decide (f ≤ 4) || decide (8 ≤ f ∧ f ≤ 10)
/-- Formats of the vector arithmetic. -/
def arithFmt (f : Nat) : Bool := decide (f ≤ 2) || decide (8 ≤ f ∧ f ≤ 10)
/-- Formats of the reductions. -/
def sumFmt (f : Nat) : Bool := decide (f = 0) || decide (8 ≤ f ∧ f ≤ 10)

/-- Lanes of a register in a format. -/
def lanes (f : Nat) (v : W512) : List Nat := unpackE (codeW f) (512 / codeW f) v.toNat
/-- A register from lanes. -/
def fromLanes (w : Nat) (l : List Nat) : W512 := BitVec.ofNat 512 (packE w l)

/-- Keep the old value in masked lanes (R248). -/
def maskLanes (c : Ctx) (i : FV) (old new_ : List Nat) : List Nat :=
  (old.zip new_).mapIdx (fun k (x : Nat × Nat) => if laneOn c i.pg i.pn k then x.2 else x.1)

/-- Flags of the lanes that are not masked. -/
def laneFlags (c : Ctx) (i : FV) (l : List (Nat × Nat)) : Nat :=
  flagsOf (l.mapIdx (fun k (x : Nat × Nat) => if laneOn c i.pg i.pn k then x else (0, 0)))

/-- Issue of a V instruction: encoding checks apply whatever the mask (R248). -/
def issueLanes (i : FV) (enc : Bool) (s : State) (k : State → Nat → Ctx → State) : Host.Outcome State Fault Refusal :=
  liveCore s i.core fun s => issueV s i.core enc k
/-- Issue of a V instruction without lanes in its destination: bit 0 of the mask is its guard. -/
def issueWhole (i : FV) (enc : Bool) (s : State) (k : State → Nat → Ctx → State) : Host.Outcome State Fault Refusal :=
  liveCore s i.core fun s => issue s i.core i.pg i.pn enc k

/-- Address of a V load or store: s[A] + s[B]. -/
def vAddr (c : Ctx) (i : FV) : Nat := (sReg c i.a + sReg c i.b) % 2 ^ 64

/-- Write lanes with their flags to v[D]. -/
def putLanes (s : State) (slot : Nat) (c : Ctx) (i : FV) (f : Nat) (r : List (Nat × Nat)) : State :=
  let old := lanes f (vReg c i.d)
  retire s i.core slot
    (orFlags (setV c i.d (fromLanes (codeW f) (maskLanes c i old (r.map (fun (x : Nat × Nat) => x.1))))) (laneFlags c i r))

def execScVld (i : FV) (s : State) : Host.Outcome State Fault Refusal :=
  issueLanes i (laneFmt i.fmt && decide (i.d < 16)) s fun s slot c =>
    let (s, cause, v) := dmLoad s i.core c (vAddr c i) 64
    if cause ≠ 0 then skipAt s i.core slot cause
    else putLanes s slot c i i.fmt ((lanes i.fmt (BitVec.ofNat 512 v)).map (fun x => (x, 0)))

def execScVst (i : FV) (s : State) : Host.Outcome State Fault Refusal :=
  issueLanes i (laneFmt i.fmt && decide (i.d < 16)) s fun s slot c =>
    let a := vAddr c i
    if ¬ dmOk c a 64 then skipAt s i.core slot scDmem
    else
      let w := codeW i.fmt / 8
      retire (modCore s i.core fun k => (lanes i.fmt (vReg c i.d)).zipIdx.foldl (fun k (x : Nat × Nat) =>
        if laneOn c i.pg i.pn x.2 then dmPut k c (a + x.2 * w) x.1 w else k) k) i.core slot c

/-- Record of an MX access: its address, and whether element 16 is named; none where the access is out of range or does not name
element 0 or 16 of a record on its own size (R256, R340, R342). -/
def mxAt (c : Ctx) (code a : Nat) : Option (Nat × Bool) :=
  let r := mxRec code
  if dmOk c a r then some (a, false)
  else if mxHalf code ≤ a ∧ dmOk c (a - mxHalf code) r then some (a - mxHalf code, true)
  else none

/-- Lane format of VLDX and VSTX: FP32, or INT32 for the integer codes (R341). -/
def wideFmt (f : Nat) : Nat := if isInt f then 8 else 0
/-- MXV of VLDX and VSTX (R338). -/
def mxvX (c : Ctx) : Bool := c.tfmt.testBit 20

def execScVldx (i : FV) (s : State) : Host.Outcome State Fault Refusal :=
  issueLanes i (decide (i.d < 16) && decide (i.fmt < 16)) s fun s slot c =>
    let w := codeW i.fmt
    if isMx i.fmt then
      match mxAt c i.fmt (vAddr c i) with
      | none => skipAt s i.core slot scDmem
      | some (r, hi) =>
        let (s, c1, x) := dmFetch s i.core c (if hi then r + mxHalf i.fmt else r) (2 * w)
        let (s, c2, sc) := dmFetch s i.core c (r + mxScaleAt i.fmt) 1
        if c1 ≠ 0 ∨ c2 ≠ 0 then skipAt s i.core slot scEcc
        else putLanes s slot (if sc = 255 then orFlags c flInv else c) i 0 ((unpackE w 16 x).map (mxExpand i.fmt (mxvX c) sc))
    else
      let (s, cause, x) := dmLoad s i.core c (vAddr c i) (2 * w)
      if cause ≠ 0 then skipAt s i.core slot cause
      else putLanes s slot c i (wideFmt i.fmt) ((unpackE w 16 x).map (fun y => match elemOf i.fmt false with
        | .flt f => (expand32 f y, 0)
        | .int n => (unsgn 32 (sgn n y), 0)))

def execScVstx (i : FV) (s : State) : Host.Outcome State Fault Refusal :=
  issueLanes i (decide (i.d < 16) && decide (i.fmt < 16)) s fun s slot c =>
    let w := codeW i.fmt
    let src := lanes (wideFmt i.fmt) (vReg c i.d)
    let on := fun (k : Nat) => laneOn c i.pg i.pn k
    if isMx i.fmt then
      match mxAt c i.fmt (vAddr c i) with
      | none => skipAt s i.core slot scDmem
      | some (r, hi) =>
        let vals := src.map (fdec fp32)
        if hi then
          let (s, cause, sc) := dmFetch s i.core c (r + mxScaleAt i.fmt) 1
          if cause ≠ 0 then skipAt s i.core slot cause
          else
            let old := unpackE w 16 (dmBytes (getCore s i.core) c (r + mxHalf i.fmt) (2 * w))
            let es := vals.map (mxElem i.fmt (mxvX c) ((sc : Int) - 127) false)
            let c := orFlags c (laneFlags c i es)
            retire (modCore s i.core fun k => dmPut k c (r + mxHalf i.fmt)
              (packE w (maskLanes c i old (es.map (fun (x : Nat × Nat) => x.1)))) (2 * w)) i.core slot c
        else
          let old := unpackE w 16 (dmBytes (getCore s i.core) c r (2 * w))
          let act := (vals.zipIdx.filter (fun (x : Fv × Nat) => on x.2)).map (fun (x : Fv × Nat) => x.1)
          let (sc, _, fl) := mxCompress i.fmt (mxvX c) act
          let es := if sc = 255 then vals.map (fun _ => (0, 0))
            else vals.map (fun v => mxElem i.fmt (mxvX c) ((sc : Int) - 127) false v)
          let body := packE w (maskLanes c i old (es.map (fun (x : Nat × Nat) => x.1)))
          retire (modCore s i.core fun k => dmPut k c r (body + put sc (8 * mxScaleAt i.fmt)) (mxRec i.fmt)) i.core slot (orFlags c fl)
    else
      let a := vAddr c i
      if ¬ dmOk c a (2 * w) then skipAt s i.core slot scDmem
      else
        let old := unpackE w 16 (dmBytes (getCore s i.core) c a (2 * w))
        let es := src.map (econv (elemOf (wideFmt i.fmt) false) (elemOf i.fmt false))
        let c := orFlags c (laneFlags c i es)
        let body := packE w (maskLanes c i old (es.map (fun (x : Nat × Nat) => x.1)))
        retire (modCore s i.core fun k => dmPut k c a body (2 * w)) i.core slot c

/-- Block records of a tile of a code. -/
def tileRecs (code : Nat) : Nat := 16 * tileK code / 32

/-- Fold one block record into 32 elements of the element type (R351). -/
def foldRec (code : Nat) (mxv : Bool) (rec : Nat) : List (Nat × Nat) :=
  let sc := nbits rec (8 * mxScaleAt code) 8
  (unpackE (codeW code) 32 rec).map (fun x =>
    if sc = 255 then (match elemOf code mxv with
      | .flt f => (f.nan.getD 0, flInv)
      | .int _ => (0, flInv))
    else match elemOf code mxv with
      | .flt f => fput { f with flush := false } (fscale (fdec f x) ((sc : Int) - 127))
      | .int w => iput w (fscale (ival w x) ((sc : Int) - 127)))

def execScTld (i : FV) (s : State) : Host.Outcome State Fault Refusal :=
  issueWhole i (decide (i.d < 4) && decide (i.fmt < 16)) s fun s slot c =>
    let a := vAddr c i
    if isMx i.fmt then
      let n := tileRecs i.fmt
      let r := mxRec i.fmt
      let (s, cause, x) := dmLoad s i.core c a (n * r)
      if cause ≠ 0 then skipAt s i.core slot cause
      else
        let es := (upTo n).flatMap (fun k => foldRec i.fmt (tileMxv c i.d) (nbits x (8 * r * k) (8 * r)))
        retire s i.core slot (orFlags (setTag (setT c i.d (BitVec.ofNat 8192 (packE (codeW i.fmt) (es.map (fun (x : Nat × Nat) => x.1)))))
          i.d i.fmt) (flagsOf es))
    else
      let (s, cause, x) := dmLoad s i.core c a 1024
      if cause ≠ 0 then skipAt s i.core slot cause
      else retire s i.core slot (setTag (setT c i.d (BitVec.ofNat 8192 x)) i.d i.fmt)

/-- Split a list into runs of 32. -/
def runs32 {α : Type} : Nat → List α → List (List α)
  | 0, _ => []
  | n + 1, l => if l.isEmpty then [] else l.take 32 :: runs32 n (l.drop 32)

/-- What TST stores (R256, R345, R351): bytes, their number, flags. -/
def tstData (c : Ctx) (d fmt : Nat) : Nat × Nat × Nat :=
  let tag := tileTag c d
  let mxv := tileMxv c d
  if fmt = tag ∧ ¬ isMx fmt then ((tReg c d).toNat, 1024, 0)
  else
    let es := tileElems tag (tReg c d)
    if isMx fmt then
      let rs := (runs32 64 es).map (fun l => mxCompress fmt mxv (l.map (tileVal tag mxv)))
      let recs := rs.map (fun (r : Nat × List Nat × Nat) => packE (codeW fmt) r.2.1 + put r.1 (8 * mxScaleAt fmt))
      (packE (8 * mxRec fmt) recs, rs.length * mxRec fmt, rs.foldl (fun f (r : Nat × List Nat × Nat) => f ||| r.2.2) 0)
    else
      let r := es.map (fun x =>
        if isInt tag && isInt fmt then econv (elemOf tag false) (elemOf fmt false) x
        else match elemOf fmt false with
          | .flt f => fput f (tileVal tag mxv x)
          | .int w => iput w (tileVal tag mxv x))
      (packE (codeW fmt) (r.map (fun (x : Nat × Nat) => x.1)), r.length * codeW fmt / 8, flagsOf r)

def execScTst (i : FV) (s : State) : Host.Outcome State Fault Refusal :=
  issueWhole i (decide (i.d < 4) && decide (i.fmt < 16)) s fun s slot c =>
    let (x, n, fl) := tstData c i.d i.fmt
    let a := vAddr c i
    if ¬ dmOk c a n then skipAt s i.core slot scDmem
    else retire (modCore s i.core fun k => dmPut k c a x n) i.core slot (orFlags c fl)

def execScTzero (i : FV) (s : State) : Host.Outcome State Fault Refusal :=
  issueWhole i (decide (i.d < 4) && (i.fmt == 0 || i.fmt == 8)) s fun s slot c =>
    retire s i.core slot (setTag (setT c i.d 0) i.d i.fmt)

/-- An operation by lanes on v[D], v[A], v[B]: a float rule on values, an integer rule on integers, saturating with OVF (R350). -/
def laneOp (i : FV) (ff : Fmt → Nat → Nat → Nat → Nat × Nat) (fi : Int → Int → Int → Int) (s : State) : Host.Outcome State Fault Refusal :=
  issueLanes i (arithFmt i.fmt && decide (i.d < 16) && decide (i.a < 16) && decide (i.b < 16)) s fun s slot c =>
    let xs := (lanes i.fmt (vReg c i.d)).zip ((lanes i.fmt (vReg c i.a)).zip (lanes i.fmt (vReg c i.b)))
    putLanes s slot c i i.fmt (xs.map (fun (x : Nat × Nat × Nat) => match elemOf i.fmt false with
      | .flt f => ff f x.1 x.2.1 x.2.2
      | .int w =>
        let (r, sat) := isat w (fi (sgn w x.1) (sgn w x.2.1) (sgn w x.2.2))
        (r, if sat then flOvf else 0)))

def execScVadd (i : FV) (s : State) : Host.Outcome State Fault Refusal :=
  laneOp i (fun f _ a b => fres f (fadd (fdec f a) (fdec f b))) (fun _ a b => a + b) s
def execScVsub (i : FV) (s : State) : Host.Outcome State Fault Refusal :=
  laneOp i (fun f _ a b => fres f (fadd (fdec f a) (fneg (fdec f b)))) (fun _ a b => a - b) s
def execScVmul (i : FV) (s : State) : Host.Outcome State Fault Refusal :=
  laneOp i (fun f _ a b => fres f (fmul (fdec f a) (fdec f b))) (fun _ a b => a * b) s
def execScVfma (i : FV) (s : State) : Host.Outcome State Fault Refusal :=
  laneOp i (fun f d a b => fres f (ffma (fdec f d) (fdec f a) (fdec f b))) (fun d a b => d + a * b) s
def execScVmin (i : FV) (s : State) : Host.Outcome State Fault Refusal :=
  laneOp i (fun f _ a b => fput f (fmin (fdec f a) (fdec f b))) (fun _ a b => min a b) s
def execScVmax (i : FV) (s : State) : Host.Outcome State Fault Refusal :=
  laneOp i (fun f _ a b => fput f (fmax (fdec f a) (fdec f b))) (fun _ a b => max a b) s

/-- A function by FP32 lanes (R350). -/
def laneFn (i : FV) (f : W32 → Nat × Nat) (s : State) : Host.Outcome State Fault Refusal :=
  issueLanes i (decide (i.fmt = 0) && decide (i.d < 16) && decide (i.a < 16)) s fun s slot c =>
    putLanes s slot c i 0 ((lanes 0 (vReg c i.a)).map (fun x => f (BitVec.ofNat 32 x)))
def execScVexp2 (i : FV) (s : State) : Host.Outcome State Fault Refusal := laneFn i exp232 s
def execScVrcp (i : FV) (s : State) : Host.Outcome State Fault Refusal := laneFn i rcp32 s
def execScVrsqrt (i : FV) (s : State) : Host.Outcome State Fault Refusal := laneFn i rsqrt32 s
/-- VLOG2: of ±0 the spec states no result, so that lane is a free value of the operand (log entry 3). -/
def execScVlog2 (i : FV) (s : State) : Host.Outcome State Fault Refusal :=
  issueLanes i (decide (i.fmt = 0) && decide (i.d < 16) && decide (i.a < 16)) s fun s slot c =>
    putLanes s slot c i 0 ((lanes 0 (vReg c i.a)).map (fun x => match log232 (BitVec.ofNat 32 x) with
      | some r => r
      | none => ((Config.freeOf 10 x 0).toNat % 2 ^ 32, (Config.freeOf 10 x 1).toNat % 16)))

/-- VRSUM (R350): FP32 additions each rounded, in an order fixed for the version; integers exact as INT64. -/
def vrsum (fmt : Nat) (l : List Nat) : Nat × Nat :=
  match elemOf fmt false with
  | .int w => (unsgn 64 (l.foldl (fun a x => a + sgn w x) 0), 0)
  | .flt f => match byOrder l with
    | [] => (0, 0)
    | x :: t => accum x (t.map (fun y => (fdec f y, 0)))
/-- VRMAX: the maximum of the lanes. -/
def vrmax (fmt : Nat) (l : List Nat) : Nat × Nat :=
  match l with
  | [] => (0, 0)
  | x :: t => match elemOf fmt false with
    | .int w => (unsgn 64 (t.foldl (fun a y => max a (sgn w y)) (sgn w x)), 0)
    | .flt f => fput f (t.foldl (fun a y => fmax a (fdec f y)) (fdec f x))
/-- A reduction of the lanes of v[A] into s[D]. -/
def reduce (i : FV) (f : Nat → List Nat → Nat × Nat) (s : State) : Host.Outcome State Fault Refusal :=
  issueWhole i (sumFmt i.fmt && decide (i.a < 16)) s fun s slot c =>
    let (v, fl) := f i.fmt (lanes i.fmt (vReg c i.a))
    retire s i.core slot (orFlags (setS c i.d v) fl)
def execScVrsum (i : FV) (s : State) : Host.Outcome State Fault Refusal := reduce i vrsum s
def execScVrmax (i : FV) (s : State) : Host.Outcome State Fault Refusal := reduce i vrmax s

def execScVbcast (i : FV) (s : State) : Host.Outcome State Fault Refusal :=
  issueLanes i (laneFmt i.fmt && decide (i.d < 16)) s fun s slot c =>
    putLanes s slot c i i.fmt ((lanes i.fmt (vReg c i.d)).map (fun _ => (sReg c i.a % 2 ^ codeW i.fmt, 0)))
/-- VEXT: a lane that does not exist gives a free value of the operands (log entry 3). -/
def execScVext (i : FV) (s : State) : Host.Outcome State Fault Refusal :=
  issueWhole i (laneFmt i.fmt && decide (i.a < 16)) s fun s slot c =>
    match (lanes i.fmt (vReg c i.a))[sReg c i.b]? with
    | some v => retire s i.core slot (setS c i.d v)
    | none => retire s i.core slot (setS c i.d (Config.freeOf 11 (vReg c i.a).toNat (sReg c i.b)).toNat)
/-- VINS: where the lane named does not exist, the lane written, or none, is a free value of the operands (log entry 3). -/
def execScVins (i : FV) (s : State) : Host.Outcome State Fault Refusal :=
  issueLanes i (laneFmt i.fmt && decide (i.d < 16)) s fun s slot c =>
    let l := lanes i.fmt (vReg c i.d)
    let n := sReg c i.b
    let at_ := if n < l.length then n else (Config.freeOf 12 (vReg c i.d).toNat n).toNat % (l.length + 1)
    putLanes s slot c i i.fmt (l.mapIdx (fun k x => (if k = at_ then sReg c i.a % 2 ^ codeW i.fmt else x, 0)))

/-- A compare by lanes: bit i of p[D]; masked bits and bits beyond the lanes keep their value. -/
def laneCmp (i : FV) (ff : Fv → Fv → Bool) (fi : Int → Int → Bool) (s : State) : Host.Outcome State Fault Refusal :=
  issueLanes i (laneFmt i.fmt && decide (i.d < 8) && decide (i.a < 16) && decide (i.b < 16)) s fun s slot c =>
    let xs := (lanes i.fmt (vReg c i.a)).zip (lanes i.fmt (vReg c i.b))
    let bits := xs.map (fun (x : Nat × Nat) => match elemOf i.fmt false with
      | .flt f => ff (fdec f x.1) (fdec f x.2)
      | .int w => fi (sgn w x.1) (sgn w x.2))
    let old := pReg c i.d
    let v := sumBy (fun k => put (b2n (match bits[k]? with
      | some b => if laneOn c i.pg i.pn k then b else bitOf old k
      | none => bitOf old k)) k) (upTo 64)
    retire s i.core slot (setP c i.d (BitVec.ofNat 64 v))
def execScVclt (i : FV) (s : State) : Host.Outcome State Fault Refusal := laneCmp i fltv (fun a b => decide (a < b)) s
def execScVceq (i : FV) (s : State) : Host.Outcome State Fault Refusal := laneCmp i feqv (fun a b => decide (a = b)) s

/-- VCVT (R349). -/
def execScVcvt (i : FV) (s : State) : Host.Outcome State Fault Refusal :=
  let sf := i.b
  issueLanes i (laneFmt i.fmt && decide (sf < 16) && laneFmt sf && decide (i.d < 16) && decide (i.a < 16)) s fun s slot c =>
    let ws := codeW sf
    let wd := codeW i.fmt
    let n := 512 / max ws wd
    let r := (unpackE ws n (vReg c i.a).toNat).map (econv (elemOf sf false) (elemOf i.fmt false))
    let old := unpackE wd n (vReg c i.d).toNat
    retire s i.core slot
      (orFlags (setV c i.d (fromLanes wd (maskLanes c i old (r.map (fun (x : Nat × Nat) => x.1))))) (laneFlags c i r))

/-- TMMA (R257, R351–R354): `split` 0, or 2 or 3 pieces. -/
def tmma (i : FV) (split : Nat) (s : State) : Host.Outcome State Fault Refusal :=
  issueWhole i (decide (i.d < 4) && decide (i.a < 4) && decide (i.b < 4)) s fun s slot c =>
    let tag := tileTag c i.a
    if tag ≠ tileTag c i.b ∨ tileTag c i.d ≠ (if isInt tag then 8 else 0) ∨ i.d = i.a ∨ i.d = i.b ∨ (split ≠ 0 ∧ tag ≠ 0) then
      skipAt s i.core slot scTile
    else
      let k := tileK tag
      let ea := tileElems tag (tReg c i.a)
      let eb := tileElems tag (tReg c i.b)
      let acc := unpackE 32 256 (tReg c i.d).toNat
      let r := acc.mapIdx (fun n x =>
        tmmaElem tag (tileMxv c i.a) (tileMxv c i.b) split x ((ea.drop (n / 16 * k)).take k) ((eb.drop (n % 16 * k)).take k))
      retire s i.core slot
        (orFlags (setT c i.d (BitVec.ofNat 8192 (packE 32 (r.map (fun (x : Nat × Nat) => x.1))))) (flagsOf r))
def execScTmma (i : FV) (s : State) : Host.Outcome State Fault Refusal := tmma i 0 s
def execScTmmaS2 (i : FV) (s : State) : Host.Outcome State Fault Refusal := tmma i 2 s
def execScTmmaS3 (i : FV) (s : State) : Host.Outcome State Fault Refusal := tmma i 3 s

end Sys2Proof.Machine
end

