-- ==== Sys2Proof/Machine/ScSys.lean ====
section
/-! DEFINITION. Sluice core instructions that reach outside the core: pushes, generators, transfers, flags, agent tasks; what ends their
stalls (R258–R269, R519). -/

namespace Sys2Proof.Machine

/-- The push buffer of a Root core has space (R261). -/
def bufRoom (s : State) (core : Nat) : Bool :=
  decide ((s.pushes.filter (fun p => p.src == 2 && p.core == core)).length < 16)
/-- Space can be reserved on a lane for a QPUSH (R261). A HOLD or a COMMIT goes to the Basin. -/
def laneRoom (s : State) (eq : Nat) (be : Bool) (m : W512) : Bool :=
  forBasin { eq := eq, launch := 0, mop := m }
    || decide (laneUsed s eq be + (s.pushes.filter (fun p => p.src == 2 && p.eq == eq && p.be == be && !forBasin p)).length < Config.laneCredits)

/-- A macro-op is outstanding or waits to be pushed. -/
def mopLive (s : State) (eq tag : Nat) : Bool :=
  s.launches.any (fun x => x.2.outs.any (fun o => o.eq == eq && o.tag == tag)) || s.pushes.any (fun p => p.eq == eq && p.tag == tag)

/-- The push of a Root core enters its push buffer (R261, R263). -/
def rootPush (s : State) (core slot : Nat) (c : Ctx) (eq : Nat) (m : W512) (chained : Bool) : State :=
  let t := freeTag s eq 1024 s.sched.nextTag
  let s := retire s core slot { c with pend := c.pend + 1, lastPush := some (eq, t), lastBad := false }
  let p : Push := { eq := eq, launch := c.launch, mop := m, src := 2, be := c.be, node := c.node + 1, core := core }
  pumpPushes (match (if chained then c.lastPush else none) with
    | none => queuePush s p
    | some (pq, pt) =>
      if mopLive s pq pt then
        queuePush s { p with
          chained := true, predEq := pq, predTag := pt, waitPred := decide (pq / 16 ≠ eq / 16) }
      else if c.lastBad then
        let p := { p with tag := t }
        let s := modSched s fun k => { k with nextTag := (t + 1) % 2 ^ 15 }
        rootSkip 16 { s with pushes := s.pushes ++ [p] } p 0x0B eChainBroken
      else queuePush s p)

/-- R262: the target of a push is refused. -/
def pushBad (s : State) (core : Nat) (c : Ctx) (target : Nat) : Bool :=
  let eq := target % 1024
  decide (1024 ≤ target) || (if 0x300 ≤ core then
      !eqReach s eq || (match kget s.launches c.launch with
        | none => true
        | some l => decide (chargeOn (vectorOf s c.launch l) eq = 0))
    else decide (eq / 16 ≠ core - 0x200) || !(eqPresent s (eq / 16)).testBit (eq % 16) || !chargedAt c (eq % 16))

/-- A push skipped with cause QUEUE (R262): its completion flag is poisoned, and it counts as a skipped macro-op of the node: of
an agent task's, when its TASK_END comes. -/
def queueSkip (s : State) (core slot : Nat) (c : Ctx) (m : W512) : State :=
  let s := modCtx (skipAt s core slot scQueue) core slot fun c => { c with pushBad := true }
  let addSkip := fun (s : State) => modAgent s (core - 0x200) fun g => { g with pushSkips := insertNat g.pushSkips slot }
  if 0x300 ≤ core then
    let s := if cflagLive m then
        queueSigs s [{ src := 100, part := c.part, handle := mCflag m, op := 4, x := 0, launch := c.launch }] else s
    failNode s c.launch c.node eScIllegal false
  else if cflagLive m then sendSignal (addSkip s) (core - 0x200) none (mCflag m) 4 0 c.launch else addSkip s

/-- QPUSH 0, QPUSHC 1, QTRY 2 with its predicate (R261–R263, R265). At an agent core a push waits for the context's earlier FSIGs to be
applied (R264). -/
def tryPush (s : State) (core slot : Nat) (c : Ctx) (target : Nat) (m : W512) (mode d : Nat) : State :=
  let eq := target % 1024
  let hold := fun (_ : Unit) => setCtx s core slot { c with stall := some (if mode = 2 then .qtry target m d else .qpush target m (mode == 1)) }
  let ok := if mode = 2 then setPAll c d true else c
  if pushBad s core c target then queueSkip s core slot c m
  else if 0x300 ≤ core then
    if ¬ bufRoom s core then hold ()
    else if laneRoom s eq c.be m then rootPush s core slot ok eq m (mode == 1)
    else if mode = 2 then retire s core slot (setPAll c d false)
    else hold ()
  else if c.unapplied ≠ 0 then hold ()
  else if localRoom s (core - 0x200) (eq % 16) c.be then
    localEnter (retire s core slot ok) (core - 0x200) slot (eq % 16) m (mode == 1)
  else if mode = 2 then retire s core slot (setPAll c d false)
  else hold ()

def execScQpush (i : FR) (s : State) : Host.Outcome State Fault Refusal :=
  issueR i (decide (i.a < 16)) s fun s slot c => tryPush s i.core slot c (sReg c i.b) (vReg c i.a) 0 0
def execScQpushc (i : FR) (s : State) : Host.Outcome State Fault Refusal :=
  issueR i (decide (i.a < 16)) s fun s slot c => tryPush s i.core slot c (sReg c i.b) (vReg c i.a) 1 0
def execScQtry (i : FR) (s : State) : Host.Outcome State Fault Refusal :=
  issueR i (decide (i.a < 16) && decide (i.d < 8)) s fun s slot c => tryPush s i.core slot c (sReg c i.b) (vReg c i.a) 2 i.d

/-- QDRAIN (R263, R265). -/
def tryDrain (s : State) (core slot : Nat) (c : Ctx) (d : Nat) : State :=
  if c.pend = 0 then retire s core slot (setPAll c d (!c.pushBad)) else setCtx s core slot { c with stall := some (.qdrain d) }
def execScQdrain (i : FR) (s : State) : Host.Outcome State Fault Refusal :=
  issueR i (decide (i.d < 8)) s fun s slot c => tryDrain s i.core slot c i.d

/-- ASET (R258, R259). -/
def execScAset (i : FR) (s : State) : Host.Outcome State Fault Refusal :=
  issueR i (decide (i.d < 4)) s fun s slot c =>
    let a := sReg c i.a
    if a % 64 ≠ 0 ∨ c.nslices * 16384 < a + 48 then skipAt s i.core slot scDmem
    else
      let (s, cause, x) := dmFetch s i.core c a 48
      let d := BitVec.ofNat 384 x
      if cause ≠ 0 then skipAt s i.core slot cause
      else if gBad d then modCtx (skipAt s i.core slot scStream) i.core slot fun c => setG c i.d {}
      else retire s i.core slot (setG c i.d { active := true, desc := d, descOff := a })
/-- ANEXT (R259): all ones once the stream is exhausted; of an inactive generator a free value (log entry 3). -/
def execScAnext (i : FR) (s : State) : Host.Outcome State Fault Refusal :=
  issueR i (decide (i.b < 4)) s fun s slot c =>
    let g := gReg c i.b
    if ¬ g.active then
      let (w, c) := ctxFree 13 i.core c
      retire s i.core slot (setS c i.d w.toNat)
    else if g.ended then retire s i.core slot (setS c i.d (2 ^ 64 - 1))
    else retire s i.core slot (setG (setS c i.d (gAddr g.desc (gBase g.desc) g.idx)) i.b (gStep g 1))
def execScArst (i : FR) (s : State) : Host.Outcome State Fault Refusal :=
  issueR i (decide (i.d < 4)) s fun s slot c => retire s i.core slot (setG c i.d {})

/-- An instruction open to Root cores only (R249, R269). -/
def issueRoot (i : FR) (enc : Bool) (s : State) (k : State → Nat → Ctx → State) : Host.Outcome State Fault Refusal :=
  issueR i enc s fun s slot c => if 0x300 ≤ i.core then k s slot c else skipAt s i.core slot scRole

/-- Pieces of a transfer, one after the other in data memory. -/
def layPieces : Nat → List Nat → Nat → List (Nat × Nat × Nat)
  | _, [], _ => []
  | dm, a :: t, n => (dm, a / 64 * 64, n) :: layPieces (dm + n) t n

/-- The n addresses that a generator gives next. -/
def nextAddrs (g : Gen) (n : Nat) : List Nat := (upTo n).map (fun k => gAddr g.desc (gBase g.desc) (gStep g k).idx)

/-- Checks and pieces of a transfer (R255, R259): XLD 0, XST 1, XLDS 2, XSTS 3. Cause, pieces, the generator afterwards. -/
def xferPlan (c : Ctx) (op : Nat) (i : FR) : Nat × List (Nat × Nat × Nat) × Option Gen :=
  let dm := sReg c i.d
  let fits := fun (n : Nat) => decide (dm + n ≤ c.nslices * 16384)
  if op < 2 then
    let m := sReg c i.a
    let n := sReg c i.b
    if n = 0 ∨ n % 64 ≠ 0 ∨ 4096 < n ∨ dm % 64 ≠ 0 ∨ nbits m 2 4 ≠ 0 ∨ (op = 1 ∧ ¬ m.testBit 1) then (scXfer, [], none)
    else if ¬ fits n then (scDmem, [], none)
    else (0, [(dm, m / 64 * 64, n)], none)
  else
    let g := gReg c i.a
    let n := sReg c i.b
    let r := gRec g.desc
    if ¬ g.active then (scStream, [], none)
    else if ¬ gMemOk g.desc ∨ r % 64 ≠ 0 then (scStream, [], some {})
    else if n = 0 ∨ 4096 < n * r ∨ dm % 64 ≠ 0 ∨ (op = 3 ∧ ¬ (gBase g.desc).testBit 1) then (scXfer, [], none)
    else if gLeft g < n then (scStream, [], none)
    else if ¬ fits (n * r) then (scDmem, [], none)
    else (0, layPieces dm (nextAddrs g n) r, some (gStep g n))

/-- Start a transfer, or stall while 4 are outstanding (R265). -/
def tryXfer (s : State) (core slot : Nat) (c : Ctx) (op : Nat) (i : FR) : State :=
  let (cause, ps, g) := xferPlan c op i
  let c' := match g with
    | some g => setG c i.a g
    | none => c
  if cause ≠ 0 then modCtx (skipAt s core slot cause) core slot fun x => { x with g := c'.g }
  else if 4 ≤ c.xfers.length then setCtx s core slot { c with stall := some (.xfer op i) }
  else
    let tag := s.port.nextTxn
    let load := op % 2 == 0
    let start := fun (s : State) => retire { s with port := { s.port with nextTxn := s.port.nextTxn + 1 } } core slot
      { c' with xfers := c.xfers ++ [{ tag := tag, pc := c.pc, load := load, pieces := ps }] }
    if load then ps.foldl (fun s (p : Nat × Nat × Nat) => mgrRead s c.part p.2.1 p.2.2 (.xfer core tag)) (start s)
    else
      let (s, bad) := ps.foldl (fun (x : State × Bool) (p : Nat × Nat × Nat) =>
        let (s, cause, _) := dmFetch x.1 core c p.1 p.2.2
        (s, x.2 || cause != 0)) (s, false)
      if bad then skipAt s core slot scEcc
      else ps.foldl (fun s (p : Nat × Nat × Nat) =>
        (mgrWrite s c.part p.2.1 p.2.2 (dmBytes (getCore s core) c p.1 p.2.2) (.xfer core tag)).2) (start s)

def execScXld (i : FR) (s : State) : Host.Outcome State Fault Refusal := issueRoot i true s fun s slot c => tryXfer s i.core slot c 0 i
def execScXst (i : FR) (s : State) : Host.Outcome State Fault Refusal := issueRoot i true s fun s slot c => tryXfer s i.core slot c 1 i
def execScXlds (i : FR) (s : State) : Host.Outcome State Fault Refusal :=
  issueRoot i (decide (i.a < 4)) s fun s slot c => tryXfer s i.core slot c 2 i
def execScXsts (i : FR) (s : State) : Host.Outcome State Fault Refusal :=
  issueRoot i (decide (i.a < 4)) s fun s slot c => tryXfer s i.core slot c 3 i
def execScXwait (i : FR) (s : State) : Host.Outcome State Fault Refusal :=
  issueRoot i true s fun s slot c =>
    if c.xfers.isEmpty then retire s i.core slot c else setCtx s i.core slot { c with stall := some .xwait }

/-- HREL has its entry (R255). -/
def hrelDone (s : State) (core slot : Nat) (c : Ctx) (d : Nat) (e : BitVec 128) : State :=
  if hValid e ∧ hKind e < 7 then retire s core slot (setS c d (hrel e 0).toNat) else skipAt s core slot scHandle
/-- HREL (R142–R145, R255). -/
def execScHrel (i : FR) (s : State) : Host.Outcome State Fault Refusal :=
  issueRoot i true s fun s slot c =>
    let h := sReg c i.a % 2 ^ 32
    if ¬ bufHandleOk h ∨ ¬ hInTable s c.part h then skipAt s i.core slot scHandle
    else match cacheLookup s c.part h with
      | some e =>
        hrelDone (hHit s c.part h) i.core slot c i.d e
      | none =>
        let r := hMiss s c.part h
        setCtx r.2 i.core slot { c with stall := some (.hrel i.d r.1) }

/-- Steps 2 and 3 of R271: once no transfer is outstanding, the slot's header, registers and CSRs are written. -/
def saveWrites (s : State) (slot : Nat) : State :=
  match kget s.ctxs slot with
  | none => s
  | some c =>
    if c.st ≠ .saving ∨ ¬ c.xfers.isEmpty then s
    else
      let (img, s) := saveImage s c.core slot c
      (mgrWrite s Config.fnManager (slotAddr s slot) 6144 img (.save slot)).2

/-- A transfer of the context on a core ends (R255): its last response, or a fault, at the address given or that of the
transfer, which makes it a skipped instruction. -/
def xferEnd (s : State) (core tag : Nat) (ok : Bool) (data : List Byte) (fault : Option Nat) : State :=
  match running s core with
  | none => s
  | some (slot, c) => match c.xfers.find? (fun x => x.tag == tag) with
    | none => s
    | some x =>
      let bytes := bytesToNat data
      let s := if x.load then
          modCore (readDone s (.xfer core tag)) core fun k => (x.pieces.foldl (fun (r : Core × Nat) (p : Nat × Nat × Nat) =>
            (dmPut r.1 c p.1 (if ok then nbits bytes (8 * r.2) (8 * p.2.2) else 0) p.2.2, r.2 + p.2.2)) (k, 0)).1
        else
          let mine := s.port.writes.filter (fun w => w.kind == WrKind.xfer core tag)
          mine.foldl (fun s w => vecsRelease (mgrDone s w.txn) w.txn) s
      let s := if ok then s
        else noteSkip (raiseOn s (if x.load then eHostReadFault else eHostWriteFault) (ctxPart slot c) none
            [(.addr, fault.getD (((x.pieces.head?).map (·.2.1)).getD 0)), (.core, core), (.launch, c.launch % 2 ^ 32)]) core slot scXfer x.pc
      let s := modCtx s core slot fun c => { c with xfers := c.xfers.filter (fun y => y.tag != tag) }
      if core < 0x300 then s else saveWrites s slot
/-- TRANSFER_DONE. -/
def execTransferDone (core tag : Nat) (ok : Bool) (data : List Byte) (s : State) : Host.Outcome State Fault Refusal :=
  liveRoot s fun s => if 0x300 ≤ core ∧ coreOk core then xferEnd s core tag ok data none else s

/-- A flag handle that an instruction of a core may name (R266, R267). -/
def coreFlagOk (s : State) (core : Nat) (c : Ctx) (h : Nat) (agent1 : Bool) : Bool :=
  flagHandleOk h && decide (h ≠ 0) && (if h / 2 ^ 30 = 0 then flagInRange s c.part h
    else decide (h / 2 ^ 30 = 1) && (decide (0x300 ≤ core) || agent1))

/-- SPIN waits on its flag (R170, R266): at a Root core at the Weir, at an agent in the mirror. -/
def startSpin (s : State) (core slot : Nat) (c : Ctx) (d h cmp crest : Nat) : State :=
  let hold := fun (_ : Unit) => setCtx s core slot { c with stall := some (.spinHold d h cmp crest) }
  let wait := fun (s : State) (out : Option Nat) => setCtx s core slot { c with stall := some (.spin d h cmp crest out) }
  if 0x300 ≤ core then
    if h / 2 ^ 30 = 0 then wait s (spinOut (flagWord s h) cmp crest)
    else
      let key := memKey c.part h
      match kget s.weir.mem key with
      | some m => wait s (if m.bad then some 1 else match m.word, m.writing with
          | some w, false => spinOut w cmp crest
          | _, _ => none)
      | none => if memRoom s key then wait (memEnsure s key (flagAddr s c.part h 0)) none else hold ()
  else
    let a := core - 0x200
    let m := (getAgent s a).mirror
    match kget m h with
    | some x => wait (mirrorAdd s a c.launch h) (x.word.bind (fun w => spinOut w cmp crest))
    | none => if m.length < 1024 then wait (mirrorAdd s a c.launch h) none else hold ()

/-- A SPIN of a Root core on a denied flag is released with poison status (R158, R171). -/
def spinDenied (s : State) (core slot : Nat) (c : Ctx) (d h cmp crest : Nat) : State :=
  let s := wstatSet (werr (raiseOn s eFlagDenied (ctxPart slot c) none [(.launch, c.launch % 2 ^ 32), (.handle, h)]) c.part eFlagDenied c.launch h (flagAddr s c.part h 0) 0xC core 0 0)
    c.part 4
  setCtx s core slot { c with stall := some (.spin d h cmp crest (some 1)) }

/-- A SPIN leaves its flag. -/
def spinLeave (s : State) (core : Nat) (c : Ctx) (h : Nat) (held : Bool) : State :=
  if held then s
  else if 0x300 ≤ core then (if h / 2 ^ 30 = 1 then memRelease s (memKey c.part h) else s)
  else mirrorDrop s (core - 0x200) c.launch h

/-- A SPIN retires with an outcome (R171, R266, R519): 0 met, 1 poison, 2 timeout. -/
def spinEnd (s : State) (core slot : Nat) (c : Ctx) (d h out : Nat) (held : Bool) : State :=
  let (w, s) := takeFree s
  let s := retire s core slot { setPAll c d (decide (out = 0)) with spin := out, spinLeft := if out = 2 then 0 else w.toNat % 2 ^ 20 }
  let s := spinLeave s core c h held
  if out = 0 then s
  else if 0x300 ≤ core then
    if out = 2 then
      let s := raiseOn s eWaitTimeout (ctxPart slot c) none [(.launch, c.launch % 2 ^ 32), (.handle, h), (.addr, flagAddr s c.part h 0)]
      let s := werr s c.part eWaitTimeout c.launch h (flagAddr s c.part h 0) 0xC core 0 0
      modWeir (wstatSet s c.part 0) fun w => { w with tmos := satN 32 (w.tmos + 1) }
    else wstatSet s c.part 1
  else sendUp s (core - 0x200) (.ctxXfer 5 slot c.launch 0 (natToBytes (h + put out 32) 8))

/-- SPIN (R266). Of one that a save interrupted, a word from outside says whether its time has run out meanwhile (log entry 3): it then
ends at once in timeout. -/
def execScSpin (i : FR) (s : State) : Host.Outcome State Fault Refusal :=
  issueR i (decide (i.d < 8)) s fun s slot c =>
    let x := sReg c i.a
    let h := x % 2 ^ 32
    if ¬ coreFlagOk s i.core c h true ∨ 5 < nbits x 32 3 ∨ nbits x 35 9 ≠ 0 then skipAt s i.core slot scFlag
    else if 0x300 ≤ i.core ∧ h / 2 ^ 30 = 1 ∧ ¬ dflagOk s c.part h then spinDenied s i.core slot c i.d h (nbits x 32 3) (sReg c i.b % 2 ^ 62)
    else if c.spinCut then
      let (w, s) := takeFree s
      if bitOf w 0 then spinEnd s i.core slot c i.d h 2 true else startSpin s i.core slot c i.d h (nbits x 32 3) (sReg c i.b % 2 ^ 62)
    else startSpin s i.core slot c i.d h (nbits x 32 3) (sReg c i.b % 2 ^ 62)

/-- The clock of a Root core's SPIN does not run while the owner of its flag is pre-empted (R167, R181). -/
def spinPaused (s : State) (core : Nat) (c : Ctx) (h : Nat) : Bool := decide (0x300 ≤ core) && ownerPreempted s c.part h

/-- SPIN_OUTCOME: met and poison where the flag's word has given them, timeout before that. -/
def execSpinOutcome (core outcome : Nat) (s : State) : Host.Outcome State Fault Refusal :=
  liveCore s core fun s =>
    if ¬ coreOk core then s else
    match running s core with
    | none => s
    | some (slot, c) =>
      if c.st ≠ .running then s else
      match c.stall with
      | some (.spin d h _ _ out) =>
        if (outcome = 2 ∧ out = none ∧ ¬ spinPaused s core c h) ∨ out = some outcome then spinEnd s core slot c d h outcome false else s
      | some (.spinHold d h _ _) => if outcome = 2 ∧ ¬ spinPaused s core c h then spinEnd s core slot c d h 2 true else s
      | _ => s

/-- RUNAWAY (R254): a period's length of running time without END. -/
def execRunaway (core : Nat) (s : State) : Host.Outcome State Fault Refusal :=
  liveCore s core fun s =>
    if ¬ coreOk core ∨ core = 0x307 then s else
    match running s core with
    | none => s
    | some (slot, c) =>
      if c.st ≠ .running then s else
      match c.stall with
      | some (.end_ cause) => if cause = 0 then endSkip s core slot scRunaway else s
      | some (.spin _ h _ _ _) => spinLeave (endSkip s core slot scRunaway) core c h false
      | _ => endSkip s core slot scRunaway

/-- FSIG (R267). -/
def execScFsig (i : FR) (s : State) : Host.Outcome State Fault Refusal :=
  issueR i true s fun s slot c =>
    let x := sReg c i.a
    let h := x % 2 ^ 32
    if ¬ coreFlagOk s i.core c h false then skipAt s i.core slot scFlag
    else if 0x300 ≤ i.core then
      queueSigs (retire s i.core slot { c with unapplied := c.unapplied + 1 })
        [{ src := i.core - 0x300 + 200, part := c.part, handle := h, op := nbits x 32 2, x := sReg c i.b % 2 ^ 62, launch := c.launch
           ctx := some slot }]
    else sendSignal (retire s i.core slot { c with unapplied := c.unapplied + 1 }) (i.core - 0x200) (some slot) h (nbits x 32 2)
      (sReg c i.b % 2 ^ 62) c.launch

/-- An atomic operation on an on-chip flag (R267): it follows the context's earlier operations on the flag. `f` gives the resulting
word and whether it clamped, where the operation is applied. -/
def atomicFlag (i : FR) (s : State) (f : Ctx → W64 → Option (W64 × Bool)) : Host.Outcome State Fault Refusal :=
  issueRoot i true s fun s slot c =>
    let h := sReg c i.a % 2 ^ 32
    if h / 2 ^ 30 ≠ 0 ∨ ¬ coreFlagOk s i.core c h false then skipAt s i.core slot scFlag
    else if s.weir.sigq.any (fun g => g.ctx == some slot && g.handle == h) then s
    else
      let old := flagWord s h
      let t := retire s i.core slot (setS c i.d old.toNat)
      match f c old with
      | none => t
      | some (w, cl) =>
        let t := setFlag t h w
        evalFlag (if cl then clampEvent t { src := i.core - 0x300 + 200, part := c.part, handle := h, op := 0, x := 0, launch := c.launch } else t) c.part h w
def execScFxadd (i : FR) (s : State) : Host.Outcome State Fault Refusal :=
  atomicFlag i s fun c w => some (sigResult w 0 (sReg c i.b % 2 ^ 62))
def execScFcas (i : FR) (s : State) : Host.Outcome State Fault Refusal :=
  atomicFlag i s fun c w =>
    if bitOf w 63 = false ∧ fld w 0 62 = sReg c i.d % 2 ^ 62 then
      some (BitVec.ofNat 64 (sReg c i.b % 2 ^ 62 + put (b2n (bitOf w 62)) 62), false)
    else none

/-- FRD reads its flag (R267): at a Root core from the Weir, which may have to read memory; at an agent from the mirror, a free value
where the mirror does not hold the flag (log entry 3). -/
def tryFrd (s : State) (core slot : Nat) (c : Ctx) (d h : Nat) : State :=
  let got := fun (s : State) (w : Nat) => retire s core slot (setS c d w)
  if 0x300 ≤ core then
    if h / 2 ^ 30 = 0 then got s (flagWord s h).toNat
    else
      let key := memKey c.part h
      match kget s.weir.mem key with
      | some m => match m.word, m.writing with
        | some w, false => memRelease (got s w.toNat) key
        | _, _ => if m.bad then memRelease (got s (2 ^ 63)) key else setCtx s core slot { c with stall := some (.frd d h) }
      | none =>
        let s := setCtx s core slot { c with stall := some (.frd d h) }
        if memRoom s key then memEnsure s key (flagAddr s c.part h 0) else s
  else match (kget (getAgent s (core - 0x200)).mirror h).bind (·.word) with
    | some w => got s w.toNat
    | none =>
      let (w, c) := ctxFree 14 core c
      retire s core slot (setS c d w.toNat)
def execScFrd (i : FR) (s : State) : Host.Outcome State Fault Refusal :=
  issueR i true s fun s slot c =>
    let h := sReg c i.a % 2 ^ 32
    let spaceBad : Bool := decide (h / 2 ^ 30 = 1) && !dflagOk s c.part h
    if ¬ coreFlagOk s i.core c h false ∨ spaceBad then skipAt s i.core slot scFlag
    else tryFrd s i.core slot c i.d h

/-- FENCE (R265). -/
def execScFence (i : FR) (s : State) : Host.Outcome State Fault Refusal :=
  issueR i true s fun s slot c =>
    if c.unapplied = 0 ∧ c.xfers.isEmpty then retire s i.core slot c else setCtx s i.core slot { c with stall := some .fence }

/-- ENTRIES of a bank's image (R276). -/
def bankEntries (b : Tbl W32) : Nat := fld (tget 0#32 b 1) 16 16
/-- The lowest free save slot. -/
def freeSlot (s : State) : Option Nat := (upTo s.save.slots).find? (fun k => !s.save.used.contains k)
/-- Take a save slot (R281). -/
def takeSlot (s : State) (k : Nat) : State :=
  let used := insertNat s.save.used k
  { s with save := { s.save with used := used, peak := max s.save.peak used.length } }

/-- TASK_START's content (R53). -/
def taskData (s : State) (c : Ctx) (a entry : Nat) (arg : W512) : List Byte :=
  let l := (kget s.launches c.launch).getD {}
  let v := vectorOf s c.launch l
  natToBytes (pack ([(512, arg.toNat), (8, entry), (8, b2n c.be), (8, c.part), (8, 0), (16, c.gen), (48, c.tick),
      (32, (getQueue s l.queue).defTmo)]
    ++ (upTo 16).flatMap (fun k =>
      let eq := a * 16 + k
      if chargeOn v eq = 0 then [(96, 0)]
      else [(32, if c.be then 0 else satN 32 (chargeOn v eq)), (32, if c.be then 0xFFFFFFFF else satN 32 (allowOf s eq)),
        (32, satN 32 (tget 0 l.used eq))]))) 272

/-- ACALL (R268): the task takes a save slot, or the context stalls (R265). -/
def tryAcall (s : State) (core slot : Nat) (c : Ctx) (a entry : Nat) (arg : W512) : State :=
  match freeSlot s with
  | none => setCtx s core slot { c with stall := some (.acall a entry arg) }
  | some k =>
    if 8 ≤ c.tasks.length then setCtx s core slot { c with stall := some (.acall a entry arg) }
    else
      let s := retire (takeSlot s k) core slot { c with tasks := c.tasks ++ [(a, k)] }
      sendDown s a (.ctxXfer 1 k c.launch 0 (taskData s c a entry arg))
def execScAcall (i : FR) (s : State) : Host.Outcome State Fault Refusal :=
  issueRoot i (decide (i.b < 16)) s fun s slot c =>
    let x := sReg c i.a
    let a := x % 64
    let entry := nbits x 8 8
    if nbits x 6 2 ≠ 0 ∨ x / 2 ^ 16 ≠ 0 ∨ s.par.numAgents ≤ a ∨ agtExcluded s a ∨ bankEntries (activeBank (getAgent s a).core) ≤ entry then
      skipAt s i.core slot scQueue
    else tryAcall s i.core slot c a entry (vReg c i.b)
def execScAwait (i : FR) (s : State) : Host.Outcome State Fault Refusal :=
  issueRoot i true s fun s slot c =>
    if c.tasks.isEmpty then retire s i.core slot c else setCtx s i.core slot { c with stall := some .await }

/-- The stalled instruction of a core is tried again, and retires where its condition has gone (R265). A SPIN ends by SPIN_OUTCOME. -/
def stallTry (s : State) (core : Nat) : State :=
  match running s core with
  | none => s
  | some (slot, c) =>
    if c.st ≠ .running then s else
    match c.stall with
    | none => s
    | some (.qpush t m ch) => tryPush s core slot c t m (b2n ch) 0
    | some (.qtry t m d) => tryPush s core slot c t m 2 d
    | some (.qdrain d) => tryDrain s core slot c d
    | some (.xfer op i) => tryXfer s core slot c op i
    | some .xwait => if c.xfers.isEmpty then retire s core slot c else s
    | some .fence => if c.unapplied = 0 ∧ c.xfers.isEmpty then retire s core slot c else s
    | some (.spin _ _ _ _ _) => s
    | some (.spinHold d h cm cr) => startSpin s core slot c d h cm cr
    | some (.acall a e x) => tryAcall s core slot c a e x
    | some .await => if c.tasks.isEmpty then retire s core slot c else s
    | some (.end_ _) => if endReady c then endRetire s core slot else s
    | some (.branch t l) => if branchHeld s core t then s else jump s core slot c t l
    | some (.hrel _ _) => s
    | some (.frd d h) => tryFrd s core slot c d h

/-- STALL_RELEASE (R265). -/
def execStallRelease (core : Nat) (s : State) : Host.Outcome State Fault Refusal :=
  liveCore s core fun s => if coreOk core then stallTry s core else s

end Sys2Proof.Machine
end

