-- ==== Sys2Proof/Machine/Tasks.lean ====
section
/-! DEFINITION. Agent tasks between the Root and an agent: start, save, restore, end (R53, R268–R272); fills of the handle cache
(R144, R145); mode changes and ticks at an agent (R28, R53, R55, R488). -/

namespace Sys2Proof.Machine

/-- The stall with which a context is saved: the stalled instruction issues again, but a skipped END stays one (R254, R265). -/
def savedStall (c : Ctx) : Option Stall :=
  match c.stall with
  | some (.end_ cause) => if cause = 0 then none else some (.end_ cause)
  | _ => none

/-- A SPIN of a context that is saved leaves its flag, and SC_SPIN keeps the time left, a word from outside (R266, log entry 3). -/
def spinSaved (s : State) (core slot : Nat) (c : Ctx) : State × Ctx :=
  match c.stall with
  | some (.spin _ h _ _ _) =>
    let (w, s) := takeFree s
    let c := { c with spinLeft := w.toNat % 2 ^ 20, stall := none, spinCut := true }
    (spinLeave (setCtx s core slot c) core c h false, c)
  | some (.spinHold _ _ _ _) =>
    let (w, s) := takeFree s
    (s, { c with spinLeft := w.toNat % 2 ^ 20, stall := none, spinCut := true })
  | _ => (s, { c with stall := savedStall c })

/-- What goes on before a pre-emption in the same cycle (R279): a SPIN met, a push that gains space, an END that may retire. -/
def preSave (s : State) (core : Nat) : State :=
  match running s core with
  | none => s
  | some (slot, c) => match c.stall with
    | some (.spin d h _ _ (some o)) => spinEnd s core slot c d h o false
    | some _ => stallTry s core
    | none => s

/-- Pieces of a task's slot image, in ascending offset (R53). -/
def imagePieces : List (Nat × Nat) :=
  [(0, 4096), (0x1000, 2048), (0x2000, 4096), (0x3000, 4096), (0x4000, 4096), (0x5000, 4096)]

/-- The running BE task of an agent is saved to its slot through CTX_XFER (R269, R271). -/
def agentSave (s : State) (a : Nat) : State :=
  let core := 0x200 + a
  let s := preSave s core
  match running s core with
  | none => s
  | some (slot, c) =>
    if ¬ c.be then s else
    let (s, c) := spinSaved s core slot c
    let data := dmBytes (getCore s core) c 0 16384
    let (img0, s) := saveImage s core slot { c with slices := [] }
    let img := img0 + put data (8 * 0x2000)
    let s := freeSlices s core slot
    let s := setCtx s core slot { c with slices := [], st := .saved }
    let s := modCore s core fun k => { k with run := none, st := 0, saves := satN 32 (k.saves + 1) }
    imagePieces.foldl (fun s p => sendUp s a (.ctxXfer 2 slot c.launch p.1 (natToBytes (nbits img (8 * p.1) (8 * p.2)) p.2))) s

/-- The context that the data of a TASK_START make (R53, R268); SC_NODE holds the caller's node. -/
def taskCtx (s : State) (a slot launch x : Nat) : Ctx :=
  { launch := launch, part := nbits x (8 * 66) 6, be := decide (nbits x (8 * 65) 8 ≠ 0), task := true, core := 0x200 + a, nslices := 1
    node := ((s.ctxs.find? (fun (y : Nat × Ctx) => y.2.tasks.contains (a, slot))).map (fun (y : Nat × Ctx) => y.2.node)).getD 0
    entry := nbits x (8 * 64) 8, gen := nbits x (8 * 68) 16, tick := nbits x (8 * 70) 48, deftmo := nbits x (8 * 76) 20
    charges := (upTo 16).map (fun k =>
      (nbits x (8 * (80 + 12 * k)) 32, nbits x (8 * (84 + 12 * k)) 32, nbits x (8 * (88 + 12 * k)) 32))
    arg := BitVec.ofNat 512 (nbits x 0 512) }

/-- TASK_START (R53, R269): the task is started or queued by its class; an LC task pre-empts a BE one. -/
def execTaskStart (a : Nat) (s : State) : Host.Outcome State Fault Refusal :=
  liveAgent s a fun s =>
    match downHead s a with
    | some (.ctxXfer 1 slot launch _ data) =>
      let s := takeDown s a
      let c := taskCtx s a slot launch (bytesToNat data)
      let s := modAgent s a fun g => { g with tasks := kput g.tasks slot c, arrivals := without g.arrivals slot ++ [slot] }
      agentNext (if c.be then s else agentSave s a) a
    | _ => s

/-- The Root sends a saved BE task back to its agent once no LC task runs there (R269). -/
def taskRestore (s : State) (a : Nat) : State :=
  if lcTaskOn s a then s else
  (s.save.saved.filter (fun (x : Nat × Nat × Nat) => x.2.1 == a)).foldl (fun s x =>
    let ps := tget [] s.save.pieces x.1
    let s := { s with
      save := { s.save with saved := s.save.saved.filter (fun y => y.1 != x.1), pieces := kdel s.save.pieces x.1 }
      port := { s.port with writes := s.port.writes.filter (fun w => w.kind != WrKind.save x.1) } }
    ps.foldl (fun s p => sendDown s a (.ctxXfer 3 x.1 x.2.2 p.1 p.2)) s) s

/-- SAVE_DATA at the Root (R53): a piece of a task's slot image is written to its slot. -/
def execSaveData (a : Nat) (s : State) : Host.Outcome State Fault Refusal :=
  liveRoot s fun s =>
    match upHead s a with
    | some (.ctxXfer 2 slot launch off data) =>
      let s := takeUp s a
      if ¬ s.ctxs.any (fun (y : Nat × Ctx) => y.2.tasks.contains (a, slot)) then s else
      let (_, s) := mgrWrite s Config.fnManager (slotAddr s slot + off) data.length (bytesToNat data) (.save slot)
      let ps := tget [] s.save.pieces slot ++ [(off, data)]
      let s := { s with save := { s.save with pieces := kput s.save.pieces slot ps } }
      if sumBy (fun (p : Nat × List Byte) => p.2.length) ps < 22528 then s
      else taskRestore { s with save := { s.save with saved := s.save.saved ++ [(slot, a, launch)] } } a
    | _ => s

/-- RESTORE_DATA at an agent (R53, R271): with its last piece the task is ready to run again. -/
def execRestoreData (a : Nat) (s : State) : Host.Outcome State Fault Refusal :=
  liveAgent s a fun s =>
    match downHead s a with
    | some (.ctxXfer 3 slot _ off data) =>
      let s := takeDown s a
      let ps := (getAgent s a).pieces ++ [(off, data)]
      if sumBy (fun (p : Nat × List Byte) => p.2.length) ps < 22528 then modAgent s a fun g => { g with pieces := ps }
      else
        let s := modAgent s a fun g => { g with pieces := [] }
        let img := ps.foldl (fun n (p : Nat × List Byte) => n + put (bytesToNat p.2) (8 * p.1)) 0
        match kget (getAgent s a).tasks slot, freeSlicesOf s (0x200 + a) with
        | some c, i :: _ =>
          let s := takeSlices s (0x200 + a) slot [i]
          let c := { c with slices := [i] }
          let s := modCore s (0x200 + a) fun k => dmPut k c 0 (nbits img (8 * 0x2000) (8 * 16384)) 16384
          let c := slotLoad img (getCore s (0x200 + a)) c
          agentNext (setCtx s (0x200 + a) slot { c with st := .held, ready := true }) a
        | _, _ => s
    | _ => s

/-- TASK_END (R53, R269, R356): the slot is freed, and the caller's AWAIT waits for one task less. A task that skipped a push fails its
node (R262). -/
def execTaskEnd (a : Nat) (s : State) : Host.Outcome State Fault Refusal :=
  liveRoot s fun s =>
    match upHead s a with
    | some (.ctxXfer 4 slot _ _ data) =>
      let s := takeUp s a
      let x := bytesToNat data
      let cause := nbits x 32 8
      match s.ctxs.find? (fun (y : Nat × Ctx) => y.2.tasks.contains (a, slot)) with
      | none => s
      | some (k, c) =>
        let s := setCtx s 0x300 k { c with tasks := c.tasks.filter (fun t => t != (a, slot)) }
        let s := { s with save := { s.save with used := without s.save.used slot } }
        let s := scSticky s c.part (nbits x 40 4)
        let s := if cause = 0 then s else modLaunch s c.launch fun l => { l with
          skipErr := if l.skipErr = 0 then (if cause = scEcc then eDmemEcc else eScIllegal) else l.skipErr }
        let failed := (getAgent s a).pushSkips.contains slot
        let s := modAgent s a fun g => { g with pushSkips := without g.pushSkips slot }
        let s := if failed then failNode s c.launch c.node eScIllegal false else s
        graphSettle (taskRestore s a) c.launch
    | _ => s

/-- A push whose entry has arrived goes on (R296, R385). -/
def fillPush (s : State) (p : Push) (ok : Bool) (entry : BitVec 128) : State :=
  let s := setPush s p { p with want := 0 }
  let p := { p with want := 0 }
  if isWalk p then (if ok then walkTry s p else walkSkip s p eHostReadFault)
  else if ok then
    match streamRel p.mop entry with
    | some m => setPush s p { p with mop := m }
    | none => rootSkip 16 s p 0x06 eMopIllegal
  else
    let l := getLaunch s p.launch
    rootSkip 16 (raiseOn s eHostReadFault (some l.part) none [(.launch, p.launch % 2 ^ 32)]) p 0x06 eMopIllegal

/-- The launches that wait for read `no` of a handle-table entry have it, and go on (R119, R145). -/
def fillLaunches (s : State) (no index : Nat) (ok : Bool) (entry : BitVec 128) : State :=
  (s.launches.filter (fun x => x.2.relWant.any (fun w => w.2 == no))).foldl (fun s x =>
    let s := modLaunch s x.1 fun l => { l with
      relWant := l.relWant.filter (fun w => w.2 != no)
      rel := if ok then l.rel ++ [(index, entry)] else l.rel
      relBad := if ok then l.relBad else l.relBad ++ [index] }
    if x.2.stage = .fragWait then fragTry s x.1
    else if x.2.stage = .reloc then relocQueue s x.2.queue
    else s) s

/-- The macro-ops pushed by a sluice core that wait for read `no` have it (R262). -/
def fillPushes (s : State) (no : Nat) (ok : Bool) (entry : BitVec 128) : State :=
  (s.pushes.filter (fun q => q.want == no + 1)).foldl (fun s q => if s.pushes.contains q then fillPush s q ok entry else s) s

/-- The Root cores whose HREL waits for read `no` go on: the instruction retires, or is skipped when the read met a fault (R45,
R255). -/
def fillCores (s : State) (no p index : Nat) (ok : Bool) (entry : BitVec 128) : State :=
  (s.ctxs.filter (fun (x : Nat × Ctx) => x.2.st == CtxSt.running && (match x.2.stall with
    | some (.hrel _ n) => n == no
    | _ => false))).foldl (fun s (x : Nat × Ctx) => match x.2.stall with
    | some (.hrel d _) =>
      if ok then hrelDone s x.2.core x.1 x.2 d entry
      else skipAt (raiseOn s eHostReadFault (some p) none [(.core, x.2.core), (.addr, (getPart s p).htabBase.toNat + 16 * index)])
        x.2.core x.1 scHandle
    | _ => s) s

/-- HANDLE_CACHE_FILL (R144, R145): the oldest read of a handle-table entry returns to everything that waits for it. An entry
that an invalidation has covered meanwhile is used and not cached. -/
def execHandleCacheFill (p index : Nat) (ok : Bool) (entry : BitVec 128) (s : State) : Host.Outcome State Fault Refusal :=
  liveRoot s fun s =>
    let key := p * 2 ^ 20 + index
    match s.hcache.filling.find? (fun f => f.key == key) with
    | none => s
    | some f =>
    let s := readDone { s with hcache := { s.hcache with filling := s.hcache.filling.erase f } } (.handle f.no)
    let s := if ok ∧ ¬ f.stale then cacheFill s p index entry else s
    pumpPushes (fillCores (fillPushes (fillLaunches s f.no index ok entry) f.no ok entry) f.no p index ok entry)

/-- COMMIT or ABORT reaches an agent (R488). After an abort the agent core goes on (R278). -/
def execModeCommitOrAbort (a : Nat) (s : State) : Host.Outcome State Fault Refusal :=
  liveAgent s a fun s => match downHead s a with
    | some (.modeStage sub _ num _ _) =>
      if sub = 1 then s else
      let s := takeDown s a
      let m := (getAgent s a).mode
      if ¬ m.staged ∨ m.number ≠ num then s
      else if sub = 2 then modAgent s a fun g => { g with mode := { g.mode with committed := true } }
      else agentNext (modAgent s a fun g => { g with mode := {}, core := { g.core with staged := false } }) a
    | _ => s

/-- The instant fixed for the TICK that arrives at an agent now (R53). -/
def tickInstant (g : Agent) (now : Nat) : Nat :=
  match g.tickAt with
  | none => now
  | some t => t + 10 * g.period

/-- A TICK arrives at an agent, at the instant `now` of its tref_clk count in ns (R28, R53, R55): the period opens; more than 50 ns
after the instant fixed for it, E_TICK_LATE. A staged change acts, and the agent core goes on (R278, R489). -/
def execTick (a now : Nat) (s : State) : Host.Outcome State Fault Refusal :=
  liveAgent s a fun s => match downHead s a with
    | some (.tick no period) =>
      let s := takeDown s a
      let at_ := tickInstant (getAgent s a) now
      let s := if at_ + 50 < now then raiseOn s eTickLate none (some a) [(.tick, no)] else s
      agentNext (modAgent s a fun g => agentSwitch { g with tickNo := no, period := period, tickAt := some at_ } no) a
    | _ => s

end Sys2Proof.Machine
end

