-- ==== Sys2Proof/Machine/Engine.lean ====
section
/-! DEFINITION. Commands of the engine queue managers: entry, presentation, manager classes, ends, stops, flushes, aborts, partial
records (R284–R314, R396, R397, R406, R418–R420). -/

namespace Sys2Proof.Machine

/-- MOP_PUSH (R284, R312): the macro-op enters its lane. -/
def execMopPush (a : Nat) (s : State) : Host.Outcome State Fault Refusal :=
  liveAgent s a fun s =>
    match downHead s a with
    | some (.mopPush p) =>
      let e : Ent := {
        be := p.be, tag := p.tag, launch := p.launch, part := p.part, maint := p.maint, chained := p.chained, predQ := p.predQ
        predTag := p.predTag, mop := p.mop, deftmo := p.deftmo }
      enterLane (takeDown s a) a (p.eq % 16) e true p.charge p.allow p.used0
    | _ => s

/-- LOCAL_PUSH (R261, R282, R284): a QPUSH of the agent's core that waited for a slot enters its lane. -/
def execLocalPush (a : Nat) (s : State) : Host.Outcome State Fault Refusal :=
  liveAgent s a fun s =>
    match running s (0x200 + a) with
    | some (_, c) => match c.stall with
      | some (.qpush _ _ _) => stallTry s (0x200 + a)
      | some (.qtry _ _ _) => stallTry s (0x200 + a)
      | _ => s
    | none => s

/-- PRESENT_MOP (R301, R418): the ready head of the LC lane, else that of the BE lane, goes to a free engine. A head of a manager
class leaves the engine to the other lane (R302). -/
def execPresentMop (a l : Nat) (s : State) : Host.Outcome State Fault Refusal :=
  liveAgent s a fun s =>
    let q := getEq s a l
    if q.pres.isSome ∨ bermShut s a l then s else
    let eng := fun (be : Bool) => (headOf q be).filter (fun e => headReady s a l be && mEngine e.mop)
    match (eng false).orElse (fun _ => eng true) with
    | none => s
    | some e => modEq s a l fun q => { putEnt q { e with st := .presented } with pres := some (e.be, e.seq) }

/-- A manager class completes (R302). -/
def mgrDoneEnt (s : State) (a l : Nat) (e : Ent) : State :=
  settleAgent (endEnt s a l e (0, 0, 0, mTiles e.mop, endFlags e false, 0) false) a

/-- The WAIT at a lane's head is armed (R303): it names its flag in the mirror, and is met or poisoned by the word held there. -/
def armWait (s : State) (a l : Nat) (e : Ent) : State :=
  let w := fld e.mop 128 128
  let h := wHandle w
  let m := (getAgent s a).mirror
  if (kget m h).isNone ∧ 1024 ≤ m.length then s
  else
    let out := ((kget m h).bind (·.word)).bind (fun x => spinOut x (wCompare w) (wCrest w))
    modEq (mirrorAdd s a e.launch h) a l fun q => { q with wait := some { be := e.be, seq := e.seq, out := out } }

/-- MANAGER_CLASS_HEAD (R302, R303). -/
def execManagerClassHead (a l : Nat) (be : Bool) (s : State) : Host.Outcome State Fault Refusal :=
  liveAgent s a fun s =>
    let q := getEq s a l
    match headOf q be with
    | none => s
    | some e =>
      if ¬ chainOpen e ∨ e.cause ≠ 0 ∨ e.st ≠ .queued then s else
      match mOpc e.mop with
      | 0x10 =>
        mgrDoneEnt (modEq s a l fun q => setGen q be { active := true, desc := mDesc e.mop } e.launch) a l e
      | 0x11 =>
        if wHandle (fld e.mop 128 128) = 0 then mgrDoneEnt s a l e
        else match q.wait with
          | none => armWait s a l e
          | some w => if w.be ∧ ¬ be ∧ w.out = none then armWait (disarm s a l) a l e else s
      | 0x12 => if barrierMet s a e then mgrDoneEnt s a l e else s
      | 0x13 => mgrDoneEnt s a l e
      | _ => s

/-- A WAIT ends in an outcome (R171): 0 met, 1 poison, 2 timeout. -/
def waitEnd (s : State) (a l : Nat) (e : Ent) (out : Nat) : State :=
  let h := wHandle (fld e.mop 128 128)
  if out = 0 then mgrDoneEnt s a l e
  else settleAgent (endEnt s a l e
    (1, if out = 1 then 9 else 0xA, if out = 1 then eWaitPoisoned else eWaitTimeout, mTiles e.mop, endFlags e false, h) false) a

/-- The WAIT at a lane's head that finds the mirror full (R172): its clock runs. A BE WAIT waits for an armed LC WAIT first, its clock
standing (R303). -/
def heldWait (s : State) (a l : Nat) (be : Bool) : Option Ent :=
  let q := getEq s a l
  let m := (getAgent s a).mirror
  if q.wait.isSome ∨ m.length < 1024 then none
  else (headOf q be).filter (fun e => let h := wHandle (fld e.mop 128 128)
    mOpc e.mop == 0x11 && chainOpen e && e.cause == 0 && h != 0 && (kget m h).isNone)

/-- MOP_WAIT_OUTCOME of a lane's WAIT (R171, R172, R182): met or poisoned as the flag's word has given it; timeout before that, also
while the WAIT finds the mirror full. -/
def execMopWaitOutcome (a l : Nat) (outcome : MopOutcome) (s : State) : Host.Outcome State Fault Refusal :=
  liveAgent s a fun s =>
    let q := getEq s a l
    match q.wait with
    | some w => match findEnt q w.be w.seq with
      | some e => if w.be = outcome.be ∧ (w.out = some outcome.out ∨ (w.out = none ∧ outcome.out = 2)) then waitEnd s a l e outcome.out else s
      | none => s
    | none => match heldWait s a l outcome.be with
      | some e => if outcome.out = 2 then waitEnd s a l e 2 else s
      | none => s

/-- BARRIER_SATISFIED (R302). -/
def execBarrierSatisfied (a l : Nat) (be : Bool) (s : State) : Host.Outcome State Fault Refusal :=
  liveAgent s a fun s =>
    match headOf (getEq s a l) be with
    | some e => if mOpc e.mop = 0x12 ∧ headReady s a l be then mgrDoneEnt s a l e else s
    | none => s

/-- The engine has run n tiles: the lane's stream has given their addresses (R295). -/
def tilesRun (s : State) (a l : Nat) (e : Ent) (n : Nat) : State :=
  if memEnds e.mop = 0 then s
  else modEq s a l fun q => setGen q e.be (gStep (laneGen q e.be) (n * memEnds e.mop)) (if e.be then q.genBeBy else q.genLcBy)

/-- Count what an engine reports on a macro-op (R304, R357). -/
def countRep (s : State) (a l : Nat) (e : Ent) (rep : EngRep) : State × Ent :=
  let e := { e with cycles := e.cycles + rep.cycles, ns10 := e.ns10 + rep.ns10, fflags := e.fflags ||| (rep.fflags % 16) }
  (modEq s a l fun q => { putEnt q e with
      recs := q.recs.map (fun (x : Nat × LRec) => if x.1 = e.launch then (x.1, { x.2 with used := x.2.used + rep.cycles }) else x) }, e)

/-- EQ_DONE (R286, R287, R305, R308, R397, R420). Where the stream stands after an engine fault is a free value (log entry 3). -/
def execEqDone (a l : Nat) (word : W64) (rep : EngRep) (s : State) : Host.Outcome State Fault Refusal :=
  liveAgent s a fun s =>
    match presEnt (getEq s a l) with
    | none => s
    | some e0 =>
      let res := if fld word 0 2 = 3 then 1 else fld word 0 2
      let fcode := if res = 1 then fld word 3 5 else 0
      let (s, e) := countRep s a l e0 rep
      let e := { e with bytes := fld word 32 32 * 64 }
      let left := mTiles e.mop - e.tstart
      let walk := mWalk e.mop && (fcode == 0x1C || fcode == 0x1D || fcode == 0x1E)
      let s := if res = 0 then tilesRun s a l e left
        else if res = 1 ∧ ¬ walk ∧ memEnds e.mop ≠ 0 then
          tilesRun s a l e ((Config.freeOf 20 (pack [(32, e.launch), (512, e.mop.toNat)]) word.toNat).toNat % (left + 1))
        else s
      let tiles := mTiles e.mop
      let fl := endFlags e false
      settleAgent (
        if e.cut then endEnt s a l e (2, fcode, eRetentionMiss, tiles, fl, 0) false
        else if res = 0 then
          let flush := mRel e.mop && !bitOf word 2
          endEnt s a l e (0, 0, 0, tiles, endFlags e flush, 0) flush
        else if res = 2 then endEnt s a l e (3, 0, 0, e.tstart, fl, 0) false
        else if walk then
          endEnt s a l { e with cycles := 0, ns10 := 0, bytes := 0, fflags := 0 }
            (1, if fcode = 0x1E then 0xC else 0xD, if fcode = 0x1E then eFmtMismatch else eAttnPage, tiles, fl, 0) false
        else endEnt s a l e (2, fcode, eMopEngine, tiles, fl, 0) false) a

/-- The COMPLETION of a pause (R304, R307, R309, R357): not final; the figures counted so far are reported and go on, the exception
flags start anew. -/
def sendPaused (s : State) (a l : Nat) (e : Ent) : State :=
  let s := sendUp s a (.completion {
    eq := a * 16 + l, tag := e.tag, launch := e.launch, status := 4, cause := 0, error := eOverrun, cycles := satN 32 e.cycles
    ns10 := satN 32 e.ns10, bytes := e.bytes % 2 ^ 64, tileAt := e.tstart, flags := endFlags e false, fflags := e.fflags % 16, whandle := 0 })
  modEq s a l fun q => { putEnt q { e with fflags := 0 } with
    recs := q.recs.map (fun (x : Nat × LRec) => if x.1 = e.launch then (x.1, { x.2 with paused := true }) else x) }

/-- EQ_PREEMPT_ACK (R286, R295, R309, R419): the engine stops at a tile boundary. Under kind 1 eq_done follows. -/
def execEqPreemptAck (a l tileAt : Nat) (rep : EngRep) (s : State) : Host.Outcome State Fault Refusal :=
  liveAgent s a fun s =>
    let q := getEq s a l
    match q.preempt, presEnt q with
    | some kind, some e0 =>
      let bnd := max e0.tstart (min tileAt (mTiles e0.mop))
      let s := tilesRun s a l e0 (bnd - e0.tstart)
      if kind = 1 then
        modEq s a l fun q => putEnt q { e0 with tstart := bnd, fflags := e0.fflags ||| (rep.fflags % 16) }
      else
        let (s, e) := countRep s a l { e0 with tstart := bnd, st := .stopped } rep
        let s := modEq s a l fun q => { q with
          pres := none, preempt := none, preemptLate := false, preempts := satN 32 (q.preempts + 1) }
        settleAgent (if q.stopFor = 0 then sendPaused s a l e else s) a
    | _, _ => s

/-- The oldest flush of a queue that is not acknowledged. -/
def flushing (q : EqQ) : Option Ent := q.done_.find? (fun e => e.st == EntSt.flushing)
def putDone (q : EqQ) (e : Ent) : EqQ := { q with done_ := q.done_.map (fun x => if x.seq = e.seq then e else x) }

/-- EQ_FLUSH_ACK (R305). -/
def execEqFlushAck (a l : Nat) (s : State) : Host.Outcome State Fault Refusal :=
  liveAgent s a fun s =>
    match flushing (getEq s a l) with
    | none => s
    | some e => settleAgent (drainDone 64 (modEq s a l fun q => putDone q { e with st := .ended }) a l) a

/-- FLUSH_LATE (R306): once for a flush. -/
def execFlushLate (a l : Nat) (s : State) : Host.Outcome State Fault Refusal :=
  liveAgent s a fun s =>
    match flushing (getEq s a l) with
    | none => s
    | some e => if e.late then s
      else raiseOn (modEq s a l fun q => putDone q { e with late := true }) eFlushLate (some e.part) (some a)
        [(.engineQueue, a * 16 + l), (.launch, e.launch)]

/-- FLUSH_GIVEUP (R306). -/
def execFlushGiveup (a l : Nat) (s : State) : Host.Outcome State Fault Refusal :=
  liveAgent s a fun s =>
    match flushing (getEq s a l) with
    | none => s
    | some e =>
      if ¬ e.late then s
      else
        let e := { e with st := .ended, fin := some (2, 0, eFlushLate, mTiles e.mop, endFlags e false, 0) }
        settleAgent (drainDone 64 (modEq s a l fun q => putDone q e) a l) a

/-- ALLOWANCE_SPENT (R226, R309): eq_preempt of kind 0 on the LC macro-op that the engine holds. -/
def execAllowanceSpent (a l : Nat) (s : State) : Host.Outcome State Fault Refusal :=
  liveAgent s a fun s =>
    let q := getEq s a l
    match presEnt q with
    | some e =>
      if e.be ∨ q.preempt = some 1 ∨ (tget {} q.recs e.launch).paused then s
      else modEq s a l fun q => { q with preempt := some 0, stopFor := 0 }
    | none => s

/-- PREEMPT_LATE (R228): once for a request. -/
def execPreemptLate (a l : Nat) (s : State) : Host.Outcome State Fault Refusal :=
  liveAgent s a fun s =>
    let q := getEq s a l
    match q.preempt, presEnt q with
    | some _, some e =>
      if q.preemptLate then s
      else raiseOn (modEq s a l fun q => { q with preemptLate := true }) ePreemptLate (some e.part) (some a) [(.engineQueue, a * 16 + l)]
    | _, _ => s

/-- Abort the entries of a launch on one queue (R310). -/
def abortQueue (s : State) (a launch l : Nat) : State :=
  let mine := ((getEq s a l).lc ++ (getEq s a l).be).filter (fun (e : Ent) => e.launch == launch)
  let s := mine.foldl (fun s e =>
    if e.st = .presented then modEq s a l fun q => { q with preempt := some 1 }
    else endEnt s a l e (3, 0, 0, if e.st = .stopped then e.tstart else 0, endFlags e false, 0) false) s
  modEq s a l fun q =>
    let q := if q.genLcBy = launch ∧ q.genLc.active then setGen q false {} 0 else q
    if q.genBeBy = launch ∧ q.genBe.active then setGen q true {} 0 else q

/-- Agent tasks of an aborted launch end without a report (R310, R451). -/
def abortTasks (s : State) (a launch : Nat) : State :=
  let mine := (getAgent s a).tasks.filter (fun (x : Nat × Ctx) => x.2.launch == launch)
  let s := mine.foldl (fun s (x : Nat × Ctx) =>
    let s := match x.2.stall with
      | some (.spin _ h _ _ _) => spinLeave s (0x200 + a) x.2 h false
      | _ => s
    dropTask s a x.1) s
  agentNext s a

/-- A command of the internal aperture at the head of the stream to an agent (R285): its answer's tag and its data. -/
def apertureCmd (s : State) (a off : Nat) : Option (Nat × Nat) :=
  match downHead s a with
  | some (.regWrite o t _ _ d) => if o = off then some (t, d.toNat % 2 ^ 64) else none
  | _ => none
/-- The agent takes the command and answers it. -/
def apertureDone (s : State) (a off tag : Nat) : State := sendUp s a (.regReply off tag 0 0)

/-- EQX_ABORT (R285, R310). -/
def execEqxAbort (a launch : Nat) (s : State) : Host.Outcome State Fault Refusal :=
  liveAgent s a fun s =>
    match apertureCmd s a 0x7000 with
    | some (t, d) =>
      if d % 2 ^ 32 ≠ launch then s
      else
        let s := (upTo 16).foldl (fun s l => abortQueue s a launch l) (takeDown s a)
        apertureDone (settleAgent (abortTasks s a launch) a) a 0x7000 t
    | none => s

/-- EQX_RESUME (R309): counting restarts from 0, and the entries return to the head of the LC lane, the stopped one first. -/
def execEqxResume (a launch l : Nat) (s : State) : Host.Outcome State Fault Refusal :=
  liveAgent s a fun s =>
    match apertureCmd s a 0x7008 with
    | some (t, d) =>
      if d % 2 ^ 32 ≠ launch ∨ d / 2 ^ 32 % 16 ≠ l then s
      else
        let s := modEq (takeDown s a) a l fun q =>
          let mine := q.lc.filter (fun e => e.launch == launch)
          { q with
            recs := q.recs.map (fun (x : Nat × LRec) => if x.1 = launch then (x.1, { x.2 with paused := false, used := 0 }) else x)
            lc := mine.filter (fun e => e.st == EntSt.stopped) ++ mine.filter (fun e => e.st != EntSt.stopped)
              ++ q.lc.filter (fun e => e.launch != launch) }
        apertureDone (settleAgent s a) a 0x7008 t
    | none => s

/-- EQX_PREEMPT (R229, R309). -/
def execEqxPreempt (a mask : Nat) (s : State) : Host.Outcome State Fault Refusal :=
  liveAgent s a fun s =>
    match apertureCmd s a 0x7010 with
    | some (t, d) =>
      if d % 2 ^ 16 ≠ mask then s
      else
        let s := (upTo 16).foldl (fun s l =>
          let q := getEq s a l
          let be := (presEnt q).any (fun e => e.be)
          if mask.testBit l ∧ be ∧ headReady s a l false ∧ q.preempt = none then
            modEq s a l fun q => { q with preempt := some 0, stopFor := 1 }
          else s) (takeDown s a)
        apertureDone s a 0x7010 t
    | none => s

/-- EQ_PART (R286, R406): a partial-result record goes to the Root. -/
def execEqPart (a l : Nat) (rec : W512) (s : State) : Host.Outcome State Fault Refusal :=
  liveAgent s a fun s =>
    match presEnt (getEq s a l) with
    | some e => sendUp s a (.partialRec (a * 16 + l) e.tag e.launch rec)
    | none => s

end Sys2Proof.Machine
end

