-- ==== Sys2Proof/Machine/Graph.lean ====
section
/-! DEFINITION. Running graph launches: contexts, the node sequencer, core grants, saves and restores (R195–R200, R204, R231,
R252, R254, R270–R272, R279). -/

namespace Sys2Proof.Machine

/-- Nodes of the generation that a launch has pinned. -/
def gNodes (s : State) (l : Launch) : List GNode := ((genOf s l).map (·.nodes)).getD []
def nodeOf (s : State) (l : Launch) (i : Nat) : Option GNode := (gNodes s l)[i]?
def nodeSt (l : Launch) (i : Nat) : NodeSt := l.nodes.getD i {}
/-- Change the state of one node of a launch. -/
def modNode (s : State) (id i : Nat) (f : NodeSt → NodeSt) : State :=
  modLaunch s id fun l => { l with nodes := l.nodes.mapIdx (fun k n => if k = i then f n else n) }

/-- A launch's pin of its generation ends (R199, R204): a generation that is not current is freed with its last pin. -/
def unpinGen (s : State) (id : Nat) : State :=
  match kget s.launches id with
  | none => s
  | some l =>
    if ¬ l.pinned then s else
    let s := setLaunch s id { l with pinned := false }
    let g := getGctx s l.gctx
    let gens := g.gens.map (fun x => if x.num = l.gen then { x with pins := x.pins - 1 } else x)
    let left := gens.filter (fun x => x.num == g.cur || x.pins != 0)
    let s := modGctx s l.gctx fun g => { g with gens := left }
    if (getPart s l.part).st = .resetting ∨ (getPart s l.part).st = .free then freeUnpinned s l.part else s

/-- The argument area of a graph launch (R136, R196, R252): the constant buffer, then the ARGS fragments. -/
def argArea (l : Launch) : Nat :=
  let cb := if dCbInline l.desc then fld l.desc 128 256 else l.cbData.toNat
  let n := if dCbInline l.desc then 256 else 64 * dCbLen l.desc
  ((fragsOf l 4).foldl (fun (x : Nat × Nat) f => (x.1 + put f.toNat x.2, x.2 + 512)) (nbits cb 0 n, n)).1 % 2 ^ 6144

/-- Handle-table indices of space 2 flags that WAIT and SIGNAL nodes name. -/
def nodeLookups (s : State) (l : Launch) : List Nat :=
  (((gNodes s l).filter (fun n => n.kind == 3 || n.kind == 4)).map (fun n => sHandle n.body.toNat)).filterMap (fun h =>
    if h / 2 ^ 30 = 2 ∧ hInTable s l.part (hIndex h) then some (hIndex h) else none)

/-- Complete a node (R196): its successors have one predecessor less; none becomes ready once a node has failed (R200). A JOIN
completes in the cycle in which it becomes ready. -/
def completeNode : Nat → State → Nat → Nat → State
  | 0, s, _, _ => s
  | n + 1, s, id, i =>
    match kget s.launches id with
    | none => s
    | some l => match nodeOf s l i with
      | none => s
      | some g =>
        let s := setLaunch s id { l with
          waits := l.waits.filter (fun e => e.node != i + 1)
          nodes := l.nodes.mapIdx (fun k x =>
            if k = i then { x with st := .done }
            else
              let hits := (g.succ.filter (fun t => t == k)).length
              let left := x.left - hits
              { x with left := left, st := if 0 < hits ∧ left = 0 ∧ x.st = .blocked ∧ ¬ l.failed then .ready else x.st }) }
        g.succ.foldl (fun s k => match kget s.launches id with
          | none => s
          | some l => match nodeOf s l k with
            | none => s
            | some h => if h.kind = 5 ∧ (nodeSt l k).st = .ready then completeNode n s id k else s) s

/-- GRAPH_CONTEXT_START (R192, R196, R252, R270): the lowest free save slot and the lowest core of 0–6 that has, or can free, the slices.
The nodes without predecessors are ready; a JOIN among them completes at once. -/
def execGraphContextStart (id : Nat) (s : State) : Host.Outcome State Fault Refusal :=
  liveRoot s fun s =>
    match kget s.launches id with
    | none => s
    | some l =>
      if l.stage ≠ .running ∨ ¬ l.ctxWanted ∨ l.aborting ∨ s.glb.frozen then s else
      match genOf s l, freeSlot s with
      | some g, some k =>
        let cores := (upTo 7).map (fun n => 0x300 + n)
        let core := (cores.find? (fun c => decide (g.slices ≤ (freeSlicesOf s c).length))).orElse
          (fun _ => cores.find? (fun c => canSlices s c k g.slices))
        match core with
        | none => s
        | some core =>
          let s := makeRoom (takeSlot s k) core k g.slices
          let ids := (freeSlicesOf s core).take g.slices
          let s := takeSlices s core k ids
          let c : Ctx := {
            launch := id, part := l.part, be := l.be, core := core, nslices := g.slices, slices := ids, gen := l.gen, tick := l.admTick }
          let s := layOut { s with ctxs := kput s.ctxs k c } core c (argArea l)
          let s := setLaunch s id { l with
            ctxWanted := false, slot := some k
            nodes := g.nodes.map (fun n => { left := n.npred, st := if n.npred = 0 then .ready else .blocked }) }
          let s := (nodeLookups s l).foldl (fun s i => lookupFor s id i) s
          let roots := (upTo g.nodes.length).filter (fun i => (g.nodes[i]?).any (fun n => n.kind == 5 && n.npred == 0))
          graphSettle (roots.foldl (fun s i => completeNode (g.nodes.length + 1) s id i) s) id
      | _, _ => s

/-- A node has ended its work (R192). -/
def workDone (s : State) (l : Launch) (i : Nat) (g : GNode) : Bool :=
  let n := nodeSt l i
  n.st == NSt.started && (match g.kind with
    | 1 => n.ended && (match l.slot with
      | some k => (getCtx? s 0x300 k).all (fun c => c.node != i || (c.pend == 0 && c.st == CtxSt.held))
      | none => true)
    | 2 => n.ended && n.pend == 0
    | 3 => l.waits.any (fun e => e.node == i + 1 && e.met) || n.ended
    | _ => n.ended)

/-- NODE_COMPLETE (R192, R196, R199). -/
def execNodeComplete (id node : Nat) (s : State) : Host.Outcome State Fault Refusal :=
  liveRoot s fun s =>
    match kget s.launches id with
    | none => s
    | some l => match nodeOf s l node with
      | none => s
      | some g =>
        if isDone l ∨ l.aborting ∨ ¬ workDone s l node g then s
        else graphSettle (completeNode (l.nodes.length + 1) s id node) id

/-- The wait entry of a WAIT node (R131, R197). -/
def nodeWait (s : State) (l : Launch) (i : Nat) (g : GNode) : WaitE :=
  let w := g.body.toNat
  { handle := wHandle w, compare := wCompare w, crest := wCrest w, node := i + 1
    tmo := if wTimeout w = 0 then (getQueue s l.queue).defTmo else wTimeout w }

/-- The entry of a space 2 flag is known, or the flag needs none. -/
def flagKnown (s : State) (l : Launch) (h : Nat) : Bool :=
  decide (h / 2 ^ 30 ≠ 2) || !hInTable s l.part (hIndex h) || !l.relWant.any (fun x => x.1 == hIndex h)

/-- A ready node can start now (R197). -/
def canStart (s : State) (l : Launch) (i : Nat) (g : GNode) : Bool :=
  (nodeSt l i).st == NSt.ready && !g.chained && (match g.kind with
    | 1 => (match l.slot.bind (getCtx? s 0x300) with
      | some c => c.st == CtxSt.held && !c.ready
          && ((gNodes s l).zip l.nodes).all (fun (x : GNode × NodeSt) => x.1.kind != 1 || x.2.st != NSt.started)
      | none => false)
    | 3 => flagKnown s l (wHandle g.body.toNat) && (wHandle g.body.toNat == 0 || canArm s l [nodeWait s l i g])
    | 4 => flagKnown s l (sHandle g.body.toNat)
    | _ => true)

/-- Push a MOP node, and with it the chained nodes that follow it (R197). -/
def pushNode : Nat → State → Nat → Nat → Option (Nat × Nat) → State
  | 0, s, _, _, _ => s
  | n + 1, s, id, i, pred =>
    match kget s.launches id with
    | none => s
    | some l => match nodeOf s l i with
      | none => s
      | some g =>
        let t := freeTag s g.target 1024 s.sched.nextTag
        let s := modNode s id i fun x => { x with st := .started, pend := 1 }
        let s := queuePush s {
          eq := g.target, launch := id, mop := g.body, src := 1, be := l.be, node := i + 1, chained := pred.isSome
          predEq := (pred.map (fun (x : Nat × Nat) => x.1)).getD 0, predTag := (pred.map (fun (x : Nat × Nat) => x.2)).getD 0 }
        if ¬ mopLive s g.target t then s
        else g.succ.foldl (fun s k => match nodeOf s l k with
          | some h => if h.kind = 2 ∧ h.chained then pushNode n s id k (some (g.target, t)) else s
          | none => s) s

/-- A MOP node with the chained nodes that are pushed with it. -/
def chainRunOf (ns : List GNode) : Nat → Nat → List Nat
  | 0, i => [i]
  | n + 1, i => i :: (((ns[i]?).map (·.succ)).getD []).flatMap (fun k =>
      if (ns[k]?).any (fun h => h.kind == 2 && h.chained) then chainRunOf ns n k else [])

/-- Lines of the code cache that hold a node's record and its body (R191, R192, R201). -/
def nodeLines (s : State) (p : Nat) (g : Generation) (i : Nat) : List Nat :=
  genLines s p g (64 + 32 * i) 32 ++ (match (g.nodes[i]?).map (fun n => (n.kind, n.bodyOff)) with
    | some (2, o) => genLines s p g (g.bodyAt + o) 64
    | some (3, o) => genLines s p g (g.bodyAt + o) 16
    | some (4, o) => genLines s p g (g.bodyAt + o) 16
    | _ => [])

/-- Lines that the start of a node needs. -/
def startLines (s : State) (l : Launch) (i : Nat) : List Nat :=
  match genOf s l with
  | none => []
  | some g => (chainRunOf g.nodes g.nodes.length i).flatMap (nodeLines s l.part g)

/-- NODE_START (R197, R201, R254): the lowest ready node that can start, once the code cache has its record and its body. -/
def execNodeStart (id node : Nat) (s : State) : Host.Outcome State Fault Refusal :=
  liveRoot s fun s =>
    match kget s.launches id with
    | none => s
    | some l => match nodeOf s l node with
      | none => s
      | some g =>
        let first := (upTo node).all (fun i => (nodeOf s l i).all (fun h => !canStart s l i h))
        if l.stage ≠ .running ∨ l.aborting ∨ l.failed ∨ s.glb.frozen ∨ ¬ canStart s l node g ∨ ¬ first then s else
        let lines := startLines s l node
        if ¬ lines.all s.ccache.contains then (lines.filter (fun k => !s.ccache.contains k)).foldl lineWant s else
        let s := lines.foldl lineUsed s
        let started := fun (s : State) (e : Bool) => modNode s id node fun x => { x with st := .started, ended := e }
        match g.kind with
        | 1 =>
          let s := started s false
          match l.slot with
          | none => s
          | some k => modCtx s 0x300 k fun c => { c with
              node := node, pc := (0x80000000 + g.bodyOff) % 2 ^ 32, s := tput 0 [] 1 (BitVec.ofNat 64 node), p := [], g := [], v := [], t := []
              tfmt := 0, pend := 0, pushBad := false, lastPush := none, lastBad := false, stall := none, ready := true }
        | 2 => pumpPushes (pushNode (l.nodes.length + 1) s id node none)
        | 3 =>
          if wHandle g.body.toNat = 0 then started s true
          else
            let e := nodeWait s l node g
            armEntry (notePeak (modLaunch (started s false) id fun l => { l with waits := l.waits ++ [e] })) id e
        | 4 =>
          let h := sHandle g.body.toNat
          let s := started s (decide (h = 0))
          if h = 0 then s
          else if h / 2 ^ 30 = 3 ∧ sOp g.body.toNat = 2 then
            modXing s fun x => { x with sets := x.sets ++ [{
              part := l.part, chip := nbits h 24 6, index := h % 65536, value := sValue g.body.toNat, poison := false, launch := id
              node := node + 1 }] }
          else queueSigs s [{
            src := 100, part := l.part, handle := h, op := sOp g.body.toNat, x := sValue g.body.toNat, launch := id, node := node + 1
            addr := memFlagAddr s l.part h (some l) true }]
        | _ => graphSettle (completeNode (l.nodes.length + 1) s id node) id

/-- Contexts that want a core: a CODE node waits, or the context is saved. -/
def wantCore (s : State) : List (Nat × Ctx) :=
  s.ctxs.filter (fun (x : Nat × Ctx) => decide (x.1 < 512) && ((x.2.st == CtxSt.held && x.2.ready) || x.2.st == CtxSt.saved))

/-- A context can go to a core: its slices are there, or, written out, find room (R270). -/
def canGoTo (s : State) (core : Nat) (x : Nat × Ctx) : Bool :=
  if x.2.slices.isEmpty then canSlices s core x.1 x.2.nslices else x.2.core == core

/-- The context that a core is granted to (R231): by rank, then the one that has waited longest for its turn. -/
def bestFor (s : State) (core : Nat) : Option (Nat × Ctx) :=
  (s |> wantCore).foldl (fun b x =>
    if ¬ canGoTo s core x then b else
    match b with
    | none => some x
    | some y => if rankOf s x.2 < rankOf s y.2 ∨ (rankOf s x.2 = rankOf s y.2 ∧ x.2.lastGrant < y.2.lastGrant) then some x else some y) none

/-- Save the context that runs on a core (R271, R279). -/
def startSave (s : State) (core : Nat) : State :=
  let s := preSave s core
  match running s core with
  | none => s
  | some (slot, c) =>
    if c.st ≠ .running then s else
    let (s, c) := spinSaved s core slot c
    saveWrites (modCore (setCtx s core slot { c with st := .saving }) core fun k => { k with st := 2 }) slot

/-- Running contexts of cores 0–6, with their cores. -/
def runningCtxs (s : State) : List (Nat × Ctx) :=
  ((upTo 7).map (fun n => 0x300 + n)).filterMap (fun core => (running s core).bind (fun x =>
    if x.2.st = .running then some (core, x.2) else none))

/-- The context that is pre-empted when one of a rank wants a core (R270): of lowest rank, then longest in its slice, then on the
highest core. -/
def victim (s : State) : Option (Nat × Ctx) :=
  (runningCtxs s).foldl (fun b x => match b with
    | none => some x
    | some y =>
      if rankOf s y.2 < rankOf s x.2 ∨ (rankOf s y.2 = rankOf s x.2 ∧ x.2.lastGrant ≤ y.2.lastGrant) then some x else some y) none

/-- CORE_GRANT (R231, R270): a free core takes the best context; with none free, a context of higher rank has the lowest one saved. -/
def execCoreGrant (core : Nat) (s : State) : Host.Outcome State Fault Refusal :=
  liveRoot s fun s =>
    if core < 0x300 ∨ 0x306 < core ∨ s.glb.frozen then s
    else if (getCore s core).run.isNone then
      match bestFor s core with
      | none => s
      | some (slot, c0) =>
        let s := bringIn s core slot
        match kget s.ctxs slot with
        | none => s
        | some c =>
          let n := s.sched.grantNo + 1
          let s := modSched s fun k => { k with grantNo := n }
          let saved := c0.st == CtxSt.saved
          let s := if saved then mgrRead s Config.fnManager (slotAddr s slot) 6144 (.restore slot) else s
          let s := setCtx s core slot { c with st := if saved then .restoring else .running, ready := saved, lastGrant := n }
          modCore s core fun k => { k with run := some slot, st := if saved then 3 else 1 }
    else if ((upTo 7).map (fun n => 0x300 + n)).any (fun c => (getCore s c).run.isNone) then s
    else match victim s with
      | none => s
      | some (v, c) =>
        if v = core ∧ (wantCore s).any (fun x => decide (rankOf s x.2 < rankOf s c)) then startSave s core else s

/-- CSLICE_EXPIRY (R231, R270): the slice of a running context ends while a context of the same rank wants a core; with none, its next
slice begins. -/
def execCsliceExpiry (core : Nat) (s : State) : Host.Outcome State Fault Refusal :=
  liveRoot s fun s =>
    if core < 0x300 ∨ 0x306 < core then s else
    match running s core with
    | none => s
    | some (slot, c) =>
      if c.st ≠ .running then s
      else if (wantCore s).any (fun x => rankOf s x.2 == rankOf s c) then startSave s core
      else
        let n := s.sched.grantNo + 1
        setCtx (modSched s fun k => { k with grantNo := n }) core slot { c with lastGrant := n }

/-- CONTEXT_SAVE_DONE (R246, R270, R271): the last write response of the save. -/
def execContextSaveDone (core : Nat) (s : State) : Host.Outcome State Fault Refusal :=
  liveRoot s fun s =>
    if core < 0x300 ∨ 0x306 < core then s else
    match running s core with
    | none => s
    | some (slot, c) =>
      if c.st ≠ .saving ∨ ¬ c.xfers.isEmpty then s else
      let n := s.save.order + 1
      let s := { s with
        save := { s.save with order := n }
        port := { s.port with writes := s.port.writes.filter (fun w => w.kind != WrKind.save slot) } }
      let s := setCtx (scSticky s c.part c.fflags) core slot { c with st := .saved, saveOrder := n }
      modCore s core fun k => { k with run := none, st := 0, saves := satN 32 (k.saves + 1) }

/-- A restore reads each active generator's descriptor again (R259). -/
def reloadGens (k : Core) (c : Ctx) : Ctx :=
  { c with g := c.g.map (fun (x : Nat × Gen) => if ¬ x.2.active then x else
      let d := BitVec.ofNat 384 (dmBytes k c x.2.descOff 48)
      (x.1, { x.2 with desc := d, ended := x.2.ended || decide (gTotal d ≤ gPos d x.2.idx) })) }

/-- CONTEXT_RESTORE_DONE (R271). -/
def execContextRestoreDone (core : Nat) (s : State) : Host.Outcome State Fault Refusal :=
  liveRoot s fun s =>
    if core < 0x300 ∨ 0x306 < core then s else
    match running s core with
    | none => s
    | some (slot, c) =>
      if c.st ≠ .restoring then s
      else
        let s := readDone s (.restore slot)
        let c := reloadGens (getCore s core) c
        modCore (setCtx s core slot { c with st := .running, ready := false }) core fun k => { k with st := 1 }

end Sys2Proof.Machine
end

