-- ==== Sys2Proof/Machine/Outfall.lean ====
section
/-! DEFINITION. The Outfall: completions, records and signals (R150–R153, R226, R236, R307, R308, R405, R519), the end of an outstanding
launch (R123–R126), write faults (R45), the event port (R46–R48), and answers to register messages (R43). -/

namespace Sys2Proof.Machine

/-- The Steward's launch IDs for relocation copies (R430). -/
def stewId (launch : Nat) : Bool := launch / 2 ^ 16 == 0xC000

/-- Count a macro-op's time and bytes (R236, R237, R307): to its partition, and to a host queue where it has one. -/
def account (s : State) (part : Nat) (queue : Option Nat) (c : Compl) : State :=
  let s := modFig s part fun f => { f with
    engineNs := (f.engineNs + 10 * c.ns10) % 2 ^ 64, bytes := (f.bytes + c.bytes) % 2 ^ 64 }
  let s := modSched s fun k => { k with nsPart := tput 0 k.nsPart (c.eq * 64 + part) (tget 0 k.nsPart (c.eq * 64 + part) + c.ns10) }
  let s := modPart s part fun x => { x with fsticky := x.fsticky ||| BitVec.ofNat 32 (put (c.fflags % 16) 4) }
  match queue with
  | none => s
  | some q =>
    let s := modQueue s q fun x => { x with
      engineNs := (x.engineNs + 10 * c.ns10) % 2 ^ 64, bytes := (x.bytes + c.bytes) % 2 ^ 64 }
    let key := (c.eq * 64 + part) * 4096 + q
    modSched s fun k => { k with nsQueue := tput 0 k.nsQueue key (tget 0 k.nsQueue key + c.ns10) }

/-- A PAUSED report (R226, R235, R307): not final; the launch stays paused on the queue until it is booked again. -/
def pausedReport (s : State) (l : Launch) (c : Compl) : State :=
  let s := sstatSet (raiseOn s eOverrun (some l.part) none [(.launch, c.launch % 2 ^ 32), (.engineQueue, c.eq)]) l.part 1
  let s := modFig s l.part fun f => { f with curOvr := f.curOvr + 1 }
  modLaunch s c.launch fun l => { l with
    paused := insertNat l.paused c.eq
    outs := l.outs.map (fun o => if o.eq == c.eq && o.tag == c.tag then { o with paused := true } else o) }

/-- The event of a macro-op that was skipped or met a fault at its agent (R308, R312, R519). A late flush raised its event there. -/
def complEvent (s : State) (l : Launch) (c : Compl) : State :=
  if (c.status ≠ 1 ∧ c.status ≠ 2) ∨ c.error = eFlushLate then s
  else
    let opc := (l.outs.find? (fun o => o.eq == c.eq && o.tag == c.tag)).map (fun o => (Item.opcode, o.opc))
    let s := raiseOn s c.error (some l.part) (some (c.eq / 16))
      ([(.launch, c.launch % 2 ^ 32), (.engineQueue, c.eq), (.tag, c.tag), (.cause, c.cause)] ++ opc.toList)
    if c.status = 1 ∧ (c.cause = 9 ∨ c.cause = 10) then
      let s := werr s l.part c.error c.launch c.whandle (flagAddr s l.part c.whandle 0) 0xB c.eq 0 0
      if c.cause = 10 then modWeir (wstatSet s l.part 0) fun w => { w with tmos := satN 32 (w.tmos + 1) } else wstatSet s l.part 1
    else s

/-- ERROR of a completion at the Root: an aborted macro-op of an agent that was fenced, or whose drain ran late, carries
E_AGENT_FENCED (R450, R491). -/
def complError (s : State) (c : Compl) : Nat :=
  let a := c.eq / 16
  if c.status = 3 ∧ ((agtExcluded s a ∧ fld (agtEntry s a) 40 4 = 6) ∨ (kget s.svc.draining a).any (fun d => d.late)) then eAgentFenced
  else c.error

/-- What a COMPLETION adds to the figures: CYCLES, NS10 and BYTES are sums over every presentation (R304), so of a macro-op that has
reported a pause only the increase counts. DEDUCED (log entry 78). -/
def newFigures (s : State) (c : Compl) : Compl × State :=
  let key := c.eq * 65536 + c.tag
  let was := tget (0, 0, 0) s.outf.counted key
  let now := if c.status = 4 then (c.cycles, c.ns10, c.bytes) else (0, 0, 0)
  ({ c with cycles := c.cycles - was.1, ns10 := c.ns10 - was.2.1, bytes := c.bytes - was.2.2 },
    { s with outf := { s.outf with counted := tput (0, 0, 0) s.outf.counted key now } })

/-- A COMPLETION of a launch of a host queue. -/
def complTake (s : State) (l : Launch) (c : Compl) : State :=
  let s := account s l.part (some l.queue) c
  let s := modLaunch s c.launch fun l => { l with
    cycles := tput 0 l.cycles c.eq (tget 0 l.cycles c.eq + c.cycles), used := tput 0 l.used c.eq (tget 0 l.used c.eq + c.cycles)
    actual := l.actual + c.cycles, chained := l.chained || (decide (dOpcode l.desc = 1) && c.flags % 2 == 1) }
  if c.status = 4 then pausedReport s l c
  else
    let s := complEvent s l c
    let error := complError s c
    match l.outs.find? (fun o => o.eq == c.eq && o.tag == c.tag) with
    | some o =>
      let s := mopEnded s c.launch o c.status c.cause error
      pumpPushes (predEnded s c.eq c.tag (decide (c.status = 0)))
    | none =>
      if c.status = 0 ∨ dOpcode l.desc ≠ 2 ∨ isDone l ∨ l.aborting then s
      else match l.slot with
        | some k => graphSettle (failNode s c.launch (getCtx s 0x300 k).node error (decide (recStatus c.status c.cause = stTimeout))) c.launch
        | none => s

/-- A COMPLETION of the Steward's relocation copy (R430): the STREAM and the COPY that follows it. -/
def stewTake (s : State) (c : Compl) : State :=
  match s.stew.copy with
  | none => s
  | some k =>
    if c.launch % 2 ^ 16 ≠ k.sent % 2 ^ 16 ∨ c.eq / 16 ≠ k.agent then s
    else
      let s := account s k.part none c
      if c.status = 4 then s
      else modStew s fun w => { w with copy := some { k with
        ok := k.ok && decide (c.status = 0), ended := k.ended || decide (c.tag = k.tag) } }
/-- A final COMPLETION of the Steward's returns its slot of the lane (R282). -/
def stewSlot (s : State) (c : Compl) : State :=
  if c.status = 4 then s else pumpPushes (modStew s fun w => { w with lane := w.lane.filter (fun x => x != (c.eq, c.tag)) })

/-- COMPLETION (R307, R308, R405, R410): held at its port while merged writes of its walk are outstanding. -/
def execCompletion (a : Nat) (s : State) : Host.Outcome State Fault Refusal :=
  liveRoot s fun s =>
    match upHead s a with
    | some (.completion c) =>
      if mergeHolds s c.eq c.tag then s
      else
        let s := takeUp s a
        let (c, s) := newFigures s c
        if stewId c.launch then stewSlot (stewTake s c) c
        else
          let id := launchNamed s c.launch fun l => l.outs.any (fun o => o.eq == c.eq && o.tag == c.tag)
          match kget s.launches id with
          | some l => complTake s l { c with launch := id }
          | none => s
    | _ => s

/-- The launch may signal a flag that it names (R56, R151, R158, R381, R518). -/
def maySignal (s : State) (l : Launch) (h : Nat) : Bool :=
  flagHandleOk h &&
  match h / 2 ^ 30 with
  | 0 => flagInRange s l.part h
  | 3 => chipReach s h
  | _ => (memFlagAddr s l.part h (some l) true).isSome

/-- Signal entries of a launch that name a flag, in the order of R151. -/
def namedSigs (l : Launch) : List Nat := (sigWords l).filter (fun w => decide (sHandle w ≠ 0))

/-- Handle-table indices that the signals of a completed launch still need (R144, R151). -/
def sigNeeds (s : State) (l : Launch) : List Nat :=
  (namedSigs l).filterMap (fun w =>
    let h := sHandle w
    if h / 2 ^ 30 = 2 ∧ flagHandleOk h ∧ hInTable s l.part (hIndex h) ∧ (relOf l (hIndex h)).isNone ∧ ¬ l.relBad.contains (hIndex h) then
      some (hIndex h)
    else none)

/-- The launch's record (R150). -/
def recordWord (s : State) (id : Nat) (l : Launch) (status error : Nat) (poisoned : Bool) : Nat :=
  pack [(32, id), (8, status), (1, b2n poisoned), (1, b2n (decide (dCost l.desc < l.actual))),
    (1, b2n l.drained), (1, b2n l.chained), (4, 0), (16, error),
    (32, s.sched.tickNo), (32, satN 32 l.actual)]

/-- The launch's signals are issued (R151, R162, R374): applied, or, after a failure, as poison. -/
def issueSignals (s : State) (id : Nat) (l : Launch) : State :=
  let poison := decide (l.status ≠ stOk)
  (namedSigs l).foldl (fun s w =>
    let h := sHandle w
    if poison && !maySignal s l h then s
    else if h / 2 ^ 30 = 3 ∧ (poison ∨ sOp w = 2) then
      modXing s fun x => { x with sets := x.sets ++ [{
        part := l.part, chip := nbits h 24 6, index := h % 65536, value := sValue w, poison := poison, launch := id }] }
    else queueSigs s [{
      src := 100, part := l.part, handle := h, op := if poison then 4 else sOp w, x := if poison then 0 else sValue w
      launch := id, addr := memFlagAddr s l.part h (some l) true }]) s

/-- Figures of a record written (R153, R234). -/
def recordFigs (s : State) (id : Nat) (l : Launch) (status error : Nat) : State :=
  if status = stOk then
    (if l.total = 0 then s
    else modFig s l.part fun f => { f with sumActual := f.sumActual + satN 32 l.actual, sumCharge := f.sumCharge + l.total })
  else modPart s l.part fun x => { x with
    lerrId := id % 2 ^ 32, lerrError := error, lerrStatus := status, lerrCount := satN 8 (x.lerrCount + 1) }

/-- RECORD_WRITE (R148, R150, R151, R451): the record and the signals are issued together. -/
def execRecordWrite (id : Nat) (s : State) : Host.Outcome State Fault Refusal :=
  liveRoot s fun s =>
    match kget s.launches id with
    | none => s
    | some l =>
      if l.stage ≠ .outfall then s
      else if ¬ s.glb.frozen ∧ ¬ l.relWant.isEmpty then s
      else if ¬ s.glb.frozen ∧ ¬ (sigNeeds s l).isEmpty then (sigNeeds s l).foldl (fun s i => lookupFor s id i) s
      else
        let status := if s.glb.frozen then stAborted else l.status
        let error := if s.glb.frozen then eChipFail else l.error
        let poisoned := l.poisoned && !s.glb.frozen
        let (_, s) := mgrWriteAs s l.part l.pasid l.recAt 16 (recordWord s id l status error poisoned) (.record id l.queue)
        let s := setLaunch s id { l with stage := .written, status := status, error := error, poisoned := poisoned }
        let s := recordFigs s id l status error
        let s := if s.glb.frozen then s else issueSignals s id l
        completionWalk (unpinGen s id) id

/-- The write of a launch's record has its response, or its fault: the launch is outstanding no more (R123, R152, R174, R177). -/
def recordGone (s : State) (id : Nat) (ok : Bool) : State :=
  match kget s.launches id with
  | none => s
  | some l =>
    let q := getQueue s l.queue
    let s := { s with launches := kdel s.launches id }
    let s := modStew s fun w => { w with fences := w.fences.map (fun f => { f with launches := without f.launches id }) }
    let s := if ok && (dIrq l.desc || decide (l.status ≠ stOk)) && (decide (q.st ≠ .draining) || q.drainIrq) then
        { s with evt := { s.evt with hostSig := s.evt.hostSig ++ [(l.queue, id)] } }
      else s
    let s := evalDeps s
    if (getQueue s l.queue).st = .draining ∧ outstanding s l.queue = 0 then enterIdle s l.queue else s

/-- RECORD_WRITE_RESPONSE (R123). -/
def execRecordWriteResponse (id : Nat) (s : State) : Host.Outcome State Fault Refusal :=
  liveRoot s fun s =>
    match s.port.writes.find? (fun w => match w.kind with
      | .record k _ => k == id
      | _ => false) with
    | none => s
    | some w => recordGone (vecsRelease (mgrDone s w.txn) w.txn) id true

/-- RESET_QUEUE_SETTLES (R103, R125): every aborted macro-op of the queue has stopped and no descriptor or fragment-table read of
it is in flight: each of its launches has left for the Outfall. Their records may still be on their way. -/
def execResetQueueSettles (q : Nat) (s : State) : Host.Outcome State Fault Refusal :=
  liveRoot s fun s =>
    let x := getQueue s q
    if x.st ≠ .resetting ∨ (queueLaunches s q).any (fun y => !isDone y.2) then s
    else if x.toUnused ∨ (getPart s x.owner).st = .resetting then enterUnused s q
    else enterIdle s q

/-- DRAIN_TIMEOUT (R124): once for each drain. -/
def execDrainTimeout (q : Nat) (s : State) : Host.Outcome State Fault Refusal :=
  liveRoot s fun s =>
    let x := getQueue s q
    if x.st ≠ .draining ∨ x.drainLate then s
    else raiseOn (modQueue s q fun x => { x with drainTmoBit := true, drainLate := true }) eDrainTimeout (some x.owner) none
      [(.queue, q)]

/-- HOST_WRITE_FAULT (R45): what is lost with each kind of write; the event names partition and address. -/
def execHostWriteFault (txn : Nat) (s : State) : Host.Outcome State Fault Refusal :=
  liveRoot s fun s =>
    match s.port.writes.find? (fun w => w.txn == txn) with
    | none => s
    | some w =>
      let s := { s with port := { s.port with writes := w :: s.port.writes.filter (fun v => v.txn != txn) } }
      let part := if w.fn < 64 then some w.fn else none
      let fault := fun (s : State) => raiseOn s eHostWriteFault part none [(.addr, w.addr)]
      let done := fun (s : State) => vecsRelease (mgrDone s txn) txn
      match w.kind with
      | .record id _ => recordGone (done (fault s)) id false
      | .flag key => memWritten s key false
      | .reply q _ => admReplyDone s q false
      | .spill n => spillDone s txn n false
      | .evac => evacEnd (fault (modGlb (mgrDone s txn) fun g => { g with evacWfault := true }))
      | .merge key k _ _ =>
        let s := done (fault s)
        (match getMerge? s key with
        | none => s
        | some m =>
          let s := setMerge s key { m with slots := tput {} m.slots k { tget {} m.slots k with written := true } }
          if m.loop.isSome then lbPortFault s else s)
      | .root p =>
        modSeqs (done (fault s)) p fun q => if q.busy then { q with busy := false, result := 0, epoch := q.newEpoch } else q
      | .stewWord | .arena | .entry _ _ => done (fault s)
      | .loopWrite => lbPortFault (done (fault s))
      | .save _ => done (fault s)
      | .xfer core tag => xferEnd s core tag false [] (some w.addr)

/-- INTERRUPT_PRESENT (R46–R48): the lowest pending vector, and it stays until it transfers. -/
def execInterruptPresent (s : State) : Host.Outcome State Fault Refusal :=
  liveRoot s fun s =>
    match s.evt.presented, s.evt.pending with
    | none, v :: _ => { s with evt := { s.evt with presented := some (v, vecFn s v) } }
    | _, _ => s

/-- INTERRUPT_TRANSFER (R46, R47): the pending bit clears. -/
def execInterruptTransfer (s : State) : Host.Outcome State Fault Refusal :=
  liveRoot s fun s =>
    match s.evt.presented with
    | some (v, _) => { s with evt := { s.evt with presented := none, pending := without s.evt.pending v } }
    | none => s

/-- The agent has reported the stop of an aborted launch (R125, R285). -/
def stopReported (s : State) (a id : Nat) : State :=
  graphSettle (modLaunch s id fun l => { l with stopOn := without l.stopOn a }) id
/-- The register message was an EQX_ABORT: its launch. -/
def abortOf (h : HeldAcc) : Option Nat := if h.internal = 1 ∧ h.addr = 0x7000 then some (h.data.toNat % 2 ^ 32) else none

/-- REG_REPLY (R43, R53). A reply that comes after its timeout is discarded. -/
def execRegReply (a : Nat) (s : State) : Host.Outcome State Fault Refusal :=
  liveRoot s fun s =>
    match upHead s a with
    | some (.regReply _ t res d) =>
      let h := (kget s.port.held t).filter (fun h => h.agent == a)
      let s := takeReply (takeUp s a) a t res d
      (match h.bind abortOf with
      | some id => stopReported s a (launchNamed s id fun l => l.stopOn.contains a)
      | none => s)
    | _ => s

/-- AGENT_REG_TIMEOUT (R43). Of the Root's own messages, one of bring-up excludes its agent, and an abort is taken as stopped. -/
def execAgentRegTimeout (rtag : Nat) (s : State) : Host.Outcome State Fault Refusal :=
  liveRoot s fun s =>
    match kget s.port.held rtag with
    | none => s
    | some h =>
      let s := { s with port := { s.port with held := kdel s.port.held rtag } }
      if h.internal = 0 then respond (unhold rtag (raise s eAgentUnreachable none (some h.agent))) 0
      else if h.internal = 6 then imemSilent s h.agent
      else if 2 ≤ h.internal ∧ h.internal ≤ 4 then bringFail s h.agent 1
      else match abortOf h with
        | some id => stopReported s h.agent (launchNamed s id fun l => l.stopOn.contains h.agent)
        | none => s

end Sys2Proof.Machine
end

