-- ==== Sys2Proof/Machine/Crossing.lean ====
section
/-! DEFINITION. The Crossing unit: closure instances, remote SETs, remote flag messages, link faults (R173, R370–R381). -/

namespace Sys2Proof.Machine

/-- Fields of xc_ack and xc_hold: tag, closure group, chip. -/
def xwTag (w : W32) : Nat := fld w 0 16
def xwGroup (w : W32) : Nat := fld w 16 10
def xwChip (w : W32) : Nat := fld w 26 6

/-- A Crossing event (R376, R379): XING_LASTERR, and a XING_STAT bit with its vector. -/
def xingErr (s : State) (bit code link : Nat) (word : W32) : State :=
  let was := s.xing.stat.testBit bit
  let s := modXing (raiseOn s code none none ((.link, link) ::
    (if code = eXingLink then [] else [(.group, xwGroup word), (.chip, xwChip word), (.tag, xwTag word)]))) fun x => { x with
    stat := setBit x.stat bit, lastWord := word, lastLink := link, lastCode := code }
  if was then s else reqVec s 4355

/-- The link exists and carries Crossing traffic (R380). -/
def xcOpen (s : State) (link : Nat) : Bool := decide (link < s.par.xingLinks) && (tget {} s.xing.links link).enable
/-- A transfer on a link shows that it is up. -/
def xcSeen (s : State) (link : Nat) : State :=
  modXing s fun x => { x with links := tput {} x.links link { tget {} x.links link with up := true } }

/-- Key of the instance of a group and chip. -/
def instKey (w : W32) : Nat := xwGroup w * 64 + xwChip w
/-- The group's partition takes no part: RESETTING or FREE (R376). -/
def groupDead (s : State) (w : W32) : Bool :=
  match (getPart s (xwGroup w / 16)).st with
  | .resetting | .free => true
  | _ => false
def setInst (s : State) (k : Nat) (i : Inst) : State := modXing s fun x => { x with insts := tput {} x.insts k i }

/-- Release a held closure write (R372, R373); a frozen block keeps it held (R452). -/
def releaseInst (s : State) (k : Nat) (i : Inst) (tag : Nat) : State :=
  if s.glb.frozen then setInst s k { i with held := some tag }
  else modXing (setInst s k { i with held := some tag, released := some tag }) fun x => { x with rel := x.rel ++ [(i.link, tag)] }

/-- An acknowledgement (R373). -/
def xcAck (s : State) (link : Nat) (w : W32) : State :=
  let k := instKey w
  match kget s.xing.insts k with
  | none =>
    if Config.instMax ≤ s.xing.insts.length then s
    else setInst (xcSeen s link) k { count := 1, link := link }
  | some i =>
    let s := xcSeen s link
    match i.held, i.released with
    | _, some t => if xwTag w = t then setInst s k {} else setInst s k { i with count := i.count + 1 }
    | some n, none =>
      if n ≤ xwTag w then xingErr s 0 eXingProtocol link w
      else if i.count + 1 = n then releaseInst s k { i with count := i.count + 1 } n
      else setInst s k { i with count := i.count + 1 }
    | none, none => setInst s k { i with count := i.count + 1 }

/-- XC_ACK (R373, R376). -/
def execXcAck (link : Nat) (word : W32) (s : State) : Host.Outcome State Fault Refusal :=
  liveRoot s fun s =>
    if ¬ xcOpen s link then s
    else if groupDead s word then xcSeen s link
    else xcAck s link word

/-- XC_HOLD (R373): ready is low while a hold with an equal tag stands on the link, and while the instance holds another. A hold of
a partition that is RESETTING or FREE is released at once. -/
def execXcHold (link : Nat) (word : W32) (s : State) : Host.Outcome State Fault Refusal :=
  liveRoot s fun s =>
    let k := instKey word
    let n := xwTag word
    let i : Inst := { tget {} s.xing.insts k with link := link }
    let same := s.xing.insts.any (fun x => x.2.link == link && x.2.held == some n && x.2.released.isNone)
    if ¬ xcOpen s link ∨ same ∨ i.held.isSome then s
    else if groupDead s word then modXing (xcSeen s link) fun x => { x with rel := x.rel ++ [(link, n)] }
    else if (kget s.xing.insts k).isNone ∧ Config.instMax ≤ s.xing.insts.length then s
    else
      let s := xcSeen s link
      if i.count = n then releaseInst s k i n
      else if n < i.count then xingErr (setInst s k { i with held := some n }) 0 eXingProtocol link word
      else setInst s k { i with held := some n }

/-- A closure write of the partition toward the chip is held, or released and not acknowledged (R374). -/
def setHeldBack (s : State) (p chip : Nat) : Bool :=
  s.xing.insts.any (fun x => x.1 / 64 / 16 == p && x.1 % 64 == chip && x.2.held.isSome)

/-- A SIGNAL node's SET has been sent, or dropped: its node goes on (R192). -/
def setSent (s : State) (r : RSet) : State :=
  if r.node = 0 then s
  else modLaunch s r.launch fun l => { l with
    nodes := l.nodes.mapIdx (fun i x => if i + 1 = r.node then { x with ended := true } else x) }

/-- REMOTE_SET_SEND (R374, R375): the first SET toward the chip that nothing holds back. -/
def execRemoteSetSend (chip : Nat) (s : State) : Host.Outcome State Fault Refusal :=
  liveRoot s fun s =>
    if s.glb.frozen ∨ ¬ xcOpen s ((tget 0#32 s.xing.routes chip).toNat % 8) then s
    else match s.xing.sets.find? (fun r => r.chip == chip && !setHeldBack s r.part chip) with
      | none => s
      | some r => setSent (xcSend (modXing s fun x => { x with sets := x.sets.erase r }) chip (setMsg s r r.poison)) r

/-- A remote flag message's fields (R375). -/
def xmKind (m : BitVec 128) : Nat := fld m 0 4
def xmSrc (m : BitVec 128) : Nat := fld m 4 6
def xmDst (m : BitVec 128) : Nat := fld m 10 6
def xmPart (m : BitVec 128) : Nat := fld m 16 6
def xmPoison (m : BitVec 128) : Bool := bitOf m 22
def xmIndex (m : BitVec 128) : Nat := fld m 24 16
def xmCompare (m : BitVec 128) : Nat := fld m 40 3
def xmWaitId (m : BitVec 128) : Nat := fld m 46 14
def xmValue (m : BitVec 128) : Nat := fld m 64 62

/-- An incoming SET (R375): source 4 of R160. -/
def rxSet (s : State) (m : BitVec 128) : State :=
  let g : Sig := {
    src := 400, part := xmPart m, handle := xmIndex m, op := if xmPoison m then 4 else 2, x := xmValue m, launch := 0 }
  if flagInRange s (xmPart m) (xmIndex m) then queueSigs s [g] else denySignal s g (flagAddr s (xmPart m) (xmIndex m) 0)

/-- The remote wait that a WAIT_ARM names (R375). -/
def rxWait (link : Nat) (m : BitVec 128) : RemArm := {
  chip := xmSrc m, waitId := xmWaitId m, part := xmPart m, index := xmIndex m, compare := xmCompare m, crest := xmValue m
  link := link }

/-- An incoming WAIT_ARM (R169, R173, R375): armed, or answered at once. -/
def rxArm (s : State) (link : Nat) (m : BitVec 128) : State :=
  let r := rxWait link m
  if ¬ flagInRange s r.part r.index then
    let s := wstatSet (werr (raiseOn s eFlagDenied (some r.part) none [(.handle, r.index)]) r.part eFlagDenied 0 r.index (flagAddr s r.part r.index 0) 0 0 0 0) r.part 4
    waitReply s r true
  else
    let w := flagWord s r.index
    if bitOf w 63 then waitReply s r true
    else if cmpMet r.compare (fld w 0 62) r.crest then waitReply s r false
    else notePeak (modWeir s fun x => { x with remote := x.remote ++ [r] })

/-- A remote arming finds room (R169, R173). -/
def armRoom (s : State) (p : Nat) : Bool :=
  decide (armedTotal s < Config.armedMax) && decide (armedPart s p < (getPart s p).waitLimit)

/-- An incoming WAIT_REPLY (R173, R375): one that nothing waits for is discarded. A poison reply does not tell a poisoned flag from
a denied one: which of the two events it gives is a free value (log entry 3). -/
def rxReply (s : State) (m : BitVec 128) : State :=
  match kget s.xing.waits (xmWaitId m) with
  | none => s
  | some w =>
    if w.chip ≠ xmSrc m then s else
    let s := modXing s fun x => { x with waits := kdel x.waits (xmWaitId m) }
    match (kget s.launches w.launch).bind (fun l => openEntry l w.entry w.node) with
    | none => s
    | some e =>
      if ¬ xmPoison m then waitMet s w.launch w.entry w.node
      else
        waitFail s w.launch e (if bitOf (Config.freeOf 30 m.toNat e.entry) 0 then eFlagDenied else eWaitPoisoned) stAborted
          (flagAddr s ((getLaunch s w.launch).part) e.handle 0)

/-- XC_RX (R173, R375); a frozen block discards SETs and answers WAIT_ARM with poison (R452). -/
def execXcRx (link : Nat) (msg : BitVec 128) (s : State) : Host.Outcome State Fault Refusal :=
  liveRoot s fun s =>
    if ¬ xcOpen s link then s
    else if xmKind msg = 0 ∨ 4 < xmKind msg ∨ xmDst msg ≠ s.xing.chip then
      xingErr (xcSeen s link) 0 eXingProtocol link (BitVec.ofNat 32 (fld msg 0 32))
    else match xmKind msg with
      | 1 => if s.glb.frozen then xcSeen s link else rxSet (xcSeen s link) msg
      | 2 =>
        if s.glb.frozen then waitReply (xcSeen s link) (rxWait link msg) true
        else if (flagInRange s (xmPart msg) (xmIndex msg) ∧ ¬ armRoom s (xmPart msg)) then s
        else rxArm (xcSeen s link) link msg
      | 3 => modWeir (xcSeen s link) fun x => { x with
          remote := x.remote.filter (fun r => !(r.chip == xmSrc msg && r.waitId == xmWaitId msg && r.part == xmPart msg)) }
      | _ => rxReply (xcSeen s link) msg

/-- XC_UP_FALL (R376): queued SETs go, remote waits end with poison, held closure writes stay. -/
def execXcUpFall (link : Nat) (s : State) : Host.Outcome State Fault Refusal :=
  liveRoot s fun s =>
    if s.par.xingLinks ≤ link ∨ ¬ (tget {} s.xing.links link).up then s else
    let s := modXing s fun x => { x with links := tput {} x.links link { tget {} x.links link with up := false } }
    let s := xingErr s 2 eXingLink link 0
    let onLink := fun (r : RSet) => (tget 0#32 s.xing.routes r.chip).toNat % 8 == link
    let gone := s.xing.sets.filter onLink
    let s := gone.foldl setSent (modXing s fun x => { x with sets := x.sets.filter (fun r => !onLink r) })
    let ws := s.xing.waits.filter (fun x => x.2.link == link)
    let s := modXing s fun x => { x with waits := x.waits.filter (fun y => y.2.link != link) }
    ws.foldl (fun s x => match (kget s.launches x.2.launch).bind (fun l => openEntry l x.2.entry x.2.node) with
      | none => s
      | some e => waitFail s x.2.launch e eWaitPoisoned stAborted (flagAddr s ((getLaunch s x.2.launch).part) e.handle 0)) s

/-- HOLD_TIMEOUT (R376): once for a hold; with group and chip 0 also for an acknowledgement kept out by 256 open instances. -/
def execHoldTimeout (link group chip : Nat) (s : State) : Host.Outcome State Fault Refusal :=
  liveRoot s fun s =>
    let k := group * 64 + chip
    let i := tget {} s.xing.insts k
    match i.held, i.released with
    | some n, none =>
      if i.link ≠ link ∨ i.late then s
      else xingErr (setInst s k { i with late := true }) 1 eXingHoldTimeout link (BitVec.ofNat 32 (n + put group 16 + put chip 26))
    | _, _ =>
      if group = 0 ∧ chip = 0 ∧ Config.instMax ≤ s.xing.insts.length then xingErr s 1 eXingHoldTimeout link 0 else s

end Sys2Proof.Machine
end

