-- ==== Sys2Proof/Machine/Loopback.lean ====
section
/-! DEFINITION. Loop-back exchanges (R77, R486, R504–R511). -/

namespace Sys2Proof.Machine

/-- One step of the PRBS31 register x^31 + x^28 + 1 (log entry 21). -/
def prbsStep (x : Nat) : Nat := (x * 2 + (if x.testBit 30 != x.testBit 27 then 1 else 0)) % 2 ^ 31
/-- The next n bits of the stream, the first in bit 0, and the register behind them. -/
def prbsBits : Nat → Nat → Nat × Nat
  | 0, x => (0, x)
  | n + 1, x =>
    let y := prbsStep x
    let r := prbsBits n y
    (y % 2 + 2 * r.1, r.2)

/-- SEED of exchange k with agent a (R505). -/
def lbSeed (s : State) (a k : Nat) : Nat :=
  let v := (s.lb.pat.toNat ^^^ (a * 2 ^ 24) ^^^ k) % 2 ^ 32
  if v = 0 then 1 else v

/-- A LOOPBACK payload (R505). -/
def lbPayload (sub seed : Nat) : BitVec 416 := BitVec.ofNat 416 (pack [(8, sub), (24, 0), (32, seed), (352, (prbsBits 352 (seed % 2 ^ 31)).1)])

/-- Elements of a loop-back record (R507): for each a bit b and a 4-bit e in turn, (−1)^b × 2^(e − 8) in FP32. -/
def lbElems : Nat → Nat → List Nat
  | 0, _ => []
  | n + 1, x =>
    let b := prbsBits 1 x
    let e := prbsBits 4 b.2
    (b.1 * 2 ^ 31 + (e.1 + 119) * 2 ^ 23) :: lbElems n e.2

/-- Elements of the 16 records of a shard. -/
def lbAll (seed : Nat) : List Nat := lbElems 128 (seed % 2 ^ 31)

/-- Record r of either shard (R507): M 0, L 1, MID 0. -/
def lbRecord (seed r : Nat) : W512 :=
  let os := (lbAll seed).drop (8 * r)
  BitVec.ofNat 512 (pack ((os.take 8).map (fun o => (32, o)) ++ [(32, 0), (32, 0x3F800000), (16, r / 8), (8, r % 8), (8, 0)]))

/-- LAUNCH_ID of an OUTFALL exchange (R507). -/
def lbLaunch (a k : Nat) : Nat := 0xE0000000 + a * 65536 + k

/-- SUB of a point's exchange (R504, R505). -/
def lbSub (point : Nat) : Nat := if point = 5 then 2 else if point = 6 then 3 else 1

/-- Bring-up of an agent makes its timed exchanges (R77, step 5). -/
def bringEx (s : State) (a : Nat) : Option Bring := (kget s.glb.bring a).filter (fun b => b.step == 5)

/-- The message that a XING exchange builds (R508). -/
def lbXing (s : State) (body : BitVec 416) : Nat :=
  1 + put s.xing.chip 4 + put s.xing.chip 10 + put (fld body 64 16) 24 + put (fld body 80 62) 64

/-- LOOPBACK_SEND (R77, R506–R508): the next exchange with an agent, or of a point at the Root. -/
def execLoopbackSend (a : Nat) (s : State) : Host.Outcome State Fault Refusal :=
  liveRoot s fun s =>
    let b := s.lb
    if b.flight.any (fun x => x.agent == a) then s
    else match bringEx s a with
      | some g =>
        let body := lbPayload 1 (lbSeed s a g.exch)
        sendDown (modLb s fun b => { b with flight := b.flight ++ [{ agent := a, k := g.exch, sent := body }] }) a (.loopback 1 body)
      | none =>
        let k := tget 0 b.next a
        if ¬ b.busy ∨ s.glb.frozen ∨ ¬ b.members.contains a ∨ b.count ≤ k then s
        else
          let pat := lbPayload (lbSub b.point) (lbSeed s a k)
          let body := if b.point = 7 then BitVec.ofNat 416 (lbXing s pat) else pat
          let go := fun (s : State) => modLb s fun b => { b with
            next := tput 0 b.next a (k + 1), flight := b.flight ++ [{ agent := a, k := k, sent := body }] }
          match b.point with
          | 2 => (mgrWrite (go s) Config.fnManager (b.buf.toNat + k % 64 * 64) 64 body.toNat .loopWrite).2
          | 4 | 5 => sendDown (go s) a (.loopback (lbSub b.point) body)
          | 6 =>
            if Config.mergeMax < mergeUsed s + 16 then s
            else
              let s := setMerge (go s) (mergeKeyOf (lbLaunch a k) 0) {
                dim0 := 2, dim1 := 64, nshard := 2, ncand := 1, fmt := 0, mdest := BitVec.ofNat 64 (b.buf.toNat + 0x1000 + a * 0x200)
                part := Config.fnManager, started := [0, 1], loop := some a }
              let s := { s with outf := { s.outf with peak := max s.outf.peak (mergeUsed s) } }
              sendDown s a (.loopback 3 body)
          | _ => go s

/-- LOOPBACK at the agent (R505, R507). -/
def execLoopback (a : Nat) (s : State) : Host.Outcome State Fault Refusal :=
  liveAgent s a fun s =>
    match downHead s a with
    | some (.loopback sub body) =>
      let s := takeDown s a
      if sub = 1 ∨ sub = 2 then sendUp s a (.loopback sub body)
      else if sub = 3 then
        let k := ((s.lb.flight.find? (fun x => x.agent == a)).map (fun x => x.k)).getD 0
        let seed := fld body 32 32
        let s := (upTo 32).foldl (fun s r => sendUp s a (.partialRec (a * 16) 0 (lbLaunch a k) (lbRecord seed (r % 16)))) s
        sendUp s a (.loopback sub body)
      else raise s eTideProtocol none (some a)
    | _ => s

/-- The run has ended (R510): every exchange was answered or timed out. -/
def lbFinish (s : State) : State :=
  let b := s.lb
  if ¬ b.busy ∨ ¬ b.members.all (fun a => decide (b.count ≤ tget 0 b.next a) && !b.flight.any (fun x => x.agent == a)) then s
  else
    let s := lbFree (modLb s fun b => { b with busy := false, done := true, mismatch := b.mismatch || decide (0 < b.bad) })
    match b.firstBad with
    | some (_, a, _, _) => raise s eLoopbackMismatch none (if 4 ≤ b.point ∧ b.point ≤ 6 then some a else none)
    | none => s

/-- The exchange leaves the run: its merge slots and its write go. -/
def lbDrop (s : State) (x : LbEx) : State :=
  let s := modLb s fun b => { b with flight := b.flight.erase x }
  let s := if s.lb.point = 2 then { s with port := { s.port with writes := s.port.writes.filter (fun w => w.kind != .loopWrite) } } else s
  if s.lb.point = 6 then delMerge (readDone s (.loop x.agent)) (mergeKeyOf (lbLaunch x.agent x.k) 0) else s

/-- First byte in which two payloads differ, and the XOR of the words there (R512). -/
def lbDiff (x y : BitVec 416) : Option (Nat × Nat) :=
  ((upTo 52).find? (fun i => fld x (8 * i) 8 != fld y (8 * i) 8)).map (fun i =>
    (i, fld x (32 * (i / 4)) 32 ^^^ fld y (32 * (i / 4)) 32))

/-- An exchange of a run has its answer (R506, R510). -/
def lbAnswer (s : State) (x : LbEx) (bad : Option (Nat × Nat)) (rtt : Nat) : State :=
  let s := lbDrop s x
  let s := match bad with
    | some (off, diff) => lbBad s x.k x.agent off diff
    | none => modLb s fun b => { b with
        exch := b.exch + 1, good := b.good + 1, rttSum := b.rttSum + rtt
        rttMin := if b.good = 0 then rtt else min b.rttMin rtt, rttMax := max b.rttMax rtt }
  lbFinish s

/-- What of an OUTFALL exchange came back wrong (R507): the merged output against the elements sent. -/
def lbOutBad (s : State) (x : LbEx) : Option (Nat × Nat) :=
  let m := (getMerge? s (mergeKeyOf (lbLaunch x.agent x.k) 0)).getD {}
  let seed := fld x.sent 32 32
  let out := fun (r : Nat) => (finishSlot (tget {} m.slots (r / 8 * 64 + r % 8)) 0).map (fun (y : Nat × Nat) => y.1)
  ((upTo 16).find? (fun r => out r != ((lbAll seed).drop (8 * r)).take 8)).map (fun _ => (8, 0))

/-- Every slot of an OUTFALL exchange has its write response. -/
def lbWritten (s : State) (x : LbEx) : Bool :=
  (getMerge? s (mergeKeyOf (lbLaunch x.agent x.k) 0)).any (fun m => decide ((m.slots.filter (fun y => y.2.written)).length = 16))

/-- LOOPBACK_ANSWER (R77, R506, R507). `bytes`: for a point at the Root, the bytes that came back; for OUTFALL, 0 when the bytes read
back are those written, else the first wrong byte's OFFSET in [5:0] and DIFF in [63:32]. -/
def execLoopbackAnswer (a rtt phase mhz : Nat) (bytes : BitVec 416) (s : State) : Host.Outcome State Fault Refusal :=
  liveRoot s fun s =>
    let ex := s.lb.flight.find? (fun x => x.agent == a)
    match upHead s a, ex with
    | some (.loopback _ body), some x =>
      if (bringEx s a).isSome then
        bringExchange (modLb (takeUp s a) fun b => { b with flight := b.flight.erase x }) a rtt phase mhz
      else if ¬ (s.lb.busy ∨ s.lb.stopping) then modLb (takeUp s a) fun b => { b with flight := b.flight.erase x }
      else if s.lb.point = 6 then
        if ¬ lbWritten s x then s
        else
          let bad := (lbDiff x.sent body).orElse (fun _ => (lbOutBad s x).orElse (fun _ =>
            if bytes = 0 then none else some (fld bytes 0 6, fld bytes 32 32)))
          lbAnswer (takeUp s a) x bad rtt
      else if 4 ≤ s.lb.point then lbAnswer (takeUp s a) x (lbDiff x.sent body) rtt
      else takeUp s a
    | some (.loopback _ _), none => takeUp s a
    | _, some x =>
      if (bringEx s a).isSome ∨ (4 ≤ s.lb.point ∧ s.lb.point ≠ 7) then s
      else lbAnswer s x (lbDiff x.sent bytes) rtt
    | _, none => s

/-- LOOPBACK_TIMEOUT (R77, R506): no answer within 20 µs. -/
def execLoopbackTimeout (a : Nat) (s : State) : Host.Outcome State Fault Refusal :=
  liveRoot s fun s =>
    match s.lb.flight.find? (fun x => x.agent == a) with
    | none => s
    | some x =>
      if (bringEx s a).isSome ∨ ¬ (s.lb.busy ∨ s.lb.stopping) then modLb s fun b => { b with flight := b.flight.erase x }
      else lbAnswer s x (some (0x3F, 0)) 0

end Sys2Proof.Machine
end

