-- ==== Sys2Proof/Machine/Steward.lean ====
section
/-! DEFINITION. The berm gate of a stack agent (R418–R423, R436) and the Steward: directory, wear ledger, relocation, fencing, defects
(R424–R438). -/

namespace Sys2Proof.Machine

/-- A Steward event (R437) with what it names: STEW_LASTERR, and a STEW_STAT bit with manager vector 5 where the event has one. -/
def stewNote (s : State) (bit : Option Nat) (code : Nat) (part : Option Nat) (a : Nat) (tier : Bool) (unit : Nat)
    (named : List (Item × Nat)) : State :=
  let was := match bit with
    | some b => s.stew.stat.testBit b
    | none => true
  let s := modStew (raiseOn s code part (some a) named) fun w => { w with
    stat := match bit with
      | some b => setBit w.stat b
      | none => w.stat
    errAgent := a, errTier := tier, errUnit := unit, errCode := code }
  if was then s else reqVec s 4357
/-- A Steward event that names its unit, by tier and number. -/
def stewErr (s : State) (bit : Option Nat) (code : Nat) (part : Option Nat) (a : Nat) (tier : Bool) (unit : Nat) : State :=
  stewNote s bit code part a tier unit [(.tier, b2n tier), (.unit, unit)]

/-- A stack agent whose initialisation has ended (R418, R422). -/
def bermLive (s : State) (a : Nat) : Bool := stackIf s a && (getAgent s a).initDone
def modBerm (s : State) (a : Nat) (f : Berm → Berm) : State := modAgent s a fun g => { g with berm := f g.berm }

/-- Masked queues whose engine holds a presented macro-op. -/
def bermBusy (s : State) (a : Nat) : List Nat :=
  (upTo 16).filter (fun l => (getAgent s a).berm.mask.testBit l && (getEq s a l).pres.isSome)

/-- What the gate does at a deadline (R418). -/
def bermGate (s : State) (a d : Nat) : State :=
  let s := modBerm s a fun b => { b with d := d, noPresent := b.noPresent || decide (d ≤ b.hold) }
  let b := (getAgent s a).berm
  let busy := bermBusy s a
  if b.guard < d ∨ busy.isEmpty then s
  else
    let s := busy.foldl (fun s l => modEq s a l fun q => if q.preempt.isSome then q else { q with preempt := some 0, stopFor := 2 }) s
    if b.forced then s
    else
      let s := modStack (modBerm s a fun b => { b with forced := true }) a fun k => { k with forced := satN 16 (k.forced + 1) }
      stewNote s (some 0) eBermForced none a false 0 [(.deadline, d)]

/-- STK_BERM_REQ (R418). -/
def execStkBermReq (a deadline : Nat) (s : State) : Host.Outcome State Fault Refusal :=
  liveAgent s a fun s =>
    if ¬ bermLive s a ∨ (getAgent s a).berm.req then s
    else bermGate (modBerm s a fun b => { b with
      req := true, granted := false, forced := false, overlong := false, noPresent := false }) a (deadline % 2 ^ 20)

/-- BERM_DEADLINE_BAND (R418). -/
def execBermDeadlineBand (a deadline : Nat) (s : State) : Host.Outcome State Fault Refusal :=
  liveAgent s a fun s =>
    let b := (getAgent s a).berm
    if ¬ bermLive s a ∨ ¬ b.req ∨ b.granted then s else bermGate s a (deadline % 2 ^ 20)

/-- BERM_GRANT (R418, R420): once no masked engine holds a presented macro-op, or the deadline is reached. -/
def execBermGrant (a : Nat) (s : State) : Host.Outcome State Fault Refusal :=
  liveAgent s a fun s =>
    let b := (getAgent s a).berm
    let busy := bermBusy s a
    if ¬ bermLive s a ∨ ¬ b.req ∨ b.granted ∨ (¬ busy.isEmpty ∧ b.d ≠ 0) then s
    else
      let s := modStack (modBerm s a fun b => { b with granted := true }) a fun k => { k with berms := satN 32 (k.berms + 1) }
      if busy.isEmpty then s
      else
        let s := busy.foldl (fun s l => modEq s a l fun q => match presEnt q with
          | some e => putEnt q { e with cut := true }
          | none => q) s
        stewNote (modStack s a fun k => { k with misses := satN 16 (k.misses + 1) }) (some 1) eRetentionMiss none a false 0
          (busy.map (fun l => (Item.engineQueue, a * 16 + l)))

/-- BERM_RELEASE (R419): the stack drops req; `ns10`: how long the grant stood. -/
def execBermRelease (a ns10 : Nat) (s : State) : Host.Outcome State Fault Refusal :=
  liveAgent s a fun s =>
    let b := (getAgent s a).berm
    if ¬ bermLive s a ∨ ¬ b.req then s
    else
      let s := modBerm s a fun b => { b with req := false, granted := false, forced := false, overlong := false, noPresent := false }
      if b.granted then modStack s a fun k => { k with bermTime := satN 32 (k.bermTime + ns10) } else s

/-- BERM_OVERLONG (R421). -/
def execBermOverlong (a : Nat) (s : State) : Host.Outcome State Fault Refusal :=
  liveAgent s a fun s =>
    let b := (getAgent s a).berm
    if ¬ b.granted ∨ b.overlong then s
    else stewNote (modBerm s a fun b => { b with overlong := true }) none eBermOverlong none a false 0 []

/-- Fields of a directory word (R424). -/
def dirHandle (w : W64) : Nat := fld w 0 20
def dirPart (w : W64) : Nat := fld w 20 6
def dirValid (w : W64) : Bool := bitOf w 26
def dirSpare (w : W64) : Bool := bitOf w 27
def dirFenced (w : W64) : Bool := bitOf w 28
/-- Fields of a ledger word (R428). -/
def ledWrites (w : W64) : Nat := fld w 0 40
def ledWorn90 (w : W64) : Bool := bitOf w 40
def ledWorn100 (w : W64) : Bool := bitOf w 41

/-- Base and size of a unit (R424): a DRAM unit, or a weight region. -/
def unitBase (s : State) (a : Nat) (tier : Bool) (u : Nat) : Nat :=
  let k := getStack s a
  if tier then k.nvBase.toNat + u * 2 ^ 20 else k.dramBase.toNat + u * 2 ^ 16
def unitSize (tier : Bool) : Nat := if tier then 2 ^ 20 else 2 ^ 16
/-- Units of a tier. -/
def unitCount (s : State) (a : Nat) (tier : Bool) : Nat := if tier then (getStack s a).nvUnits else (getStack s a).dramUnits

/-- Write a word of the directory: the DRAM units of a stack agent first, then its regions (R424). -/
def writeDir (s : State) (a : Nat) (tier : Bool) (u : Nat) (w : W64) : State :=
  let k := getStack s a
  let i := k.dir + (if tier then k.dramUnits else 0) + u
  (mgrWrite s Config.fnManager (s.stew.dirBase.toNat + i * 8) 8 w.toNat .stewWord).2
/-- Write a word of the ledger (R428). -/
def writeLed (s : State) (a r : Nat) (w : W64) : State :=
  (mgrWrite s Config.fnManager (s.stew.ledBase.toNat + ((getStack s a).led + r) * 8) 8 w.toNat .stewWord).2

/-- The mapping entry meets the conditions of R425. -/
def entryOk (s : State) (a : Nat) (tier : Bool) (u : Nat) (e : BitVec 128) : Bool :=
  let b := unitBase s a tier u
  hStew e && hValid e && decide (hKind e = if tier then 6 else 5) && decide (b ≤ hAddr e)
    && decide (hAddr e + hLen64 e * 64 ≤ b + unitSize tier)

/-- Write a mapping entry through the relocation unit (R144, R426). -/
def writeEntry (s : State) (w : W64) (e : BitVec 128) : State :=
  let p := dirPart w
  let i := dirHandle w
  cacheUpdate (mgrWrite s p ((getPart s p).htabBase.toNat + i * 16) 16 e.toNat (.entry p i)).2 p i e

/-- E_STEW_DIR_MISMATCH of a report that names no unit of the stack (R429, R434). -/
def badReport (s : State) (a : Nat) (tier : Bool) (u : Nat) : State := stewErr s (some 4) eStewDirMismatch none a tier u
/-- E_STEW_DIR_MISMATCH of an entry that breaks R425; `w` is the unit's directory word. -/
def dirMismatch (s : State) (a : Nat) (tier : Bool) (u : Nat) (w : W64) : State :=
  stewNote s (some 4) eStewDirMismatch (some (dirPart w)) a tier u [(.tier, b2n tier), (.unit, u), (.handle, dirHandle w)]

/-- Audit entry of the Steward (R494): 1 switch, 2 fence, 3 WRITABLE cleared. -/
def stewAudit (s : State) (code a : Nat) (tier : Bool) (u : Nat) (w : W64) : State :=
  audit s 5 Config.fnNone 9 code (a + put (b2n tier) 6 + put u 8) (fld w 0 26)

/-- Set FENCED in a unit's word (R424, R427). -/
def fenceUnit (s : State) (a : Nat) (tier : Bool) (u : Nat) (w : W64) : State :=
  modStack (writeDir s a tier u (setFld w 28 1 1)) a fun k => { k with fences := satN 16 (k.fences + 1) }

/-- The switch (R426, R427): the entry names the new unit, and the old one waits for the launches now outstanding. -/
def stewSwitch (s : State) (a : Nat) (tier : Bool) (old new : Nat) (wOld wNew : W64) (e : BitVec 128) : State :=
  let p := dirPart wOld
  let addr := unitBase s a tier new + (hAddr e - unitBase s a tier old)
  let s := writeEntry s wOld (setFld (setFld e 6 58 (addr / 64)) 100 1 1)
  let s := writeDir s a tier new (setFld (setFld (setFld wNew 0 26 (fld wOld 0 26)) 26 1 1) 27 1 0)
  let w := setFld (setFld wOld 26 2 0) 29 1 0
  let s := writeDir s a tier old w
  let s := stewAudit (modStack s a fun k => { k with relocs := satN 16 (k.relocs + 1) }) 1 a tier old wOld
  let s := modStew s fun x => { x with pend := x.pend.filter (fun y => y != (p, a, old)) }
  let ls := ((s.launches.filter (fun x => x.2.part == p)).map (fun (x : Nat × Launch) => x.1))
  if ls.isEmpty then stewAudit (fenceUnit s a tier old w) 2 a tier old w
  else modStew s fun x => { x with fences := x.fences ++ [{ agent := a, tier := tier, unit := old, word := w, part := p, launches := ls }] }

/-- UNIT_FENCE (R427): the pin count is 0. -/
def execUnitFence (a unit : Nat) (weight : Bool) (s : State) : Host.Outcome State Fault Refusal :=
  liveRoot s fun s =>
    match s.stew.fences.find? (fun f => f.agent == a && f.unit == unit && f.tier == weight) with
    | none => s
    | some f =>
      if f.launches.any (fun id => (kget s.launches id).isSome) then s
      else stewAudit (fenceUnit (modStew s fun x => { x with fences := x.fences.erase f }) a weight unit f.word) 2 a weight unit f.word

/-- The macro-op of a STREAM over the two regions of a relocation copy, and of the COPY (R430). DIM0 and DIM1, which R430 does not
give, are 512 (log entry 20). -/
def stewStream (s : State) (a src dst : Nat) : W512 :=
  let b := unitBase s a true src
  let stride := fun (d : Int) => unsgn 32 d
  let d := pack [(64, b + 3), (16, 4096), (1, 1), (47, 0), (32, 2), (32, stride ((unitBase s a true dst : Int) - b)), (32, 16), (32, 65536),
    (32, 1), (32, 0), (32, 1), (32, 0)]
  BitVec.ofNat 512 (pack [(8, 0x10), (120, 0), (384, d)])
def stewCopy : W512 :=
  BitVec.ofNat 512 (pack [(8, 4), (8, 0), (8, 8), (8, 0), (8, 8), (8, 0), (16, 16), (64, 0), (16, 1), (48, 0), (16, 1), (16, 0), (16, 512),
    (16, 512)])

/-- Start the copy of a region (R430, steps 1 and 2). `others`: the words of the stack's regions, as read. -/
def startCopy (s : State) (a r : Nat) (w : W64) (e : BitVec 128) (others : List StackWord) : State :=
  let retry := fun (s : State) => modStew s fun x => { x with
    retry := if x.retry.contains (a, r) then x.retry else x.retry ++ [(a, r)] }
  if s.stew.copy.isSome then retry s
  else
    let fit := others.filter (fun o => decide (o.region < (getStack s a).nvUnits) && o.region != r && dirSpare o.dir && !dirFenced o.dir
      && !ledWorn90 o.led && !ledWorn100 o.led)
    let best := fit.foldl (fun (b : Option StackWord) o => match b with
      | none => some o
      | some c => if o.region < c.region then some o else some c) none
    match best with
    | none => retry (stewErr s (some 3) eStewNoSpare none a true r)
    | some t =>
      let p := dirPart w
      let tw := setFld t.dir 27 1 0
      let s := writeDir s a true t.region tw
      let n := s.stew.copyNo
      let eq := a * 16 + (getStack s a).bermQ.toNat / 65536 % 16
      let tag := freeTag s eq 1024 s.sched.nextTag
      let tag2 := freeTag s eq 1024 ((tag + 1) % 2 ^ 15)
      let s := modSched s fun c => { c with nextTag := (tag2 + 1) % 2 ^ 15 }
      let s := modStew s fun x => { x with
        copyNo := (n + 1) % 65536, retry := x.retry.filter (fun y => y != (a, r))
        copy := some {
          agent := a, region := r, target := t.region, word := w, tgtWord := tw, entry := e, part := p
          pendReg := x.pend.contains (p, a, r), tag := tag2, sent := n, ended := false, ok := true } }
      let push := fun (t : Nat) (m : W512) => ({
        eq := eq, be := true, tag := t, part := p, maint := decide ((getPart s p).st = .maint), launch := 0xC0000000 + n
        allow := 0xFFFFFFFF, mop := m } : PushMsg)
      pumpPushes (modStew s fun x => { x with pushq := x.pushq ++ [push tag (stewStream s a r t.region), push tag2 stewCopy] })

/-- The Steward takes a report now (R427, R435). -/
def stewTakes (s : State) (a : Nat) : Bool :=
  s.stew.enable && stackIf s a && decide (s.stew.fences.length < Config.fenceMax) && !s.glb.frozen

/-- A region has come to 90 % of its endurance (R430, R431). -/
def wornSoon (s : State) (a r : Nat) (w : W64) (e : BitVec 128) (others : List StackWord) : State :=
  if ¬ hWritable e then startCopy s a r w e others
  else
    let s := writeDir s a true r (setFld w 29 1 1)
    modStew s fun x => { x with pend := if x.pend.contains (dirPart w, a, r) then x.pend else x.pend ++ [(dirPart w, a, r)] }

/-- A region has come to its endurance (R432, R436). -/
def wornOut (s : State) (a r : Nat) (w : W64) (e : BitVec 128) (ok : Bool) : State :=
  let e' := setFld e 98 1 0
  let s := if ok then stewAudit (writeEntry s w e') 3 a true r w else s
  let s := modStew s fun x => { x with copy := x.copy.map (fun k =>
    if k.agent = a ∧ k.region = r then { k with entry := setFld k.entry 98 1 0 } else k) }
  stewNote s (some 2) eWearLimit (if dirValid w then some (dirPart w) else none) a true r
    [(.tier, 1), (.unit, r), (.handle, dirHandle w)]

/-- STK_WEAR (R428–R432). `w`, `entry`, `others`: the region's words, its mapping entry and the other regions' words, as read. -/
def execStkWear (a : Nat) (report : W64) (w : StackWord) (entry : BitVec 128) (others : List StackWord) (s : State) :
    Host.Outcome State Fault Refusal :=
  liveRoot s fun s =>
    let r := fld report 0 24
    if ¬ stewTakes s a then s
    else if (getStack s a).nvUnits ≤ r ∨ fld report 48 16 ≠ 0 then badReport s a true r
    else if w.region ≠ r then s
    else
      let n := min (ledWrites w.led + fld report 24 24) (2 ^ 40 - 1)
      let d := (getStack s a).endur
      let w90 := ledWorn90 w.led || (decide (d ≠ 0) && decide (d * 9 ≤ n * 10))
      let w100 := ledWorn100 w.led || (decide (d ≠ 0) && decide (d ≤ n))
      let s := writeLed s a r (BitVec.ofNat 64 (n + put (b2n w90) 40 + put (b2n w100) 41))
      let soon := w90 && !ledWorn90 w.led
      let out := w100 && !ledWorn100 w.led
      let mapped := dirValid w.dir
      let ok := mapped && entryOk s a true r entry
      let s := if (soon || out) && mapped && !ok then dirMismatch s a true r w.dir else s
      let s := if soon && ok then wornSoon s a r w.dir entry others else s
      if out then wornOut s a r w.dir entry ok else s

/-- RELOCATION_COPY_DONE (R430, R431): the switch waits while 256 units await fencing (R427, log entry 69). -/
def execRelocationCopyDone (ok : Bool) (s : State) : Host.Outcome State Fault Refusal :=
  liveRoot s fun s =>
    match s.stew.copy with
    | none => s
    | some k =>
      if ¬ k.ended ∨ k.ok ≠ ok ∨ (ok ∧ Config.fenceMax ≤ s.stew.fences.length) then s
      else
        let s := modStew s fun x => { x with copy := none }
        if ok then stewSwitch s k.agent true k.region k.target k.word k.tgtWord k.entry
        else
          let s := writeDir s k.agent true k.target (setFld k.tgtWord 27 1 1)
          let s := stewErr s (some 5) eStewCopyFail none k.agent true k.region
          modStew s fun x => { x with retry := x.retry ++ [(k.agent, k.region)] }

/-- STEW_RETRY (R430, R431): at a tick, a relocation that found no spare or whose copy failed, or a pending region whose owner is
MAINT with nothing outstanding. -/
def execStewRetry (a : Nat) (w : StackWord) (entry : BitVec 128) (others : List StackWord) (s : State) :
    Host.Outcome State Fault Refusal :=
  liveRoot s fun s =>
    let r := w.region
    let p := dirPart w.dir
    let again := s.stew.retry.contains (a, r)
    let pending := s.stew.pend.contains (p, a, r)
    let quiet := decide ((getPart s p).st = .maint) && !s.launches.any (fun x => x.2.part == p)
    if ¬ stewTakes s a ∨ s.stew.copy.isSome ∨ ¬ (if pending then quiet else again) then s
    else if ¬ dirValid w.dir then modStew s fun x => { x with retry := x.retry.filter (fun y => y != (a, r)) }
    else if ¬ entryOk s a true r entry then
      dirMismatch (modStew s fun x => { x with retry := x.retry.filter (fun y => y != (a, r)) }) a true r w.dir
    else startCopy s a r w.dir entry others

/-- A defect hits a region under copy (R436): the copy is abandoned and its target returns to SPARE. -/
def dropCopy (s : State) (a unit : Nat) (tier : Bool) : State :=
  match s.stew.copy with
  | none => s
  | some k =>
    if ¬ tier ∨ k.agent ≠ a ∨ k.region ≠ unit then s
    else
      let s := writeDir s a true k.target (setFld k.tgtWord 27 1 1)
      sendAbort (modStew s fun x => { x with copy := none, pushq := [] }) a (0xC0000000 + k.sent)

/-- STK_DEFECT (R433, R434). `old`, `new`: the directory words of OLD and NEW; `entry`: OLD's mapping entry, as read. -/
def execStkDefect (a : Nat) (report old new : W64) (entry : BitVec 128) (s : State) : Host.Outcome State Fault Refusal :=
  liveRoot s fun s =>
    let tier := bitOf report 0
    let o := fld report 2 24
    let n := fld report 26 24
    if ¬ stewTakes s a then s
    else if bitOf report 1 ∨ fld report 51 13 ≠ 0 ∨ unitCount s a tier ≤ o ∨ unitCount s a tier ≤ n then badReport s a tier o
    else
      let s := stewErr s none eStackDefect none a tier o
      let s := dropCopy s a o tier
      let part := if dirValid old then some (dirPart old) else none
      let s :=
        if ¬ dirValid old then
          let s := fenceUnit s a tier o old
          writeDir s a tier n (setFld new 27 1 (b2n (dirSpare old)))
        else if entryOk s a tier o entry then stewSwitch s a tier o n old new entry
        else dirMismatch s a tier o old
      if bitOf report 50 then s else stewNote s (some 6) eStackDataLoss part a tier o [(.handle, dirHandle old)]

end Sys2Proof.Machine
end

