-- ==== Sys2Proof/Machine/Translate.lean ====
section
/-! DEFINITION. Iznum: reading an image, its checks in their order, the generation it makes (R188–R194, R202–R205, R317–R335). -/

namespace Sys2Proof.Machine

/-- A little-endian field of an image. -/
def le (im : List Byte) (off n : Nat) : Nat := bytesToNat ((im.drop off).take n)

/-- Replace a row of an image read as a node record (R321). -/
structure NRec where
  off : Nat
  kind : Nat
  chained : Bool
  target : Nat
  body : Nat
  len : Nat
  cost : Nat
  index : Nat
  reserved : Bool
  deriving DecidableEq, Repr

/-- The node records of an image. -/
def nodeRecs (im : List Byte) : List NRec :=
  (upTo (le im 8 4)).map (fun k =>
    let o := le im 24 4 + 20 * k
    { off := o, kind := le im o 1 % 16, chained := (le im (o + 1) 1).testBit 0, target := le im (o + 2) 2 % 1024, body := le im (o + 4) 4
      len := le im (o + 8) 4, cost := le im (o + 12) 4, index := le im (o + 16) 4
      reserved := decide (le im o 1 / 16 ≠ 0) || decide (le im (o + 1) 1 / 2 ≠ 0) || decide (le im (o + 2) 2 / 1024 ≠ 0) })
/-- Edges: offset, FROM, TO. -/
def edgeRecs (im : List Byte) : List (Nat × Nat × Nat) :=
  (upTo (le im 12 4)).map (fun k => (le im 28 4 + 4 * k, le im (le im 28 4 + 4 * k) 2, le im (le im 28 4 + 4 * k + 2) 2))
/-- Push declarations: offset, node, engine queue, cost; the reserved bits are 0. -/
def declRecs (im : List Byte) : List (Nat × Nat × Nat × Nat × Bool) :=
  (upTo (le im 16 4)).map (fun k =>
    let o := le im 32 4 + 8 * k
    (o, le im (o + 2) 2, le im o 2 % 1024, le im (o + 4) 4, decide (le im o 2 / 1024 = 0)))

/-- Sections with their offsets and lengths. -/
def sections (im : List Byte) : List (Nat × Nat × Nat) :=
  [(24, le im 24 4, 20 * le im 8 4), (28, le im 28 4, 4 * le im 12 4), (32, le im 32 4, 8 * le im 16 4), (36, le im 36 4, le im 40 4)]

/-- Step 5 of R325: offset of the field whose section breaks R320. -/
def layoutBad (im : List Byte) : Option Nat :=
  let ss := (sections im).filter (fun (x : Nat × Nat × Nat) => x.2.2 != 0)
  let out := fun (x : Nat × Nat × Nat) => decide (x.2.1 % 8 ≠ 0) || decide (x.2.1 < 64) || decide (im.length < x.2.1 + x.2.2)
  let meets := fun (x y : Nat × Nat × Nat) => x.1 != y.1 && decide (x.2.1 < y.2.1 + y.2.2) && decide (y.2.1 < x.2.1 + x.2.2)
  match ss.find? (fun x => out x || ss.any (meets x)) with
  | some x => some x.1
  | none => ((nodeRecs im).find? (fun r => decide (le im 40 4 < r.body + r.len))).map (·.off)

/-- Edges form a cycle: nodes without a predecessor are taken away until none is left to take. -/
def acyclicN : Nat → List Nat → List (Nat × Nat) → Bool
  | 0, live, _ => live.isEmpty
  | n + 1, live, es =>
    let go := live.filter (fun k => !es.any (fun (e : Nat × Nat) => e.2 == k))
    if go.isEmpty then live.isEmpty
    else acyclicN n (live.filter (fun k => !go.contains k)) (es.filter (fun e => !go.contains e.1))

/-- First repetition in a list of edges. -/
def firstRepeat : List (Nat × Nat × Nat) → Option Nat
  | [] => none
  | e :: t => match t.find? (fun f => f.2 == e.2) with
    | some f => some (match firstRepeat t with
      | some o => min f.1 o
      | none => f.1)
    | none => firstRepeat t

/-- A node record makes a node; the bytes of a body that is not code are kept. -/
def nodeBody (im : List Byte) (r : NRec) : W512 :=
  if r.kind = 2 ∨ r.kind = 3 ∨ r.kind = 4 then BitVec.ofNat 512 (le im (le im 36 4 + r.body) r.len) else 0

/-- Body checks that need no opcode of Amvira (R321, R325 step 8): lengths, reserved bits of wait and signal entries. -/
def bodyBad (im : List Byte) (r : NRec) : Bool :=
  let b := (nodeBody im r).toNat
  match r.kind with
  | 1 => decide (r.len = 0) || decide (r.len % 8 ≠ 0)
  | 2 => decide (r.len ≠ 64)
  | 3 => decide (r.len ≠ 16) || !waitEntryOk b
  | 4 => decide (r.len ≠ 16) || !sigEntryOk b
  | _ => decide (r.len ≠ 0)

/-- A flag handle of a body lies within the partition's share (R193, R325 step 10). A space 3 handle names a chip that can be reached
(log entry 76). -/
def flagShare (s : State) (p h : Nat) : Bool :=
  flagHandleOk h && match h / 2 ^ 30 with
  | 0 => flagInRange s p h
  | 1 => dflagOk s p h
  | 2 => hInTable s p (h % 2 ^ 20)
  | _ => chipReach s h
/-- A handle of a body lies outside the share: a CFLAG, a STREAM's buffer, the flag of a WAIT or SIGNAL (R193). -/
def shareBad (s : State) (p : Nat) (im : List Byte) (r : NRec) : Bool :=
  let b := nodeBody im r
  let flagBad := fun (h : Nat) => decide (h ≠ 0) && !flagShare s p h
  match r.kind with
  | 2 => (cflagLive b && !flagShare s p (mCflag b))
      || (mOpc b == 0x10 && (!bufHandleOk (fld b 128 32) || !hInTable s p (fld b 128 32)))
      || (mOpc b == 0x11 && flagBad (wHandle (fld b 128 128)))
  | 3 => flagBad (wHandle b.toNat)
  | 4 => flagBad (sHandle b.toNat)
  | _ => false

/-- Nodes of the new generation before their bodies are placed, each with the code of its record where the image gives it a body: those
of the image, or the parent's with the patch's replacements. -/
def newNodes (im : List Byte) (parent : Option Generation) (codes : List NatCode) : List (GNode × Option NatCode) :=
  let es := edgeRecs im
  let rs := nodeRecs im
  match parent with
  | none => rs.mapIdx (fun i r =>
      ({ kind := r.kind, chained := r.chained, npred := (es.filter (fun e => e.2.2 == i)).length
         succ := (es.filter (fun e => e.2.1 == i)).map (fun e => e.2.2), target := r.target, cost := r.cost, bodyOff := 0
         body := nodeBody im r, vnode := i }, some (codes.getD i {})))
  | some g => g.nodes.mapIdx (fun i n => match rs.findIdx? (fun r => r.index == i) with
      | none => (n, none)
      | some k => match rs[k]? with
        | none => (n, none)
        | some r => ({ n with kind := r.kind, chained := r.chained, target := r.target, cost := r.cost, body := nodeBody im r },
            some (codes.getD k {})))

/-- R193 for a CHAINED node. -/
def chainNodeBad (ns : List GNode) (i : Nat) : Bool :=
  match ns[i]? with
  | none => false
  | some n => n.chained && (n.kind != 2 || n.npred != 1 || !ns.any (fun m => m.succ.contains i && m.kind == 2 && m.target / 16 == n.target / 16))

/-- Push declarations of the new generation (R322). -/
def newDecls (im : List Byte) (parent : Option Generation) : List (Nat × Nat × Nat) :=
  let ds := (declRecs im).map (fun d => (d.2.1, d.2.2.1, d.2.2.2.1))
  match parent with
  | none => ds
  | some g => g.decls.filter (fun d => !(nodeRecs im).any (fun r => r.index == d.1)) ++ ds

/-- The cost vector (R328), in ascending order of the queue. -/
def costVec (ns : List GNode) (ds : List (Nat × Nat × Nat)) : List (Nat × Nat) :=
  let all := (ns.filterMap (fun n => if n.kind = 2 then some (n.target, n.cost) else none)) ++ ds.map (fun d => (d.2.1, d.2.2))
  let qs := (all.map (fun (x : Nat × Nat) => x.1)).foldl insertNat []
  (qs.map (fun q => (q, sumBy (fun (x : Nat × Nat) => if x.1 = q then x.2 else 0) all))).filter (fun (x : Nat × Nat) => x.2 != 0)

/-- Of the records that meet a condition, the one of the lowest node (R325). -/
def lowestRec (rs : List NRec) (f : NRec → Bool) : Option NRec :=
  rs.foldl (fun b r => if f r && b.all (fun x => decide (r.index < x.index)) then some r else b) none
/-- The CODE record whose body holds an image offset. -/
def codeRecAt (im : List Byte) (off : Nat) : Option NRec :=
  (nodeRecs im).find? (fun r => r.kind == 1 && decide (le im 36 4 + r.body ≤ off) && decide (off < le im 36 4 + r.body + r.len))
/-- Step 8 of R325: bodies in ascending node index. What a CODE body's virtual instructions break stands in the operand (log entry 1). -/
def bodyFault (im : List Byte) (o : TransOut) : Option (Nat × Nat) :=
  let code := if o.failCode = 0xA ∨ o.failCode = 0xB then codeRecAt im o.failOff else none
  match lowestRec (nodeRecs im) (bodyBad im), code with
  | some r, some c => if r.index ≤ c.index then some (0xB, r.off) else some (o.failCode, o.failOff)
  | some r, none => some (0xB, r.off)
  | none, some _ => some (o.failCode, o.failOff)
  | none, none => if o.failCode = 0x12 then some (0x12, 0) else none
/-- What an instruction of a CODE body breaks in a later step. -/
def codeFault (im : List Byte) (o : TransOut) (code : Nat) : Option (Nat × Nat) :=
  if o.failCode = code then (codeRecAt im o.failOff).map (fun _ => (code, o.failOff)) else none

/-- The checks of R325 in order: failure code and offset. `parent` is the current generation of a PATCH; the outcome of the checks of
virtual instructions stands in the operand (log entry 1). -/
def izCheck (s : State) (j : Job) (parent : Option Generation) (o : TransOut) : Option (Nat × Nat) :=
  let im := j.image
  let rs := nodeRecs im
  let es := edgeRecs im
  let ds := declRecs im
  let ns := (newNodes im parent []).map (·.1)
  let vec := costVec ns (newDecls im parent)
  let head : Option (Nat × Nat) :=
    if ¬ j.readOk then some (0x11, 0)
    else if le im 0 4 ≠ 0x31564D41 then some (1, 0)
    else if le im 5 1 ≠ 0 then some (1, 5)
    else if le im 46 14 ≠ 0 then some (1, 46)
    else if le im 60 4 ≠ crcList (im.take 60 ++ im.drop 64) then some (2, 60)
    else if le im 6 2 < 0x0100 ∨ 0x0102 < le im 6 2 then some (3, 6)
    else if le im 4 1 ≠ (if j.patch then 2 else 1) then some (4, 4)
    else if j.patch ∧ parent.map (·.num) ≠ some (le im 44 2) then some (0xF, 44)
    else if ¬ j.patch ∧ le im 44 2 ≠ 0 then some (1, 44)
    else if 65536 < le im 8 4 ∨ le im 8 4 = 0 then some (6, 8)
    else if 1048576 < le im 12 4 ∨ (j.patch ∧ le im 12 4 ≠ 0) then some (6, 12)
    else if 65536 < le im 16 4 then some (6, 16)
    else if 65536 < le im 20 4 ∨ (j.patch ∧ le im 20 4 ≠ 0) then some (6, 20)
    else none
  match head with
  | some x => some x
  | none =>
    match layoutBad im with
    | some off => some (5, off)
    | none =>
      let atNode := fun (f : NRec → Bool) => (rs.find? f).map (·.off)
      let bad := fun (f : NRec → Bool) (code : Nat) => (atNode f).map (fun off => (code, off))
      let total := ns.length
      let recs : Option (Nat × Nat) :=
        if vec.any (fun (x : Nat × Nat) => decide (0xFFFFFFFF < x.2)) then some (6, le im 32 4)
        else
          (bad (fun r => r.reserved || decide (r.kind = 0) || decide (5 < r.kind) || (r.kind != 2 && r.target != 0)) 0xB).orElse fun _ =>
          (bad (fun r => if j.patch then decide (total ≤ r.index) || decide (1 < (rs.filter (fun q => q.index == r.index)).length)
            else rs[r.index]? != some r) (if j.patch then 0x10 else 0xB)).orElse fun _ =>
          ((es.find? (fun e => decide (total ≤ e.2.1) || decide (total ≤ e.2.2))).map (fun e => (8, e.1))).orElse fun _ =>
          ((firstRepeat es).map (fun off => (8, off))).orElse fun _ =>
          (if acyclicN (total + 1) (upTo total) (es.map (fun e => e.2)) then none else some (7, le im 28 4)).orElse fun _ =>
          (if j.patch then
            (if (upTo total).any (chainNodeBad ns) then some (0x10, le im 24 4) else none)
          else bad (fun r => chainNodeBad ns r.index) 9)
      match recs with
      | some x => some x
      | none =>
        let codeAt := fun (k : Nat) => (ns[k]?).any (fun n => n.kind == 1)
        let rest : Option (Nat × Nat) :=
          (bodyFault im o).orElse fun _ =>
          ((ds.find? (fun d => !d.2.2.2.2)).map (fun d => (0xB, d.1))).orElse fun _ =>
          ((ds.find? (fun d => !codeAt d.2.1)).map (fun d => (0xD, d.1))).orElse fun _ =>
          ((ds.find? (fun d => j.patch && !rs.any (fun r => r.index == d.2.1))).map (fun d => (0x10, d.1))).orElse fun _ =>
          (codeFault im o 0xD).orElse fun _ =>
          ((lowestRec rs (shareBad s j.part im)).map (fun r => (0xC, r.off))).orElse fun _ =>
          (codeFault im o 0xC).orElse fun _ =>
          (if o.failCode = 0xE ∨ 4 < o.slices then some (0xE, 20) else none)
        rest

/-- Status of the reply to a failure (R325). -/
def izStatus (code : Nat) : Nat := if code = 3 ∨ code = 0xA ∨ code = 0x12 then stUnsupported else stBadParam

/-- The command fails (R326, R494): the context stays as R188 gives; the audit entry is Iznum's own (log entry 67). -/
def izFail (s : State) (j : Job) (status detail : Nat) : State :=
  let s := if j.patch then s else modGctx s j.gctx fun g => { counter := g.counter }
  let s := { s with iz := { s.iz with busy := none, failDetail := detail, failGctx := j.gctx, failPart := j.part } }
  let st := objState s j.q j.pkt
  let s := audit s 8 j.q 4 (pktOp j.pkt + 256 * status) (pktObj j.pkt + put (pktTag j.pkt) 32) (st + put (detail % 2 ^ 48) 8)
  admReply s j.q j.pkt status st detail

/-- A switch of the Iznum image is staged: core 7 takes up no translation (R278, R334). -/
def izHeld (s : State) : Bool := (getCore s 0x307).staged && !sameCompat (getCore s 0x307)

/-- TRANSLATION_START (R194, R324): Iznum takes the next command and reads its image, IMAGE_BYTES from IMAGE_ADDR, with the issuer's
function and PASID. `image` is what the read brings. -/
def execTranslationStart (ok : Bool) (image : List Byte) (s : State) : Host.Outcome State Fault Refusal :=
  liveRoot s fun s =>
    match s.iz.busy, s.iz.queue with
    | none, j :: t =>
      let n := pktB j.pkt 16 4
      if s.glb.frozen ∨ izHeld s ∨ (ok ∧ image.length ≠ n) then s
      else
        let s := { s with iz := { s.iz with busy := some { j with image := image, readOk := ok }, queue := t } }
        (cutReads (n / 4096 + 2) (pktB j.pkt 8 8) n).foldl (fun s x => mgrRead s j.q x.1 x.2 .image) s
    | _, _ => s

/-- Number of the next generation (R189). -/
def nextGen (n : Nat) : Nat := if n = 0xFFFF then 1 else n + 1

/-- Replace n bytes from an offset. -/
def splice (c off n v : Nat) : Nat :=
  c % 2 ^ (8 * off) + put (v % 2 ^ (8 * n)) (8 * off) + put (c / 2 ^ (8 * (off + n))) (8 * (off + n))
/-- A page of a generation's bytes. -/
def pageOf (c k : Nat) : Nat := nbits c (32768 * k) 32768

/-- Up to a multiple of 8. -/
def pad8 (n : Nat) : Nat := (n + 7) / 8 * 8
/-- Bytes that a node's body takes in the body area: of a CODE node with its map word before it and its PC map behind it (R192, R328,
R332). -/
def blockLen (kind : Nat) (c : NatCode) : Nat :=
  match kind with
  | 1 => 8 + pad8 c.code.length + 8 * c.map.length
  | 2 => 64
  | 3 | 4 => 16
  | _ => 0
/-- What stands there; `slot` is its place. -/
def blockData (n : GNode) (c : NatCode) (slot : Nat) : Nat :=
  if n.kind = 1 then
    pack ([(32, slot + 8 + pad8 c.code.length), (32, c.map.length), (8 * pad8 c.code.length, bytesToNat c.code)]
      ++ c.map.flatMap (fun e => [(32, e.1), (32, e.2)]))
  else n.body.toNat

/-- Place the bodies given, from a free offset of the body area on (log entry 13): a node whose body fits in the room it has keeps its
place. The nodes, the blocks to write (offset, length, data) and where the area then ends. -/
def placeBodies : Nat → List (GNode × Option NatCode) → List GNode × List (Nat × Nat × Nat) × Nat
  | cur, [] => ([], [], cur)
  | cur, (n, none) :: t =>
    let r := placeBodies cur t
    (n :: r.1, r.2)
  | cur, (n, some c) :: t =>
    let len := blockLen n.kind c
    let fits := decide (len ≤ n.room)
    let slot := if fits then n.slot else cur
    let r := placeBodies (if fits then cur else cur + len) t
    ({ n with slot := slot, room := if fits then n.room else len, bodyOff := if n.kind = 1 then slot + 8 else if len = 0 then 0 else slot } :: r.1,
      (slot, len, blockData n c slot) :: r.2.1, r.2.2)

/-- Edges of the nodes given. -/
def edgeCount (ns : List GNode) : Nat := sumBy (fun n => n.succ.length) ns
/-- Records of 32 B of the node table (R191): `at_` is the index of the next edge. -/
def nodeTable : Nat → List GNode → List (Nat × Nat)
  | _, [] => []
  | at_, n :: t =>
    [(4, n.kind), (4, 0), (1, b2n n.chained), (7, 0), (16, n.npred), (32, at_), (16, n.succ.length), (10, n.target), (6, 0), (32, n.cost),
      (32, n.bodyOff), (32, n.vnode), (64, 0)] ++ nodeTable (at_ + n.succ.length) t
/-- The edge array (R191). -/
def edgeTable (ns : List GNode) : List (Nat × Nat) := ns.flatMap (fun n => n.succ.flatMap (fun k => [(16, k), (16, 0)]))

/-- The bytes of a generation but for the addresses that depend on its pages: node table, edges, translation record, cost vector, bodies
(R190–R192, R328, R332). `old`: what its pages hold before. -/
def genBytes (old : Nat) (g : Generation) (izVer amv : Nat) (blocks : List (Nat × Nat × Nat)) : Nat :=
  let n := g.nodes.length
  let e := edgeCount g.nodes
  let c := splice old 64 (32 * n) (pack (nodeTable 0 g.nodes))
  let c := splice c (64 + 32 * n) (4 * e) (pack (edgeTable g.nodes))
  let c := splice c g.bodyAt 16 (pack [(16, izVer), (16, amv), (8, g.slices), (24, 0), (16, g.costs.length), (48, 0)])
  let c := splice c (g.bodyAt + g.costAt) (8 * g.costs.length) (pack (g.costs.flatMap (fun x => [(10, x.1), (22, 0), (32, x.2)])))
  blocks.foldl (fun c b => splice c (g.bodyAt + b.1) b.2.1 b.2.2) c

/-- The addresses: the generation's header (R190) and COSTV_ADDR. -/
def withAddrs (a : Arena) (g : Generation) (gctx : Nat) : Generation :=
  let n := g.nodes.length
  let at_ := fun (o : Nat) => genAddr a g o
  let c := splice g.content (g.bodyAt + 16) 8 (at_ (g.bodyAt + g.costAt))
  { g with content := splice c 0 64 (pack [(16, g.num), (16, g.parent), (32, n), (32, edgeCount g.nodes), (32, g.pageIds.length),
      (64, at_ 64), (64, at_ (64 + 32 * n)), (64, at_ g.bodyAt), (64, g.created), (10, gctx), (118, 0)]) }

/-- Data memory that the virtual code of a generation addresses (R320, R322). -/
def dmemOf (im : List Byte) (parent : Option Generation) : Nat := (parent.map (·.dmem)).getD (le im 20 4)
/-- Key of a CODE record in the translation cache (R330). -/
def tcKey (s : State) (j : Job) (parent : Option Generation) (r : NRec) : TcEnt :=
  { part := j.part, ver := izVersion s, amv := le j.image 6 2, dmem := dmemOf j.image parent
    body := (j.image.drop (le j.image 36 4 + r.body)).take r.len
    decls := ((declRecs j.image).filter (fun d => d.2.1 == r.index)).map (fun d => (d.2.2.1, d.2.2.2.1)) }
def tcSame (a b : TcEnt) : Bool := decide ({ a with code := {} } = { b with code := {} })
/-- The entry that serves a record; a cache of size 0 serves none. -/
def tcFind (s : State) (k : TcEnt) : Option TcEnt := if s.iz.tcSize = 0 then none else s.iz.cache.find? (tcSame k)
/-- The code of each record: that of the cache where it hits, else what Iznum makes of the body. -/
def codesOf (s : State) (j : Job) (parent : Option Generation) (o : TransOut) : List NatCode :=
  (nodeRecs j.image).mapIdx (fun k r =>
    if r.kind = 1 then ((tcFind s (tcKey s j parent r)).map (·.code)).getD (o.codes.getD k {}) else {})

/-- The generation of a translated image before it has pages (R202, R322, R328). -/
def draftGen (s : State) (j : Job) (gx : GCtx) (parent : Option Generation) (o : TransOut) : Generation :=
  let im := j.image
  let ns := newNodes im parent (codesOf s j parent o)
  let ds := newDecls im parent
  let costs := costVec (ns.map (·.1)) ds
  let dmem := dmemOf im parent
  let bodyAt := (parent.map (·.bodyAt)).getD ((64 + 32 * ns.length + 4 * edgeCount (ns.map (·.1)) + 63) / 64 * 64)
  let room := (parent.map (·.costRoom)).getD 0
  let free := (parent.map (fun g => g.len - g.bodyAt)).getD 64
  let keep := decide (costs.length ≤ room) && parent.isSome
  let b := placeBodies (if keep then free else free + 8 * costs.length) ns
  let g : Generation := {
    num := gx.counter, parent := if j.patch then gx.cur else 0, created := s.sched.tickNo
    slices := max o.slices ((max dmem 0x340 + 16383) / 16384), nodes := b.1, costs := costs, bodyAt := bodyAt
    costAt := if keep then (parent.map (·.costAt)).getD 64 else free, costRoom := if keep then room else costs.length
    len := bodyAt + b.2.2, decls := ds, dmem := dmem }
  { g with content := genBytes ((parent.map (·.content)).getD 0) g (izVersion s) (le im 6 2) b.2.1 }

/-- Bytes that an entry takes; what stands beside its body and code is not given (log entry 79). -/
def tcBytes (e : TcEnt) : Nat :=
  e.body.length + e.code.code.length + (Config.freeOf 40 (bytesToNat e.body) (bytesToNat e.code.code)).toNat
/-- Entries leave, least recently used first, until the rest fits. -/
def tcTrim (room : Nat) : List TcEnt → List TcEnt
  | [] => []
  | e :: t => if sumBy tcBytes (e :: t) ≤ room then e :: t else tcTrim room t
/-- The counts and the entries of a translation that succeeded (R330, R331, R335). -/
def tcNote (s : State) (j : Job) (parent : Option Generation) (o : TransOut) : State :=
  let es := ((nodeRecs j.image).zip (codesOf s j parent o)).filterMap (fun x =>
    if x.1.kind = 1 then some { tcKey s j parent x.1 with code := x.2 } else none)
  let hits := (es.filter (fun e => (tcFind s e).isSome)).length
  let live := es.foldl (fun c e => c.filter (fun x => !tcSame x e) ++ [e]) s.iz.cache
  { s with iz := { s.iz with
      hits := satN 16 (s.iz.hits + hits), misses := satN 16 (s.iz.misses + (es.length - hits))
      cache := if s.iz.tcSize = 0 then s.iz.cache else tcTrim (s.iz.tcSize * 65536) live } }

/-- Pages of a new generation that its parent's cannot serve (R202): those beyond them, those that differ, the first, which holds the
header, and that of the translation record where the cost vector's page is a new one. -/
def changedPages (parent : Option Generation) (g : Generation) : List Nat :=
  let n := (g.len + 4095) / 4096
  match parent with
  | none => upTo n
  | some p =>
    let differs := fun (k : Nat) => decide (p.pageIds.length ≤ k) || decide (k = 0) || decide (pageOf p.content k ≠ pageOf g.content k)
    (upTo n).filter (fun k => differs k || (decide (k = g.bodyAt / 4096) && differs ((g.bodyAt + g.costAt) / 4096)))

/-- Give a draft its pages: new ones are the lowest free of the arena (log entry 13). -/
def takePages (s : State) (p : Nat) (parent : Option Generation) (g : Generation) (new : List Nat) : Generation :=
  let a := getArena s p
  let used := arenaPages s p
  let free := ((List.range (a.size * 16)).filter (fun k => !used.contains k)).take new.length
  { g with pageIds := (upTo ((g.len + 4095) / 4096)).map (fun k => match new.findIdx? (fun x => x == k) with
      | some i => free.getD i 0
      | none => ((parent.map (·.pageIds)).getD []).getD k 0) }

/-- The graph store writes a page of a generation to the arena (R187, R194); a line of the page's former bytes leaves the code cache. -/
def writePage (a : Arena) (g : Generation) (s : State) (k : Nat) : State :=
  let at_ := genAddr a g (4096 * k)
  (mgrWrite { s with ccache := s.ccache.filter (fun l => l / 16 != at_ / 4096) } Config.fnManager at_ 4096 (pageOf g.content k) .arena).2

/-- The new generation becomes current (R189, R194, R202, R204): generations that nothing pins are live no more. -/
def makeCurrent (s : State) (j : Job) (g : Generation) : State :=
  modGctx s j.gctx fun x => { x with
    st := 2, cur := g.num, counter := nextGen x.counter, gens := x.gens.filter (fun y => y.pins != 0) ++ [g] }

/-- The node and the virtual instruction behind a native PC of a generation (R333). -/
def virtualAt (g : Generation) (pc : Nat) : Option (Nat × Nat) :=
  let off := pc - 0x80000000
  let best := (g.nodes.filter (fun n => n.kind == 1 && decide (n.bodyOff ≤ off))).foldl (fun (b : Option GNode) n =>
    if b.all (fun x => decide (x.bodyOff < n.bodyOff)) then some n else b) none
  best.bind fun n =>
    let at_ := fun (o w : Nat) => nbits g.content (8 * (g.bodyAt + o)) w
    let mapOff := at_ (n.bodyOff - 8) 32
    let es := (upTo (at_ (n.bodyOff - 4) 32)).map (fun i => (at_ (mapOff + 8 * i) 32, at_ (mapOff + 8 * i + 4) 32))
    ((es.filter (fun e => decide (e.1 ≤ off - n.bodyOff))).getLast?).map (fun e => (n.vnode, e.2))

/-- TRANSLATION_END (R188–R194, R202, R203, R325–R332). -/
def execTranslationEnd (o : TransOut) (s : State) : Host.Outcome State Fault Refusal :=
  liveRoot s fun s =>
    match s.iz.busy with
    | none => s
    | some j =>
      let s := readDone s .image
      let gx := getGctx s j.gctx
      let parent := if j.patch then gx.gens.find? (fun g => g.num == gx.cur) else none
      match izCheck s j parent o with
      | some (code, off) =>
        let s := if code = 0x12 then raiseOn s eScIllegal none none [(.core, 0x307)] else s
        izFail s j (izStatus code) (code + put (off % 2 ^ 31) 16 + put 1 47)
      | none =>
        let a := getArena s gx.owner
        let d := draftGen s j gx parent o
        let new := changedPages parent d
        if a.size * 16 < (arenaPages s gx.owner).length + new.length then izFail s j stNoResource 9
        else
          let g := withAddrs a (takePages s gx.owner parent d new) j.gctx
          let s := makeCurrent (new.foldl (writePage a g) s) j g
          let s := tcNote { s with iz := { s.iz with busy := none } } j parent o
          admOk s j.q j.pkt (objState s j.q j.pkt) (g.num + put (new.length % 2 ^ 20) 16)

end Sys2Proof.Machine
end

