-- ==== Sys2Proof/Machine/Dispatch.lean ====
section
/-! DEFINITION. exec: one arm for each command. -/

namespace Sys2Proof.Machine

/-- The effect of a command on everything but the queue. -/
def exec (i : Instr) (s : State) : Host.Outcome State Fault Refusal :=
  match i with
  | .porRelease testMode => Sys2Proof.Machine.execPorRelease testMode s
  | .rstNAssert => Sys2Proof.Machine.execRstNAssert s
  | .warmReset fn => Sys2Proof.Machine.execWarmReset fn s
  | .warmResetEntry => Sys2Proof.Machine.execWarmResetEntry s
  | .flrRequest fn => Sys2Proof.Machine.execFlrRequest fn s
  | .fuseValid fuse => Sys2Proof.Machine.execFuseValid fuse s
  | .phaseComplete meas iznum lib => Sys2Proof.Machine.execPhaseComplete meas iznum lib s
  | .phaseTimeout detail => Sys2Proof.Machine.execPhaseTimeout detail s
  | .agentsDeadline => Sys2Proof.Machine.execAgentsDeadline s
  | .agentInitDone a mon fuse image => Sys2Proof.Machine.execAgentInitDone a mon fuse image s
  | .tideLinkUp a => Sys2Proof.Machine.execTideLinkUp a s
  | .bringupWaitTimeout a => Sys2Proof.Machine.execBringupWaitTimeout a s
  | .sluiceTick energy => Sys2Proof.Machine.execSluiceTick energy s
  | .tick a now => Sys2Proof.Machine.execTick a now s
  | .hostAccess x => Sys2Proof.Machine.execHostAccess x s
  | .agentRegRequest a => Sys2Proof.Machine.execAgentRegRequest a s
  | .regReply a => Sys2Proof.Machine.execRegReply a s
  | .agentRegTimeout rtag => Sys2Proof.Machine.execAgentRegTimeout rtag s
  | .doorbell fn q data => Sys2Proof.Machine.execDoorbell fn q data s
  | .flagRegionWrite fn j data => Sys2Proof.Machine.execFlagRegionWrite fn j data s
  | .pwinWerrinfoRead fn p => Sys2Proof.Machine.execPwinWerrinfoRead fn p s
  | .wordLatchRead fn addr => Sys2Proof.Machine.execWordLatchRead fn addr s
  | .imemWindowWrite x => Sys2Proof.Machine.execImemWindowWrite x s
  | .dmemWindowWrite x => Sys2Proof.Machine.execDmemWindowWrite x s
  | .schPeriodWrite fn data => Sys2Proof.Machine.execSchPeriodWrite fn data s
  | .schAccselWrite fn data => Sys2Proof.Machine.execSchAccselWrite fn data s
  | .stewLedselWrite fn data word => Sys2Proof.Machine.execStewLedselWrite fn data word s
  | .logRdselWrite fn data => Sys2Proof.Machine.execLogRdselWrite fn data s
  | .logPop fn data => Sys2Proof.Machine.execLogPop fn data s
  | .logHeadWrite fn data => Sys2Proof.Machine.execLogHeadWrite fn data s
  | .watchSevereClear fn index data => Sys2Proof.Machine.execWatchSevereClear fn index data s
  | .admQcfgWrite fn q data => Sys2Proof.Machine.execAdmQcfgWrite fn q data s
  | .admSqtailWrite fn q data => Sys2Proof.Machine.execAdmSqtailWrite fn q data s
  | .admCqheadWrite fn q data => Sys2Proof.Machine.execAdmCqheadWrite fn q data s
  | .adminCommandRead q ok pkt => Sys2Proof.Machine.execAdminCommandRead q ok pkt s
  | .adminCommandStart image => Sys2Proof.Machine.execAdminCommandStart image s
  | .adminReplyWriteResponse q ok => Sys2Proof.Machine.execAdminReplyWriteResponse q ok s
  | .nop q pkt => Sys2Proof.Machine.execNop q pkt s
  | .query q pkt => Sys2Proof.Machine.execQuery q pkt s
  | .partCreate q pkt => Sys2Proof.Machine.execPartCreate q pkt s
  | .partActivate q pkt => Sys2Proof.Machine.execPartActivate q pkt s
  | .partMaint q pkt => Sys2Proof.Machine.execPartMaint q pkt s
  | .partHalt q pkt => Sys2Proof.Machine.execPartHalt q pkt s
  | .partDestroy q pkt => Sys2Proof.Machine.execPartDestroy q pkt s
  | .partReset q pkt => Sys2Proof.Machine.execPartReset q pkt s
  | .partitionReachesFree p => Sys2Proof.Machine.execPartitionReachesFree p s
  | .qCreate q pkt => Sys2Proof.Machine.execQCreate q pkt s
  | .qEnable q pkt => Sys2Proof.Machine.execQEnable q pkt s
  | .qDisable q pkt => Sys2Proof.Machine.execQDisable q pkt s
  | .qDestroy q pkt => Sys2Proof.Machine.execQDestroy q pkt s
  | .qReset q pkt => Sys2Proof.Machine.execQReset q pkt s
  | .qModify q pkt => Sys2Proof.Machine.execQModify q pkt s
  | .gLoad q pkt => Sys2Proof.Machine.execGLoad q pkt s
  | .gPatch q pkt => Sys2Proof.Machine.execGPatch q pkt s
  | .gUnload q pkt => Sys2Proof.Machine.execGUnload q pkt s
  | .fCreate q pkt => Sys2Proof.Machine.execFCreate q pkt s
  | .fDestroy q pkt => Sys2Proof.Machine.execFDestroy q pkt s
  | .hInval q pkt => Sys2Proof.Machine.execHInval q pkt s
  | .modeStage q pkt => Sys2Proof.Machine.execModeStage q pkt s
  | .modeAbort q pkt => Sys2Proof.Machine.execModeAbort q pkt s
  | .agentDrain q pkt => Sys2Proof.Machine.execAgentDrain q pkt s
  | .agentReadmit q pkt image => Sys2Proof.Machine.execAgentReadmit q pkt image s
  | .imemLoad q pkt image => Sys2Proof.Machine.execImemLoad q pkt image s
  | .fetchGrant => Sys2Proof.Machine.execFetchGrant s
  | .timesliceExpiry p be => Sys2Proof.Machine.execTimesliceExpiry p be s
  | .descriptorArrival launch desc => Sys2Proof.Machine.execDescriptorArrival launch desc s
  | .fragmentTableArrival launch frags => Sys2Proof.Machine.execFragmentTableArrival launch frags s
  | .fragmentTableRead launch => Sys2Proof.Machine.execFragmentTableRead launch s
  | .hostReadFault launch loopback addr => Sys2Proof.Machine.execHostReadFault launch loopback addr s
  | .chainAnnounceTimeout q => Sys2Proof.Machine.execChainAnnounceTimeout q s
  | .chainLeavesInlet q => Sys2Proof.Machine.execChainLeavesInlet q s
  | .relocation q => Sys2Proof.Machine.execRelocation q s
  | .handleCacheFill p index ok entry => Sys2Proof.Machine.execHandleCacheFill p index ok entry s
  | .constBufferReadDone launch ok data => Sys2Proof.Machine.execConstBufferReadDone launch ok data s
  | .waitArm q => Sys2Proof.Machine.execWaitArm q s
  | .waitTimeout launch entry => Sys2Proof.Machine.execWaitTimeout launch entry s
  | .signalApply => Sys2Proof.Machine.execSignalApply s
  | .memoryFlagReadDone p handle ok word => Sys2Proof.Machine.execMemoryFlagReadDone p handle ok word s
  | .memoryFlagWriteDone p handle ok => Sys2Proof.Machine.execMemoryFlagWriteDone p handle ok s
  | .flagSignal a => Sys2Proof.Machine.execFlagSignal a s
  | .flagUpdate a => Sys2Proof.Machine.execFlagUpdate a s
  | .schedulerArrival q => Sys2Proof.Machine.execSchedulerArrival q s
  | .heldLaunchRecheck eq => Sys2Proof.Machine.execHeldLaunchRecheck eq s
  | .directPush launch => Sys2Proof.Machine.execDirectPush launch s
  | .graphContextStart launch => Sys2Proof.Machine.execGraphContextStart launch s
  | .nodeStart launch node => Sys2Proof.Machine.execNodeStart launch node s
  | .nodeComplete launch node => Sys2Proof.Machine.execNodeComplete launch node s
  | .coreGrant core => Sys2Proof.Machine.execCoreGrant core s
  | .csliceExpiry core => Sys2Proof.Machine.execCsliceExpiry core s
  | .contextSaveDone core => Sys2Proof.Machine.execContextSaveDone core s
  | .contextRestoreDone core => Sys2Proof.Machine.execContextRestoreDone core s
  | .runaway core => Sys2Proof.Machine.execRunaway core s
  | .scAdd j => Sys2Proof.Machine.execScAdd j s
  | .scSub j => Sys2Proof.Machine.execScSub j s
  | .scAnd j => Sys2Proof.Machine.execScAnd j s
  | .scOr j => Sys2Proof.Machine.execScOr j s
  | .scXor j => Sys2Proof.Machine.execScXor j s
  | .scSll j => Sys2Proof.Machine.execScSll j s
  | .scSrl j => Sys2Proof.Machine.execScSrl j s
  | .scSra j => Sys2Proof.Machine.execScSra j s
  | .scMin j => Sys2Proof.Machine.execScMin j s
  | .scMax j => Sys2Proof.Machine.execScMax j s
  | .scMinu j => Sys2Proof.Machine.execScMinu j s
  | .scMaxu j => Sys2Proof.Machine.execScMaxu j s
  | .scMul j => Sys2Proof.Machine.execScMul j s
  | .scMulhu j => Sys2Proof.Machine.execScMulhu j s
  | .scDivu j => Sys2Proof.Machine.execScDivu j s
  | .scRemu j => Sys2Proof.Machine.execScRemu j s
  | .scAddi j => Sys2Proof.Machine.execScAddi j s
  | .scAndi j => Sys2Proof.Machine.execScAndi j s
  | .scOri j => Sys2Proof.Machine.execScOri j s
  | .scXori j => Sys2Proof.Machine.execScXori j s
  | .scShi j => Sys2Proof.Machine.execScShi j s
  | .scLi j => Sys2Proof.Machine.execScLi j s
  | .scLsh j => Sys2Proof.Machine.execScLsh j s
  | .scEq j => Sys2Proof.Machine.execScEq j s
  | .scNe j => Sys2Proof.Machine.execScNe j s
  | .scLt j => Sys2Proof.Machine.execScLt j s
  | .scGe j => Sys2Proof.Machine.execScGe j s
  | .scLtu j => Sys2Proof.Machine.execScLtu j s
  | .scGeu j => Sys2Proof.Machine.execScGeu j s
  | .scPand j => Sys2Proof.Machine.execScPand j s
  | .scPor j => Sys2Proof.Machine.execScPor j s
  | .scPxor j => Sys2Proof.Machine.execScPxor j s
  | .scPnot j => Sys2Proof.Machine.execScPnot j s
  | .scPmov j => Sys2Proof.Machine.execScPmov j s
  | .scSpmov j => Sys2Proof.Machine.execScSpmov j s
  | .scBr j => Sys2Proof.Machine.execScBr j s
  | .scCall j => Sys2Proof.Machine.execScCall j s
  | .scJr j => Sys2Proof.Machine.execScJr j s
  | .scJalr j => Sys2Proof.Machine.execScJalr j s
  | .scLd64 j => Sys2Proof.Machine.execScLd64 j s
  | .scLd32 j => Sys2Proof.Machine.execScLd32 j s
  | .scSt64 j => Sys2Proof.Machine.execScSt64 j s
  | .scSt32 j => Sys2Proof.Machine.execScSt32 j s
  | .scVld j => Sys2Proof.Machine.execScVld j s
  | .scVst j => Sys2Proof.Machine.execScVst j s
  | .scVldx j => Sys2Proof.Machine.execScVldx j s
  | .scVstx j => Sys2Proof.Machine.execScVstx j s
  | .scTld j => Sys2Proof.Machine.execScTld j s
  | .scTst j => Sys2Proof.Machine.execScTst j s
  | .scTzero j => Sys2Proof.Machine.execScTzero j s
  | .scVadd j => Sys2Proof.Machine.execScVadd j s
  | .scVsub j => Sys2Proof.Machine.execScVsub j s
  | .scVmul j => Sys2Proof.Machine.execScVmul j s
  | .scVfma j => Sys2Proof.Machine.execScVfma j s
  | .scVmin j => Sys2Proof.Machine.execScVmin j s
  | .scVmax j => Sys2Proof.Machine.execScVmax j s
  | .scVexp2 j => Sys2Proof.Machine.execScVexp2 j s
  | .scVlog2 j => Sys2Proof.Machine.execScVlog2 j s
  | .scVrcp j => Sys2Proof.Machine.execScVrcp j s
  | .scVrsqrt j => Sys2Proof.Machine.execScVrsqrt j s
  | .scVrsum j => Sys2Proof.Machine.execScVrsum j s
  | .scVrmax j => Sys2Proof.Machine.execScVrmax j s
  | .scVbcast j => Sys2Proof.Machine.execScVbcast j s
  | .scVext j => Sys2Proof.Machine.execScVext j s
  | .scVins j => Sys2Proof.Machine.execScVins j s
  | .scVclt j => Sys2Proof.Machine.execScVclt j s
  | .scVceq j => Sys2Proof.Machine.execScVceq j s
  | .scVcvt j => Sys2Proof.Machine.execScVcvt j s
  | .scTmma j => Sys2Proof.Machine.execScTmma j s
  | .scTmmaS2 j => Sys2Proof.Machine.execScTmmaS2 j s
  | .scTmmaS3 j => Sys2Proof.Machine.execScTmmaS3 j s
  | .scQpush j => Sys2Proof.Machine.execScQpush j s
  | .scQpushc j => Sys2Proof.Machine.execScQpushc j s
  | .scQtry j => Sys2Proof.Machine.execScQtry j s
  | .scQdrain j => Sys2Proof.Machine.execScQdrain j s
  | .scAset j => Sys2Proof.Machine.execScAset j s
  | .scAnext j => Sys2Proof.Machine.execScAnext j s
  | .scArst j => Sys2Proof.Machine.execScArst j s
  | .scXld j => Sys2Proof.Machine.execScXld j s
  | .scXst j => Sys2Proof.Machine.execScXst j s
  | .scXlds j => Sys2Proof.Machine.execScXlds j s
  | .scXsts j => Sys2Proof.Machine.execScXsts j s
  | .scXwait j => Sys2Proof.Machine.execScXwait j s
  | .scHrel j => Sys2Proof.Machine.execScHrel j s
  | .transferDone core tag ok data => Sys2Proof.Machine.execTransferDone core tag ok data s
  | .scSpin j => Sys2Proof.Machine.execScSpin j s
  | .spinOutcome core outcome => Sys2Proof.Machine.execSpinOutcome core outcome s
  | .scFsig j => Sys2Proof.Machine.execScFsig j s
  | .scFxadd j => Sys2Proof.Machine.execScFxadd j s
  | .scFcas j => Sys2Proof.Machine.execScFcas j s
  | .scFrd j => Sys2Proof.Machine.execScFrd j s
  | .scFence j => Sys2Proof.Machine.execScFence j s
  | .scAcall j => Sys2Proof.Machine.execScAcall j s
  | .scAwait j => Sys2Proof.Machine.execScAwait j s
  | .scNop j => Sys2Proof.Machine.execScNop j s
  | .scEnd j => Sys2Proof.Machine.execScEnd j s
  | .scCsrr j => Sys2Proof.Machine.execScCsrr j s
  | .scCsrw j => Sys2Proof.Machine.execScCsrw j s
  | .stallRelease core => Sys2Proof.Machine.execStallRelease core s
  | .taskStart a => Sys2Proof.Machine.execTaskStart a s
  | .saveData a => Sys2Proof.Machine.execSaveData a s
  | .restoreData a => Sys2Proof.Machine.execRestoreData a s
  | .taskEnd a => Sys2Proof.Machine.execTaskEnd a s
  | .waitReport a => Sys2Proof.Machine.execWaitReport a s
  | .mopPush a => Sys2Proof.Machine.execMopPush a s
  | .localPush a => Sys2Proof.Machine.execLocalPush a s
  | .presentMop a l => Sys2Proof.Machine.execPresentMop a l s
  | .managerClassHead a l be => Sys2Proof.Machine.execManagerClassHead a l be s
  | .mopWaitOutcome a l outcome => Sys2Proof.Machine.execMopWaitOutcome a l outcome s
  | .barrierSatisfied a l be => Sys2Proof.Machine.execBarrierSatisfied a l be s
  | .eqDone a l word rep => Sys2Proof.Machine.execEqDone a l word rep s
  | .eqPreemptAck a l tileAt rep => Sys2Proof.Machine.execEqPreemptAck a l tileAt rep s
  | .eqFlushAck a l => Sys2Proof.Machine.execEqFlushAck a l s
  | .flushLate a l => Sys2Proof.Machine.execFlushLate a l s
  | .flushGiveup a l => Sys2Proof.Machine.execFlushGiveup a l s
  | .allowanceSpent a l => Sys2Proof.Machine.execAllowanceSpent a l s
  | .preemptLate a l => Sys2Proof.Machine.execPreemptLate a l s
  | .eqxAbort a launch => Sys2Proof.Machine.execEqxAbort a launch s
  | .eqxResume a launch l => Sys2Proof.Machine.execEqxResume a launch l s
  | .eqxPreempt a mask => Sys2Proof.Machine.execEqxPreempt a mask s
  | .eqPart a l rec => Sys2Proof.Machine.execEqPart a l rec s
  | .completion a => Sys2Proof.Machine.execCompletion a s
  | .recordWrite launch => Sys2Proof.Machine.execRecordWrite launch s
  | .recordWriteResponse launch => Sys2Proof.Machine.execRecordWriteResponse launch s
  | .resetQueueSettles q => Sys2Proof.Machine.execResetQueueSettles q s
  | .drainTimeout q => Sys2Proof.Machine.execDrainTimeout q s
  | .hostWriteFault txn => Sys2Proof.Machine.execHostWriteFault txn s
  | .interruptPresent => Sys2Proof.Machine.execInterruptPresent s
  | .interruptTransfer => Sys2Proof.Machine.execInterruptTransfer s
  | .translationStart ok image => Sys2Proof.Machine.execTranslationStart ok image s
  | .translationEnd out => Sys2Proof.Machine.execTranslationEnd out s
  | .walkStart tag => Sys2Proof.Machine.execWalkStart tag s
  | .rootCacheFill p seq ok word => Sys2Proof.Machine.execRootCacheFill p seq ok word s
  | .ptSwap fn p table kindOk root => Sys2Proof.Machine.execPtSwap fn p table kindOk root s
  | .ptSwapWriteDone p => Sys2Proof.Machine.execPtSwapWriteDone p s
  | .epochReclaim p seq epoch => Sys2Proof.Machine.execEpochReclaim p seq epoch s
  | .partialRec a => Sys2Proof.Machine.execPartialRec a s
  | .mergeWriteResponse txn => Sys2Proof.Machine.execMergeWriteResponse txn s
  | .hold tag => Sys2Proof.Machine.execHold tag s
  | .commit tag => Sys2Proof.Machine.execCommit tag s
  | .basinExpiry => Sys2Proof.Machine.execBasinExpiry s
  | .xcAck link word => Sys2Proof.Machine.execXcAck link word s
  | .xcHold link word => Sys2Proof.Machine.execXcHold link word s
  | .remoteSetSend chip => Sys2Proof.Machine.execRemoteSetSend chip s
  | .xcRx link msg => Sys2Proof.Machine.execXcRx link msg s
  | .remoteWaitTimeout launch entry => Sys2Proof.Machine.execRemoteWaitTimeout launch entry s
  | .xcUpFall link => Sys2Proof.Machine.execXcUpFall link s
  | .holdTimeout link group chip => Sys2Proof.Machine.execHoldTimeout link group chip s
  | .stkBermReq a deadline => Sys2Proof.Machine.execStkBermReq a deadline s
  | .bermDeadlineBand a deadline => Sys2Proof.Machine.execBermDeadlineBand a deadline s
  | .bermGrant a => Sys2Proof.Machine.execBermGrant a s
  | .bermRelease a ns10 => Sys2Proof.Machine.execBermRelease a ns10 s
  | .bermOverlong a => Sys2Proof.Machine.execBermOverlong a s
  | .stkWear a report w entry others => Sys2Proof.Machine.execStkWear a report w entry others s
  | .stkDefect a report old new entry => Sys2Proof.Machine.execStkDefect a report old new entry s
  | .relocationCopyDone ok => Sys2Proof.Machine.execRelocationCopyDone ok s
  | .unitFence a unit weight => Sys2Proof.Machine.execUnitFence a unit weight s
  | .stewRetry a w entry others => Sys2Proof.Machine.execStewRetry a w entry others s
  | .errPairOnset index => Sys2Proof.Machine.execErrPairOnset index s
  | .wireFaultOnset index => Sys2Proof.Machine.execWireFaultOnset index s
  | .watchEvent a => Sys2Proof.Machine.execWatchEvent a s
  | .watchWindowClose => Sys2Proof.Machine.execWatchWindowClose s
  | .fenceReset a => Sys2Proof.Machine.execFenceReset a s
  | .chipFailReportsEnd => Sys2Proof.Machine.execChipFailReportsEnd s
  | .evacWriteDone ok => Sys2Proof.Machine.execEvacWriteDone ok s
  | .testInjpair fn data => Sys2Proof.Machine.execTestInjpair fn data s
  | .testInjev fn data => Sys2Proof.Machine.execTestInjev fn data s
  | .ageEvaluation readings => Sys2Proof.Machine.execAgeEvaluation readings s
  | .pmDone die mhz => Sys2Proof.Machine.execPmDone die mhz s
  | .svcModeWrite fn data => Sys2Proof.Machine.execSvcModeWrite fn data s
  | .stage a recalOk latency => Sys2Proof.Machine.execStage a recalOk latency s
  | .modeAck a => Sys2Proof.Machine.execModeAck a s
  | .modeDeadline => Sys2Proof.Machine.execModeDeadline s
  | .modeCommitOrAbort a => Sys2Proof.Machine.execModeCommitOrAbort a s
  | .modeSwitch => Sys2Proof.Machine.execModeSwitch s
  | .drainEnd a => Sys2Proof.Machine.execDrainEnd a s
  | .drainTmoExpiry a => Sys2Proof.Machine.execDrainTmoExpiry a s
  | .readmitEnterService a => Sys2Proof.Machine.execReadmitEnterService a s
  | .logSpillResponse ok => Sys2Proof.Machine.execLogSpillResponse ok s
  | .logSpillWrite => Sys2Proof.Machine.execLogSpillWrite s
  | .lbGo fn data => Sys2Proof.Machine.execLbGo fn data s
  | .lbStop fn data => Sys2Proof.Machine.execLbStop fn data s
  | .loopbackSend a => Sys2Proof.Machine.execLoopbackSend a s
  | .loopback a => Sys2Proof.Machine.execLoopback a s
  | .loopbackAnswer a rtt phase mhz bytes => Sys2Proof.Machine.execLoopbackAnswer a rtt phase mhz bytes s
  | .loopbackTimeout a => Sys2Proof.Machine.execLoopbackTimeout a s
  | .flitReceive dir a flit => Sys2Proof.Machine.execFlitReceive dir a flit s
  | .replayReq dir a => Sys2Proof.Machine.execReplayReq dir a s
  | .tideLinkFault a => Sys2Proof.Machine.execTideLinkFault a s
  | .agentReset a => Sys2Proof.Machine.execAgentReset a s
  | .agentSelfReset a => Sys2Proof.Machine.execAgentSelfReset a s
  | .mbistStart inst => Sys2Proof.Machine.execMbistStart inst s
  | .mbistDone inst fails first => Sys2Proof.Machine.execMbistDone inst fails first s
  | .scanEn inst => Sys2Proof.Machine.execScanEn inst s
  | .porRstNAssert => Sys2Proof.Machine.execPorRstNAssert s
  | .rstNRelease => Sys2Proof.Machine.execRstNRelease s
  | .errorLevelEnd index wire => Sys2Proof.Machine.execErrorLevelEnd index wire s
  | .codeCacheFill set tag ok => Sys2Proof.Machine.execCodeCacheFill set tag ok s

end Sys2Proof.Machine
end

