-- ==== Sys2Proof/Machine/Idle.lean ====
section
/-! DEFINITION. What a step does with no command waiting: one cycle of tref_clk passes (log entry 2). -/

namespace Sys2Proof.Machine

/-- Core time of one cycle: 10 ns to the partition of each context that occupies one of cores 0–6 (R230). -/
def chargeCores (s : State) : State :=
  (upTo 7).foldl (fun s n =>
    match (getCore s (0x300 + n)).run with
    | none => s
    | some k => modFig s (getCtx s 0x300 k).part fun f => { f with coreUsed := f.coreUsed + 10 }) s

/-- One cycle of tref_clk: SCH_PHASE.ELAPSED counts from READY (R238); the tick itself is the command SLUICE_TICK. -/
def idleTick (s : State) : State :=
  if s.glb.blk = .ready then
    let s := chargeCores s
    { s with sched := { s.sched with elapsed := min (s.sched.elapsed + 1) (2 ^ 21 - 1) } }
  else s

end Sys2Proof.Machine
end

