-- ==== Sys2Proof/Safety.lean ====
section
/-! DEFINITION. The terms in which the statements speak: when an instance takes commands, when an instruction issues, and
what counts as a safe state (no functional state that the block relies on has been lost, R515). -/

namespace Sys2Proof.Machine

/-- The Root takes commands: its functional state is defined and it is out of reset (R60, R515). -/
def Live (s : State) : Bool := !s.glb.scanLost && decide (s.glb.blk ≠ .reset)

/-- Agent a takes commands: its functional state is defined and it is out of reset (R60, R515). -/
def AgLive (s : State) (a : Nat) : Bool := !(getAgent s a).scanLost && (getAgent s a).running

/-- The block is READY and no warm reset has begun: the subordinate port answers normally (R61, R79). -/
def Open (s : State) : Bool := !s.glb.scanLost && isReady s && !s.glb.warmBegun

/-- A write at the subordinate port is taken: the block is open and fewer than 32 writes wait for their response (R39, R79). -/
def Takes (s : State) : Bool := Open s && decide (owedOf s true < 32)

/-- A 32-bit write with every strobe set has been accepted, and the write as its register sees it (R39, R40). -/
def taken (s : State) (fn addr : Nat) (d : W32) : State := accept s (wr32 fn addr d)
def wrq (fn addr : Nat) (d : W32) : WrReq := { fn := fn, addr := addr, v := d.toNat, ext := 0, flag := false }

/-- The instance that holds a sluice core takes commands. -/
def CoreLive (s : State) (core : Nat) : Bool := if 0x300 ≤ core then Live s else AgLive s (core - 0x200)

/-- The core exists and runs context `c` of save slot `slot`, which is not stalled. -/
def Runs (s : State) (core slot : Nat) (c : Ctx) : Bool :=
  CoreLive s core && coreOk core && decide (running s core = some (slot, c)) && decide (c.st = .running) && c.stall.isNone

/-- An instruction of the context issues: its core runs it and the fetch has its data (R243, R254). -/
def Issues (s : State) (core slot : Nat) (c : Ctx) : Bool := Runs s core slot c && decide (fetchOf s core c = .ok)

/-- A scalar register as the 64-bit word it holds. -/
def sVal (c : Ctx) (i : Nat) : W64 := BitVec.ofNat 64 (sReg c i)

/-- The state in which an instruction that issued has retired with context `c'`: the PC moved on by 4, the line of the code
cache used last. -/
def retired (s : State) (core slot : Nat) (c c' : Ctx) : State := retire (touchCode s c) core slot c'

/-- A transfer has taken the next tag (R255). -/
def nextTag (s : State) : State := { s with port := { s.port with nextTxn := s.port.nextTxn + 1 } }

/-- An admin command has left the commands read and entered flight, and the round robin stands at its queue (R98, R99). -/
def Flown (s : State) (q : Nat) (pkt : W512) : State :=
  modAdm (modAdm { s with admRr := if q = Config.fnManager then s.admRr else q } q fun a => { a with read := a.read.tail }) q
    fun a => { a with flight := a.flight ++ [{ pkt := pkt }] }

/-- The executor turns to an admin command with the row's opcode, and its issuer may give it (R92, R96, R98, R99): READY, the
command the oldest read of the queue that is served next. -/
def AdmTurn (s : State) (op q : Nat) (pkt : W512) : Bool :=
  !s.glb.scanLost && isReady s && decide (admNext s = some q) && decide ((getAdm s q).read.head? = some pkt)
    && decide (pktOp pkt = op) && decide (admCheck q pkt = none)

/-- The executor takes the command and finds nothing wrong with its issuer (R96, R452): the block not frozen, the issuer's
partition neither HALTED nor RESETTING, the object inside its share. -/
def AdmTakes (s : State) (op q : Nat) (pkt : W512) : Bool :=
  AdmTurn s op q pkt && !s.glb.frozen && !outsideShare s q pkt
    && (decide (64 ≤ q) || (decide ((getPart s q).st ≠ .halted) && decide ((getPart s q).st ≠ .resetting)))

/-- A command whose only operand is its object: the object exists and PARAMS is 0 (R88, R96). -/
def AdmPlain (s : State) (op q : Nat) (pkt : W512) : Bool :=
  AdmTakes s op q pkt && !objBad pkt && decide (badField pkt [] [] = none)

/-- The write of a launch's record. -/
def recordOf (id : Nat) (w : Wr) : Bool :=
  match w.kind with
  | .record k _ => k == id
  | _ => false

/-- The write of a spill burst of the audit log. -/
def spillOf (w : Wr) : Bool :=
  match w.kind with
  | .spill _ => true
  | _ => false

/-- A state whose Root and agents are all defined. -/
def Safe (s : State) : Prop := s.glb.scanLost = false ∧ ∀ a, (getAgent s a).scanLost = false

end Sys2Proof.Machine
end

