-- ==== Sys2Proof/WellFormed.lean ====
section
/-! DEFINITION. Well-formed commands: every operand is a value that the field or the number it stands for can hold. A command
that is not well-formed spells nothing the spec names; exec is total on it all the same. -/

namespace Sys2Proof

/-- A requesting function fits its 7 user bits (R39). -/
def wfFn (fn : Nat) : Bool := decide (fn < 128)
/-- A sluice core: 0x300 + n of the Root, 0x200 + a of agent a (R242, R272). -/
def wfCore (core : Nat) : Bool :=
  (decide (0x200 ≤ core) && decide (core < 0x240)) || (decide (0x300 ≤ core) && decide (core < 0x308))
/-- A register field has 5 bits, a guard field 3, FMT 4 (R247). -/
def wfR (i : FR) : Bool :=
  wfCore i.core && decide (i.pg < 8) && decide (i.d < 32) && decide (i.a < 32) && decide (i.b < 32)
def wfI (i : FI) : Bool := wfCore i.core && decide (i.pg < 8) && decide (i.d < 32) && decide (i.a < 32)
def wfL (i : FL) : Bool := wfCore i.core && decide (i.pg < 8) && decide (i.d < 32)
def wfB (i : FB) : Bool := wfCore i.core && decide (i.pg < 8)
def wfV (i : FV) : Bool :=
  wfCore i.core && decide (i.pg < 8) && decide (i.d < 32) && decide (i.a < 32) && decide (i.b < 32) && decide (i.fmt < 16)
/-- An access of the subordinate port lies in the 64 MiB window and has a size that 128 data bits carry (R39, R40). -/
def wfAccess (x : Access) : Bool :=
  wfFn x.fn && decide (x.addr < 2 ^ 26) && decide (x.size ≤ 16) && decide (x.strobes < 2 ^ 16)
/-- An engine's report: 48-bit cycles and four exception flags (R286, R304). -/
def wfRep (r : EngRep) : Bool := decide (r.cycles < 2 ^ 48) && decide (r.ns10 < 2 ^ 48) && decide (r.fflags < 16)
/-- Native code is whole instructions of 4 B, and its PC map ascends from offset 0 (R192, R332). -/
def wfCode (c : NatCode) : Bool :=
  decide (c.code.length % 4 = 0) && ((c.map.head?).all (fun e => e.1 == 0)) && c.map.all (fun e => decide (e.1 < 2 ^ 32) && decide (e.2 < 2 ^ 32))
    && decide ((c.map.map (·.1)).Pairwise (· < ·))
/-- What a translation yields: a code and an offset of the failure detail, 1 to 4 slices (R191, R328). -/
def wfTrans (o : TransOut) : Bool :=
  decide (o.failCode < 256) && decide (o.failOff < 2 ^ 32) && decide (o.slices ≤ 4) && o.codes.all wfCode
/-- A region of a stack agent (R424). -/
def wfStack (w : StackWord) : Bool := decide (w.region < 2 ^ 20)

/-- Well-formed commands. -/
def Instr.wf : Instr → Bool
  | .porRelease _ => true
  | .rstNAssert => true
  | .warmReset fn => wfFn fn
  | .warmResetEntry => true
  | .flrRequest fn => wfFn fn
  | .fuseValid _ => true
  | .phaseComplete _ _ _ => true
  | .phaseTimeout _ => true
  | .agentsDeadline => true
  | .agentInitDone a _ _ _ => decide (a < 64)
  | .tideLinkUp a => decide (a < 64)
  | .bringupWaitTimeout a => decide (a < 64)
  | .sluiceTick _ => true
  | .tick a _ => decide (a < 64)
  | .hostAccess x => wfAccess x
  | .agentRegRequest a => decide (a < 64)
  | .regReply a => decide (a < 64)
  | .agentRegTimeout _ => true
  | .doorbell fn q _ => wfFn fn && decide (q < 4096)
  | .flagRegionWrite fn _ _ => wfFn fn
  | .pwinWerrinfoRead fn p => wfFn fn && decide (p < 64)
  | .wordLatchRead fn _ => wfFn fn
  | .imemWindowWrite x => wfAccess x
  | .dmemWindowWrite x => wfAccess x
  | .schPeriodWrite fn _ => wfFn fn
  | .schAccselWrite fn _ => wfFn fn
  | .stewLedselWrite fn _ _ => wfFn fn
  | .logRdselWrite fn _ => wfFn fn
  | .logPop fn _ => wfFn fn
  | .logHeadWrite fn _ => wfFn fn
  | .watchSevereClear fn index _ => wfFn fn && decide (index < 2304)
  | .admQcfgWrite fn q _ => wfFn fn && decide (q < 65)
  | .admSqtailWrite fn q _ => wfFn fn && decide (q < 65)
  | .admCqheadWrite fn q _ => wfFn fn && decide (q < 65)
  | .adminCommandRead q _ _ => decide (q < 65)
  | .adminCommandStart _ => true
  | .adminReplyWriteResponse q _ => decide (q < 65)
  | .nop q _ => decide (q < 65)
  | .query q _ => decide (q < 65)
  | .partCreate q _ => decide (q < 65)
  | .partActivate q _ => decide (q < 65)
  | .partMaint q _ => decide (q < 65)
  | .partHalt q _ => decide (q < 65)
  | .partDestroy q _ => decide (q < 65)
  | .partReset q _ => decide (q < 65)
  | .partitionReachesFree p => decide (p < 64)
  | .qCreate q _ => decide (q < 65)
  | .qEnable q _ => decide (q < 65)
  | .qDisable q _ => decide (q < 65)
  | .qDestroy q _ => decide (q < 65)
  | .qReset q _ => decide (q < 65)
  | .qModify q _ => decide (q < 65)
  | .gLoad q _ => decide (q < 65)
  | .gPatch q _ => decide (q < 65)
  | .gUnload q _ => decide (q < 65)
  | .fCreate q _ => decide (q < 65)
  | .fDestroy q _ => decide (q < 65)
  | .hInval q _ => decide (q < 65)
  | .modeStage q _ => decide (q < 65)
  | .modeAbort q _ => decide (q < 65)
  | .agentDrain q _ => decide (q < 65)
  | .agentReadmit q _ _ => decide (q < 65)
  | .imemLoad q _ _ => decide (q < 65)
  | .fetchGrant => true
  | .timesliceExpiry p _ => decide (p < 64)
  | .descriptorArrival launch _ => decide (launch < 2 ^ 32)
  | .fragmentTableArrival launch _ => decide (launch < 2 ^ 32)
  | .fragmentTableRead launch => decide (launch < 2 ^ 32)
  | .hostReadFault launch _ _ => decide (launch < 2 ^ 32)
  | .chainAnnounceTimeout q => decide (q < 4096)
  | .chainLeavesInlet q => decide (q < 4096)
  | .relocation q => decide (q < 4096)
  | .handleCacheFill p index _ _ => decide (p < 64) && decide (index < 2 ^ 20)
  | .constBufferReadDone launch _ _ => decide (launch < 2 ^ 32)
  | .waitArm q => decide (q < 4096)
  | .waitTimeout launch entry => decide (launch < 2 ^ 32) && decide (entry < 256)
  | .signalApply => true
  | .memoryFlagReadDone p handle _ _ => decide (p < 64) && decide (handle < 2 ^ 32)
  | .memoryFlagWriteDone p handle _ => decide (p < 64) && decide (handle < 2 ^ 32)
  | .flagSignal a => decide (a < 64)
  | .flagUpdate a => decide (a < 64)
  | .schedulerArrival q => decide (q < 4096)
  | .heldLaunchRecheck eq => decide (eq < 1024)
  | .directPush launch => decide (launch < 2 ^ 32)
  | .graphContextStart launch => decide (launch < 2 ^ 32)
  | .nodeStart launch node => decide (launch < 2 ^ 32) && decide (node < 65536)
  | .nodeComplete launch node => decide (launch < 2 ^ 32) && decide (node < 65536)
  | .coreGrant core => wfCore core
  | .csliceExpiry core => wfCore core
  | .contextSaveDone core => wfCore core
  | .contextRestoreDone core => wfCore core
  | .runaway core => wfCore core
  | .scAdd i => wfR i
  | .scSub i => wfR i
  | .scAnd i => wfR i
  | .scOr i => wfR i
  | .scXor i => wfR i
  | .scSll i => wfR i
  | .scSrl i => wfR i
  | .scSra i => wfR i
  | .scMin i => wfR i
  | .scMax i => wfR i
  | .scMinu i => wfR i
  | .scMaxu i => wfR i
  | .scMul i => wfR i
  | .scMulhu i => wfR i
  | .scDivu i => wfR i
  | .scRemu i => wfR i
  | .scAddi i => wfI i
  | .scAndi i => wfI i
  | .scOri i => wfI i
  | .scXori i => wfI i
  | .scShi i => wfI i
  | .scLi i => wfL i
  | .scLsh i => wfL i
  | .scEq i => wfR i
  | .scNe i => wfR i
  | .scLt i => wfR i
  | .scGe i => wfR i
  | .scLtu i => wfR i
  | .scGeu i => wfR i
  | .scPand i => wfR i
  | .scPor i => wfR i
  | .scPxor i => wfR i
  | .scPnot i => wfR i
  | .scPmov i => wfR i
  | .scSpmov i => wfR i
  | .scBr i => wfB i
  | .scCall i => wfB i
  | .scJr i => wfR i
  | .scJalr i => wfR i
  | .scLd64 i => wfI i
  | .scLd32 i => wfI i
  | .scSt64 i => wfI i
  | .scSt32 i => wfI i
  | .scVld i => wfV i
  | .scVst i => wfV i
  | .scVldx i => wfV i
  | .scVstx i => wfV i
  | .scTld i => wfV i
  | .scTst i => wfV i
  | .scTzero i => wfV i
  | .scVadd i => wfV i
  | .scVsub i => wfV i
  | .scVmul i => wfV i
  | .scVfma i => wfV i
  | .scVmin i => wfV i
  | .scVmax i => wfV i
  | .scVexp2 i => wfV i
  | .scVlog2 i => wfV i
  | .scVrcp i => wfV i
  | .scVrsqrt i => wfV i
  | .scVrsum i => wfV i
  | .scVrmax i => wfV i
  | .scVbcast i => wfV i
  | .scVext i => wfV i
  | .scVins i => wfV i
  | .scVclt i => wfV i
  | .scVceq i => wfV i
  | .scVcvt i => wfV i
  | .scTmma i => wfV i
  | .scTmmaS2 i => wfV i
  | .scTmmaS3 i => wfV i
  | .scQpush i => wfR i
  | .scQpushc i => wfR i
  | .scQtry i => wfR i
  | .scQdrain i => wfR i
  | .scAset i => wfR i
  | .scAnext i => wfR i
  | .scArst i => wfR i
  | .scXld i => wfR i
  | .scXst i => wfR i
  | .scXlds i => wfR i
  | .scXsts i => wfR i
  | .scXwait i => wfR i
  | .scHrel i => wfR i
  | .transferDone core _ _ _ => wfCore core
  | .scSpin i => wfR i
  | .spinOutcome core outcome => wfCore core && decide (outcome < 4)
  | .scFsig i => wfR i
  | .scFxadd i => wfR i
  | .scFcas i => wfR i
  | .scFrd i => wfR i
  | .scFence i => wfR i
  | .scAcall i => wfR i
  | .scAwait i => wfR i
  | .scNop i => wfR i
  | .scEnd i => wfR i
  | .scCsrr i => wfI i
  | .scCsrw i => wfI i
  | .stallRelease core => wfCore core
  | .taskStart a => decide (a < 64)
  | .saveData a => decide (a < 64)
  | .restoreData a => decide (a < 64)
  | .taskEnd a => decide (a < 64)
  | .waitReport a => decide (a < 64)
  | .mopPush a => decide (a < 64)
  | .localPush a => decide (a < 64)
  | .presentMop a l => decide (a < 64) && decide (l < 16)
  | .managerClassHead a l _ => decide (a < 64) && decide (l < 16)
  | .mopWaitOutcome a l outcome => decide (a < 64) && decide (l < 16) && decide (outcome.out < 4)
  | .barrierSatisfied a l _ => decide (a < 64) && decide (l < 16)
  | .eqDone a l _ rep => decide (a < 64) && decide (l < 16) && wfRep rep
  | .eqPreemptAck a l _ rep => decide (a < 64) && decide (l < 16) && wfRep rep
  | .eqFlushAck a l => decide (a < 64) && decide (l < 16)
  | .flushLate a l => decide (a < 64) && decide (l < 16)
  | .flushGiveup a l => decide (a < 64) && decide (l < 16)
  | .allowanceSpent a l => decide (a < 64) && decide (l < 16)
  | .preemptLate a l => decide (a < 64) && decide (l < 16)
  | .eqxAbort a launch => decide (a < 64) && decide (launch < 2 ^ 32)
  | .eqxResume a launch l => decide (a < 64) && decide (launch < 2 ^ 32) && decide (l < 16)
  | .eqxPreempt a _ => decide (a < 64)
  | .eqPart a l _ => decide (a < 64) && decide (l < 16)
  | .completion a => decide (a < 64)
  | .recordWrite launch => decide (launch < 2 ^ 32)
  | .recordWriteResponse launch => decide (launch < 2 ^ 32)
  | .resetQueueSettles q => decide (q < 4096)
  | .drainTimeout q => decide (q < 4096)
  | .hostWriteFault _ => true
  | .interruptPresent => true
  | .interruptTransfer => true
  | .translationStart _ _ => true
  | .translationEnd out => wfTrans out
  | .walkStart _ => true
  | .rootCacheFill p seq _ _ => decide (p < 64) && decide (seq < 65536)
  | .ptSwap fn p _ _ _ => wfFn fn && decide (p < 64)
  | .ptSwapWriteDone p => decide (p < 64)
  | .epochReclaim p seq epoch => decide (p < 64) && decide (seq < 65536) && decide (epoch < 65536)
  | .partialRec a => decide (a < 64)
  | .mergeWriteResponse _ => true
  | .hold _ => true
  | .commit _ => true
  | .basinExpiry => true
  | .xcAck link _ => decide (link < 8)
  | .xcHold link _ => decide (link < 8)
  | .remoteSetSend chip => decide (chip < 64)
  | .xcRx link _ => decide (link < 8)
  | .remoteWaitTimeout launch entry => decide (launch < 2 ^ 32) && decide (entry < 256)
  | .xcUpFall link => decide (link < 8)
  | .holdTimeout link group chip => decide (link < 8) && decide (group < 1024) && decide (chip < 64)
  | .stkBermReq a _ => decide (a < 64)
  | .bermDeadlineBand a _ => decide (a < 64)
  | .bermGrant a => decide (a < 64)
  | .bermRelease a _ => decide (a < 64)
  | .bermOverlong a => decide (a < 64)
  | .stkWear a _ w _ others => decide (a < 64) && wfStack w && others.all wfStack
  | .stkDefect a _ _ _ _ => decide (a < 64)
  | .relocationCopyDone _ => true
  | .unitFence a _ _ => decide (a < 64)
  | .stewRetry a w _ others => decide (a < 64) && wfStack w && others.all wfStack
  | .errPairOnset index => decide (index < 2304)
  | .wireFaultOnset index => decide (index < 2304)
  | .watchEvent a => decide (a < 64)
  | .watchWindowClose => true
  | .fenceReset a => decide (a < 64)
  | .chipFailReportsEnd => true
  | .evacWriteDone _ => true
  | .testInjpair fn _ => wfFn fn
  | .testInjev fn _ => wfFn fn
  | .ageEvaluation _ => true
  | .pmDone _ _ => true
  | .svcModeWrite fn _ => wfFn fn
  | .stage a _ _ => decide (a < 64)
  | .modeAck a => decide (a < 64)
  | .modeDeadline => true
  | .modeCommitOrAbort a => decide (a < 64)
  | .modeSwitch => true
  | .drainEnd a => decide (a < 64)
  | .drainTmoExpiry a => decide (a < 64)
  | .readmitEnterService a => decide (a < 64)
  | .logSpillResponse _ => true
  | .logSpillWrite => true
  | .lbGo fn _ => wfFn fn
  | .lbStop fn _ => wfFn fn
  | .loopbackSend a => decide (a < 64)
  | .loopback a => decide (a < 64)
  | .loopbackAnswer a _ _ _ _ => decide (a < 64)
  | .loopbackTimeout a => decide (a < 64)
  | .flitReceive _ a _ => decide (a < 64)
  | .replayReq _ a => decide (a < 64)
  | .tideLinkFault a => decide (a < 64)
  | .agentReset a => decide (a < 64)
  | .agentSelfReset a => decide (a < 64)
  | .mbistStart inst => decide (inst < 65)
  | .mbistDone inst _ _ => decide (inst < 65)
  | .scanEn inst => decide (inst < 65)
  | .porRstNAssert => true
  | .rstNRelease => true
  | .errorLevelEnd index _ => decide (index < 2304)
  | .codeCacheFill set _ _ => decide (set < 256)

end Sys2Proof
end

