-- ==== Sys2Proof/Certificates/Slice0/Obligations.lean ====
section
/-! DEFINITION. The statements for the provers. -/

open Sys2Proof Sys2Proof.Machine

/-- The step (log entry 2): the command at the front of the queue is carried out on the state with the queue's rest; with no
command waiting one cycle of tref_clk passes. Every command ends in the same way: with no Watch action put down, the waits met by
now, the memory flags no longer in use, the slices that pass and the interrupts held back are seen to, in this order. -/
def Obligations.StepRunsFront : Prop :=
  (∀ (c : Instr) (rest : List Instr) (s : State), s.pending = c :: rest → step s = exec c { s with pending := rest }) ∧
  (∀ (s : State), s.pending = [] → step s = .next (idleTick s)) ∧
  (∀ (s : State), s.watch.actions = [] → settle s = sigVecs (passSlices (memSweep (evalDeps s))))

/-- GLB_ID (R64): any function's read at the Root answers 0xE700_0301, and agent a answers 0xE701_0301 + a × 0x2_0000. -/
def Obligations.IdentityRead : Prop :=
  (∀ (s : State) (fn : Nat), Open s = true → fn ≤ 64 → owedOf s false < 32 → (∀ e ∈ s.port.owed, e.id ≠ 0 ∨ e.wr = true) →
    ∃ t, exec (.hostAccess (rd32 fn 0)) s = .next (settle t) ∧ t.port.resp = 0xE7000301 ∧ t.port.respId = 0) ∧
  (∀ (s : State) (a t : Nat), AgLive s a = true → a < 64 → downHead s a = some (.regRead 0 t 2) →
    ∃ u, exec (.agentRegRequest a) s = .next (settle (sendUp u a (.regReply 0 t 0 (BitVec.ofNat 256 (0xE7010301 + a * 0x20000))))))

/-- Vectors of objects that are not there (R476): a vector of an UNUSED queue is never raised, nor one of a partition that is
neither MAINT, ACTIVE nor HALTED; entry to UNUSED leaves nothing of the queue's vector pending, held back or owed, and raises
none of its own but that of the audit log. -/
def Obligations.VectorsOfObjects : Prop :=
  ∀ (s : State) (q : Nat), q < 4096 →
    ((getQueue s q).st = .unused → reqVec s q = s) ∧
    (getQueue (enterUnused s q) q).st = .unused ∧
    (∀ v, v ≠ 4360 → (v ∈ (enterUnused s q).evt.pending ↔ v ∈ s.evt.pending ∧ v ≠ q)) ∧
    q ∉ (enterUnused s q).evt.pending ∧
    (∀ x ∈ (enterUnused s q).evt.waiting, x.1 ≠ q) ∧ (∀ x ∈ (enterUnused s q).evt.hostSig, x.1 ≠ q) ∧
    (∀ p n, p < 64 → n < 4 →
      ((getPart s p).st ≠ .maint → (getPart s p).st ≠ .active → (getPart s p).st ≠ .halted → reqVec s (4096 + 4 * p + n) = s) ∧
      (isReady s = true → (getPart s p).st = .maint ∨ (getPart s p).st = .active ∨ (getPart s p).st = .halted →
        (reqVec s (4096 + 4 * p + n)).evt.pending = insertNat s.evt.pending (4096 + 4 * p + n)))

/-- MODE_ABORT (R490): ST_OK in the STAGING state of its number, ST_ILLEGAL_STATE otherwise, ST_BAD_PARAM when PARAMS is not 0;
from a partition's queue it is denied. -/
def Obligations.ModeAbortReplies : Prop :=
  (∀ (s : State) (pkt : W512), AdmTakes s 0x51 0x40 pkt = true →
    (badField pkt [] [] = none → s.svc.mc.state = 1 → s.svc.mc.number = pktObj pkt →
      ∃ t w, exec (.modeAbort 0x40 pkt) s = .next (settle t) ∧ t.port.writes = s.port.writes ++ [w] ∧ nbits w.data 16 8 = stOk ∧
        w.kind = .reply 0x40 (bitOf pkt 8) ∧ t.svc.mc.state = 0) ∧
    (badField pkt [] [] = none → s.svc.mc.state ≠ 1 ∨ s.svc.mc.number ≠ pktObj pkt →
      ∃ t w, exec (.modeAbort 0x40 pkt) s = .next (settle t) ∧ t.port.writes = s.port.writes ++ [w] ∧
        nbits w.data 16 8 = stIllegalState ∧ w.kind = .reply 0x40 (bitOf pkt 8) ∧ t.svc = s.svc) ∧
    (∀ o, badField pkt [] [] = some o →
      ∃ t w, exec (.modeAbort 0x40 pkt) s = .next (settle t) ∧ t.port.writes = s.port.writes ++ [w] ∧
        nbits w.data 16 8 = stBadParam ∧ w.kind = .reply 0x40 (bitOf pkt 8) ∧ t.svc = s.svc)) ∧
  (∀ (q : Nat) (pkt : W512), q < 64 → pktOp pkt = 0x51 → pktFlags pkt < 4 → admCheck q pkt = some (stDenied, 4))

/-- Results of the register ALU instructions on the 64-bit words they read (R249). -/
def Obligations.ScAluResults : Prop :=
  ∀ (mk : FR → Instr) (f : W64 → W64 → W64), (mk, f) ∈ ([
      (Instr.scAdd, fun x y => x + y), (Instr.scSub, fun x y => x - y), (Instr.scAnd, fun x y => x &&& y),
      (Instr.scOr, fun x y => x ||| y), (Instr.scXor, fun x y => x ^^^ y),
      (Instr.scSll, fun x y => x <<< (y.toNat % 64)), (Instr.scSrl, fun x y => x >>> (y.toNat % 64)),
      (Instr.scSra, fun x y => x.sshiftRight (y.toNat % 64)),
      (Instr.scMin, fun x y => if x.toInt ≤ y.toInt then x else y), (Instr.scMax, fun x y => if x.toInt ≤ y.toInt then y else x),
      (Instr.scMinu, fun x y => if x.toNat ≤ y.toNat then x else y), (Instr.scMaxu, fun x y => if x.toNat ≤ y.toNat then y else x),
      (Instr.scMul, fun x y => x * y), (Instr.scMulhu, fun x y => BitVec.ofNat 64 (x.toNat * y.toNat / 2 ^ 64)),
      (Instr.scDivu, fun x y => if y = 0 then BitVec.allOnes 64 else x / y),
      (Instr.scRemu, fun x y => if y = 0 then x else x % y)] : List ((FR → Instr) × (W64 → W64 → W64))) →
  ∀ (i : FR) (s : State) (slot : Nat) (c : Ctx), Issues s i.core slot c = true → guardOn c i.pg i.pn = true →
    exec (mk i) s = .next (settle (retired s i.core slot c (setS c i.d (f (sVal c i.a) (sVal c i.b)).toNat)))

/-- Results of the immediate instructions: IMM12 and IMM17 sign-extended; SHI by IMM12 [7:6] (R249). -/
def Obligations.ScImmediateResults : Prop :=
  (∀ (mk : FI → Instr) (f : W64 → W64 → W64), (mk, f) ∈ ([
      (Instr.scAddi, fun x y => x + y), (Instr.scAndi, fun x y => x &&& y), (Instr.scOri, fun x y => x ||| y),
      (Instr.scXori, fun x y => x ^^^ y)] : List ((FI → Instr) × (W64 → W64 → W64))) →
    ∀ (i : FI) (s : State) (slot : Nat) (c : Ctx), Issues s i.core slot c = true → guardOn c i.pg i.pn = true →
      exec (mk i) s = .next (settle (retired s i.core slot c (setS c i.d (f (sVal c i.a) (i.imm.signExtend 64)).toNat)))) ∧
  (∀ (i : FI) (s : State) (slot : Nat) (c : Ctx) (f : W64 → Nat → W64),
    Issues s i.core slot c = true → guardOn c i.pg i.pn = true → fld i.imm 8 4 = 0 →
    (fld i.imm 6 2, f) ∈ ([(0, fun x n => x <<< n), (1, fun x n => x >>> n), (2, fun x n => x.sshiftRight n)] :
      List (Nat × (W64 → Nat → W64))) →
      exec (.scShi i) s = .next (settle (retired s i.core slot c (setS c i.d (f (sVal c i.a) (fld i.imm 0 6)).toNat)))) ∧
  (∀ (i : FL) (s : State) (slot : Nat) (c : Ctx), Issues s i.core slot c = true → guardOn c i.pg i.pn = true →
    exec (.scLi i) s = .next (settle (retired s i.core slot c (setS c i.d (i.imm.signExtend 64).toNat))) ∧
    exec (.scLsh i) s = .next (settle (retired s i.core slot c
      (setS c i.d (sVal c i.d <<< 17 ||| i.imm.setWidth 64).toNat))))

/-- Compares set every bit of p[D]; the predicate operations work bit by bit; PMOV and SPMOV move whole words (R249). Branches:
BR and CALL go to PC + 4 × OFF22, JR and JALR to s[A] [31:0]; CALL and JALR link PC + 4, JALR before it reads s[A]; no branch
waits while no switch to another COMPAT is staged (R249, R265, R278). -/
def Obligations.ScPredicatesAndBranches : Prop :=
  ((∀ (mk : FR → Instr) (f : W64 → W64 → Bool), (mk, f) ∈ ([
        (Instr.scEq, fun x y => x == y), (Instr.scNe, fun x y => x != y), (Instr.scLt, fun x y => x.slt y),
        (Instr.scGe, fun x y => y.sle x), (Instr.scLtu, fun x y => x.ult y), (Instr.scGeu, fun x y => y.ule x)] :
        List ((FR → Instr) × (W64 → W64 → Bool))) →
      ∀ (i : FR) (s : State) (slot : Nat) (c : Ctx), Issues s i.core slot c = true → guardOn c i.pg i.pn = true → i.d < 8 →
        exec (mk i) s = .next (settle (retired s i.core slot c
          (setP c i.d (if f (sVal c i.a) (sVal c i.b) then BitVec.allOnes 64 else 0))))) ∧
    (∀ (mk : FR → Instr) (f : W64 → W64 → W64), (mk, f) ∈ ([
        (Instr.scPand, fun x y => x &&& y), (Instr.scPor, fun x y => x ||| y), (Instr.scPxor, fun x y => x ^^^ y),
        (Instr.scPnot, fun x _ => ~~~ x)] : List ((FR → Instr) × (W64 → W64 → W64))) →
      ∀ (i : FR) (s : State) (slot : Nat) (c : Ctx), Issues s i.core slot c = true → guardOn c i.pg i.pn = true →
        i.d < 8 → i.a < 8 → i.b < 8 →
        exec (mk i) s = .next (settle (retired s i.core slot c (setP c i.d (f (pReg c i.a) (pReg c i.b)))))) ∧
    (∀ (i : FR) (s : State) (slot : Nat) (c : Ctx), Issues s i.core slot c = true → guardOn c i.pg i.pn = true → i.a < 8 →
      exec (.scPmov i) s = .next (settle (retired s i.core slot c (setS c i.d (pReg c i.a).toNat)))) ∧
    (∀ (i : FR) (s : State) (slot : Nat) (c : Ctx), Issues s i.core slot c = true → guardOn c i.pg i.pn = true → i.d < 8 →
      exec (.scSpmov i) s = .next (settle (retired s i.core slot c (setP c i.d (sVal c i.a)))))) ∧
  ((∀ (i : FB) (s : State) (slot : Nat) (c : Ctx) (off : W32), Issues s i.core slot c = true → guardOn c i.pg i.pn = true →
      off = BitVec.ofNat 32 c.pc + 4 * i.off.signExtend 32 → branchHeld s i.core off.toNat = false →
        exec (.scBr i) s = .next (settle (setCtx (touchCode s c) i.core slot { c with pc := off.toNat, stall := none })) ∧
        exec (.scCall i) s = .next (settle (setCtx (touchCode s c) i.core slot
          { setS c 31 (c.pc + 4) with pc := off.toNat, stall := none }))) ∧
    (∀ (i : FR) (s : State) (slot : Nat) (c : Ctx), Issues s i.core slot c = true → guardOn c i.pg i.pn = true →
      branchHeld s i.core (sReg c i.a % 2 ^ 32) = false →
        exec (.scJr i) s = .next (settle (setCtx (touchCode s c) i.core slot
          { c with pc := sReg c i.a % 2 ^ 32, stall := none }))) ∧
    (∀ (i : FR) (s : State) (slot n : Nat) (c : Ctx), Issues s i.core slot c = true → guardOn c i.pg i.pn = true →
      n = sReg (setS c i.d (c.pc + 4)) i.a % 2 ^ 32 → branchHeld s i.core n = false →
        exec (.scJalr i) s = .next (settle (setCtx (touchCode s c) i.core slot { setS c i.d (c.pc + 4) with pc := n, stall := none }))))

/-- Loads and stores of the scalar and vector registers and of tiles in a plain format, at their addresses: the data memory of
the context is read or written and the instruction retires (R249, R251, R253, R255, R256). `data` is what data memory gives for
the range, `s'` the state once ECC has worked on it. Stores: an address in the context's slices and on the access's own size is
written, every other byte of data memory and every register but the PC is as before (R249, R251, R256). What a byte of data
memory reads after a store: the byte stored inside the range, the byte as before outside it; the memory keeps its canonical
form (R251). -/
def Obligations.ScMemory : Prop :=
  ((∀ (mk : FI → Instr) (n : Nat), (mk, n) ∈ [(Instr.scLd64, 8), (Instr.scLd32, 4)] →
      ∀ (i : FI) (s s' : State) (slot data : Nat) (c : Ctx), Issues s i.core slot c = true → guardOn c i.pg i.pn = true →
        dmLoad (touchCode s c) i.core c (ldAddr c i n) n = (s', 0, data) →
        exec (mk i) s = .next (settle (retire s' i.core slot (setS c i.d data)))) ∧
    (∀ (i : FV) (s s' : State) (slot data : Nat) (c : Ctx), Issues s i.core slot c = true → laneFmt i.fmt = true → i.d < 16 →
      dmLoad (touchCode s c) i.core c (vAddr c i) 64 = (s', 0, data) →
        exec (.scVld i) s = .next (settle (retire s' i.core slot (setV c i.d (fromLanes (codeW i.fmt)
          (maskLanes c i (lanes i.fmt (vReg c i.d)) (lanes i.fmt (BitVec.ofNat 512 data)))))))) ∧
    (∀ (i : FV) (s s' : State) (slot data : Nat) (c : Ctx), Issues s i.core slot c = true → i.d < 16 → i.fmt < 16 →
      isMx i.fmt = false → dmLoad (touchCode s c) i.core c (vAddr c i) (2 * codeW i.fmt) = (s', 0, data) →
        exec (.scVldx i) s = .next (settle (retire s' i.core slot (setV c i.d (fromLanes (codeW (wideFmt i.fmt))
          (maskLanes c i (lanes (wideFmt i.fmt) (vReg c i.d)) ((unpackE (codeW i.fmt) 16 data).map fun y =>
            match elemOf i.fmt false with
            | .flt f => expand32 f y
            | .int n => unsgn 32 (sgn n y)))))))) ∧
    (∀ (i : FV) (s s' : State) (slot data : Nat) (c : Ctx), Issues s i.core slot c = true → guardOn c i.pg i.pn = true →
      i.d < 4 → i.fmt < 16 → isMx i.fmt = false → dmLoad (touchCode s c) i.core c (vAddr c i) 1024 = (s', 0, data) →
        exec (.scTld i) s = .next (settle (retire s' i.core slot
          (setTag (setT c i.d (BitVec.ofNat 8192 data)) i.d i.fmt))))) ∧
  ((∀ (mk : FI → Instr) (n : Nat), (mk, n) ∈ [(Instr.scSt64, 8), (Instr.scSt32, 4)] →
      ∀ (i : FI) (s : State) (slot : Nat) (c : Ctx), Issues s i.core slot c = true → guardOn c i.pg i.pn = true →
        dmOk c (ldAddr c i n) n = true →
        exec (mk i) s = .next (settle (retire (modCore (touchCode s c) i.core fun k =>
          dmPut k c (ldAddr c i n) (sReg c i.d) n) i.core slot c))) ∧
    (∀ (i : FV) (s : State) (slot : Nat) (c : Ctx), Issues s i.core slot c = true → laneFmt i.fmt = true → i.d < 16 →
      dmOk c (vAddr c i) 64 = true →
        exec (.scVst i) s = .next (settle (retire (modCore (touchCode s c) i.core fun k =>
          (lanes i.fmt (vReg c i.d)).zipIdx.foldl (fun k (x : Nat × Nat) =>
            if laneOn c i.pg i.pn x.2 then dmPut k c (vAddr c i + x.2 * (codeW i.fmt / 8)) x.1 (codeW i.fmt / 8) else k) k)
          i.core slot c))) ∧
    (∀ (i : FV) (s : State) (slot : Nat) (c : Ctx), Issues s i.core slot c = true → i.d < 16 → i.fmt < 16 →
      isMx i.fmt = false → dmOk c (vAddr c i) (2 * codeW i.fmt) = true →
        ∃ (es : List (Nat × Nat)), es = (lanes (wideFmt i.fmt) (vReg c i.d)).map
            (econv (elemOf (wideFmt i.fmt) false) (elemOf i.fmt false)) ∧
          exec (.scVstx i) s = .next (settle (retire (modCore (touchCode s c) i.core fun k =>
            dmPut k c (vAddr c i) (packE (codeW i.fmt) (maskLanes c i
              (unpackE (codeW i.fmt) 16 (dmBytes (getCore (touchCode s c) i.core) c (vAddr c i) (2 * codeW i.fmt)))
              (es.map (·.1)))) (2 * codeW i.fmt)) i.core slot (orFlags c (laneFlags c i es))))) ∧
    (∀ (i : FV) (s : State) (slot : Nat) (c : Ctx) (bytes n fl : Nat), Issues s i.core slot c = true →
      guardOn c i.pg i.pn = true → i.d < 4 → i.fmt < 16 → tstData c i.d i.fmt = (bytes, n, fl) → dmOk c (vAddr c i) n = true →
        exec (.scTst i) s = .next (settle (retire (modCore (touchCode s c) i.core fun k =>
          dmPut k c (vAddr c i) bytes n) i.core slot (orFlags c fl))))) ∧
  (∀ (k : Core) (c : Ctx) (a v n b : Nat), c.slices.Nodup → a + n ≤ c.slices.length * 16384 → b < c.slices.length * 16384 →
      (memWf k.dmem = true → memWf (dmPut k c a v n).dmem = true) ∧
      dmBytes (dmPut k c a v n) c b 1 = if a ≤ b ∧ b < a + n then v / 256 ^ (b - a) % 256 else dmBytes k c b 1)

/-- Integer lane arithmetic saturates: each lane that is not masked gets the exact result held to the format's range, OVF is
set when one of them was held; masked lanes keep their value (R248, R350). -/
def Obligations.ScLaneArithmetic : Prop :=
  ∀ (mk : FV → Instr) (f : Int → Int → Int → Int), (mk, f) ∈ ([
      (Instr.scVadd, fun _ a b => a + b), (Instr.scVsub, fun _ a b => a - b), (Instr.scVmul, fun _ a b => a * b),
      (Instr.scVfma, fun d a b => d + a * b), (Instr.scVmin, fun _ a b => min a b), (Instr.scVmax, fun _ a b => max a b)] :
      List ((FV → Instr) × (Int → Int → Int → Int))) →
    ∀ (i : FV) (s : State) (slot w : Nat) (c : Ctx), Issues s i.core slot c = true → arithFmt i.fmt = true →
      i.d < 16 → i.a < 16 → i.b < 16 → elemOf i.fmt false = .int w →
      ∃ c', exec (mk i) s = .next (settle (retired s i.core slot c c')) ∧
        c' = { c with v := c'.v, fflags := c'.fflags } ∧ (∀ r, r ≠ i.d → vReg c' r = vReg c r) ∧
        ∀ k, k < 512 / codeW i.fmt →
          (lanes i.fmt (vReg c' i.d)).getD k 0 =
            if laneOn c i.pg i.pn k then
              unsgn w (max (-(2 ^ (w - 1))) (min (2 ^ (w - 1) - 1)
                (f (sgn w ((lanes i.fmt (vReg c i.d)).getD k 0)) (sgn w ((lanes i.fmt (vReg c i.a)).getD k 0))
                  (sgn w ((lanes i.fmt (vReg c i.b)).getD k 0)))))
            else (lanes i.fmt (vReg c i.d)).getD k 0

/-- The functions by FP32 lanes write v[D] alone, and the flags they raise (R350). VLOG2 of zero is a free value of its operand
(log entry 3). -/
def Obligations.ScLaneFunctions : Prop :=
  (∀ (mk : FV → Instr) (f : W32 → Nat × Nat), (mk, f) ∈ [(Instr.scVexp2, exp232), (Instr.scVrcp, rcp32), (Instr.scVrsqrt, rsqrt32)] →
    ∀ (i : FV) (s : State) (slot : Nat) (c : Ctx), Issues s i.core slot c = true → i.fmt = 0 → i.d < 16 → i.a < 16 →
      ∃ r, r = (lanes 0 (vReg c i.a)).map (fun x => f (BitVec.ofNat 32 x)) ∧
        exec (mk i) s = .next (settle (retired s i.core slot c (orFlags (setV c i.d (fromLanes 32
          (maskLanes c i (lanes 0 (vReg c i.d)) (r.map (·.1))))) (laneFlags c i r))))) ∧
  (∀ (i : FV) (s : State) (slot : Nat) (c : Ctx), Issues s i.core slot c = true → i.fmt = 0 → i.d < 16 → i.a < 16 →
    ∃ (r : List (Nat × Nat)), r.length = 16 ∧
      (∀ k x, log232 (BitVec.ofNat 32 ((lanes 0 (vReg c i.a)).getD k 0)) = some x → k < 16 → r[k]? = some x) ∧
      exec (.scVlog2 i) s = .next (settle (retired s i.core slot c (orFlags (setV c i.d (fromLanes 32
        (maskLanes c i (lanes 0 (vReg c i.d)) (r.map (·.1))))) (laneFlags c i r)))))

/-- Reductions and broadcasts: VRSUM of an integer format is the exact sum of its lanes, VRMAX the greatest lane; VBCAST, VEXT
and VINS move lanes (R249, R350). Lane compares write a predicate bit for each lane that is not masked; VCVT converts the lanes
of the wider format; TZERO clears a tile and tags it (R248, R249, R256, R349). -/
def Obligations.ScReductionsAndCompares : Prop :=
  ((∀ (i : FV) (s : State) (slot w : Nat) (c : Ctx), Issues s i.core slot c = true → guardOn c i.pg i.pn = true →
      sumFmt i.fmt = true → i.a < 16 → elemOf i.fmt false = .int w →
        exec (.scVrsum i) s = .next (settle (retired s i.core slot c (setS c i.d
          (unsgn 64 ((lanes i.fmt (vReg c i.a)).map (sgn w)).sum)))) ∧
        ∃ m, exec (.scVrmax i) s = .next (settle (retired s i.core slot c (setS c i.d (unsgn 64 m)))) ∧
          m ∈ (lanes i.fmt (vReg c i.a)).map (sgn w) ∧ ∀ x ∈ (lanes i.fmt (vReg c i.a)).map (sgn w), x ≤ m) ∧
    (∀ (i : FV) (s : State) (slot : Nat) (c : Ctx), Issues s i.core slot c = true → laneFmt i.fmt = true → i.d < 16 →
      exec (.scVbcast i) s = .next (settle (retired s i.core slot c (setV c i.d (fromLanes (codeW i.fmt) (maskLanes c i
        (lanes i.fmt (vReg c i.d)) ((lanes i.fmt (vReg c i.d)).map fun _ => sReg c i.a % 2 ^ codeW i.fmt))))))) ∧
    (∀ (i : FV) (s : State) (slot x : Nat) (c : Ctx), Issues s i.core slot c = true → guardOn c i.pg i.pn = true →
      laneFmt i.fmt = true → i.a < 16 → (lanes i.fmt (vReg c i.a))[sReg c i.b]? = some x →
        exec (.scVext i) s = .next (settle (retired s i.core slot c (setS c i.d x)))) ∧
    (∀ (i : FV) (s : State) (slot : Nat) (c : Ctx), Issues s i.core slot c = true → laneFmt i.fmt = true → i.d < 16 →
      sReg c i.b < (lanes i.fmt (vReg c i.d)).length →
        exec (.scVins i) s = .next (settle (retired s i.core slot c (setV c i.d (fromLanes (codeW i.fmt) (maskLanes c i
          (lanes i.fmt (vReg c i.d)) ((lanes i.fmt (vReg c i.d)).set (sReg c i.b) (sReg c i.a % 2 ^ codeW i.fmt))))))))) ∧
  ((∀ (mk : FV → Instr) (ff : Fv → Fv → Bool) (fi : Int → Int → Bool), (mk, ff, fi) ∈ ([
        (Instr.scVclt, fltv, fun a b => decide (a < b)), (Instr.scVceq, feqv, fun a b => decide (a = b))] :
        List ((FV → Instr) × (Fv → Fv → Bool) × (Int → Int → Bool))) →
      ∀ (i : FV) (s : State) (slot : Nat) (c : Ctx), Issues s i.core slot c = true → laneFmt i.fmt = true →
        i.d < 8 → i.a < 16 → i.b < 16 →
        ∃ w : W64, exec (mk i) s = .next (settle (retired s i.core slot c (setP c i.d w))) ∧
          ∀ k, k < 64 → bitOf w k = if k < 512 / codeW i.fmt ∧ laneOn c i.pg i.pn k then
            (match elemOf i.fmt false with
              | .flt f => ff (fdec f ((lanes i.fmt (vReg c i.a)).getD k 0)) (fdec f ((lanes i.fmt (vReg c i.b)).getD k 0))
              | .int n => fi (sgn n ((lanes i.fmt (vReg c i.a)).getD k 0)) (sgn n ((lanes i.fmt (vReg c i.b)).getD k 0)))
            else bitOf (pReg c i.d) k) ∧
    (∀ (i : FV) (s : State) (slot n : Nat) (c : Ctx), Issues s i.core slot c = true → laneFmt i.fmt = true →
      laneFmt i.b = true → i.b < 16 → i.d < 16 → i.a < 16 → n = 512 / max (codeW i.b) (codeW i.fmt) →
        ∃ r, r = (unpackE (codeW i.b) n (vReg c i.a).toNat).map (econv (elemOf i.b false) (elemOf i.fmt false)) ∧
          exec (.scVcvt i) s = .next (settle (retired s i.core slot c (orFlags (setV c i.d (fromLanes (codeW i.fmt)
            (maskLanes c i (unpackE (codeW i.fmt) n (vReg c i.d).toNat) (r.map (·.1))))) (laneFlags c i r))))) ∧
    (∀ (i : FV) (s : State) (slot : Nat) (c : Ctx), Issues s i.core slot c = true → guardOn c i.pg i.pn = true → i.d < 4 →
      i.fmt = 0 ∨ i.fmt = 8 →
        exec (.scTzero i) s = .next (settle (retired s i.core slot c (setTag (setT c i.d 0) i.d i.fmt)))))

/-- The matrix unit: with tiles of one format and the accumulator tagged for it, TMMA writes t[D] and the flags alone, every
element from its row, its column and the accumulator (R257, R351–R354); otherwise the instruction is skipped with TILE. -/
def Obligations.ScTmma : Prop :=
  ∀ (mk : FV → Instr) (split : Nat), (mk, split) ∈ [(Instr.scTmma, 0), (Instr.scTmmaS2, 2), (Instr.scTmmaS3, 3)] →
    ∀ (i : FV) (s : State) (slot tag : Nat) (c : Ctx), Issues s i.core slot c = true → guardOn c i.pg i.pn = true →
      i.d < 4 → i.a < 4 → i.b < 4 → tag = tileTag c i.a →
      (tag = tileTag c i.b → tileTag c i.d = (if isInt tag then 8 else 0) → i.d ≠ i.a → i.d ≠ i.b → (split = 0 ∨ tag = 0) →
        ∃ (r : List (Nat × Nat)), exec (mk i) s = .next (settle (retired s i.core slot c
            (orFlags (setT c i.d (BitVec.ofNat 8192 (packE 32 (r.map (·.1))))) (flagsOf r)))) ∧
          r.length = 256 ∧ ∀ n, n < 256 → r.getD n (0, 0) = tmmaElem tag (tileMxv c i.a) (tileMxv c i.b) split
            ((unpackE 32 256 (tReg c i.d).toNat).getD n 0)
            (((tileElems tag (tReg c i.a)).drop (n / 16 * tileK tag)).take (tileK tag))
            (((tileElems tag (tReg c i.b)).drop (n % 16 * tileK tag)).take (tileK tag))) ∧
      (tag ≠ tileTag c i.b ∨ tileTag c i.d ≠ (if isInt tag then 8 else 0) ∨ i.d = i.a ∨ i.d = i.b ∨ (split ≠ 0 ∧ tag ≠ 0) →
        exec (mk i) s = .next (settle (skipAt (touchCode s c) i.core slot scTile)))

/-- Guards: an instruction whose scalar guard does not hold retires and changes nothing but the PC; one with a reserved field
is skipped with cause ENCODING (R248, R274). -/
def Obligations.ScGuardsAndEncoding : Prop :=
  (∀ (mk : FR → Instr), mk ∈ [Instr.scAdd, Instr.scSub, Instr.scDivu, Instr.scJr, Instr.scNop, Instr.scEnd, Instr.scQpush,
      Instr.scXld, Instr.scXwait, Instr.scFsig, Instr.scFxadd, Instr.scFrd, Instr.scFence, Instr.scSpin, Instr.scAcall,
      Instr.scAwait] →
    ∀ (i : FR) (s : State) (slot : Nat) (c : Ctx), Issues s i.core slot c = true → guardOn c i.pg i.pn = false →
      i.a < 4 → i.b < 4 → i.d < 4 → exec (mk i) s = .next (settle (retired s i.core slot c c))) ∧
  (∀ (mk : FR → Instr), mk ∈ [Instr.scEq, Instr.scPand, Instr.scSpmov, Instr.scQtry, Instr.scSpin] →
    ∀ (i : FR) (s : State) (slot : Nat) (c : Ctx), Issues s i.core slot c = true → 8 ≤ i.d →
      exec (mk i) s = .next (settle (skipAt (touchCode s c) i.core slot scEncoding)))

/-- A push to an engine queue open to the context, with space in the push buffer and on the lane, enters the push buffer of a
Root core (R261, R263); QTRY sets its predicate; without space QPUSH and QPUSHC stall and QTRY clears its predicate (R265).
QDRAIN waits for the context's macro-ops; XWAIT for its transfers, AWAIT for its agent tasks, FENCE for its flag operations and
transfers; END retires when nothing of the node is left (R263, R265). -/
def Obligations.ScPushesAndWaits : Prop :=
  (∀ (i : FR) (s : State) (slot : Nat) (c : Ctx), Issues s i.core slot c = true → guardOn c i.pg i.pn = true → 0x300 ≤ i.core →
      i.a < 16 → i.d < 8 → pushBad (touchCode s c) i.core c (sReg c i.b) = false →
      (bufRoom (touchCode s c) i.core = true → laneRoom (touchCode s c) (sReg c i.b % 1024) c.be (vReg c i.a) = true →
        exec (.scQpush i) s = .next (settle (rootPush (touchCode s c) i.core slot c (sReg c i.b % 1024) (vReg c i.a) false)) ∧
        exec (.scQpushc i) s = .next (settle (rootPush (touchCode s c) i.core slot c (sReg c i.b % 1024) (vReg c i.a) true)) ∧
        exec (.scQtry i) s = .next (settle (rootPush (touchCode s c) i.core slot (setPAll c i.d true) (sReg c i.b % 1024)
          (vReg c i.a) false))) ∧
      (bufRoom (touchCode s c) i.core = true → laneRoom (touchCode s c) (sReg c i.b % 1024) c.be (vReg c i.a) = false →
        exec (.scQpush i) s = .next (settle (setCtx (touchCode s c) i.core slot
          { c with stall := some (.qpush (sReg c i.b) (vReg c i.a) false) })) ∧
        exec (.scQtry i) s = .next (settle (retired s i.core slot c (setPAll c i.d false))))) ∧
  (∀ (i : FR) (s : State) (slot : Nat) (c : Ctx), Issues s i.core slot c = true → guardOn c i.pg i.pn = true →
      (i.d < 8 → exec (.scQdrain i) s = .next (settle (if c.pend = 0 then retired s i.core slot c (setPAll c i.d (!c.pushBad))
        else setCtx (touchCode s c) i.core slot { c with stall := some (.qdrain i.d) }))) ∧
      (0x300 ≤ i.core → exec (.scXwait i) s = .next (settle (if c.xfers = [] then retired s i.core slot c c
        else setCtx (touchCode s c) i.core slot { c with stall := some .xwait }))) ∧
      (0x300 ≤ i.core → exec (.scAwait i) s = .next (settle (if c.tasks = [] then retired s i.core slot c c
        else setCtx (touchCode s c) i.core slot { c with stall := some .await }))) ∧
      exec (.scFence i) s = .next (settle (if c.unapplied = 0 ∧ c.xfers = [] then retired s i.core slot c c
        else setCtx (touchCode s c) i.core slot { c with stall := some .fence })) ∧
      exec (.scNop i) s = .next (settle (retired s i.core slot c c)) ∧
      (c.pend = 0 → c.xfers = [] → c.tasks = [] → exec (.scEnd i) s = .next (settle (endRetire (touchCode s c) i.core slot))))

/-- Generators: ASET loads a sound descriptor from data memory, ANEXT gives the stream's next address and steps it, all ones
once it is exhausted, a free value where no stream is loaded, ARST clears it (R258–R260). Transfers: a sound XLD or XLDS starts
one transfer under the next tag while fewer than 4 are outstanding, and the fifth stalls; XST and XSTS present their manager-port
writes, or, where data memory has an error, are skipped with ECC (R255, R259, R265). The last response of a transfer ends it: its
bytes stand in data memory and the context has one transfer less (R255). -/
def Obligations.ScGeneratorsAndTransfers : Prop :=
  ((∀ (i : FR) (s s' : State) (slot data : Nat) (c : Ctx), Issues s i.core slot c = true → guardOn c i.pg i.pn = true → i.d < 4 →
      sReg c i.a % 64 = 0 → sReg c i.a + 48 ≤ c.nslices * 16384 →
      dmFetch (touchCode s c) i.core c (sReg c i.a) 48 = (s', 0, data) → gBad (BitVec.ofNat 384 data) = false →
        exec (.scAset i) s = .next (settle (retire s' i.core slot
          (setG c i.d { active := true, desc := BitVec.ofNat 384 data, descOff := sReg c i.a })))) ∧
    (∀ (i : FR) (s : State) (slot : Nat) (c : Ctx), Issues s i.core slot c = true → guardOn c i.pg i.pn = true → i.b < 4 →
      ((gReg c i.b).active = false → exec (.scAnext i) s = .next (settle (retired s i.core slot c
        (setS (ctxFree 13 i.core c).2 i.d (ctxFree 13 i.core c).1.toNat)))) ∧
      ((gReg c i.b).active = true →
        ((gReg c i.b).ended = true →
          exec (.scAnext i) s = .next (settle (retired s i.core slot c (setS c i.d (2 ^ 64 - 1))))) ∧
        ((gReg c i.b).ended = false →
          exec (.scAnext i) s = .next (settle (retired s i.core slot c (setG (setS c i.d
            (gAddr (gReg c i.b).desc (gBase (gReg c i.b).desc) (gReg c i.b).idx)) i.b (gStep (gReg c i.b) 1))))))) ∧
    (∀ (i : FR) (s : State) (slot : Nat) (c : Ctx), Issues s i.core slot c = true → guardOn c i.pg i.pn = true → i.d < 4 →
      exec (.scArst i) s = .next (settle (retired s i.core slot c (setG c i.d {}))))) ∧
  (∀ (mk : FR → Instr) (op : Nat), (mk, op) ∈ [(Instr.scXld, 0), (Instr.scXst, 1), (Instr.scXlds, 2), (Instr.scXsts, 3)] →
      ∀ (i : FR) (s : State) (slot : Nat) (c : Ctx) (ps : List (Nat × Nat × Nat)) (g : Option Gen),
        Issues s i.core slot c = true → guardOn c i.pg i.pn = true → 0x300 ≤ i.core → i.a < 4 →
        xferPlan c op i = (0, ps, g) →
        (4 ≤ c.xfers.length →
          exec (mk i) s = .next (settle (setCtx (touchCode s c) i.core slot { c with stall := some (.xfer op i) }))) ∧
        (c.xfers.length < 4 → op % 2 = 0 →
          exec (mk i) s = .next (settle (ps.foldl (fun s (p : Nat × Nat × Nat) =>
              mgrRead s c.part p.2.1 p.2.2 (.xfer i.core (touchCode s c).port.nextTxn))
            (retire (nextTag (touchCode s c)) i.core slot { (match g with | some g => setG c i.a g | none => c) with
              xfers := c.xfers ++ [{ tag := (touchCode s c).port.nextTxn, pc := c.pc, load := true, pieces := ps }] })))) ∧
        (∀ u bad, c.xfers.length < 4 → op % 2 = 1 →
          ps.foldl (fun (x : State × Bool) (p : Nat × Nat × Nat) =>
            ((dmFetch x.1 i.core c p.1 p.2.2).1, x.2 || (dmFetch x.1 i.core c p.1 p.2.2).2.1 != 0)) (touchCode s c, false) = (u, bad) →
          (bad = false → exec (mk i) s = .next (settle (ps.foldl (fun s (p : Nat × Nat × Nat) =>
              (mgrWrite s c.part p.2.1 p.2.2 (dmBytes (getCore s i.core) c p.1 p.2.2) (.xfer i.core (touchCode s c).port.nextTxn)).2)
            (retire (nextTag u) i.core slot { (match g with | some g => setG c i.a g | none => c) with
              xfers := c.xfers ++ [{ tag := (touchCode s c).port.nextTxn, pc := c.pc, load := false, pieces := ps }] })))) ∧
          (bad = true → exec (mk i) s = .next (settle (skipAt u i.core slot scEcc))))) ∧
  (∀ (s : State) (core slot tag dm addr n : Nat) (c : Ctx) (x : Xfer) (data : List Byte), Live s = true → 0x300 ≤ core →
      core ≤ 0x307 → running s core = some (slot, c) → c.st = .running → c.xfers.find? (fun x => x.tag == tag) = some x →
      x.load = true → x.pieces = [(dm, addr, n)] →
      exec (.transferDone core tag true data) s = .next (settle
        (modCtx (modCore (readDone s (.xfer core tag)) core fun k => dmPut k c dm (nbits (bytesToNat data) 0 (8 * n)) n) core slot
          fun c => { c with xfers := c.xfers.filter (fun y => y.tag != tag) })))

/-- Instructions on flags at a Root core, on an on-chip flag of the context's partition (R266, R267): FSIG queues its
operation, FRD and FXADD and FCAS answer the flag's word as it stood, FXADD adds and FCAS exchanges when the value compares.
SPIN on a flag of the context's partition waits with the outcome that the word gives at once, and SPIN_OUTCOME retires it: the
predicate is set when it was met, and SC_SPIN holds the outcome (R266). -/
def Obligations.ScFlagsAndSpin : Prop :=
  (∀ (i : FR) (s : State) (slot h : Nat) (c : Ctx), Issues s i.core slot c = true → guardOn c i.pg i.pn = true → 0x300 ≤ i.core →
      h = sReg c i.a % 2 ^ 32 → h < 2 ^ 30 → coreFlagOk (touchCode s c) i.core c h false = true →
      (exec (.scFsig i) s = .next (settle (queueSigs (retired s i.core slot c { c with unapplied := c.unapplied + 1 })
        [{ src := i.core - 0x300 + 200, part := c.part, handle := h, op := nbits (sReg c i.a) 32 2, x := sReg c i.b % 2 ^ 62,
           launch := c.launch, ctx := some slot }]))) ∧
      (exec (.scFrd i) s = .next (settle (retired s i.core slot c (setS c i.d (flagWord s h).toNat)))) ∧
      ((∀ g ∈ s.weir.sigq, g.ctx = some slot → g.handle ≠ h) →
        (∀ w cl u, sigResult (flagWord s h) 0 (sReg c i.b % 2 ^ 62) = (w, cl) →
          u = setFlag (retired s i.core slot c (setS c i.d (flagWord s h).toNat)) h w →
          exec (.scFxadd i) s = .next (settle (evalFlag (if cl then clampEvent u
            { src := i.core - 0x300 + 200, part := c.part, handle := h, op := 0, x := 0, launch := c.launch } else u) c.part h w))) ∧
        (bitOf (flagWord s h) 63 = false → fld (flagWord s h) 0 62 ≠ sReg c i.d % 2 ^ 62 →
          exec (.scFcas i) s = .next (settle (retired s i.core slot c (setS c i.d (flagWord s h).toNat)))) ∧
        (∀ w : W64, bitOf (flagWord s h) 63 = false → fld (flagWord s h) 0 62 = sReg c i.d % 2 ^ 62 →
          w = BitVec.ofNat 64 (sReg c i.b % 2 ^ 62 + put (b2n (bitOf (flagWord s h) 62)) 62) →
          exec (.scFcas i) s = .next (settle (evalFlag
            (setFlag (retired s i.core slot c (setS c i.d (flagWord s h).toNat)) h w) c.part h w))))) ∧
  ((∀ (i : FR) (s : State) (slot h : Nat) (c : Ctx), Issues s i.core slot c = true → guardOn c i.pg i.pn = true → 0x300 ≤ i.core →
      i.d < 8 → h = sReg c i.a % 2 ^ 32 → h < 2 ^ 30 → coreFlagOk (touchCode s c) i.core c h true = true → c.spinCut = false →
      nbits (sReg c i.a) 32 3 ≤ 5 → nbits (sReg c i.a) 35 9 = 0 →
        exec (.scSpin i) s = .next (settle (setCtx (touchCode s c) i.core slot { c with
          stall := some (.spin i.d h (nbits (sReg c i.a) 32 3) (sReg c i.b % 2 ^ 62)
            (spinOut (flagWord s h) (nbits (sReg c i.a) 32 3) (sReg c i.b % 2 ^ 62))) }))) ∧
    (∀ (core slot d h cmp crest : Nat) (s : State) (c : Ctx), CoreLive s core = true → coreOk core = true → 0x300 ≤ core →
      running s core = some (slot, c) → c.st = .running → c.stall = some (.spin d h cmp crest (some 0)) → h < 2 ^ 30 →
      exec (.spinOutcome core 0) s = .next (settle (retire { s with free := s.free + 1 } core slot
        { setPAll c d true with spin := 0, spinLeft := (Config.freeWord s.free).toNat % 2 ^ 20 }))))

/-- ACALL takes the lowest free save slot and sends TASK_START to its agent while fewer than 8 tasks are outstanding; without a
free slot it stalls (R265, R268, R281). HREL answers the entry of the handle cache as a reloaded descriptor address, and waits for
the entry that the cache lacks (R255).
CSRR reads SC_PC, SC_FFLAGS, SC_TFMT, SC_SKIPS, the tick and the scratch registers; SC_CYCLES takes a free value. CSRW writes
SC_FFLAGS, SC_TFMT and the scratch registers; every other number is skipped with cause CSR (R246). A skipped instruction
advances the PC, records the cause and the PC, counts, and leaves every register of the context as it was (R273, R274). -/
def Obligations.ScCallsCsrsSkips : Prop :=
  ((∀ (i : FR) (s : State) (slot k : Nat) (c : Ctx), Issues s i.core slot c = true → guardOn c i.pg i.pn = true → 0x300 ≤ i.core →
      i.b < 16 → nbits (sReg c i.a) 6 2 = 0 → sReg c i.a < 2 ^ 16 → sReg c i.a % 64 < s.par.numAgents →
      agtExcluded s (sReg c i.a % 64) = false →
      nbits (sReg c i.a) 8 8 < bankEntries (activeBank (getAgent s (sReg c i.a % 64)).core) →
      (freeSlot s = none →
        exec (.scAcall i) s = .next (settle (setCtx (touchCode s c) i.core slot
          { c with stall := some (.acall (sReg c i.a % 64) (nbits (sReg c i.a) 8 8) (vReg c i.b)) }))) ∧
      (freeSlot s = some k → c.tasks.length < 8 →
        exec (.scAcall i) s = .next (settle (sendDown (retire (takeSlot (touchCode s c) k) i.core slot
            { c with tasks := c.tasks ++ [(sReg c i.a % 64, k)] }) (sReg c i.a % 64)
          (.ctxXfer 1 k c.launch 0 (taskData (retire (takeSlot (touchCode s c) k) i.core slot
            { c with tasks := c.tasks ++ [(sReg c i.a % 64, k)] }) c (sReg c i.a % 64) (nbits (sReg c i.a) 8 8)
            (vReg c i.b))))))) ∧
    (∀ (i : FR) (s : State) (slot : Nat) (c : Ctx) (e : BitVec 128), Issues s i.core slot c = true →
      guardOn c i.pg i.pn = true → 0x300 ≤ i.core → bufHandleOk (sReg c i.a % 2 ^ 32) = true →
      hInTable (touchCode s c) c.part (sReg c i.a % 2 ^ 32) = true →
      cacheLookup (touchCode s c) c.part (sReg c i.a % 2 ^ 32) = some e → hValid e = true → hKind e < 7 →
      exec (.scHrel i) s = .next (settle (retire (hHit (touchCode s c) c.part (sReg c i.a % 2 ^ 32)) i.core slot
        (setS c i.d (hrel e 0).toNat))) ∧
      (getPart (hHit (touchCode s c) c.part (sReg c i.a % 2 ^ 32)) c.part).hits = satN 32 ((getPart s c.part).hits + 1)) ∧
    (∀ (i : FR) (s : State) (slot h : Nat) (c : Ctx), Issues s i.core slot c = true → guardOn c i.pg i.pn = true → 0x300 ≤ i.core →
      h = sReg c i.a % 2 ^ 32 → bufHandleOk h = true → hInTable (touchCode s c) c.part h = true →
      cacheLookup (touchCode s c) c.part h = none →
      exec (.scHrel i) s = .next (settle (setCtx (hMiss (touchCode s c) c.part h).2 i.core slot
        { c with stall := some (.hrel i.d (hMiss (touchCode s c) c.part h).1) })))) ∧
  (∀ (i : FI) (s : State) (slot n : Nat) (c : Ctx), Issues s i.core slot c = true → guardOn c i.pg i.pn = true →
      i.imm.toNat = n →
      (n = 0 → exec (.scCsrr i) s = .next (settle (retired s i.core slot c (setS c i.d c.pc)))) ∧
      (n = 4 → 0x300 ≤ i.core →
        exec (.scCsrr i) s = .next (settle (retired s i.core slot c (setS c i.d (s.sched.tickNo % 2 ^ 48))))) ∧
      (n = 5 → exec (.scCsrr i) s = .next (settle (retire { touchCode s c with free := s.free + 1 } i.core slot
        (setS c i.d (Config.freeWord s.free).toNat)))) ∧
      (n = 6 → exec (.scCsrr i) s = .next (settle (retired s i.core slot c (setS c i.d c.fflags))) ∧
        exec (.scCsrw i) s = .next (settle (retired s i.core slot c { c with fflags := sReg c i.a % 16 }))) ∧
      (n = 7 → exec (.scCsrr i) s = .next (settle (retired s i.core slot c (setS c i.d c.tfmt))) ∧
        exec (.scCsrw i) s = .next (settle (retired s i.core slot c { c with tfmt := sReg c i.a % 2 ^ 21 }))) ∧
      (n = 9 → exec (.scCsrr i) s = .next (settle (retired s i.core slot c (setS c i.d c.skips)))) ∧
      (0x10 ≤ n → n ≤ 0x17 →
        exec (.scCsrr i) s = .next (settle (retired s i.core slot c (setS c i.d (tget 0#64 c.scratch n).toNat))) ∧
        exec (.scCsrw i) s = .next (settle (retired s i.core slot c
          { c with scratch := tput 0 c.scratch n (BitVec.ofNat 64 (sReg c i.a)) }))) ∧
      (n < 6 ∨ 8 ≤ n ∧ n ≤ 0xF ∨ 0x18 ≤ n ∧ n < 0x40 →
        exec (.scCsrw i) s = .next (settle (skipAt (touchCode s c) i.core slot scCsr)))) ∧
  (∀ (s : State) (core slot cause : Nat) (c : Ctx), getCtx? s core slot = some c →
      ∃ c', getCtx? (skipAt s core slot cause) core slot = some c' ∧
        c' = { c with
          pc := (c.pc + 4) % 2 ^ 32, stall := none, spinCut := false, cause := cause, causePc := c.pc, skips := satN 32 (c.skips + 1)
          firstSkip := if c.firstSkip = 0 then cause else c.firstSkip })

/-- Retiring writes the context's slot alone: every other context, every core, launch, flag and queue is as before. -/
def Obligations.RetireFrame : Prop :=
  ∀ (s : State) (core slot : Nat) (c c' : Ctx),
    getCtx? (retired s core slot c c') core slot = some { c' with pc := (c'.pc + 4) % 2 ^ 32, stall := none, spinCut := false } ∧
    (∀ k, k ≠ slot → getCtx? (retired s core slot c c') core k = getCtx? s core k) ∧
    (retired s core slot c c').cores = s.cores ∧ (retired s core slot c c').launches = s.launches ∧
    (retired s core slot c c').weir = s.weir ∧ (retired s core slot c c').queues = s.queues ∧
    (retired s core slot c c').parts = s.parts ∧ (retired s core slot c c').port = s.port ∧
    (retired s core slot c c').pending = s.pending

/-- STALL_RELEASE retires a stalled instruction whose condition has gone, and the context goes on (R265). Messages of agent
tasks (R53, R268, R269): TASK_START adds the task to the agent's arrivals, an LC task saving the BE one that runs; a piece of a save
image is written to its slot, the last puts the task among the saved ones; a piece of a restored image is kept until the last is
there; TASK_END takes the task off its caller's outstanding tasks and frees its slot; the report of a SPIN's end in poison or
timeout counts and records it. -/
def Obligations.CoreStallsAndTasks : Prop :=
  (∀ (s : State) (core slot : Nat) (c : Ctx), CoreLive s core = true → coreOk core = true → running s core = some (slot, c) →
      c.st = .running →
      (c.stall = some .xwait → c.xfers = [] →
        exec (.stallRelease core) s = .next (settle (retire s core slot c))) ∧
      (c.stall = some .await → c.tasks = [] →
        exec (.stallRelease core) s = .next (settle (retire s core slot c))) ∧
      (c.stall = some .fence → c.unapplied = 0 → c.xfers = [] →
        exec (.stallRelease core) s = .next (settle (retire s core slot c))) ∧
      (∀ d, c.stall = some (.qdrain d) → c.pend = 0 →
        exec (.stallRelease core) s = .next (settle (retire s core slot (setPAll c d (!c.pushBad))))) ∧
      (∀ t l, c.stall = some (.branch t l) → branchHeld s core t = false →
        exec (.stallRelease core) s = .next (settle (setCtx s core slot { setS c l (c.pc + 4) with pc := t % 2 ^ 32, stall := none })))) ∧
  ((∀ (s t : State) (a slot launch off : Nat) (data : List Byte) (c : Ctx), AgLive s a = true →
      downHead s a = some (.ctxXfer 1 slot launch off data) → c = taskCtx (takeDown s a) a slot launch (bytesToNat data) →
      t = modAgent (takeDown s a) a (fun g => { g with tasks := kput g.tasks slot c, arrivals := without g.arrivals slot ++ [slot] }) →
      (nbits (bytesToNat data) (8 * 65) 8 ≠ 0 → exec (.taskStart a) s = .next (settle (agentNext t a))) ∧
      (nbits (bytesToNat data) (8 * 65) 8 = 0 → exec (.taskStart a) s = .next (settle (agentNext (agentSave t a) a))) ∧
      kget (getAgent t a).tasks slot = some c ∧ (getAgent t a).arrivals = without (getAgent s a).arrivals slot ++ [slot]) ∧
    (∀ (s t : State) (a slot launch off : Nat) (data : List Byte) (ps : List (Nat × List Byte)), Live s = true →
      upHead s a = some (.ctxXfer 2 slot launch off data) →
      s.ctxs.any (fun y => y.2.tasks.contains (a, slot)) = true → ps = tget [] s.save.pieces slot ++ [(off, data)] →
      t = { (mgrWrite (takeUp s a) Config.fnManager (slotAddr s slot + off) data.length (bytesToNat data) (.save slot)).2 with
        save := { s.save with pieces := kput s.save.pieces slot ps } } →
      (sumBy (fun (p : Nat × List Byte) => p.2.length) ps < 22528 → exec (.saveData a) s = .next (settle t)) ∧
      (22528 ≤ sumBy (fun (p : Nat × List Byte) => p.2.length) ps → exec (.saveData a) s = .next (settle
        (taskRestore { t with save := { t.save with saved := t.save.saved ++ [(slot, a, launch)] } } a)))) ∧
    (∀ (s u : State) (a slot launch off : Nat) (data : List Byte) (ps : List (Nat × List Byte)), AgLive s a = true →
      downHead s a = some (.ctxXfer 3 slot launch off data) → ps = (getAgent s a).pieces ++ [(off, data)] →
      u = modAgent (takeDown s a) a (fun g => { g with pieces := [] }) →
      (sumBy (fun (p : Nat × List Byte) => p.2.length) ps < 22528 →
        exec (.restoreData a) s = .next (settle (modAgent (takeDown s a) a fun g => { g with pieces := ps }))) ∧
      (∀ c i rest img, 22528 ≤ sumBy (fun (p : Nat × List Byte) => p.2.length) ps → kget (getAgent u a).tasks slot = some c →
        freeSlicesOf u (0x200 + a) = i :: rest →
        img = ps.foldl (fun n (p : Nat × List Byte) => n + put (bytesToNat p.2) (8 * p.1)) 0 →
        ∀ v, v = modCore (takeSlices u (0x200 + a) slot [i]) (0x200 + a)
            (fun k => dmPut k { c with slices := [i] } 0 (nbits img (8 * 0x2000) (8 * 16384)) 16384) →
          exec (.restoreData a) s = .next (settle (agentNext (setCtx v (0x200 + a) slot
            { slotLoad img (getCore v (0x200 + a)) { c with slices := [i] } with st := .held, ready := true }) a)))) ∧
    (∀ (s t : State) (a slot launch off k : Nat) (data : List Byte) (c : Ctx), Live s = true →
      upHead s a = some (.ctxXfer 4 slot launch off data) → nbits (bytesToNat data) 32 8 = 0 →
      s.ctxs.find? (fun y => y.2.tasks.contains (a, slot)) = some (k, c) →
      t = modAgent (scSticky { setCtx (takeUp s a) 0x300 k { c with tasks := c.tasks.filter (fun t => t != (a, slot)) } with
          save := { s.save with used := without s.save.used slot } } c.part (nbits (bytesToNat data) 40 4)) a
        (fun g => { g with pushSkips := without g.pushSkips slot }) →
      ((getAgent s a).pushSkips.contains slot = false →
        exec (.taskEnd a) s = .next (settle (graphSettle (taskRestore t a) c.launch))) ∧
      ((getAgent s a).pushSkips.contains slot = true →
        exec (.taskEnd a) s = .next (settle (graphSettle (taskRestore (failNode t c.launch c.node eScIllegal false) a) c.launch)))) ∧
    (∀ (s : State) (a slot launch off p h : Nat) (data : List Byte), Live s = true →
      upHead s a = some (.ctxXfer 5 slot launch off data) → p = launchPart s launch → h = nbits (bytesToNat data) 0 32 →
      (nbits (bytesToNat data) 32 8 = 1 → exec (.waitReport a) s = .next (settle (wstatSet (takeUp s a) p 1))) ∧
      (∀ u, nbits (bytesToNat data) 32 8 = 2 →
        u = raiseOn (takeUp s a) eWaitTimeout (some p) (some a) [(.launch, launch), (.handle, h)] →
        exec (.waitReport a) s = .next (settle (modWeir
          (wstatSet (werr u p eWaitTimeout launch h (flagAddr u p h 0) 0xC (0x200 + a) 0 0) p 0)
          fun w => { w with tmos := satN 32 (w.tmos + 1) })))))

/-- A free core of 0–6 takes the best context that wants one, and restores it where it was saved; a save that is done leaves the
context saved and the core free; a restore that is done lets it run; a slice that ends gives way to a context of the same rank, else
begins again (R231, R270, R271). A line of the code window that arrives enters the code cache as the most recently used (R201). -/
def Obligations.CoreGrants : Prop :=
  (∀ (s : State) (core slot : Nat) (c : Ctx), Live s = true → 0x300 ≤ core → core ≤ 0x306 →
      (∀ c0 u n, s.glb.frozen = false → (getCore s core).run = none → bestFor s core = some (slot, c0) →
        u = modSched (bringIn s core slot) (fun k => { k with grantNo := n }) → n = (bringIn s core slot).sched.grantNo + 1 →
        kget (bringIn s core slot).ctxs slot = some c →
        (c0.st ≠ .saved → exec (.coreGrant core) s = .next (settle (modCore
          (setCtx u core slot { c with st := .running, ready := false, lastGrant := n }) core fun k => { k with run := some slot, st := 1 }))) ∧
        (c0.st = .saved → exec (.coreGrant core) s = .next (settle (modCore
          (setCtx (mgrRead u Config.fnManager (slotAddr u slot) 6144 (.restore slot)) core slot
            { c with st := .restoring, ready := true, lastGrant := n }) core fun k => { k with run := some slot, st := 3 })))) ∧
      (running s core = some (slot, c) → c.st = .saving → c.xfers = [] →
        exec (.contextSaveDone core) s = .next (settle (modCore (setCtx (scSticky { s with
            save := { s.save with order := s.save.order + 1 }
            port := { s.port with writes := s.port.writes.filter (fun w => w.kind != WrKind.save slot) } } c.part c.fflags) core slot
          { c with st := .saved, saveOrder := s.save.order + 1 }) core
          fun k => { k with run := none, st := 0, saves := satN 32 (k.saves + 1) }))) ∧
      (running s core = some (slot, c) → c.st = .restoring →
        exec (.contextRestoreDone core) s = .next (settle (modCore (setCtx (readDone s (.restore slot)) core slot
          { reloadGens (getCore s core) c with st := .running, ready := false }) core fun k => { k with st := 1 }))) ∧
      (running s core = some (slot, c) → c.st = .running →
        ((wantCore s).any (fun x => rankOf s x.2 == rankOf s c) = true →
          exec (.csliceExpiry core) s = .next (settle (startSave s core))) ∧
        ((wantCore s).any (fun x => rankOf s x.2 == rankOf s c) = false →
          exec (.csliceExpiry core) s = .next (settle (setCtx (modSched s fun k => { k with grantNo := s.sched.grantNo + 1 }) core slot
            { c with lastGrant := s.sched.grantNo + 1 })))) ∧
      (running s core = some (slot, c) → c.st = .running → c.stall = none →
        exec (.runaway core) s = .next (settle (endSkip s core slot scRunaway)))) ∧
  (∀ (s : State) (set tag line : Nat), Live s = true → line = tag * 256 + set →
      s.port.reads.any (fun r => r.kind == RdKind.code line) = true →
      exec (.codeCacheFill set tag true) s = .next (settle (linePut (readDone s (.code line)) line)) ∧
      (linePut (readDone s (.code line)) line).ccache.getLast? = some line)

/-- A macro-op enters its lane (R283, R284): from a MOP_PUSH as it says, from the agent's core once it has a slot.
Presentation: with the engine free and the gate open the ready head of the LC lane is presented, and the BE lane's only when
the LC lane has none (R300, R301, R418). -/
def Obligations.LanesAndPresentation : Prop :=
  ((∀ (s : State) (a : Nat) (p : PushMsg), AgLive s a = true → downHead s a = some (.mopPush p) →
      exec (.mopPush a) s = .next (settle (enterLane (takeDown s a) a (p.eq % 16)
        { be := p.be, tag := p.tag, launch := p.launch, part := p.part, maint := p.maint, chained := p.chained, predQ := p.predQ,
          predTag := p.predTag, mop := p.mop, deftmo := p.deftmo } true p.charge p.allow p.used0))) ∧
    (∀ (s : State) (a slot target : Nat) (m : W512) (ch : Bool) (c : Ctx), AgLive s a = true → a < 64 →
      running s (0x200 + a) = some (slot, c) → c.st = .running → c.stall = some (.qpush target m ch) → c.unapplied = 0 →
      pushBad s (0x200 + a) c target = false → localRoom s a (target % 1024 % 16) c.be = true →
      exec (.localPush a) s = .next (settle (localEnter (retire s (0x200 + a) slot c) a slot (target % 1024 % 16) m ch)))) ∧
  (∀ (s : State) (a l : Nat) (e : Ent), AgLive s a = true → (getEq s a l).pres = none → bermShut s a l = false →
      ((headOf (getEq s a l) false = some e ∧ headReady s a l false = true) ∨
        ((∀ f, headOf (getEq s a l) false = some f → headReady s a l false = false ∨ mEngine f.mop = false) ∧
          headOf (getEq s a l) true = some e ∧ headReady s a l true = true)) → mEngine e.mop = true →
      ∀ t, t = modEq s a l (fun q => { putEnt q { e with st := .presented } with pres := some (e.be, e.seq) }) →
        exec (.presentMop a l) s = .next (settle t) ∧
        ∀ b k, (b ≠ a ∨ k ≠ l) → getEq t b k = getEq s b k)

/-- Manager classes complete at the head of their lane (R302, R303): STREAM sets the lane's generator, a WAIT with handle 0 and
a MARKER complete at once, a BARRIER once its queues are clear; a WAIT on a flag is armed and ends with the outcome its flag
gives, a WAIT that a full mirror keeps out by its timeout. EQ_DONE (R286, R305, R308): with result 0 the macro-op ends with ST_OK,
its counts are the report's added to those before, and its signal is held back while the flush it needs has not been acknowledged;
with result 2 it ends aborted at the tile it began with. -/
def Obligations.ManagerClassesAndDone : Prop :=
  (∀ (s : State) (a l : Nat) (be : Bool) (e : Ent), AgLive s a = true → headOf (getEq s a l) be = some e →
      chainOpen e = true → e.cause = 0 → e.st = .queued →
      (mOpc e.mop = 0x10 → exec (.managerClassHead a l be) s = .next (settle (mgrDoneEnt
        (modEq s a l fun q => setGen q be { active := true, desc := mDesc e.mop } e.launch) a l e))) ∧
      (mOpc e.mop = 0x13 → exec (.managerClassHead a l be) s = .next (settle (mgrDoneEnt s a l e))) ∧
      (mOpc e.mop = 0x11 → wHandle (fld e.mop 128 128) = 0 →
        exec (.managerClassHead a l be) s = .next (settle (mgrDoneEnt s a l e))) ∧
      (mOpc e.mop = 0x11 → wHandle (fld e.mop 128 128) ≠ 0 → (getEq s a l).wait = none →
        exec (.managerClassHead a l be) s = .next (settle (armWait s a l e))) ∧
      (mOpc e.mop = 0x12 → barrierMet s a e = true →
        exec (.managerClassHead a l be) s = .next (settle (mgrDoneEnt s a l e)) ∧
        exec (.barrierSatisfied a l be) s = .next (settle (mgrDoneEnt s a l e))) ∧
      (∀ w out, (getEq s a l).wait = some w → findEnt (getEq s a l) w.be w.seq = some e →
        w.out = some out ∨ (w.out = none ∧ out = 2) →
        exec (.mopWaitOutcome a l ⟨w.be, out⟩) s = .next (settle (waitEnd s a l e out))) ∧
      ((getEq s a l).wait = none → heldWait s a l be = some e →
        exec (.mopWaitOutcome a l ⟨be, 2⟩) s = .next (settle (waitEnd s a l e 2)))) ∧
  (∀ (s : State) (a l : Nat) (word : W64) (rep : EngRep) (e : Ent), AgLive s a = true → presEnt (getEq s a l) = some e →
      e.cut = false → ∀ e' s' u, countRep s a l e rep = (s', e') → u = { e' with bytes := fld word 32 32 * 64 } →
        e'.cycles = e.cycles + rep.cycles ∧ e'.ns10 = e.ns10 + rep.ns10 ∧
        (fld word 0 2 = 0 → exec (.eqDone a l word rep) s = .next (settle (settleAgent (endEnt
          (tilesRun s' a l u (mTiles e'.mop - e'.tstart)) a l u
          (0, 0, 0, mTiles e'.mop, endFlags u (mRel e'.mop && !bitOf word 2), 0) (mRel e'.mop && !bitOf word 2)) a))) ∧
        (fld word 0 2 = 2 → exec (.eqDone a l word rep) s = .next (settle (settleAgent
          (endEnt s' a l u (3, 0, 0, e'.tstart, endFlags u false, 0) false) a))))

/-- Stops and flushes (R226, R228, R286, R305, R306, R309): a spent allowance and a late answer are put down once; a stop of
kind 0 leaves the queue without a presented macro-op and counts; an acknowledged flush, or a flush given up after it was late,
lets the macro-op be reported. Commands of the internal aperture and partial records (R285, R309, R310, R406): each takes its
message and is answered. -/
def Obligations.StopsAndAperture : Prop :=
  ((∀ (s : State) (a l : Nat) (e : Ent), AgLive s a = true → presEnt (getEq s a l) = some e →
      (getEq s a l).pres = some (e.be, e.seq) →
      (e.be = false → (getEq s a l).preempt ≠ some 1 → (tget {} (getEq s a l).recs e.launch).paused = false →
        exec (.allowanceSpent a l) s = .next (settle (modEq s a l fun q => { q with preempt := some 0, stopFor := 0 }))) ∧
      (∀ k, (getEq s a l).preempt = some k → (getEq s a l).preemptLate = false →
        exec (.preemptLate a l) s = .next (settle
          (raiseOn (modEq s a l fun q => { q with preemptLate := true }) ePreemptLate (some e.part) (some a)
            [(.engineQueue, a * 16 + l)]))) ∧
      (∀ tileAt rep bnd u v e', (getEq s a l).preempt = some 0 → bnd = max e.tstart (min tileAt (mTiles e.mop)) →
        countRep (tilesRun s a l e (bnd - e.tstart)) a l { e with tstart := bnd, st := .stopped } rep = (u, e') →
        v = modEq u a l (fun q => { q with pres := none, preempt := none, preemptLate := false, preempts := satN 32 (q.preempts + 1) }) →
        exec (.eqPreemptAck a l tileAt rep) s = .next (settle (settleAgent
          (if (getEq s a l).stopFor = 0 then sendPaused v a l e' else v) a)) ∧
        e' = { e with tstart := bnd, st := .stopped, cycles := e.cycles + rep.cycles, ns10 := e.ns10 + rep.ns10
                      fflags := e.fflags ||| (rep.fflags % 16) })) ∧
    (∀ (s : State) (a l : Nat) (e : Ent), AgLive s a = true → flushing (getEq s a l) = some e →
      exec (.eqFlushAck a l) s = .next (settle (settleAgent
        (drainDone 64 (modEq s a l fun q => putDone q { e with st := .ended }) a l) a)) ∧
      (e.late = false → exec (.flushLate a l) s = .next (settle
        (raiseOn (modEq s a l fun q => putDone q { e with late := true }) eFlushLate (some e.part) (some a)
          [(.engineQueue, a * 16 + l), (.launch, e.launch)]))) ∧
      (e.late = true → exec (.flushGiveup a l) s = .next (settle (settleAgent
        (drainDone 64 (modEq s a l fun q => putDone q
          { e with st := .ended, fin := some (2, 0, eFlushLate, mTiles e.mop, endFlags e false, 0) }) a l) a))))) ∧
  ((∀ (s : State) (a launch t d : Nat), AgLive s a = true → apertureCmd s a 0x7000 = some (t, d) → d % 2 ^ 32 = launch →
      exec (.eqxAbort a launch) s = .next (settle (apertureDone (settleAgent (abortTasks
        ((upTo 16).foldl (fun s l => abortQueue s a launch l) (takeDown s a)) a launch) a) a 0x7000 t))) ∧
    (∀ (s : State) (a launch l t d : Nat), AgLive s a = true → apertureCmd s a 0x7008 = some (t, d) → d % 2 ^ 32 = launch →
      d / 2 ^ 32 % 16 = l →
      ∀ u, u = modEq (takeDown s a) a l (fun q => { q with
          recs := q.recs.map (fun (x : Nat × LRec) => if x.1 = launch then (x.1, { x.2 with paused := false, used := 0 }) else x)
          lc := q.lc.filter (fun e => e.launch == launch && e.st == EntSt.stopped)
            ++ q.lc.filter (fun e => e.launch == launch && e.st != EntSt.stopped) ++ q.lc.filter (fun e => e.launch != launch) }) →
        exec (.eqxResume a launch l) s = .next (settle (apertureDone (settleAgent u a) a 0x7008 t)) ∧
        (∀ r ∈ (getEq u a l).recs, r.1 = launch → r.2.paused = false ∧ r.2.used = 0) ∧
        (getEq u a l).lc.length = (getEq s a l).lc.length) ∧
    (∀ (s : State) (a mask t d : Nat), AgLive s a = true → apertureCmd s a 0x7010 = some (t, d) → d % 2 ^ 16 = mask →
      ∀ u, u = (upTo 16).foldl (fun s l =>
          if mask.testBit l ∧ (presEnt (getEq s a l)).any (fun e => e.be) = true ∧ headReady s a l false = true ∧
              (getEq s a l).preempt = none then modEq s a l fun q => { q with preempt := some 0, stopFor := 1 }
          else s) (takeDown s a) →
        exec (.eqxPreempt a mask) s = .next (settle (apertureDone u a 0x7010 t)) ∧
        ∀ l, mask.testBit l = false → (getEq u a l).preempt = (getEq s a l).preempt) ∧
    (∀ (s : State) (a l : Nat) (rec : W512) (e : Ent), AgLive s a = true → presEnt (getEq s a l) = some e →
      exec (.eqPart a l rec) s = .next (settle (sendUp s a (.partialRec (a * 16 + l) e.tag e.launch rec)))))

/-- A launch that reaches the scheduler is checked with its chain as one unit (R215, R217, R222); a NOP leaves it at once. The
check of R217 and R221 on a unit at its arrival: held while an agent it names is draining, ST_TOO_LONG beyond the budget,
admitted when it fits the period, booked when it fits the next, held otherwise. HELD_LAUNCH_RECHECK looks at LC launches before
BE ones; DIRECT_PUSH sends a launch's macro-op to its push buffer; a re-admitted agent that is ready enters service (R219,
R221, R135, R492). -/
def Obligations.Scheduling : Prop :=
  (∀ (s : State) (q id : Nat) (l : Launch), Live s = true → s.glb.frozen = false → oldestIn s q .sched = some (id, l) →
      oldestIn s q .held = none → oldestIn s q .booked = none →
      (dOpcode l.desc = 3 → exec (.schedulerArrival q) s = .next (settle (leave s id stOk 0))) ∧
      (dOpcode l.desc = 1 → (arrivalCharge s l).isSome = true → ∀ t, t = (unitOf s (id, l)).foldl setCharge s →
        exec (.schedulerArrival q) s = .next (settle (checkUnit t
          (((unitOf s (id, l)).map (·.1)).filterMap fun i => (kget t.launches i).map fun x => (i, x)) true))) ∧
      (dOpcode l.desc ≠ 3 → arrivalCharge s l = none →
        exec (.schedulerArrival q) s = .next (settle (failAt s id stIllegalState eTargetAbsent)))) ∧
  (∀ (s : State) (id : Nat) (l : Launch) (rest : List (Nat × Launch)), drainHeld s (unitVec ((id, l) :: rest)) = false →
      (tooLong s l.part l.be (unitVec ((id, l) :: rest)) = true →
        checkUnit s ((id, l) :: rest) true = failLong s id l.part) ∧
      (tooLong s l.part l.be (unitVec ((id, l) :: rest)) = false → fitsCur s l.part l.be (unitVec ((id, l) :: rest)) = true →
        checkUnit s ((id, l) :: rest) true = admitUnit s ((id, l) :: rest) l.part l.be (unitVec ((id, l) :: rest))) ∧
      (tooLong s l.part l.be (unitVec ((id, l) :: rest)) = false → fitsCur s l.part l.be (unitVec ((id, l) :: rest)) = false →
        l.be = false → fitsNext s l.part (unitVec ((id, l) :: rest)) = true →
        checkUnit s ((id, l) :: rest) true = countDeferred (parkUnit
          (modSched s fun c => { c with bookNext := bookVec c.bookNext l.part (unitVec ((id, l) :: rest)) })
          ((id, l) :: rest) .booked) l.part (rest.length + 1)) ∧
      (tooLong s l.part l.be (unitVec ((id, l) :: rest)) = false → fitsCur s l.part l.be (unitVec ((id, l) :: rest)) = false →
        (l.be = true ∨ fitsNext s l.part (unitVec ((id, l) :: rest)) = false) →
        checkUnit s ((id, l) :: rest) true = countDeferred (parkUnit s ((id, l) :: rest) .held) l.part (rest.length + 1))) ∧
  ((∀ (s : State) (eq : Nat), Live s = true → s.glb.frozen = false →
      exec (.heldLaunchRecheck eq) s = .next (settle (recheck (recheck s false false fun v => (vecQueues v).contains eq) true false
        fun v => (vecQueues v).contains eq))) ∧
    (∀ (s : State) (id : Nat) (l : Launch), Live s = true → s.glb.frozen = false → kget s.launches id = some l →
      l.stage = .running → dOpcode l.desc = 1 → l.aborting = false → l.outs = [] → l.head = 0 →
      (∀ p ∈ s.pushes, p.launch ≠ id) →
      exec (.directPush id) s = .next (settle (pumpPushes (queuePush s
        { eq := dTarget l.desc, launch := id, mop := directMop l, be := l.be })))) ∧
    (∀ (s u : State) (a : Nat), Live s = true → a < 64 → s.svc.readmitReady.contains a = true →
      u = readmitReply (audit (modSvc (setMeas (agtMark s a true false 0) a (((kget s.glb.bring a).map (·.mhz)).getD 0)) fun v =>
        { v with dieLevel := tput 0 v.dieLevel a 0 }) 9 Config.fnNone 0x0A 4 a 0) a stOk 0 →
      exec (.readmitEnterService a) s = .next (settle (if u.glb.frozen then u
          else recheck (recheck u false true fun _ => true) true true fun _ => true)) ∧
        (kget s.svc.readmit a = none → agtUp u a = true ∧ agtExcluded u a = false)))

/-- SLUICE_TICK: the tick counter rises by one and the phase restarts at 0; the PERIOD written since is in force, one written
late with the tick after; every agent in service is sent the tick; the figures of the period close and its energy is shared
out; the bookings of the next period become those of the period; booked work is sent, paused work is booked again, unused
charges are carried forward, the held launches are looked at, LC work is preferred, and last the values staged take effect, in
this order (R209–R211, R234–R237). -/
def Obligations.SluiceTick : Prop :=
  ∀ (s t u : State) (energy : List (Nat × Nat)), s.glb.scanLost = false → s.glb.blk = .ready →
    t = (upTo 64).foldl closeFigs ((upTo s.par.numAgents).foldl
      (fun s' a => if agtUp s' a then sendDown s' a (.tick (s.sched.tickNo + 1) (nextPeriod s)) else s')
      (modSched s fun c => { c with
        tickNo := s.sched.tickNo + 1, elapsed := 0, period := nextPeriod s, periodNext := c.periodLate, periodLate := none })) →
    u = modSched (energy.foldl (fun s (x : Nat × Nat) => energyStep s x.1 x.2) t) (fun c =>
      { c with nsPart := [], nsQueue := [], bookCur := c.bookNext, bookNext := [] }) →
    exec (.sluiceTick energy) s = .next (settle (takeStaged (if u.glb.frozen then u
        else tickPreempt (recheck (recheck (carryForward (rebook (sendBooked u))) false true fun _ => true) true true
          fun _ => true)))) ∧
      u.sched.tickNo = s.sched.tickNo + 1 ∧ u.sched.elapsed = 0 ∧
      (s.svc.mc.state = 0 → u.sched.period = s.sched.periodNext.getD s.sched.period) ∧ u.sched.periodNext = s.sched.periodLate ∧
      u.sched.bookCur = s.sched.bookNext ∧ u.sched.bookNext = [] ∧
      (takeStaged u).sched.cslice = s.sched.csliceNext.getD s.sched.cslice ∧ (takeStaged u).sched.csliceNext = none ∧
      (takeStaged u).svc.mode = s.svc.modeNext.getD s.svc.mode ∧ (takeStaged u).svc.modeNext = none

/-- A grant: with the slices passed on, every sixteenth goes to BE where one may be served, the others to LC; it counts, the
holder of the partition served next has one credit less, a new round of credits beginning where none is left, and the next
slots of its queue are fetched as launches, as many as the least of the four limits allows (R114–R116, R150). A timeslice that
ends passes the slice to the next eligible queue of the partition and class (R115). A descriptor without a fragment table stands
in the Inlet when it arrives, as it was read; one with a table looks its handle up and waits for the read, which goes out when
the entries it needs are free; a table that arrives gives back the entries it leaves; one that is not sound fails its launch, as
does a read that meets a fault, which halts the queue (R45, R108, R116, R119, R122, R125). -/
def Obligations.InletFetch : Prop :=
  (∀ (s t u : State) (p q n : Nat) (be : Bool), Live s = true → t = passSlices s → t.glb.frozen = false →
      (holders t false ≠ [] ∨ holders t true ≠ []) →
      be = ((t.inlet.grants % 16 == 15 && !(holders t true).isEmpty) || (holders t false).isEmpty) →
      u = (if (holders t be).any (fun h => decide (0 < tget 0 t.inlet.credit (h.1 * 2 + b2n be))) then t else newRound t be) →
      (holders t be).find? (fun h => decide (0 < tget 0 u.inlet.credit (h.1 * 2 + b2n be))) = some (p, q) →
      n = min (min (getQueue s q).burst (unissued (getQueue s q)))
        (min (2 ^ (getQueue s q).log2 - ((getQueue s q).head + (getQueue s q).issued) % 2 ^ (getQueue s q).log2) (inletRoom s q)) →
      exec .fetchGrant s = .next (settle (burst { u with inlet := { u.inlet with
        grants := u.inlet.grants + 1
        credit := tput 0 u.inlet.credit (p * 2 + b2n be) (tget 0 u.inlet.credit (p * 2 + b2n be) - 1)
        lastLc := if be then u.inlet.lastLc else p, lastBe := if be then p else u.inlet.lastBe } } q)) ∧
      ∀ i, getQueue (burst { u with inlet := i } q) q = { getQueue s q with
        issued := (getQueue s q).issued + n, broken := if n = 0 then (getQueue s q).broken else 0 }) ∧
  (∀ (s : State) (p h q : Nat) (be : Bool), Live s = true → tget 0 s.inlet.holder (p * 2 + b2n be) = h + 1 →
      nextAfter (without (eligibleOf s p be) h) h = some q →
      exec (.timesliceExpiry p be) s = .next (settle { s with inlet := { s.inlet with
        holder := tput 0 s.inlet.holder (p * 2 + b2n be) (q + 1) } })) ∧
  (∀ (s : State) (id : Nat) (l : Launch) (desc : W512), Live s = true → kget s.launches id = some l →
      (∀ u, l.stage = .fetch → u = ringDone (setLaunch s id { l with desc := desc, descIn := true, stage := .fragWait }) l.queue →
        (l.aborting = true → exec (.descriptorArrival id desc) s = .next (settle (leave (arriveSlot u l.queue l.pos) id stAborted 0))) ∧
        (l.aborting = false → dFrag desc = 0 ∨ bufHandleOk (dFrag desc) = false ∨ hInTable u l.part (hIndex (dFrag desc)) = false →
          exec (.descriptorArrival id desc) s = .next (settle (arrived u id))) ∧
        (l.aborting = false → dFrag desc ≠ 0 → bufHandleOk (dFrag desc) = true → hInTable u l.part (hIndex (dFrag desc)) = true →
          exec (.descriptorArrival id desc) s = .next (settle (fragTry (lookupFor u id (hIndex (dFrag desc))) id))) ∧
        (l.broken = 0 → arrived u id = arriveSlot (setLaunch u id
          { l with desc := desc, descIn := true, stage := .inlet }) l.queue l.pos)) ∧
      (∀ e, l.stage = .fragWait → l.relWant = [] → fragEntry l = some e → s.glb.frozen = false →
        min (hLen64 e) 17 ≤ inletRoom s l.queue →
        ∀ t, t = mgrRead (setLaunch s id
            { l with stage := .fragRead, entries := 1 + min (hLen64 e) 17, fragLen := min (hLen64 e) 17 }) l.part (hAddr e)
            (64 * min (hLen64 e) 17) (.fragTable id) →
          exec (.fragmentTableRead id) s = .next (settle { t with inlet := { t.inlet with
            reserveWait := without (s.inlet.reserveWait.filter fun k =>
              (kget s.launches k).any fun x => decide (x.stage = .fragWait)) id } })) ∧
      (∀ frags got kept l' u, l.stage = .fragRead → got = (frags ++ List.replicate 17 0).take l.fragLen →
        kept = (if fhCount (got.headD 0) ≤ 16 then got.take (1 + fhCount (got.headD 0)) else got) →
        l' = { l with
          frags := kept, fragIn := true, fragCount := fhCount (got.headD 0)
          fragShort := decide (fhCount (got.headD 0) ≤ 16) && decide (l.fragLen < 1 + fhCount (got.headD 0))
          entries := if l.reserved then 1 else 1 + kept.length } →
        u = readDone (setLaunch s id l') (.fragTable id) →
        (l.aborting = true →
          exec (.fragmentTableArrival id frags) s = .next (settle (leave (arriveSlot u l.queue l.pos) id stAborted 0))) ∧
        (l.aborting = false → l.broken ≠ 0 ∨ fragBad l' = false →
          exec (.fragmentTableArrival id frags) s = .next (settle (arrived u id))) ∧
        (l.aborting = false → l.broken = 0 → fragBad l' = true → descBad l.desc = false →
          exec (.fragmentTableArrival id frags) s = .next (settle
            (failIn (raise u eFragInvalid (some l.part) none) id stBadParam eFragInvalid)))) ∧
      (∀ addr u, l.stage = .fetch ∨ l.stage = .fragRead → l.aborting = false →
        u = haltQueue (raiseOn s eHostReadFault (some l.part) none [(.queue, l.queue), (.addr, addr)]) l.queue 2 →
        exec (.hostReadFault id false addr) s = .next (settle (failIn
          (ringDone (readDone (setLaunch u id { l with stage := .fragWait }) (.fragTable id)) l.queue) id stAborted eHostReadFault)) ∧
        ((getQueue s l.queue).st = .enabled → (getQueue u l.queue).st = .halted ∧ (getQueue u l.queue).haltCause = 2)))

/-- A complete run of announced descriptors leaves the Inlet together, with the class of the queue or of any member; a run cut
short whose time has passed completes with ST_TIMEOUT (R117, R139, R140). The relocation unit takes up the oldest launch of the
queue; a constant buffer that has been read is kept with the launch; a fill that nothing waits for enters the cache (R138,
R144, R145, R147). -/
def Obligations.InletToWeir : Prop :=
  ((∀ (s t : State) (q : Nat) (x : Nat × Launch) (run : List (Nat × Launch)), Live s = true →
      chainRun s 16 (inletOf s q) = (x :: run, true) →
      t = (x :: run).foldl (fun s' y => modLaunch s' y.1 fun l => { l with
        stage := .reloc, be := (getQueue s q).be || (x :: run).any (fun z => dClass z.2.desc)
        head := if dChain x.2.desc then x.1 else 0, chainNo := ((x :: run).takeWhile (fun z => z.1 != y.1)).length }) s →
      exec (.chainLeavesInlet q) s = .next (settle t) ∧ (∀ i, (kget t.launches i).isSome = (kget s.launches i).isSome) ∧
      t.queues = s.queues ∧ run.length < 16) ∧
    (∀ (s : State) (q : Nat) (run : List (Nat × Launch)), Live s = true → run ≠ [] →
      run = inletOf s q → (∀ x ∈ run, x.2.descIn = true ∧ dChain x.2.desc = true) → (chainRun s 16 run).2 = false →
      unissued (getQueue s q) = 0 →
      exec (.chainAnnounceTimeout q) s = .next (settle (run.foldl (fun s x => leaveOne
        (raise (arriveSlot s q x.2.pos) eChainBroken (some x.2.part) none) x.1 stTimeout eChainBroken) s)))) ∧
  ((∀ (s : State) (q : Nat) (x : Nat × Launch), Live s = true → oldestIn s q .reloc = some x →
      exec (.relocation q) s = .next (settle (relocPass ((unitOf s x).foldl (fun s y => relocGo 5 y.1 s) s) q))) ∧
    (∀ (s : State) (id : Nat) (l : Launch) (data : BitVec 2048), Live s = true → kget s.launches id = some l →
      l.cbWait = true → l.stage = .reloc →
      exec (.constBufferReadDone id true data) s = .next (settle (relocQueue (setLaunch (readDone s (.constBuf id)) id
        { l with cbWait := false, cbData := BitVec.ofNat 2048 (fld data 0 (64 * dCbLen l.desc)) }) l.queue)) ∧
      exec (.constBufferReadDone id false data) s = .next (settle
        (relocPass (failAt (readDone s (.constBuf id)) id stAborted eHostReadFault) l.queue))) ∧
    (∀ (s t u : State) (p i : Nat) (ok : Bool) (e : BitVec 128) (f : Fill), Live s = true →
      s.hcache.filling.find? (fun f => f.key == p * 2 ^ 20 + i) = some f →
      t = readDone { s with hcache := { s.hcache with filling := s.hcache.filling.erase f } } (.handle f.no) →
      u = (if ok = true ∧ f.stale = false then cacheFill t p i e else t) →
      exec (.handleCacheFill p i ok e) s = .next (settle (pumpPushes
        (fillCores (fillPushes (fillLaunches u f.no i ok e) f.no ok e) f.no p i ok e))) ∧
      (ok = true → f.stale = false → u.hcache.lines.getLast? = some (p * 2 ^ 20 + i, e)) ∧
      (ok = false ∨ f.stale = true → u.hcache.lines = s.hcache.lines) ∧
      ((∀ x ∈ s.launches, ∀ w ∈ x.2.relWant, w.2 ≠ f.no) → (∀ x ∈ s.pushes, x.want ≠ f.no + 1) →
        (∀ x ∈ s.ctxs, ∀ d, x.2.stall ≠ some (.hrel d f.no)) →
        fillCores (fillPushes (fillLaunches u f.no i ok e) f.no ok e) f.no p i ok e = u)))

/-- The oldest launch of a queue at the Weir is armed once the room for its entries is there: without wait entries it goes to
the scheduler at once; otherwise its entries are armed in their order, evaluated and checked for a cycle (R165, R167, R169,
R174, R177). Timeouts: an unmet entry whose flag's owner is not pre-empted fails the launch with ST_TIMEOUT and E_WAIT_TIMEOUT; a
remote wait is cancelled at its chip first (R166, R167, R173, R181). -/
def Obligations.WaitArming : Prop :=
  (∀ (s : State) (q id : Nat) (l : Launch), Live s = true → s.glb.frozen = false → oldestIn s q .weirIn = some (id, l) →
      oldestIn s q .weir = none → (l.head = 0 ∨ l.head = id) → canArm s l l.waits = true →
      (l.waits = [] → exec (.waitArm q) s = .next (settle (releaseChain (setLaunch s id { l with stage := .sched }) id))) ∧
      (l.waits ≠ [] → exec (.waitArm q) s = .next (settle (cycleCheck (evalDeps (l.waits.foldl (fun s e => armEntry s id e)
        (notePeak (setLaunch s id { l with
          stage := .weir, waits := l.waits.map (fun e => if e.dep then { e with below := depBelow s e.crest } else e) }))))
        l.queue false)))) ∧
  (∀ (s : State) (id entry : Nat) (l : Launch) (e : WaitE), Live s = true → kget s.launches id = some l →
      openEntry l (entry % 16) (entry / 16) = some e →
      (e.dep = true ∨ e.handle / 2 ^ 30 ≠ 3 → e.dep = true ∨ ownerPreempted s l.part e.handle = false →
        exec (.waitTimeout id entry) s = .next (settle (waitFail s id e eWaitTimeout stTimeout (flagAddr s l.part e.handle
          (tget {} s.weir.mem (memKey l.part e.handle)).addr)))) ∧
      (∀ hit t, e.dep = false → e.handle / 2 ^ 30 = 3 →
        hit = s.xing.waits.filter (fun x => x.2.launch == id && x.2.entry == e.entry && x.2.node == e.node) →
        t = hit.foldl (fun s' x => xcSend s' x.2.chip (3 + put s'.xing.chip 4 + put x.2.chip 10 + put l.part 16 + put x.1 46)) s →
        exec (.remoteWaitTimeout id entry) s = .next (settle (waitFail
          (modXing t fun x => { x with waits := x.waits.filter (fun y => !hit.any (fun z => z.1 == y.1)) }) id e eWaitTimeout
          stTimeout (flagAddr (modXing t fun x => { x with waits := x.waits.filter (fun y => !hit.any (fun z => z.1 == y.1)) })
            l.part e.handle 0))) ∧
        (hit = [] → t = s)))

/-- The next queued operation in the source order of R160 leaves the queue and is applied to its flag (R159–R161). What an
operation leaves in a flag: ADD and SUB stay within 0 and 2^62 − 1 and note it in SAT, SET writes the value and clears SAT and
POISON, MAX keeps the greater; ADD, SUB and MAX keep POISON (R155, R159). -/
def Obligations.SignalApply : Prop :=
  (∀ (s : State) (g : Sig), Live s = true → s.glb.frozen = false → nextSig (s.weir.sigq.filter (sigReady s)) = some g →
      ∀ t, t = startSignal (modWeir s fun w => { w with sigq := eraseSig w.sigq g }) g →
        exec .signalApply s = .next (settle (if g.src = 100 then cycleCheck t (g.launch % 4096) true else t))) ∧
  (∀ (w : W64) (x : Nat), x < 2 ^ 62 →
      (fld (sigResult w 0 x).1 0 62 = min (fld w 0 62 + x) (2 ^ 62 - 1) ∧ bitOf (sigResult w 0 x).1 63 = bitOf w 63 ∧
        bitOf (sigResult w 0 x).1 62 = (bitOf w 62 || decide (2 ^ 62 ≤ fld w 0 62 + x))) ∧
      (fld (sigResult w 1 x).1 0 62 = fld w 0 62 - x ∧ bitOf (sigResult w 1 x).1 63 = bitOf w 63 ∧
        bitOf (sigResult w 1 x).1 62 = (bitOf w 62 || decide (fld w 0 62 < x))) ∧
      (fld (sigResult w 2 x).1 0 62 = x ∧ bitOf (sigResult w 2 x).1 62 = false ∧ bitOf (sigResult w 2 x).1 63 = false) ∧
      (fld (sigResult w 3 x).1 0 62 = max (fld w 0 62) x ∧ bitOf (sigResult w 3 x).1 63 = bitOf w 63))

/-- Memory flags: the word that was read stands in the cache and its waiters are looked at; the response to a write-through
takes the operation off and lets the next one begin (R157, R161). Flag messages: a FLAG_SIGNAL of an agent joins the queued
operations, in the name of its launch's partition and of the task that sent it; a FLAG_UPDATE for a flag that the agent's mirror
names stands there and is looked at (R22, R170, R172). -/
def Obligations.MemoryFlags : Prop :=
  (∀ (s t : State) (p h : Nat) (m : MemFlag) (word : W64), Live s = true → kget s.weir.mem (memKey p h) = some m →
      t = readDone s (.flag (memKey p h)) →
      (m.reading = true → exec (.memoryFlagReadDone p h true word) s = .next (settle (memRelease (pumpMem (evalFlag
        (modWeir t fun x => { x with mem := kput x.mem (memKey p h) { m with reading := false, word := some word } }) p h word)
        (memKey p h)) (memKey p h)))) ∧
      (m.reading = false → exec (.memoryFlagReadDone p h true word) s = .next (settle t)) ∧
      exec (.memoryFlagWriteDone p h true) s = .next (settle (memWritten s (memKey p h) true)) ∧
      (m.writing = true → s.port.writes = [] →
        ∀ u, u = evalFlag (modWeir s fun x => { x with
            mem := kput x.mem (memKey p h) { m with writing := false, sigs := m.sigs.drop 1 } })
            (memKey p h / 2 ^ 32) (memKey p h % 2 ^ 32) (m.word.getD 0) →
          (m.sigs = [] → memWritten s (memKey p h) true = memRelease (pumpMem u (memKey p h)) (memKey p h)) ∧
          (∀ g rest, m.sigs = g :: rest → g.src ≠ 100 → memWritten s (memKey p h) true =
            memRelease (pumpMem (sigDone u g) (memKey p h)) (memKey p h)))) ∧
  ((∀ (s : State) (a h op x launch : Nat), Live s = true → upHead s a = some (.flagSignal h op x launch) → op < 5 →
      signalHeld s a launch h = false →
      exec (.flagSignal a) s = .next (settle (queueSigs (modLink (takeUp s a) a fun k => { k with sigBy := k.sigBy.tail })
        [{ src := 300 + a, part := launchPart s launch, handle := h, op := op, x := x, launch := launch,
           task := ((getLink s a).sigBy.headD none).map (fun k => (a, k)) }]))) ∧
    (∀ (s : State) (a h : Nat) (w : W64), AgLive s a = true → downHead s a = some (.flagUpdate h w) →
      ((getAgent s a).mirror.any (fun m => m.1 == h) = true →
        exec (.flagUpdate a) s = .next (settle (agentEval (modAgent (takeDown s a) a fun g =>
          { g with mirror := kput g.mirror h { tget {} g.mirror h with word := some w } }) a h w))) ∧
      ((getAgent s a).mirror.any (fun m => m.1 == h) = false →
        exec (.flagUpdate a) s = .next (settle (takeDown s a)))))

/-- Nodes (R192, R197, R201): a node that may start first has the lines of its record and body in the code cache; then a ready
JOIN completes, a ready CODE node sets the context's PC to its code and waits for a core, a ready MOP node is pushed, a WAIT node
arms its entry, a SIGNAL node's operation is queued. A node whose work is done completes, and its successors may start; a launch
whose context is wanted is given the lowest free save slot, slices of a core that has them free or can free them, its argument
area, and its nodes, those without predecessors ready (R191, R197, R252, R270). -/
def Obligations.GraphNodes : Prop :=
  (∀ (s t : State) (id node : Nat) (l : Launch) (g : GNode), Live s = true → s.glb.frozen = false → kget s.launches id = some l →
      nodeOf s l node = some g → l.stage = .running → l.aborting = false → l.failed = false → canStart s l node g = true →
      (upTo node).all (fun i => (nodeOf s l i).all (fun h => !canStart s l i h)) = true →
      ((startLines s l node).all s.ccache.contains = false → exec (.nodeStart id node) s = .next (settle
        (((startLines s l node).filter (fun k => !s.ccache.contains k)).foldl lineWant s))) ∧
      ((startLines s l node).all s.ccache.contains = true → t = (startLines s l node).foldl lineUsed s →
        (g.kind = 5 → exec (.nodeStart id node) s = .next (settle (graphSettle (completeNode (l.nodes.length + 1) t id node) id))) ∧
        (g.kind = 2 → exec (.nodeStart id node) s = .next (settle (pumpPushes (pushNode (l.nodes.length + 1) t id node none)))) ∧
        (∀ k, g.kind = 1 → l.slot = some k → exec (.nodeStart id node) s = .next (settle (modCtx
          (modNode t id node fun x => { x with st := .started, ended := false }) 0x300 k fun c => { c with
            node := node, pc := (0x80000000 + g.bodyOff) % 2 ^ 32, s := tput 0 [] 1 (BitVec.ofNat 64 node), p := [], g := [], v := []
            t := [], tfmt := 0, pend := 0, pushBad := false, lastPush := none, lastBad := false, stall := none, ready := true }))) ∧
        (g.kind = 3 → wHandle g.body.toNat = 0 → exec (.nodeStart id node) s = .next (settle
          (modNode t id node fun x => { x with st := .started, ended := true }))) ∧
        (g.kind = 3 → wHandle g.body.toNat ≠ 0 → exec (.nodeStart id node) s = .next (settle (armEntry (notePeak
          (modLaunch (modNode t id node fun x => { x with st := .started, ended := false }) id fun k =>
            { k with waits := k.waits ++ [nodeWait t l node g] })) id (nodeWait t l node g)))) ∧
        (∀ h u, g.kind = 4 → h = sHandle g.body.toNat →
          u = modNode t id node (fun x => { x with st := .started, ended := decide (h = 0) }) →
          (h = 0 → exec (.nodeStart id node) s = .next (settle u)) ∧
          (h ≠ 0 → h / 2 ^ 30 = 3 → sOp g.body.toNat = 2 → exec (.nodeStart id node) s = .next (settle (modXing u fun x => { x with
            sets := x.sets ++ [{
              part := l.part, chip := nbits h 24 6, index := h % 65536, value := sValue g.body.toNat, poison := false
              launch := id, node := node + 1 }] }))) ∧
          (h ≠ 0 → h / 2 ^ 30 ≠ 3 ∨ sOp g.body.toNat ≠ 2 → exec (.nodeStart id node) s = .next (settle (queueSigs u [{
            src := 100, part := l.part, handle := h, op := sOp g.body.toNat, x := sValue g.body.toNat, launch := id
            node := node + 1, addr := memFlagAddr u l.part h (some l) true }])))))) ∧
  ((∀ (s : State) (id node : Nat) (l : Launch) (g : GNode), Live s = true → kget s.launches id = some l →
      nodeOf s l node = some g → isDone l = false → l.aborting = false → workDone s l node g = true →
      exec (.nodeComplete id node) s = .next (settle (graphSettle (completeNode (l.nodes.length + 1) s id node) id))) ∧
    (∀ (s t u v : State) (id k core : Nat) (l : Launch) (g : Generation) (ids roots : List Nat) (c : Ctx), Live s = true →
      s.glb.frozen = false → kget s.launches id = some l → l.stage = .running → l.ctxWanted = true → l.aborting = false →
      genOf s l = some g → freeSlot s = some k →
      (((upTo 7).map (fun n => 0x300 + n)).find? (fun c => decide (g.slices ≤ (freeSlicesOf s c).length))).orElse
        (fun _ => ((upTo 7).map (fun n => 0x300 + n)).find? (fun c => canSlices s c k g.slices)) = some core →
      t = makeRoom (takeSlot s k) core k g.slices → ids = (freeSlicesOf t core).take g.slices →
      c = { launch := id, part := l.part, be := l.be, core := core, nslices := g.slices, slices := ids, gen := l.gen, tick := l.admTick } →
      u = takeSlices t core k ids →
      v = setLaunch (layOut { u with ctxs := kput u.ctxs k c } core c (argArea l)) id { l with
        ctxWanted := false, slot := some k
        nodes := g.nodes.map (fun n => { left := n.npred, st := if n.npred = 0 then .ready else .blocked }) } →
      roots = (upTo g.nodes.length).filter (fun i => (g.nodes[i]?).any (fun n => n.kind == 5 && n.npred == 0)) →
      exec (.graphContextStart id) s = .next (settle (graphSettle (roots.foldl (fun s i => completeNode (g.nodes.length + 1) s id i)
        ((nodeLookups v l).foldl (fun s i => lookupFor s id i) v)) id)) ∧
      kget v.ctxs k = some c ∧ c.st = .held ∧ (∀ i ∈ ids, tget 0 (getCore t core).owner i = 0)))

/-- A command read from the ring stands among the commands read, SQHEAD moves on, and the next slot is read; the executor starts
the manager's first; a reply's response raises the queue's vector when the command asked for it (R86, R87, R99, R101). A reply
is one 16-byte write at CQ_BASE + CQTAIL × 16 with the command's tag, STATUS, the object's state, OBJECT, DETAIL, SQ_HEAD and
PHASE; the command leaves flight, CQTAIL moves on, PHASE turns when the ring wraps (R87, R89). -/
def Obligations.AdminQueue : Prop :=
  ((∀ (s : State) (q : Nat) (pkt : W512), Live s = true → isReady s = true → admExists s q = true → (getAdm s q).enable = true →
      (getAdm s q).sqHead ≠ (getAdm s q).sqTail →
      (∀ t, t = modAdm (readDone s (.command q)) q (fun a =>
          { a with read := a.read ++ [pkt], sqHead := (a.sqHead + 1) % 2 ^ a.log2 }) →
        exec (.adminCommandRead q true pkt) s = .next (settle (admFetch t q)) ∧
        (admFetch t q).adms = t.adms ∧ getAdm t q =
          { getAdm s q with read := (getAdm s q).read ++ [pkt], sqHead := ((getAdm s q).sqHead + 1) % 2 ^ (getAdm s q).log2 }) ∧
      exec (.adminCommandRead q false pkt) s = .next (settle (raiseOn (modAdm (readDone s (.command q)) q fun a =>
        { admUnread a with stat := setBit a.stat 0 }) eHostReadFault (if q < 64 then some q else none) none
        [(.issuer, q), (.addr, admSlot (getAdm s q))]))) ∧
    (∀ (s : State) (q : Nat) (pkt : W512) (rest : List W512) (image : List Byte), Live s = true → isReady s = true →
      (admNext s = some q → (getAdm s q).read = pkt :: rest →
        exec (.adminCommandStart image) s = .next (settle (admPerform (Flown s q pkt) q pkt image))) ∧
      (admMayStart s 0x40 = true → admNext s = some 0x40)) ∧
    (∀ (s : State) (q : Nat) (w : Wr), Live s = true → s.port.writes.find? (fun w => match w.kind with
        | .reply k _ => k == q
        | _ => false) = some w → w.kind = .reply q true →
      exec (.adminReplyWriteResponse q true) s = .next (settle (reqVec (vecsRelease (mgrDone s w.txn) w.txn) (admVector q))))) ∧
  (∀ (s : State) (q : Nat) (pkt : W512) (status state detail : Nat),
      getAdm (admReply s q pkt status state detail) q = { getAdm s q with
        cqTail := ((getAdm s q).cqTail + 1) % 2 ^ (getAdm s q).log2
        phase := if (getAdm s q).cqTail + 1 = 2 ^ (getAdm s q).log2 then !(getAdm s q).phase else (getAdm s q).phase
        owed := (getAdm s q).owed + 1, flight := (getAdm s q).flight.eraseP (fun c => c.pkt == pkt) } ∧
      ∃ w, (admReply s q pkt status state detail).port.writes = s.port.writes ++ [w] ∧
        w.addr = ((getAdm s q).cqBase.toNat + (getAdm s q).cqTail * 16) % 2 ^ 64 ∧ w.len = 16 ∧ w.kind = .reply q (bitOf pkt 8) ∧
        nbits w.data 0 16 = pktTag pkt ∧ nbits w.data 16 8 = status % 256 ∧ nbits w.data 24 8 = state % 256 ∧
        nbits w.data 32 32 = pktObj pkt ∧ nbits w.data 64 48 = detail % 2 ^ 48)

/-- NOP and QUERY are answered with ST_OK and change nothing else (R92, R95). Host queues (R103): Q_CREATE takes an UNUSED one
to CREATED with the fields of its packet, Q_ENABLE to ENABLED, Q_DISABLE with nothing outstanding to IDLE and otherwise to
DRAINING, Q_DESTROY from IDLE to UNUSED, Q_RESET to RESETTING; Q_MODIFY replaces the scheduling fields. -/
def Obligations.AdminQueues : Prop :=
  (∀ (s : State) (q : Nat) (pkt : W512),
      (AdmTurn s 0 q pkt = true → badField pkt [] [] = none →
        exec (.nop q pkt) s = .next (settle (admReply (Flown s q pkt) q pkt stOk 0xFF 0))) ∧
      (AdmTurn s 1 q pkt = true → pktB pkt 8 1 ≤ 3 → flagFar pkt = false → outsideShare s q pkt = false → objBad pkt = false →
        badField pkt [(64, 8)] [] = none →
        exec (.query q pkt) s = .next (settle (admReply (Flown s q pkt) q pkt stOk (objState (Flown s q pkt) q pkt)
          (queryDetail (Flown s q pkt) q pkt))))) ∧
  (∀ (s : State) (q : Nat) (pkt : W512) (k owner : Nat), k = pktObj pkt → owner = fld pkt 144 6 →
      (∀ bad, AdmTakes s 0x20 0x40 pkt = true → (getQueue s k).st = .unused →
        (partQueues s owner).length < (getPart s owner).queueLimit →
        bad = [(decide (4096 ≤ k), 4), (decide (pktB pkt 8 8 % 64 ≠ 0), 8),
          (decide (pktB pkt 16 1 < 4) || decide (16 < pktB pkt 16 1), 16), (decide ((getPart s owner).st = .free), 18)] →
        badField pkt queueFields (bad ++ queueRanges pkt) = none →
        ∀ u x, u = { Flown s 0x40 pkt with queues := tput {} s.queues k x } → x = setSched pkt {
            st := .created, owner := owner, ringBase := BitVec.ofNat 64 (pktB pkt 8 8), log2 := pktB pkt 16 1
            ringLoc := bitOf pkt 138, moved := (getQueue s k).moved } →
          exec (.qCreate 0x40 pkt) s = .next (settle (admOk u 0x40 pkt 0x01 0)) ∧ getQueue u k = x ∧ x.be = bitOf pkt 136 ∧
          x.weight = pktB pkt 19 1 ∧ x.burst = pktB pkt 20 2 ∧ x.timeslice = pktB pkt 22 2) ∧
      (AdmPlain s 0x21 q pkt = true → (getQueue s k).st = .created ∨ (getQueue s k).st = .idle →
        exec (.qEnable q pkt) s = .next (settle (admOk (modQueue (Flown s q pkt) k fun x => { x with st := .enabled }) q pkt 0x02 0))) ∧
      (AdmPlain s 0x22 q pkt = true → (getQueue s k).st = .enabled →
        (outstanding s k = 0 → exec (.qDisable q pkt) s = .next (settle (admOk (enterIdle (Flown s q pkt) k) q pkt 0x04 0))) ∧
        (outstanding s k ≠ 0 → exec (.qDisable q pkt) s =
          .next (settle (admOk (modQueue (Flown s q pkt) k fun x => { x with st := .draining, drainLate := false }) q pkt 0x03 0)))) ∧
      (AdmPlain s 0x23 q pkt = true → (getQueue s k).st = .idle → exec (.qDestroy q pkt) s = .next (settle (admReply
        (admAudit (enterUnused (Flown s q pkt) k) q pkt false stOk 0x00 (unfetched (getQueue s k))) q pkt stOk 0x00 0))) ∧
      (AdmPlain s 0x24 q pkt = true → (getQueue s k).st = .enabled ∨ (getQueue s k).st = .halted →
        exec (.qReset q pkt) s = .next (settle (admOk (enterResetting (Flown s q pkt) k false) q pkt 0x06 0))) ∧
      (AdmTakes s 0x25 q pkt = true → badField pkt queueFields ((objBad pkt, 4) :: queueRanges pkt) = none →
        (getQueue s k).st = .enabled →
        exec (.qModify q pkt) s = .next (settle (admOk (modQueue (Flown s q pkt) k (setSched pkt)) q pkt 0x02 0))))

/-- Partitions (R102): PART_CREATE takes a FREE one to MAINT with the shares of its packet, PART_ACTIVATE from MAINT to ACTIVE,
PART_MAINT from HALTED to MAINT, PART_HALT from ACTIVE to HALTED, PART_DESTROY from MAINT to FREE, PART_RESET to RESETTING. A
RESETTING partition whose queues are UNUSED and whose contexts are FREE becomes FREE, and the resets that wait for it are
answered (R102, R472). -/
def Obligations.AdminPartitions : Prop :=
  (∀ (s : State) (pkt : W512) (p : Nat), p = pktObj pkt →
      (∀ bad, AdmTakes s 0x10 0x40 pkt = true → (getPart s p).st = .free → poolBreach s (partOfPkt pkt) = none →
        badField pkt partFields bad = none → p < 64 →
        bad = [(decide (64 ≤ p), 4), ((liveParts s).any (fun y => y.1 != p && y.2.pasid == (partOfPkt pkt).pasid), 8),
          (decide ((partOfPkt pkt).queueLimit = 0) || decide (4096 < (partOfPkt pkt).queueLimit), 12),
          (decide ((partOfPkt pkt).engineShare = 0), 14), (decide ((partOfPkt pkt).sluiceShare = 0), 15),
          (decide (65536 < (partOfPkt pkt).flagBase + (partOfPkt pkt).flagCount), 20),
          (decide (1024 < (partOfPkt pkt).gctxBase + (partOfPkt pkt).gctxCount), 26),
          (decide (2 ^ 20 < (partOfPkt pkt).htabEntries), 28), (decide ((partOfPkt pkt).htabBase.toNat % 4096 ≠ 0), 32),
          (decide (16384 < (partOfPkt pkt).waitLimit), 40), (decide (4096 < (partOfPkt pkt).basinLimit), 42)] →
        exec (.partCreate 0x40 pkt) s = .next (settle (admOk (createPart (Flown s 0x40 pkt) p (partOfPkt pkt)) 0x40 pkt 0x11 0))
        ∧ getPart (createPart (Flown s 0x40 pkt) p (partOfPkt pkt)) p = partOfPkt pkt ∧ (partOfPkt pkt).st = .maint) ∧
      (AdmPlain s 0x11 0x40 pkt = true → (getPart s p).st = .maint →
        ∀ t u, t = modPart (Flown s 0x40 pkt) p (fun x => { x with st := .active }) →
          u = { t with attn := { t.attn with roots := t.attn.roots.filter (fun r => r.1 / 65536 != p) } } →
          exec (.partActivate 0x40 pkt) s = .next (settle (admOk (pstatSet u p 2) 0x40 pkt 0x12 0)) ∧
          getPart u p = { getPart s p with st := .active } ∧ ∀ r ∈ u.attn.roots, r.1 / 65536 ≠ p) ∧
      (AdmPlain s 0x12 0x40 pkt = true → (getPart s p).st = .halted → exec (.partMaint 0x40 pkt) s =
        .next (settle (admOk (pstatSet (modPart (Flown s 0x40 pkt) p fun x => { x with st := .maint }) p 1) 0x40 pkt 0x11 0))) ∧
      (AdmPlain s 0x13 0x40 pkt = true → (getPart s p).st = .active → exec (.partHalt 0x40 pkt) s =
        .next (settle (admOk (haltPart (Flown s 0x40 pkt) p false 0) 0x40 pkt 0x13 0))) ∧
      (AdmPlain s 0x14 0x40 pkt = true → (getPart s p).st = .maint → partQueues s p = [] → partCtxs s p = [] →
        exec (.partDestroy 0x40 pkt) s = .next (settle (admOk (freePart (Flown s 0x40 pkt) p) 0x40 pkt 0x10 0))) ∧
      (AdmPlain s 0x15 0x40 pkt = true → (getPart s p).st = .active → exec (.partReset 0x40 pkt) s =
        .next (settle (enterPartReset (Flown s 0x40 pkt) p false)))) ∧
  (∀ (s : State) (p : Nat), Live s = true → (getPart s p).st = .resetting →
      partQueues (freeUnpinned s p) p = [] → partCtxs (freeUnpinned s p) p = [] → (getPart (freeUnpinned s p) p).flr = false →
      exec (.partitionReachesFree p) s = .next (settle (replyAll (freePart (freeUnpinned s p) p) 0x15 p 0x10 (getPart (freeUnpinned s p) p).lost)) ∧
      getPart (freePart (freeUnpinned s p) p) p = {})

/-- Graph contexts (R104, R203, R324): G_LOAD and G_PATCH join Iznum's queue, G_LOAD with its context LOADING; G_UNLOAD frees a
resident context that nothing pins. Flags and handles (R105, R144, R146): F_CREATE gives a flag its owner and its value,
F_DESTROY of one that nothing waits on takes the owner away, H_INVAL takes the covered entries out of the handle cache. -/
def Obligations.AdminGraphsAndFlags : Prop :=
  (∀ (s : State) (q p : Nat) (pkt : W512) (c : Nat), c = pktObj pkt →
      (AdmTakes s 0x30 q pkt = true → badField pkt [(64, 64), (128, 32)] [(objBad pkt, 4), (decide (pktB pkt 8 8 % 64 ≠ 0), 8),
        (decide (pktB pkt 16 4 < 64) || decide (2 ^ 24 < pktB pkt 16 4), 16)] = none → gctxOwner s c = some p →
        (getGctx s c).st = 0 → s.save.slots ≠ 0 → (getArena s p).size ≠ 0 →
        ∀ t u, t = modGctx (Flown s q pkt) c (fun g => { g with st := 1, owner := p }) →
          u = { t with iz := { t.iz with queue := t.iz.queue ++ [{ q := q, pkt := pkt, part := p, gctx := c, patch := false }] } } →
          exec (.gLoad q pkt) s = .next (settle u) ∧ getGctx u c = { getGctx s c with st := 1, owner := p } ∧
          u.iz.queue = s.iz.queue ++ [{ q := q, pkt := pkt, part := p, gctx := c, patch := false }]) ∧
      (AdmTakes s 0x31 q pkt = true → badField pkt [(64, 64), (128, 32)] [(objBad pkt, 4), (decide (pktB pkt 8 8 % 64 ≠ 0), 8),
        (decide (pktB pkt 16 4 < 64) || decide (2 ^ 24 < pktB pkt 16 4), 16)] = none → (getGctx s c).owner = p →
        (getGctx s c).st = 2 → (getGctx s c).gens.length < 4 →
        exec (.gPatch q pkt) s = .next (settle { Flown s q pkt with iz := { s.iz with
          queue := s.iz.queue ++ [{ q := q, pkt := pkt, part := p, gctx := c, patch := true }] } })) ∧
      (AdmPlain s 0x32 q pkt = true → (getGctx s c).st = 2 → ctxPins s c = 0 →
        exec (.gUnload q pkt) s = .next (settle (admOk (freeGctx (Flown s q pkt) c) q pkt 0x20 0)))) ∧
  (∀ (s : State) (q : Nat) (pkt : W512),
      (∀ k o, AdmTakes s 0x40 q pkt = true → k = fld pkt 128 12 → o = getQueue s k → o.st ≠ .unused → (64 ≤ q ∨ o.owner = q) →
        pktObj pkt < 2 ^ 30 → flagInRange s o.owner (pktObj pkt) = true →
        badField pkt [(64, 62), (128, 12)] [(objBad pkt, 4)] = none → flagOwner s o.owner (pktObj pkt) = none →
        exec (.fCreate q pkt) s = .next (settle (admOk (setFlagWord (modWeir (Flown s q pkt) fun w =>
          { w with owners := tput 0 w.owners (ownKey o.owner (pktObj pkt)) (k + 1) }) o.owner (pktObj pkt) (fld pkt 64 62)) q pkt 0x31 0))) ∧
      (∀ p, AdmPlain s 0x41 q pkt = true → flagFar pkt = false → p = flagPart (Flown s q pkt) q pkt →
        (flagOwner s p (pktObj pkt)).isSome = true → armedOn s p (pktObj pkt) = 0 →
        exec (.fDestroy q pkt) s = .next (settle (admOk (modWeir (Flown s q pkt) fun w =>
          { w with owners := tput 0 w.owners (ownKey p (pktObj pkt)) 0 }) q pkt 0x30 0))) ∧
      (∀ p, AdmTakes s 0x48 q pkt = true → p = (if q < 64 then q else fld pkt 96 6) →
        badField pkt [(64, 21), (96, 6)] [(objBad pkt, 4), (decide (fld pkt 64 21 = 0) || decide (2 ^ 20 < fld pkt 64 21), 8),
          (if q < 64 then decide (fld pkt 96 6 ≠ 0) else decide ((getPart s (fld pkt 96 6)).st = .free), 12)] = none →
        ∀ hit u, hit = (fun (k : Nat) => k / 2 ^ 20 == p && decide (p * 2 ^ 20 + pktObj pkt ≤ k)
            && decide (k < p * 2 ^ 20 + pktObj pkt + fld pkt 64 21)) →
          u = { Flown s q pkt with hcache := staleFills { s.hcache with lines := s.hcache.lines.filter (fun x => !hit x.1) } hit } →
          exec (.hInval q pkt) s = .next (settle (admOk u q pkt 0xFF 0)) ∧
          (∀ x ∈ u.hcache.lines, hit x.1 = false) ∧ (∀ f ∈ u.hcache.filling, hit f.key = true → f.stale = true)))

/-- Service commands (R277, R486, R490–R492): MODE_STAGE stages its items, MODE_ABORT ends the change it names, AGENT_DRAIN
notes the drain, AGENT_READMIT sends AGENT_RESET and begins bring-up, IMEM_LOAD writes the inactive bank of a Root core, and has
an agent's written by messages. -/
def Obligations.AdminService : Prop :=
  ∀ (s : State) (pkt : W512) (image : List Byte) (a : Nat), a = pktObj pkt →
    (AdmTakes s 0x50 0x40 pkt = true → stageBad (Flown s 0x40 pkt) pkt = none → mcBusy (Flown s 0x40 pkt) = false →
      s.svc.draining = [] → s.svc.mode ≠ 0 →
      ((upTo (pktB pkt 14 1)).map (itemAt pkt)).all (fun i => (itemNames i).all (fun b => agtUp s b)) = true →
      exec (.modeStage 0x40 pkt) s = .next (settle (stageMode (admOk (Flown s 0x40 pkt) 0x40 pkt 0xFF 0) pkt))) ∧
    (AdmTakes s 0x51 0x40 pkt = true → badField pkt [] [] = none → s.svc.mc.state = 1 → s.svc.mc.number = a →
      exec (.modeAbort 0x40 pkt) s = .next (settle (mcAbort (admOk (Flown s 0x40 pkt) 0x40 pkt 0xFF 0) 4 0 0))) ∧
    (AdmTakes s 0x52 0x40 pkt = true → badField pkt [] [(decide (64 ≤ a), 4)] = none → s.svc.mode ≠ 0 → a ≠ 0 → agtUp s a = true →
      kget s.svc.draining a = none → mcBusy (Flown s 0x40 pkt) = false →
      ∀ u, u = modSvc (Flown s 0x40 pkt) (fun v => { v with draining := kput v.draining a { q := 0x40, tag := pktTag pkt } }) →
        exec (.agentDrain 0x40 pkt) s = .next (settle (audit u (admOrigin 0x40) 0x40 0x0A 1 a 0)) ∧
        kget u.svc.draining a = some { q := 0x40, tag := pktTag pkt } ∧ u.port = s.port) ∧
    (AdmTakes s 0x53 0x40 pkt = true → badField pkt [(64, 64), (128, 32)] [(decide (64 ≤ a), 4),
        (decide (pktB pkt 8 8 % 64 ≠ 0), 8), (decide (pktB pkt 16 4 ≠ 0) && (decide (pktB pkt 16 4 < 64)
          || decide (131072 < pktB pkt 16 4) || decide (pktB pkt 16 4 % 64 ≠ 0)), 16)] = none →
      s.svc.mode ≠ 0 → a < s.par.numAgents → agtUp s a = false → kget s.svc.draining a = none → mcBusy (Flown s 0x40 pkt) = false →
      ∀ t u, t = modSvc (sendDown (Flown s 0x40 pkt) a (.agentReset 5)) (fun v => { v with
          readmit := kput v.readmit a { q := 0x40, tag := pktTag pkt }
          readmitImage := if pktB pkt 16 4 = 0 then kdel v.readmitImage a else kput v.readmitImage a (image.take (pktB pkt 16 4)) }) →
        u = modGlb t (fun g => { g with bring := kput g.bring a { step := 1, readmit := true } }) →
        exec (.agentReadmit 0x40 pkt image) s = .next (settle u) ∧
        kget u.svc.readmit a = some { q := 0x40, tag := pktTag pkt } ∧ kget u.glb.bring a = some { step := 1, readmit := true }) ∧
    (AdmTakes s 0x54 0x40 pkt = true → badField pkt [(64, 64), (128, 32)]
        [(decide (¬ ((0x300 ≤ a ∧ a ≤ 0x307) ∨ (0x200 ≤ a ∧ a < 0x240))), 4), (decide (pktB pkt 8 8 % 64 ≠ 0), 8),
          (decide (pktB pkt 16 4 < 64) || decide (131072 < pktB pkt 16 4) || decide (pktB pkt 16 4 % 64 ≠ 0), 16)] = none →
      imgBad image (coreKind a) (pktB pkt 16 4) = none → (getCore s a).staged = false →
      (∀ w u, 0x300 ≤ a → w = imgWords 0 (image.take (pktB pkt 16 4)) → u = modCore (Flown s 0x40 pkt) a (fun k => setInactive k w) →
        exec (.imemLoad 0x40 pkt image) s = .next (settle (admOk u 0x40 pkt 0xFF
          (bankCompat w + put (bankVersion w) 16 + put (b2n (!(getCore s a).bankB)) 32))) ∧
        inactiveBank (getCore u a) = w ∧ activeBank (getCore u a) = activeBank (getCore s a)) ∧
      (a < 0x300 → agtUp s (a - 0x200) = true → exec (.imemLoad 0x40 pkt image) s = .next (settle (imemSend
        (modSvc (Flown s 0x40 pkt) fun v => { v with imem := kput v.imem (a - 0x200) {
          q := 0x40, tag := pktTag pkt, bankB := !(getCore s a).bankB, image := image.take (pktB pkt 16 4) } }) (a - 0x200)))))

/-- The state after reset (R60, R73, R81): por_rst_n asserted, phase 1, GLB_RSTCAUSE with the cold bit, no partition, queue,
launch or interrupt, SCH_PERIOD at 25,000 cycles. -/
def Obligations.ResetState : Prop :=
  State.reset.glb.blk = .reset ∧ State.reset.glb.por = true ∧ State.reset.glb.phase = 1 ∧ State.reset.glb.rstCause = 1 ∧
  (∀ p, (getPart State.reset p).st = .free) ∧ (∀ q, (getQueue State.reset q).st = .unused) ∧
  (∀ h, flagWord State.reset h = 0) ∧ State.reset.launches = [] ∧ State.reset.evt.pending = [] ∧
  State.reset.sched.period = 25000 ∧ State.reset.sched.tickNo = 0 ∧ State.reset.pending = []

/-- por_rst_n and rst_n (R60, R61, R67, R71, R73): the release of por_rst_n starts the cold sequence unless rst_n is low; its
fall resets everything; the fall of rst_n is a warm reset that keeps the fuse word and sets WARM; its rise starts the sequence,
in phase 2 unless no start has begun since power-on. Warm resets from software and FLR (R49, R60, R61): the write of GLB_CTRL and
an FLR of the physical function send AGENT_RESET and put the reset down; a second FLR merges with the one in progress; the reset
is entered with the next step; an FLR of a virtual function whose partition is FREE is answered at once. -/
def Obligations.Resets : Prop :=
  (∀ (s : State),
      (∀ tm t, s.glb.por = true → t = { s with
          glb := { s.glb with por := false, testPin := tm }
          agents := (upTo s.par.numAgents).foldl (fun t a => tput {} t a { getAgent s a with running := !s.glb.rstn }) [] } →
        (s.glb.rstn = false → exec (.porRelease tm) s = .next (startUp t)) ∧
        (s.glb.rstn = true → exec (.porRelease tm) s = .next t) ∧ (startUp t).glb.blk = .starting ∧
        (startUp t).glb.phase = (if s.glb.cold then 1 else 2) ∧ (startUp t).glb.cold = false) ∧
      exec .porRstNAssert s = .next { par := s.par, glb := { rstn := s.glb.rstn, portUp := s.glb.portUp }, pins := s.pins, free := s.free
                                      pending := s.pending } ∧
      (∀ t, s.glb.por = false → t = warmState s 1 false →
        exec .rstNAssert s = .next { t with glb := { t.glb with rstn := true } } ∧ t.glb.blk = .reset ∧ t.glb.fuse = s.glb.fuse ∧
        t.glb.dieId = s.glb.dieId ∧ t.glb.mbist = s.glb.mbist ∧ bitOf t.glb.rstCause 1 = true ∧ t.parts = [] ∧ t.queues = [] ∧
        t.launches = [] ∧ t.weir = {} ∧ t.test = s.test ∧ t.par = s.par) ∧
      (∀ t, s.glb.por = false → s.glb.rstn = true → t = startUp { s with
          glb := { s.glb with rstn := false }
          agents := (upTo s.par.numAgents).foldl (fun t a => tput {} t a { getAgent s a with running := true }) [] } →
        exec .rstNRelease s = .next t ∧ t.glb.rstn = false ∧ t.glb.blk = .starting ∧
        t.glb.phase = (if s.glb.cold then 1 else 2) ∧ t.queues = s.queues)) ∧
  ((∀ (s t : State), Takes s = true → t = warmBegin (wrLog (taken s 0x40 0x00C 1) (wrq 0x40 0x00C 1)) 2 →
      exec (.warmReset 0x40) s = .next (settle (respond t 0)) ∧ t.glb.warmBegun = true ∧ t.glb.warmBit = 2) ∧
    (∀ (s t : State), Live s = true → s.glb.warmBegun = true → t = startUp (warmState s s.glb.warmBit true) →
      exec .warmResetEntry s = .next (settle t) ∧ t.glb.blk = .starting ∧ t.glb.warmBegun = false ∧ t.parts = []) ∧
    (∀ (s t : State), Live s = true →
      t = warmBegin { s with glb := { s.glb with flrDone := s.glb.flrDone ++ [0x40], pfFlr := true } } 3 →
      (s.glb.pfFlr = false → exec (.flrRequest 0x40) s = .next (settle t)) ∧
      (s.glb.pfFlr = true → exec (.flrRequest 0x40) s = .next (settle s)) ∧
      t.glb.warmBegun = true ∧ t.glb.flrDone = s.glb.flrDone ++ [0x40] ∧ (s.glb.warmBegun = false → t.glb.warmBit = 3)) ∧
    (∀ (s : State) (fn : Nat), Live s = true → fn < 64 →
      (isReady s = false ∨ (getPart s fn).st = .free →
        exec (.flrRequest fn) s = .next (settle { s with glb := { s.glb with flrDone := s.glb.flrDone ++ [fn] } })) ∧
      (isReady s = true → (getPart s fn).st = .active → exec (.flrRequest fn) s =
        .next (settle (enterPartReset (modGlb s fun g => { g with flr := insertNat g.flr fn }) fn true)))))

/-- Phases of start-up (R68, R71, R73, R75, R80, R81): a fuse word with its CRC starts CLOCK, one without it ends in FAILED outside
test mode; a Root clock in range starts SRAM, then SENSOR, where the Root's inputs are looked at, then AGENTS with the monitors'
baseline kept; a phase that fails ends in FAILED with its phase and detail; agents not admitted by the deadline are excluded.
READY (R71, R73): phase 15, manager vector 0, tick 0. -/
def Obligations.StartupPhases : Prop :=
  (∀ (s : State), Live s = true → s.glb.blk = .starting →
      (∀ fuse : BitVec 256, s.glb.phase = 1 →
        (fuseGood fuse = true ∨ (s.glb.testPin = true ∧ bitOf fuse 0 = true) →
          exec (.fuseValid fuse) s = .next (settle { s with glb := { s.glb with
            testLatched := s.glb.testPin && bitOf fuse 0, fuse := fuseShadow fuse (fuseGood fuse), fuseSeen := true
            dieId := BitVec.ofNat 64 (fld fuse 8 56), phase := 2 } })) ∧
        (fuseGood fuse = false → s.glb.testPin = false ∨ bitOf fuse 0 = false →
          exec (.fuseValid fuse) s = .next (settle (failPhase s 2))) ∧
        (fuseGood fuse = true ↔ crc32c 28 (fld fuse 0 224) = fld fuse 224 32) ∧
        (fuseShadow fuse true = fuse ∧ fld (fuseShadow fuse false) 64 160 = 0 ∧ fld (fuseShadow fuse false) 0 64 = fld fuse 0 64)) ∧
      (∀ mhz iz lib, s.glb.phase = 2 →
        (100 ≤ mhz → mhz ≤ 2020 → exec (.phaseComplete mhz iz lib) s =
          .next (settle { s with glb := { s.glb with rootMhz := mhz, phase := 3 } })) ∧
        (2020 < mhz → mhz < 4096 → exec (.phaseComplete mhz iz lib) s =
          .next (settle (failPhase { s with glb := { s.glb with rootMhz := mhz } } 3)))) ∧
      (∀ n iz lib, s.glb.phase = 3 → exec (.phaseComplete n iz lib) s = .next (settle
        (sampleStart { s with glb := { s.glb with phase := 4 } } fun i => decide (i < 256)))) ∧
      (∀ (mon : W32) iz lib, s.glb.phase = 4 → exec (.phaseComplete mon.toNat iz lib) s = .next (settle
        (enterAgents { s with glb := { s.glb with monBase := mon } }))) ∧
      (∀ n iz lib u, s.glb.phase = 6 → u = loadFirmware s iz lib →
        (imgBad iz 2 (imgField iz 8 4) = none → exec (.phaseComplete n iz lib) s =
          .next (settle (goReady { u with glb := { u.glb with phase := 7 } }))) ∧
        (∀ o, imgBad iz 2 (imgField iz 8 4) = some o → exec (.phaseComplete n iz lib) s = .next (settle (failPhase s 6))) ∧
        (getCore u 0x307).run = some 512 ∧ (getCore u 0x307).imemA = imgWords 0 iz ∧
        ∀ n, n < 7 → (getCore u (0x300 + n)).imemA = imgWords 0 lib) ∧
      (∀ d, s.glb.phase ≠ 5 → s.glb.phase ≠ 7 →
        exec (.phaseTimeout d) s = .next (settle (failPhase s (failCause s.glb.phase d)))) ∧
      (s.glb.phase = 5 → (∀ a, a < s.par.numAgents → agtUp s a = true) → agtExcluded s 0 = false →
        exec .agentsDeadline s = .next (settle { s with glb := { s.glb with phase := 6, bring := [] } }))) ∧
  (∀ (s : State) (d : Nat), (failPhase s d).glb.blk = .failed ∧ (failPhase s d).glb.failPhase = s.glb.phase ∧
      (failPhase s d).glb.failDetail = d % 256) ∧
  (∀ (s : State), s.watch.wins = [] → (goReady s).glb.blk = .ready ∧ (goReady s).glb.phase = 15 ∧ (goReady s).sched.tickNo = 0 ∧
      (goReady s).sched.elapsed = 0 ∧ 4352 ∈ (goReady s).evt.pending)

/-- Bring-up of an agent (R50, R75–R77, R80, R244): when its initialisation ends the agent keeps its fuse word, its firmware and
its monitors' baseline, has an IDLE flit on its way up and looks at its inputs; with the port's link up and the IDLE come its
streams start with their credits and its identity is read; a wait of step 1 that runs out excludes it. Tide resets and faults
(R54, R60, R62): AGENT_RESET leaves its agent at reset with the cause it carries; a port's link that falls takes every agent of
the port down; an agent that resets itself keeps what survives a reset. -/
def Obligations.AgentBringUp : Prop :=
  ((∀ (s t : State) (a : Nat) (ok good latched : Bool) (fuse : BitVec 256) (mon : Option W32) (image : List Byte), AgLive s a = true →
      (getAgent s a).initDone = false → (getAgent s a).latchSeen = false → good = fuseGood fuse →
      latched = (s.glb.testPin && bitOf fuse 0) → ok = mon.isSome →
      t = modAgent s a (fun g => { g with
        initDone := true, initOk := ok && (good || latched), fuse := fuseShadow fuse good, fuseOk := good, testLatched := latched
        latchSeen := true, monBase := mon.getD g.monBase, core := { g.core with imemA := imgWords 0 image } }) →
      exec (.agentInitDone a mon fuse image) s = .next (settle (sampleStart (modLink t a fun k => { k with
          upTx := { k.upTx with control := k.upTx.control ++
            [mkFlit 0 false a 0 0 (if ok && (good || latched) then 32 else 0) 0] } })
          fun i => decide (256 ≤ i) && decide ((i - 256) / 32 = a))) ∧
        (getAgent t a).initDone = true ∧ (good = true → ok = true → (getAgent t a).initOk = true ∧ (getAgent t a).fuse = fuse) ∧
        (getAgent t a).core.imemA = imgWords 0 image) ∧
    (∀ (s t : State) (a : Nat), Live s = true → t = modGlb s (fun g => { g with portUp := insertNat g.portUp (portOf s a) }) →
      ((getAgent s a).running = false ∨ (getAgent s a).initDone = false ∨ (getAgent s a).initOk = false →
        exec (.tideLinkUp a) s = .next (settle t)) ∧
      ((getAgent s a).running = true → (getAgent s a).initDone = true → (getAgent s a).initOk = true →
        ∀ u, u = modLink t a (fun k => { k with idleIn := true }) →
          exec (.tideLinkUp a) s = .next (settle (bringLinkUp u a)) ∧
          (∀ b, kget s.glb.bring a = some b → b.step = 1 → (getLink (bringLinkUp u a) a).up = true ∧
            (getLink (bringLinkUp u a) a).upTx.credits = upCredits u a ∧ kget (bringLinkUp u a).glb.bring a = some { b with step := 3 } ∧
            (bringLinkUp u a).port.nextRtag = (s.port.nextRtag + 2) % 256))) ∧
    (∀ (s : State) (a : Nat) (b : Bring), Live s = true → kget s.glb.bring a = some b → b.step = 1 →
      exec (.bringupWaitTimeout a) s = .next (settle (bringFail s a 1)))) ∧
  ((∀ (s t : State) (a c : Nat), AgLive s a = true → downHead s a = some (.agentReset c) →
      t = modLink (modAgent s a fun g => { resetAgent g true with rstCauseMsg := c }) a (fun k => freshLink k) →
      exec (.agentReset a) s = .next (settle t) ∧ getAgent t a = { resetAgent (getAgent s a) true with rstCauseMsg := c } ∧
        (getLink t a).downTx = {} ∧ (getLink t a).upTx = {}) ∧
    (∀ (s : State) (a : Nat), Live s = true → exec (.tideLinkFault a) s = .next (settle (portFall s (portOf s a)))) ∧
    (∀ (s t : State) (a : Nat), Live s = true → t = modAgent s a (fun g => resetAgent g true) →
      getAgent t a = resetAgent (getAgent s a) true ∧
      ((getLink s a).up = true → exec (.agentSelfReset a) s = .next (settle
        (modLink (linkFault t a) a fun k => { freshLink k with fault := true }))) ∧
      ((getLink s a).up = false → exec (.agentSelfReset a) s = .next (settle (modLink t a fun k => { k with idleIn := false })))))

/-- Memory self-test and scan (R69, R514, R515): a self-test in factory test mode with rst_n low begins, its result stands in
TEST_MBIST; scan_en loses the instance's state, and after it the Root's commands have none to act on. The same of an agent. -/
def Obligations.SelfTestAndScan : Prop :=
  ∀ (s : State),
    (s.glb.testLatched = true → s.glb.rstn = true → s.glb.por = false →
      exec (.mbistStart 0) s = .next { s with glb := { s.glb with mbist := 1, mbistRun := true } }) ∧
    (∀ fails first, s.glb.mbistRun = true →
      exec (.mbistDone 0 fails first) s = .next { s with glb := { s.glb with mbist := mbistResult fails first, mbistRun := false } }) ∧
    (∀ fails first w, w = mbistResult fails first → bitOf w 1 = true ∧ bitOf w 2 = decide (0 < fails) ∧
      (0 < fails → fld w 8 8 = first % 256) ∧ fld w 16 16 = min fails 65535) ∧
    (s.glb.testLatched = true → ∀ t, t = { s with glb := { s.glb with scanLost := true } } →
      exec (.scanEn 0) s = .next t ∧ ∀ q, exec (.chainLeavesInlet q) t = .fault (.scanStateLost 0)) ∧
    (∀ a, (getAgent s a).testLatched = true →
      (s.glb.rstn = true → s.glb.por = false → exec (.mbistStart (a + 1)) s =
        .next (modAgent s a fun g => { g with mbist := 1, mbistRun := true })) ∧
      ∀ t, t = modAgent s a (fun g => { g with scanLost := true }) →
        exec (.scanEn (a + 1)) s = .next t ∧ exec (.mopPush a) t = .fault (.scanStateLost (a + 1)))

/-- What an access finds at READY: an aligned 32-bit write with every strobe set by a function that may make it reaches its
register once and is answered; an access from a function that may not make it raises E_ACCESS_DENIED with the function and the
address, and reads 0; with no other access waiting the answer is given at once (R39–R42). Reads that latch or clear (R6, R185):
the low word of a 64-bit register keeps its high word, which the next read of the high word gives, once (log entry 14);
PWIN_WERRINFO latches its group. Instruction and data memory windows (R253, R275): a write to the bank that is not active stores
the words, the first one with an audit log entry; a write to data memory that no context holds stores the bytes and marks their
lines written. -/
def Obligations.PortAccess : Prop :=
  (∀ (s t : State) (fn addr : Nat) (g : Rg) (o v : Nat) (d : W32), Takes s = true → addr < 2 ^ 26 → regionOf addr = (g, o) →
      (g ≠ .flags ∧ (∀ c b, g ≠ .imem c b) ∧ (∀ c, g ≠ .dmem c) ∧ (∀ a, g ≠ .agent a) ∧ g ≠ .none ∧ (∀ q, g ≠ .db q)) → addr % 4 = 0 →
      needsExt (wr32 fn addr d) = false → t = taken s fn addr d →
      (admits t g o fn true = true → regHolding t g o = some (o, false, v) →
        exec (.hostAccess (wr32 fn addr d)) s = .next (settle (respond (regWrite t g o (wrq fn addr d)) 0))) ∧
      (admits t g o fn true = false →
        exec (.hostAccess (wr32 fn addr d)) s = .next (settle (respond (raiseOn t eAccessDenied
          (if fn < 64 then some fn else none) none [(.fn, fn), (.addr, addr)]) 0)))) ∧
  (∀ (s : State) (x : Access) (v : Nat), s.port.owed = [] →
      (respond (accept s x) v).port.resp = BitVec.ofNat 128 v ∧ (respond (accept s x) v).port.owed = [] ∧
      (respond (accept s x) v).port.respCount = s.port.respCount + 1) ∧
  ((∀ (s t : State) (addr : Nat) (g : Rg) (o b v : Nat), Open s = true → owedOf s false < 32 → addr < 2 ^ 26 →
      regionOf addr = (g, o) →
      (g ≠ .flags ∧ (∀ c b, g ≠ .imem c b) ∧ (∀ c, g ≠ .dmem c) ∧ (∀ a, g ≠ .agent a) ∧ g ≠ .none) → addr % 4 = 0 →
      t = accept s (rd32 0x40 addr) → admits t g o 0x40 false = true → regHolding t g o = some (b, true, v) →
      (o = b → exec (.wordLatchRead 0x40 addr) s = .next (settle (respond (onRead { t with port := { t.port with
        rlatch := halfPut t.port.rlatch (addr + 4) (BitVec.ofNat 32 (v / 2 ^ 32)) } } g b true false 0) (v % 2 ^ 32)))) ∧
      (∀ w, o = b + 4 → halfGet t.port.rlatch addr = some w →
        exec (.wordLatchRead 0x40 addr) s = .next (settle (respond (onRead { t with port := { t.port with
          rlatch := t.port.rlatch.filter (fun h => h.addr != addr) } } g b false true w.toNat) w.toNat)))) ∧
    (∀ (s t u : State) (p : Nat), Open s = true → owedOf s false < 32 → p < 64 → (getPart s p).st ≠ .free →
      t = accept s (rd32 0x40 (0x10080 + p * 0x1000)) →
      u = modPart t p (fun x => { x with werrLatch := some (x.werrId, x.werrHandle, x.werrAddr, x.peerId, x.peerHandle) }) →
      exec (.pwinWerrinfoRead 0x40 p) s = .next (settle (respond u (getPart s p).werrInfo.toNat)) ∧
        (getPart u p).werrLatch = some ((getPart s p).werrId, (getPart s p).werrHandle, (getPart s p).werrAddr, (getPart s p).peerId,
          (getPart s p).peerHandle))) ∧
  ((∀ (s t u : State) (n o addr : Nat) (d : W32), Takes s = true → n < 8 → o < 0x20000 → o % 4 = 0 →
      addr = 0x400000 + n * 0x80000 + o →
      (getCore s (0x300 + n)).bankB = true → (getCore s (0x300 + n)).staged = false →
      t = (if (getCore s (0x300 + n)).wroteInactive then taken s 0x40 addr d else wrLog (taken s 0x40 addr d) (wrq 0x40 addr d)) →
      u = modCore t (0x300 + n) (fun c => { c with imemA := tput 0 c.imemA (o / 4) d, wroteInactive := true }) →
      exec (.imemWindowWrite (wr32 0x40 addr d)) s = .next (settle (respond u 0)) ∧
        tget 0#32 (getCore u (0x300 + n)).imemA (o / 4) = d ∧ (getCore u (0x300 + n)).imemB = (getCore s (0x300 + n)).imemB) ∧
    (∀ (s t u : State) (n o addr : Nat) (d : W32), Takes s = true → n < 8 → o < 0x40000 → o % 4 = 0 →
      addr = 0x440000 + n * 0x80000 + o → (getCore s (0x300 + n)).owner = [] → t = taken s 0x40 addr d →
      u = modCore t (0x300 + n) (fun c => { c with
        dmem := writeBytes c.dmem o d.toNat 4, written := (linesOf o 4).foldl insertNat c.written
        ecc1 := c.ecc1.filter (fun w => !(decide (o ≤ w) && decide (w + 8 ≤ o + 4)))
        ecc2 := c.ecc2.filter (fun w => !(decide (o ≤ w) && decide (w + 8 ≤ o + 4))) }) →
      exec (.dmemWindowWrite (wr32 0x40 addr d)) s = .next (settle (respond u 0)) ∧
        readBytes (getCore u (0x300 + n)).dmem o 4 = d.toNat ∧
        (memWf (getCore s (0x300 + n)).dmem = true → memWf (getCore u (0x300 + n)).dmem = true) ∧ (o / 64) ∈ (getCore u (0x300 + n)).written))

/-- Doorbells (R107, R110, R112): the owner's doorbell that announces descriptors ahead moves TAIL; one that announces none
counts in IGNORED; one with a reserved bit or an index outside the ring changes no position, sets DB_INVALID and raises
E_DOORBELL_INVALID with the queue and the value. The flag region (R163): a write by the partition that owns the range is queued
as a whole-word operation on the flag. -/
def Obligations.DoorbellsAndFlagRegion : Prop :=
  (∀ (s t : State) (fn q n m tl : Nat) (d : W64) (x : Queue), Takes s = true → q < 4096 → x = getQueue s q → x.owner = fn → fn < 64 →
      x.st = .enabled → n = 2 ^ x.log2 → m = 65536 * n → tl = fld d 32 16 * n + fld d 0 16 →
      t = accept s (wr64 fn (0x100000 + q * 0x40) d) →
      (fld d 16 16 = 0 → fld d 48 16 = 0 → fld d 0 16 < n → (tl + m - x.head % m) % m ≤ n →
        ((x.tail + m - x.head % m) % m < (tl + m - x.head % m) % m →
          exec (.doorbell fn q d) s = .next (settle (respond (modQueue t q fun x => { x with tail := tl }) 0))) ∧
        ((tl + m - x.head % m) % m ≤ (x.tail + m - x.head % m) % m →
          exec (.doorbell fn q d) s = .next (settle (respond (modQueue t q fun x =>
            { x with ignored := satN 16 (x.ignored + 1) }) 0)))) ∧
      (∀ u, u = raiseOn t eDoorbellInvalid (some fn) none [(.queue, q), (.value, d.toNat)] →
        (fld d 16 16 ≠ 0 ∨ fld d 48 16 ≠ 0 ∨ n ≤ fld d 0 16 ∨ n < (tl + m - x.head % m) % m →
          exec (.doorbell fn q d) s = .next (settle (respond (modQueue u q fun x => { x with dbInvalid := true }) 0))) ∧
        u.queues = s.queues)) ∧
  (∀ (s : State) (fn i : Nat) (d : W64), Takes s = true → s.glb.frozen = false → fn < 64 → i < 65536 → flagInRange s fn i = true →
      exec (.flagRegionWrite fn i d) s = .next (settle (respond (queueSigs (accept s (wr64 fn (0x200000 + i * 8) d)) [{
        src := 500, part := fn, handle := i, op := 5, x := d.toNat % 2 ^ 62 + put (b2n (d.getLsbD 63)) 63, launch := 0 }]) 0)))

/-- Manager registers with a behaviour of their own (R87, R210, R238, R438, R455, R460, R479, R503, R509, R510): each write's
effect on its register, with its audit log entry where the rules give one, answered with 0. Admin queue registers (R86, R87):
enabling a queue sets its positions to 0, SQTAIL and CQHEAD take an index of the ring. -/
def Obligations.RegisterWrites : Prop :=
  (∀ (s t : State) (r : WrReq) (d : W32), Takes s = true →
      (t = taken s 0x40 0x300000 d → r = wrq 0x40 0x300000 d → partsQuiet s = true → 2000 ≤ fld d 0 21 → fld d 0 21 ≤ 2000000 →
        exec (.schPeriodWrite 0x40 d) s = .next (settle (respond (wrLog (if tickSent s
          then modSched t fun c => { c with periodLate := some (fld d 0 21) }
          else modSched t fun c => { c with periodNext := some (fld d 0 21) }) r) 0))) ∧
      (t = taken s 0x40 0x300030 d → exec (.schAccselWrite 0x40 d) s = .next (settle (respond (modSched t fun c => { c with
        accsel := fld d 0 12, accdata := [(getQueue s (fld d 0 12)).engineNs, (getQueue s (fld d 0 12)).bytes,
          (getQueue s (fld d 0 12)).energyNj / 1000] }) 0))) ∧
      (∀ w, t = taken s 0x40 0x350018 d → exec (.stewLedselWrite 0x40 d w) s = .next (settle (respond (modStew t fun x => { x with
        ledsel := BitVec.ofNat 32 (fld d 0 6 + put (fld d 8 24) 8), ledger := w }) 0))) ∧
      (t = taken s 0x40 0x330024 d → exec (.logRdselWrite 0x40 d) s = .next (settle (respond (modLog t fun l => { l with
        rdsel := fld d 0 12, rddata := s.log.entries.getD (fld d 0 12) 0 }) 0))) ∧
      (∀ n u, t = taken s 0x40 0x330028 d → n = fld d 0 13 → s.log.spill = false → n ≤ s.log.entries.length →
        u = audit (modLog t fun l => { l with entries := l.entries.drop n }) 1 0x40 0x0E 0 0 n →
        exec (.logPop 0x40 d) s = .next (settle (respond u 0)) ∧
        (s.log.entries.length < 4096 → s.log.lostSince = 0 → ∃ e, u.log.entries = s.log.entries.drop n ++ [e])) ∧
      (t = taken s 0x40 0x330010 d → fld d 0 20 < ringSize s →
        (fld d 0 20 + ringSize s - s.log.head % ringSize s) % ringSize s ≤ ringUsed s →
        exec (.logHeadWrite 0x40 d) s = .next (settle (respond (modLog t fun l => { l with head := fld d 0 20 }) 0))) ∧
      (∀ i u, i < 2304 → srcExists s i = true → t = taken s 0x40 (0x321008 + i * 16) d → r = wrq 0x40 (0x321008 + i * 16) d →
        bitOf d 0 = true → bitOf d 1 = false →
        u = severeClear (if bitOf d 4 then modWatch (wrLog t r) fun w => { w with notarget := without w.notarget i } else wrLog t r)
          (i * 2) →
        exec (.watchSevereClear 0x40 i d) s = .next (settle (respond u 0)) ∧
        (s.watch.level.contains i = false → entrySevere u (i * 2) = false)) ∧
      (t = taken s 0x40 0xDB00 d → r = wrq 0x40 0xDB00 d → s.svc.mc.state = 0 → s.svc.draining = [] → fld d 0 2 ≠ 3 →
        exec (.svcModeWrite 0x40 d) s = .next (settle (respond (wrLog (modSvc t fun v => { v with modeNext := some (fld d 0 2) }) r) 0))) ∧
      (∀ w u, (w = d &&& 0x3FFFFFFF ||| 0x80000000#32 ∨ w = d ||| 0x40000000#32) → 1 ≤ fld w 0 4 → fld w 0 4 ≤ 7 →
        t = taken s 0x40 0xDC00 w → r = wrq 0x40 0xDC00 w →
        u = wrLog (modLb t fun b => { b with
          point := fld w 0 4, agent := fld w 4 6, all := bitOf w 10, unit := fld w 11 3, count := fld w 16 12 }) r →
        (bitOf w 30 = true → exec (.lbStop 0x40 d) s = .next (settle (respond (lbHalt u) 0))) ∧
        (bitOf w 30 = false → exec (.lbGo 0x40 (d &&& 0x3FFFFFFF)) s = .next (settle (respond (lbStart u) 0))) ∧
        (s.lb.busy = true → (lbHalt u).lb.busy = false ∧ (lbHalt u).lb.done = true ∧ (lbHalt u).lb.aborted = true ∧
          (lbStart u).lb.busy = true ∧ (lbStart u).lb.refused = true) ∧
        (fld w 0 4 = 1 → 0 < fld w 16 12 → s.glb.frozen = false → s.lb.busy = false →
          (lbStart u).lb.busy = true ∧ (lbStart u).lb.exch = 0 ∧ (lbStart u).lb.members = [0])) ∧
      (∀ u, t = taken s 0x40 0x370100 d → s.glb.testLatched = true → u = audit t 0x0C 0x40 1 0 0x370100 d.toNat →
        exec (.testInjpair 0x40 d) s = .next (settle (respond (injectPair { u with test := { u.test with
          injPair := BitVec.ofNat 32 (fld d 0 14) } } s.test.injPair d) 0))) ∧
      (∀ u v, t = taken s 0x40 0x370104 d → s.glb.testLatched = true → codeListed (fld d 0 16) = true →
        u = audit t 0x0C 0x40 1 0 0x370104 d.toNat →
        v = { u with test := { u.test with injEv := BitVec.ofNat 32 (fld d 0 16 + put (fld d 16 14) 16) } } →
        (bitOf d 31 = false → exec (.testInjev 0x40 d) s = .next (settle (respond v 0))) ∧
        (bitOf d 31 = true → exec (.testInjev 0x40 d) s = .next (settle (respond (injectEvent
          (audit v 0x0C 0x40 1 (fld d 0 16) 0x370104 d.toNat) (fld d 0 16) (if bitOf d 22 then some (fld d 16 6) else none)
          (if bitOf d 29 then some (fld d 23 6) else none)) 0))))) ∧
  (∀ (s t : State) (d : W32), Takes s = true →
      (∀ a, t = taken s 0x40 0x1010 d → (getAdm s 0x40).enable = false → 4 ≤ fld d 0 4 → fld d 0 4 ≤ 12 → bitOf d 4 = true →
        a = { getAdm s 0x40 with
          log2 := fld d 0 4, enable := true, sqTail := 0, sqHead := 0, cqHead := 0, cqTail := 0, phase := true, read := [], owed := 0 } →
        exec (.admQcfgWrite 0x40 0x40 d) s = .next (settle (respond (wrLog (modAdm t 0x40 fun _ => a) (wrq 0x40 0x1010 d)) 0))) ∧
      (fld d 0 12 < 2 ^ (getAdm s 0x40).log2 →
        (t = taken s 0x40 0x1014 d → exec (.admSqtailWrite 0x40 0x40 d) s = .next (settle (respond
          (admFetch (modAdm t 0x40 fun a => { a with sqTail := fld d 0 12 }) 0x40) 0))) ∧
        (t = taken s 0x40 0x101C d → exec (.admCqheadWrite 0x40 0x40 d) s = .next (settle (respond
          (modAdm t 0x40 fun a => admSetHead a d) 0))) ∧ (admSetHead (getAdm s 0x40) d).cqHead = fld d 0 12))

/-- COMPLETION (R226, R307): the message is taken, the figures it adds are those beyond what was counted, and its launch's record
of the macro-op is updated; PAUSED leaves the launch paused on the queue, its cycles counted. A launch's record (R123, R150,
R151): written behind the ring when nothing of its signals is missing, 16 bytes; its signals are issued with it, one SIGNAL to a
flag of space 0 as one queued operation; with the response the launch is outstanding no more. -/
def Obligations.CompletionAndRecord : Prop :=
  (∀ (s u : State) (a id : Nat) (c d : Compl) (l : Launch), Live s = true → upHead s a = some (.completion c) →
      mergeHolds s c.eq c.tag = false → stewId c.launch = false → newFigures (takeUp s a) c = (d, u) →
      id = launchNamed u c.launch (fun l => l.outs.any fun o => o.eq == c.eq && o.tag == c.tag) → kget u.launches id = some l →
      exec (.completion a) s = .next (settle (complTake u l { d with launch := id })) ∧
      (c.status = 4 → ∃ k, kget (complTake u l { d with launch := id }).launches id = some k ∧ c.eq ∈ k.paused ∧
        k.actual = l.actual + d.cycles)) ∧
  ((∀ (s t u : State) (id : Nat) (l : Launch), Live s = true → kget s.launches id = some l → l.stage = .outfall → s.glb.frozen = false →
      l.relWant = [] → sigNeeds s l = [] →
      t = setLaunch (mgrWriteAs s l.part l.pasid l.recAt 16 (recordWord s id l l.status l.error l.poisoned) (.record id l.queue)).2 id
        { l with stage := .written } →
      u = issueSignals (recordFigs t id l l.status l.error) id l →
      exec (.recordWrite id) s = .next (settle (cycleCheck (unpinGen u id) (id % 4096) true)) ∧
        u.port.writes = s.port.writes ++ [{ txn := s.port.nextTxn, fn := l.part, pasid := l.pasid, addr := l.recAt % 2 ^ 64, len := 16
                                            data := recordWord s id l l.status l.error l.poisoned, kind := .record id l.queue }] ∧
        (kget u.launches id).map (·.stage) = some .written ∧
        (∀ w, namedSigs l = [w] → sHandle w / 2 ^ 30 = 0 → l.status = stOk → ∃ ad, u.weir.sigq = s.weir.sigq ++ [{
          src := 100, part := l.part, handle := sHandle w, op := sOp w, x := sValue w, launch := id, addr := ad }])) ∧
    (∀ (s : State) (id : Nat) (w : Wr), Live s = true → s.port.writes.find? (recordOf id) = some w →
      exec (.recordWriteResponse id) s = .next (settle (recordGone (vecsRelease (mgrDone s w.txn) w.txn) id true))))

/-- A queue that empties (R102, R103, R124, R125): RESETTING ends in IDLE, or in UNUSED where Q_DELETE asked for it or the
partition resets, once its launches are done with; a DRAINING queue past its timeout sets its bit and says so, once per drain.
HOST_WRITE_FAULT (R45): a write that meets a fault is outstanding no more and raises E_HOST_WRITE_FAULT with its address; the
write of a save, of a mapping entry, of the arena or of the Steward's words loses no more than its data, a record's launch goes
all the same; the evacuation record's ends the evacuation with its bit. -/
def Obligations.QueuesEmptyAndFaults : Prop :=
  (∀ (s : State) (q : Nat), Live s = true →
      ((getQueue s q).st = .resetting → (queueLaunches s q).all (fun y => isDone y.2) = true →
        ((getQueue s q).toUnused = false → (getPart s (getQueue s q).owner).st ≠ .resetting →
          exec (.resetQueueSettles q) s = .next (settle (enterIdle s q))) ∧
        ((getQueue s q).toUnused = true ∨ (getPart s (getQueue s q).owner).st = .resetting →
          exec (.resetQueueSettles q) s = .next (settle (enterUnused s q)))) ∧
      ((getQueue s q).st = .draining →
        ((getQueue s q).drainLate = true → exec (.drainTimeout q) s = .next (settle s)) ∧
        ((getQueue s q).drainLate = false → ∀ t, t = modQueue s q (fun x => { x with drainTmoBit := true, drainLate := true }) →
          exec (.drainTimeout q) s = .next (settle (raiseOn t eDrainTimeout (some (getQueue s q).owner) none [(.queue, q)])) ∧
          getQueue t q = { getQueue s q with drainTmoBit := true, drainLate := true } ∧ t.launches = s.launches))) ∧
  (∀ (s t u : State) (txn : Nat) (w : Wr), Live s = true → s.port.writes.find? (fun w => w.txn == txn) = some w →
      t = { s with port := { s.port with writes := w :: s.port.writes.filter (fun v => v.txn != txn) } } →
      u = vecsRelease (mgrDone (raiseOn t eHostWriteFault (if w.fn < 64 then some w.fn else none) none [(.addr, w.addr)]) txn) txn →
      ((w.kind = .stewWord ∨ w.kind = .arena ∨ (∃ p i, w.kind = .entry p i) ∨ (∃ i, w.kind = .save i)) →
        exec (.hostWriteFault txn) s = .next (settle u)) ∧
      (∀ id q, w.kind = .record id q → exec (.hostWriteFault txn) s = .next (settle (recordGone u id false))) ∧
      (∀ key, w.kind = .flag key → exec (.hostWriteFault txn) s = .next (settle (memWritten t key false))) ∧
      (w.kind = .evac → exec (.hostWriteFault txn) s = .next (settle (evacEnd (raiseOn
        (modGlb (mgrDone t txn) fun g => { g with evacWfault := true }) eHostWriteFault (if w.fn < 64 then some w.fn else none) none
        [(.addr, w.addr)])))) ∧
      u.port.writes = s.port.writes.filter (fun v => v.txn != txn) ∧ u.launches = s.launches ∧ u.parts = s.parts ∧
      (∀ x, (evacEnd x).watch.evacDone = true ∧ (evacEnd x).watch.failStep = 7))

/-- The event port (R46–R48): the lowest pending vector is presented with its function, and its pending bit clears with the
transfer. Register messages (R43, R53): an agent answers a read of its identity and takes a write of an image word of the bank
that is not active, byte by byte as its strobes say; the answer of a host access is its response; one without an answer in time
reads 0 and raises E_AGENT_UNREACHABLE. -/
def Obligations.EventPort : Prop :=
  (∀ (s : State) (v : Nat), Live s = true →
      (∀ rest, s.evt.presented = none → s.evt.pending = v :: rest → exec .interruptPresent s =
        .next (settle { s with evt := { s.evt with presented := some (v, vecFn s v) } })) ∧
      (∀ fn t, s.evt.presented = some (v, fn) →
        t = { s with evt := { s.evt with presented := none, pending := without s.evt.pending v } } →
        exec .interruptTransfer s = .next (settle t) ∧ v ∉ t.evt.pending ∧
        (∀ w, w ≠ v → (w ∈ t.evt.pending ↔ w ∈ s.evt.pending)))) ∧
  ((∀ (s : State) (a t v : Nat), AgLive s a = true → downHead s a = some (.regRead 0 t 2) → regAgent s a 0 = some v →
      exec (.agentRegRequest a) s =
        .next (settle (sendUp (agentOnRead (takeDown s a) a 0) a (.regReply 0 t 0 (BitVec.ofNat 256 (v % 2 ^ 32)))))) ∧
    (∀ (s u : State) (a o t st : Nat) (d : BitVec 256), AgLive s a = true → downHead s a = some (.regWrite o t 2 st d) →
      0x40000 ≤ o → o < 0x60000 → (getAgent s a).core.bankB = false →
      u = modAgent (takeDown s a) a (fun g => { g with core := { g.core with
        imemB := bankStore g.core.imemB (o % 0x20000 / 4) st d.toNat 1, wroteInactive := true } }) →
      ((getAgent s a).core.staged = true →
        exec (.agentRegRequest a) s = .next (settle (sendUp (takeDown s a) a (.regReply o t 2 0)))) ∧
      ((getAgent s a).core.staged = false →
        exec (.agentRegRequest a) s = .next (settle (sendUp u a (.regReply o t 0 0)))) ∧
      (nbits st 0 4 = 15 →
        tget 0#32 (getAgent u a).core.imemB (o % 0x20000 / 4) = BitVec.ofNat 32 (fld d 0 32)) ∧
      (getAgent u a).core.imemA = (getAgent s a).core.imemA) ∧
    (∀ (s u : State) (a o t : Nat) (d : BitVec 256) (h : HeldAcc), Live s = true → upHead s a = some (.regReply o t 0 d) →
      kget s.port.held t = some h → h.agent = a → h.internal = 0 →
      u = unhold t { takeUp s a with port := { (takeUp s a).port with held := kdel s.port.held t } } →
      exec (.regReply a) s = .next (settle (respond u (if h.wr then 0 else d.toNat % 2 ^ 32))) ∧
      u.port.held = kdel s.port.held t ∧ (respond u (if h.wr then 0 else d.toNat % 2 ^ 32)).port.held = kdel s.port.held t) ∧
    (∀ (s u : State) (t : Nat) (h : HeldAcc), Live s = true → kget s.port.held t = some h → h.internal = 0 →
      u = raise { s with port := { s.port with held := kdel s.port.held t } } eAgentUnreachable none (some h.agent) →
      exec (.agentRegTimeout t) s = .next (settle (respond (unhold t u) 0)) ∧ u.port.held = kdel s.port.held t))

/-- Translation (R188–R191, R202, R324–R326): core 7 takes the first waiting image, whose bytes are read in the issuer's name; an
image without fault, with room in the arena for the pages it changes, becomes the context's current generation, its pages
written; one that could not be read fails with code 0x11, one without room with ST_NO_RESOURCE. -/
def Obligations.Translation : Prop :=
  ∀ (s : State), Live s = true →
    (∀ ok image j rest t, s.iz.busy = none → s.iz.queue = j :: rest → s.glb.frozen = false → izHeld s = false →
      (ok = true → image.length = pktB j.pkt 16 4) →
      t = (cutReads (pktB j.pkt 16 4 / 4096 + 2) (pktB j.pkt 8 8) (pktB j.pkt 16 4)).foldl (fun s x => mgrRead s j.q x.1 x.2 .image)
        { s with iz := { s.iz with busy := some { j with image := image, readOk := ok }, queue := rest } } →
      exec (.translationStart ok image) s = .next (settle t) ∧ t.iz.queue = rest ∧ (∀ r ∈ t.port.reads, r ∈ s.port.reads ∨ r.fn = j.q)) ∧
    (∀ (o : TransOut) (j : Job) (t : State) (gx : GCtx) (a : Arena) (parent : Option Generation) (d : Generation) (new : List Nat),
      s.iz.busy = some j → t = readDone s .image → gx = getGctx t j.gctx →
      parent = (if j.patch then gx.gens.find? (fun g => g.num == gx.cur) else none) → a = getArena t gx.owner →
      d = draftGen t j gx parent o → new = changedPages parent d →
      (izCheck t j parent o = none → (arenaPages t gx.owner).length + new.length ≤ a.size * 16 →
        ∀ g u v, g = withAddrs a (takePages t gx.owner parent d new) j.gctx →
          u = makeCurrent (new.foldl (writePage a g) t) j g → v = tcNote { u with iz := { u.iz with busy := none } } j parent o →
          exec (.translationEnd o) s = .next (settle (admOk v j.q j.pkt (objState v j.q j.pkt)
            (g.num + put (new.length % 2 ^ 20) 16))) ∧
          (getGctx u j.gctx).st = 2 ∧ (getGctx u j.gctx).cur = g.num ∧ g.num = gx.counter ∧
          (getGctx u j.gctx).counter = nextGen gx.counter ∧
          (getGctx u j.gctx).gens.length = (gx.gens.filter (fun y => y.pins != 0)).length + 1) ∧
      (izCheck t j parent o = none → a.size * 16 < (arenaPages t gx.owner).length + new.length →
        exec (.translationEnd o) s = .next (settle (izFail t j stNoResource 9))) ∧
      (j.readOk = false → exec (.translationEnd o) s = .next (settle (izFail t j stBadParam (0x11 + put 1 47)))))

/-- Walks and roots (R382–R391): a walk whose sequence is not configured is skipped; one whose root word is not cached waits
for one read; one whose word is cached counts as a hit, and names no table when the word's bit 63 is 0; the word read is cached and
the walks that wait for it go on; a swap that passes its checks writes the new root word and stays busy until its response; an
old epoch that no walk uses signals its reclaim flag. -/
def Obligations.WalksAndRoots : Prop :=
  (∀ (s : State) (tag : Nat) (p : Push) (l : Launch), Live s = true →
    s.pushes.find? (fun p => p.tag == tag && isWalk p && decide (p.walked ≠ 2)) = some p → s.glb.frozen = false → p.want = 0 →
    canPush s (aheadOf s p) { p with walked := 2 } = true → kget s.launches p.launch = some l →
    ((getSeqs s l.part).cnt ≤ mSeq p.mop → exec (.walkStart tag) s = .next (settle (walkSkip s p eAttnRoot))) ∧
    (mSeq p.mop < (getSeqs s l.part).cnt → rootGet s (l.part * 65536 + mSeq p.mop) = none →
      ∀ t, t = (if s.attn.reading.contains (l.part * 65536 + mSeq p.mop) then s else mgrRead { s with attn := { s.attn with
          reading := insertNat s.attn.reading (l.part * 65536 + mSeq p.mop), misses := satN 16 (s.attn.misses + 1) } } l.part
          ((getSeqs s l.part).base.toNat + 8 * mSeq p.mop) 8 (.root (l.part * 65536 + mSeq p.mop))) →
        exec (.walkStart tag) s = .next (settle (setPush t p { p with walked := 1, want := 0 })) ∧
        l.part * 65536 + mSeq p.mop ∈ t.attn.reading) ∧
    (∀ w t, mSeq p.mop < (getSeqs s l.part).cnt → rootGet s (l.part * 65536 + mSeq p.mop) = some w → p.walked = 0 → bitOf w 63 = false →
      t = rootPut s (l.part * 65536 + mSeq p.mop) w →
      exec (.walkStart tag) s = .next (settle (walkSkip { t with attn := { t.attn with hits := satN 16 (t.attn.hits + 1) } } p
        eAttnRoot)))) ∧
  (∀ (s t u : State) (p seq : Nat) (word : W64), Live s = true → s.attn.reading.contains (p * 65536 + seq) = true →
    t = readDone { s with attn := { s.attn with reading := without s.attn.reading (p * 65536 + seq) } } (.root (p * 65536 + seq)) →
    u = (if (rootGet t (p * 65536 + seq)).isSome then t else rootPut t (p * 65536 + seq) word) →
    exec (.rootCacheFill p seq true word) s = .next (settle (retryRoot u (p * 65536 + seq) true)) ∧
    exec (.rootCacheFill p seq false word) s = .next (settle (retryRoot t (p * 65536 + seq) false)) ∧
    (rootGet s (p * 65536 + seq) = none → rootGet u (p * 65536 + seq) = some word) ∧
    (s.pushes = [] → retryRoot u (p * 65536 + seq) true = u)) ∧
  (∀ (s t u : State) (p low ep : Nat) (table : W32) (kindOk : Bool) (root : W64), Takes s = true → p < 64 → (getPart s p).st = .active →
    low = ((halfGet s.port.wlatch (0x100E0 + p * 0x1000)).getD 0).toNat % 65536 → ep = (fld root 32 16 + 1) % 65536 →
    t = taken s 0x40 (0x100E4 + p * 0x1000) table → u = ptSwap t p low table.toNat kindOk root →
    exec (.ptSwap 0x40 p table kindOk root) s = .next (settle (respond u 0)) ∧
    ((getSeqs s p).busy = true → u = modSeqs t p fun q => { q with dropped := true }) ∧
    ((getSeqs s p).busy = false → low < (getSeqs s p).cnt → (table = 0 ∨ kindOk = true) → (getSeqs s p).rcl = 0 →
      rootGet s (p * 65536 + low) = none → tget 0 s.attn.walks ((p * 65536 + low) * 65536 + ep) = 0 →
      (getSeqs u p).busy = true ∧ (getSeqs u p).newEpoch = ep ∧ u.port.writes = s.port.writes ++ [{
        txn := s.port.nextTxn, fn := p, pasid := pasidOf s p, addr := ((getSeqs s p).base.toNat + 8 * low) % 2 ^ 64, len := 8
        data := table.toNat + put ep 32 + put (b2n (decide (table.toNat ≠ 0))) 63, kind := .root p }])) ∧
  (∀ (s t : State) (p : Nat) (w : Wr), Live s = true → s.port.writes.find? (fun w => w.kind == .root p) = some w →
    (getSeqs s p).busy = true →
    t = modSeqs (vecsRelease (mgrDone s w.txn) w.txn) p
      (fun q => { q with busy := false, result := 0, epoch := (getSeqs s p).newEpoch }) →
    exec (.ptSwapWriteDone p) s = .next (settle t) ∧
      getSeqs t p = { getSeqs s p with busy := false, result := 0, epoch := (getSeqs s p).newEpoch }) ∧
  (∀ (s : State) (p seq epoch h : Nat), Live s = true → tget 0 s.attn.reclaim ((p * 65536 + seq) * 65536 + epoch) = h + 1 →
    tget 0 s.attn.walks ((p * 65536 + seq) * 65536 + epoch) = 0 →
    exec (.epochReclaim p seq epoch) s = .next (settle (queueSigs
      { s with attn := { s.attn with reclaim := tput 0 s.attn.reclaim ((p * 65536 + seq) * 65536 + epoch) 0 } }
      [{ src := 100, part := p, handle := h, op := 0, x := 1, launch := 0 }])))

/-- Merges (R405–R411): the record of a shard that does not complete its slot is merged into it; a record that names no
reservation is dropped and counted; the response of a merged write marks its slot, and the last one of
a loop-back exchange starts the read of its output (R507). The Basin (R398–R402): a HOLD that finds
room keeps its macro-op, one that finds none is skipped; a COMMIT takes the whole group out, counting those below its index as
committed, which are pushed, and the others as discarded; entries two ticks old are discarded and counted. -/
def Obligations.MergesAndBasin : Prop :=
  ((∀ (s t : State) (a eq tag launch id : Nat) (r : W512), Live s = true → upHead s a = some (.partialRec eq tag launch r) →
      agtUp s a = true → s.glb.frozen = false → id = launchNamed s launch (fun l => l.outs.any fun o => o.eq == eq && o.tag == tag) →
      t = takeRec (takeUp s a) eq tag id r →
      exec (.partialRec a) s = .next (settle t) ∧
      (∀ m, getMerge? s (mergeKeyOf id (prMid r)) = some m → prRow r < m.dim0 → prSlice r < m.dim1 / 8 → m.failed = false →
        (tget {} m.slots (prRow r * 64 + prSlice r)).final = false → (tget {} m.slots (prRow r * 64 + prSlice r)).n + 1 < m.nshard →
        ∃ k, getMerge? t (mergeKeyOf id (prMid r)) = some k ∧
          tget {} k.slots (prRow r * 64 + prSlice r) = (mergeRec (tget {} m.slots (prRow r * 64 + prSlice r)) r).1 ∧
          (tget {} k.slots (prRow r * 64 + prSlice r)).n = (tget {} m.slots (prRow r * 64 + prSlice r)).n + 1 ∧
          t.port.writes = s.port.writes ∧ t.outf.merged = satN 32 (s.outf.merged + 1)) ∧
      (getMerge? s (mergeKeyOf id (prMid r)) = none → t.outf.drop = satN 16 (s.outf.drop + 1) ∧ t.outf.merges = s.outf.merges)) ∧
    (∀ (s t : State) (txn key k eq tag : Nat) (w : Wr) (m : Merge), Live s = true →
      s.port.writes.find? (fun w => w.txn == txn) = some w → w.kind = .merge key k eq tag → getMerge? s key = some m →
      t = setMerge (vecsRelease (mgrDone s txn) txn) key
        { m with slots := tput {} m.slots k { tget {} m.slots k with written := true } } →
      (m.loop = none → exec (.mergeWriteResponse txn) s = .next (settle t)) ∧
      (∀ a, m.loop = some a → exec (.mergeWriteResponse txn) s = .next (settle (if ((tput {} m.slots k
          { tget {} m.slots k with written := true }).filter fun y => y.2.written).length = 16 then
        mgrRead t Config.fnManager m.mdest.toNat 512 (.loop a) else t))) ∧
      t.port.writes = s.port.writes.filter (fun v => v.txn != txn))) ∧
  ((∀ (s : State) (tag : Nat) (p : Push) (l : Launch), Live s = true →
      s.pushes.find? (fun p => p.tag == tag && mOpc p.mop == 9 && mBmode p.mop == 1) = some p → kget s.launches p.launch = some l →
      basinTurn s p = true → basinTarget s p = 0 →
      (s.basin.held.length < Config.basinMax →
        (s.basin.held.filter (fun e => e.part == l.part)).length < (getPart s l.part).basinLimit →
        exec (.hold tag) s = .next (settle (basinTook { s with basin := { s.basin with
          held := s.basin.held ++ [{ part := l.part, group := mGroup p.mop, idx := mIdx p.mop, launch := p.launch, tick := s.sched.tickNo
                                     eq := p.eq, mop := p.mop }]
          peak := max s.basin.peak (s.basin.held.length + 1) } } p))) ∧
      (Config.basinMax ≤ s.basin.held.length ∨
        (getPart s l.part).basinLimit ≤ (s.basin.held.filter (fun e => e.part == l.part)).length →
        exec (.hold tag) s = .next (settle (pumpPushes (rootSkip 16 (basinErr s (mGroup p.mop) l.part eBasinFull p.launch) p 0x0D
          eBasinFull))))) ∧
    (∀ (s t : State) (tag : Nat) (p : Push) (l : Launch) (mine yes : List Held), Live s = true →
      s.pushes.find? (fun p => p.tag == tag && mOpc p.mop == 9 && mBmode p.mop == 2) = some p → kget s.launches p.launch = some l →
      basinTurn s p = true → basinTarget s p = 0 →
      mine = s.basin.held.filter (fun e => e.part == l.part && e.group == mGroup p.mop) →
      yes = mine.filter (fun e => decide (e.idx < mIdx p.mop)) →
      t = { s with basin := { s.basin with
        held := s.basin.held.filter (fun e => !(e.part == l.part && e.group == mGroup p.mop))
        committed := satN 32 (s.basin.committed + yes.length)
        discarded := satN 32 (s.basin.discarded + (mine.length - yes.length)) } } →
      exec (.commit tag) s = .next (settle (basinTook (yes.foldl (fun s e => queuePush s {
          eq := e.eq, launch := p.launch, mop := setFld e.mop 336 2 0, src := 3, be := l.be, node := p.node
          core := if p.src = 2 then p.core else 0 }) (addPend t p yes.length)) p)) ∧
        yes.length ≤ mine.length ∧ (∀ e ∈ t.basin.held, e.part = l.part → e.group ≠ mGroup p.mop)) ∧
    (∀ (s t : State) (old : Held → Bool) (gone : List Held), Live s = true → s.glb.frozen = false →
      old = (fun e => decide (e.tick + 2 ≤ s.sched.tickNo)) → gone = s.basin.held.filter old → gone ≠ [] →
      t = { s with basin := { s.basin with
        held := s.basin.held.filter (fun e => !old e), expCnt := satN 32 (s.basin.expCnt + gone.length) } } →
      exec .basinExpiry s = .next (settle (((gone.map (fun e => e.part * 256 + e.group)).foldl insertNat []).foldl (fun s g =>
        raiseOn (basinErr s (g % 256) (g / 256) eBasinExpired
            ((((gone.filter fun e => e.part * 256 + e.group == g).getLast?).map (·.launch)).getD 0)) eBasinExpired (some (g / 256)) none
          [(.group, g % 256), (.count, (gone.filter fun e => e.part * 256 + e.group == g).length),
            (.launch, ((((gone.filter fun e => e.part * 256 + e.group == g).getLast?).map (·.launch)).getD 0) % 2 ^ 32)]) t)) ∧
      (∀ e ∈ t.basin.held, s.sched.tickNo < e.tick + 2)))

/-- Closure writes (R371–R373): an acknowledgement counts at its instance; the one that completes a held write's count releases
the write; a hold whose count is reached is released at once, one with a higher tag waits. Messages and faults of the links
(R374–R376): the first SET that nothing holds back is sent on its chip's link; a SET to a flag of its partition is queued
there; a message of another kind or for another chip is a protocol error; the fall of xc_up drops the link's SETs; a hold that
waits too long is reported once. -/
def Obligations.Crossing : Prop :=
  (∀ (s t : State) (link : Nat) (w : W32), Live s = true → xcOpen s link = true → groupDead s w = false → t = xcSeen s link →
      (kget s.xing.insts (instKey w) = none → s.xing.insts.length < Config.instMax →
        exec (.xcAck link w) s = .next (settle (setInst t (instKey w) { count := 1, link := link }))) ∧
      (∀ i, kget s.xing.insts (instKey w) = some i → i.held = none → i.released = none →
        exec (.xcAck link w) s = .next (settle (setInst t (instKey w) { i with count := i.count + 1 }))) ∧
      (∀ i n, s.glb.frozen = false → kget s.xing.insts (instKey w) = some i → i.held = some n → i.released = none → xwTag w < n →
        (i.count + 1 = n → ∀ u, u = setInst t (instKey w) { i with count := n, held := some n, released := some n } →
          exec (.xcAck link w) s = .next (settle { u with xing := { u.xing with rel := u.xing.rel ++ [(i.link, n)] } })) ∧
        (i.count + 1 ≠ n → exec (.xcAck link w) s = .next (settle (setInst t (instKey w) { i with count := i.count + 1 })))) ∧
      (∀ i, kget s.xing.insts (instKey w) = some i → i.held = none →
        s.xing.insts.any (fun x => x.2.link == link && x.2.held == some (xwTag w) && x.2.released.isNone) = false →
        (s.glb.frozen = false → i.count = xwTag w →
          ∀ u, u = setInst t (instKey w) { i with link := link, held := some (xwTag w), released := some (xwTag w) } →
          exec (.xcHold link w) s = .next (settle { u with xing := { u.xing with rel := u.xing.rel ++ [(link, xwTag w)] } })) ∧
        (i.count < xwTag w → exec (.xcHold link w) s = .next (settle
          (setInst t (instKey w) { i with link := link, held := some (xwTag w) })))) ∧
      (∀ k i, (setInst t k i).xing.rel = s.xing.rel ∧ (i ≠ {} → kget (setInst t k i).xing.insts k = some i))) ∧
  (∀ (s : State), Live s = true →
      (∀ chip r t, s.glb.frozen = false → xcOpen s ((tget 0#32 s.xing.routes chip).toNat % 8) = true →
        s.xing.sets.find? (fun r => r.chip == chip && !setHeldBack s r.part chip) = some r →
        t = xcSend (modXing s fun x => { x with sets := x.sets.erase r }) chip (setMsg s r r.poison) →
        exec (.remoteSetSend chip) s = .next (settle (setSent t r)) ∧ t.xing.sets = s.xing.sets.erase r ∧
          t.xing.tx = s.xing.tx ++ [((tget 0#32 s.xing.routes chip).toNat % 8, BitVec.ofNat 128 (setMsg s r r.poison))]) ∧
      (∀ link m, s.glb.frozen = false → xcOpen s link = true → xmKind m = 1 → xmDst m = s.xing.chip → flagInRange s (xmPart m) (xmIndex m) = true →
        exec (.xcRx link m) s = .next (settle (queueSigs (xcSeen s link) [{
          src := 400, part := xmPart m, handle := xmIndex m, op := if xmPoison m then 4 else 2, x := xmValue m, launch := 0 }]))) ∧
      (∀ link m t, xcOpen s link = true → (xmKind m = 0 ∨ 4 < xmKind m ∨ xmDst m ≠ s.xing.chip) →
        t = xingErr (xcSeen s link) 0 eXingProtocol link (BitVec.ofNat 32 (fld m 0 32)) →
        exec (.xcRx link m) s = .next (settle t) ∧ t.xing.lastCode = eXingProtocol ∧ t.xing.lastLink = link ∧
          t.xing.lastWord = BitVec.ofNat 32 (fld m 0 32) ∧ t.weir.sigq = s.weir.sigq) ∧
      (∀ link t u gone, link < s.par.xingLinks → (tget {} s.xing.links link).up = true →
        t = xingErr (modXing s fun x => { x with links := tput {} x.links link { tget {} x.links link with up := false } }) 2 eXingLink
          link 0 →
        gone = t.xing.sets.filter (fun r => (tget 0#32 t.xing.routes r.chip).toNat % 8 == link) →
        u = gone.foldl setSent (modXing t fun x => { x with
          sets := x.sets.filter (fun r => !((tget 0#32 t.xing.routes r.chip).toNat % 8 == link)) }) →
        exec (.xcUpFall link) s = .next (settle ((u.xing.waits.filter (fun x => x.2.link == link)).foldl (fun s x =>
          match (kget s.launches x.2.launch).bind (fun l => openEntry l x.2.entry x.2.node) with
          | none => s
          | some e => waitFail s x.2.launch e eWaitPoisoned stAborted (flagAddr s ((getLaunch s x.2.launch).part) e.handle 0))
          (modXing u fun x => { x with waits := x.waits.filter (fun y => y.2.link != link) }))) ∧
        t.xing.lastCode = eXingLink ∧ t.xing.insts = s.xing.insts ∧
        u.xing.sets = s.xing.sets.filter (fun r => !((tget 0#32 s.xing.routes r.chip).toNat % 8 == link))) ∧
      (∀ link group chip n i t, i = tget {} s.xing.insts (group * 64 + chip) → i.held = some n → i.released = none → i.link = link →
        i.late = false →
        t = xingErr (setInst s (group * 64 + chip) { i with late := true }) 1 eXingHoldTimeout link
          (BitVec.ofNat 32 (n + put group 16 + put chip 26)) →
        exec (.holdTimeout link group chip) s = .next (settle t) ∧ t.xing.lastCode = eXingHoldTimeout ∧ t.xing.rel = s.xing.rel))

/-- The berm gate (R418–R421): a request is held until no masked engine has a macro-op presented, or its deadline is reached;
inside the guard band the engines that hold one are made to stop, which is reported once; a grant counts, and one at the
deadline over a busy engine is a miss, its macro-ops cut; the release counts the time granted; a grant too long is reported
once. -/
def Obligations.BermGate : Prop :=
  ∀ (s : State) (a : Nat), AgLive s a = true → bermLive s a = true →
    (∀ d t, (getAgent s a).berm.req = false →
      t = modBerm s a (fun b => { b with req := true, granted := false, forced := false, overlong := false, noPresent := false }) →
      exec (.stkBermReq a d) s = .next (settle (bermGate t a (d % 2 ^ 20))) ∧
      ((getAgent s a).berm.guard < d % 2 ^ 20 ∨ bermBusy s a = [] →
        bermGate t a (d % 2 ^ 20) = modBerm t a fun b => { b with d := d % 2 ^ 20, noPresent := decide (d % 2 ^ 20 ≤ b.hold) }) ∧
      (d % 2 ^ 20 ≤ (getAgent s a).berm.guard → bermBusy s a ≠ [] →
        (getAgent (bermGate t a (d % 2 ^ 20)) a).berm.forced = true ∧
          (getStack (bermGate t a (d % 2 ^ 20)) a).forced = satN 16 ((getStack s a).forced + 1) ∧
          (bermGate t a (d % 2 ^ 20)).stew.errCode = eBermForced)) ∧
    (∀ d, (getAgent s a).berm.req = true → (getAgent s a).berm.granted = false →
      exec (.bermDeadlineBand a d) s = .next (settle (bermGate s a (d % 2 ^ 20)))) ∧
    (∀ t, (getAgent s a).berm.req = true → (getAgent s a).berm.granted = false →
      t = modStack (modBerm s a fun b => { b with granted := true }) a (fun k => { k with berms := satN 32 (k.berms + 1) }) →
      (bermBusy s a = [] → exec (.bermGrant a) s = .next (settle t) ∧
        getAgent t a = { getAgent s a with berm := { (getAgent s a).berm with granted := true } } ∧
        getStack t a = { getStack s a with berms := satN 32 ((getStack s a).berms + 1) }) ∧
      (bermBusy s a ≠ [] → (getAgent s a).berm.d = 0 →
        ∀ u, u = (bermBusy s a).foldl (fun s l => modEq s a l fun q => match presEnt q with
            | some e => putEnt q { e with cut := true }
            | none => q) t →
          exec (.bermGrant a) s = .next (settle (stewNote (modStack u a fun k => { k with misses := satN 16 (k.misses + 1) }) (some 1)
            eRetentionMiss none a false 0 ((bermBusy s a).map fun l => (Item.engineQueue, a * 16 + l)))))) ∧
    (∀ ns t, (getAgent s a).berm.req = true → (getAgent s a).berm.granted = true →
      t = modStack (modBerm s a fun b => { b with
        req := false, granted := false, forced := false, overlong := false, noPresent := false }) a
        (fun k => { k with bermTime := satN 32 (k.bermTime + ns) }) →
      exec (.bermRelease a ns) s = .next (settle t) ∧ (getAgent t a).berm.req = false ∧ (getAgent t a).berm.granted = false) ∧
    (∀ t, (getAgent s a).berm.granted = true → (getAgent s a).berm.overlong = false →
      t = stewNote (modBerm s a fun b => { b with overlong := true }) none eBermOverlong none a false 0 [] →
      exec (.bermOverlong a) s = .next (settle t) ∧ (getAgent t a).berm = { (getAgent s a).berm with overlong := true } ∧
        t.stew.errCode = eBermOverlong)

/-- The Steward's ledger and defects (R427–R434): writes reported below 90 % of the endurance are added to the region's word;
an unmapped region that reaches its endurance is E_WEAR_LIMIT; a region beyond the tier is a mismatch; a defect of an unmapped
unit fences it and hands its spare mark to the new one, of a mapped one moves its mapping. Relocation (R426–R431): a copy that
came through switches the mapping, and waits with it while 256 units await fencing (the model's choice, log entry 69), one that failed
frees its target and is tried again; a unit is fenced once the launches that
were outstanding at the switch are gone; a retry with a spare region starts a copy to it. -/
def Obligations.Steward : Prop :=
  (∀ (s : State) (a : Nat) (report : W64), Live s = true → stewTakes s a = true →
      (∀ w e others n, w.region = fld report 0 24 → fld report 0 24 < (getStack s a).nvUnits → fld report 48 16 = 0 →
        n = min (ledWrites w.led + fld report 24 24) (2 ^ 40 - 1) → ledWorn90 w.led = false → ledWorn100 w.led = false →
        ((getStack s a).endur = 0 ∨ n * 10 < (getStack s a).endur * 9 → exec (.stkWear a report w e others) s =
          .next (settle (writeLed s a (fld report 0 24) (BitVec.ofNat 64 n)))) ∧
        (∀ t, (getStack s a).endur ≠ 0 → (getStack s a).endur ≤ n → dirValid w.dir = false →
          t = wornOut (writeLed s a (fld report 0 24) (BitVec.ofNat 64 (n + 2 ^ 40 + 2 ^ 41))) a (fld report 0 24) w.dir e false →
          exec (.stkWear a report w e others) s = .next (settle t) ∧ t.stew.errCode = eWearLimit ∧ t.stew.errAgent = a ∧
            t.stew.errTier = true ∧ t.stew.errUnit = fld report 0 24 ∧ t.stew.stat.testBit 2 = true ∧
            t.port.writes.length = s.port.writes.length + 1)) ∧
      (∀ w e others, (getStack s a).nvUnits ≤ fld report 0 24 → exec (.stkWear a report w e others) s =
        .next (settle (badReport s a true (fld report 0 24)))) ∧
      (∀ old new e, bitOf report 1 = false → fld report 51 13 = 0 → fld report 2 24 < unitCount s a (bitOf report 0) →
        fld report 26 24 < unitCount s a (bitOf report 0) → bitOf report 50 = true → s.stew.copy = none →
        (dirValid old = false → exec (.stkDefect a report old new e) s = .next (settle (writeDir
          (fenceUnit (stewErr s none eStackDefect none a (bitOf report 0) (fld report 2 24)) a (bitOf report 0) (fld report 2 24) old)
          a (bitOf report 0) (fld report 26 24) (setFld new 27 1 (b2n (dirSpare old)))))) ∧
        (dirValid old = true → entryOk s a (bitOf report 0) (fld report 2 24) e = true →
          exec (.stkDefect a report old new e) s = .next (settle (stewSwitch
            (stewErr s none eStackDefect none a (bitOf report 0) (fld report 2 24)) a (bitOf report 0) (fld report 2 24)
            (fld report 26 24) old new e))))) ∧
  (∀ (s : State), Live s = true →
      (∀ k t, s.stew.copy = some k → k.ended = true → t = modStew s (fun x => { x with copy := none }) →
        (k.ok = true → s.stew.fences.length < 256 → exec (.relocationCopyDone true) s = .next (settle (stewSwitch t
          k.agent true k.region k.target k.word k.tgtWord k.entry))) ∧
        (k.ok = true → 256 ≤ s.stew.fences.length → exec (.relocationCopyDone true) s = .next (settle s)) ∧
        (k.ok = false → exec (.relocationCopyDone false) s = .next (settle (modStew (stewErr
          (writeDir t k.agent true k.target (setFld k.tgtWord 27 1 1)) (some 5) eStewCopyFail none k.agent true k.region) fun x =>
          { x with retry := x.retry ++ [(k.agent, k.region)] })))) ∧
      (∀ a u t f, s.stew.fences.find? (fun f => f.agent == a && f.unit == u && f.tier == t) = some f →
        f.launches.all (fun id => (kget s.launches id).isNone) = true → exec (.unitFence a u t) s = .next (settle (stewAudit
          (fenceUnit (modStew s fun x => { x with fences := x.fences.erase f }) a t u f.word) 2 a t u f.word))) ∧
      (∀ a w e os, stewTakes s a = true → s.stew.copy = none → s.stew.pend.contains (dirPart w.dir, a, w.region) = false →
        s.stew.retry.contains (a, w.region) = true →
        (dirValid w.dir = false → exec (.stewRetry a w e os) s = .next (settle (modStew s fun x =>
          { x with retry := x.retry.filter (fun y => y != (a, w.region)) }))) ∧
        (dirValid w.dir = true → entryOk s a true w.region e = true →
          exec (.stewRetry a w e os) s = .next (settle (startCopy s a w.region w.dir e os)) ∧
          (∀ o, os = [o] → o.region < (getStack s a).nvUnits → o.region ≠ w.region → dirSpare o.dir = true → dirFenced o.dir = false →
            ledWorn90 o.led = false → ledWorn100 o.led = false →
            ∃ k, (startCopy s a w.region w.dir e os).stew.copy = some k ∧ k.agent = a ∧ k.region = w.region ∧ k.target = o.region ∧
              (a, w.region) ∉ (startCopy s a w.region w.dir e os).stew.retry))))

/-- Fault inputs and sources (R58, R80, R440–R443): an onset of a source counts at the Root, or is put into its agent's relay; a
level and a wire fault stay until they end, at the pin and, once its source is looked at, in the Watch's or the agent's state; a
WATCH_EVENT brings an agent's level and count to the Root. -/
def Obligations.FaultInputs : Prop :=
  (∀ (s : State) (i : Nat), Live s = true → rootSampled s = true → srcExists s i = true → i < 256 →
    (s.watch.level.contains i = false → hasLevel i = false → exec (.errPairOnset i) s = .next (settle
      (raiseAt s (if i < 64 then codeOfRoot i else eExtError) i false none))) ∧
    (∀ t u, s.watch.level.contains i = false → hasLevel i = true → t = { s with pins := insertNat s.pins (i * 2) } →
      u = raiseAt (modWatch t fun w => { w with level := insertNat w.level i }) (if i < 64 then codeOfRoot i else eExtError) i false
        none →
      exec (.errPairOnset i) s = .next (settle u) ∧ u.watch.level = insertNat s.watch.level i ∧
        tget 0 u.watch.cnt i = satN 32 (tget 0 s.watch.cnt i + 1)) ∧
    (∀ t u, s.watch.wire.contains i = false → t = { s with pins := insertNat s.pins (i * 2 + 1) } →
      u = raiseAt (modWatch t fun w => { w with wire := insertNat w.wire i }) eWireFault i true none →
      exec (.wireFaultOnset i) s = .next (settle u) ∧ u.watch.wire = insertNat s.watch.wire i ∧
        tget 0 u.watch.cnt i = satN 32 (tget 0 s.watch.cnt i + 1)) ∧
    exec (.errorLevelEnd i false) s = .next (settle { s with
      pins := without s.pins (i * 2), watch := { s.watch with level := without s.watch.level i } })) ∧
  (∀ (s t : State) (a j : Nat), AgLive s a = true → agentSampled s a = true → srcExists s (256 + 32 * a + j) = true → j < 32 →
    (∀ u, hasLevel (256 + 32 * a + j) = true → (getAgent s a).level.contains j = false →
      t = { s with pins := insertNat s.pins ((256 + 32 * a + j) * 2) } →
      u = modAgent t a (fun g => { g with level := insertNat g.level j }) →
      exec (.errPairOnset (256 + 32 * a + j)) s = .next (settle (relayAdd u a j false 1)) ∧
        (getAgent u a).level = insertNat (getAgent s a).level j) ∧
    (∀ u, (getAgent s a).wire.contains j = false → t = { s with pins := insertNat s.pins ((256 + 32 * a + j) * 2 + 1) } →
      u = modAgent t a (fun g => { g with wire := insertNat g.wire j }) →
      exec (.wireFaultOnset (256 + 32 * a + j)) s = .next (settle (relayAdd u a j true 1)) ∧
        (getAgent u a).wire = insertNat (getAgent s a).wire j) ∧
    (∀ u, (getAgent s a).level.contains j = true → t = { s with pins := without s.pins ((256 + 32 * a + j) * 2) } →
      u = modAgent t a (fun g => { g with level := without g.level j }) →
      exec (.errorLevelEnd (256 + 32 * a + j) false) s = .next (settle (relayAdd u a j false 0)) ∧
        (getAgent u a).level = without (getAgent s a).level j)) ∧
  (∀ (s t : State) (a j n : Nat) (l : Bool), Live s = true → upHead s a = some (.watchEvent j false l n) →
    srcExists s (256 + 32 * a + j) = true →
    t = countN n (modWatch (takeUp s a) fun w => { w with
      level := if l then insertNat w.level (256 + 32 * a + j) else without w.level (256 + 32 * a + j) })
      { code := codeOfAgent j, idx := 256 + 32 * a + j, wire := false, part := none, agent := some a } →
    exec (.watchEvent a) s = .next (settle t) ∧ t.watch.level =
        (if l then insertNat s.watch.level (256 + 32 * a + j) else without s.watch.level (256 + 32 * a + j)) ∧
      (n = 1 → tget 0 t.watch.cnt (256 + 32 * a + j) = satN 32 (tget 0 s.watch.cnt (256 + 32 * a + j) + 1)))

/-- Windows (R445): at READY a window that is open and has run its periods closes with its count at 0 and keeps SEVERE; every
other window stays as it is. -/
def Obligations.WindowsClose : Prop :=
  ∀ (s t : State) (ws : Tbl Win), Live s = true → isReady s = true →
    ws = (s.watch.wins.map (·.1)).foldl (fun t k =>
      if (tget {} t k).open_ = true ∧ (tget {} t k).start + (srcCfg s (k / 128) >>> 8) % 65536 ≤ s.sched.tickNo then
        tput {} t k { tget {} t k with open_ := false, n := 0, start := 0, code := 0 }
      else t) s.watch.wins →
    t = { s with watch := { s.watch with wins := ws } } →
    exec .watchWindowClose s = .next (settle t) ∧
      ∀ k, ((tget {} s.watch.wins k).open_ = true →
          (tget {} s.watch.wins k).start + (srcCfg s (k / 128) >>> 8) % 65536 ≤ s.sched.tickNo →
          (tget {} t.watch.wins k).open_ = false ∧ (tget {} t.watch.wins k).n = 0 ∧
          (tget {} t.watch.wins k).severe = (tget {} s.watch.wins k).severe) ∧
        (s.sched.tickNo < (tget {} s.watch.wins k).start + (srcCfg s (k / 128) >>> 8) % 65536 →
          tget {} t.watch.wins k = tget {} s.watch.wins k)

/-- Fences and the end of chip-fail (R450–R454): an agent that is fenced is reset when its reports are in, the launches that still
name it ending first; when the launches' reports have ended every launch ends with E_CHIP_FAIL and the record of 675,904 bytes is
written to the evacuation buffer, or, with no buffer that holds it, left out; the record's response ends the evacuation. -/
def Obligations.FencesAndEvacuation : Prop :=
  ∀ (s : State), Live s = true →
    (∀ a t u v, s.watch.fencing.contains a = true → t = modWatch s (fun w => { w with fencing := without w.fencing a }) →
      u = modStew ((launchesOn t a).foldl (fun s id => leave s id stAborted eAgentFenced) t) (fun x => { x with
        lane := x.lane.filter (fun y => y.1 / 16 != a), pushq := x.pushq.filter (fun m => m.eq / 16 != a)
        copy := x.copy.map (fun k => if k.agent = a then { k with ended := true, ok := false } else k) }) →
      v = { u with outf := { u.outf with counted := u.outf.counted.filter (fun y => y.1 / 2 ^ 20 != a) } } →
      exec (.fenceReset a) s = .next (settle (sendDown v a (.agentReset 3))) ∧ t.watch.fencing = without s.watch.fencing a ∧
      (launchesOn s a = [] → v.launches = s.launches)) ∧
    (∀ t, s.glb.frozen = true → s.watch.failStep = 4 →
      t = modWatch (s.launches.foldl (fun s x => leaveOne s x.1 stAborted eChipFail) s) (fun w =>
        { w with incomplete := s.launches.any (fun x => !isDone x.2 && !x.2.outs.isEmpty) }) →
      (s.watch.evacSize * 65536 < 675904 →
        exec .chipFailReportsEnd s = .next (settle (evacEnd (modWatch t fun w => { w with evacNobase := true })))) ∧
      (675904 ≤ s.watch.evacSize * 65536 →
        exec .chipFailReportsEnd s = .next (settle (modWatch (mgrWrite t 0x40 s.watch.evacBase.toNat 675904 (evacRecord t) .evac).2
          fun w => { w with failStep := 6 })))) ∧
    (∀ w ok t, s.port.writes.find? (fun w => decide (w.kind = .evac)) = some w →
      t = (if ok then mgrDone s w.txn else raiseOn (modGlb (mgrDone s w.txn) fun g => { g with evacWfault := true }) eHostWriteFault none
        none [(.addr, w.addr)]) →
      exec (.evacWriteDone ok) s = .next (settle (evacEnd t)) ∧ (evacEnd t).watch.evacDone = true ∧ (evacEnd t).watch.failStep = 7 ∧
        t.port.writes = s.port.writes.filter (fun v => v.txn != w.txn) ∧ (ok = false → t.glb.evacWfault = true))

/-- Mode changes between Root and agents (R486–R490): STAGE puts the change down at the agent, which answers when it can; an
acknowledgement counts, a refusal aborts; the deadline commits what every participant acknowledged and aborts the rest; COMMIT
and ABORT reach the agent; the switch tick applies the items and ends the change. TICK at an agent (R28, R53, R55): its number and
period stand at the agent, whose tick instants follow one another by the period; a late one raises E_TICK_LATE with its number;
an agent that has staged no change does no more. -/
def Obligations.ModeChange : Prop :=
  ((∀ (s t : State) (a n num tick lat : Nat) (its : BitVec 384) (ok : Bool), AgLive s a = true →
      downHead s a = some (.modeStage 1 n num tick its) →
      t = modAgent (takeDown s a) a (fun g => { g with
        mode := { staged := true, number := num, tick := tick, its := its, items := n }, core := { g.core with staged := true } }) →
      (agentAnswer (getAgent t a) ok lat = none → exec (.stage a ok lat) s = .next (settle t)) ∧
      (∀ r c e u, agentAnswer (getAgent t a) ok lat = some (r, c, e) →
        u = modAgent t a (fun g => { g with mode := { g.mode with acked := true, latency := lat } }) →
        exec (.stage a ok lat) s = .next (settle (sendUp
          (if r = 1 then modSvc u fun v => { v with recal := kput v.recal a lat } else u) a (.modeAck r c e num)))) ∧
      (getAgent t a).mode.its = its ∧ (getAgent t a).core.staged = true) ∧
    (∀ (s : State) (a c e num : Nat), Live s = true → s.svc.mc.state = 1 → s.svc.mc.number = num →
      (upHead s a = some (.modeAck 1 c e num) → exec (.modeAck a) s = .next (settle (modSvc (takeUp s a) fun v =>
        { v with mc := { v.mc with acked := insertNat v.mc.acked a } }))) ∧
      (upHead s a = some (.modeAck 2 c e num) →
        exec (.modeAck a) s = .next (settle (mcAbort (takeUp s a) 3 (BitVec.ofNat 64 (2 ^ a)) 0)))) ∧
    (∀ (s : State) (lag rlag : List Nat), Live s = true → s.svc.mc.state = 1 →
      lag = (mcAgents s).filter (fun a => !s.svc.mc.acked.contains a) → rlag = (mcCores s).filter (fun c => !coreAcks s c) →
      (lag = [] → rlag = [] → exec .modeDeadline s = .next (settle (mcTell (modeAudit
        { s with svc := { s.svc with mc := { s.svc.mc with state := 2 } } } 2) 2))) ∧
      (lag ≠ [] ∨ rlag ≠ [] → exec .modeDeadline s = .next (settle (mcAbort s 2 (BitVec.ofNat 64 (sumBy (fun a => 2 ^ a) lag))
        (sumBy (fun c => 2 ^ (c - 0x300)) rlag)))) ∧
      (∀ r l k, (mcAbort s r l k).svc.mc.state = 0 ∧ (mcAbort s r l k).svc.mc.result = r)) ∧
    (∀ (s t : State) (a n num tick : Nat) (its : BitVec 384), AgLive s a = true → (getAgent s a).mode.staged = true →
      (getAgent s a).mode.number = num →
      (downHead s a = some (.modeStage 2 n num tick its) → exec (.modeCommitOrAbort a) s = .next (settle
        (modAgent (takeDown s a) a fun g => { g with mode := { g.mode with committed := true } }))) ∧
      (downHead s a = some (.modeStage 3 n num tick its) →
        t = modAgent (takeDown s a) a (fun g => { g with mode := {}, core := { g.core with staged := false } }) →
        exec (.modeCommitOrAbort a) s = .next (settle (agentNext t a)) ∧
        getAgent t a = { getAgent s a with mode := {}, core := { (getAgent s a).core with staged := false } })) ∧
    (∀ (s t : State), Live s = true → s.svc.mc.state = 2 → s.svc.mc.tick ≤ s.sched.tickNo → t = modeEnd (modeApply s) 1 false 0 0 →
      exec .modeSwitch s = .next (settle t) ∧ t.svc.mc.state = 0 ∧ t.svc.mc.result = 1 ∧
      (∀ i, s.svc.mc.its = [i] → itKind i = 1 → t.sched = { s.sched with period := itValue i }))) ∧
  (∀ (s t u : State) (a no period now at_ : Nat), AgLive s a = true → downHead s a = some (.tick no period) →
      at_ = tickInstant (getAgent s a) now →
      t = (if at_ + 50 < now then raiseOn (takeDown s a) eTickLate none (some a) [(.tick, no)] else takeDown s a) →
      u = modAgent t a (fun g => agentSwitch { g with tickNo := no, period := period, tickAt := some at_ } no) →
      exec (.tick a now) s = .next (settle (agentNext u a)) ∧ t.sched = s.sched ∧
      ((getAgent s a).mode.staged = false →
        getAgent u a = { getAgent s a with tickNo := no, period := period, tickAt := some at_ }) ∧
      (∀ k, (getAgent s a).tickAt = some k → at_ = k + 10 * (getAgent s a).period))

/-- Drains (R491): an agent with nothing left leaves service, reset; one that runs past its time has its launches aborted and
counted. Ageing (R481–R483): an evaluation keeps the Root's reading and the highest drift; a drift that comes to the warning
level sets its bit; pm_done puts its die at the level asked for. The audit log's spill (R498–R500): a burst of at most 32
entries goes to the ring's next place; its response takes the entries out and moves TAIL, a fault loses them. -/
def Obligations.ServiceLife : Prop :=
  (∀ (s : State) (a : Nat) (d : Drain), Live s = true → kget s.svc.draining a = some d →
      (drainClear s a = true → exec (.drainEnd a) s = .next (settle (drainFinish s a d)) ∧
        (a < 64 → agtUp (drainFinish s a d) a = false ∧ agtExcluded (drainFinish s a d) a = true ∧
          fld (agtEntry (drainFinish s a d) a) 40 4 = 7) ∧ (drainFinish s a d).svc.draining = kdel s.svc.draining a) ∧
      (∀ n t, d.late = false → n = (workOn s a).length →
        t = modSvc s (fun v => { v with draining := kput v.draining a { d with late := true, failed := n } }) →
        exec (.drainTmoExpiry a) s = .next (settle (loseTasks ((workOn s a).foldl (fun s id => sendAbort s a id) (stewAbort t (some a))) a)) ∧
        kget t.svc.draining a = some { d with late := true, failed := n })) ∧
  (∀ (s : State), Live s = true →
      (∀ w t, isReady s = true → s.svc.mode = 1 → s.sched.tickNo % max 1 s.svc.interval = 0 → bitOf w 20 = true →
        t = ageEvents { s with svc := { s.svc with ageRoot := w, driftMax := fld w 0 12, driftAgent := 0, driftRoot := true } } 64 w →
        exec (.ageEvaluation [(64, w)]) s = .next (settle t) ∧ t.svc.ageRoot = w ∧ t.svc.driftMax = fld w 0 12 ∧
          t.svc.driftRoot = true ∧
          (s.svc.driftWarn ≤ fld w 0 12 → s.svc.wasAbove.contains 64 = false → t.svc.ageBits.testBit 21 = true) ∧
          (fld w 0 12 < s.svc.driftWarn → fld w 0 12 < s.svc.driftLimit → s.svc.slackMin ≤ fld w 12 8 →
            t.svc.ageBits = s.svc.ageBits)) ∧
      (∀ die lv mhz t u, kget s.svc.pmOut die = some lv →
        t = audit (modSvc s fun v => { v with dieLevel := tput 0 v.dieLevel die lv, pmOut := kdel v.pmOut die }) 10 0x7F 8 3 die
          (tget 0 (tput 0 s.svc.dieLevel die lv) die) →
        u = (if die = 0 then modGlb t fun g => { g with rootMhz := mhz % 4096 } else t) →
        exec (.pmDone die mhz) s = .next (settle (if agtUp u die then modSched u fun c => { c with measNext := kput c.measNext die mhz }
          else u)) ∧
        t.svc.dieLevel = tput 0 s.svc.dieLevel die lv ∧ t.svc.pmOut = kdel s.svc.pmOut die)) ∧
  (∀ (s : State) (n : Nat), Live s = true →
      (isReady s = true → s.log.spill = true → s.log.inflight = 0 → 0 < n →
        n = min 32 (min s.log.entries.length (min (ringSize s - s.log.tail % ringSize s) (ringSize s - 1 - ringUsed s))) →
        ∀ t, t = (mgrWrite s 0x40 (s.log.ringBase.toNat + s.log.tail * 32) (32 * n)
            (pack ((s.log.entries.take n).map fun e => (256, e.toNat))) (.spill n)).2 →
          exec .logSpillWrite s = .next (settle { t with log := { t.log with inflight := n } }) ∧ n ≤ 32) ∧
      (∀ w t, s.port.writes.find? spillOf = some w → w.kind = .spill n →
        t = modLog (mgrDone s w.txn) (fun l => { l with entries := l.entries.drop n, inflight := 0 }) →
        (∀ u, u = modLog t (fun l => { l with tail := (l.tail + n) % 2 ^ l.ringLog2 }) →
          exec (.logSpillResponse true) s = .next (settle (vecsRelease
            (if u.log.thresh ≤ ringUsed u then reqVec u 4360 else u) w.txn)) ∧ u.log.entries = s.log.entries.drop n) ∧
        exec (.logSpillResponse false) s = .next (settle (spillDone s w.txn n false)) ∧
        (spillDone s w.txn n false).log.spillFault = true ∧ (spillDone s w.txn n false).log.tail = s.log.tail))

/-- A flit received (R54): the next one in order that ends a message delivers it; one already received, and one that is bad,
deliver nothing and leave the next SEQ as it is. REPLAY_REQ (R54): every flit kept from the named SEQ on counts one replay more;
a flit replayed for the eighth time is a link fault. Loop-backs (R77, R504–R510): the Root sends the next exchange of a run; the
agent sends a payload back as it came; an answer that is what was sent counts as good with its round trip, a missing one as
bad. -/
def Obligations.FlitsAndReplay : Prop :=
  (∀ (s t : State) (a : Nat) (f : W512) (m : Msg), AgLive s a = true → (getLink s a).up = true → t = flitTake s .down a f →
      exec (.flitReceive .down a f) s = .next (settle t) ∧
      (flitKind (getLink s a).downRx f = .wanted → bitOf f 5 = false → fld f 0 5 ≤ 16 → msgDir .down m = true →
        msgDecode (fld f 0 5) (joinPayload ((getLink s a).downRx.acc ++ [BitVec.ofNat 416 (fld f 64 416)])) = some m →
          (getLink t a).downRx.inbox = (getLink s a).downRx.inbox ++ [m] ∧ (getLink t a).downRx.acc = [] ∧
          (getLink t a).downRx.next = ((getLink s a).downRx.next + 1) % 4096) ∧
      (flitKind (getLink s a).downRx f = .old ∨ flitKind (getLink s a).downRx f = .bad →
          (getLink t a).downRx.inbox = (getLink s a).downRx.inbox ∧ (getLink t a).downRx.acc = (getLink s a).downRx.acc ∧
          (getLink t a).downRx.next = (getLink s a).downRx.next)) ∧
  (∀ (s t : State) (a seq : Nat), AgLive s a = true → downHead s a = some (.replayReq seq) →
      t = modLink s a (fun k => { k with
        downRx := { k.downRx with inbox := k.downRx.inbox.drop 1 }, upTx := replayMark k.upTx seq }) →
      ((replayMark (getLink s a).upTx seq).replays.all (fun r => decide (r.2 < 8)) = true →
        exec (.replayReq .down a) s = .next (settle t)) ∧
      ((replayMark (getLink s a).upTx seq).replays.all (fun r => decide (r.2 < 8)) = false →
        exec (.replayReq .down a) s = .next (settle (linkFault t a)) ∧ (getLink (linkFault t a) a).up = false ∧
        (getLink (linkFault t a) a).fault = true)) ∧
  (∀ (k : TxSide) (seq : Nat), ((k.unacked.map (·.1)).Nodup → ∀ n,
      tget 0 (replayMark k seq).replays n = tget 0 k.replays n +
        (if n ∈ (k.unacked.dropWhile (fun x => x.1 != seq)).map (·.1) then 1 else 0))) ∧
  ((∀ (s u : State) (a k : Nat) (body : BitVec 416), Live s = true → s.lb.flight.any (fun x => x.agent == a) = false →
      bringEx s a = none → s.lb.busy = true → s.glb.frozen = false → s.lb.members.contains a = true → k = tget 0 s.lb.next a →
      k < s.lb.count → s.lb.point = 4 ∨ s.lb.point = 5 → body = lbPayload (lbSub s.lb.point) (lbSeed s a k) →
      u = modLb s (fun b => { b with
        next := tput 0 b.next a (k + 1), flight := b.flight ++ [{ agent := a, k := k, sent := body }] }) →
      exec (.loopbackSend a) s = .next (settle (sendDown u a (.loopback (lbSub s.lb.point) body)))) ∧
    (∀ (s : State) (a sub : Nat) (body : BitVec 416), AgLive s a = true → downHead s a = some (.loopback sub body) → sub = 1 ∨ sub = 2 →
      exec (.loopback a) s = .next (settle (sendUp (takeDown s a) a (.loopback sub body)))) ∧
    (∀ (s : State) (a sub rtt ph mhz : Nat) (by_ body : BitVec 416) (x : LbEx), Live s = true →
      upHead s a = some (.loopback sub body) → s.lb.flight.find? (fun x => x.agent == a) = some x → bringEx s a = none →
      s.lb.busy = true → s.lb.point = 4 ∨ s.lb.point = 5 →
      exec (.loopbackAnswer a rtt ph mhz by_) s = .next (settle (lbAnswer (takeUp s a) x (lbDiff x.sent body) rtt)) ∧
      (∀ t, lbDiff x.sent x.sent = none ∧ (t = lbAnswer s x none rtt → t.lb.exch = s.lb.exch + 1 ∧ t.lb.good = s.lb.good + 1 ∧
        t.lb.bad = s.lb.bad ∧ t.lb.rttSum = s.lb.rttSum + rtt ∧ t.lb.flight = s.lb.flight.erase x))) ∧
    (∀ (s t : State) (a : Nat) (x : LbEx), Live s = true → s.lb.flight.find? (fun x => x.agent == a) = some x → bringEx s a = none →
      s.lb.busy = true → t = lbAnswer s x (some (0x3F, 0)) 0 →
      exec (.loopbackTimeout a) s = .next (settle t) ∧ t.lb.exch = s.lb.exch + 1 ∧ t.lb.bad = s.lb.bad + 1 ∧
        t.lb.good = s.lb.good ∧ t.lb.flight = s.lb.flight.erase x))

/-- A flit's fields and CRC (R51): TYPE, CONT, SEQ and payload stand in the flit as given, and its CRC is good. Every
well-formed message that one end cuts into flits arrives as it was (R51–R54): received in order, its flits deliver exactly this
message, whatever the SEQ, the acknowledgement and the credits they carry. -/
def Obligations.MessagesArrive : Prop :=
  (∀ (ty agent seq ack credits : Nat) (cont : Bool) (pl : BitVec 416), ty < 32 → agent < 64 → seq < 4096 → ack < 4096 → credits < 256 →
      flitCrcOk (mkFlit ty cont agent seq ack credits pl) = true ∧ fld (mkFlit ty cont agent seq ack credits pl) 0 5 = ty ∧
      bitOf (mkFlit ty cont agent seq ack credits pl) 5 = cont ∧ fld (mkFlit ty cont agent seq ack credits pl) 8 6 = agent ∧
      fld (mkFlit ty cont agent seq ack credits pl) 16 12 = seq ∧ fld (mkFlit ty cont agent seq ack credits pl) 28 12 = ack ∧
      fld (mkFlit ty cont agent seq ack credits pl) 40 8 = credits ∧
      BitVec.ofNat 416 (fld (mkFlit ty cont agent seq ack credits pl) 64 416) = pl) ∧
  (∀ (d : Dir) (m : Msg) (r : RxSide) (a ack credits : Nat), msgWf m = true → msgDir d m = true → r.acc = [] →
      ((cutFlits (msgType m) (msgFlits m) (msgPayload m)).foldl
        (fun (r : RxSide) (x : Nat × Bool × BitVec 416) => (rxWanted d r (mkFlit x.1 x.2.1 a r.next ack credits x.2.2)).1) r).inbox
        = r.inbox ++ [m])
end

