-- ==== Sys2Proof/Laws/Issue.lean ====
section
/-! SUPPORT. Issue of an instruction: what the operations that every instruction passes through answer, once. -/

namespace Sys2Proof.Laws
open Sys2Proof.Machine

/-- A Root command of a live Root answers a next state. -/
theorem liveRoot_next {s : State} (h : Live s = true) (f : State → State) : liveRoot s f = .next (settle (f s)) := by
  simp [Live] at h
  simp [liveRoot, h.1, h.2]

/-- A command of a live agent answers a next state. -/
theorem liveAgent_next {s : State} {a : Nat} (h : AgLive s a = true) (f : State → State) :
    liveAgent s a f = .next (settle (f s)) := by
  simp [AgLive] at h
  simp [liveAgent, h.1, h.2]

theorem liveCore_next {s : State} {core : Nat} (h : CoreLive s core = true) (f : State → State) :
    liveCore s core f = .next (settle (f s)) := by
  unfold liveCore
  unfold CoreLive at h
  split <;> rename_i hc
  · rw [if_pos hc] at h; exact liveRoot_next h f
  · rw [if_neg hc] at h; exact liveAgent_next h f

theorem Open_live {s : State} (h : Open s = true) : Live s = true := by
  simp [Open, isReady] at h
  simp [Live, h.1.1, h.1.2]

theorem Runs_parts {s : State} {core slot : Nat} {c : Ctx} (h : Runs s core slot c = true) :
    CoreLive s core = true ∧ coreOk core = true ∧ running s core = some (slot, c) ∧ c.st = .running ∧ c.stall = none := by
  simp only [Runs, Bool.and_eq_true, decide_eq_true_eq, Option.isNone_iff_eq_none] at h
  exact ⟨h.1.1.1.1, h.1.1.1.2, h.1.1.2, h.1.2, h.2⟩

theorem Issues_parts {s : State} {core slot : Nat} {c : Ctx} (h : Issues s core slot c = true) :
    Runs s core slot c = true ∧ fetchOf s core c = .ok := by
  simpa [Issues] using h

/-- An instruction that issues with a sound encoding is carried out on the context that runs. -/
theorem issueV_ok {s : State} {core slot : Nat} {c : Ctx} (h : Issues s core slot c = true) (k : State → Nat → Ctx → State) :
    issueV s core true k = k (touchCode s c) slot c := by
  obtain ⟨hr, hf⟩ := Issues_parts h
  obtain ⟨-, hok, hrun, hst, hstall⟩ := Runs_parts hr
  simp [issueV, hok, hrun, hst, hstall, hf]

/-- Under a scalar guard that holds. -/
theorem issue_ok {s : State} {core slot : Nat} {c : Ctx} (h : Issues s core slot c = true) {pg : Nat} {pn : Bool}
    (hg : guardOn c pg pn = true) (k : State → Nat → Ctx → State) : issue s core pg pn true k = k (touchCode s c) slot c := by
  simp [issue, issueV_ok h, hg]

/-- Under a scalar guard that does not hold the instruction retires and changes nothing else. -/
theorem issue_off {s : State} {core slot : Nat} {c : Ctx} (h : Issues s core slot c = true) {pg : Nat} {pn : Bool}
    (hg : guardOn c pg pn = false) (k : State → Nat → Ctx → State) : issue s core pg pn true k = retired s core slot c c := by
  simp [issue, issueV_ok h, hg, retired]

theorem coreLive_of {s : State} {core slot : Nat} {c : Ctx} (h : Issues s core slot c = true) : CoreLive s core = true :=
  (Runs_parts (Issues_parts h).1).1

theorem issueR_ok {i : FR} {enc : Bool} {s : State} {slot : Nat} {c : Ctx} (h : Issues s i.core slot c = true)
    (hg : guardOn c i.pg i.pn = true) (he : enc = true) (k : State → Nat → Ctx → State) :
    issueR i enc s k = .next (settle (k (touchCode s c) slot c)) := by
  subst he; simp [issueR, liveCore_next (coreLive_of h), issue_ok h hg]

theorem issueI_ok {i : FI} {enc : Bool} {s : State} {slot : Nat} {c : Ctx} (h : Issues s i.core slot c = true)
    (hg : guardOn c i.pg i.pn = true) (he : enc = true) (k : State → Nat → Ctx → State) :
    issueI i enc s k = .next (settle (k (touchCode s c) slot c)) := by
  subst he; simp [issueI, liveCore_next (coreLive_of h), issue_ok h hg]

theorem issueLanes_ok {i : FV} {enc : Bool} {s : State} {slot : Nat} {c : Ctx} (h : Issues s i.core slot c = true)
    (he : enc = true) (k : State → Nat → Ctx → State) :
    issueLanes i enc s k = .next (settle (k (touchCode s c) slot c)) := by
  subst he; simp [issueLanes, liveCore_next (coreLive_of h), issueV_ok h]

theorem issueWhole_ok {i : FV} {enc : Bool} {s : State} {slot : Nat} {c : Ctx} (h : Issues s i.core slot c = true)
    (hg : guardOn c i.pg i.pn = true) (he : enc = true) (k : State → Nat → Ctx → State) :
    issueWhole i enc s k = .next (settle (k (touchCode s c) slot c)) := by
  subst he; simp [issueWhole, liveCore_next (coreLive_of h), issue_ok h hg]

/-- A scalar register holds 64 bits. -/
theorem sReg_lt (c : Ctx) (i : Nat) : sReg c i < 2 ^ 64 := by
  unfold sReg; split
  · decide
  · exact BitVec.isLt _

@[simp] theorem sVal_toNat (c : Ctx) (i : Nat) : (sVal c i).toNat = sReg c i := by
  rw [sVal, BitVec.toNat_ofNat]; exact Nat.mod_eq_of_lt (sReg_lt c i)

/-- Only the 64 bits of a value written matter. -/
theorem setS_congr {c : Ctx} {d x y : Nat} (h : BitVec.ofNat 64 x = BitVec.ofNat 64 y) : setS c d x = setS c d y := by
  simp [setS, h]

end Sys2Proof.Laws
end

