-- ==== Sys2Proof/Laws/Tables.lean ====
section
/-! SUPPORT. Sparse tables and byte memories: every operation keeps the canonical form, a read after a write to the same key gives the
value written, and a write leaves every other key alone. -/

namespace Sys2Proof.Laws
open Sys2Proof.Machine

variable {α : Type} [DecidableEq α] {d x : α} {t : Tbl α} {b i j : Nat}

theorem tblWf_cons {k : Nat} {v : α} : tblWf d b ((k, v) :: t) = true ↔ b ≤ k ∧ v ≠ d ∧ tblWf d (k + 1) t = true := by
  simp [tblWf, and_assoc]

theorem tblWf_weaken (h : tblWf d b t = true) {c : Nat} (hc : c ≤ b) : tblWf d c t = true := by
  cases t with
  | nil => rfl
  | cons y t => rw [tblWf_cons] at h ⊢; exact ⟨Nat.le_trans hc h.1, h.2⟩

theorem tblWf_kput (h : tblWf d b t = true) (hi : b ≤ i) (hx : x ≠ d) : tblWf d b (kput t i x) = true := by
  induction t generalizing b with
  | nil => simp [kput, tblWf, hi, hx]
  | cons y t ih =>
    obtain ⟨k, v⟩ := y
    rw [tblWf_cons] at h
    unfold kput
    split
    · rw [tblWf_cons, tblWf_cons]; exact ⟨hi, hx, by omega, h.2⟩
    · split
      · rw [tblWf_cons]; subst i; exact ⟨hi, hx, h.2.2⟩
      · rw [tblWf_cons]; exact ⟨h.1, h.2.1, ih h.2.2 (by omega)⟩

theorem tblWf_kdel (h : tblWf d b t = true) : tblWf d b (kdel t i) = true := by
  induction t generalizing b with
  | nil => rfl
  | cons y t ih =>
    obtain ⟨k, v⟩ := y
    rw [tblWf_cons] at h
    by_cases hk : k = i
    · simpa [kdel, hk] using tblWf_weaken (ih h.2.2) (Nat.le_trans h.1 (Nat.le_succ k))
    · simpa [kdel, hk, tblWf_cons] using ⟨h.1, h.2.1, ih h.2.2⟩

/-- A write keeps the canonical form. -/
theorem tblWf_tput (h : tblWf d b t = true) (hi : b ≤ i) : tblWf d b (tput d t i x) = true := by
  unfold tput
  split
  · exact tblWf_kdel h
  · exact tblWf_kput h hi ‹_›

omit [DecidableEq α] in
theorem tget_kput_self : tget d (kput t i x) i = x := by
  induction t with
  | nil => simp [kput, tget]
  | cons y t ih =>
    unfold kput
    split
    · simp [tget]
    · split
      · simp [tget]
      · rw [tget, if_neg (by omega), ih]

omit [DecidableEq α] in
theorem tget_kput_ne (h : i ≠ j) : tget d (kput t i x) j = tget d t j := by
  induction t with
  | nil => simp [kput, tget, h]
  | cons y t ih =>
    unfold kput
    split
    · rw [tget, if_neg h]
    · split
      · subst i; rw [tget, if_neg h, tget, if_neg h]
      · simp only [tget, ih]

omit [DecidableEq α] in
theorem tget_kdel_self : tget d (kdel t i) i = d := by
  induction t with
  | nil => rfl
  | cons y t ih => by_cases hk : y.1 = i <;> simp_all [kdel, tget]

omit [DecidableEq α] in
theorem tget_kdel_ne (h : i ≠ j) : tget d (kdel t i) j = tget d t j := by
  induction t with
  | nil => rfl
  | cons y t ih => by_cases hk : y.1 = i <;> simp_all [kdel, tget]

/-- A read after a write to the same key gives the value written, in every table. -/
theorem tget_tput_self : tget d (tput d t i x) i = x := by
  unfold tput
  split
  · rename_i hx; rw [tget_kdel_self, hx]
  · exact tget_kput_self

/-- A write leaves every other key alone. -/
theorem tget_tput_ne (h : i ≠ j) : tget d (tput d t i x) j = tget d t j := by
  unfold tput
  split
  · exact tget_kdel_ne h
  · exact tget_kput_ne h

omit [DecidableEq α] in
theorem kget_kput_self {t : List (Nat × α)} : kget (kput t i x) i = some x := by
  induction t with
  | nil => simp [kput, kget]
  | cons y t ih =>
    unfold kput
    split
    · simp [kget]
    · split
      · simp [kget]
      · rw [kget, if_neg (by omega), ih]

omit [DecidableEq α] in
theorem kget_kput_ne {t : List (Nat × α)} (h : i ≠ j) : kget (kput t i x) j = kget t j := by
  induction t with
  | nil => simp [kput, kget, h]
  | cons y t ih =>
    unfold kput
    split
    · rw [kget, if_neg h]
    · split
      · subst i; rw [kget, if_neg h, kget, if_neg h]
      · simp only [kget, ih]

omit [DecidableEq α] in
theorem kget_kdel_self {t : List (Nat × α)} : kget (kdel t i) i = none := by
  induction t with
  | nil => rfl
  | cons y t ih => by_cases hk : y.1 = i <;> simp_all [kdel, kget]

omit [DecidableEq α] in
theorem kget_kdel_ne {t : List (Nat × α)} (h : i ≠ j) : kget (kdel t i) j = kget t j := by
  induction t with
  | nil => rfl
  | cons y t ih => by_cases hk : y.1 = i <;> simp_all [kdel, kget]

variable {m : List Host.Cell} {a c n v : Nat} {e : Byte}

/-- The memory of a core right after reset has the canonical form. -/
theorem memWf_reset : memWf [] = true := rfl

/-- Writing a byte keeps the canonical form. -/
theorem memWf_writeByte (h : memWf m = true) : memWf (writeByte m a e) = true := tblWf_tput h (Nat.zero_le _)

theorem readByte_writeByte_self : readByte (writeByte m a e) a = e := tget_tput_self

theorem readByte_writeByte_ne (hac : a ≠ c) : readByte (writeByte m a e) c = readByte m c := tget_tput_ne hac

/-- Writing bytes keeps the canonical form. -/
theorem memWf_writeBytes (h : memWf m = true) : memWf (writeBytes m a v n) = true := by
  induction n generalizing m a v with
  | zero => exact h
  | succ n ih => exact ih (memWf_writeByte h)

/-- Writing bytes leaves every byte outside them alone. -/
theorem readByte_writeBytes_out (hc : c < a ∨ a + n ≤ c) : readByte (writeBytes m a v n) c = readByte m c := by
  induction n generalizing m a v with
  | zero => rfl
  | succ n ih => rw [writeBytes, ih (by omega), readByte_writeByte_ne (by omega)]

/-- Reading the bytes written gives the value, cut to their number. -/
theorem readBytes_writeBytes : readBytes (writeBytes m a v n) a n = v % 256 ^ n := by
  induction n generalizing m a v with
  | zero => simp [readBytes, Nat.mod_one]
  | succ n ih =>
    rw [readBytes, writeBytes, ih, readByte_writeBytes_out (by omega), readByte_writeByte_self, Nat.pow_succ,
      Nat.mul_comm (256 ^ n), Nat.mod_mul]
    simp

end Sys2Proof.Laws
end

