-- ==== Sys2Proof/Laws/State.lean ====
section
/-! SUPPORT. What an update of one record of the state leaves of every other: one lemma per field per update. -/

namespace Sys2Proof.Laws
open Sys2Proof.Machine

variable (s : State)

@[simp] theorem modPart_par (p : Nat) (f : Part → Part) : (modPart s p f).par = s.par := rfl
@[simp] theorem modPart_glb (p : Nat) (f : Part → Part) : (modPart s p f).glb = s.glb := rfl
@[simp] theorem modPart_port (p : Nat) (f : Part → Part) : (modPart s p f).port = s.port := rfl
@[simp] theorem modPart_evt (p : Nat) (f : Part → Part) : (modPart s p f).evt = s.evt := rfl
@[simp] theorem modPart_log (p : Nat) (f : Part → Part) : (modPart s p f).log = s.log := rfl
@[simp] theorem modPart_watch (p : Nat) (f : Part → Part) : (modPart s p f).watch = s.watch := rfl
@[simp] theorem modPart_svc (p : Nat) (f : Part → Part) : (modPart s p f).svc = s.svc := rfl
@[simp] theorem modPart_lb (p : Nat) (f : Part → Part) : (modPart s p f).lb = s.lb := rfl
@[simp] theorem modPart_test (p : Nat) (f : Part → Part) : (modPart s p f).test = s.test := rfl
@[simp] theorem modPart_links (p : Nat) (f : Part → Part) : (modPart s p f).links = s.links := rfl
@[simp] theorem modPart_agents (p : Nat) (f : Part → Part) : (modPart s p f).agents = s.agents := rfl
@[simp] theorem modPart_adms (p : Nat) (f : Part → Part) : (modPart s p f).adms = s.adms := rfl
@[simp] theorem modPart_admRr (p : Nat) (f : Part → Part) : (modPart s p f).admRr = s.admRr := rfl
@[simp] theorem modPart_seqs (p : Nat) (f : Part → Part) : (modPart s p f).seqs = s.seqs := rfl
@[simp] theorem modPart_queues (p : Nat) (f : Part → Part) : (modPart s p f).queues = s.queues := rfl
@[simp] theorem modPart_inlet (p : Nat) (f : Part → Part) : (modPart s p f).inlet = s.inlet := rfl
@[simp] theorem modPart_launches (p : Nat) (f : Part → Part) : (modPart s p f).launches = s.launches := rfl
@[simp] theorem modPart_pushes (p : Nat) (f : Part → Part) : (modPart s p f).pushes = s.pushes := rfl
@[simp] theorem modPart_hcache (p : Nat) (f : Part → Part) : (modPart s p f).hcache = s.hcache := rfl
@[simp] theorem modPart_weir (p : Nat) (f : Part → Part) : (modPart s p f).weir = s.weir := rfl
@[simp] theorem modPart_gctxs (p : Nat) (f : Part → Part) : (modPart s p f).gctxs = s.gctxs := rfl
@[simp] theorem modPart_arenas (p : Nat) (f : Part → Part) : (modPart s p f).arenas = s.arenas := rfl
@[simp] theorem modPart_ccache (p : Nat) (f : Part → Part) : (modPart s p f).ccache = s.ccache := rfl
@[simp] theorem modPart_iz (p : Nat) (f : Part → Part) : (modPart s p f).iz = s.iz := rfl
@[simp] theorem modPart_sched (p : Nat) (f : Part → Part) : (modPart s p f).sched = s.sched := rfl
@[simp] theorem modPart_cores (p : Nat) (f : Part → Part) : (modPart s p f).cores = s.cores := rfl
@[simp] theorem modPart_ctxs (p : Nat) (f : Part → Part) : (modPart s p f).ctxs = s.ctxs := rfl
@[simp] theorem modPart_save (p : Nat) (f : Part → Part) : (modPart s p f).save = s.save := rfl
@[simp] theorem modPart_attn (p : Nat) (f : Part → Part) : (modPart s p f).attn = s.attn := rfl
@[simp] theorem modPart_pins (p : Nat) (f : Part → Part) : (modPart s p f).pins = s.pins := rfl
@[simp] theorem modPart_snap (p : Nat) (f : Part → Part) : (modPart s p f).snap = s.snap := rfl
@[simp] theorem modPart_basin (p : Nat) (f : Part → Part) : (modPart s p f).basin = s.basin := rfl
@[simp] theorem modPart_outf (p : Nat) (f : Part → Part) : (modPart s p f).outf = s.outf := rfl
@[simp] theorem modPart_xing (p : Nat) (f : Part → Part) : (modPart s p f).xing = s.xing := rfl
@[simp] theorem modPart_stew (p : Nat) (f : Part → Part) : (modPart s p f).stew = s.stew := rfl
@[simp] theorem modPart_free (p : Nat) (f : Part → Part) : (modPart s p f).free = s.free := rfl
@[simp] theorem modPart_pending (p : Nat) (f : Part → Part) : (modPart s p f).pending = s.pending := rfl

@[simp] theorem modSeqs_par (p : Nat) (f : Seqs → Seqs) : (modSeqs s p f).par = s.par := rfl
@[simp] theorem modSeqs_glb (p : Nat) (f : Seqs → Seqs) : (modSeqs s p f).glb = s.glb := rfl
@[simp] theorem modSeqs_port (p : Nat) (f : Seqs → Seqs) : (modSeqs s p f).port = s.port := rfl
@[simp] theorem modSeqs_evt (p : Nat) (f : Seqs → Seqs) : (modSeqs s p f).evt = s.evt := rfl
@[simp] theorem modSeqs_log (p : Nat) (f : Seqs → Seqs) : (modSeqs s p f).log = s.log := rfl
@[simp] theorem modSeqs_watch (p : Nat) (f : Seqs → Seqs) : (modSeqs s p f).watch = s.watch := rfl
@[simp] theorem modSeqs_svc (p : Nat) (f : Seqs → Seqs) : (modSeqs s p f).svc = s.svc := rfl
@[simp] theorem modSeqs_lb (p : Nat) (f : Seqs → Seqs) : (modSeqs s p f).lb = s.lb := rfl
@[simp] theorem modSeqs_test (p : Nat) (f : Seqs → Seqs) : (modSeqs s p f).test = s.test := rfl
@[simp] theorem modSeqs_links (p : Nat) (f : Seqs → Seqs) : (modSeqs s p f).links = s.links := rfl
@[simp] theorem modSeqs_agents (p : Nat) (f : Seqs → Seqs) : (modSeqs s p f).agents = s.agents := rfl
@[simp] theorem modSeqs_adms (p : Nat) (f : Seqs → Seqs) : (modSeqs s p f).adms = s.adms := rfl
@[simp] theorem modSeqs_admRr (p : Nat) (f : Seqs → Seqs) : (modSeqs s p f).admRr = s.admRr := rfl
@[simp] theorem modSeqs_parts (p : Nat) (f : Seqs → Seqs) : (modSeqs s p f).parts = s.parts := rfl
@[simp] theorem modSeqs_queues (p : Nat) (f : Seqs → Seqs) : (modSeqs s p f).queues = s.queues := rfl
@[simp] theorem modSeqs_inlet (p : Nat) (f : Seqs → Seqs) : (modSeqs s p f).inlet = s.inlet := rfl
@[simp] theorem modSeqs_launches (p : Nat) (f : Seqs → Seqs) : (modSeqs s p f).launches = s.launches := rfl
@[simp] theorem modSeqs_pushes (p : Nat) (f : Seqs → Seqs) : (modSeqs s p f).pushes = s.pushes := rfl
@[simp] theorem modSeqs_hcache (p : Nat) (f : Seqs → Seqs) : (modSeqs s p f).hcache = s.hcache := rfl
@[simp] theorem modSeqs_weir (p : Nat) (f : Seqs → Seqs) : (modSeqs s p f).weir = s.weir := rfl
@[simp] theorem modSeqs_gctxs (p : Nat) (f : Seqs → Seqs) : (modSeqs s p f).gctxs = s.gctxs := rfl
@[simp] theorem modSeqs_arenas (p : Nat) (f : Seqs → Seqs) : (modSeqs s p f).arenas = s.arenas := rfl
@[simp] theorem modSeqs_ccache (p : Nat) (f : Seqs → Seqs) : (modSeqs s p f).ccache = s.ccache := rfl
@[simp] theorem modSeqs_iz (p : Nat) (f : Seqs → Seqs) : (modSeqs s p f).iz = s.iz := rfl
@[simp] theorem modSeqs_sched (p : Nat) (f : Seqs → Seqs) : (modSeqs s p f).sched = s.sched := rfl
@[simp] theorem modSeqs_cores (p : Nat) (f : Seqs → Seqs) : (modSeqs s p f).cores = s.cores := rfl
@[simp] theorem modSeqs_ctxs (p : Nat) (f : Seqs → Seqs) : (modSeqs s p f).ctxs = s.ctxs := rfl
@[simp] theorem modSeqs_save (p : Nat) (f : Seqs → Seqs) : (modSeqs s p f).save = s.save := rfl
@[simp] theorem modSeqs_attn (p : Nat) (f : Seqs → Seqs) : (modSeqs s p f).attn = s.attn := rfl
@[simp] theorem modSeqs_pins (p : Nat) (f : Seqs → Seqs) : (modSeqs s p f).pins = s.pins := rfl
@[simp] theorem modSeqs_snap (p : Nat) (f : Seqs → Seqs) : (modSeqs s p f).snap = s.snap := rfl
@[simp] theorem modSeqs_basin (p : Nat) (f : Seqs → Seqs) : (modSeqs s p f).basin = s.basin := rfl
@[simp] theorem modSeqs_outf (p : Nat) (f : Seqs → Seqs) : (modSeqs s p f).outf = s.outf := rfl
@[simp] theorem modSeqs_xing (p : Nat) (f : Seqs → Seqs) : (modSeqs s p f).xing = s.xing := rfl
@[simp] theorem modSeqs_stew (p : Nat) (f : Seqs → Seqs) : (modSeqs s p f).stew = s.stew := rfl
@[simp] theorem modSeqs_free (p : Nat) (f : Seqs → Seqs) : (modSeqs s p f).free = s.free := rfl
@[simp] theorem modSeqs_pending (p : Nat) (f : Seqs → Seqs) : (modSeqs s p f).pending = s.pending := rfl

@[simp] theorem modQueue_par (q : Nat) (f : Queue → Queue) : (modQueue s q f).par = s.par := rfl
@[simp] theorem modQueue_glb (q : Nat) (f : Queue → Queue) : (modQueue s q f).glb = s.glb := rfl
@[simp] theorem modQueue_port (q : Nat) (f : Queue → Queue) : (modQueue s q f).port = s.port := rfl
@[simp] theorem modQueue_evt (q : Nat) (f : Queue → Queue) : (modQueue s q f).evt = s.evt := rfl
@[simp] theorem modQueue_log (q : Nat) (f : Queue → Queue) : (modQueue s q f).log = s.log := rfl
@[simp] theorem modQueue_watch (q : Nat) (f : Queue → Queue) : (modQueue s q f).watch = s.watch := rfl
@[simp] theorem modQueue_svc (q : Nat) (f : Queue → Queue) : (modQueue s q f).svc = s.svc := rfl
@[simp] theorem modQueue_lb (q : Nat) (f : Queue → Queue) : (modQueue s q f).lb = s.lb := rfl
@[simp] theorem modQueue_test (q : Nat) (f : Queue → Queue) : (modQueue s q f).test = s.test := rfl
@[simp] theorem modQueue_links (q : Nat) (f : Queue → Queue) : (modQueue s q f).links = s.links := rfl
@[simp] theorem modQueue_agents (q : Nat) (f : Queue → Queue) : (modQueue s q f).agents = s.agents := rfl
@[simp] theorem modQueue_adms (q : Nat) (f : Queue → Queue) : (modQueue s q f).adms = s.adms := rfl
@[simp] theorem modQueue_admRr (q : Nat) (f : Queue → Queue) : (modQueue s q f).admRr = s.admRr := rfl
@[simp] theorem modQueue_parts (q : Nat) (f : Queue → Queue) : (modQueue s q f).parts = s.parts := rfl
@[simp] theorem modQueue_seqs (q : Nat) (f : Queue → Queue) : (modQueue s q f).seqs = s.seqs := rfl
@[simp] theorem modQueue_inlet (q : Nat) (f : Queue → Queue) : (modQueue s q f).inlet = s.inlet := rfl
@[simp] theorem modQueue_launches (q : Nat) (f : Queue → Queue) : (modQueue s q f).launches = s.launches := rfl
@[simp] theorem modQueue_pushes (q : Nat) (f : Queue → Queue) : (modQueue s q f).pushes = s.pushes := rfl
@[simp] theorem modQueue_hcache (q : Nat) (f : Queue → Queue) : (modQueue s q f).hcache = s.hcache := rfl
@[simp] theorem modQueue_weir (q : Nat) (f : Queue → Queue) : (modQueue s q f).weir = s.weir := rfl
@[simp] theorem modQueue_gctxs (q : Nat) (f : Queue → Queue) : (modQueue s q f).gctxs = s.gctxs := rfl
@[simp] theorem modQueue_arenas (q : Nat) (f : Queue → Queue) : (modQueue s q f).arenas = s.arenas := rfl
@[simp] theorem modQueue_ccache (q : Nat) (f : Queue → Queue) : (modQueue s q f).ccache = s.ccache := rfl
@[simp] theorem modQueue_iz (q : Nat) (f : Queue → Queue) : (modQueue s q f).iz = s.iz := rfl
@[simp] theorem modQueue_sched (q : Nat) (f : Queue → Queue) : (modQueue s q f).sched = s.sched := rfl
@[simp] theorem modQueue_cores (q : Nat) (f : Queue → Queue) : (modQueue s q f).cores = s.cores := rfl
@[simp] theorem modQueue_ctxs (q : Nat) (f : Queue → Queue) : (modQueue s q f).ctxs = s.ctxs := rfl
@[simp] theorem modQueue_save (q : Nat) (f : Queue → Queue) : (modQueue s q f).save = s.save := rfl
@[simp] theorem modQueue_attn (q : Nat) (f : Queue → Queue) : (modQueue s q f).attn = s.attn := rfl
@[simp] theorem modQueue_pins (q : Nat) (f : Queue → Queue) : (modQueue s q f).pins = s.pins := rfl
@[simp] theorem modQueue_snap (q : Nat) (f : Queue → Queue) : (modQueue s q f).snap = s.snap := rfl
@[simp] theorem modQueue_basin (q : Nat) (f : Queue → Queue) : (modQueue s q f).basin = s.basin := rfl
@[simp] theorem modQueue_outf (q : Nat) (f : Queue → Queue) : (modQueue s q f).outf = s.outf := rfl
@[simp] theorem modQueue_xing (q : Nat) (f : Queue → Queue) : (modQueue s q f).xing = s.xing := rfl
@[simp] theorem modQueue_stew (q : Nat) (f : Queue → Queue) : (modQueue s q f).stew = s.stew := rfl
@[simp] theorem modQueue_free (q : Nat) (f : Queue → Queue) : (modQueue s q f).free = s.free := rfl
@[simp] theorem modQueue_pending (q : Nat) (f : Queue → Queue) : (modQueue s q f).pending = s.pending := rfl

@[simp] theorem modAdm_par (q : Nat) (f : Adm → Adm) : (modAdm s q f).par = s.par := rfl
@[simp] theorem modAdm_glb (q : Nat) (f : Adm → Adm) : (modAdm s q f).glb = s.glb := rfl
@[simp] theorem modAdm_port (q : Nat) (f : Adm → Adm) : (modAdm s q f).port = s.port := rfl
@[simp] theorem modAdm_evt (q : Nat) (f : Adm → Adm) : (modAdm s q f).evt = s.evt := rfl
@[simp] theorem modAdm_log (q : Nat) (f : Adm → Adm) : (modAdm s q f).log = s.log := rfl
@[simp] theorem modAdm_watch (q : Nat) (f : Adm → Adm) : (modAdm s q f).watch = s.watch := rfl
@[simp] theorem modAdm_svc (q : Nat) (f : Adm → Adm) : (modAdm s q f).svc = s.svc := rfl
@[simp] theorem modAdm_lb (q : Nat) (f : Adm → Adm) : (modAdm s q f).lb = s.lb := rfl
@[simp] theorem modAdm_test (q : Nat) (f : Adm → Adm) : (modAdm s q f).test = s.test := rfl
@[simp] theorem modAdm_links (q : Nat) (f : Adm → Adm) : (modAdm s q f).links = s.links := rfl
@[simp] theorem modAdm_agents (q : Nat) (f : Adm → Adm) : (modAdm s q f).agents = s.agents := rfl
@[simp] theorem modAdm_admRr (q : Nat) (f : Adm → Adm) : (modAdm s q f).admRr = s.admRr := rfl
@[simp] theorem modAdm_parts (q : Nat) (f : Adm → Adm) : (modAdm s q f).parts = s.parts := rfl
@[simp] theorem modAdm_seqs (q : Nat) (f : Adm → Adm) : (modAdm s q f).seqs = s.seqs := rfl
@[simp] theorem modAdm_queues (q : Nat) (f : Adm → Adm) : (modAdm s q f).queues = s.queues := rfl
@[simp] theorem modAdm_inlet (q : Nat) (f : Adm → Adm) : (modAdm s q f).inlet = s.inlet := rfl
@[simp] theorem modAdm_launches (q : Nat) (f : Adm → Adm) : (modAdm s q f).launches = s.launches := rfl
@[simp] theorem modAdm_pushes (q : Nat) (f : Adm → Adm) : (modAdm s q f).pushes = s.pushes := rfl
@[simp] theorem modAdm_hcache (q : Nat) (f : Adm → Adm) : (modAdm s q f).hcache = s.hcache := rfl
@[simp] theorem modAdm_weir (q : Nat) (f : Adm → Adm) : (modAdm s q f).weir = s.weir := rfl
@[simp] theorem modAdm_gctxs (q : Nat) (f : Adm → Adm) : (modAdm s q f).gctxs = s.gctxs := rfl
@[simp] theorem modAdm_arenas (q : Nat) (f : Adm → Adm) : (modAdm s q f).arenas = s.arenas := rfl
@[simp] theorem modAdm_ccache (q : Nat) (f : Adm → Adm) : (modAdm s q f).ccache = s.ccache := rfl
@[simp] theorem modAdm_iz (q : Nat) (f : Adm → Adm) : (modAdm s q f).iz = s.iz := rfl
@[simp] theorem modAdm_sched (q : Nat) (f : Adm → Adm) : (modAdm s q f).sched = s.sched := rfl
@[simp] theorem modAdm_cores (q : Nat) (f : Adm → Adm) : (modAdm s q f).cores = s.cores := rfl
@[simp] theorem modAdm_ctxs (q : Nat) (f : Adm → Adm) : (modAdm s q f).ctxs = s.ctxs := rfl
@[simp] theorem modAdm_save (q : Nat) (f : Adm → Adm) : (modAdm s q f).save = s.save := rfl
@[simp] theorem modAdm_attn (q : Nat) (f : Adm → Adm) : (modAdm s q f).attn = s.attn := rfl
@[simp] theorem modAdm_pins (q : Nat) (f : Adm → Adm) : (modAdm s q f).pins = s.pins := rfl
@[simp] theorem modAdm_snap (q : Nat) (f : Adm → Adm) : (modAdm s q f).snap = s.snap := rfl
@[simp] theorem modAdm_basin (q : Nat) (f : Adm → Adm) : (modAdm s q f).basin = s.basin := rfl
@[simp] theorem modAdm_outf (q : Nat) (f : Adm → Adm) : (modAdm s q f).outf = s.outf := rfl
@[simp] theorem modAdm_xing (q : Nat) (f : Adm → Adm) : (modAdm s q f).xing = s.xing := rfl
@[simp] theorem modAdm_stew (q : Nat) (f : Adm → Adm) : (modAdm s q f).stew = s.stew := rfl
@[simp] theorem modAdm_free (q : Nat) (f : Adm → Adm) : (modAdm s q f).free = s.free := rfl
@[simp] theorem modAdm_pending (q : Nat) (f : Adm → Adm) : (modAdm s q f).pending = s.pending := rfl

@[simp] theorem setLaunch_par (l : Nat) (x : Launch) : (setLaunch s l x).par = s.par := rfl
@[simp] theorem setLaunch_glb (l : Nat) (x : Launch) : (setLaunch s l x).glb = s.glb := rfl
@[simp] theorem setLaunch_port (l : Nat) (x : Launch) : (setLaunch s l x).port = s.port := rfl
@[simp] theorem setLaunch_evt (l : Nat) (x : Launch) : (setLaunch s l x).evt = s.evt := rfl
@[simp] theorem setLaunch_log (l : Nat) (x : Launch) : (setLaunch s l x).log = s.log := rfl
@[simp] theorem setLaunch_watch (l : Nat) (x : Launch) : (setLaunch s l x).watch = s.watch := rfl
@[simp] theorem setLaunch_svc (l : Nat) (x : Launch) : (setLaunch s l x).svc = s.svc := rfl
@[simp] theorem setLaunch_lb (l : Nat) (x : Launch) : (setLaunch s l x).lb = s.lb := rfl
@[simp] theorem setLaunch_test (l : Nat) (x : Launch) : (setLaunch s l x).test = s.test := rfl
@[simp] theorem setLaunch_links (l : Nat) (x : Launch) : (setLaunch s l x).links = s.links := rfl
@[simp] theorem setLaunch_agents (l : Nat) (x : Launch) : (setLaunch s l x).agents = s.agents := rfl
@[simp] theorem setLaunch_adms (l : Nat) (x : Launch) : (setLaunch s l x).adms = s.adms := rfl
@[simp] theorem setLaunch_admRr (l : Nat) (x : Launch) : (setLaunch s l x).admRr = s.admRr := rfl
@[simp] theorem setLaunch_parts (l : Nat) (x : Launch) : (setLaunch s l x).parts = s.parts := rfl
@[simp] theorem setLaunch_seqs (l : Nat) (x : Launch) : (setLaunch s l x).seqs = s.seqs := rfl
@[simp] theorem setLaunch_queues (l : Nat) (x : Launch) : (setLaunch s l x).queues = s.queues := rfl
@[simp] theorem setLaunch_inlet (l : Nat) (x : Launch) : (setLaunch s l x).inlet = s.inlet := rfl
@[simp] theorem setLaunch_pushes (l : Nat) (x : Launch) : (setLaunch s l x).pushes = s.pushes := rfl
@[simp] theorem setLaunch_hcache (l : Nat) (x : Launch) : (setLaunch s l x).hcache = s.hcache := rfl
@[simp] theorem setLaunch_weir (l : Nat) (x : Launch) : (setLaunch s l x).weir = s.weir := rfl
@[simp] theorem setLaunch_gctxs (l : Nat) (x : Launch) : (setLaunch s l x).gctxs = s.gctxs := rfl
@[simp] theorem setLaunch_arenas (l : Nat) (x : Launch) : (setLaunch s l x).arenas = s.arenas := rfl
@[simp] theorem setLaunch_ccache (l : Nat) (x : Launch) : (setLaunch s l x).ccache = s.ccache := rfl
@[simp] theorem setLaunch_iz (l : Nat) (x : Launch) : (setLaunch s l x).iz = s.iz := rfl
@[simp] theorem setLaunch_sched (l : Nat) (x : Launch) : (setLaunch s l x).sched = s.sched := rfl
@[simp] theorem setLaunch_cores (l : Nat) (x : Launch) : (setLaunch s l x).cores = s.cores := rfl
@[simp] theorem setLaunch_ctxs (l : Nat) (x : Launch) : (setLaunch s l x).ctxs = s.ctxs := rfl
@[simp] theorem setLaunch_save (l : Nat) (x : Launch) : (setLaunch s l x).save = s.save := rfl
@[simp] theorem setLaunch_attn (l : Nat) (x : Launch) : (setLaunch s l x).attn = s.attn := rfl
@[simp] theorem setLaunch_pins (l : Nat) (x : Launch) : (setLaunch s l x).pins = s.pins := rfl
@[simp] theorem setLaunch_snap (l : Nat) (x : Launch) : (setLaunch s l x).snap = s.snap := rfl
@[simp] theorem setLaunch_basin (l : Nat) (x : Launch) : (setLaunch s l x).basin = s.basin := rfl
@[simp] theorem setLaunch_outf (l : Nat) (x : Launch) : (setLaunch s l x).outf = s.outf := rfl
@[simp] theorem setLaunch_xing (l : Nat) (x : Launch) : (setLaunch s l x).xing = s.xing := rfl
@[simp] theorem setLaunch_stew (l : Nat) (x : Launch) : (setLaunch s l x).stew = s.stew := rfl
@[simp] theorem setLaunch_free (l : Nat) (x : Launch) : (setLaunch s l x).free = s.free := rfl
@[simp] theorem setLaunch_pending (l : Nat) (x : Launch) : (setLaunch s l x).pending = s.pending := rfl

@[simp] theorem modLink_par (a : Nat) (f : Link → Link) : (modLink s a f).par = s.par := rfl
@[simp] theorem modLink_glb (a : Nat) (f : Link → Link) : (modLink s a f).glb = s.glb := rfl
@[simp] theorem modLink_port (a : Nat) (f : Link → Link) : (modLink s a f).port = s.port := rfl
@[simp] theorem modLink_evt (a : Nat) (f : Link → Link) : (modLink s a f).evt = s.evt := rfl
@[simp] theorem modLink_log (a : Nat) (f : Link → Link) : (modLink s a f).log = s.log := rfl
@[simp] theorem modLink_watch (a : Nat) (f : Link → Link) : (modLink s a f).watch = s.watch := rfl
@[simp] theorem modLink_svc (a : Nat) (f : Link → Link) : (modLink s a f).svc = s.svc := rfl
@[simp] theorem modLink_lb (a : Nat) (f : Link → Link) : (modLink s a f).lb = s.lb := rfl
@[simp] theorem modLink_test (a : Nat) (f : Link → Link) : (modLink s a f).test = s.test := rfl
@[simp] theorem modLink_agents (a : Nat) (f : Link → Link) : (modLink s a f).agents = s.agents := rfl
@[simp] theorem modLink_adms (a : Nat) (f : Link → Link) : (modLink s a f).adms = s.adms := rfl
@[simp] theorem modLink_admRr (a : Nat) (f : Link → Link) : (modLink s a f).admRr = s.admRr := rfl
@[simp] theorem modLink_parts (a : Nat) (f : Link → Link) : (modLink s a f).parts = s.parts := rfl
@[simp] theorem modLink_seqs (a : Nat) (f : Link → Link) : (modLink s a f).seqs = s.seqs := rfl
@[simp] theorem modLink_queues (a : Nat) (f : Link → Link) : (modLink s a f).queues = s.queues := rfl
@[simp] theorem modLink_inlet (a : Nat) (f : Link → Link) : (modLink s a f).inlet = s.inlet := rfl
@[simp] theorem modLink_launches (a : Nat) (f : Link → Link) : (modLink s a f).launches = s.launches := rfl
@[simp] theorem modLink_pushes (a : Nat) (f : Link → Link) : (modLink s a f).pushes = s.pushes := rfl
@[simp] theorem modLink_hcache (a : Nat) (f : Link → Link) : (modLink s a f).hcache = s.hcache := rfl
@[simp] theorem modLink_weir (a : Nat) (f : Link → Link) : (modLink s a f).weir = s.weir := rfl
@[simp] theorem modLink_gctxs (a : Nat) (f : Link → Link) : (modLink s a f).gctxs = s.gctxs := rfl
@[simp] theorem modLink_arenas (a : Nat) (f : Link → Link) : (modLink s a f).arenas = s.arenas := rfl
@[simp] theorem modLink_ccache (a : Nat) (f : Link → Link) : (modLink s a f).ccache = s.ccache := rfl
@[simp] theorem modLink_iz (a : Nat) (f : Link → Link) : (modLink s a f).iz = s.iz := rfl
@[simp] theorem modLink_sched (a : Nat) (f : Link → Link) : (modLink s a f).sched = s.sched := rfl
@[simp] theorem modLink_cores (a : Nat) (f : Link → Link) : (modLink s a f).cores = s.cores := rfl
@[simp] theorem modLink_ctxs (a : Nat) (f : Link → Link) : (modLink s a f).ctxs = s.ctxs := rfl
@[simp] theorem modLink_save (a : Nat) (f : Link → Link) : (modLink s a f).save = s.save := rfl
@[simp] theorem modLink_attn (a : Nat) (f : Link → Link) : (modLink s a f).attn = s.attn := rfl
@[simp] theorem modLink_pins (a : Nat) (f : Link → Link) : (modLink s a f).pins = s.pins := rfl
@[simp] theorem modLink_snap (a : Nat) (f : Link → Link) : (modLink s a f).snap = s.snap := rfl
@[simp] theorem modLink_basin (a : Nat) (f : Link → Link) : (modLink s a f).basin = s.basin := rfl
@[simp] theorem modLink_outf (a : Nat) (f : Link → Link) : (modLink s a f).outf = s.outf := rfl
@[simp] theorem modLink_xing (a : Nat) (f : Link → Link) : (modLink s a f).xing = s.xing := rfl
@[simp] theorem modLink_stew (a : Nat) (f : Link → Link) : (modLink s a f).stew = s.stew := rfl
@[simp] theorem modLink_free (a : Nat) (f : Link → Link) : (modLink s a f).free = s.free := rfl
@[simp] theorem modLink_pending (a : Nat) (f : Link → Link) : (modLink s a f).pending = s.pending := rfl

@[simp] theorem modAgent_par (a : Nat) (f : Agent → Agent) : (modAgent s a f).par = s.par := rfl
@[simp] theorem modAgent_glb (a : Nat) (f : Agent → Agent) : (modAgent s a f).glb = s.glb := rfl
@[simp] theorem modAgent_port (a : Nat) (f : Agent → Agent) : (modAgent s a f).port = s.port := rfl
@[simp] theorem modAgent_evt (a : Nat) (f : Agent → Agent) : (modAgent s a f).evt = s.evt := rfl
@[simp] theorem modAgent_log (a : Nat) (f : Agent → Agent) : (modAgent s a f).log = s.log := rfl
@[simp] theorem modAgent_watch (a : Nat) (f : Agent → Agent) : (modAgent s a f).watch = s.watch := rfl
@[simp] theorem modAgent_svc (a : Nat) (f : Agent → Agent) : (modAgent s a f).svc = s.svc := rfl
@[simp] theorem modAgent_lb (a : Nat) (f : Agent → Agent) : (modAgent s a f).lb = s.lb := rfl
@[simp] theorem modAgent_test (a : Nat) (f : Agent → Agent) : (modAgent s a f).test = s.test := rfl
@[simp] theorem modAgent_links (a : Nat) (f : Agent → Agent) : (modAgent s a f).links = s.links := rfl
@[simp] theorem modAgent_adms (a : Nat) (f : Agent → Agent) : (modAgent s a f).adms = s.adms := rfl
@[simp] theorem modAgent_admRr (a : Nat) (f : Agent → Agent) : (modAgent s a f).admRr = s.admRr := rfl
@[simp] theorem modAgent_parts (a : Nat) (f : Agent → Agent) : (modAgent s a f).parts = s.parts := rfl
@[simp] theorem modAgent_seqs (a : Nat) (f : Agent → Agent) : (modAgent s a f).seqs = s.seqs := rfl
@[simp] theorem modAgent_queues (a : Nat) (f : Agent → Agent) : (modAgent s a f).queues = s.queues := rfl
@[simp] theorem modAgent_inlet (a : Nat) (f : Agent → Agent) : (modAgent s a f).inlet = s.inlet := rfl
@[simp] theorem modAgent_launches (a : Nat) (f : Agent → Agent) : (modAgent s a f).launches = s.launches := rfl
@[simp] theorem modAgent_pushes (a : Nat) (f : Agent → Agent) : (modAgent s a f).pushes = s.pushes := rfl
@[simp] theorem modAgent_hcache (a : Nat) (f : Agent → Agent) : (modAgent s a f).hcache = s.hcache := rfl
@[simp] theorem modAgent_weir (a : Nat) (f : Agent → Agent) : (modAgent s a f).weir = s.weir := rfl
@[simp] theorem modAgent_gctxs (a : Nat) (f : Agent → Agent) : (modAgent s a f).gctxs = s.gctxs := rfl
@[simp] theorem modAgent_arenas (a : Nat) (f : Agent → Agent) : (modAgent s a f).arenas = s.arenas := rfl
@[simp] theorem modAgent_ccache (a : Nat) (f : Agent → Agent) : (modAgent s a f).ccache = s.ccache := rfl
@[simp] theorem modAgent_iz (a : Nat) (f : Agent → Agent) : (modAgent s a f).iz = s.iz := rfl
@[simp] theorem modAgent_sched (a : Nat) (f : Agent → Agent) : (modAgent s a f).sched = s.sched := rfl
@[simp] theorem modAgent_cores (a : Nat) (f : Agent → Agent) : (modAgent s a f).cores = s.cores := rfl
@[simp] theorem modAgent_ctxs (a : Nat) (f : Agent → Agent) : (modAgent s a f).ctxs = s.ctxs := rfl
@[simp] theorem modAgent_save (a : Nat) (f : Agent → Agent) : (modAgent s a f).save = s.save := rfl
@[simp] theorem modAgent_attn (a : Nat) (f : Agent → Agent) : (modAgent s a f).attn = s.attn := rfl
@[simp] theorem modAgent_pins (a : Nat) (f : Agent → Agent) : (modAgent s a f).pins = s.pins := rfl
@[simp] theorem modAgent_snap (a : Nat) (f : Agent → Agent) : (modAgent s a f).snap = s.snap := rfl
@[simp] theorem modAgent_basin (a : Nat) (f : Agent → Agent) : (modAgent s a f).basin = s.basin := rfl
@[simp] theorem modAgent_outf (a : Nat) (f : Agent → Agent) : (modAgent s a f).outf = s.outf := rfl
@[simp] theorem modAgent_xing (a : Nat) (f : Agent → Agent) : (modAgent s a f).xing = s.xing := rfl
@[simp] theorem modAgent_stew (a : Nat) (f : Agent → Agent) : (modAgent s a f).stew = s.stew := rfl
@[simp] theorem modAgent_free (a : Nat) (f : Agent → Agent) : (modAgent s a f).free = s.free := rfl
@[simp] theorem modAgent_pending (a : Nat) (f : Agent → Agent) : (modAgent s a f).pending = s.pending := rfl

@[simp] theorem modGctx_par (c : Nat) (f : GCtx → GCtx) : (modGctx s c f).par = s.par := rfl
@[simp] theorem modGctx_glb (c : Nat) (f : GCtx → GCtx) : (modGctx s c f).glb = s.glb := rfl
@[simp] theorem modGctx_port (c : Nat) (f : GCtx → GCtx) : (modGctx s c f).port = s.port := rfl
@[simp] theorem modGctx_evt (c : Nat) (f : GCtx → GCtx) : (modGctx s c f).evt = s.evt := rfl
@[simp] theorem modGctx_log (c : Nat) (f : GCtx → GCtx) : (modGctx s c f).log = s.log := rfl
@[simp] theorem modGctx_watch (c : Nat) (f : GCtx → GCtx) : (modGctx s c f).watch = s.watch := rfl
@[simp] theorem modGctx_svc (c : Nat) (f : GCtx → GCtx) : (modGctx s c f).svc = s.svc := rfl
@[simp] theorem modGctx_lb (c : Nat) (f : GCtx → GCtx) : (modGctx s c f).lb = s.lb := rfl
@[simp] theorem modGctx_test (c : Nat) (f : GCtx → GCtx) : (modGctx s c f).test = s.test := rfl
@[simp] theorem modGctx_links (c : Nat) (f : GCtx → GCtx) : (modGctx s c f).links = s.links := rfl
@[simp] theorem modGctx_agents (c : Nat) (f : GCtx → GCtx) : (modGctx s c f).agents = s.agents := rfl
@[simp] theorem modGctx_adms (c : Nat) (f : GCtx → GCtx) : (modGctx s c f).adms = s.adms := rfl
@[simp] theorem modGctx_admRr (c : Nat) (f : GCtx → GCtx) : (modGctx s c f).admRr = s.admRr := rfl
@[simp] theorem modGctx_parts (c : Nat) (f : GCtx → GCtx) : (modGctx s c f).parts = s.parts := rfl
@[simp] theorem modGctx_seqs (c : Nat) (f : GCtx → GCtx) : (modGctx s c f).seqs = s.seqs := rfl
@[simp] theorem modGctx_queues (c : Nat) (f : GCtx → GCtx) : (modGctx s c f).queues = s.queues := rfl
@[simp] theorem modGctx_inlet (c : Nat) (f : GCtx → GCtx) : (modGctx s c f).inlet = s.inlet := rfl
@[simp] theorem modGctx_launches (c : Nat) (f : GCtx → GCtx) : (modGctx s c f).launches = s.launches := rfl
@[simp] theorem modGctx_pushes (c : Nat) (f : GCtx → GCtx) : (modGctx s c f).pushes = s.pushes := rfl
@[simp] theorem modGctx_hcache (c : Nat) (f : GCtx → GCtx) : (modGctx s c f).hcache = s.hcache := rfl
@[simp] theorem modGctx_weir (c : Nat) (f : GCtx → GCtx) : (modGctx s c f).weir = s.weir := rfl
@[simp] theorem modGctx_arenas (c : Nat) (f : GCtx → GCtx) : (modGctx s c f).arenas = s.arenas := rfl
@[simp] theorem modGctx_ccache (c : Nat) (f : GCtx → GCtx) : (modGctx s c f).ccache = s.ccache := rfl
@[simp] theorem modGctx_iz (c : Nat) (f : GCtx → GCtx) : (modGctx s c f).iz = s.iz := rfl
@[simp] theorem modGctx_sched (c : Nat) (f : GCtx → GCtx) : (modGctx s c f).sched = s.sched := rfl
@[simp] theorem modGctx_cores (c : Nat) (f : GCtx → GCtx) : (modGctx s c f).cores = s.cores := rfl
@[simp] theorem modGctx_ctxs (c : Nat) (f : GCtx → GCtx) : (modGctx s c f).ctxs = s.ctxs := rfl
@[simp] theorem modGctx_save (c : Nat) (f : GCtx → GCtx) : (modGctx s c f).save = s.save := rfl
@[simp] theorem modGctx_attn (c : Nat) (f : GCtx → GCtx) : (modGctx s c f).attn = s.attn := rfl
@[simp] theorem modGctx_pins (c : Nat) (f : GCtx → GCtx) : (modGctx s c f).pins = s.pins := rfl
@[simp] theorem modGctx_snap (c : Nat) (f : GCtx → GCtx) : (modGctx s c f).snap = s.snap := rfl
@[simp] theorem modGctx_basin (c : Nat) (f : GCtx → GCtx) : (modGctx s c f).basin = s.basin := rfl
@[simp] theorem modGctx_outf (c : Nat) (f : GCtx → GCtx) : (modGctx s c f).outf = s.outf := rfl
@[simp] theorem modGctx_xing (c : Nat) (f : GCtx → GCtx) : (modGctx s c f).xing = s.xing := rfl
@[simp] theorem modGctx_stew (c : Nat) (f : GCtx → GCtx) : (modGctx s c f).stew = s.stew := rfl
@[simp] theorem modGctx_free (c : Nat) (f : GCtx → GCtx) : (modGctx s c f).free = s.free := rfl
@[simp] theorem modGctx_pending (c : Nat) (f : GCtx → GCtx) : (modGctx s c f).pending = s.pending := rfl

@[simp] theorem modArena_par (p : Nat) (f : Arena → Arena) : (modArena s p f).par = s.par := rfl
@[simp] theorem modArena_glb (p : Nat) (f : Arena → Arena) : (modArena s p f).glb = s.glb := rfl
@[simp] theorem modArena_port (p : Nat) (f : Arena → Arena) : (modArena s p f).port = s.port := rfl
@[simp] theorem modArena_evt (p : Nat) (f : Arena → Arena) : (modArena s p f).evt = s.evt := rfl
@[simp] theorem modArena_log (p : Nat) (f : Arena → Arena) : (modArena s p f).log = s.log := rfl
@[simp] theorem modArena_watch (p : Nat) (f : Arena → Arena) : (modArena s p f).watch = s.watch := rfl
@[simp] theorem modArena_svc (p : Nat) (f : Arena → Arena) : (modArena s p f).svc = s.svc := rfl
@[simp] theorem modArena_lb (p : Nat) (f : Arena → Arena) : (modArena s p f).lb = s.lb := rfl
@[simp] theorem modArena_test (p : Nat) (f : Arena → Arena) : (modArena s p f).test = s.test := rfl
@[simp] theorem modArena_links (p : Nat) (f : Arena → Arena) : (modArena s p f).links = s.links := rfl
@[simp] theorem modArena_agents (p : Nat) (f : Arena → Arena) : (modArena s p f).agents = s.agents := rfl
@[simp] theorem modArena_adms (p : Nat) (f : Arena → Arena) : (modArena s p f).adms = s.adms := rfl
@[simp] theorem modArena_admRr (p : Nat) (f : Arena → Arena) : (modArena s p f).admRr = s.admRr := rfl
@[simp] theorem modArena_parts (p : Nat) (f : Arena → Arena) : (modArena s p f).parts = s.parts := rfl
@[simp] theorem modArena_seqs (p : Nat) (f : Arena → Arena) : (modArena s p f).seqs = s.seqs := rfl
@[simp] theorem modArena_queues (p : Nat) (f : Arena → Arena) : (modArena s p f).queues = s.queues := rfl
@[simp] theorem modArena_inlet (p : Nat) (f : Arena → Arena) : (modArena s p f).inlet = s.inlet := rfl
@[simp] theorem modArena_launches (p : Nat) (f : Arena → Arena) : (modArena s p f).launches = s.launches := rfl
@[simp] theorem modArena_pushes (p : Nat) (f : Arena → Arena) : (modArena s p f).pushes = s.pushes := rfl
@[simp] theorem modArena_hcache (p : Nat) (f : Arena → Arena) : (modArena s p f).hcache = s.hcache := rfl
@[simp] theorem modArena_weir (p : Nat) (f : Arena → Arena) : (modArena s p f).weir = s.weir := rfl
@[simp] theorem modArena_gctxs (p : Nat) (f : Arena → Arena) : (modArena s p f).gctxs = s.gctxs := rfl
@[simp] theorem modArena_ccache (p : Nat) (f : Arena → Arena) : (modArena s p f).ccache = s.ccache := rfl
@[simp] theorem modArena_iz (p : Nat) (f : Arena → Arena) : (modArena s p f).iz = s.iz := rfl
@[simp] theorem modArena_sched (p : Nat) (f : Arena → Arena) : (modArena s p f).sched = s.sched := rfl
@[simp] theorem modArena_cores (p : Nat) (f : Arena → Arena) : (modArena s p f).cores = s.cores := rfl
@[simp] theorem modArena_ctxs (p : Nat) (f : Arena → Arena) : (modArena s p f).ctxs = s.ctxs := rfl
@[simp] theorem modArena_save (p : Nat) (f : Arena → Arena) : (modArena s p f).save = s.save := rfl
@[simp] theorem modArena_attn (p : Nat) (f : Arena → Arena) : (modArena s p f).attn = s.attn := rfl
@[simp] theorem modArena_pins (p : Nat) (f : Arena → Arena) : (modArena s p f).pins = s.pins := rfl
@[simp] theorem modArena_snap (p : Nat) (f : Arena → Arena) : (modArena s p f).snap = s.snap := rfl
@[simp] theorem modArena_basin (p : Nat) (f : Arena → Arena) : (modArena s p f).basin = s.basin := rfl
@[simp] theorem modArena_outf (p : Nat) (f : Arena → Arena) : (modArena s p f).outf = s.outf := rfl
@[simp] theorem modArena_xing (p : Nat) (f : Arena → Arena) : (modArena s p f).xing = s.xing := rfl
@[simp] theorem modArena_stew (p : Nat) (f : Arena → Arena) : (modArena s p f).stew = s.stew := rfl
@[simp] theorem modArena_free (p : Nat) (f : Arena → Arena) : (modArena s p f).free = s.free := rfl
@[simp] theorem modArena_pending (p : Nat) (f : Arena → Arena) : (modArena s p f).pending = s.pending := rfl

@[simp] theorem modFig_par (p : Nat) (f : PFig → PFig) : (modFig s p f).par = s.par := rfl
@[simp] theorem modFig_glb (p : Nat) (f : PFig → PFig) : (modFig s p f).glb = s.glb := rfl
@[simp] theorem modFig_port (p : Nat) (f : PFig → PFig) : (modFig s p f).port = s.port := rfl
@[simp] theorem modFig_evt (p : Nat) (f : PFig → PFig) : (modFig s p f).evt = s.evt := rfl
@[simp] theorem modFig_log (p : Nat) (f : PFig → PFig) : (modFig s p f).log = s.log := rfl
@[simp] theorem modFig_watch (p : Nat) (f : PFig → PFig) : (modFig s p f).watch = s.watch := rfl
@[simp] theorem modFig_svc (p : Nat) (f : PFig → PFig) : (modFig s p f).svc = s.svc := rfl
@[simp] theorem modFig_lb (p : Nat) (f : PFig → PFig) : (modFig s p f).lb = s.lb := rfl
@[simp] theorem modFig_test (p : Nat) (f : PFig → PFig) : (modFig s p f).test = s.test := rfl
@[simp] theorem modFig_links (p : Nat) (f : PFig → PFig) : (modFig s p f).links = s.links := rfl
@[simp] theorem modFig_agents (p : Nat) (f : PFig → PFig) : (modFig s p f).agents = s.agents := rfl
@[simp] theorem modFig_adms (p : Nat) (f : PFig → PFig) : (modFig s p f).adms = s.adms := rfl
@[simp] theorem modFig_admRr (p : Nat) (f : PFig → PFig) : (modFig s p f).admRr = s.admRr := rfl
@[simp] theorem modFig_parts (p : Nat) (f : PFig → PFig) : (modFig s p f).parts = s.parts := rfl
@[simp] theorem modFig_seqs (p : Nat) (f : PFig → PFig) : (modFig s p f).seqs = s.seqs := rfl
@[simp] theorem modFig_queues (p : Nat) (f : PFig → PFig) : (modFig s p f).queues = s.queues := rfl
@[simp] theorem modFig_inlet (p : Nat) (f : PFig → PFig) : (modFig s p f).inlet = s.inlet := rfl
@[simp] theorem modFig_launches (p : Nat) (f : PFig → PFig) : (modFig s p f).launches = s.launches := rfl
@[simp] theorem modFig_pushes (p : Nat) (f : PFig → PFig) : (modFig s p f).pushes = s.pushes := rfl
@[simp] theorem modFig_hcache (p : Nat) (f : PFig → PFig) : (modFig s p f).hcache = s.hcache := rfl
@[simp] theorem modFig_weir (p : Nat) (f : PFig → PFig) : (modFig s p f).weir = s.weir := rfl
@[simp] theorem modFig_gctxs (p : Nat) (f : PFig → PFig) : (modFig s p f).gctxs = s.gctxs := rfl
@[simp] theorem modFig_arenas (p : Nat) (f : PFig → PFig) : (modFig s p f).arenas = s.arenas := rfl
@[simp] theorem modFig_ccache (p : Nat) (f : PFig → PFig) : (modFig s p f).ccache = s.ccache := rfl
@[simp] theorem modFig_iz (p : Nat) (f : PFig → PFig) : (modFig s p f).iz = s.iz := rfl
@[simp] theorem modFig_cores (p : Nat) (f : PFig → PFig) : (modFig s p f).cores = s.cores := rfl
@[simp] theorem modFig_ctxs (p : Nat) (f : PFig → PFig) : (modFig s p f).ctxs = s.ctxs := rfl
@[simp] theorem modFig_save (p : Nat) (f : PFig → PFig) : (modFig s p f).save = s.save := rfl
@[simp] theorem modFig_attn (p : Nat) (f : PFig → PFig) : (modFig s p f).attn = s.attn := rfl
@[simp] theorem modFig_pins (p : Nat) (f : PFig → PFig) : (modFig s p f).pins = s.pins := rfl
@[simp] theorem modFig_snap (p : Nat) (f : PFig → PFig) : (modFig s p f).snap = s.snap := rfl
@[simp] theorem modFig_basin (p : Nat) (f : PFig → PFig) : (modFig s p f).basin = s.basin := rfl
@[simp] theorem modFig_outf (p : Nat) (f : PFig → PFig) : (modFig s p f).outf = s.outf := rfl
@[simp] theorem modFig_xing (p : Nat) (f : PFig → PFig) : (modFig s p f).xing = s.xing := rfl
@[simp] theorem modFig_stew (p : Nat) (f : PFig → PFig) : (modFig s p f).stew = s.stew := rfl
@[simp] theorem modFig_free (p : Nat) (f : PFig → PFig) : (modFig s p f).free = s.free := rfl
@[simp] theorem modFig_pending (p : Nat) (f : PFig → PFig) : (modFig s p f).pending = s.pending := rfl

@[simp] theorem modStack_par (a : Nat) (f : Stack → Stack) : (modStack s a f).par = s.par := rfl
@[simp] theorem modStack_glb (a : Nat) (f : Stack → Stack) : (modStack s a f).glb = s.glb := rfl
@[simp] theorem modStack_port (a : Nat) (f : Stack → Stack) : (modStack s a f).port = s.port := rfl
@[simp] theorem modStack_evt (a : Nat) (f : Stack → Stack) : (modStack s a f).evt = s.evt := rfl
@[simp] theorem modStack_log (a : Nat) (f : Stack → Stack) : (modStack s a f).log = s.log := rfl
@[simp] theorem modStack_watch (a : Nat) (f : Stack → Stack) : (modStack s a f).watch = s.watch := rfl
@[simp] theorem modStack_svc (a : Nat) (f : Stack → Stack) : (modStack s a f).svc = s.svc := rfl
@[simp] theorem modStack_lb (a : Nat) (f : Stack → Stack) : (modStack s a f).lb = s.lb := rfl
@[simp] theorem modStack_test (a : Nat) (f : Stack → Stack) : (modStack s a f).test = s.test := rfl
@[simp] theorem modStack_links (a : Nat) (f : Stack → Stack) : (modStack s a f).links = s.links := rfl
@[simp] theorem modStack_agents (a : Nat) (f : Stack → Stack) : (modStack s a f).agents = s.agents := rfl
@[simp] theorem modStack_adms (a : Nat) (f : Stack → Stack) : (modStack s a f).adms = s.adms := rfl
@[simp] theorem modStack_admRr (a : Nat) (f : Stack → Stack) : (modStack s a f).admRr = s.admRr := rfl
@[simp] theorem modStack_parts (a : Nat) (f : Stack → Stack) : (modStack s a f).parts = s.parts := rfl
@[simp] theorem modStack_seqs (a : Nat) (f : Stack → Stack) : (modStack s a f).seqs = s.seqs := rfl
@[simp] theorem modStack_queues (a : Nat) (f : Stack → Stack) : (modStack s a f).queues = s.queues := rfl
@[simp] theorem modStack_inlet (a : Nat) (f : Stack → Stack) : (modStack s a f).inlet = s.inlet := rfl
@[simp] theorem modStack_launches (a : Nat) (f : Stack → Stack) : (modStack s a f).launches = s.launches := rfl
@[simp] theorem modStack_pushes (a : Nat) (f : Stack → Stack) : (modStack s a f).pushes = s.pushes := rfl
@[simp] theorem modStack_hcache (a : Nat) (f : Stack → Stack) : (modStack s a f).hcache = s.hcache := rfl
@[simp] theorem modStack_weir (a : Nat) (f : Stack → Stack) : (modStack s a f).weir = s.weir := rfl
@[simp] theorem modStack_gctxs (a : Nat) (f : Stack → Stack) : (modStack s a f).gctxs = s.gctxs := rfl
@[simp] theorem modStack_arenas (a : Nat) (f : Stack → Stack) : (modStack s a f).arenas = s.arenas := rfl
@[simp] theorem modStack_ccache (a : Nat) (f : Stack → Stack) : (modStack s a f).ccache = s.ccache := rfl
@[simp] theorem modStack_iz (a : Nat) (f : Stack → Stack) : (modStack s a f).iz = s.iz := rfl
@[simp] theorem modStack_sched (a : Nat) (f : Stack → Stack) : (modStack s a f).sched = s.sched := rfl
@[simp] theorem modStack_cores (a : Nat) (f : Stack → Stack) : (modStack s a f).cores = s.cores := rfl
@[simp] theorem modStack_ctxs (a : Nat) (f : Stack → Stack) : (modStack s a f).ctxs = s.ctxs := rfl
@[simp] theorem modStack_save (a : Nat) (f : Stack → Stack) : (modStack s a f).save = s.save := rfl
@[simp] theorem modStack_attn (a : Nat) (f : Stack → Stack) : (modStack s a f).attn = s.attn := rfl
@[simp] theorem modStack_pins (a : Nat) (f : Stack → Stack) : (modStack s a f).pins = s.pins := rfl
@[simp] theorem modStack_snap (a : Nat) (f : Stack → Stack) : (modStack s a f).snap = s.snap := rfl
@[simp] theorem modStack_basin (a : Nat) (f : Stack → Stack) : (modStack s a f).basin = s.basin := rfl
@[simp] theorem modStack_outf (a : Nat) (f : Stack → Stack) : (modStack s a f).outf = s.outf := rfl
@[simp] theorem modStack_xing (a : Nat) (f : Stack → Stack) : (modStack s a f).xing = s.xing := rfl
@[simp] theorem modStack_free (a : Nat) (f : Stack → Stack) : (modStack s a f).free = s.free := rfl
@[simp] theorem modStack_pending (a : Nat) (f : Stack → Stack) : (modStack s a f).pending = s.pending := rfl

@[simp] theorem setMerge_par (k : Nat) (m : Merge) : (setMerge s k m).par = s.par := rfl
@[simp] theorem setMerge_glb (k : Nat) (m : Merge) : (setMerge s k m).glb = s.glb := rfl
@[simp] theorem setMerge_port (k : Nat) (m : Merge) : (setMerge s k m).port = s.port := rfl
@[simp] theorem setMerge_evt (k : Nat) (m : Merge) : (setMerge s k m).evt = s.evt := rfl
@[simp] theorem setMerge_log (k : Nat) (m : Merge) : (setMerge s k m).log = s.log := rfl
@[simp] theorem setMerge_watch (k : Nat) (m : Merge) : (setMerge s k m).watch = s.watch := rfl
@[simp] theorem setMerge_svc (k : Nat) (m : Merge) : (setMerge s k m).svc = s.svc := rfl
@[simp] theorem setMerge_lb (k : Nat) (m : Merge) : (setMerge s k m).lb = s.lb := rfl
@[simp] theorem setMerge_test (k : Nat) (m : Merge) : (setMerge s k m).test = s.test := rfl
@[simp] theorem setMerge_links (k : Nat) (m : Merge) : (setMerge s k m).links = s.links := rfl
@[simp] theorem setMerge_agents (k : Nat) (m : Merge) : (setMerge s k m).agents = s.agents := rfl
@[simp] theorem setMerge_adms (k : Nat) (m : Merge) : (setMerge s k m).adms = s.adms := rfl
@[simp] theorem setMerge_admRr (k : Nat) (m : Merge) : (setMerge s k m).admRr = s.admRr := rfl
@[simp] theorem setMerge_parts (k : Nat) (m : Merge) : (setMerge s k m).parts = s.parts := rfl
@[simp] theorem setMerge_seqs (k : Nat) (m : Merge) : (setMerge s k m).seqs = s.seqs := rfl
@[simp] theorem setMerge_queues (k : Nat) (m : Merge) : (setMerge s k m).queues = s.queues := rfl
@[simp] theorem setMerge_inlet (k : Nat) (m : Merge) : (setMerge s k m).inlet = s.inlet := rfl
@[simp] theorem setMerge_launches (k : Nat) (m : Merge) : (setMerge s k m).launches = s.launches := rfl
@[simp] theorem setMerge_pushes (k : Nat) (m : Merge) : (setMerge s k m).pushes = s.pushes := rfl
@[simp] theorem setMerge_hcache (k : Nat) (m : Merge) : (setMerge s k m).hcache = s.hcache := rfl
@[simp] theorem setMerge_weir (k : Nat) (m : Merge) : (setMerge s k m).weir = s.weir := rfl
@[simp] theorem setMerge_gctxs (k : Nat) (m : Merge) : (setMerge s k m).gctxs = s.gctxs := rfl
@[simp] theorem setMerge_arenas (k : Nat) (m : Merge) : (setMerge s k m).arenas = s.arenas := rfl
@[simp] theorem setMerge_ccache (k : Nat) (m : Merge) : (setMerge s k m).ccache = s.ccache := rfl
@[simp] theorem setMerge_iz (k : Nat) (m : Merge) : (setMerge s k m).iz = s.iz := rfl
@[simp] theorem setMerge_sched (k : Nat) (m : Merge) : (setMerge s k m).sched = s.sched := rfl
@[simp] theorem setMerge_cores (k : Nat) (m : Merge) : (setMerge s k m).cores = s.cores := rfl
@[simp] theorem setMerge_ctxs (k : Nat) (m : Merge) : (setMerge s k m).ctxs = s.ctxs := rfl
@[simp] theorem setMerge_save (k : Nat) (m : Merge) : (setMerge s k m).save = s.save := rfl
@[simp] theorem setMerge_attn (k : Nat) (m : Merge) : (setMerge s k m).attn = s.attn := rfl
@[simp] theorem setMerge_pins (k : Nat) (m : Merge) : (setMerge s k m).pins = s.pins := rfl
@[simp] theorem setMerge_snap (k : Nat) (m : Merge) : (setMerge s k m).snap = s.snap := rfl
@[simp] theorem setMerge_basin (k : Nat) (m : Merge) : (setMerge s k m).basin = s.basin := rfl
@[simp] theorem setMerge_xing (k : Nat) (m : Merge) : (setMerge s k m).xing = s.xing := rfl
@[simp] theorem setMerge_stew (k : Nat) (m : Merge) : (setMerge s k m).stew = s.stew := rfl
@[simp] theorem setMerge_free (k : Nat) (m : Merge) : (setMerge s k m).free = s.free := rfl
@[simp] theorem setMerge_pending (k : Nat) (m : Merge) : (setMerge s k m).pending = s.pending := rfl

@[simp] theorem delMerge_par (k : Nat) : (delMerge s k).par = s.par := rfl
@[simp] theorem delMerge_glb (k : Nat) : (delMerge s k).glb = s.glb := rfl
@[simp] theorem delMerge_port (k : Nat) : (delMerge s k).port = s.port := rfl
@[simp] theorem delMerge_evt (k : Nat) : (delMerge s k).evt = s.evt := rfl
@[simp] theorem delMerge_log (k : Nat) : (delMerge s k).log = s.log := rfl
@[simp] theorem delMerge_watch (k : Nat) : (delMerge s k).watch = s.watch := rfl
@[simp] theorem delMerge_svc (k : Nat) : (delMerge s k).svc = s.svc := rfl
@[simp] theorem delMerge_lb (k : Nat) : (delMerge s k).lb = s.lb := rfl
@[simp] theorem delMerge_test (k : Nat) : (delMerge s k).test = s.test := rfl
@[simp] theorem delMerge_links (k : Nat) : (delMerge s k).links = s.links := rfl
@[simp] theorem delMerge_agents (k : Nat) : (delMerge s k).agents = s.agents := rfl
@[simp] theorem delMerge_adms (k : Nat) : (delMerge s k).adms = s.adms := rfl
@[simp] theorem delMerge_admRr (k : Nat) : (delMerge s k).admRr = s.admRr := rfl
@[simp] theorem delMerge_parts (k : Nat) : (delMerge s k).parts = s.parts := rfl
@[simp] theorem delMerge_seqs (k : Nat) : (delMerge s k).seqs = s.seqs := rfl
@[simp] theorem delMerge_queues (k : Nat) : (delMerge s k).queues = s.queues := rfl
@[simp] theorem delMerge_inlet (k : Nat) : (delMerge s k).inlet = s.inlet := rfl
@[simp] theorem delMerge_launches (k : Nat) : (delMerge s k).launches = s.launches := rfl
@[simp] theorem delMerge_pushes (k : Nat) : (delMerge s k).pushes = s.pushes := rfl
@[simp] theorem delMerge_hcache (k : Nat) : (delMerge s k).hcache = s.hcache := rfl
@[simp] theorem delMerge_weir (k : Nat) : (delMerge s k).weir = s.weir := rfl
@[simp] theorem delMerge_gctxs (k : Nat) : (delMerge s k).gctxs = s.gctxs := rfl
@[simp] theorem delMerge_arenas (k : Nat) : (delMerge s k).arenas = s.arenas := rfl
@[simp] theorem delMerge_ccache (k : Nat) : (delMerge s k).ccache = s.ccache := rfl
@[simp] theorem delMerge_iz (k : Nat) : (delMerge s k).iz = s.iz := rfl
@[simp] theorem delMerge_sched (k : Nat) : (delMerge s k).sched = s.sched := rfl
@[simp] theorem delMerge_cores (k : Nat) : (delMerge s k).cores = s.cores := rfl
@[simp] theorem delMerge_ctxs (k : Nat) : (delMerge s k).ctxs = s.ctxs := rfl
@[simp] theorem delMerge_save (k : Nat) : (delMerge s k).save = s.save := rfl
@[simp] theorem delMerge_attn (k : Nat) : (delMerge s k).attn = s.attn := rfl
@[simp] theorem delMerge_pins (k : Nat) : (delMerge s k).pins = s.pins := rfl
@[simp] theorem delMerge_snap (k : Nat) : (delMerge s k).snap = s.snap := rfl
@[simp] theorem delMerge_basin (k : Nat) : (delMerge s k).basin = s.basin := rfl
@[simp] theorem delMerge_xing (k : Nat) : (delMerge s k).xing = s.xing := rfl
@[simp] theorem delMerge_stew (k : Nat) : (delMerge s k).stew = s.stew := rfl
@[simp] theorem delMerge_free (k : Nat) : (delMerge s k).free = s.free := rfl
@[simp] theorem delMerge_pending (k : Nat) : (delMerge s k).pending = s.pending := rfl

@[simp] theorem modGlb_par (f : Glb → Glb) : (modGlb s f).par = s.par := rfl
@[simp] theorem modGlb_port (f : Glb → Glb) : (modGlb s f).port = s.port := rfl
@[simp] theorem modGlb_evt (f : Glb → Glb) : (modGlb s f).evt = s.evt := rfl
@[simp] theorem modGlb_log (f : Glb → Glb) : (modGlb s f).log = s.log := rfl
@[simp] theorem modGlb_watch (f : Glb → Glb) : (modGlb s f).watch = s.watch := rfl
@[simp] theorem modGlb_svc (f : Glb → Glb) : (modGlb s f).svc = s.svc := rfl
@[simp] theorem modGlb_lb (f : Glb → Glb) : (modGlb s f).lb = s.lb := rfl
@[simp] theorem modGlb_test (f : Glb → Glb) : (modGlb s f).test = s.test := rfl
@[simp] theorem modGlb_links (f : Glb → Glb) : (modGlb s f).links = s.links := rfl
@[simp] theorem modGlb_agents (f : Glb → Glb) : (modGlb s f).agents = s.agents := rfl
@[simp] theorem modGlb_adms (f : Glb → Glb) : (modGlb s f).adms = s.adms := rfl
@[simp] theorem modGlb_admRr (f : Glb → Glb) : (modGlb s f).admRr = s.admRr := rfl
@[simp] theorem modGlb_parts (f : Glb → Glb) : (modGlb s f).parts = s.parts := rfl
@[simp] theorem modGlb_seqs (f : Glb → Glb) : (modGlb s f).seqs = s.seqs := rfl
@[simp] theorem modGlb_queues (f : Glb → Glb) : (modGlb s f).queues = s.queues := rfl
@[simp] theorem modGlb_inlet (f : Glb → Glb) : (modGlb s f).inlet = s.inlet := rfl
@[simp] theorem modGlb_launches (f : Glb → Glb) : (modGlb s f).launches = s.launches := rfl
@[simp] theorem modGlb_pushes (f : Glb → Glb) : (modGlb s f).pushes = s.pushes := rfl
@[simp] theorem modGlb_hcache (f : Glb → Glb) : (modGlb s f).hcache = s.hcache := rfl
@[simp] theorem modGlb_weir (f : Glb → Glb) : (modGlb s f).weir = s.weir := rfl
@[simp] theorem modGlb_gctxs (f : Glb → Glb) : (modGlb s f).gctxs = s.gctxs := rfl
@[simp] theorem modGlb_arenas (f : Glb → Glb) : (modGlb s f).arenas = s.arenas := rfl
@[simp] theorem modGlb_ccache (f : Glb → Glb) : (modGlb s f).ccache = s.ccache := rfl
@[simp] theorem modGlb_iz (f : Glb → Glb) : (modGlb s f).iz = s.iz := rfl
@[simp] theorem modGlb_sched (f : Glb → Glb) : (modGlb s f).sched = s.sched := rfl
@[simp] theorem modGlb_cores (f : Glb → Glb) : (modGlb s f).cores = s.cores := rfl
@[simp] theorem modGlb_ctxs (f : Glb → Glb) : (modGlb s f).ctxs = s.ctxs := rfl
@[simp] theorem modGlb_save (f : Glb → Glb) : (modGlb s f).save = s.save := rfl
@[simp] theorem modGlb_attn (f : Glb → Glb) : (modGlb s f).attn = s.attn := rfl
@[simp] theorem modGlb_pins (f : Glb → Glb) : (modGlb s f).pins = s.pins := rfl
@[simp] theorem modGlb_snap (f : Glb → Glb) : (modGlb s f).snap = s.snap := rfl
@[simp] theorem modGlb_basin (f : Glb → Glb) : (modGlb s f).basin = s.basin := rfl
@[simp] theorem modGlb_outf (f : Glb → Glb) : (modGlb s f).outf = s.outf := rfl
@[simp] theorem modGlb_xing (f : Glb → Glb) : (modGlb s f).xing = s.xing := rfl
@[simp] theorem modGlb_stew (f : Glb → Glb) : (modGlb s f).stew = s.stew := rfl
@[simp] theorem modGlb_free (f : Glb → Glb) : (modGlb s f).free = s.free := rfl
@[simp] theorem modGlb_pending (f : Glb → Glb) : (modGlb s f).pending = s.pending := rfl

@[simp] theorem modSched_par (f : Sched → Sched) : (modSched s f).par = s.par := rfl
@[simp] theorem modSched_glb (f : Sched → Sched) : (modSched s f).glb = s.glb := rfl
@[simp] theorem modSched_port (f : Sched → Sched) : (modSched s f).port = s.port := rfl
@[simp] theorem modSched_evt (f : Sched → Sched) : (modSched s f).evt = s.evt := rfl
@[simp] theorem modSched_log (f : Sched → Sched) : (modSched s f).log = s.log := rfl
@[simp] theorem modSched_watch (f : Sched → Sched) : (modSched s f).watch = s.watch := rfl
@[simp] theorem modSched_svc (f : Sched → Sched) : (modSched s f).svc = s.svc := rfl
@[simp] theorem modSched_lb (f : Sched → Sched) : (modSched s f).lb = s.lb := rfl
@[simp] theorem modSched_test (f : Sched → Sched) : (modSched s f).test = s.test := rfl
@[simp] theorem modSched_links (f : Sched → Sched) : (modSched s f).links = s.links := rfl
@[simp] theorem modSched_agents (f : Sched → Sched) : (modSched s f).agents = s.agents := rfl
@[simp] theorem modSched_adms (f : Sched → Sched) : (modSched s f).adms = s.adms := rfl
@[simp] theorem modSched_admRr (f : Sched → Sched) : (modSched s f).admRr = s.admRr := rfl
@[simp] theorem modSched_parts (f : Sched → Sched) : (modSched s f).parts = s.parts := rfl
@[simp] theorem modSched_seqs (f : Sched → Sched) : (modSched s f).seqs = s.seqs := rfl
@[simp] theorem modSched_queues (f : Sched → Sched) : (modSched s f).queues = s.queues := rfl
@[simp] theorem modSched_inlet (f : Sched → Sched) : (modSched s f).inlet = s.inlet := rfl
@[simp] theorem modSched_launches (f : Sched → Sched) : (modSched s f).launches = s.launches := rfl
@[simp] theorem modSched_pushes (f : Sched → Sched) : (modSched s f).pushes = s.pushes := rfl
@[simp] theorem modSched_hcache (f : Sched → Sched) : (modSched s f).hcache = s.hcache := rfl
@[simp] theorem modSched_weir (f : Sched → Sched) : (modSched s f).weir = s.weir := rfl
@[simp] theorem modSched_gctxs (f : Sched → Sched) : (modSched s f).gctxs = s.gctxs := rfl
@[simp] theorem modSched_arenas (f : Sched → Sched) : (modSched s f).arenas = s.arenas := rfl
@[simp] theorem modSched_ccache (f : Sched → Sched) : (modSched s f).ccache = s.ccache := rfl
@[simp] theorem modSched_iz (f : Sched → Sched) : (modSched s f).iz = s.iz := rfl
@[simp] theorem modSched_cores (f : Sched → Sched) : (modSched s f).cores = s.cores := rfl
@[simp] theorem modSched_ctxs (f : Sched → Sched) : (modSched s f).ctxs = s.ctxs := rfl
@[simp] theorem modSched_save (f : Sched → Sched) : (modSched s f).save = s.save := rfl
@[simp] theorem modSched_attn (f : Sched → Sched) : (modSched s f).attn = s.attn := rfl
@[simp] theorem modSched_pins (f : Sched → Sched) : (modSched s f).pins = s.pins := rfl
@[simp] theorem modSched_snap (f : Sched → Sched) : (modSched s f).snap = s.snap := rfl
@[simp] theorem modSched_basin (f : Sched → Sched) : (modSched s f).basin = s.basin := rfl
@[simp] theorem modSched_outf (f : Sched → Sched) : (modSched s f).outf = s.outf := rfl
@[simp] theorem modSched_xing (f : Sched → Sched) : (modSched s f).xing = s.xing := rfl
@[simp] theorem modSched_stew (f : Sched → Sched) : (modSched s f).stew = s.stew := rfl
@[simp] theorem modSched_free (f : Sched → Sched) : (modSched s f).free = s.free := rfl
@[simp] theorem modSched_pending (f : Sched → Sched) : (modSched s f).pending = s.pending := rfl

@[simp] theorem modWeir_par (f : Weir → Weir) : (modWeir s f).par = s.par := rfl
@[simp] theorem modWeir_glb (f : Weir → Weir) : (modWeir s f).glb = s.glb := rfl
@[simp] theorem modWeir_port (f : Weir → Weir) : (modWeir s f).port = s.port := rfl
@[simp] theorem modWeir_evt (f : Weir → Weir) : (modWeir s f).evt = s.evt := rfl
@[simp] theorem modWeir_log (f : Weir → Weir) : (modWeir s f).log = s.log := rfl
@[simp] theorem modWeir_watch (f : Weir → Weir) : (modWeir s f).watch = s.watch := rfl
@[simp] theorem modWeir_svc (f : Weir → Weir) : (modWeir s f).svc = s.svc := rfl
@[simp] theorem modWeir_lb (f : Weir → Weir) : (modWeir s f).lb = s.lb := rfl
@[simp] theorem modWeir_test (f : Weir → Weir) : (modWeir s f).test = s.test := rfl
@[simp] theorem modWeir_links (f : Weir → Weir) : (modWeir s f).links = s.links := rfl
@[simp] theorem modWeir_agents (f : Weir → Weir) : (modWeir s f).agents = s.agents := rfl
@[simp] theorem modWeir_adms (f : Weir → Weir) : (modWeir s f).adms = s.adms := rfl
@[simp] theorem modWeir_admRr (f : Weir → Weir) : (modWeir s f).admRr = s.admRr := rfl
@[simp] theorem modWeir_parts (f : Weir → Weir) : (modWeir s f).parts = s.parts := rfl
@[simp] theorem modWeir_seqs (f : Weir → Weir) : (modWeir s f).seqs = s.seqs := rfl
@[simp] theorem modWeir_queues (f : Weir → Weir) : (modWeir s f).queues = s.queues := rfl
@[simp] theorem modWeir_inlet (f : Weir → Weir) : (modWeir s f).inlet = s.inlet := rfl
@[simp] theorem modWeir_launches (f : Weir → Weir) : (modWeir s f).launches = s.launches := rfl
@[simp] theorem modWeir_pushes (f : Weir → Weir) : (modWeir s f).pushes = s.pushes := rfl
@[simp] theorem modWeir_hcache (f : Weir → Weir) : (modWeir s f).hcache = s.hcache := rfl
@[simp] theorem modWeir_gctxs (f : Weir → Weir) : (modWeir s f).gctxs = s.gctxs := rfl
@[simp] theorem modWeir_arenas (f : Weir → Weir) : (modWeir s f).arenas = s.arenas := rfl
@[simp] theorem modWeir_ccache (f : Weir → Weir) : (modWeir s f).ccache = s.ccache := rfl
@[simp] theorem modWeir_iz (f : Weir → Weir) : (modWeir s f).iz = s.iz := rfl
@[simp] theorem modWeir_sched (f : Weir → Weir) : (modWeir s f).sched = s.sched := rfl
@[simp] theorem modWeir_cores (f : Weir → Weir) : (modWeir s f).cores = s.cores := rfl
@[simp] theorem modWeir_ctxs (f : Weir → Weir) : (modWeir s f).ctxs = s.ctxs := rfl
@[simp] theorem modWeir_save (f : Weir → Weir) : (modWeir s f).save = s.save := rfl
@[simp] theorem modWeir_attn (f : Weir → Weir) : (modWeir s f).attn = s.attn := rfl
@[simp] theorem modWeir_pins (f : Weir → Weir) : (modWeir s f).pins = s.pins := rfl
@[simp] theorem modWeir_snap (f : Weir → Weir) : (modWeir s f).snap = s.snap := rfl
@[simp] theorem modWeir_basin (f : Weir → Weir) : (modWeir s f).basin = s.basin := rfl
@[simp] theorem modWeir_outf (f : Weir → Weir) : (modWeir s f).outf = s.outf := rfl
@[simp] theorem modWeir_xing (f : Weir → Weir) : (modWeir s f).xing = s.xing := rfl
@[simp] theorem modWeir_stew (f : Weir → Weir) : (modWeir s f).stew = s.stew := rfl
@[simp] theorem modWeir_free (f : Weir → Weir) : (modWeir s f).free = s.free := rfl
@[simp] theorem modWeir_pending (f : Weir → Weir) : (modWeir s f).pending = s.pending := rfl

@[simp] theorem modWatch_par (f : Watch → Watch) : (modWatch s f).par = s.par := rfl
@[simp] theorem modWatch_glb (f : Watch → Watch) : (modWatch s f).glb = s.glb := rfl
@[simp] theorem modWatch_port (f : Watch → Watch) : (modWatch s f).port = s.port := rfl
@[simp] theorem modWatch_evt (f : Watch → Watch) : (modWatch s f).evt = s.evt := rfl
@[simp] theorem modWatch_log (f : Watch → Watch) : (modWatch s f).log = s.log := rfl
@[simp] theorem modWatch_svc (f : Watch → Watch) : (modWatch s f).svc = s.svc := rfl
@[simp] theorem modWatch_lb (f : Watch → Watch) : (modWatch s f).lb = s.lb := rfl
@[simp] theorem modWatch_test (f : Watch → Watch) : (modWatch s f).test = s.test := rfl
@[simp] theorem modWatch_links (f : Watch → Watch) : (modWatch s f).links = s.links := rfl
@[simp] theorem modWatch_agents (f : Watch → Watch) : (modWatch s f).agents = s.agents := rfl
@[simp] theorem modWatch_adms (f : Watch → Watch) : (modWatch s f).adms = s.adms := rfl
@[simp] theorem modWatch_admRr (f : Watch → Watch) : (modWatch s f).admRr = s.admRr := rfl
@[simp] theorem modWatch_parts (f : Watch → Watch) : (modWatch s f).parts = s.parts := rfl
@[simp] theorem modWatch_seqs (f : Watch → Watch) : (modWatch s f).seqs = s.seqs := rfl
@[simp] theorem modWatch_queues (f : Watch → Watch) : (modWatch s f).queues = s.queues := rfl
@[simp] theorem modWatch_inlet (f : Watch → Watch) : (modWatch s f).inlet = s.inlet := rfl
@[simp] theorem modWatch_launches (f : Watch → Watch) : (modWatch s f).launches = s.launches := rfl
@[simp] theorem modWatch_pushes (f : Watch → Watch) : (modWatch s f).pushes = s.pushes := rfl
@[simp] theorem modWatch_hcache (f : Watch → Watch) : (modWatch s f).hcache = s.hcache := rfl
@[simp] theorem modWatch_weir (f : Watch → Watch) : (modWatch s f).weir = s.weir := rfl
@[simp] theorem modWatch_gctxs (f : Watch → Watch) : (modWatch s f).gctxs = s.gctxs := rfl
@[simp] theorem modWatch_arenas (f : Watch → Watch) : (modWatch s f).arenas = s.arenas := rfl
@[simp] theorem modWatch_ccache (f : Watch → Watch) : (modWatch s f).ccache = s.ccache := rfl
@[simp] theorem modWatch_iz (f : Watch → Watch) : (modWatch s f).iz = s.iz := rfl
@[simp] theorem modWatch_sched (f : Watch → Watch) : (modWatch s f).sched = s.sched := rfl
@[simp] theorem modWatch_cores (f : Watch → Watch) : (modWatch s f).cores = s.cores := rfl
@[simp] theorem modWatch_ctxs (f : Watch → Watch) : (modWatch s f).ctxs = s.ctxs := rfl
@[simp] theorem modWatch_save (f : Watch → Watch) : (modWatch s f).save = s.save := rfl
@[simp] theorem modWatch_attn (f : Watch → Watch) : (modWatch s f).attn = s.attn := rfl
@[simp] theorem modWatch_pins (f : Watch → Watch) : (modWatch s f).pins = s.pins := rfl
@[simp] theorem modWatch_snap (f : Watch → Watch) : (modWatch s f).snap = s.snap := rfl
@[simp] theorem modWatch_basin (f : Watch → Watch) : (modWatch s f).basin = s.basin := rfl
@[simp] theorem modWatch_outf (f : Watch → Watch) : (modWatch s f).outf = s.outf := rfl
@[simp] theorem modWatch_xing (f : Watch → Watch) : (modWatch s f).xing = s.xing := rfl
@[simp] theorem modWatch_stew (f : Watch → Watch) : (modWatch s f).stew = s.stew := rfl
@[simp] theorem modWatch_free (f : Watch → Watch) : (modWatch s f).free = s.free := rfl
@[simp] theorem modWatch_pending (f : Watch → Watch) : (modWatch s f).pending = s.pending := rfl

@[simp] theorem modSvc_par (f : Svc → Svc) : (modSvc s f).par = s.par := rfl
@[simp] theorem modSvc_glb (f : Svc → Svc) : (modSvc s f).glb = s.glb := rfl
@[simp] theorem modSvc_port (f : Svc → Svc) : (modSvc s f).port = s.port := rfl
@[simp] theorem modSvc_evt (f : Svc → Svc) : (modSvc s f).evt = s.evt := rfl
@[simp] theorem modSvc_log (f : Svc → Svc) : (modSvc s f).log = s.log := rfl
@[simp] theorem modSvc_watch (f : Svc → Svc) : (modSvc s f).watch = s.watch := rfl
@[simp] theorem modSvc_lb (f : Svc → Svc) : (modSvc s f).lb = s.lb := rfl
@[simp] theorem modSvc_test (f : Svc → Svc) : (modSvc s f).test = s.test := rfl
@[simp] theorem modSvc_links (f : Svc → Svc) : (modSvc s f).links = s.links := rfl
@[simp] theorem modSvc_agents (f : Svc → Svc) : (modSvc s f).agents = s.agents := rfl
@[simp] theorem modSvc_adms (f : Svc → Svc) : (modSvc s f).adms = s.adms := rfl
@[simp] theorem modSvc_admRr (f : Svc → Svc) : (modSvc s f).admRr = s.admRr := rfl
@[simp] theorem modSvc_parts (f : Svc → Svc) : (modSvc s f).parts = s.parts := rfl
@[simp] theorem modSvc_seqs (f : Svc → Svc) : (modSvc s f).seqs = s.seqs := rfl
@[simp] theorem modSvc_queues (f : Svc → Svc) : (modSvc s f).queues = s.queues := rfl
@[simp] theorem modSvc_inlet (f : Svc → Svc) : (modSvc s f).inlet = s.inlet := rfl
@[simp] theorem modSvc_launches (f : Svc → Svc) : (modSvc s f).launches = s.launches := rfl
@[simp] theorem modSvc_pushes (f : Svc → Svc) : (modSvc s f).pushes = s.pushes := rfl
@[simp] theorem modSvc_hcache (f : Svc → Svc) : (modSvc s f).hcache = s.hcache := rfl
@[simp] theorem modSvc_weir (f : Svc → Svc) : (modSvc s f).weir = s.weir := rfl
@[simp] theorem modSvc_gctxs (f : Svc → Svc) : (modSvc s f).gctxs = s.gctxs := rfl
@[simp] theorem modSvc_arenas (f : Svc → Svc) : (modSvc s f).arenas = s.arenas := rfl
@[simp] theorem modSvc_ccache (f : Svc → Svc) : (modSvc s f).ccache = s.ccache := rfl
@[simp] theorem modSvc_iz (f : Svc → Svc) : (modSvc s f).iz = s.iz := rfl
@[simp] theorem modSvc_sched (f : Svc → Svc) : (modSvc s f).sched = s.sched := rfl
@[simp] theorem modSvc_cores (f : Svc → Svc) : (modSvc s f).cores = s.cores := rfl
@[simp] theorem modSvc_ctxs (f : Svc → Svc) : (modSvc s f).ctxs = s.ctxs := rfl
@[simp] theorem modSvc_save (f : Svc → Svc) : (modSvc s f).save = s.save := rfl
@[simp] theorem modSvc_attn (f : Svc → Svc) : (modSvc s f).attn = s.attn := rfl
@[simp] theorem modSvc_pins (f : Svc → Svc) : (modSvc s f).pins = s.pins := rfl
@[simp] theorem modSvc_snap (f : Svc → Svc) : (modSvc s f).snap = s.snap := rfl
@[simp] theorem modSvc_basin (f : Svc → Svc) : (modSvc s f).basin = s.basin := rfl
@[simp] theorem modSvc_outf (f : Svc → Svc) : (modSvc s f).outf = s.outf := rfl
@[simp] theorem modSvc_xing (f : Svc → Svc) : (modSvc s f).xing = s.xing := rfl
@[simp] theorem modSvc_stew (f : Svc → Svc) : (modSvc s f).stew = s.stew := rfl
@[simp] theorem modSvc_free (f : Svc → Svc) : (modSvc s f).free = s.free := rfl
@[simp] theorem modSvc_pending (f : Svc → Svc) : (modSvc s f).pending = s.pending := rfl

@[simp] theorem modXing_par (f : Xing → Xing) : (modXing s f).par = s.par := rfl
@[simp] theorem modXing_glb (f : Xing → Xing) : (modXing s f).glb = s.glb := rfl
@[simp] theorem modXing_port (f : Xing → Xing) : (modXing s f).port = s.port := rfl
@[simp] theorem modXing_evt (f : Xing → Xing) : (modXing s f).evt = s.evt := rfl
@[simp] theorem modXing_log (f : Xing → Xing) : (modXing s f).log = s.log := rfl
@[simp] theorem modXing_watch (f : Xing → Xing) : (modXing s f).watch = s.watch := rfl
@[simp] theorem modXing_svc (f : Xing → Xing) : (modXing s f).svc = s.svc := rfl
@[simp] theorem modXing_lb (f : Xing → Xing) : (modXing s f).lb = s.lb := rfl
@[simp] theorem modXing_test (f : Xing → Xing) : (modXing s f).test = s.test := rfl
@[simp] theorem modXing_links (f : Xing → Xing) : (modXing s f).links = s.links := rfl
@[simp] theorem modXing_agents (f : Xing → Xing) : (modXing s f).agents = s.agents := rfl
@[simp] theorem modXing_adms (f : Xing → Xing) : (modXing s f).adms = s.adms := rfl
@[simp] theorem modXing_admRr (f : Xing → Xing) : (modXing s f).admRr = s.admRr := rfl
@[simp] theorem modXing_parts (f : Xing → Xing) : (modXing s f).parts = s.parts := rfl
@[simp] theorem modXing_seqs (f : Xing → Xing) : (modXing s f).seqs = s.seqs := rfl
@[simp] theorem modXing_queues (f : Xing → Xing) : (modXing s f).queues = s.queues := rfl
@[simp] theorem modXing_inlet (f : Xing → Xing) : (modXing s f).inlet = s.inlet := rfl
@[simp] theorem modXing_launches (f : Xing → Xing) : (modXing s f).launches = s.launches := rfl
@[simp] theorem modXing_pushes (f : Xing → Xing) : (modXing s f).pushes = s.pushes := rfl
@[simp] theorem modXing_hcache (f : Xing → Xing) : (modXing s f).hcache = s.hcache := rfl
@[simp] theorem modXing_weir (f : Xing → Xing) : (modXing s f).weir = s.weir := rfl
@[simp] theorem modXing_gctxs (f : Xing → Xing) : (modXing s f).gctxs = s.gctxs := rfl
@[simp] theorem modXing_arenas (f : Xing → Xing) : (modXing s f).arenas = s.arenas := rfl
@[simp] theorem modXing_ccache (f : Xing → Xing) : (modXing s f).ccache = s.ccache := rfl
@[simp] theorem modXing_iz (f : Xing → Xing) : (modXing s f).iz = s.iz := rfl
@[simp] theorem modXing_sched (f : Xing → Xing) : (modXing s f).sched = s.sched := rfl
@[simp] theorem modXing_cores (f : Xing → Xing) : (modXing s f).cores = s.cores := rfl
@[simp] theorem modXing_ctxs (f : Xing → Xing) : (modXing s f).ctxs = s.ctxs := rfl
@[simp] theorem modXing_save (f : Xing → Xing) : (modXing s f).save = s.save := rfl
@[simp] theorem modXing_attn (f : Xing → Xing) : (modXing s f).attn = s.attn := rfl
@[simp] theorem modXing_pins (f : Xing → Xing) : (modXing s f).pins = s.pins := rfl
@[simp] theorem modXing_snap (f : Xing → Xing) : (modXing s f).snap = s.snap := rfl
@[simp] theorem modXing_basin (f : Xing → Xing) : (modXing s f).basin = s.basin := rfl
@[simp] theorem modXing_outf (f : Xing → Xing) : (modXing s f).outf = s.outf := rfl
@[simp] theorem modXing_stew (f : Xing → Xing) : (modXing s f).stew = s.stew := rfl
@[simp] theorem modXing_free (f : Xing → Xing) : (modXing s f).free = s.free := rfl
@[simp] theorem modXing_pending (f : Xing → Xing) : (modXing s f).pending = s.pending := rfl

@[simp] theorem modStew_par (f : Stew → Stew) : (modStew s f).par = s.par := rfl
@[simp] theorem modStew_glb (f : Stew → Stew) : (modStew s f).glb = s.glb := rfl
@[simp] theorem modStew_port (f : Stew → Stew) : (modStew s f).port = s.port := rfl
@[simp] theorem modStew_evt (f : Stew → Stew) : (modStew s f).evt = s.evt := rfl
@[simp] theorem modStew_log (f : Stew → Stew) : (modStew s f).log = s.log := rfl
@[simp] theorem modStew_watch (f : Stew → Stew) : (modStew s f).watch = s.watch := rfl
@[simp] theorem modStew_svc (f : Stew → Stew) : (modStew s f).svc = s.svc := rfl
@[simp] theorem modStew_lb (f : Stew → Stew) : (modStew s f).lb = s.lb := rfl
@[simp] theorem modStew_test (f : Stew → Stew) : (modStew s f).test = s.test := rfl
@[simp] theorem modStew_links (f : Stew → Stew) : (modStew s f).links = s.links := rfl
@[simp] theorem modStew_agents (f : Stew → Stew) : (modStew s f).agents = s.agents := rfl
@[simp] theorem modStew_adms (f : Stew → Stew) : (modStew s f).adms = s.adms := rfl
@[simp] theorem modStew_admRr (f : Stew → Stew) : (modStew s f).admRr = s.admRr := rfl
@[simp] theorem modStew_parts (f : Stew → Stew) : (modStew s f).parts = s.parts := rfl
@[simp] theorem modStew_seqs (f : Stew → Stew) : (modStew s f).seqs = s.seqs := rfl
@[simp] theorem modStew_queues (f : Stew → Stew) : (modStew s f).queues = s.queues := rfl
@[simp] theorem modStew_inlet (f : Stew → Stew) : (modStew s f).inlet = s.inlet := rfl
@[simp] theorem modStew_launches (f : Stew → Stew) : (modStew s f).launches = s.launches := rfl
@[simp] theorem modStew_pushes (f : Stew → Stew) : (modStew s f).pushes = s.pushes := rfl
@[simp] theorem modStew_hcache (f : Stew → Stew) : (modStew s f).hcache = s.hcache := rfl
@[simp] theorem modStew_weir (f : Stew → Stew) : (modStew s f).weir = s.weir := rfl
@[simp] theorem modStew_gctxs (f : Stew → Stew) : (modStew s f).gctxs = s.gctxs := rfl
@[simp] theorem modStew_arenas (f : Stew → Stew) : (modStew s f).arenas = s.arenas := rfl
@[simp] theorem modStew_ccache (f : Stew → Stew) : (modStew s f).ccache = s.ccache := rfl
@[simp] theorem modStew_iz (f : Stew → Stew) : (modStew s f).iz = s.iz := rfl
@[simp] theorem modStew_sched (f : Stew → Stew) : (modStew s f).sched = s.sched := rfl
@[simp] theorem modStew_cores (f : Stew → Stew) : (modStew s f).cores = s.cores := rfl
@[simp] theorem modStew_ctxs (f : Stew → Stew) : (modStew s f).ctxs = s.ctxs := rfl
@[simp] theorem modStew_save (f : Stew → Stew) : (modStew s f).save = s.save := rfl
@[simp] theorem modStew_attn (f : Stew → Stew) : (modStew s f).attn = s.attn := rfl
@[simp] theorem modStew_pins (f : Stew → Stew) : (modStew s f).pins = s.pins := rfl
@[simp] theorem modStew_snap (f : Stew → Stew) : (modStew s f).snap = s.snap := rfl
@[simp] theorem modStew_basin (f : Stew → Stew) : (modStew s f).basin = s.basin := rfl
@[simp] theorem modStew_outf (f : Stew → Stew) : (modStew s f).outf = s.outf := rfl
@[simp] theorem modStew_xing (f : Stew → Stew) : (modStew s f).xing = s.xing := rfl
@[simp] theorem modStew_free (f : Stew → Stew) : (modStew s f).free = s.free := rfl
@[simp] theorem modStew_pending (f : Stew → Stew) : (modStew s f).pending = s.pending := rfl

@[simp] theorem modBasin_par (f : Basin → Basin) : (modBasin s f).par = s.par := rfl
@[simp] theorem modBasin_glb (f : Basin → Basin) : (modBasin s f).glb = s.glb := rfl
@[simp] theorem modBasin_port (f : Basin → Basin) : (modBasin s f).port = s.port := rfl
@[simp] theorem modBasin_evt (f : Basin → Basin) : (modBasin s f).evt = s.evt := rfl
@[simp] theorem modBasin_log (f : Basin → Basin) : (modBasin s f).log = s.log := rfl
@[simp] theorem modBasin_watch (f : Basin → Basin) : (modBasin s f).watch = s.watch := rfl
@[simp] theorem modBasin_svc (f : Basin → Basin) : (modBasin s f).svc = s.svc := rfl
@[simp] theorem modBasin_lb (f : Basin → Basin) : (modBasin s f).lb = s.lb := rfl
@[simp] theorem modBasin_test (f : Basin → Basin) : (modBasin s f).test = s.test := rfl
@[simp] theorem modBasin_links (f : Basin → Basin) : (modBasin s f).links = s.links := rfl
@[simp] theorem modBasin_agents (f : Basin → Basin) : (modBasin s f).agents = s.agents := rfl
@[simp] theorem modBasin_adms (f : Basin → Basin) : (modBasin s f).adms = s.adms := rfl
@[simp] theorem modBasin_admRr (f : Basin → Basin) : (modBasin s f).admRr = s.admRr := rfl
@[simp] theorem modBasin_parts (f : Basin → Basin) : (modBasin s f).parts = s.parts := rfl
@[simp] theorem modBasin_seqs (f : Basin → Basin) : (modBasin s f).seqs = s.seqs := rfl
@[simp] theorem modBasin_queues (f : Basin → Basin) : (modBasin s f).queues = s.queues := rfl
@[simp] theorem modBasin_inlet (f : Basin → Basin) : (modBasin s f).inlet = s.inlet := rfl
@[simp] theorem modBasin_launches (f : Basin → Basin) : (modBasin s f).launches = s.launches := rfl
@[simp] theorem modBasin_pushes (f : Basin → Basin) : (modBasin s f).pushes = s.pushes := rfl
@[simp] theorem modBasin_hcache (f : Basin → Basin) : (modBasin s f).hcache = s.hcache := rfl
@[simp] theorem modBasin_weir (f : Basin → Basin) : (modBasin s f).weir = s.weir := rfl
@[simp] theorem modBasin_gctxs (f : Basin → Basin) : (modBasin s f).gctxs = s.gctxs := rfl
@[simp] theorem modBasin_arenas (f : Basin → Basin) : (modBasin s f).arenas = s.arenas := rfl
@[simp] theorem modBasin_ccache (f : Basin → Basin) : (modBasin s f).ccache = s.ccache := rfl
@[simp] theorem modBasin_iz (f : Basin → Basin) : (modBasin s f).iz = s.iz := rfl
@[simp] theorem modBasin_sched (f : Basin → Basin) : (modBasin s f).sched = s.sched := rfl
@[simp] theorem modBasin_cores (f : Basin → Basin) : (modBasin s f).cores = s.cores := rfl
@[simp] theorem modBasin_ctxs (f : Basin → Basin) : (modBasin s f).ctxs = s.ctxs := rfl
@[simp] theorem modBasin_save (f : Basin → Basin) : (modBasin s f).save = s.save := rfl
@[simp] theorem modBasin_attn (f : Basin → Basin) : (modBasin s f).attn = s.attn := rfl
@[simp] theorem modBasin_pins (f : Basin → Basin) : (modBasin s f).pins = s.pins := rfl
@[simp] theorem modBasin_snap (f : Basin → Basin) : (modBasin s f).snap = s.snap := rfl
@[simp] theorem modBasin_outf (f : Basin → Basin) : (modBasin s f).outf = s.outf := rfl
@[simp] theorem modBasin_xing (f : Basin → Basin) : (modBasin s f).xing = s.xing := rfl
@[simp] theorem modBasin_stew (f : Basin → Basin) : (modBasin s f).stew = s.stew := rfl
@[simp] theorem modBasin_free (f : Basin → Basin) : (modBasin s f).free = s.free := rfl
@[simp] theorem modBasin_pending (f : Basin → Basin) : (modBasin s f).pending = s.pending := rfl

@[simp] theorem modLog_par (f : Log → Log) : (modLog s f).par = s.par := rfl
@[simp] theorem modLog_glb (f : Log → Log) : (modLog s f).glb = s.glb := rfl
@[simp] theorem modLog_port (f : Log → Log) : (modLog s f).port = s.port := rfl
@[simp] theorem modLog_evt (f : Log → Log) : (modLog s f).evt = s.evt := rfl
@[simp] theorem modLog_watch (f : Log → Log) : (modLog s f).watch = s.watch := rfl
@[simp] theorem modLog_svc (f : Log → Log) : (modLog s f).svc = s.svc := rfl
@[simp] theorem modLog_lb (f : Log → Log) : (modLog s f).lb = s.lb := rfl
@[simp] theorem modLog_test (f : Log → Log) : (modLog s f).test = s.test := rfl
@[simp] theorem modLog_links (f : Log → Log) : (modLog s f).links = s.links := rfl
@[simp] theorem modLog_agents (f : Log → Log) : (modLog s f).agents = s.agents := rfl
@[simp] theorem modLog_adms (f : Log → Log) : (modLog s f).adms = s.adms := rfl
@[simp] theorem modLog_admRr (f : Log → Log) : (modLog s f).admRr = s.admRr := rfl
@[simp] theorem modLog_parts (f : Log → Log) : (modLog s f).parts = s.parts := rfl
@[simp] theorem modLog_seqs (f : Log → Log) : (modLog s f).seqs = s.seqs := rfl
@[simp] theorem modLog_queues (f : Log → Log) : (modLog s f).queues = s.queues := rfl
@[simp] theorem modLog_inlet (f : Log → Log) : (modLog s f).inlet = s.inlet := rfl
@[simp] theorem modLog_launches (f : Log → Log) : (modLog s f).launches = s.launches := rfl
@[simp] theorem modLog_pushes (f : Log → Log) : (modLog s f).pushes = s.pushes := rfl
@[simp] theorem modLog_hcache (f : Log → Log) : (modLog s f).hcache = s.hcache := rfl
@[simp] theorem modLog_weir (f : Log → Log) : (modLog s f).weir = s.weir := rfl
@[simp] theorem modLog_gctxs (f : Log → Log) : (modLog s f).gctxs = s.gctxs := rfl
@[simp] theorem modLog_arenas (f : Log → Log) : (modLog s f).arenas = s.arenas := rfl
@[simp] theorem modLog_ccache (f : Log → Log) : (modLog s f).ccache = s.ccache := rfl
@[simp] theorem modLog_iz (f : Log → Log) : (modLog s f).iz = s.iz := rfl
@[simp] theorem modLog_sched (f : Log → Log) : (modLog s f).sched = s.sched := rfl
@[simp] theorem modLog_cores (f : Log → Log) : (modLog s f).cores = s.cores := rfl
@[simp] theorem modLog_ctxs (f : Log → Log) : (modLog s f).ctxs = s.ctxs := rfl
@[simp] theorem modLog_save (f : Log → Log) : (modLog s f).save = s.save := rfl
@[simp] theorem modLog_attn (f : Log → Log) : (modLog s f).attn = s.attn := rfl
@[simp] theorem modLog_pins (f : Log → Log) : (modLog s f).pins = s.pins := rfl
@[simp] theorem modLog_snap (f : Log → Log) : (modLog s f).snap = s.snap := rfl
@[simp] theorem modLog_basin (f : Log → Log) : (modLog s f).basin = s.basin := rfl
@[simp] theorem modLog_outf (f : Log → Log) : (modLog s f).outf = s.outf := rfl
@[simp] theorem modLog_xing (f : Log → Log) : (modLog s f).xing = s.xing := rfl
@[simp] theorem modLog_stew (f : Log → Log) : (modLog s f).stew = s.stew := rfl
@[simp] theorem modLog_free (f : Log → Log) : (modLog s f).free = s.free := rfl
@[simp] theorem modLog_pending (f : Log → Log) : (modLog s f).pending = s.pending := rfl

@[simp] theorem modLb_par (f : Lb → Lb) : (modLb s f).par = s.par := rfl
@[simp] theorem modLb_glb (f : Lb → Lb) : (modLb s f).glb = s.glb := rfl
@[simp] theorem modLb_port (f : Lb → Lb) : (modLb s f).port = s.port := rfl
@[simp] theorem modLb_evt (f : Lb → Lb) : (modLb s f).evt = s.evt := rfl
@[simp] theorem modLb_log (f : Lb → Lb) : (modLb s f).log = s.log := rfl
@[simp] theorem modLb_watch (f : Lb → Lb) : (modLb s f).watch = s.watch := rfl
@[simp] theorem modLb_svc (f : Lb → Lb) : (modLb s f).svc = s.svc := rfl
@[simp] theorem modLb_test (f : Lb → Lb) : (modLb s f).test = s.test := rfl
@[simp] theorem modLb_links (f : Lb → Lb) : (modLb s f).links = s.links := rfl
@[simp] theorem modLb_agents (f : Lb → Lb) : (modLb s f).agents = s.agents := rfl
@[simp] theorem modLb_adms (f : Lb → Lb) : (modLb s f).adms = s.adms := rfl
@[simp] theorem modLb_admRr (f : Lb → Lb) : (modLb s f).admRr = s.admRr := rfl
@[simp] theorem modLb_parts (f : Lb → Lb) : (modLb s f).parts = s.parts := rfl
@[simp] theorem modLb_seqs (f : Lb → Lb) : (modLb s f).seqs = s.seqs := rfl
@[simp] theorem modLb_queues (f : Lb → Lb) : (modLb s f).queues = s.queues := rfl
@[simp] theorem modLb_inlet (f : Lb → Lb) : (modLb s f).inlet = s.inlet := rfl
@[simp] theorem modLb_launches (f : Lb → Lb) : (modLb s f).launches = s.launches := rfl
@[simp] theorem modLb_pushes (f : Lb → Lb) : (modLb s f).pushes = s.pushes := rfl
@[simp] theorem modLb_hcache (f : Lb → Lb) : (modLb s f).hcache = s.hcache := rfl
@[simp] theorem modLb_weir (f : Lb → Lb) : (modLb s f).weir = s.weir := rfl
@[simp] theorem modLb_gctxs (f : Lb → Lb) : (modLb s f).gctxs = s.gctxs := rfl
@[simp] theorem modLb_arenas (f : Lb → Lb) : (modLb s f).arenas = s.arenas := rfl
@[simp] theorem modLb_ccache (f : Lb → Lb) : (modLb s f).ccache = s.ccache := rfl
@[simp] theorem modLb_iz (f : Lb → Lb) : (modLb s f).iz = s.iz := rfl
@[simp] theorem modLb_sched (f : Lb → Lb) : (modLb s f).sched = s.sched := rfl
@[simp] theorem modLb_cores (f : Lb → Lb) : (modLb s f).cores = s.cores := rfl
@[simp] theorem modLb_ctxs (f : Lb → Lb) : (modLb s f).ctxs = s.ctxs := rfl
@[simp] theorem modLb_save (f : Lb → Lb) : (modLb s f).save = s.save := rfl
@[simp] theorem modLb_attn (f : Lb → Lb) : (modLb s f).attn = s.attn := rfl
@[simp] theorem modLb_pins (f : Lb → Lb) : (modLb s f).pins = s.pins := rfl
@[simp] theorem modLb_snap (f : Lb → Lb) : (modLb s f).snap = s.snap := rfl
@[simp] theorem modLb_basin (f : Lb → Lb) : (modLb s f).basin = s.basin := rfl
@[simp] theorem modLb_outf (f : Lb → Lb) : (modLb s f).outf = s.outf := rfl
@[simp] theorem modLb_xing (f : Lb → Lb) : (modLb s f).xing = s.xing := rfl
@[simp] theorem modLb_stew (f : Lb → Lb) : (modLb s f).stew = s.stew := rfl
@[simp] theorem modLb_free (f : Lb → Lb) : (modLb s f).free = s.free := rfl
@[simp] theorem modLb_pending (f : Lb → Lb) : (modLb s f).pending = s.pending := rfl

@[simp] theorem modGlb_glb (f : Glb → Glb) : (modGlb s f).glb = f s.glb := rfl
@[simp] theorem modSched_sched (f : Sched → Sched) : (modSched s f).sched = f s.sched := rfl
@[simp] theorem modWeir_weir (f : Weir → Weir) : (modWeir s f).weir = f s.weir := rfl
@[simp] theorem modWatch_watch (f : Watch → Watch) : (modWatch s f).watch = f s.watch := rfl
@[simp] theorem modSvc_svc (f : Svc → Svc) : (modSvc s f).svc = f s.svc := rfl
@[simp] theorem modXing_xing (f : Xing → Xing) : (modXing s f).xing = f s.xing := rfl
@[simp] theorem modStew_stew (f : Stew → Stew) : (modStew s f).stew = f s.stew := rfl
@[simp] theorem modBasin_basin (f : Basin → Basin) : (modBasin s f).basin = f s.basin := rfl
@[simp] theorem modLog_log (f : Log → Log) : (modLog s f).log = f s.log := rfl
@[simp] theorem modLb_lb (f : Lb → Lb) : (modLb s f).lb = f s.lb := rfl

variable {s} {k j : Nat}

/-! What was written is read, and the records under other keys are as before. -/

@[simp] theorem getPart_modPart_self {f : Part → Part} : getPart (modPart s k f) k = f (getPart s k) := tget_tput_self
theorem getPart_modPart_ne {f : Part → Part} (h : k ≠ j) : getPart (modPart s k f) j = getPart s j := tget_tput_ne h
@[simp] theorem getSeqs_modSeqs_self {f : Seqs → Seqs} : getSeqs (modSeqs s k f) k = f (getSeqs s k) := tget_tput_self
theorem getSeqs_modSeqs_ne {f : Seqs → Seqs} (h : k ≠ j) : getSeqs (modSeqs s k f) j = getSeqs s j := tget_tput_ne h
@[simp] theorem getQueue_modQueue_self {f : Queue → Queue} : getQueue (modQueue s k f) k = f (getQueue s k) := tget_tput_self
theorem getQueue_modQueue_ne {f : Queue → Queue} (h : k ≠ j) : getQueue (modQueue s k f) j = getQueue s j := tget_tput_ne h
@[simp] theorem getAdm_modAdm_self {f : Adm → Adm} : getAdm (modAdm s k f) k = f (getAdm s k) := tget_tput_self
theorem getAdm_modAdm_ne {f : Adm → Adm} (h : k ≠ j) : getAdm (modAdm s k f) j = getAdm s j := tget_tput_ne h
@[simp] theorem getLink_modLink_self {f : Link → Link} : getLink (modLink s k f) k = f (getLink s k) := tget_tput_self
theorem getLink_modLink_ne {f : Link → Link} (h : k ≠ j) : getLink (modLink s k f) j = getLink s j := tget_tput_ne h
@[simp] theorem getAgent_modAgent_self {f : Agent → Agent} : getAgent (modAgent s k f) k = f (getAgent s k) := tget_tput_self
theorem getAgent_modAgent_ne {f : Agent → Agent} (h : k ≠ j) : getAgent (modAgent s k f) j = getAgent s j := tget_tput_ne h
@[simp] theorem getGctx_modGctx_self {f : GCtx → GCtx} : getGctx (modGctx s k f) k = f (getGctx s k) := tget_tput_self
theorem getGctx_modGctx_ne {f : GCtx → GCtx} (h : k ≠ j) : getGctx (modGctx s k f) j = getGctx s j := tget_tput_ne h
@[simp] theorem getArena_modArena_self {f : Arena → Arena} : getArena (modArena s k f) k = f (getArena s k) := tget_tput_self
theorem getArena_modArena_ne {f : Arena → Arena} (h : k ≠ j) : getArena (modArena s k f) j = getArena s j := tget_tput_ne h
@[simp] theorem getFig_modFig_self {f : PFig → PFig} : getFig (modFig s k f) k = f (getFig s k) := tget_tput_self
theorem getFig_modFig_ne {f : PFig → PFig} (h : k ≠ j) : getFig (modFig s k f) j = getFig s j := tget_tput_ne h
@[simp] theorem getStack_modStack_self {f : Stack → Stack} : getStack (modStack s k f) k = f (getStack s k) := tget_tput_self
theorem getStack_modStack_ne {f : Stack → Stack} (h : k ≠ j) : getStack (modStack s k f) j = getStack s j := tget_tput_ne h
@[simp] theorem getMerge_setMerge_self {m : Merge} : getMerge? (setMerge s k m) k = some m := kget_kput_self
@[simp] theorem getMerge_delMerge_self : getMerge? (delMerge s k) k = none := kget_kdel_self
@[simp] theorem getLaunch_setLaunch_self {l : Launch} : getLaunch? (setLaunch s k l) k = some l := kget_kput_self
theorem getLaunch_setLaunch_ne {l : Launch} (h : k ≠ j) : getLaunch? (setLaunch s k l) j = getLaunch? s j := kget_kput_ne h
@[simp] theorem agtEntry_setAgt_self {w : W64} : agtEntry (setAgt s k w) k = w := tget_tput_self
@[simp] theorem getEq_modEq_self {l : Nat} {f : EqQ → EqQ} : getEq (modEq s k l f) k l = f (getEq s k l) := by
  simp [getEq, modEq, tget_tput_self]
@[simp] theorem getCore_modCore_self {f : Core → Core} : getCore (modCore s k f) k = f (getCore s k) := by
  unfold getCore modCore
  split
  · exact tget_tput_self
  · rw [getAgent_modAgent_self]
@[simp] theorem getCtx_setCtx_self {core : Nat} {c : Ctx} : getCtx? (setCtx s core k c) core k = some c := by
  unfold getCtx? setCtx
  split
  · exact kget_kput_self
  · rw [getAgent_modAgent_self]; exact kget_kput_self

end Sys2Proof.Laws
end

