-- ==== Sys2Proof/Laws/Admin.lean ====
section
/-! SUPPORT. Admin commands and messages: what the executor's turn comes to, and what taking or sending a message can change. -/

namespace Sys2Proof.Laws
open Sys2Proof.Machine

variable {s : State} {op q a : Nat} {pkt : W512}

/-- Two updates of an admin queue agree where they agree on its record. -/
theorem modAdm_congr {f g : Adm → Adm} (h : f (getAdm s q) = g (getAdm s q)) : modAdm s q f = modAdm s q g := by
  simp [modAdm, h]

theorem admTurn_parts (h : AdmTurn s op q pkt = true) : Live s = true ∧ isReady s = true ∧ admNext s = some q ∧
    (getAdm s q).read.head? = some pkt ∧ pktOp pkt = op ∧ admCheck q pkt = none := by
  simp only [AdmTurn, Bool.and_eq_true, Bool.not_eq_true', decide_eq_true_eq] at h
  obtain ⟨⟨⟨⟨⟨hs, hr⟩, hn⟩, hh⟩, ho⟩, hc⟩ := h
  refine ⟨?_, hr, hn, hh, ho, hc⟩
  have hb : s.glb.blk = .ready := by simpa [isReady] using hr
  simp [Live, hs, hb]

/-- A row of the executor whose turn it is performs its command on the state in which the command has entered flight. -/
theorem admDirect_next (h : AdmTurn s op q pkt = true) (image : List Byte) :
    liveRoot s (fun s => admDirect s op q pkt image) = .next (settle (admPerform (Flown s q pkt) q pkt image)) := by
  obtain ⟨hl, hr, hn, hh, ho, -⟩ := admTurn_parts h
  obtain ⟨r, hq⟩ : ∃ r, (getAdm s q).read = pkt :: r := by
    cases hq : (getAdm s q).read with
    | nil => simp [hq] at hh
    | cons x t => exact ⟨t, by simpa [hq] using hh⟩
  rw [liveRoot_next hl]
  simp only [admDirect, ho, hn, hh, and_self, if_true]
  simp only [admStartNext, hr, hn, hq, admStart, Flown, not_true_eq_false, if_false]
  congr 4
  apply modAdm_congr
  show ({ getAdm s q with read := r } : Adm) = { getAdm s q with read := (getAdm s q).read.tail }
  rw [hq, List.tail_cons]

/-- The checks of the issuer's state pass. -/
theorem stateGate_ok {k : State → State} (hf : s.glb.frozen = false)
    (hp : 64 ≤ q ∨ (getPart s q).st ≠ .halted ∧ (getPart s q).st ≠ .resetting) : stateGate s q pkt k = k s := by
  unfold stateGate
  rw [if_neg (by simp [hf]), if_neg]
  rintro ⟨ha, hb⟩
  rcases hp with h | ⟨h, h'⟩
  · omega
  · rcases hb with hb | hb <;> simp_all

-- messages change the links alone, and the end of a read the port alone

theorem takeUp_eq : takeUp s a = { s with links := (takeUp s a).links } := rfl
theorem takeDown_eq : takeDown s a = { s with links := (takeDown s a).links } := rfl
theorem sendUp_eq {m : Msg} : sendUp s a m = { s with links := (sendUp s a m).links } := rfl
theorem sendDown_eq {m : Msg} : sendDown s a m = { s with links := (sendDown s a m).links } := rfl
theorem readDone_eq {k : RdKind} : readDone s k = { s with port := (readDone s k).port } := rfl

end Sys2Proof.Laws
end

