-- ==== Sys2Proof/Laws/Shape.lean ====
section
/-! SUPPORT. What the shared operations can change: each lemma names the records of the state that may differ after its operation. -/

namespace Sys2Proof.Laws
open Sys2Proof.Machine

-- the event port

theorem reqVec_shape (s : State) (v : Nat) : ∃ e, reqVec s v = { s with evt := e } := by
  unfold reqVec
  split
  · exact ⟨_, rfl⟩
  · exact ⟨s.evt, rfl⟩

/-- A request sets the pending bit of its vector where the vector is open, and nothing else. -/
theorem reqVec_pending (s : State) (v : Nat) :
    (reqVec s v).evt.pending = if vecOpen s v = true then insertNat s.evt.pending v else s.evt.pending := by
  unfold reqVec; split <;> rfl

theorem foldVec_shape {α : Type} (f : α → Nat) (l : List α) (s : State) :
    ∃ e, l.foldl (fun s x => reqVec s (f x)) s = { s with evt := e } := by
  induction l generalizing s with
  | nil => exact ⟨s.evt, rfl⟩
  | cons x t ih =>
    obtain ⟨e, h⟩ := reqVec_shape s (f x)
    obtain ⟨e', h'⟩ := ih (reqVec s (f x))
    exact ⟨e', by rw [List.foldl_cons, h', h]⟩

theorem reqVecAfter_shape (s : State) (v : Nat) (l : List Nat) : ∃ e, reqVecAfter s v l = { s with evt := e } := by
  unfold reqVecAfter
  split
  · exact reqVec_shape s v
  · exact ⟨_, rfl⟩

theorem vecsRelease_shape (s : State) (txn : Nat) : ∃ e, vecsRelease s txn = { s with evt := e } := by
  unfold vecsRelease
  obtain ⟨e, h⟩ := foldVec_shape (fun (x : Nat × List Nat) => x.1)
    ((s.evt.waiting.map (fun x => (x.1, x.2.filter (fun t => t != txn)))).filter (fun x => x.2.isEmpty))
    { s with evt := { s.evt with waiting :=
      (s.evt.waiting.map (fun x => (x.1, x.2.filter (fun t => t != txn)))).filter (fun x => !x.2.isEmpty) } }
  exact ⟨e, h⟩

theorem sigVecs_shape (s : State) : ∃ e, sigVecs s = { s with evt := e } := by
  unfold sigVecs
  dsimp only
  split
  · exact ⟨s.evt, rfl⟩
  · obtain ⟨e, h⟩ := foldVec_shape (fun (x : Nat × Nat) => x.1) (s.evt.hostSig.filter (fun x => !hostSigLeft s x.2))
      { s with evt := { s.evt with hostSig := s.evt.hostSig.filter (fun x => hostSigLeft s x.2) } }
    exact ⟨e, h⟩

-- the audit log and the Watch

theorem logPut_shape (s : State) (w : BitVec 256) : ∃ e l, logPut s w = { s with evt := e, log := l } := by
  unfold logPut
  dsimp only
  split
  · obtain ⟨e, h⟩ := reqVec_shape { s with log := _ } 4360
    exact ⟨e, _, h⟩
  · exact ⟨s.evt, _, rfl⟩

/-- An entry of the audit log changes the log and the event port alone. -/
theorem audit_shape (s : State) (o f k c w x : Nat) : ∃ e l, audit s o f k c w x = { s with evt := e, log := l } := by
  unfold audit
  split
  · exact ⟨s.evt, s.log, rfl⟩
  · have lost : ∀ (u : State), ∃ e l, (if (!u.log.lostFlag) = true then
        reqVec (modLog u fun l => { l with lost := satN 32 (l.lost + 1), lostSince := l.lostSince + 1, lostFlag := true }) 4360
        else modLog u fun l => { l with lost := satN 32 (l.lost + 1), lostSince := l.lostSince + 1, lostFlag := true })
        = { u with evt := e, log := l } := by
      intro u
      split
      · obtain ⟨e, h⟩ := reqVec_shape (modLog u fun l => { l with lost := satN 32 (l.lost + 1), lostSince := l.lostSince + 1, lostFlag := true }) 4360
        exact ⟨e, _, h⟩
      · exact ⟨u.evt, _, rfl⟩
    dsimp only
    split
    · exact lost s
    · split
      · generalize hu : logPut (modLog s fun l => { l with lostSince := 0 }) _ = u
        have h0 : ∃ e l, u = { s with evt := e, log := l } := by
          subst hu; exact logPut_shape (modLog s fun l => { l with lostSince := 0 }) _
        obtain ⟨e, l, rfl⟩ := h0
        split
        · obtain ⟨e', l', h'⟩ := lost { s with evt := e, log := l }
          exact ⟨e', l', h'⟩
        · obtain ⟨e', l', h'⟩ := logPut_shape { s with evt := e, log := l } _
          exact ⟨e', l', h'⟩
      · exact logPut_shape s _

theorem takeAction_shape (s : State) (act : Nat) (v : Ev) : ∃ e w, takeAction s act v = { s with evt := e, watch := w } := by
  unfold takeAction
  have vec : ∀ (u : State), ∃ e w, reqVec u 4358 = { u with evt := e, watch := w } := fun u => by
    obtain ⟨e, h⟩ := reqVec_shape u 4358; exact ⟨e, u.watch, h⟩
  dsimp only
  generalize hu : (if actionOf act v ≠ act then modWatch s fun w => { w with notarget := insertNat w.notarget v.idx } else s) = u
  have h0 : ∃ w, u = { s with watch := w } := by
    subst hu; split
    · exact ⟨_, rfl⟩
    · exact ⟨s.watch, rfl⟩
  obtain ⟨w0, rfl⟩ := h0
  split
  · split
    · obtain ⟨e, w, h⟩ := vec { s with watch := w0 }; exact ⟨e, w, h⟩
    · exact ⟨s.evt, w0, rfl⟩
  · generalize hv : (if actionOf act v = 3 then { s with watch := w0 } else reqVec { s with watch := w0 } 4358) = v'
    have h1 : ∃ e w, v' = { s with evt := e, watch := w } := by
      subst hv; split
      · exact ⟨s.evt, w0, rfl⟩
      · obtain ⟨e, w, h⟩ := vec { s with watch := w0 }; exact ⟨e, w, h⟩
    obtain ⟨e, w, rfl⟩ := h1
    split
    · exact ⟨e, w, rfl⟩
    · exact ⟨e, _, rfl⟩

/-- An event that is counted changes the Watch, the audit log and the event port alone. -/
theorem watchCount_shape (s : State) (v : Ev) : ∃ e l w, watchCount s v = { s with evt := e, log := l, watch := w } := by
  unfold watchCount
  split
  · exact ⟨s.evt, s.log, s.watch, rfl⟩
  · dsimp only
    generalize hc : (isReady s && _ && _) = cross
    generalize hu : modWatch s _ = u
    have h0 : ∃ w, u = { s with watch := w } := ⟨_, hu.symm⟩
    obtain ⟨w0, rfl⟩ := h0
    clear hu hc
    generalize hv : @ite State (_ = true) (instDecidableEqBool _ _) (audit { s with watch := w0 } _ _ _ _ _ _) _ = v'
    have h1 : ∃ e l, v' = { s with evt := e, log := l, watch := w0 } := by
      subst hv; split
      · obtain ⟨e, l, h⟩ := audit_shape { s with watch := w0 } 4 Config.fnNone 6 v.code (evWord v cross) _
        exact ⟨e, l, h⟩
      · exact ⟨s.evt, s.log, rfl⟩
    obtain ⟨e, l, rfl⟩ := h1
    split
    · obtain ⟨e', w', h⟩ := takeAction_shape { s with evt := e, log := l, watch := w0 } _ v
      exact ⟨e', l, w', h⟩
    · exact ⟨e, l, w0, rfl⟩

/-- An event changes the Watch, the audit log and the event port alone. -/
theorem raiseOn_shape (s : State) (code : Nat) (p a : Option Nat) (n : List (Item × Nat)) :
    ∃ e l w, raiseOn s code p a n = { s with evt := e, log := l, watch := w } := by
  unfold raiseOn
  split
  · exact ⟨s.evt, s.log, s.watch, rfl⟩
  · exact watchCount_shape s _

theorem raise_shape (s : State) (code : Nat) (p a : Option Nat) : ∃ e l w, raise s code p a = { s with evt := e, log := l, watch := w } :=
  raiseOn_shape s code p a []

theorem raiseAt_shape (s : State) (code i : Nat) (wire : Bool) (a : Option Nat) :
    ∃ e l w, raiseAt s code i wire a = { s with evt := e, log := l, watch := w } := watchCount_shape s _

-- the ports and the tide

theorem mgrWrite_shape (s : State) (fn addr len data : Nat) (k : WrKind) : ∃ p, (mgrWrite s fn addr len data k).2 = { s with port := p } :=
  ⟨_, rfl⟩

theorem mgrDone_shape (s : State) (t : Nat) : ∃ p, mgrDone s t = { s with port := p } := ⟨_, rfl⟩

theorem respond_shape (s : State) (v : Nat) : ∃ p, respond s v = { s with port := p } := ⟨_, rfl⟩

theorem sendDown_shape (s : State) (a : Nat) (m : Msg) : ∃ l, sendDown s a m = { s with links := l } := ⟨_, rfl⟩
theorem sendUp_shape (s : State) (a : Nat) (m : Msg) : ∃ l, sendUp s a m = { s with links := l } := ⟨_, rfl⟩
theorem takeDown_shape (s : State) (a : Nat) : ∃ l, takeDown s a = { s with links := l } := ⟨_, rfl⟩
theorem takeUp_shape (s : State) (a : Nat) : ∃ l, takeUp s a = { s with links := l } := ⟨_, rfl⟩

theorem sendReg_shape (s : State) (a : Nat) (mk : Nat → Msg) (h : HeldAcc) :
    ∃ l, sendReg s a mk h = { s with
      links := l, port := { s.port with nextRtag := (s.port.nextRtag + 1) % 256, held := kput s.port.held s.port.nextRtag h } } := ⟨_, rfl⟩

-- records of partitions, queues, the Weir, admin replies

theorem queueSigs_shape (s : State) (l : List Sig) : queueSigs s l = { s with weir := { s.weir with sigq := s.weir.sigq ++ l } } := rfl

theorem haltQueue_shape (s : State) (q c : Nat) : ∃ t, haltQueue s q c = { s with queues := t } := ⟨_, rfl⟩

theorem pstatSet_shape (s : State) (p b : Nat) : ∃ t e, pstatSet s p b = { s with parts := t, evt := e } := by
  unfold pstatSet
  dsimp only
  split
  · exact ⟨_, s.evt, rfl⟩
  · obtain ⟨e, h⟩ := reqVec_shape (modPart s p fun x => { x with pstat := setBit x.pstat b }) (4096 + 4 * p)
    exact ⟨_, e, h⟩

/-- A reply changes its queue's registers and the manager port alone. -/
theorem admReply_shape (s : State) (q : Nat) (pkt : W512) (st x d : Nat) :
    ∃ t p, admReply s q pkt st x d = { s with adms := t, port := p } := ⟨_, _, rfl⟩

/-- The reply to an accepted command adds its entry to the audit log. -/
theorem admOk_shape (s : State) (q : Nat) (pkt : W512) (x d : Nat) :
    ∃ t p e l, admOk s q pkt x d = { s with adms := t, port := p, evt := e, log := l } := by
  unfold admOk admAudit
  obtain ⟨e, l, h⟩ := audit_shape s (admOrigin q) q 4 (pktOp pkt + 256 * stOk) (pktObj pkt + put (pktTag pkt) 32) (x + put (d % 2 ^ 48) 8)
  rw [if_neg (by decide), h]
  exact ⟨_, _, e, l, rfl⟩

/-- A rejected command changes nothing but its reply and the audit log. -/
theorem admReject_shape (s : State) (q : Nat) (pkt : W512) (st x d : Nat) :
    ∃ t p e l, admReject s q pkt st x d = { s with adms := t, port := p, evt := e, log := l } := by
  unfold admReject admAudit
  obtain ⟨e, l, h⟩ := audit_shape s (admOrigin q) q 5 (pktOp pkt + 256 * st) (pktObj pkt + put (pktTag pkt) 32) (x + put (d % 2 ^ 48) 8)
  rw [if_pos rfl, h]
  exact ⟨_, _, e, l, rfl⟩

-- the end of a command

theorem settleN_quiet (n : Nat) (s : State) (h : s.watch.actions = []) : settleN n s = s := by
  cases n with
  | zero => rfl
  | succ n => simp [settleN, h]

theorem passSlices_shape (s : State) : ∃ h, passSlices s = { s with inlet := { s.inlet with holder := h } } := by
  unfold passSlices
  dsimp only
  split
  · exact ⟨s.inlet.holder, rfl⟩
  · exact ⟨_, rfl⟩

theorem memRelease_shape (s : State) (k : Nat) : ∃ m, memRelease s k = { s with weir := { s.weir with mem := m } } := by
  unfold memRelease
  split
  · exact ⟨s.weir.mem, rfl⟩
  · exact ⟨_, rfl⟩

theorem memSweep_shape (s : State) : ∃ m, memSweep s = { s with weir := { s.weir with mem := m } } := by
  have go : ∀ (l : List (Nat × MemFlag)) (s : State), ∃ m,
      l.foldl (fun s (x : Nat × MemFlag) => memRelease s x.1) s = { s with weir := { s.weir with mem := m } } := by
    intro l
    induction l with
    | nil => exact fun s => ⟨s.weir.mem, rfl⟩
    | cons x t ih =>
      intro s
      obtain ⟨m, h⟩ := memRelease_shape s x.1
      obtain ⟨m', h'⟩ := ih (memRelease s x.1)
      exact ⟨m', by rw [List.foldl_cons, h', h]⟩
  exact go _ s

/-- With no Watch action put down, a command ends with the waits that are met by now, the memory flags no longer in use, the slices
that pass and the held interrupts. -/
theorem settle_quiet (s : State) (h : s.watch.actions = []) : settle s = sigVecs (passSlices (memSweep (evalDeps s))) := by
  rw [settle, settleN_quiet _ _ h]

end Sys2Proof.Laws
end

