-- ==== Sys2Proof/Tests/Slice0.lean ====
section
/-! SUPPORT. Tests: ill-formed commands that the check refuses, states and operands that meet the hypotheses of the statements, small
tests of single steps. -/

open Sys2Proof Sys2Proof.Machine

set_option Elab.async false

namespace Sys2Proof.Tests

-- commands that are not well-formed

theorem test_wf_function : (Instr.warmReset 128).wf = false := by decide
theorem test_wf_agent : (Instr.mopPush 64).wf = false := by decide
theorem test_wf_host_queue : (Instr.doorbell 1 4096 0).wf = false := by decide
theorem test_wf_partition : (Instr.ptSwapWriteDone 64).wf = false := by decide
theorem test_wf_admin_queue : (Instr.nop 65 0).wf = false := by decide
theorem test_wf_source : (Instr.errPairOnset 2304).wf = false := by decide
theorem test_wf_launch : (Instr.recordWrite (2 ^ 32)).wf = false := by decide +kernel
theorem test_wf_wait_entry : (Instr.waitTimeout 3 256).wf = false := by decide +kernel
theorem test_wf_handle : (Instr.handleCacheFill 1 (2 ^ 20) true 0).wf = false := by decide +kernel
theorem test_wf_flag_handle : (Instr.memoryFlagWriteDone 1 (2 ^ 32) true).wf = false := by decide +kernel
theorem test_wf_engine_queue : (Instr.heldLaunchRecheck 1024).wf = false := by decide
theorem test_wf_local_queue : (Instr.presentMop 1 16).wf = false := by decide
theorem test_wf_node : (Instr.nodeStart 3 65536).wf = false := by decide +kernel
theorem test_wf_core : (Instr.coreGrant 0x308).wf = false := by decide
theorem test_wf_r_format : (Instr.scAdd { core := 0x300, pg := 0, pn := false, d := 32, a := 0, b := 0 }).wf = false := by decide
theorem test_wf_i_format : (Instr.scAddi { core := 0x300, pg := 8, pn := false, d := 0, a := 0, imm := 0 }).wf = false := by decide
theorem test_wf_l_format : (Instr.scLi { core := 0x240, pg := 0, pn := false, d := 0, imm := 0 }).wf = false := by decide
theorem test_wf_b_format : (Instr.scBr { core := 0x300, pg := 8, pn := false, off := 0 }).wf = false := by decide
theorem test_wf_v_format : (Instr.scVadd { core := 0x300, pg := 0, pn := false, d := 0, a := 0, b := 0, fmt := 16 }).wf = false := by decide
theorem test_wf_outcome : (Instr.spinOutcome 0x300 4).wf = false := by decide
theorem test_wf_report : (Instr.eqDone 1 0 0 { cycles := 2 ^ 48, ns10 := 0, fflags := 0 }).wf = false := by decide +kernel
theorem test_wf_sequence : (Instr.rootCacheFill 1 65536 true 0).wf = false := by decide +kernel
theorem test_wf_epoch : (Instr.epochReclaim 1 2 65536).wf = false := by decide +kernel
theorem test_wf_link : (Instr.xcAck 8 0).wf = false := by decide
theorem test_wf_chip : (Instr.remoteSetSend 64).wf = false := by decide
theorem test_wf_group : (Instr.holdTimeout 2 1024 3).wf = false := by decide
theorem test_wf_test_instance : (Instr.mbistStart 65).wf = false := by decide
theorem test_wf_access : (Instr.hostAccess { fn := 1, addr := 2 ^ 26, size := 4, wr := false, strobes := 15, data := 0 }).wf = false := by
  decide +kernel
theorem test_wf_region : (Instr.stkWear 12 0 { region := 2 ^ 20, dir := 0, led := 0 } 0 []).wf = false := by decide +kernel
theorem test_wf_translation : (Instr.translationEnd
    { failCode := 0, failOff := 0, slices := 5, codes := [] }).wf = false := by decide +kernel

-- states of the witnesses

/-- READY with two agents admitted and running, partition 1 ACTIVE with flags 0–99 and a table of 64 entries, queue 3 its own. -/
def rdy : State := { State.reset with
  glb := { State.reset.glb with
    blk := .ready, por := false, phase := 15, fuseSeen := true, agents := [(0, 1), (1, 1)] }
  agents := [(0, { running := true, initDone := true, initOk := true }), (1, { running := true, initDone := true, initOk := true })]
  links := [(0, { up := true, downTx := { credits := 32 }, upTx := { credits := 32 } }),
    (1, { up := true, downTx := { credits := 32 }, upTx := { credits := 32 } })]
  parts := [(1, {
    st := .active, flagBase := 0, flagCount := 100, htabEntries := 64, queueLimit := 8, gctxCount := 4, waitLimit := 100
    basinLimit := 16, engineShare := 50, sluiceShare := 50 })]
  queues := [(3, { st := .enabled, owner := 1, log2 := 4 })] }

/-- A launch that runs for queue 3 with a charge on engine queue 0. -/
def lch : Launch := { queue := 3, part := 1, stage := .running, charge := [(0, 100)], total := 100 }

/-- READY with core 0 running a context in slot 5, whose bank has 64 bytes, and the context's launch. -/
def sc (c : Ctx) : State := { rdy with
  cores := [(0, { st := 2, run := some 5, imemA := [(2, 64)], owner := [(0, 6)] })]
  ctxs := [(5, c)], launches := [(3, lch)] }

/-- A context of the launch with a slice. -/
def cx : Ctx := { launch := 3, part := 1, core := 0x300, nslices := 1, slices := [0], st := .running, pc := 16
                  s := [(1, 64), (2, 128), (3, 4096)], p := [(2, 1)] }

/-- Operands of a scalar instruction on core 0. -/
def fr (d a b : Nat) : FR := { core := 0x300, pg := 0, pn := false, d := d, a := a, b := b }
def fi (d a : Nat) (imm : BitVec 12) : FI := { core := 0x300, pg := 0, pn := false, d := d, a := a, imm := imm }
def fv (d a b fmt : Nat) : FV := { core := 0x300, pg := 0, pn := false, d := d, a := a, b := b, fmt := fmt }

-- witnesses: sluice core

theorem wit_issue : Issues (sc cx) (fr 4 1 2).core 5 cx = true ∧ guardOn cx 0 false = true ∧ guardOn cx 0 true = false ∧
    guardOn cx 3 false = false := by decide +kernel
theorem wit_shi : fld (0x0C5 : BitVec 12) 8 4 = 0 ∧ fld (0x045 : BitVec 12) 6 2 = 1 ∧ fld (0x085 : BitVec 12) 6 2 = 2 ∧
    fld (0x005 : BitVec 12) 6 2 = 0 := by decide +kernel
theorem wit_branch : BitVec.ofNat 32 cx.pc + 4 * (3 : BitVec 22).signExtend 32 = (28 : W32) ∧ branchHeld (sc cx) 0x300 28 = false ∧
    branchHeld (sc cx) 0x300 (sReg cx 1 % 2 ^ 32) = false := by decide +kernel
theorem wit_loads : (dmLoad (touchCode (sc cx) cx) 0x300 cx (ldAddr cx (fi 4 1 1) 8) 8).2 = (0, 0) ∧
    (dmLoad (touchCode (sc cx) cx) 0x300 cx (vAddr cx (fv 2 1 0 0)) 64).2 = (0, 0) ∧ isMx 1 = false ∧
    (dmLoad (touchCode (sc cx) cx) 0x300 cx (vAddr cx (fv 2 1 0 1)) (2 * codeW 1)).2 = (0, 0) := by decide +kernel
theorem wit_load_tile : (dmLoad (touchCode (sc cx) cx) 0x300 cx (vAddr cx (fv 2 3 0 1)) 1024).2 = (0, 0) := by decide +kernel
theorem wit_stores : dmOk cx (ldAddr cx (fi 4 1 1) 8) 8 = true ∧ dmOk cx (vAddr cx (fv 2 1 0 0)) 64 = true ∧
    dmOk cx (vAddr cx (fv 2 1 0 1)) (2 * codeW 1) = true ∧ (tstData cx 2 0).2.1 = 1024 ∧ dmOk cx (vAddr cx (fv 2 3 0 0)) 1024 = true := by
  decide +kernel
theorem wit_memory_store : memWf ({} : Core).dmem = true ∧ cx.slices.Nodup ∧ 16376 + 8 ≤ cx.slices.length * 16384 := by decide +kernel
theorem wit_lanes : arithFmt 9 = true ∧ elemOf 9 false = .int 16 ∧ laneFmt 0 = true ∧ sumFmt 10 = true ∧ elemOf 10 false = .int 8 ∧
    512 / codeW 9 = 32 := by decide +kernel
theorem wit_log2 : (log232 0x40000000).isSome = true := by decide +kernel
theorem wit_vext : (lanes 8 (vReg cx 1))[sReg cx 0]? = some 0 ∧ sReg cx 0 < (lanes 8 (vReg cx 1)).length := by decide +kernel
theorem wit_vcvt : laneFmt 1 = true ∧ laneFmt 0 = true ∧ 512 / max (codeW 0) (codeW 1) = 16 := by decide +kernel
/-- TMMA on tiles 1 and 2 tagged FP16 into tile 0 tagged FP32, and with the accumulator's tag wrong. -/
theorem wit_tmma : tileTag { cx with tfmt := 0x110 } 1 = 1 ∧ tileTag { cx with tfmt := 0x110 } 2 = 1 ∧
    tileTag { cx with tfmt := 0x110 } 0 = (if isInt 1 then 8 else 0) ∧ tileTag { cx with tfmt := 0x111 } 0 ≠ (if isInt 1 then 8 else 0) ∧
    tileTag cx 1 = 0 := by decide +kernel
theorem wit_push : pushBad (touchCode (sc cx) cx) 0x300 cx (sReg cx 0) = false ∧ bufRoom (touchCode (sc cx) cx) 0x300 = true ∧
    laneRoom (touchCode (sc cx) cx) 0 false (vReg cx 1) = true := by decide +kernel
/-- The lane is full: 28 macro-ops of the launch are outstanding on engine queue 0. -/
theorem wit_push_full :
    let s := { sc cx with launches := [(3, { lch with outs := (upTo 28).map fun k => { eq := 0, tag := k } })] }
    Issues s 0x300 5 cx = true ∧ pushBad (touchCode s cx) 0x300 cx 0 = false ∧ bufRoom (touchCode s cx) 0x300 = true ∧
      laneRoom (touchCode s cx) 0 false (vReg cx 1) = false := by decide +kernel
theorem wit_generator :
    let d : Nat := 64 * 2 ^ 0 + 64 * 2 ^ 64 + sumBy (fun k => 2 ^ (128 + 64 * k)) (upTo 4)
    let k : Core := { st := 2, run := some 5, imemA := [(2, 64)], owner := [(0, 6)], written := [1], dmem := writeBytes [] 64 d 48 }
    let s := { sc cx with cores := [(0, k)] }
    Issues s 0x300 5 cx = true ∧ sReg cx 1 % 64 = 0 ∧ sReg cx 1 + 48 ≤ cx.nslices * 16384 ∧
      (dmFetch (touchCode s cx) 0x300 cx (sReg cx 1) 48).2 = (0, d) ∧ gBad (BitVec.ofNat 384 d) = false := by decide +kernel
theorem wit_anext : (gReg { cx with g := [(1, { active := true })] } 1).active = true ∧
    (gReg { cx with g := [(1, { active := true, ended := true })] } 1).ended = true := by decide +kernel
theorem wit_transfers : xferPlan cx 0 (fr 0 3 1) = (0, [(0, 4096, 64)], none) ∧
    xferPlan { cx with s := [(1, 64), (3, 4098)] } 1 (fr 0 3 1) = (0, [(0, 4096, 64)], none) ∧
    4 ≤ ({ cx with xfers := (upTo 4).map fun k => { tag := k, pc := 0, load := true, pieces := [] } } : Ctx).xfers.length ∧
    Issues (sc { cx with xfers := (upTo 4).map fun k => { tag := k, pc := 0, load := true, pieces := [] } }) 0x300 5
      { cx with xfers := (upTo 4).map fun k => { tag := k, pc := 0, load := true, pieces := [] } } = true := by decide +kernel
theorem wit_streams : (xferPlan { cx with
      s := [(1, 1)], g := [(3, { active := true, desc := BitVec.ofNat 384 (64 * 2 ^ 64 + 2 ^ 80 + 4098 + sumBy (fun k => 2 ^ (128 + 64 * k)) (upTo 4)) })] } 2
      (fr 0 3 1)).1 = 0 := by decide +kernel
theorem wit_transfer_done :
    let c := { cx with xfers := [{ tag := 7, pc := 16, load := true, pieces := [(0, 4096, 64)] }] }
    Live (sc c) = true ∧ running (sc c) 0x300 = some (5, c) ∧ c.xfers.find? (fun x => x.tag == 7) = c.xfers.head? := by decide +kernel
theorem wit_flags : coreFlagOk (touchCode (sc cx) cx) 0x300 cx 64 false = true ∧ sReg cx 1 % 2 ^ 32 = 64 ∧
    bitOf (flagWord (sc cx) 64) 63 = false ∧ fld (flagWord (sc cx) 64) 0 62 ≠ sReg cx 2 % 2 ^ 62 ∧
    fld (flagWord (sc cx) 64) 0 62 = sReg cx 0 % 2 ^ 62 ∧ (128 : W64) ≠ flagWord (sc cx) 64 ∧
    (128 : W64) = BitVec.ofNat 64 (sReg cx 2 % 2 ^ 62 + put (b2n (bitOf (flagWord (sc cx) 64) 62)) 62) := by decide +kernel
theorem wit_spin : nbits (sReg cx 1) 32 3 ≤ 5 ∧ nbits (sReg cx 1) 35 9 = 0 ∧
    (let c := { cx with stall := some (.spin 1 64 0 0 (some 0)) }
     CoreLive (sc c) 0x300 = true ∧ running (sc c) 0x300 = some (5, c) ∧ c.st = .running) := by decide +kernel
theorem wit_acall :
    let s := { sc cx with agents := [(0, { running := true, initDone := true, initOk := true, core := { imemA := [(1, 0x20000)] } })] }
    let c := { cx with s := [(1, 0x100)] }
    nbits (sReg c 1) 6 2 = 0 ∧ sReg c 1 < 2 ^ 16 ∧ sReg c 1 % 64 < s.par.numAgents ∧ agtExcluded s (sReg c 1 % 64) = false ∧
      nbits (sReg c 1) 8 8 < bankEntries (activeBank (getAgent s (sReg c 1 % 64)).core) ∧ c.tasks.length < 8 := by decide +kernel
theorem wit_acall_slots : freeSlot { sc cx with save := { slots := 4, used := [0, 1] } } = some 2 ∧
    freeSlot { sc cx with save := { slots := 2, used := [0, 1] } } = none := by decide +kernel
theorem wit_hrel :
    let e := BitVec.ofNat 128 (2 ^ 96 + 3 * 2 ^ 92 + 16 * 2 ^ 64 + 0x10000)
    let s := { sc cx with hcache := { lines := [(2 ^ 20 + 4, e)] } }
    let c := { cx with s := [(1, 4)] }
    bufHandleOk (sReg c 1 % 2 ^ 32) = true ∧ hInTable (touchCode s c) c.part (sReg c 1 % 2 ^ 32) = true ∧
      cacheLookup (touchCode s c) c.part (sReg c 1 % 2 ^ 32) = some e ∧ hValid e = true ∧ hKind e < 7 := by decide +kernel
theorem wit_csr : (fi 4 1 4).imm.toNat = 4 ∧ (fi 4 1 6).imm.toNat = 6 ∧ (fi 4 1 0x10).imm.toNat = 0x10 ∧ (fi 4 1 0x17).imm.toNat = 0x17 ∧
    (fi 4 1 0x3F).imm.toNat = 0x3F := by decide +kernel
theorem wit_context : getCtx? (sc cx) 0x300 5 = some cx ∧ ((sc cx).ctxs.map (·.1)).Pairwise (· < ·) := by decide +kernel

-- witnesses: tasks, cores, engine queues, scheduler

theorem wit_stalls :
    let c1 := { cx with stall := some .xwait }
    let c2 := { cx with stall := some (.qdrain 1) }
    let c3 := { cx with stall := some (.branch 64 0) }
    CoreLive (sc c1) 0x300 = true ∧ coreOk 0x300 = true ∧ running (sc c1) 0x300 = some (5, c1) ∧ c1.st = .running ∧ c1.xfers = [] ∧
      running (sc c2) 0x300 = some (5, c2) ∧ c2.pend = 0 ∧ running (sc c3) 0x300 = some (5, c3) ∧ branchHeld (sc c3) 0x300 64 = false ∧
      c1.tasks = [] ∧ c1.unapplied = 0 := by decide +kernel

/-- READY with one message of agent 1 at the Root, and one message at agent 1. -/
def fromAgent (m : Msg) : State := { rdy with links := [(1, { up := true, upRx := { inbox := [m], used := 1 } })] }
def toAgent (m : Msg) : State := { rdy with links := [(1, { up := true, downRx := { inbox := [m], used := 1 } })] }

/-- The first bytes of a TASK_START: entry 2, partition 1, class BE. -/
def taskBytes : List Byte := natToBytes (2 * 2 ^ 512 + 2 ^ 520 + 2 ^ 528) 80

theorem wit_task_start :
    let s := { toAgent (.ctxXfer 1 9 3 0 taskBytes) with
      agents := [(1, { running := true, initDone := true, core := { run := some 4 } })] }
    AgLive s 1 = true ∧ downHead s 1 = some (.ctxXfer 1 9 3 0 taskBytes) ∧ (getAgent s 1).core.run.isSome = true ∧
      nbits (bytesToNat taskBytes) (8 * 65) 8 ≠ 0 := by decide +kernel
theorem wit_save_data :
    let s := { fromAgent (.ctxXfer 2 9 3 0 [1, 2]) with ctxs := [(5, { cx with tasks := [(1, 9)] })] }
    Live s = true ∧ upHead s 1 = some (.ctxXfer 2 9 3 0 [1, 2]) ∧ s.ctxs.any (fun y => y.2.tasks.contains (1, 9)) = true ∧
      sumBy (fun (p : Nat × List Byte) => p.2.length) (tget [] s.save.pieces 9 ++ [(0, [1, 2])]) < 22528 := by decide +kernel
theorem wit_restore_data : AgLive (toAgent (.ctxXfer 3 9 3 0 [1, 2])) 1 = true ∧
    downHead (toAgent (.ctxXfer 3 9 3 0 [1, 2])) 1 = some (.ctxXfer 3 9 3 0 [1, 2]) := by decide +kernel
theorem wit_task_end :
    let s := { fromAgent (.ctxXfer 4 9 3 0 [3, 0, 0, 0, 0, 1]) with ctxs := [(5, { cx with tasks := [(1, 9)] })] }
    upHead s 1 = some (.ctxXfer 4 9 3 0 [3, 0, 0, 0, 0, 1]) ∧ nbits (bytesToNat [3, 0, 0, 0, 0, 1]) 32 8 = 0 ∧
      s.ctxs.find? (fun y => y.2.tasks.contains (1, 9)) = some (5, { cx with tasks := [(1, 9)] }) := by decide +kernel
theorem wit_wait_report : upHead (fromAgent (.ctxXfer 5 9 3 0 [3, 0, 0, 0, 1])) 1 = some (.ctxXfer 5 9 3 0 [3, 0, 0, 0, 1]) ∧
    nbits (bytesToNat [3, 0, 0, 0, 1]) 32 8 = 1 := by decide +kernel

/-- A context that waits for a core, with its launch. -/
def cw : Ctx := { cx with st := .held, ready := true }
def wantsCore : State := { rdy with ctxs := [(5, cw)], launches := [(3, { lch with slot := some 5 })], cores := [(0, { owner := [(0, 6)] })] }
theorem wit_core_grant : Live wantsCore = true ∧ (getCore wantsCore 0x300).run = none ∧ bestFor wantsCore 0x300 = some (5, cw) ∧
    kget wantsCore.ctxs 5 = some cw ∧ cw.slices ≠ [] := by decide +kernel
theorem wit_core_states :
    running (sc { cx with st := .saving }) 0x300 = some (5, { cx with st := .saving }) ∧
    running (sc { cx with st := .restoring }) 0x300 = some (5, { cx with st := .restoring }) ∧
    (let s := { sc cx with ctxs := [(5, cx), (6, cw)] }
     running s 0x300 = some (5, cx) ∧ (wantCore s).any (fun x => rankOf s x.2 == rankOf s cx) = true) := by decide +kernel

/-- A graph launch whose context runs in the code window. -/
def cwin : Ctx := { cx with pc := 0x80000000 }
def codeS : State := { sc cwin with
  launches := [(3, { lch with gctx := 2, gen := 1, slot := some 5 })]
  gctxs := [(2, { st := 2, owner := 1, cur := 1, gens := [{ num := 1, pageIds := [0], bodyAt := 64, len := 1024 }] })]
  arenas := [(1, { size := 1 })], port := { rdy.port with reads := [{ fn := 0x40, pasid := 0, addr := 0, len := 256, kind := .code 0 }] } }
theorem wit_code_fill : Live codeS = true ∧ running codeS 0x300 = some (5, cwin) ∧ fetchOf codeS 0x300 cwin = .wait ∧
    codeLine codeS 1 { num := 1, pageIds := [0], bodyAt := 64, len := 1024 } 0x80000000 = 0 ∧
    codeS.port.reads.any (fun r => r.kind == RdKind.code 0) = true := by decide +kernel

/-- A macro-op of an engine class, a MARKER, a STREAM, a WAIT and a BARRIER at the head of a lane. -/
def mopE : W512 := BitVec.ofNat 512 (pack [(8, 1), (8, 0), (8, 0), (8, 0), (8, 0), (8, 0), (16, 1), (64, 0), (16, 1), (48, 0), (16, 1),
  (16, 1), (16, 64), (16, 64)])
def ent (m : W512) : Ent := { seq := 1, tag := 7, launch := 3, part := 1, mop := m }
def lane (q : EqQ) : State := { rdy with agents := [(1, { running := true, initDone := true, eqs := [(0, q)] })] }

theorem wit_mop_push : AgLive (toAgent (.mopPush { eq := 16, tag := 7, part := 1, launch := 3, mop := mopE })) 1 = true ∧
    downHead (toAgent (.mopPush { eq := 16, tag := 7, part := 1, launch := 3, mop := mopE })) 1 =
      some (.mopPush { eq := 16, tag := 7, part := 1, launch := 3, mop := mopE }) := by decide +kernel
theorem wit_local_push :
    let c := { cx with core := 0x201, task := true, be := true, charges := [(0, 100, 0)], stall := some (.qpush 16 mopE false) }
    let s := { rdy with agents := [(1, { running := true, initDone := true, core := { run := some 4, imemA := [(2, 64)] }, tasks := [(4, c)] })] }
    AgLive s 1 = true ∧ running s 0x201 = some (4, c) ∧ c.st = .running ∧ pushBad s 0x201 c 16 = false ∧ localRoom s 1 0 true = true := by
  decide +kernel
theorem wit_present : AgLive (lane { lc := [ent mopE] }) 1 = true ∧ (getEq (lane { lc := [ent mopE] }) 1 0).pres = none ∧
    bermShut (lane { lc := [ent mopE] }) 1 0 = false ∧ headOf (getEq (lane { lc := [ent mopE] }) 1 0) false = some (ent mopE) ∧
    headReady (lane { lc := [ent mopE] }) 1 0 false = true ∧ mEngine mopE = true ∧
    headOf (getEq (lane { be := [{ ent mopE with be := true }] }) 1 0) true = some { ent mopE with be := true } ∧
    headOf (getEq (lane { be := [{ ent mopE with be := true }] }) 1 0) false = none ∧
    headReady (lane { be := [{ ent mopE with be := true }] }) 1 0 true = true := by decide +kernel
theorem wit_manager_classes :
    chainOpen (ent 0x10) = true ∧ mOpc 0x10 = 0x10 ∧ mOpc 0x13 = 0x13 ∧ mOpc 0x11 = 0x11 ∧ wHandle (fld (0x11 : W512) 128 128) = 0 ∧
    wHandle (fld (BitVec.ofNat 512 (0x11 + 2 ^ 128 * 5)) 128 128) ≠ 0 ∧
    headOf (getEq (lane { lc := [ent 0x10] }) 1 0) false = some (ent 0x10) ∧ (ent 0x10).st = .queued ∧
    barrierMet (lane { lc := [ent 0x12] }) 1 (ent 0x12) = true ∧ mOpc 0x12 = 0x12 := by decide +kernel
theorem wit_wait_outcome :
    let q : EqQ := { lc := [ent 0x11], wait := some { be := false, seq := 1, out := some 1 } }
    (getEq (lane q) 1 0).wait = some { be := false, seq := 1, out := some 1 } ∧ findEnt (getEq (lane q) 1 0) false 1 = some (ent 0x11) := by
  decide +kernel

/-- A presented macro-op. -/
def pres : State := lane { lc := [{ ent mopE with st := .presented }], pres := some (false, 1) }
theorem wit_done : AgLive pres 1 = true ∧ presEnt (getEq pres 1 0) = some { ent mopE with st := .presented } ∧
    fld (0x500000000 : W64) 0 2 = 0 := by decide +kernel
theorem wit_stops : (getEq pres 1 0).preempt ≠ some 1 ∧ (tget {} (getEq pres 1 0).recs 3).paused = false ∧
    (let s := lane { lc := [{ ent mopE with st := .presented }], pres := some (false, 1), preempt := some 0, stopFor := 2 }
     presEnt (getEq s 1 0) = some { ent mopE with st := .presented } ∧ (getEq s 1 0).preempt = some 0 ∧ (getEq s 1 0).stopFor ≠ 0 ∧
       (getEq s 1 0).preemptLate = false) := by decide +kernel
theorem wit_flush :
    let f (late : Bool) := lane { done_ := [{ ent mopE with st := .flushing, late := late, fin := some (0, 0, 0, 1, 0, 0) }] }
    flushing (getEq (f false) 1 0) = some { ent mopE with st := .flushing, fin := some (0, 0, 0, 1, 0, 0) } ∧
      flushing (getEq (f true) 1 0) = some { ent mopE with st := .flushing, late := true, fin := some (0, 0, 0, 1, 0, 0) } := by
  decide +kernel
theorem wit_aperture : apertureCmd (toAgent (.regWrite 0x7000 4 2 15 3)) 1 0x7000 = some (4, 3) ∧
    apertureCmd (toAgent (.regWrite 0x7008 4 3 255 (3 + 2 * 2 ^ 32))) 1 0x7008 = some (4, 3 + 2 * 2 ^ 32) ∧
    apertureCmd (toAgent (.regWrite 0x7010 4 2 15 5)) 1 0x7010 = some (4, 5) := by decide +kernel

/-- One launch of queue 3 at the scheduler. -/
def atSched (l : Launch) : State := { rdy with launches := [(3, l)] }
theorem wit_scheduler :
    let n : Launch := { lch with stage := .sched, desc := 3 }
    let d : Launch := { lch with stage := .sched, desc := 1 }
    oldestIn (atSched n) 3 .sched = some (3, n) ∧ oldestIn (atSched n) 3 .held = none ∧ oldestIn (atSched n) 3 .booked = none ∧
      dOpcode n.desc = 3 ∧ oldestIn (atSched d) 3 .sched = some (3, d) ∧ dOpcode d.desc = 1 := by decide +kernel
/-- The four answers of the check, by the charge on engine queue 0 at 1,000 MHz. -/
theorem wit_check :
    let s : State := { rdy with sched := { rdy.sched with eqcap := [(0, 1000)] } }
    let u (n : Nat) : List (Nat × Launch) := [(3, { lch with stage := .sched, desc := 1, charge := [(0, n)] })]
    drainHeld s (unitVec (u 100)) = false ∧ tooLong s 1 false (unitVec (u 100)) = false ∧ fitsCur s 1 false (unitVec (u 100)) = true ∧
      tooLong s 1 false (unitVec (u 4000000000)) = true := by decide +kernel
theorem wit_check_full :
    let s : State := { rdy with
      sched := { rdy.sched with eqcap := [(0, 1000)], bookCur := bookVec [] 1 [(0, 40000)] } }
    let u : List (Nat × Launch) := [(3, { lch with stage := .sched, desc := 1, charge := [(0, 40000)] })]
    tooLong s 1 false (unitVec u) = false ∧ fitsCur s 1 false (unitVec u) = false ∧ fitsNext s 1 (unitVec u) = true := by decide +kernel
theorem wit_direct :
    let l : Launch := { lch with desc := 1 }
    kget (atSched l).launches 3 = some l ∧ l.stage = .running ∧ dOpcode l.desc = 1 ∧ l.outs = [] ∧ (atSched l).pushes = [] := by
  decide +kernel
theorem wit_readmit : (1 : Nat) ∈ ({ rdy with svc := { rdy.svc with readmitReady := [1] } } : State).svc.readmitReady ∧
    kget rdy.svc.readmit 1 = none := by decide +kernel
theorem wit_tick : rdy.glb.scanLost = false ∧ rdy.glb.blk = .ready ∧ rdy.svc.mc.state = 0 := by decide +kernel

-- witnesses: fetch, Inlet, relocation, Weir, graphs

/-- Queue 3 has one announced descriptor and holds the latency-critical slice of partition 1; queue 5 is eligible too. -/
def fet (qs : List (Nat × Queue)) : State := { rdy with
  queues := qs, inlet := { rdy.inlet with holder := tput 0 [] 2 4, credit := tput 0 [] 2 3 } }
def annc : Queue := { st := .enabled, owner := 1, log2 := 4, tail := 1, burst := 2 }
theorem wit_fetch : Live (fet [(3, annc)]) = true ∧ (fet [(3, annc)]).glb.frozen = false ∧ holders (fet [(3, annc)]) true = [] ∧
    (holders (fet [(3, annc)]) false).find? (fun h => decide (0 < tget 0 (fet [(3, annc)]).inlet.credit (h.1 * 2))) = some (1, 3) ∧
    kget (fet [(3, annc)]).launches (launchId 3 0) = none ∧ unissued annc = 1 ∧ 0 < inletRoom (fet [(3, annc)]) 3 := by decide +kernel
theorem wit_timeslice : tget 0 (fet [(3, annc), (5, annc)]).inlet.holder (1 * 2 + b2n false) = 3 + 1 ∧
    nextAfter (without (eligibleOf (fet [(3, annc), (5, annc)]) 1 false) 3) 3 = some 5 := by decide +kernel

/-- One launch of queue 3. -/
def one (l : Launch) : State := { rdy with launches := [(3, l)] }
def lf (st : LStage) (d : W512) : Launch := { queue := 3, part := 1, stage := st, desc := d, descIn := true, seqNo := 1 }
/-- Descriptors: with CHAIN; with fragment table 5. -/
def dChained : W512 := BitVec.ofNat 512 0x200
def dTable : W512 := BitVec.ofNat 512 (5 * 2 ^ 64)
theorem wit_descriptor : dFrag (0 : W512) = 0 ∧ dFrag dTable = 5 ∧ bufHandleOk 5 = true ∧ hIndex 5 = 5 ∧
    hInTable (one (lf .fetch 0)) 1 5 = true ∧ (lf .fetch 0).aborting = false := by decide +kernel
/-- Entry 5 names a table of two 64-byte units. -/
def tabE : BitVec 128 := BitVec.ofNat 128 (2 ^ 96 + 1 * 2 ^ 92 + 2 * 2 ^ 64 + 0x1000)
theorem wit_fragments :
    let l : Launch := { lf .fragWait dTable with rel := [(5, tabE)] }
    fragEntry l = some tabE ∧ min (hLen64 tabE) 17 = 2 ∧ 2 ≤ inletRoom (one l) l.queue ∧ dChain dChained = true ∧
      fhCount ((([1#512] ++ List.replicate 17 0).take 2).headD 0) = 1 := by decide +kernel
theorem wit_chain : chainRun (one (lf .inlet 0)) 16 (inletOf (one (lf .inlet 0)) 3) = ([(3, lf .inlet 0)], true) ∧ dChain (lf .inlet 0).desc = false ∧
    inletOf (one (lf .inlet dChained)) 3 = [(3, lf .inlet dChained)] ∧ unissued (getQueue (one (lf .inlet dChained)) 3) = 0 := by
  decide +kernel
theorem wit_relocation : oldestIn (one (lf .reloc 0)) 3 .reloc = some (3, lf .reloc 0) ∧
    (let s : State := { rdy with hcache := { filling := [{ key := 2 ^ 20 + 5, no := 4 }] } }
     s.hcache.filling.find? (fun f => f.key == 1 * 2 ^ 20 + 5) = some { key := 2 ^ 20 + 5, no := 4 } ∧ s.launches = [] ∧ s.pushes = [] ∧
       s.ctxs = []) := by decide +kernel

def we (h : Nat) : WaitE := { handle := h, compare := 1, crest := 1 }
theorem wit_wait_arm :
    let l : Launch := { lf .weirIn 0 with waits := [we 7] }
    oldestIn (one l) 3 .weirIn = some (3, l) ∧ oldestIn (one l) 3 .weir = none ∧ canArm (one l) l l.waits = true ∧
      canArm (one (lf .weirIn 0)) (lf .weirIn 0) [] = true := by decide +kernel
theorem wit_wait_timeout :
    let l (h : Nat) : Launch := { lf .weir 0 with waits := [we h] }
    openEntry (l 7) (0 % 16) (0 / 16) = some (we 7) ∧ ownerPreempted (one (l 7)) 1 7 = false ∧
      openEntry (l (3 * 2 ^ 30)) (0 % 16) (0 / 16) = some (we (3 * 2 ^ 30)) ∧ (one (l (3 * 2 ^ 30))).xing.waits = [] := by decide +kernel
def sg (h : Nat) : Sig := { src := 301, part := 1, handle := h, op := 0, x := 5, launch := 3 }
theorem wit_signal :
    let s : State := { rdy with weir := { sigq := [sg 7, { sg 8 with src := 100 }] } }
    nextSig (s.weir.sigq.filter (sigReady s)) = some { sg 8 with src := 100 } := by decide +kernel
/-- R160: Outfall, Root cores, FLAG_SIGNAL, Crossing, subordinate port. -/
theorem test_signal_source_order :
    let o (n : Nat) : Sig := { sg 7 with src := n }
    (nextSig [o 500, o 400, o 303, o 205, o 100]).map (·.src) = some 100 ∧ (nextSig [o 500, o 400]).map (·.src) = some 400 := by decide +kernel
theorem wit_memory_flag :
    let s : State := { rdy with weir := { mem := [(memKey 1 (2 ^ 30 + 64), { addr := 0x1000, writing := true, word := some 5 })] } }
    kget s.weir.mem (memKey 1 (2 ^ 30 + 64)) = some { addr := 0x1000, writing := true, word := some 5 } ∧ s.port.writes = [] := by
  decide +kernel
theorem wit_flag_messages :
    let s : State := { rdy with launches := [(3, lch)], links := [(1, { up := true, upRx := { inbox := [.flagSignal 7 0 1 3] } })] }
    let t : State := { rdy with
      agents := [(1, { running := true, initDone := true, initOk := true, mirror := [(7, { users := 1 })] })]
      links := [(1, { up := true, downRx := { inbox := [.flagUpdate 7 9] } })] }
    upHead s 1 = some (.flagSignal 7 0 1 3) ∧ signalHeld s 1 3 7 = false ∧ AgLive t 1 = true ∧ downHead t 1 = some (.flagUpdate 7 9) ∧
      (getAgent t 1).mirror.any (fun m => m.1 == 7) = true := by decide +kernel

def nd (k : Nat) : GNode := { kind := k, chained := false, npred := 0, succ := [], target := 0, cost := 1, bodyOff := 0x40, body := 7, vnode := 0 }
/-- A graph launch with one node of kind k in state n, in save slot 0 where it has a context. -/
def gr (k : Nat) (n : NodeSt) (slot : Option Nat) : State := { rdy with
  gctxs := [(2, { st := 1, owner := 1, cur := 1, gens := [{ num := 1, nodes := [nd k] }] })]
  save := { slots := 4, used := [0] }
  ctxs := [(0, { launch := 3, part := 1, core := 0x300, nslices := 1, slices := [0] })]
  launches := [(3, { lch with gctx := 2, gen := 1, nodes := [n], slot := slot, charge := [] })] }
theorem wit_nodes :
    let l (slot : Option Nat) : Launch := { lch with gctx := 2, gen := 1, nodes := [{ st := .ready }], slot := slot, charge := [] }
    (∀ k ∈ [2, 4, 5], nodeOf (gr k { st := .ready } none) (l none) 0 = some (nd k) ∧
      canStart (gr k { st := .ready } none) (l none) 0 (nd k) = true) ∧
    nodeOf (gr 1 { st := .ready } (some 0)) (l (some 0)) 0 = some (nd 1) ∧
      canStart (gr 1 { st := .ready } (some 0)) (l (some 0)) 0 (nd 1) = true ∧ sHandle (nd 4).body.toNat < 2 ^ 30 := by decide +kernel
theorem wit_node_done :
    let n : NodeSt := { st := .started, ended := true }
    workDone (gr 2 n none) { lch with gctx := 2, gen := 1, nodes := [n], charge := [] } 0 (nd 2) = true := by decide +kernel
theorem wit_graph_context :
    let s : State := { gr 1 { st := .ready } none with
      ctxs := [], save := { slots := 4 }, launches := [(3, { lch with gctx := 2, gen := 1, ctxWanted := true, nodes := [{ st := .ready }] })] }
    freeSlot s = some 0 ∧ (genOf s { lch with gctx := 2, gen := 1 }).map (·.slices) = some 1 ∧
      ((upTo 7).map (fun n => 0x300 + n)).find? (fun c => decide (1 ≤ (freeSlicesOf s c).length)) = some 0x300 := by decide +kernel

-- witnesses: admin queues

/-- A command packet: opcode, tag 7, object, PARAMS. -/
def pk (op obj : Nat) (params : Nat := 0) : W512 := BitVec.ofNat 512 (op + 2 ^ 8 + 7 * 2 ^ 16 + obj * 2 ^ 32 + params * 2 ^ 64)
/-- The manager's queue is enabled; partition 1 and queue 3 stand as given; graph context 2 lies in partition 1's range. -/
def adm (p : PSt) (x : Queue) : State := { rdy with
  adms := [(0x40, { enable := true, sqTail := 1 })]
  parts := [(1, { getPart rdy 1 with st := p })], queues := [(3, x)] }
/-- The state with one command read into the manager's queue. -/
def cmd (s : State) (p : W512) : State := { s with adms := [(0x40, { enable := true, log2 := 4, sqTail := 1, read := [p] })] }
def q3 (st : QSt) : Queue := { st := st, owner := 1, log2 := 4 }
def aq : State := adm .active (q3 .enabled)
theorem wit_admin_queue : isReady aq = true ∧ admExists aq 0x40 = true ∧ (getAdm aq 0x40).enable = true ∧
    (getAdm aq 0x40).sqHead ≠ (getAdm aq 0x40).sqTail ∧
    (let s := modAdm aq 0x40 fun a => { a with read := [pk 0 0] }
     admMayStart s 0x40 = true ∧ (getAdm s 0x40).read = [pk 0 0]) ∧
    (admReply aq 0x40 (pk 0 0) stOk 0xFF 0).port.writes.map (·.kind) = [.reply 0x40 true] := by decide +kernel
theorem wit_nop_query : (getAdm aq 0x40).flight.length < 8 ∧ admCheck 0x40 (pk 0 0) = none ∧ pktOp (pk 0 0) = 0 ∧
    badField (pk 0 0) [] [] = none ∧ admCheck 0x40 (pk 1 3 1) = none ∧ pktB (pk 1 3 1) 8 1 = 1 ∧ flagFar (pk 1 3 1) = false ∧
    outsideShare aq 0x40 (pk 1 3 1) = false ∧ objBad (pk 1 3 1) = false ∧ badField (pk 1 3 1) [(64, 8)] [] = none := by decide +kernel
/-- PASID 9, queue limit 4, engine and sluice share 1. -/
def mkPart : W512 := pk 0x10 2 (9 + 4 * 2 ^ 32 + 2 ^ 48 + 2 ^ 56)
theorem wit_part_create : AdmTakes (cmd aq mkPart) 0x10 0x40 mkPart = true ∧ (getPart aq 2).st = .free ∧ poolBreach aq (partOfPkt mkPart) = none ∧
    badField mkPart partFields [(decide (64 ≤ 2), 4), ((liveParts aq).any (fun y => y.1 != 2 && y.2.pasid == (partOfPkt mkPart).pasid), 8),
        (decide ((partOfPkt mkPart).queueLimit = 0) || decide (4096 < (partOfPkt mkPart).queueLimit), 12),
        (decide ((partOfPkt mkPart).engineShare = 0), 14), (decide ((partOfPkt mkPart).sluiceShare = 0), 15),
        (decide (65536 < (partOfPkt mkPart).flagBase + (partOfPkt mkPart).flagCount), 20),
        (decide (1024 < (partOfPkt mkPart).gctxBase + (partOfPkt mkPart).gctxCount), 26),
        (decide (2 ^ 20 < (partOfPkt mkPart).htabEntries), 28), (decide ((partOfPkt mkPart).htabBase.toNat % 4096 ≠ 0), 32),
        (decide (16384 < (partOfPkt mkPart).waitLimit), 40), (decide (4096 < (partOfPkt mkPart).basinLimit), 42)] = none := by
  decide +kernel
theorem wit_partitions : AdmPlain (cmd (adm .maint {}) (pk 0x11 1)) 0x11 0x40 (pk 0x11 1) = true ∧ AdmPlain (cmd (adm .halted {}) (pk 0x12 1)) 0x12 0x40 (pk 0x12 1) = true ∧
    AdmPlain (cmd aq (pk 0x13 1)) 0x13 0x40 (pk 0x13 1) = true ∧ AdmPlain (cmd (adm .maint {}) (pk 0x14 1)) 0x14 0x40 (pk 0x14 1) = true ∧
    partQueues (adm .maint {}) 1 = [] ∧ partCtxs (adm .maint {}) 1 = [] ∧ AdmPlain (cmd aq (pk 0x15 1)) 0x15 0x40 (pk 0x15 1) = true := by decide +kernel
theorem wit_part_free : (getPart (adm .resetting {}) 1).st = .resetting ∧ partQueues (freeUnpinned (adm .resetting {}) 1) 1 = [] ∧
    partCtxs (freeUnpinned (adm .resetting {}) 1) 1 = [] ∧ (getPart (freeUnpinned (adm .resetting {}) 1) 1).flr = false := by decide +kernel
/-- LOG2 4, owner 1, WEIGHT, BURST, TIMESLICE 1, timeouts 5. -/
def qPar : Nat := 4 * 2 ^ 64 + 1 * 2 ^ 80 + 2 ^ 88 + 2 ^ 96 + 2 ^ 112 + 5 * 2 ^ 128 + 5 * 2 ^ 160
theorem wit_q_create : AdmTakes (cmd aq (pk 0x20 4 qPar)) 0x20 0x40 (pk 0x20 4 qPar) = true ∧ fld (pk 0x20 4 qPar) 144 6 = 1 ∧ (getQueue aq 4).st = .unused ∧
    (partQueues aq 1).length < (getPart aq 1).queueLimit ∧
    badField (pk 0x20 4 qPar) queueFields ([(decide (4096 ≤ 4), 4), (decide (pktB (pk 0x20 4 qPar) 8 8 % 64 ≠ 0), 8),
        (decide (pktB (pk 0x20 4 qPar) 16 1 < 4) || decide (16 < pktB (pk 0x20 4 qPar) 16 1), 16),
        (decide ((getPart aq 1).st = .free), 18)] ++ queueRanges (pk 0x20 4 qPar)) = none := by decide +kernel
theorem wit_queues : AdmPlain (cmd (adm .active (q3 .created)) (pk 0x21 3)) 0x21 0x40 (pk 0x21 3) = true ∧ AdmPlain (cmd aq (pk 0x22 3)) 0x22 0x40 (pk 0x22 3) = true ∧
    outstanding aq 3 = 0 ∧ outstanding { aq with launches := [(3, lch)] } 3 ≠ 0 ∧
    AdmPlain (cmd { aq with launches := [(3, lch)] } (pk 0x22 3)) 0x22 0x40 (pk 0x22 3) = true ∧
    AdmPlain (cmd (adm .active (q3 .idle)) (pk 0x23 3)) 0x23 0x40 (pk 0x23 3) = true ∧ AdmPlain (cmd aq (pk 0x24 3)) 0x24 0x40 (pk 0x24 3) = true ∧
    AdmTakes (cmd aq (pk 0x25 3 qPar)) 0x25 0x40 (pk 0x25 3 qPar) = true ∧
    badField (pk 0x25 3 qPar) queueFields ((objBad (pk 0x25 3 qPar), 4) :: queueRanges (pk 0x25 3 qPar)) = none := by decide +kernel
/-- Graph context 2 in state st, a save area and an arena. -/
def gctxS (st : Nat) : State := { aq with
  gctxs := [(2, { st := st, owner := 1, cur := 1, gens := [{ num := 1 }] })], save := { slots := 4 }, arenas := [(1, { size := 100 })] }
theorem wit_graphs :
    let b (op : Nat) := badField (pk op 2 (64 + 64 * 2 ^ 64)) [(64, 64), (128, 32)] [(objBad (pk op 2 (64 + 64 * 2 ^ 64)), 4),
      (decide (pktB (pk op 2 (64 + 64 * 2 ^ 64)) 8 8 % 64 ≠ 0), 8),
      (decide (pktB (pk op 2 (64 + 64 * 2 ^ 64)) 16 4 < 64) || decide (2 ^ 24 < pktB (pk op 2 (64 + 64 * 2 ^ 64)) 16 4), 16)]
    b 0x30 = none ∧ b 0x31 = none ∧ AdmTakes (cmd (gctxS 0) (pk 0x30 2 (64 + 64 * 2 ^ 64))) 0x30 0x40 (pk 0x30 2 (64 + 64 * 2 ^ 64)) = true ∧
      AdmTakes (cmd (gctxS 2) (pk 0x31 2 (64 + 64 * 2 ^ 64))) 0x31 0x40 (pk 0x31 2 (64 + 64 * 2 ^ 64)) = true ∧ gctxOwner (gctxS 0) 2 = some 1 ∧
      gctxOwner (gctxS 2) 2 = some 1 ∧ (getArena (gctxS 0) 1).size ≠ 0 ∧ AdmPlain (cmd (gctxS 2) (pk 0x32 2)) 0x32 0x40 (pk 0x32 2) = true ∧
      ctxPins (gctxS 2) 2 = 0 := by decide +kernel
def owned : State := { aq with weir := { owners := [(7, 4)] }, hcache := { lines := [(2 ^ 20 + 5, 1), (2 ^ 20 + 9, 1)] } }
theorem wit_admin_flags : AdmTakes (cmd aq (pk 0x40 7 (5 + 3 * 2 ^ 64))) 0x40 0x40 (pk 0x40 7 (5 + 3 * 2 ^ 64)) = true ∧ fld (pk 0x40 7 (5 + 3 * 2 ^ 64)) 128 12 = 3 ∧
    flagInRange aq 1 7 = true ∧ badField (pk 0x40 7 (5 + 3 * 2 ^ 64)) [(64, 62), (128, 12)] [(objBad (pk 0x40 7 (5 + 3 * 2 ^ 64)), 4)] = none ∧
    flagOwner aq 1 7 = none ∧ AdmPlain (cmd owned (pk 0x41 7)) 0x41 0x40 (pk 0x41 7) = true ∧ flagFar (pk 0x41 7) = false ∧
    (flagOwner owned (flagPart (Flown owned 0x40 (pk 0x41 7)) 0x40 (pk 0x41 7)) 7).isSome = true ∧ armedOn owned 1 7 = 0 ∧
    AdmTakes (cmd owned (pk 0x48 5 (2 + 1 * 2 ^ 32))) 0x48 0x40 (pk 0x48 5 (2 + 1 * 2 ^ 32)) = true ∧
    badField (pk 0x48 5 (2 + 1 * 2 ^ 32)) [(64, 21), (96, 6)] [(objBad (pk 0x48 5 (2 + 1 * 2 ^ 32)), 4),
      (decide (fld (pk 0x48 5 (2 + 1 * 2 ^ 32)) 64 21 = 0) || decide (2 ^ 20 < fld (pk 0x48 5 (2 + 1 * 2 ^ 32)) 64 21), 8),
      (decide ((getPart owned (fld (pk 0x48 5 (2 + 1 * 2 ^ 32)) 96 6)).st = .free), 12)] = none := by decide +kernel

/-- Service mode 1, tick 0. -/
def svm : State := { aq with svc := { mode := 1 } }
/-- One item: SCH_PERIOD 25,000 (kind 1), switch tick 100. -/
def stg : W512 := pk 0x50 9 (100 + 1 * 2 ^ 48 + 1 * 2 ^ 64 + 25000 * 2 ^ 128)
theorem wit_mode_stage : AdmTakes (cmd svm stg) 0x50 0x40 stg = true ∧ stageBad (Flown svm 0x40 stg) stg = none ∧
    mcBusy (Flown svm 0x40 stg) = false ∧ ((upTo (pktB stg 14 1)).map (itemAt stg)).all (fun i => (itemNames i).all (fun b => agtUp svm b)) = true := by
  decide +kernel
theorem wit_service :
    let s := { svm with svc := { svm.svc with mc := { state := 1, number := 9 } } }
    AdmTakes (cmd s (pk 0x51 9)) 0x51 0x40 (pk 0x51 9) = true ∧ badField (pk 0x51 9) [] [] = none ∧ AdmTakes (cmd svm (pk 0x52 1)) 0x52 0x40 (pk 0x52 1) = true ∧
      agtUp svm 1 = true ∧ badField (pk 0x52 1) [] [(decide (64 ≤ 1), 4)] = none ∧
      AdmTakes (cmd svm (pk 0x53 2 0)) 0x53 0x40 (pk 0x53 2 0) = true ∧ agtUp svm 2 = false ∧
      badField (pk 0x53 2 0) [(64, 64), (128, 32)] [(decide (64 ≤ 2), 4), (decide (pktB (pk 0x53 2 0) 8 8 % 64 ≠ 0), 8),
        (decide (pktB (pk 0x53 2 0) 16 4 ≠ 0) && (decide (pktB (pk 0x53 2 0) 16 4 < 64) || decide (131072 < pktB (pk 0x53 2 0) 16 4)
          || decide (pktB (pk 0x53 2 0) 16 4 % 64 ≠ 0)), 16)] = none := by decide +kernel
/-- The smallest image of a kind: a header of 64 bytes with its CRC. -/
def img (k : Nat) : List Byte :=
  let h (crc : Nat) := natToBytes (k + 64 * 2 ^ 64 + crc * 2 ^ 96) 64
  h (imgCrc (h 0) 64)
theorem wit_image : imgBad (img 1) 1 64 = none ∧ imgBad (img 2) 2 64 = none ∧ imgBad (img 1) (coreKind 0x300) 64 = none ∧
    AdmTakes (cmd svm (pk 0x54 0x300 (64 + 64 * 2 ^ 64))) 0x54 0x40 (pk 0x54 0x300 (64 + 64 * 2 ^ 64)) = true ∧ (getCore svm 0x300).staged = false ∧
    pktB (pk 0x54 0x300 (64 + 64 * 2 ^ 64)) 16 4 = 64 ∧
    badField (pk 0x54 0x300 (64 + 64 * 2 ^ 64)) [(64, 64), (128, 32)] [(decide (¬ ((0x300 ≤ 0x300 ∧ 0x300 ≤ 0x307) ∨ (0x200 ≤ 0x300 ∧ 0x300 < 0x240))), 4),
      (decide (pktB (pk 0x54 0x300 (64 + 64 * 2 ^ 64)) 8 8 % 64 ≠ 0), 8),
      (decide (pktB (pk 0x54 0x300 (64 + 64 * 2 ^ 64)) 16 4 < 64) || decide (131072 < pktB (pk 0x54 0x300 (64 + 64 * 2 ^ 64)) 16 4)
        || decide (pktB (pk 0x54 0x300 (64 + 64 * 2 ^ 64)) 16 4 % 64 ≠ 0), 16)] = none := by decide +kernel

-- witnesses: start-up, resets, ports, registers

/-- A fuse word with its CRC, factory test mode allowed. -/
def fuseW : BitVec 256 := let x := BitVec.ofNat 256 (1 + 0xABCD * 2 ^ 8); x + BitVec.ofNat 256 (crc32c 28 (fld x 0 224) * 2 ^ 224)
/-- The cold sequence in phase n. -/
def inPhase (n : Nat) : State := { State.reset with glb := { State.reset.glb with blk := .starting, por := false, phase := n } }
theorem wit_reset_pins : State.reset.glb.por = true ∧ State.reset.glb.rstn = false ∧ (inPhase 2).glb.por = false ∧
    (let s := { inPhase 2 with glb := { (inPhase 2).glb with blk := .reset, rstn := true } }
     s.glb.por = false ∧ s.glb.rstn = true) := by decide +kernel
theorem wit_warm_resets : Open rdy = true ∧ Live rdy = true ∧ rdy.glb.warmBegun = false ∧ isReady rdy = true ∧
    (getPart rdy 1).st = .active ∧ (getPart rdy 2).st = .free ∧
    Live { rdy with glb := { rdy.glb with warmBegun := true, warmBit := 2 } } = true := by decide +kernel
theorem wit_phases : (∀ n ∈ [1, 2, 3, 4, 5, 6], Live (inPhase n) = true ∧ (inPhase n).glb.blk = .starting ∧ (inPhase n).glb.phase = n) ∧
    crc32c 28 (fld fuseW 0 224) = fld fuseW 224 32 := by decide +kernel
theorem wit_phase_images : imgBad (img 2) 2 (imgField (img 2) 8 4) = none ∧
    imgBad [] 2 (imgField [] 8 4) = some 0 := by decide +kernel
theorem wit_agents_deadline :
    let s : State := { rdy with par := { rdy.par with numAgents := 2 }, glb := { rdy.glb with blk := .starting, phase := 5 } }
    Live s = true ∧ s.glb.phase = 5 ∧ (∀ a, a < s.par.numAgents → agtUp s a = true) ∧ agtExcluded s 0 = false := by decide +kernel
theorem wit_ready_reached : (inPhase 7).watch.wins = [] := by decide +kernel
/-- Agent 1 in bring-up, its initialisation done or not. -/
def bup (done : Bool) : State := { rdy with
  glb := { rdy.glb with agents := [], bring := [(1, { step := 1 })] }
  agents := [(1, { running := true, initDone := done, initOk := done })], links := [] }
theorem wit_bring_up : AgLive (bup false) 1 = true ∧ (getAgent (bup false) 1).initDone = false ∧ (getAgent (bup false) 1).latchSeen = false ∧
    Live (bup true) = true ∧ kget (bup true).glb.bring 1 = some { step := 1 } ∧ (getAgent (bup true) 1).running = true ∧
    (getAgent (bup true) 1).initOk = true := by decide +kernel
/-- Agent 1 with one message of the Root to take. -/
def dn (m : Msg) : State := { rdy with links := [(1, { up := true, downRx := { inbox := [m] }, upTx := { credits := 32 } })] }
theorem wit_agent_resets : AgLive (dn (.agentReset 2)) 1 = true ∧ downHead (dn (.agentReset 2)) 1 = some (.agentReset 2) ∧
    (getLink rdy 1).up = true ∧ (getLink { rdy with links := [] } 1).up = false := by decide +kernel
def tst : State := { rdy with glb := { rdy.glb with testLatched := true } }
theorem wit_self_test :
    let s : State := { rdy with glb := { rdy.glb with testLatched := true, rstn := true } }
    s.glb.testLatched = true ∧ s.glb.rstn = true ∧ s.glb.por = false ∧ tst.glb.testLatched = true ∧
      ({ tst with glb := { tst.glb with mbistRun := true } } : State).glb.mbistRun = true := by decide +kernel

/-- SCH_CTRL by the manager, by a function that may not. -/
theorem wit_port_access : regionOf 0x300004 = (.sch, 0x004) ∧ needsExt (wr32 0x40 0x300004 0x10D) = false ∧ admits rdy .sch 4 0x40 true = true ∧
    (regHolding rdy .sch 4).map (fun x => (x.1, x.2.1)) = some (4, false) ∧ admits rdy .sch 4 1 true = false := by decide +kernel
def dbell (i : Nat) : W64 := BitVec.ofNat 64 i
theorem wit_doorbell :
    let x := getQueue rdy 3
    Open rdy = true ∧ x.owner = 1 ∧ x.st = .enabled ∧ fld (dbell 2) 32 16 * 2 ^ x.log2 + fld (dbell 2) 0 16 = 2 ∧ fld (dbell 2) 16 16 = 0 ∧
      (x.tail + 65536 * 2 ^ x.log2 - x.head % (65536 * 2 ^ x.log2)) % (65536 * 2 ^ x.log2) <
        (2 + 65536 * 2 ^ x.log2 - x.head % (65536 * 2 ^ x.log2)) % (65536 * 2 ^ x.log2) ∧
      (2 + 65536 * 2 ^ x.log2 - x.head % (65536 * 2 ^ x.log2)) % (65536 * 2 ^ x.log2) ≤ 2 ^ x.log2 ∧ 2 ^ x.log2 ≤ fld (dbell 16) 0 16 := by
  decide +kernel
theorem wit_flag_region : flagInRange rdy 1 99 = true ∧ flagInRange rdy 1 100 = false ∧ rdy.glb.frozen = false := by decide +kernel
theorem wit_latching : (regHolding rdy .glb 0x020).map (fun x => (x.1, x.2.1)) = some (0x020, true) ∧ (getPart rdy 1).st ≠ .free := by
  decide +kernel
theorem wit_memory_windows :
    let s : State := { rdy with cores := [(0, { bankB := true })] }
    (getCore s 0x300).bankB = true ∧ (getCore s 0x300).staged = false ∧
      (getCore rdy 0x300).owner = [] ∧ memWf (getCore rdy 0x300).dmem = true := by decide +kernel
theorem wit_register_writes : partsQuiet { rdy with parts := [] } = true ∧ Open { rdy with parts := [] } = true ∧
    2000 ≤ fld (25000 : W32) 0 21 ∧ fld (25000 : W32) 0 21 ≤ 2000000 ∧
    (let s : State := { rdy with log := { rdy.log with entries := [1, 2] } }
     fld (1 : W32) 0 13 ≤ s.log.entries.length ∧ s.log.entries.length < 4096 ∧ s.log.lostSince = 0 ∧ s.log.spill = false) ∧
    (let s : State := { rdy with log := { rdy.log with tail := 9 } }
     fld (5 : W32) 0 20 < ringSize s ∧ (fld (5 : W32) 0 20 + ringSize s - s.log.head % ringSize s) % ringSize s ≤ ringUsed s) ∧
    srcExists rdy 5 = true ∧ rdy.watch.level.contains 5 = false ∧ rdy.svc.mc.state = 0 ∧ rdy.svc.draining = [] ∧
    ({ rdy with lb := { rdy.lb with busy := true } } : State).lb.busy = true ∧ rdy.lb.busy = false ∧
    fld (1 + 4 * 2 ^ 16 : W32) 0 4 = 1 ∧ fld (1 + 4 * 2 ^ 16 : W32) 16 12 = 4 ∧ bitOf (1 + 4 * 2 ^ 16 : W32) 30 = false ∧ Open tst = true := by
  decide +kernel
theorem wit_admin_registers : (getAdm rdy 0x40).enable = false ∧ fld (0x14 : W32) 0 4 = 4 ∧ bitOf (0x14 : W32) 4 = true ∧
    fld (3 : W32) 0 12 < 2 ^ (getAdm rdy 0x40).log2 := by decide +kernel

-- witnesses: Outfall, event port, register messages, translation, walks, merges, Basin

def cmpl (st : Nat) : Compl := { eq := 16, tag := 7, launch := 3, status := st, cycles := 5 }
def withOut (m : Msg) : State := { fromAgent m with launches := [(3, { lch with outs := [{ eq := 16, tag := 7 }] })] }
theorem wit_completion : upHead (withOut (.completion (cmpl 4))) 1 = some (.completion (cmpl 4)) ∧
    mergeHolds (withOut (.completion (cmpl 4))) 16 7 = false ∧ stewId 3 = false := by decide +kernel
/-- A completed launch with one signal: ADD 1 to flag 7. -/
def doneL : Launch := { lf .outfall (BitVec.ofNat 512 0) with status := stOk }
theorem wit_record : (one doneL).glb.frozen = false ∧ sigNeeds (one doneL) doneL = [] ∧ doneL.relWant = [] := by decide +kernel
/-- A write outstanding. -/
def wrt (k : WrKind) : State := { one doneL with port := { (one doneL).port with
  writes := [{ txn := 4, fn := 1, pasid := 1, addr := 0x1000, len := 8, data := 5, kind := k }] } }
theorem wit_record_response : ((wrt (.record 3 3)).port.writes.find? (recordOf 3)).isSome = true := by decide +kernel
theorem wit_queues_empty :
    let s (t : Bool) : State := { rdy with queues := [(3, { q3 .resetting with toUnused := t })] }
    (getQueue (s false) 3).st = .resetting ∧ (queueLaunches (s false) 3).all (fun y => decide (y.2.stage = .written)) = true ∧
      (getPart (s false) (getQueue (s false) 3).owner).st ≠ .resetting ∧ (getQueue (s true) 3).toUnused = true ∧
      (getQueue { rdy with queues := [(3, q3 .draining)] } 3).st = .draining := by decide +kernel
theorem wit_write_faults : ((wrt .stewWord).port.writes.find? (fun w => w.txn == 4)).isSome = true ∧
    (wrt (.entry 1 5)).port.writes.map (·.kind) = [.entry 1 5] ∧ (wrt (.save 2)).port.writes.map (·.kind) = [.save 2] ∧
    (wrt .evac).port.writes.map (·.kind) = [.evac] := by decide +kernel
theorem wit_event_port :
    let s : State := { rdy with evt := { pending := [5, 9] } }
    let t : State := { rdy with evt := { pending := [5, 9], presented := some (5, 0) } }
    s.evt.presented = none ∧ s.evt.pending = 5 :: [9] ∧ t.evt.presented = some (5, 0) := by decide +kernel
theorem wit_register_messages : downHead (toAgent (.regRead 0 4 2)) 1 = some (.regRead 0 4 2) ∧
    (regAgent (toAgent (.regRead 0 4 2)) 1 0).isSome = true ∧ (getAgent rdy 1).core.bankB = false ∧ (getAgent rdy 1).core.staged = false ∧
    downHead (toAgent (.regWrite 0x40008 4 2 15 9)) 1 = some (.regWrite 0x40008 4 2 15 9) ∧
    (let h : HeldAcc := { fn := 0x40, addr := 0x1010000, wr := false, data := 0, agent := 1 }
     let s := { fromAgent (.regReply 0 4 0 9) with port := { rdy.port with held := [(4, h)] } }
     upHead s 1 = some (.regReply 0 4 0 9) ∧ kget s.port.held 4 = some h) := by decide +kernel

/-- A graph image with one JOIN node. -/
def gim : List Byte :=
  let h (crc : Nat) := natToBytes (0x31564D41 + 2 ^ 32 + 0x0100 * 2 ^ 48 + 1 * 2 ^ 64 + 64 * 2 ^ 192 + crc * 2 ^ 480) 64 ++ natToBytes 5 24
  h (crcList ((h 0).take 60 ++ (h 0).drop 64))
def job : Job := { q := 0x40, pkt := pk 0x30 2, part := 1, gctx := 2, patch := false, image := gim, readOk := true }
def tro : TransOut := { failCode := 0, failOff := 0, slices := 1, codes := [{}] }
def izs : State := { gctxS 1 with iz := { (gctxS 1).iz with busy := some job } }
/-- The generation that the image makes of context 2. -/
def drf : Generation := draftGen izs job (getGctx izs 2) none tro
theorem wit_translation : izCheck izs job none tro = none ∧
    (arenaPages izs 1).length + (changedPages none drf).length ≤ (getArena izs 1).size * 16 ∧ 0 < (changedPages none drf).length ∧
    (let s : State := { izs with arenas := [] }
     izCheck s job none tro = none ∧ (getArena s 1).size * 16 < (arenaPages s 1).length + (changedPages none drf).length) ∧
    (readDone izs .image).iz.busy = some job ∧ ({ job with readOk := false } : Job).readOk = false ∧
    izHeld (gctxS 1) = false ∧ (gctxS 1).iz.busy = none ∧ (gctxS 1).glb.frozen = false := by decide +kernel

/-- A walk of sequence n (opcode 8) that waits at the Root. -/
def walkP (n : Nat) : Push := { eq := 16, launch := 3, mop := BitVec.ofNat 512 (8 + n * 2 ^ 320), tag := 7 }
def walkS (n : Nat) : State := { rdy with
  launches := [(3, { lch with charge := [(16, 100)] })], pushes := [walkP n], seqs := [(1, { cnt := 4 })] }
theorem wit_walk : ∀ n ∈ [2, 4], (walkS n).pushes.find? (fun p => p.tag == 7 && isWalk p && decide (p.walked ≠ 2)) = some (walkP n) ∧
    canPush (walkS n) (aheadOf (walkS n) (walkP n)) { walkP n with walked := 2 } = true ∧ mSeq (walkP n).mop = n ∧
    rootGet (walkS n) (65536 + n) = none := by decide +kernel
theorem wit_root :
    let s : State := { rdy with attn := { reading := [65536 + 2] } }
    65536 + 2 ∈ s.attn.reading ∧ s.pushes = [] ∧ rootGet s (65536 + 2) = none ∧
      (let t : State := { rdy with seqs := [(1, { cnt := 4 })] }
       ((halfGet t.port.wlatch (0x100E0 + 1 * 0x1000)).getD 0).toNat % 65536 = 0 ∧ (getSeqs t 1).busy = false ∧ (getSeqs t 1).cnt = 4) ∧
      (let t : State := { wrt (.root 1) with seqs := [(1, { cnt := 4, busy := true })] }
       (t.port.writes.find? (fun w => w.kind == .root 1)).isSome = true ∧ (getSeqs t 1).busy = true) ∧
      (let t : State := { rdy with attn := { reclaim := [((65536 + 2) * 65536 + 9, 8)] } }
       tget 0 t.attn.reclaim ((1 * 65536 + 2) * 65536 + 9) = 7 + 1 ∧ tget 0 t.attn.walks ((1 * 65536 + 2) * 65536 + 9) = 0) := by
  decide +kernel
def rec0 : W512 := BitVec.ofNat 512 (0x40000000 + 5 * 2 ^ 344)
def mrg (n : Nat) : Merge := { dim0 := 1, dim1 := 8, nshard := n, part := 1 }
def mrgS (n : Nat) : State := { fromAgent (.partialRec 16 7 3 rec0) with
  launches := [(3, lch)], outf := { rdy.outf with merges := [(mergeKeyOf 3 5, mrg n)] } }
theorem wit_merge : upHead (mrgS 4) 1 = some (.partialRec 16 7 3 rec0) ∧ agtUp (mrgS 4) 1 = true ∧
    getMerge? (mrgS 4) (mergeKeyOf 3 (prMid rec0)) = some (mrg 4) ∧ prRow rec0 < (mrg 4).dim0 ∧ prSlice rec0 < (mrg 4).dim1 / 8 ∧
    getMerge? { mrgS 4 with outf := {} } (mergeKeyOf 3 (prMid rec0)) = none := by decide +kernel
theorem wit_merge_response :
    let s : State := { wrt (.merge (mergeKeyOf 3 5) 0 16 7) with outf := { rdy.outf with merges := [(mergeKeyOf 3 5, mrg 4)] } }
    (s.port.writes.find? (fun w => w.txn == 4)).isSome = true ∧ getMerge? s (mergeKeyOf 3 5) = some (mrg 4) := by decide +kernel
/-- A HOLD (1) or a COMMIT (2) of group 6, index i. -/
def basP (mode i : Nat) : Push := { eq := 16, launch := 3, mop := BitVec.ofNat 512 (9 + (mode * 2 ^ 16 + 6 * 2 ^ 18 + i * 2 ^ 26) * 2 ^ 320), tag := 7 }
def basS (mode i : Nat) (h : List Held) : State := { rdy with
  launches := [(3, { lch with charge := [(16, 100)] })], pushes := [basP mode i], basin := { rdy.basin with held := h } }
def held0 : Held := { part := 1, group := 6, idx := 0, launch := 3, tick := 0, eq := 16, mop := 9 }
theorem wit_basin : basinTurn (basS 1 0 []) (basP 1 0) = true ∧ basinTarget (basS 1 0 []) (basP 1 0) = 0 ∧
    (basS 1 0 []).pushes.find? (fun p => p.tag == 7 && mOpc p.mop == 9 && mBmode p.mop == 1) = some (basP 1 0) ∧
    (basS 2 1 []).pushes.find? (fun p => p.tag == 7 && mOpc p.mop == 9 && mBmode p.mop == 2) = some (basP 2 1) ∧
    0 < Config.basinMax ∧ 0 < (getPart rdy 1).basinLimit ∧ basinTurn (basS 2 1 [held0]) (basP 2 1) = true ∧
    (basS 2 1 [held0]).basin.held.filter (fun e => e.part == 1 && e.group == mGroup (basP 2 1).mop) = [held0] ∧ 0 < mIdx (basP 2 1).mop ∧
    ((basS 2 0 [held0]).basin.held.all (fun e => decide (mIdx (basP 2 0).mop ≤ e.idx))) = true := by decide +kernel
theorem wit_basin_expiry :
    let s : State := { rdy with sched := { rdy.sched with tickNo := 5 }, basin := { rdy.basin with held := [held0] } }
    s.glb.frozen = false ∧ s.basin.held = [held0] ∧ held0.tick + 2 ≤ s.sched.tickNo := by decide +kernel

-- witnesses: Crossing, berms, Steward, Watch, service, tide, loop-backs

/-- Crossing link 2 is enabled; instances as given. Closure word: group 16 of partition 1, chip 3, tag t. -/
def xs (is : List (Nat × Inst)) : State := { rdy with
  xing := { rdy.xing with links := [(2, { enable := true })], routes := [(3, 0xA)], insts := is } }
def xw (t : Nat) : W32 := BitVec.ofNat 32 (t + 16 * 2 ^ 16 + 3 * 2 ^ 26)
theorem wit_closure : xcOpen (xs []) 2 = true ∧ groupDead (xs []) (xw 2) = false ∧ instKey (xw 2) = 1027 ∧
    kget (xs []).xing.insts 1027 = none ∧ kget (xs [(1027, { count := 1 })]).xing.insts 1027 = some { count := 1 } ∧
    kget (xs [(1027, { count := 1, held := some 2, link := 2 })]).xing.insts 1027 = some { count := 1, held := some 2, link := 2 } ∧
    xwTag (xw 1) = 1 ∧ xwTag (xw 2) = 2 ∧
    (xs [(1027, { count := 1 })]).xing.insts.any (fun x => x.2.link == 2 && x.2.held == some 1 && x.2.released.isNone) = false := by
  decide +kernel
def rset : RSet := { part := 1, chip := 3, index := 7, value := 5, poison := false }
def xsets : State := let s := xs []; { s with xing := { s.xing with sets := [rset] } }
/-- A SET of flag 7 of partition 1 for this chip. -/
def xmSet : BitVec 128 := BitVec.ofNat 128 (1 + 1 * 2 ^ 16 + 7 * 2 ^ 24 + 5 * 2 ^ 64)
theorem wit_crossing : (tget 0#32 xsets.xing.routes 3).toNat % 8 = 2 ∧
    xsets.xing.sets.find? (fun r => r.chip == 3 && !setHeldBack xsets r.part 3) = some rset ∧ xmKind xmSet = 1 ∧
    xmDst xmSet = xsets.xing.chip ∧ flagInRange xsets (xmPart xmSet) (xmIndex xmSet) = true ∧ xmKind (0 : BitVec 128) = 0 ∧
    2 < xsets.par.xingLinks ∧ (tget {} xsets.xing.links 2).up = true ∧
    (let s := xs [(1027, { held := some 2, link := 2 })]
     (tget {} s.xing.insts (16 * 64 + 3)).held = some 2 ∧ (tget {} s.xing.insts (16 * 64 + 3)).link = 2) := by decide +kernel

/-- Stack agent 12 with a gate and, on queue 0, a presented macro-op or none. -/
def bs (b : Berm) (busy : Bool) : State := { rdy with
  agents := [(12, { running := true, initDone := true, berm := b
                    eqs := if busy then [(0, { lc := [{ ent mopE with st := .presented }], pres := some (false, 1) })] else [] })] }
theorem wit_berm : AgLive (bs {} false) 12 = true ∧ bermLive (bs {} false) 12 = true ∧ bermBusy (bs {} false) 12 = [] ∧
    bermBusy (bs {} true) 12 = [0] ∧ (getAgent (bs { req := true, granted := true } true) 12).berm.granted = true ∧
    AgLive (bs { req := true } true) 12 = true ∧ (getAgent (bs { req := true } true) 12).berm.d = 0 := by decide +kernel

/-- The Steward serves stack agent 12 with 8 regions and 8 DRAM units. -/
def ss (k : Stew) : State := { rdy with stew := k }
def stk0 : Stew := { enable := true, stk := [(12, { nvUnits := 8, dramUnits := 8, endur := 1000 })] }
/-- Region 5 written n times more. -/
def wear (n : Nat) : W64 := BitVec.ofNat 64 (5 + n * 2 ^ 24)
/-- A defect of DRAM unit 2, its spare unit 4. -/
def dfc : W64 := BitVec.ofNat 64 (2 * 4 + 4 * 2 ^ 26 + 2 ^ 50)
/-- A mapped word: handle 5 of partition 1, VALID; a handle-table entry of DRAM unit 2. -/
def dirV : W64 := BitVec.ofNat 64 (5 + 1 * 2 ^ 20 + 2 ^ 26)
def entU (kind addr : Nat) : BitVec 128 := BitVec.ofNat 128 (2 ^ 99 + 2 ^ 96 + kind * 2 ^ 92 + 1 * 2 ^ 64 + addr)
theorem wit_steward : stewTakes (ss stk0) 12 = true ∧ fld (wear 3) 0 24 = 5 ∧ fld (wear 3) 24 24 = 3 ∧ fld (wear 3) 48 16 = 0 ∧
    (getStack (ss stk0) 12).nvUnits = 8 ∧ 3 * 10 < (getStack (ss stk0) 12).endur * 9 ∧ (getStack (ss stk0) 12).endur ≤ 1000 ∧
    dirValid (0 : W64) = false ∧ bitOf dfc 1 = false ∧ fld dfc 51 13 = 0 ∧ fld dfc 2 24 = 2 ∧ fld dfc 26 24 = 4 ∧
    bitOf dfc 0 = false ∧ bitOf dfc 50 = true ∧ dirValid dirV = true ∧ entryOk (ss stk0) 12 false 2 (entU 5 0x20000) = true := by
  decide +kernel
def cpy (ok : Bool) : Copy := { agent := 12, region := 5, target := 6, word := dirV, tgtWord := 0, entry := entU 6 0x500000, part := 1
                                pendReg := false, tag := 0, sent := 2, ended := true, ok := ok }
theorem wit_relocation_copy :
    let f : Fence := { agent := 12, tier := true, unit := 5, word := dirV, part := 1, launches := [3] }
    (ss { stk0 with copy := some (cpy true) }).stew.copy = some (cpy true) ∧
      (ss { stk0 with fences := [f] }).stew.fences.find? (fun f => f.agent == 12 && f.unit == 5 && f.tier == true) = some f ∧
      f.launches.all (fun id => (kget rdy.launches id).isNone) = true ∧
      (ss { stk0 with retry := [(12, 5)] }).stew.retry.contains (12, 5) = true ∧
      stewTakes (ss { stk0 with retry := [(12, 5)] }) 12 = true ∧
      entryOk (ss { stk0 with retry := [(12, 5)] }) 12 true 5 (entU 6 0x500000) = true ∧
      dirSpare (BitVec.ofNat 64 (2 ^ 27)) = true ∧ dirFenced (BitVec.ofNat 64 (2 ^ 27)) = false := by decide +kernel
/-- A full list of units that await fencing holds a switch back, one place left does not. -/
theorem wit_fences_full :
    let f : Fence := { agent := 12, tier := true, unit := 5, word := dirV, part := 1, launches := [3] }
    let s := fun n => ss { stk0 with copy := some (cpy true), fences := List.replicate n f }
    (s 256).stew.copy = some (cpy true) ∧ (cpy true).ended = true ∧ 256 ≤ (s 256).stew.fences.length ∧
      (s 255).stew.fences.length < 256 := by decide +kernel
/-- The last merged write of an OUTFALL loop-back exchange. -/
theorem wit_loop_merge :
    let m : Merge := { mrg 2 with loop := some 3, slots := (upTo 15).map fun k => (k + 1, { written := true }) }
    let s : State := { wrt (.merge (mergeKeyOf 3 5) 0 16 7) with outf := { rdy.outf with merges := [(mergeKeyOf 3 5, m)] } }
    getMerge? s (mergeKeyOf 3 5) = some m ∧ m.loop = some 3 ∧
      ((tput {} m.slots 0 { tget {} m.slots 0 with written := true }).filter fun y => y.2.written).length = 16 := by decide +kernel

theorem wit_faults : rootSampled rdy = true ∧ srcExists rdy 5 = true ∧ srcExists rdy 70 = true ∧ agentSampled rdy 1 = true ∧
    srcExists rdy (256 + 32 * 1 + 9) = true ∧ hasLevel (256 + 32 * 1 + 9) = true ∧
    (getAgent { rdy with agents := [(1, { running := true, level := [9] })] } 1).level.contains 9 = true ∧
    upHead (fromAgent (.watchEvent 9 false true 1)) 1 = some (.watchEvent 9 false true 1) := by decide +kernel
def wwin : State := { rdy with
  sched := { rdy.sched with tickNo := 100000 }
  watch := { rdy.watch with wins := [(1280, { open_ := true, start := 0, n := 3, severe := true }), (1281, { open_ := true, start := 100000, n := 1 })] } }
theorem wit_windows : isReady wwin = true ∧ (tget {} wwin.watch.wins 1280).open_ = true ∧
    (tget {} wwin.watch.wins 1280).start + (srcCfg wwin (1280 / 128) >>> 8) % 65536 ≤ wwin.sched.tickNo ∧
    wwin.sched.tickNo < (tget {} wwin.watch.wins 1281).start + (srcCfg wwin (1281 / 128) >>> 8) % 65536 := by decide +kernel
def evs (n : Nat) : State := { rdy with
  glb := { rdy.glb with frozen := true }, watch := { rdy.watch with failStep := 4, evacSize := n, evacBase := 0x10000, fencing := [1] } }
theorem wit_evacuation : (evs 0).watch.fencing.contains 1 = true ∧ launchesOn (evs 0) 1 = [] ∧ (evs 0).glb.frozen = true ∧
    (evs 0).watch.evacSize * 65536 < 675904 ∧ 675904 ≤ (evs 11).watch.evacSize * 65536 ∧ Live (evs 0) = true := by decide +kernel

/-- The item that sets SCH_PERIOD to 30,000, and a change that stages it. -/
def itP : BitVec 128 := BitVec.ofNat 128 (1 + 30000 * 2 ^ 64)
/-- The item that recalibrates agent 1. -/
def itR : BitVec 128 := BitVec.ofNat 128 (5 + 1 * 2 ^ 16)
def mch (st : Nat) (i : BitVec 128) : State := { rdy with
  svc := { mode := 1, mc := { state := st, number := 9, tick := 0, items := 1, its := [i], acked := if i = itP then [0, 1] else [] } } }
theorem wit_mode :
    downHead (toAgent (.modeStage 1 1 9 100 5)) 1 = some (.modeStage 1 1 9 100 5) ∧ itKind itP = 1 ∧
      mcAgents (mch 1 itR) = [1] ∧ (mch 1 itR).svc.mc.acked.contains 1 = false ∧
      ((mcAgents (mch 1 itP)).all (fun a => (mch 1 itP).svc.mc.acked.contains a)) = true ∧
      ((mcCores (mch 1 itP)).all (fun c => coreAcks (mch 1 itP) c)) = true ∧ (mch 2 itP).svc.mc.tick ≤ (mch 2 itP).sched.tickNo ∧
      (let s := { fromAgent (.modeAck 1 0 0 9) with svc := (mch 1 itR).svc }
       upHead s 1 = some (.modeAck 1 0 0 9) ∧ s.svc.mc.state = 1) ∧
      (let s := { toAgent (.modeStage 2 1 9 100 0) with agents := [(1, { running := true, mode := { staged := true, number := 9 } })] }
       AgLive s 1 = true ∧ downHead s 1 = some (.modeStage 2 1 9 100 0)) := by decide +kernel
theorem wit_agent_tick : downHead (toAgent (.tick 5 25000)) 1 = some (.tick 5 25000) ∧ (getAgent (toAgent (.tick 5 25000)) 1).mode.staged = false := by
  decide +kernel
def drn (l : Bool) : State := { rdy with svc := { mode := 1, draining := [(1, { q := 0x40, tag := 7, late := l })] } }
theorem wit_drain : kget (drn false).svc.draining 1 = some { q := 0x40, tag := 7 } ∧ drainClear (drn false) 1 = true := by decide +kernel
/-- A reading of the Root: drift 82, slack 32, valid. -/
def rdg (d : Nat) : W32 := BitVec.ofNat 32 (d + 32 * 2 ^ 12 + 2 ^ 20)
theorem wit_ageing :
    let s : State := { rdy with svc := { mode := 1, pmOut := [(0, 2)] } }
    s.sched.tickNo % max 1 s.svc.interval = 0 ∧ bitOf (rdg 82) 20 = true ∧ s.svc.driftWarn ≤ fld (rdg 82) 0 12 ∧
      fld (rdg 81) 0 12 < s.svc.driftWarn ∧ s.svc.slackMin ≤ fld (rdg 81) 12 8 ∧ kget s.svc.pmOut 0 = some 2 := by
  decide +kernel
def spl (k : WrKind) : State := { wrt k with log := { rdy.log with entries := [1, 2, 3], spill := true } }
theorem wit_spill : isReady (spl .stewWord) = true ∧ (spl .stewWord).log.inflight = 0 ∧
    3 = min 32 (min (spl .stewWord).log.entries.length (min (ringSize (spl .stewWord) - (spl .stewWord).log.tail % ringSize (spl .stewWord))
      (ringSize (spl .stewWord) - 1 - ringUsed (spl .stewWord)))) ∧
    ((spl (.spill 3)).port.writes.find? spillOf).isSome = true := by decide +kernel

/-- The one flit of a TICK with SEQ n. -/
def tickFlit (n : Nat) : W512 := mkFlit (msgType (.tick 5 25000)) false 0 n 0 0 (BitVec.ofNat 416 ((msgPayload (.tick 5 25000)) % 2 ^ 416))
theorem wit_flit : flitKind (getLink rdy 1).downRx (tickFlit 0) = .wanted ∧ bitOf (tickFlit 0) 5 = false ∧ msgDir .down (.tick 5 25000) = true ∧
    msgDecode (fld (tickFlit 0) 0 5) (joinPayload ((getLink rdy 1).downRx.acc ++ [BitVec.ofNat 416 (fld (tickFlit 0) 64 416)])) =
      some (.tick 5 25000) ∧ flitKind (getLink rdy 1).downRx (tickFlit 4095) = .old ∧
    flitKind (getLink rdy 1).downRx (tickFlit 0 ^^^ 0x100) = .bad := by decide +kernel
theorem wit_replay :
    let s : State := { rdy with links := [(1, { up := true, downRx := { inbox := [.replayReq 6] }, upTx := { unacked := [(6, 0)], replays := [(6, 7)] } })] }
    downHead (dn (.replayReq 6)) 1 = some (.replayReq 6) ∧
      (replayMark (getLink (dn (.replayReq 6)) 1).upTx 6).replays.all (fun r => decide (r.2 < 8)) = true ∧
      downHead s 1 = some (.replayReq 6) ∧ (replayMark (getLink s 1).upTx 6).replays.all (fun r => decide (r.2 < 8)) = false ∧
      ((getLink s 1).upTx.unacked.map (·.1)).Nodup := by decide +kernel
theorem wit_messages : msgWf (.tick 5 25000) = true ∧ msgWf (.modeStage 1 3 9 100 5) = true ∧
    msgDir .up (.completion (cmpl 4)) = true ∧ msgWf (.completion (cmpl 4)) = true ∧ msgWf (.ctxXfer 1 9 3 0 taskBytes) = true := by decide +kernel
def lbs (f : List LbEx) (m : Msg) : State := { fromAgent m with
  lb := { busy := true, point := 4, agent := 1, count := 4, members := [1], flight := f } }
def lbx : LbEx := { agent := 1, k := 0, sent := lbPayload 1 1 }
theorem wit_loopback : (lbs [] .idle).lb.flight.any (fun x => x.agent == 1) = false ∧ bringEx (lbs [] .idle) 1 = none ∧
    tget 0 (lbs [] .idle).lb.next 1 < (lbs [] .idle).lb.count ∧ (lbs [] .idle).lb.members.contains 1 = true ∧
    upHead (lbs [lbx] (.loopback 1 lbx.sent)) 1 = some (.loopback 1 lbx.sent) ∧
    (lbs [lbx] (.loopback 1 lbx.sent)).lb.flight.find? (fun x => x.agent == 1) = some lbx ∧
    downHead (toAgent (.loopback 1 lbx.sent)) 1 = some (.loopback 1 lbx.sent) := by decide +kernel

-- witnesses of the single clauses

theorem wit_identity : Open rdy = true ∧ owedOf rdy false < 32 ∧ rdy.port.owed = [] ∧ Takes rdy = true ∧
    AgLive (toAgent (.regRead 0 4 2)) 1 = true ∧ downHead (toAgent (.regRead 0 4 2)) 1 = some (.regRead 0 4 2) ∧
    regAgent (toAgent (.regRead 0 4 2)) 1 0 = some 0xE7030301 := by decide +kernel
theorem wit_jalr : branchHeld (sc cx) 0x300 (sReg (setS cx 1 (cx.pc + 4)) 1 % 2 ^ 32) = false := by decide +kernel
theorem wit_anext_inactive : (gReg cx 1).active = false ∧ cx.xfers.length < 4 ∧
    (gReg { cx with g := [(1, { active := true })] } 1).ended = false := by decide +kernel
/-- The source of a store with an uncorrectable error in its first word, and without. -/
theorem wit_store_source :
    let s (e : List Nat) := { sc cx with cores := [(0, { st := 2, run := some 5, imemA := [(2, 64)], owner := [(0, 6)], written := [0], ecc2 := e })] }
    (dmFetch (s []) 0x300 cx 0 64).2.1 = 0 ∧ (dmFetch (s [8]) 0x300 cx 0 64).2.1 = scEcc := by decide +kernel
theorem wit_hrel_miss :
    let c := { cx with s := [(1, 4)] }
    bufHandleOk (sReg c 1 % 2 ^ 32) = true ∧ hInTable (touchCode (sc cx) c) c.part (sReg c 1 % 2 ^ 32) = true ∧
      cacheLookup (touchCode (sc cx) c) c.part (sReg c 1 % 2 ^ 32) = none := by decide +kernel
theorem wit_task_class : nbits (bytesToNat (natToBytes (2 * 2 ^ 512 + 2 ^ 528) 80)) (8 * 65) 8 = 0 := by decide +kernel
/-- A whole save image in pieces of 128 bytes. -/
def pcs : List (Nat × List Byte) := (upTo 176).map fun k => (128 * k, List.replicate 128 0)
theorem wit_save_last :
    let s := { fromAgent (.ctxXfer 2 9 3 22400 (List.replicate 128 0)) with
      ctxs := [(5, { cx with tasks := [(1, 9)] })], save := { pieces := [(9, pcs.take 175)] } }
    sumBy (fun (p : Nat × List Byte) => p.2.length) (tget [] s.save.pieces 9 ++ [(22400, List.replicate 128 0)]) = 22528 := by
  decide +kernel
theorem wit_restore_last :
    let s := { toAgent (.ctxXfer 3 9 3 22400 (List.replicate 128 0)) with
      agents := [(1, { running := true, tasks := [(9, cx)], pieces := pcs.take 175 })] }
    sumBy (fun (p : Nat × List Byte) => p.2.length) ((getAgent s 1).pieces ++ [(22400, List.replicate 128 0)]) = 22528 ∧
      kget (getAgent s 1).tasks 9 = some cx ∧ freeSlicesOf s 0x201 = upTo 16 := by decide +kernel
theorem wit_task_end_skip : ({ pushSkips := [9] } : Agent).pushSkips.contains 9 = true ∧ ({} : Agent).pushSkips.contains 9 = false ∧
    nbits (bytesToNat [3, 0, 0, 0, 2]) 32 8 = 2 := by decide +kernel
theorem wit_saved_grant :
    let c := { cw with st := .saved, slices := [] }
    let s := { wantsCore with ctxs := [(5, c)], cores := [] }
    bestFor s 0x300 = some (5, c) ∧ ((kget (bringIn s 0x300 5).ctxs 5).map (·.slices)) = some [0] := by decide +kernel
theorem wit_cslice_alone : (wantCore (sc cx)).any (fun x => rankOf (sc cx) x.2 == rankOf (sc cx) cx) = false := by decide +kernel
/-- A mirror of 1,024 flags keeps the WAIT at the head of the BE lane out. -/
theorem wit_held_wait :
    let w : Ent := { ent (BitVec.ofNat 512 (0x11 + 2 ^ 128 * 5000)) with be := true }
    let s := { rdy with agents := [(1, { running := true, eqs := [(0, { be := [w] })], mirror := (upTo 1024).map fun k => (k, {}) })] }
    heldWait s 1 0 true = some w ∧ (getEq s 1 0).wait = none := by decide +kernel
theorem wit_done_aborted : fld (0x500000002 : W64) 0 2 = 2 := by decide +kernel
theorem wit_arrival :
    let d (op t : Nat) : Launch := { lch with desc := BitVec.ofNat 512 (op + t * 2 ^ 16) }
    (arrivalCharge rdy (d 1 0)).isSome = true ∧ arrivalCharge rdy (d 2 5) = none ∧ dOpcode (d 2 5).desc = 2 := by decide +kernel
theorem wit_check_held :
    let s : State := { rdy with sched := { rdy.sched with eqcap := [(0, 1000)], bookCur := bookVec [] 1 [(0, 40000)] } }
    let u : List (Nat × Launch) := [(3, { lch with stage := .sched, desc := 1, be := true, charge := [(0, 40000)] })]
    let big : State := { s with sched := { s.sched with bookNext := bookVec [] 1 [(0, 49000)] } }
    tooLong s 1 false (unitVec u) = false ∧ fitsNext big 1 (unitVec u) = false ∧ fitsCur big 1 false (unitVec u) = false := by decide +kernel
theorem wit_fetch_round :
    let s := { rdy with queues := [(3, { annc with weight := 2 })], inlet := { rdy.inlet with holder := tput 0 [] 2 4 } }
    holders (passSlices s) false = [(1, 3)] ∧ holders (passSlices s) true = [] ∧
      (holders (passSlices s) false).any (fun h => decide (0 < tget 0 (passSlices s).inlet.credit (h.1 * 2 + b2n false))) = false ∧
      (holders (passSlices s) false).find? (fun h => decide (0 < tget 0 (newRound (passSlices s) false).inlet.credit (h.1 * 2 + b2n false))) =
        some (1, 3) := by decide +kernel
/-- A fragment header with one fragment of wait entries, all empty, and one with none. -/
theorem wit_fragment_table :
    let l (h : Nat) : Launch := { lf .fragRead (BitVec.ofNat 512 (3 + 5 * 2 ^ 64)) with fragLen := 2, frags := [BitVec.ofNat 512 h, 0] }
    fragBad (l (1 + 1 * 2 ^ 64)) = false ∧ fragBad (l 0) = true ∧ descBad (l 0).desc = false ∧ (l 0).aborting = false ∧ (l 0).broken = 0 := by
  decide +kernel
theorem wit_chain_cut :
    let s : State := { one (lf .inlet dChained) with queues := [(3, { st := .enabled, owner := 1, log2 := 4, tail := 1, issued := 1 })] }
    (chainRun s 16 (inletOf s 3)).2 = false ∧ inletOf s 3 ≠ [] ∧ unissued (getQueue s 3) = 0 := by decide +kernel
theorem wit_memory_flag_states :
    let m : MemFlag := { addr := 0x1000, reading := true, sigs := [sg 7] }
    m.reading = true ∧ m.sigs = sg 7 :: [] ∧ (sg 7).src ≠ 100 ∧
      (getAgent rdy 1).mirror.any (fun m => m.1 == 8) = false := by decide +kernel
theorem wit_node_lines :
    let s := gr 2 { st := .ready } none
    let l : Launch := { lch with gctx := 2, gen := 1, nodes := [{ st := .ready }], charge := [] }
    let k := startLines s l 0
    k.all s.ccache.contains = false ∧ k.all ({ s with ccache := k } : State).ccache.contains = true := by decide +kernel
/-- WAIT nodes on no flag and on flag 7; SIGNAL nodes on no flag, flag 7 and flag 7 of chip 1 by SET. -/
theorem wit_node_kinds :
    let l : Launch := { lch with gctx := 2, gen := 1, nodes := [{ st := .ready }], charge := [] }
    canStart (gr 3 { st := .ready } none) l 0 (nd 3) = true ∧ wHandle (nd 3).body.toNat ≠ 0 ∧
      canStart (gr 3 { st := .ready } none) l 0 { nd 3 with body := 0 } = true ∧ wHandle ({ nd 3 with body := 0 }).body.toNat = 0 ∧
      canStart (gr 4 { st := .ready } none) l 0 { nd 4 with body := 0 } = true ∧ sHandle ({ nd 4 with body := 0 }).body.toNat = 0 ∧
      sHandle (3 * 2 ^ 30 + 2 ^ 24 + 7 + 2 * 2 ^ 32) / 2 ^ 30 = 3 ∧ sOp (3 * 2 ^ 30 + 2 ^ 24 + 7 + 2 * 2 ^ 32) = 2 := by decide +kernel
theorem wit_reply_write :
    let s := { aq with port := { aq.port with writes := [{ txn := 4, fn := 0x40, pasid := 0, addr := 0, len := 16, data := 0, kind := .reply 0x40 true }] } }
    (s.port.writes.find? (fun w => match w.kind with
      | .reply k _ => k == 0x40
      | _ => false)).map (·.kind) = some (.reply 0x40 true) := by decide +kernel
theorem wit_admin_bad : badField (pk 0x51 9 1) [] [] = some 8 ∧ admCheck 5 (pk 0x51 9) = some (stDenied, 4) := by decide +kernel
theorem wit_flr : rdy.glb.pfFlr = false ∧ rdy.glb.warmBegun = false ∧ ({ rdy.glb with pfFlr := true } : Glb).pfFlr = true ∧
    isReady (inPhase 3) = false := by decide +kernel
theorem wit_fuse : fuseGood fuseW = true ∧ fuseGood 0 = false ∧ bitOf (0 : BitVec 256) 0 = false ∧ State.reset.glb.testPin = false ∧
    bitOf (fuseW + 1) 0 = false := by decide +kernel
theorem wit_agent_test : (getAgent { rdy with agents := [(1, { running := true, testLatched := true })] } 1).testLatched = true ∧
    rdy.glb.por = false ∧ fld (mbistResult 3 5) 16 16 = 3 := by decide +kernel
theorem wit_loop_words : (let w : W32 := (0x00040001 : W32) ||| 0x40000000#32
     1 ≤ fld w 0 4 ∧ fld w 16 12 = 4 ∧ bitOf w 30 = true) ∧
    (let w : W32 := ((0x00040001 : W32) &&& 0x3FFFFFFF) ||| 0x80000000#32
     fld w 0 4 = 1 ∧ fld w 16 12 = 4 ∧ bitOf w 30 = false) ∧ codeListed (fld (0x80000801 : W32) 0 16) = true ∧
    bitOf (0x80000801 : W32) 31 = true ∧ bitOf (1 : W32) 0 = true ∧ bitOf (1 : W32) 1 = false ∧ partsQuiet rdy = false := by decide +kernel
theorem wit_completion_named :
    let s := withOut (.completion (cmpl 4))
    let x := newFigures (takeUp s 1) (cmpl 4)
    launchNamed x.2 3 (fun l => l.outs.any fun o => o.eq == 16 && o.tag == 7) = 3 ∧ (kget x.2.launches 3).isSome = true ∧
      x.1.cycles = 5 := by decide +kernel
theorem wit_queue_ends :
    let q (l : Bool) : Queue := { st := .draining, owner := 1, drainLate := l }
    (q true).drainLate = true ∧ (q false).drainLate = false ∧
      (queueLaunches (one { doneL with stage := .written }) 3).all (fun y => isDone y.2) = true ∧
      ((queueLaunches (one lch) 3).all (fun y => isDone y.2) = false) := by decide +kernel
theorem wit_agent_image :
    let g (b : Bool) : Agent := { running := true, core := { staged := b } }
    (g true).core.staged = true ∧ (g false).core.staged = false ∧ (g false).core.bankB = false ∧ nbits 15 0 4 = 15 ∧ nbits 3 0 4 ≠ 15 := by
  decide +kernel
/-- A root word with bit 63 clear, cached. -/
theorem wit_root_hit :
    let s := { walkS 2 with attn := { (walkS 2).attn with roots := [(65536 + 2, 5)] } }
    rootGet s (65536 + 2) = some 5 ∧ bitOf (5 : W64) 63 = false ∧ (walkP 2).walked = 0 := by decide +kernel
theorem wit_basin_full :
    let s := basS 1 0 [held0]
    let t := { s with parts := [(1, { getPart rdy 1 with basinLimit := 1 })] }
    (getPart t 1).basinLimit ≤ (t.basin.held.filter (fun e => e.part == 1)).length ∧
      (s.basin.held.filter (fun e => e.part == 1)).length < (getPart s 1).basinLimit := by decide +kernel
theorem wit_steward_bounds : (getStack (ss stk0) 12).endur ≠ 0 ∧ (getStack (ss stk0) 12).endur ≤ 1000 ∧
    1000 ≤ fld (wear 1000) 24 24 ∧ (getStack (ss stk0) 12).nvUnits ≤ fld (BitVec.ofNat 64 8 : W64) 0 24 ∧
    fld dfc 2 24 < unitCount (ss stk0) 12 false ∧ fld dfc 26 24 < unitCount (ss stk0) 12 false := by decide +kernel
theorem wit_levels : hasLevel 5 = false ∧ hasLevel 70 = true ∧ rdy.watch.level.contains 70 = false ∧ rdy.watch.wire.contains 5 = false ∧
    (getAgent rdy 1).wire.contains 9 = false := by decide +kernel
/-- An agent whose bank to switch to does not hold an image, and one that has nothing to switch. -/
theorem wit_agent_answer :
    let g (i : Nat) : Agent := { mode := { items := 1, its := BitVec.ofNat 384 i } }
    agentAnswer (g 2) true 0 = some (2, 1, 0) ∧ agentAnswer (g 1) true 0 = some (1, 0, 0) ∧ agentAnswer (g 5) false 141 = some (2, 2, 3) := by
  decide +kernel
theorem wit_deadline : ((mcAgents (mch 1 itR)).filter (fun a => !(mch 1 itR).svc.mc.acked.contains a)) = [1] ∧
    ((mcAgents (mch 1 itP)).filter (fun a => !(mch 1 itP).svc.mc.acked.contains a)) = [] := by decide +kernel
theorem wit_imem_agent : coreKind 0x201 = 3 ∧ imgBad (img 3) (coreKind 0x201) 64 = none ∧ agtUp svm (0x201 - 0x200) = true := by decide +kernel

-- witnesses: the step

theorem wit_step : ({ rdy with pending := [.relocation 3] } : State).pending = .relocation 3 :: [] ∧ rdy.pending = [] ∧
    rdy.watch.actions = [] := by decide +kernel
theorem wit_mode_abort : (let s := { mch 1 itP with adms := aq.adms }
     AdmTakes (cmd s (pk 0x51 9)) 0x51 0x40 (pk 0x51 9) = true ∧ s.svc.mc.state = 1 ∧ s.svc.mc.number = pktObj (pk 0x51 9) ∧
       s.svc.mc.number ≠ pktObj (pk 0x51 8) ∧ AdmTakes (cmd s (pk 0x51 8)) 0x51 0x40 (pk 0x51 8) = true ∧ badField (pk 0x51 9 1) [] [] = some 8) ∧
    pktFlags (pk 0x51 9) < 4 := by decide +kernel
theorem wit_objects : (getQueue rdy 4).st = .unused ∧ (getPart rdy 2).st ≠ .maint ∧ (getPart rdy 1).st = .active := by decide +kernel

-- single steps, with the spec's own worked examples where there is one

/-- The state that an outcome answers; the state after reset where it answers none. -/
def after (o : Host.Outcome State Fault Refusal) : State :=
  match o with
  | .next t => t
  | _ => State.reset

/-- Address map (the example under R42): the doorbell of host queue 0x2A0 is at 0x010_A800, that of 0x2A1 at 0x010_A840. -/
theorem test_doorbell_address : regionOf 0x010A800 = (.db 0x2A0, 0) ∧ regionOf 0x010A840 = (.db 0x2A1, 0) := by decide +kernel
/-- Identity (the example under R64): agent 29 reads 0xE73B_0301. -/
theorem test_agent_identity : glbId (some 29) = 0xE73B0301 := by decide +kernel
/-- Tide ports (the example under R36): agent 29 is on port 4. -/
theorem test_agent_port : portOf State.reset 29 = 4 := by decide +kernel

/-- Doorbells (the example after R112): S = 16, HEAD = TAIL = linear 14; TAIL 3 with GEN 1 gives 19, the same value again is IGNORED, and
TAIL 4 with GEN 2 is invalid. -/
def bellEx : State := { rdy with queues := [(0x2A0, { st := .enabled, owner := 1, log2 := 4, head := 14, tail := 14 })] }
theorem test_doorbell_accepted : (getQueue (after (exec (.doorbell 1 0x2A0 0x0000000100000003) bellEx)) 0x2A0).tail = 19 := by
  decide +kernel
theorem test_doorbell_again :
    let t := after (exec (.doorbell 1 0x2A0 0x0000000100000003) (after (exec (.doorbell 1 0x2A0 0x0000000100000003) bellEx)))
    (getQueue t 0x2A0).tail = 19 ∧ (getQueue t 0x2A0).ignored = 1 ∧ (getQueue t 0x2A0).dbInvalid = false := by decide +kernel
theorem test_doorbell_too_far :
    let t := after (exec (.doorbell 1 0x2A0 0x0000000200000004) (after (exec (.doorbell 1 0x2A0 0x0000000100000003) bellEx)))
    (getQueue t 0x2A0).tail = 19 ∧ (getQueue t 0x2A0).dbInvalid = true := by decide +kernel

/-- Formats (the example after R357): 5.0, 0.3 and −1.25 stored as MXFP4 give 0x16, 0x0A and the scale 0x7F at byte 16, as FP4 0x06, 0x0A;
each store raises UNF and INX. -/
def tileEx : Ctx := { cx with t := [(0, BitVec.ofNat 8192 (0x40A00000 + 0x3E99999A * 2 ^ 32 + 0xBFA00000 * 2 ^ 64))] }
theorem test_store_mxfp4 : (tstData { tileEx with tfmt := 0 } 0 0xE).1 % 2 ^ 192 = 0x0A16 + 0x7F * 2 ^ 128 ∧
    (tstData { tileEx with tfmt := 0 } 0 0xE).2.2 = 6 := by decide +kernel
theorem test_store_fp4 : (tstData { tileEx with tfmt := 0 } 0 7).1 % 2 ^ 64 = 0x0A06 ∧ (tstData { tileEx with tfmt := 0 } 0 7).2.2 = 6 := by
  decide +kernel

/-- Watch configuration (the example after R459): 0x0100_0804 at 0x032_1060 configures index 6. -/
theorem test_watch_config : tget 0#32 (after (exec (.hostAccess (wr32 0x40 0x0321060 0x01000804)) rdy)).watch.cfgNext 12 = 0x01000804 := by
  decide +kernel
/-- Loop-back (the example after R512): 0x8040_0404 is point 4 with every agent, 64 exchanges. -/
theorem test_loopback_go :
    let t := after (Sys2Proof.Machine.execLbGo 0x40 0x80400404 rdy)
    t.lb.busy = true ∧ t.lb.point = 4 ∧ t.lb.count = 64 ∧ t.lb.members = [0, 1] := by decide +kernel

/-- Addition wraps (R249). -/
theorem test_add_wraps :
    let c := { cx with s := [(1, 0xFFFFFFFFFFFFFFFF), (2, 2)] }
    (kget (after (exec (.scAdd (fr 4 1 2)) (sc c))).ctxs 5).map (fun k => (sReg k 4, k.pc)) = some (1, 20) := by decide +kernel
/-- Division by 0 gives all ones, its remainder the dividend (R249). -/
theorem test_div_zero : (kget (after (exec (.scDivu (fr 4 1 9)) (sc cx))).ctxs 5).map (fun k => sReg k 4) = some 0xFFFFFFFFFFFFFFFF ∧
    (kget (after (exec (.scRemu (fr 4 1 9)) (sc cx))).ctxs 5).map (fun k => sReg k 4) = some 64 := by decide +kernel
/-- An arithmetic shift keeps the sign (R249). -/
theorem test_sra :
    let c := { cx with s := [(1, 0x8000000000000000), (2, 63)] }
    (kget (after (exec (.scSra (fr 4 1 2)) (sc c))).ctxs 5).map (fun k => sReg k 4) = some 0xFFFFFFFFFFFFFFFF := by decide +kernel
/-- A backward branch (R249): offset −4 instructions from PC 16 gives 0. -/
theorem test_branch_back : (kget (after (exec (.scBr { core := 0x300, pg := 0, pn := false, off := -4 }) (sc cx))).ctxs 5).map (·.pc) = some 0 := by
  decide +kernel
/-- A 32-bit load extends with zeros (R249), from the byte order of R13. -/
theorem test_ld32 :
    let s := { sc cx with cores := [(0, { st := 2, run := some 5, imemA := [(2, 64)], owner := [(0, 6)]
                                          dmem := [(64, 1), (65, 2), (66, 3), (67, 0xF4)], written := [1] })] }
    (kget (after (exec (.scLd32 (fi 4 1 0)) s)).ctxs 5).map (fun k => sReg k 4) = some 0xF4030201 := by decide +kernel

/-- Flags saturate (R155): SUB of 6 from 5 leaves 0 with SAT; SET clears it. -/
theorem test_flag_sub : (sigResult 5 1 6).1 = 0x4000000000000000 := by decide +kernel
theorem test_flag_set : (sigResult 0xC000000000000005 2 9).1 = 9 := by decide +kernel
/-- A refused command says why (R96): PART_ACTIVATE from a partition's own queue is denied. -/
theorem test_denied : admCheck 1 (pk 0x11 1) = some (stDenied, 4) := by decide +kernel

end Sys2Proof.Tests
end

