-- ==== Sys2Proof/Proofs/Step.lean ====
section
/-! The step of the machine, by what stands in its queue. -/

namespace Sys2Proof.Proofs.Step
open Sys2Proof Sys2Proof.Machine Sys2Proof.Laws

/-- The command at the front runs on the state from which it has been taken (log entry 2). -/
theorem step_of_pending_cons {c : Instr} {rest : List Instr} {s : State} (h : s.pending = c :: rest) :
    step s = exec c { s with pending := rest } := by
  rw [step, h]

/-- With no command waiting, a step is one cycle of tref_clk (log entry 2, R28, R238). -/
theorem step_of_pending_nil {s : State} (h : s.pending = []) : step s = .next (idleTick s) := by
  rw [step, h]

/-- Settles O1: the two branches of the step by its queue, and the end of a command with nothing put down by the Watch. -/
theorem stepRunsFront : Obligations.StepRunsFront :=
  ⟨fun _ _ _ => step_of_pending_cons, fun _ => step_of_pending_nil, settle_quiet⟩

end Sys2Proof.Proofs.Step
end

