-- ==== Sys2Proof/Proofs/Layout.lean ====
section
/-! Bit layouts (R13, R51): what is laid out is read back, field by field; payloads cut into flits join again; CRC-32C fits 32 bits. -/

namespace Sys2Proof.Proofs.Layout
open Sys2Proof Sys2Proof.Machine

/-- The width of a layout. -/
def packWidth (l : List (Nat × Nat)) : Nat := (l.map Prod.fst).sum

theorem mod_add_mul_lt {v w x n : Nat} (hx : x < 2 ^ n) : v % 2 ^ w + 2 ^ w * x < 2 ^ (w + n) := by
  have hv : v % 2 ^ w < 2 ^ w := Nat.mod_lt _ (Nat.two_pow_pos w)
  calc v % 2 ^ w + 2 ^ w * x < 2 ^ w * (x + 1) := by rw [Nat.mul_add_one]; omega
    _ ≤ 2 ^ w * 2 ^ n := Nat.mul_le_mul_left _ hx
    _ = 2 ^ (w + n) := (Nat.pow_add 2 w n).symm

theorem pack_lt (l : List (Nat × Nat)) : pack l < 2 ^ packWidth l := by
  induction l with
  | nil => simp [pack, packWidth]
  | cons y t ih => simpa [pack, packWidth] using mod_add_mul_lt ih

theorem pack_append (l m : List (Nat × Nat)) : pack (l ++ m) = pack l + 2 ^ packWidth l * pack m := by
  induction l with
  | nil => simp [pack, packWidth]
  | cons y t ih =>
    obtain ⟨w, v⟩ := y
    have hw : packWidth ((w, v) :: t) = w + packWidth t := by simp [packWidth]
    rw [List.cons_append, pack, pack, ih, hw, Nat.pow_add]
    ring

/-- The lowest field of a layout. -/
theorem nbits_pack_head (w v : Nat) (t : List (Nat × Nat)) : nbits (pack ((w, v) :: t)) 0 w = v % 2 ^ w := by
  simp [nbits, pack]

/-- Bits above the lowest field are those of the fields that follow. -/
theorem nbits_pack_tail {w lo : Nat} (h : w ≤ lo) (v n : Nat) (t : List (Nat × Nat)) :
    nbits (pack ((w, v) :: t)) lo n = nbits (pack t) (lo - w) n := by
  obtain ⟨k, rfl⟩ := Nat.exists_eq_add_of_le h
  have hv : v % 2 ^ w < 2 ^ w := Nat.mod_lt _ (Nat.two_pow_pos w)
  have hdiv : (v % 2 ^ w + 2 ^ w * pack t) / 2 ^ w = pack t := by
    rw [Nat.add_mul_div_left _ _ (Nat.two_pow_pos w), Nat.div_eq_of_lt hv, Nat.zero_add]
  rw [nbits, pack, Nat.shiftRight_eq_div_pow, Nat.pow_add, ← Nat.div_div_eq_div_mul, hdiv, nbits,
    Nat.shiftRight_eq_div_pow, Nat.add_sub_cancel_left]

/-- The values fit a layout, field by field. -/
abbrev Fits (ws vs : List Nat) : Prop := List.Forall₂ (fun w v => v < 2 ^ w) ws vs

/-- A layout whose values fit its widths reads back as it was laid out. -/
theorem unpack_pack_zip {ws vs : List Nat} (h : Fits ws vs) :
    unpack ws (pack (ws.zip vs)) = vs := by
  induction h with
  | nil => rfl
  | @cons w v ws vs hv _ ih =>
    have hdiv : (v + 2 ^ w * pack (ws.zip vs)) / 2 ^ w = pack (ws.zip vs) := by
      rw [Nat.add_mul_div_left _ _ (Nat.two_pow_pos w), Nat.div_eq_of_lt hv, Nat.zero_add]
    simp only [List.zip_cons_cons, pack, unpack, Nat.mod_eq_of_lt hv, hdiv, Nat.add_mul_mod_self_left, ih]

theorem pack_zip_lt {ws vs : List Nat} (h : ws.length = vs.length) : pack (ws.zip vs) < 2 ^ ws.sum := by
  have hl := pack_lt (ws.zip vs)
  rwa [packWidth, List.map_fst_zip (by omega)] at hl

/-- Reading a layout looks at its width alone. -/
theorem unpack_add_mul (ws : List Nat) (x y : Nat) : unpack ws (x + 2 ^ ws.sum * y) = unpack ws x := by
  induction ws generalizing x with
  | nil => rfl
  | cons w ws ih =>
    have e : x + 2 ^ (w :: ws).sum * y = x + 2 ^ w * (2 ^ ws.sum * y) := by
      rw [List.sum_cons, Nat.pow_add, Nat.mul_assoc]
    rw [e, unpack, unpack, Nat.add_mul_mod_self_left, Nat.add_mul_div_left _ _ (Nat.two_pow_pos w), ih]

theorem crcBits_lt (n : Nat) {c : Nat} (h : c < 2 ^ 32) : crcBits n c < 2 ^ 32 := by
  induction n generalizing c with
  | zero => exact h
  | succ n ih =>
    apply ih
    split
    · exact Nat.xor_lt_two_pow (by omega) (by decide)
    · omega

theorem crcRun_lt (n x : Nat) {c : Nat} (h : c < 2 ^ 32) : crcRun n x c < 2 ^ 32 := by
  induction n generalizing x c with
  | zero => exact h
  | succ n ih => exact ih _ (crcBits_lt 8 (Nat.xor_lt_two_pow h (by omega)))

/-- CRC-32C is a 32-bit word. -/
theorem crc32c_lt (n x : Nat) : crc32c n x < 2 ^ 32 := Nat.xor_lt_two_pow (crcRun_lt n x (by decide)) (by decide)

theorem bytesToNat_lt (d : List Byte) : bytesToNat d < 2 ^ (8 * d.length) := by
  induction d with
  | nil => simp [bytesToNat]
  | cons b t ih =>
    have h := mod_add_mul_lt (v := b.toNat) (w := 8) ih
    rw [Nat.mod_eq_of_lt b.isLt] at h
    rwa [List.length_cons, Nat.mul_succ, Nat.add_comm (8 * t.length)]

/-- Bytes read from a number that holds them are these bytes. -/
theorem natToBytes_bytesToNat (d : List Byte) : natToBytes (bytesToNat d) d.length = d := by
  induction d with
  | nil => rfl
  | cons b t ih =>
    have hdiv : (b.toNat + 256 * bytesToNat t) / 256 = bytesToNat t := by omega
    have hb : BitVec.ofNat 8 (b.toNat + 256 * bytesToNat t) = b := by
      apply BitVec.eq_of_toNat_eq
      rw [BitVec.toNat_ofNat]
      omega
    rw [List.length_cons, bytesToNat, natToBytes, hb, hdiv, ih]

@[simp] theorem b2n_le_one (b : Bool) : b2n b ≤ 1 := by cases b <;> decide
@[simp] theorem b2n_beq_one (b : Bool) : (b2n b == 1) = b := by cases b <;> rfl

set_option exponentiation.threshold 512

theorem add_mul_add_mul (a b c d e : Nat) : a + b * (c + d * e) = a + b * c + b * d * e := by ring

theorem joinPayload_append (l : List (BitVec 416)) (p : BitVec 416) :
    joinPayload (l ++ [p]) = joinPayload l + 2 ^ (416 * l.length) * p.toNat := by
  induction l with
  | nil =>
    simp only [List.nil_append, joinPayload, List.length_nil, Nat.mul_zero, Nat.pow_zero, Nat.one_mul, Nat.add_zero, Nat.zero_add]
  | cons q t ih =>
    rw [List.cons_append, joinPayload, ih, joinPayload, List.length_cons, Nat.mul_succ, Nat.add_comm (416 * t.length),
      Nat.pow_add]
    exact add_mul_add_mul _ _ _ _ _

end Sys2Proof.Proofs.Layout
end

