-- ==== Sys2Proof/Proofs/Messages.lean ====
section
/-! Tide messages (R51–R54): a flit holds what it was made of, a message reads back from its payload, and the flits that a message is
cut into deliver it. -/

namespace Sys2Proof.Proofs.Messages
set_option exponentiation.threshold 512
open Sys2Proof Sys2Proof.Machine Sys2Proof.Proofs.Layout

/-- The fields of a flit before its CRC (R51). -/
def flitFields (ty : Nat) (cont : Bool) (agent seq ack credits : Nat) (pl : BitVec 416) : List (Nat × Nat) :=
  [(5, ty), (1, b2n cont), (2, 0), (6, agent), (2, 0), (12, seq), (12, ack), (8, credits), (16, 0), (416, pl.toNat)]

section
variable (ty : Nat) (cont : Bool) (agent seq ack credits : Nat) (pl : BitVec 416)

theorem packWidth_flitFields : packWidth (flitFields ty cont agent seq ack credits pl) = 480 := by simp [packWidth, flitFields]

/-- A flit is its fields and the CRC-32C of their 60 bytes. -/
theorem mkFlit_toNat : (mkFlit ty cont agent seq ack credits pl).toNat =
    pack (flitFields ty cont agent seq ack credits pl ++
      [(32, crc32c 60 (pack (flitFields ty cont agent seq ack credits pl)))]) := by
  have hlt := pack_lt (flitFields ty cont agent seq ack credits pl ++
    [(32, crc32c 60 (pack (flitFields ty cont agent seq ack credits pl)))])
  have hw : packWidth (flitFields ty cont agent seq ack credits pl ++
    [(32, crc32c 60 (pack (flitFields ty cont agent seq ack credits pl)))]) = 512 := by
    simp [packWidth, flitFields]
  rw [hw, pack_append, packWidth_flitFields] at hlt
  rw [pack_append, packWidth_flitFields]
  simp only [pack, Nat.mul_zero, Nat.add_zero, Nat.mod_eq_of_lt (crc32c_lt _ _)] at hlt ⊢
  exact Nat.mod_eq_of_lt hlt

theorem flitCrcOk_mkFlit : flitCrcOk (mkFlit ty cont agent seq ack credits pl) = true := by
  have hlt := pack_lt (flitFields ty cont agent seq ack credits pl)
  rw [packWidth_flitFields] at hlt
  have hcrc := crc32c_lt 60 (pack (flitFields ty cont agent seq ack credits pl))
  rw [flitCrcOk, decide_eq_true_eq, fld, mkFlit_toNat, pack_append, packWidth_flitFields, pack, pack, Nat.mod_eq_of_lt hcrc,
    Nat.mul_zero, Nat.add_zero, Nat.add_mul_mod_self_left, Nat.mod_eq_of_lt hlt, nbits, Nat.shiftRight_eq_div_pow,
    Nat.add_mul_div_left _ _ (Nat.two_pow_pos 480), Nat.div_eq_of_lt hlt, Nat.zero_add, Nat.mod_eq_of_lt hcrc]

theorem mkFlit_type : fld (mkFlit ty cont agent seq ack credits pl) 0 5 = ty % 32 := by
  rw [fld, mkFlit_toNat]
  exact nbits_pack_head 5 ty _

theorem mkFlit_contBits : fld (mkFlit ty cont agent seq ack credits pl) 5 1 = b2n cont := by
  rw [fld, mkFlit_toNat, flitFields, List.cons_append, nbits_pack_tail (by decide)]
  exact (nbits_pack_head 1 (b2n cont) _).trans (Nat.mod_eq_of_lt (Nat.lt_succ_of_le (b2n_le_one cont)))

theorem bitOf_eq_fld {n : Nat} (x : BitVec n) (i : Nat) : bitOf x i = (fld x i 1 == 1) := by
  rw [bitOf, BitVec.getLsbD, Nat.testBit, fld, nbits, Nat.and_comm, Nat.and_one_is_mod]
  rcases Nat.mod_two_eq_zero_or_one (x.toNat >>> i) with h | h <;> simp [h]

theorem mkFlit_cont : bitOf (mkFlit ty cont agent seq ack credits pl) 5 = cont := by
  rw [bitOf_eq_fld, mkFlit_contBits, b2n_beq_one]

theorem mkFlit_agent : fld (mkFlit ty cont agent seq ack credits pl) 8 6 = agent % 2 ^ 6 := by
  rw [fld, mkFlit_toNat]
  simp [flitFields, nbits_pack_tail, nbits_pack_head]

theorem mkFlit_seq : fld (mkFlit ty cont agent seq ack credits pl) 16 12 = seq % 2 ^ 12 := by
  rw [fld, mkFlit_toNat]
  simp [flitFields, nbits_pack_tail, nbits_pack_head]

theorem mkFlit_ack : fld (mkFlit ty cont agent seq ack credits pl) 28 12 = ack % 2 ^ 12 := by
  rw [fld, mkFlit_toNat]
  simp [flitFields, nbits_pack_tail, nbits_pack_head]

theorem mkFlit_credits : fld (mkFlit ty cont agent seq ack credits pl) 40 8 = credits % 2 ^ 8 := by
  rw [fld, mkFlit_toNat]
  simp [flitFields, nbits_pack_tail, nbits_pack_head]

theorem mkFlit_payload : BitVec.ofNat 416 (fld (mkFlit ty cont agent seq ack credits pl) 64 416) = pl := by
  have h : fld (mkFlit ty cont agent seq ack credits pl) 64 416 = pl.toNat % 2 ^ 416 := by
    rw [fld, mkFlit_toNat]
    simp [flitFields, nbits_pack_tail, nbits_pack_head]
  rw [h, Nat.mod_eq_of_lt pl.isLt, BitVec.ofNat_toNat, BitVec.setWidth_eq]

end

/-! A message reads back from its payload. -/

section
variable {m : Msg}

/-- A word stands in a field of its own width. -/
theorem ofNat_toNat_self {n : Nat} (w : BitVec n) : BitVec.ofNat n w.toNat = w := by
  rw [BitVec.ofNat_toNat, BitVec.setWidth_eq]

theorem msgType_le (m : Msg) : msgType m ≤ 16 := by cases m <;> simp [msgType]

theorem msgFlits_pos (m : Msg) : 0 < msgFlits m := by
  cases m with
  | modeStage sub i n t its => simp only [msgFlits]; split <;> decide
  | ctxXfer sub sl l o d => simp only [msgFlits]; omega
  | _ => simp [msgFlits]

theorem decode_tick {n p : Nat} (h : msgWf (.tick n p) = true) :
    msgDecode 1 (msgPayload (.tick n p)) = some (.tick n p) := by
  simp only [msgWf, Bool.and_eq_true, decide_eq_true_eq] at h
  have hf : Fits wTick [n, 0, p, 0] := by simp [Fits, wTick]; omega
  simp only [msgPayload, msgDecode, unpack_pack_zip hf]

theorem decode_mopPush {x : PushMsg} (h : msgWf (.mopPush x) = true) :
    msgDecode 2 (msgPayload (.mopPush x)) = some (.mopPush x) := by
  simp only [msgWf, Bool.and_eq_true, decide_eq_true_eq] at h
  have hf : Fits wPush [x.eq, b2n x.be, b2n x.chained, x.predQ, x.tag, x.predTag, x.part, 0, b2n x.maint, 0,
      x.launch, x.charge, x.allow, x.used0, x.mop.toNat, x.deftmo, 0] := by
    simp [Fits, wPush, x.mop.isLt]; omega
  simp only [msgPayload, msgDecode, unpack_pack_zip hf, b2n_beq_one, ofNat_toNat_self]

theorem decode_flagUpdate {k : Nat} {w : W64} (h : msgWf (.flagUpdate k w) = true) :
    msgDecode 3 (msgPayload (.flagUpdate k w)) = some (.flagUpdate k w) := by
  simp only [msgWf, decide_eq_true_eq] at h
  have hf : Fits wUpd [k, 0, w.toNat] := by simp [Fits, wUpd, w.isLt]; omega
  simp only [msgPayload, msgDecode, unpack_pack_zip hf, ofNat_toNat_self]

theorem decode_flagSignal {k op x l : Nat} (h : msgWf (.flagSignal k op x l) = true) :
    msgDecode 4 (msgPayload (.flagSignal k op x l)) = some (.flagSignal k op x l) := by
  simp only [msgWf, Bool.and_eq_true, decide_eq_true_eq] at h
  obtain ⟨⟨⟨hk, hop⟩, hx⟩, hl⟩ := h
  have hf : Fits wSig [k, op, 0, 0, x, 0, l] := by simp [Fits, wSig]; omega
  simp only [msgPayload, msgDecode, unpack_pack_zip hf, if_neg (Nat.ne_of_lt hop)]

theorem decode_completion {c : Compl} (h : msgWf (.completion c) = true) :
    msgDecode 5 (msgPayload (.completion c)) = some (.completion c) := by
  simp only [msgWf, Bool.and_eq_true, decide_eq_true_eq] at h
  have hs : c.status ≤ 4 := by simp [h]
  have hf : Fits wCompl [c.eq, 0, c.tag, c.launch, c.status, c.cause, c.error, c.cycles, c.ns10, c.bytes,
      c.tileAt, c.flags, 0, c.fflags, 0, c.whandle] := by simp [Fits, wCompl]; omega
  simp only [msgPayload, msgDecode, unpack_pack_zip hf, if_neg (Nat.not_lt.mpr hs)]

theorem decode_partialRec {e t l : Nat} {r : W512} (h : msgWf (.partialRec e t l r) = true) :
    msgDecode 6 (msgPayload (.partialRec e t l r)) = some (.partialRec e t l r) := by
  simp only [msgWf, Bool.and_eq_true, decide_eq_true_eq] at h
  have hf : Fits wPart [e, 0, t, l, r.toNat] := by simp [Fits, wPart, r.isLt]; omega
  simp only [msgPayload, msgDecode, unpack_pack_zip hf, ofNat_toNat_self]

/-- SIZE of a register message is 2, 3 or 5 and its offset is aligned to it (R53). -/
theorem size_cases {z : Nat} (h : (z == 2 || z == 3 || z == 5) = true) : z = 2 ∨ z = 3 ∨ z = 5 := by
  simpa [or_assoc] using h

theorem decode_regRead {o t z : Nat} (h : msgWf (.regRead o t z) = true) :
    msgDecode 7 (msgPayload (.regRead o t z)) = some (.regRead o t z) := by
  simp only [msgWf, Bool.and_eq_true, decide_eq_true_eq] at h
  obtain ⟨⟨⟨ho, ht⟩, hz⟩, ha⟩ := h
  have hz := size_cases hz
  have hf : Fits wRead [o, t, z] := by simp [Fits, wRead]; omega
  simp only [msgPayload, msgDecode, unpack_pack_zip hf, if_pos hz, if_pos ha]

theorem decode_regWrite {o t z st : Nat} {d : BitVec 256} (h : msgWf (.regWrite o t z st d) = true) :
    msgDecode 8 (msgPayload (.regWrite o t z st d)) = some (.regWrite o t z st d) := by
  simp only [msgWf, Bool.and_eq_true, decide_eq_true_eq] at h
  obtain ⟨⟨⟨⟨ho, ht⟩, hz⟩, ha⟩, hst⟩ := h
  have hz := size_cases hz
  have hf : Fits wWrite [o, t, z, 0, st, d.toNat] := by simp [Fits, wWrite, d.isLt]; omega
  simp only [msgPayload, msgDecode, unpack_pack_zip hf, if_pos hz, if_pos ha, ofNat_toNat_self]

theorem decode_regReply {o t r : Nat} {d : BitVec 256} (h : msgWf (.regReply o t r d) = true) :
    msgDecode 9 (msgPayload (.regReply o t r d)) = some (.regReply o t r d) := by
  simp only [msgWf, Bool.and_eq_true, decide_eq_true_eq] at h
  obtain ⟨⟨ho, ht⟩, hr⟩ := h
  have hf : Fits wReply [o, t, r, 0, d.toNat] := by simp [Fits, wReply, d.isLt]; omega
  simp only [msgPayload, msgDecode, unpack_pack_zip hf, if_pos hr, ofNat_toNat_self]

theorem decode_watchEvent {j n : Nat} {w l : Bool} (h : msgWf (.watchEvent j w l n) = true) :
    msgDecode 10 (msgPayload (.watchEvent j w l n)) = some (.watchEvent j w l n) := by
  simp only [msgWf, Bool.and_eq_true, decide_eq_true_eq] at h
  have hf : Fits wWatch [j, 0, b2n w, b2n l, 0, n] := by simp [Fits, wWatch]; omega
  simp only [msgPayload, msgDecode, unpack_pack_zip hf, b2n_beq_one]

theorem decode_modeStage {sub i n t : Nat} {its : BitVec 384} (h : msgWf (.modeStage sub i n t its) = true) :
    msgDecode 11 (msgPayload (.modeStage sub i n t its)) = some (.modeStage sub i n t its) := by
  simp only [msgWf, Bool.and_eq_true, decide_eq_true_eq] at h
  obtain ⟨⟨⟨⟨⟨h1, h3⟩, hi⟩, hn⟩, ht⟩, -⟩ := h
  have hf : Fits wMode [sub, i, 0, n, t, 0, its.toNat] := by simp [Fits, wMode, its.isLt]; omega
  simp only [msgPayload, msgDecode, unpack_pack_zip hf, if_pos (And.intro h1 h3), ofNat_toNat_self]

theorem decode_modeAck {r c re n : Nat} (h : msgWf (.modeAck r c re n) = true) :
    msgDecode 12 (msgPayload (.modeAck r c re n)) = some (.modeAck r c re n) := by
  simp only [msgWf, Bool.and_eq_true, decide_eq_true_eq] at h
  obtain ⟨⟨⟨⟨h1, h2⟩, hc⟩, hre⟩, hn⟩ := h
  have hf : Fits wAck [r, c, re, 0, n] := by simp [Fits, wAck]; omega
  simp only [msgPayload, msgDecode, unpack_pack_zip hf, if_pos (And.intro h1 h2)]

theorem decode_ctxXfer {sub sl l o : Nat} {d : List Byte} (h : msgWf (.ctxXfer sub sl l o d) = true) :
    msgDecode 13 (msgPayload (.ctxXfer sub sl l o d)) = some (.ctxXfer sub sl l o d) := by
  simp only [msgWf, Bool.and_eq_true, decide_eq_true_eq] at h
  obtain ⟨⟨⟨⟨⟨h1, h5⟩, hsl⟩, hl⟩, ho⟩, hd⟩ := h
  have hf : Fits wCtx [sub, 0, sl, 0, l, o, d.length, 0] := by simp [Fits, wCtx]; omega
  have hlt : pack (wCtx.zip [sub, 0, sl, 0, l, o, d.length, 0]) < 2 ^ 128 := pack_zip_lt rfl
  have hread := (unpack_add_mul wCtx (pack (wCtx.zip [sub, 0, sl, 0, l, o, d.length, 0])) (bytesToNat d)).trans
    (unpack_pack_zip hf)
  have hsum : wCtx.sum = 128 := by decide
  rw [hsum] at hread
  have hdata : (pack (wCtx.zip [sub, 0, sl, 0, l, o, d.length, 0]) + 2 ^ 128 * bytesToNat d) / 2 ^ 128 = bytesToNat d := by
    rw [Nat.add_mul_div_left _ _ (Nat.two_pow_pos 128), Nat.div_eq_of_lt hlt, Nat.zero_add]
  simp only [msgPayload, msgDecode, hread, hdata, if_pos (And.intro h1 (And.intro h5 hd)), natToBytes_bytesToNat]

theorem decode_loopback {sub : Nat} {b : BitVec 416} (h : msgWf (.loopback sub b) = true) :
    msgDecode 14 (msgPayload (.loopback sub b)) = some (.loopback sub b) := by
  simp only [msgWf, decide_eq_true_eq] at h
  have hsub : sub % 256 = b.toNat % 256 := by omega
  have hx : sub % 256 + 256 * (b.toNat / 256) = b.toNat := by rw [hsub, Nat.mod_add_div]
  simp only [msgPayload, msgDecode, hx, ofNat_toNat_self, ← h]

theorem decode_replayReq {n : Nat} (h : msgWf (.replayReq n) = true) :
    msgDecode 15 (msgPayload (.replayReq n)) = some (.replayReq n) := by
  simp only [msgWf, decide_eq_true_eq] at h
  simp [msgPayload, msgDecode, Nat.mod_eq_of_lt h]

theorem decode_agentReset {c : Nat} (h : msgWf (.agentReset c) = true) :
    msgDecode 16 (msgPayload (.agentReset c)) = some (.agentReset c) := by
  simp only [msgWf, Bool.and_eq_true, decide_eq_true_eq] at h
  have hc : c % 256 = c := Nat.mod_eq_of_lt (by omega)
  simp only [msgPayload, msgDecode, hc, if_pos h]

/-- A well-formed message reads back from its type and payload (R52, R53). -/
theorem msgDecode_msgPayload (h : msgWf m = true) : msgDecode (msgType m) (msgPayload m) = some m :=
  match m, h with
  | .idle, _ => rfl
  | .tick _ _, h => decode_tick h
  | .mopPush _, h => decode_mopPush h
  | .flagUpdate _ _, h => decode_flagUpdate h
  | .flagSignal _ _ _ _, h => decode_flagSignal h
  | .completion _, h => decode_completion h
  | .partialRec _ _ _ _, h => decode_partialRec h
  | .regRead _ _ _, h => decode_regRead h
  | .regWrite _ _ _ _ _, h => decode_regWrite h
  | .regReply _ _ _ _, h => decode_regReply h
  | .watchEvent _ _ _ _, h => decode_watchEvent h
  | .modeStage _ _ _ _ _, h => decode_modeStage h
  | .modeAck _ _ _ _, h => decode_modeAck h
  | .ctxXfer _ _ _ _ _, h => decode_ctxXfer h
  | .loopback _ _, h => decode_loopback h
  | .replayReq _, h => decode_replayReq h
  | .agentReset _, h => decode_agentReset h

/-- A layout lies within the flits that hold its width. -/
theorem pack_zip_lt_flits {ws vs : List Nat} {n : Nat} (hl : ws.length = vs.length) (hs : ws.sum ≤ 416 * n) :
    pack (ws.zip vs) < 2 ^ (416 * n) :=
  Nat.lt_of_lt_of_le (pack_zip_lt hl) (Nat.pow_le_pow_right (by decide) hs)

/-- A MODE_STAGE message without items is its 16 bytes of header. -/
theorem modeStage_payload_lt {sub i n t : Nat} {its : BitVec 384} (h : msgWf (.modeStage sub i n t its) = true) :
    msgPayload (.modeStage sub i n t its) < 2 ^ (416 * msgFlits (.modeStage sub i n t its)) := by
  simp only [msgFlits]
  split
  case isTrue => exact pack_zip_lt_flits rfl (by decide)
  case isFalse hsub =>
    have hits : its = 0 := by simp [msgWf, hsub] at h; exact h.2
    subst hits
    have e : msgPayload (.modeStage sub i n t 0) = pack ((wMode.take 6).zip [sub, i, 0, n, t, 0]) := by
      simp [msgPayload, wMode, pack]
    rw [e]
    exact pack_zip_lt_flits rfl (by decide)

theorem ctxXfer_payload_lt (sub sl l o : Nat) (d : List Byte) :
    msgPayload (.ctxXfer sub sl l o d) < 2 ^ (416 * msgFlits (.ctxXfer sub sl l o d)) := by
  have hhead : pack (wCtx.zip [sub, 0, sl, 0, l, o, d.length, 0]) < 2 ^ 128 := pack_zip_lt rfl
  have hlt := mod_add_mul_lt (v := pack (wCtx.zip [sub, 0, sl, 0, l, o, d.length, 0])) (w := 128) (bytesToNat_lt d)
  rw [Nat.mod_eq_of_lt hhead] at hlt
  refine Nat.lt_of_lt_of_le hlt (Nat.pow_le_pow_right (by decide) ?_)
  simp only [msgFlits]
  omega

/-- A message's flits hold its payload (R51). -/
theorem msgPayload_lt (h : msgWf m = true) : msgPayload m < 2 ^ (416 * msgFlits m) :=
  match m, h with
  | .idle, _ => Nat.two_pow_pos _
  | .tick _ _, _ | .mopPush _, _ | .flagUpdate _ _, _ | .flagSignal _ _ _ _, _ | .completion _, _ | .partialRec _ _ _ _, _
  | .regRead _ _ _, _ | .regWrite _ _ _ _ _, _ | .regReply _ _ _ _, _ | .watchEvent _ _ _ _, _ | .modeAck _ _ _ _, _ =>
    pack_zip_lt_flits rfl (by simp only [msgFlits]; decide)
  | .modeStage _ _ _ _ _, h => modeStage_payload_lt h
  | .ctxXfer _ _ _ _ _, _ => ctxXfer_payload_lt _ _ _ _ _
  | .loopback sub b, _ => by
    have hb := b.isLt
    simp only [msgPayload, msgFlits, Nat.mul_one]
    omega
  | .replayReq _, _ | .agentReset _, _ => by
    simp only [msgPayload, msgFlits, Nat.mul_one]
    omega

end
/-! Flits received in order. -/

section
variable {d : Dir} {r : RxSide} {ty agent seq ack credits : Nat} {pl : BitVec 416}

/-- A flit that is followed by another of its message is kept. -/
theorem rxWanted_more (hty : ty ≤ 16) : (rxWanted d r (mkFlit ty true agent seq ack credits pl)).1 =
    { r with next := (r.next + 1) % 4096, used := r.used + 1, acc := r.acc ++ [pl] } := by
  have ht : ty % 32 = ty := Nat.mod_eq_of_lt (by omega)
  simp only [rxWanted, mkFlit_type, mkFlit_cont, mkFlit_payload, ht, if_neg (Nat.not_lt.mpr hty), if_true]

/-- The flit that ends a message delivers it. -/
theorem rxWanted_last_inbox {m : Msg} (hty : ty ≤ 16) (hm : msgDecode ty (joinPayload (r.acc ++ [pl])) = some m)
    (hd : msgDir d m = true) : (rxWanted d r (mkFlit ty false agent seq ack credits pl)).1.inbox = r.inbox ++ [m] := by
  have ht : ty % 32 = ty := Nat.mod_eq_of_lt (by omega)
  simp only [rxWanted, mkFlit_type, mkFlit_cont, mkFlit_payload, ht, if_neg (Nat.not_lt.mpr hty), hm, hd, if_true,
    Bool.false_eq_true, if_false]

/-- An end that takes each flit as it comes, with the SEQ it expects. -/
def takeFlits (d : Dir) (agent ack credits : Nat) (r : RxSide) (l : List (Nat × Bool × BitVec 416)) : RxSide :=
  l.foldl (fun (r : RxSide) (x : Nat × Bool × BitVec 416) =>
    (rxWanted d r (mkFlit x.1 x.2.1 agent r.next ack credits x.2.2)).1) r

/-- The flits that a payload is cut into deliver the message that it is, together with what came before. -/
theorem takeFlits_cutFlits {m : Msg} (hty : ty ≤ 16) (hd : msgDir d m = true) (n x : Nat)
    (hm : msgDecode ty (joinPayload r.acc + 2 ^ (416 * r.acc.length) * (x % 2 ^ (416 * (n + 1)))) = some m) :
    (takeFlits d agent ack credits r (cutFlits ty (n + 1) x)).inbox = r.inbox ++ [m] := by
  induction n generalizing r x with
  | zero =>
    apply rxWanted_last_inbox hty _ hd
    rwa [joinPayload_append, BitVec.toNat_ofNat]
  | succ n ih =>
    have hrec := ih (r := { r with next := (r.next + 1) % 4096, used := r.used + 1, acc := r.acc ++ [BitVec.ofNat 416 x] })
      (x / 2 ^ 416)
    have hstep : takeFlits d agent ack credits r (cutFlits ty (n + 1 + 1) x) = takeFlits d agent ack credits
        { r with next := (r.next + 1) % 4096, used := r.used + 1, acc := r.acc ++ [BitVec.ofNat 416 x] }
        (cutFlits ty (n + 1) (x / 2 ^ 416)) := by
      rw [cutFlits, takeFlits, List.foldl_cons, takeFlits, decide_eq_true (Nat.succ_ne_zero n), rxWanted_more hty]
    rw [hstep]
    apply hrec
    have hsplit : x % 2 ^ (416 * (n + 1 + 1)) = x % 2 ^ 416 + 2 ^ 416 * (x / 2 ^ 416 % 2 ^ (416 * (n + 1))) := by
      rw [Nat.mul_succ 416 (n + 1), Nat.add_comm (416 * (n + 1)), Nat.pow_add, Nat.mod_mul]
    rw [joinPayload_append, BitVec.toNat_ofNat, List.length_append, List.length_singleton, Nat.mul_succ, Nat.pow_add,
      ← hm, hsplit, add_mul_add_mul]

end

/-- Settles O60: a flit holds its fields under a good CRC, and the flits of a well-formed message deliver it. -/
theorem messagesArrive : Obligations.MessagesArrive := by
  refine ⟨fun ty agent seq ack credits cont pl hty ha hs hk hc => ?_, fun d m r a ack credits hwf hdir hacc => ?_⟩
  · refine ⟨flitCrcOk_mkFlit .., ?_, mkFlit_cont .., ?_, ?_, ?_, ?_, mkFlit_payload ..⟩
    · exact (mkFlit_type ..).trans (Nat.mod_eq_of_lt hty)
    · exact (mkFlit_agent ..).trans (Nat.mod_eq_of_lt ha)
    · exact (mkFlit_seq ..).trans (Nat.mod_eq_of_lt hs)
    · exact (mkFlit_ack ..).trans (Nat.mod_eq_of_lt hk)
    · exact (mkFlit_credits ..).trans (Nat.mod_eq_of_lt hc)
  · obtain ⟨n, hn⟩ := Nat.exists_eq_succ_of_ne_zero (Nat.ne_of_gt (msgFlits_pos m))
    have hlt := msgPayload_lt hwf
    rw [hn] at hlt ⊢
    apply takeFlits_cutFlits (msgType_le m) hdir
    simp only [hacc, joinPayload, List.length_nil, Nat.mul_zero, Nat.pow_zero, Nat.one_mul, Nat.zero_add,
      Nat.mod_eq_of_lt hlt]
    exact msgDecode_msgPayload hwf

end Sys2Proof.Proofs.Messages
end

