-- ==== Sys2Proof/Proofs/Links.lean ====
section
/-! The links between the Root and the agents (R51, R54): what operations that send, report or account leave of every link. -/

namespace Sys2Proof.Proofs.Links
open Sys2Proof Sys2Proof.Machine Sys2Proof.Laws

/-- What a receiving end has taken in: the next SEQ, the message that continues, the messages delivered. -/
def rxHeld (r : RxSide) : Nat × List (BitVec 416) × List Msg := (r.next, r.acc, r.inbox)

/-- What sending leaves of a link: its state, and what the agent has received. -/
def linkHeld (k : Link) : Bool × Bool × Nat × List (BitVec 416) × List Msg := (k.up, k.fault, rxHeld k.downRx)

/-- Every link is held as it was. -/
def LinksHeld (s s' : State) : Prop := ∀ b, linkHeld (getLink s' b) = linkHeld (getLink s b)

section
variable {s s' s'' : State} {a : Nat}

theorem LinksHeld.trans (h : LinksHeld s s') (h' : LinksHeld s' s'') : LinksHeld s s'' := fun b => (h' b).trans (h b)

theorem LinksHeld.of_links (h : s'.links = s.links) : LinksHeld s s' := fun b => by rw [getLink, getLink, h]

theorem LinksHeld.refl : LinksHeld s s := fun _ => rfl

theorem LinksHeld.modLink {f : Link → Link} (h : ∀ k, linkHeld (f k) = linkHeld k) : LinksHeld s (modLink s a f) := by
  intro b
  by_cases hb : a = b
  · subst hb; rw [getLink_modLink_self, h]
  · rw [getLink_modLink_ne hb]

theorem LinksHeld.foldl {α : Type} {f : State → α → State} (h : ∀ s x, LinksHeld s (f s x)) (l : List α) (s : State) :
    LinksHeld s (l.foldl f s) := by
  induction l generalizing s with
  | nil => exact .refl
  | cons x t ih => exact (h s x).trans (ih (f s x))

theorem LinksHeld.up (h : LinksHeld s s') (b : Nat) : (getLink s' b).up = (getLink s b).up := congrArg Prod.fst (h b)
theorem LinksHeld.fault (h : LinksHeld s s') (b : Nat) : (getLink s' b).fault = (getLink s b).fault :=
  congrArg (fun x => x.2.1) (h b)
theorem LinksHeld.downRx (h : LinksHeld s s') (b : Nat) : rxHeld (getLink s' b).downRx = rxHeld (getLink s b).downRx :=
  congrArg (fun x => x.2.2) (h b)

end

/-! Sending. -/

section
variable (s : State) (a : Nat)

theorem pumpUp_held : LinksHeld s (pumpUp s a) :=
  .modLink fun k => by dsimp only; split <;> rfl

theorem pumpDown_held : LinksHeld s (pumpDown s a) :=
  .modLink fun k => by dsimp only; split <;> rfl

theorem sendUp_held (m : Msg) : LinksHeld s (sendUp s a m) := by
  unfold sendUp
  refine LinksHeld.trans ?_ (pumpUp_held _ a)
  exact .modLink fun _ => rfl

theorem sendDown_held (m : Msg) : LinksHeld s (sendDown s a m) := by
  unfold sendDown
  refine LinksHeld.trans ?_ (pumpDown_held _ a)
  exact .modLink fun _ => rfl

theorem idleUp_held (k : Link) : linkHeld (idleUp a k) = linkHeld k := by
  unfold idleUp; split <;> rfl

theorem relayPumpN_held (n : Nat) : LinksHeld s (relayPumpN n s a) := by
  induction n generalizing s with
  | zero => exact .refl
  | succ n ih =>
    rcases hr : (getAgent s a).relay with _ | ⟨⟨k, c⟩, rest⟩
    · simp only [relayPumpN, hr]
      exact .refl
    · simp only [relayPumpN, hr]
      split
      · exact .refl
      · exact ((LinksHeld.of_links (modAgent_links ..)).trans (sendUp_held _ a _)).trans (ih _)

theorem relayPump_held : LinksHeld s (relayPump s a) := relayPumpN_held s a 64

theorem relayAdd_held (j : Nat) (wire : Bool) (n : Nat) : LinksHeld s (relayAdd s a j wire n) :=
  LinksHeld.trans (.of_links rfl) (relayPump_held _ a)

end

/-! Events, audit entries, replies and skips leave the links as they are. -/

section
variable (s : State)

theorem raiseOn_links (code : Nat) (p a : Option Nat) (n : List (Item × Nat)) : (raiseOn s code p a n).links = s.links := by
  obtain ⟨e, l, w, h⟩ := raiseOn_shape s code p a n
  rw [h]

theorem raise_links (code : Nat) (p a : Option Nat) : (raise s code p a).links = s.links := raiseOn_links s code p a []

theorem audit_links (o f k c w x : Nat) : (audit s o f k c w x).links = s.links := by
  obtain ⟨e, l, h⟩ := audit_shape s o f k c w x
  rw [h]

theorem reqVec_links (v : Nat) : (reqVec s v).links = s.links := by
  obtain ⟨e, h⟩ := reqVec_shape s v
  rw [h]

theorem admOk_links (q : Nat) (pkt : W512) (x d : Nat) : (admOk s q pkt x d).links = s.links := by
  obtain ⟨t, p, e, l, h⟩ := admOk_shape s q pkt x d
  rw [h]

theorem modLaunch_links (l : Nat) (f : Launch → Launch) : (modLaunch s l f).links = s.links := by
  unfold modLaunch; split <;> rfl

theorem modCore_links (c : Nat) (f : Core → Core) : (modCore s c f).links = s.links := by
  unfold modCore; split <;> rfl

theorem setCtx_links (core slot : Nat) (c : Ctx) : (setCtx s core slot c).links = s.links := by
  unfold setCtx; split <;> rfl

theorem modCtx_links (core slot : Nat) (f : Ctx → Ctx) : (modCtx s core slot f).links = s.links := by
  unfold modCtx
  split
  · rfl
  · exact setCtx_links ..

theorem noteSkip_links (core slot cause pc : Nat) : (noteSkip s core slot cause pc).links = s.links := by
  unfold noteSkip
  split
  · rfl
  · dsimp only
    rw [modCtx_links]
    split
    · rw [modCore_links, raiseOn_links]
    · rw [modLaunch_links, modCore_links, raiseOn_links]

theorem foldl_links {α : Type} {f : State → α → State} (h : ∀ s x, (f s x).links = s.links) (l : List α) (s : State) :
    (l.foldl f s).links = s.links := by
  induction l generalizing s with
  | nil => rfl
  | cons x t ih => rw [List.foldl_cons, ih, h]

theorem loseTasks_links (a : Nat) : (loseTasks s a).links = s.links := by
  unfold loseTasks
  apply foldl_links
  intro s x
  dsimp only
  rw [foldl_links fun s _ => noteSkip_links s _ _ _ _]

theorem agtMark_links (a : Nat) (up excl : Bool) (r : Nat) : (agtMark s a up excl r).links = s.links := by
  rw [agtMark, setAgt, modGlb_links]

theorem setMeas_links (a mhz : Nat) : (setMeas s a mhz).links = s.links := by
  rw [setMeas, modSched_links]

theorem drainGone_links (a : Nat) : (drainGone s a).links = s.links := by
  unfold drainGone
  split
  · rfl
  · dsimp only
    split
    · rw [admOk_links]; rfl
    · rfl

theorem modeEnd_links (r : Nat) (ev : Bool) (al : W64) (rl : Nat) : (modeEnd s r ev al rl).links = s.links := by
  unfold modeEnd
  dsimp only
  rw [reqVec_links]
  split
  · rw [raise_links, audit_links]; rfl
  · rw [audit_links]; rfl

/-- The decision of a mode change is sent, and nothing else of a link changes. -/
theorem mcTell_held (sub : Nat) : LinksHeld s (mcTell s sub) :=
  .foldl (fun s a => sendDown_held s a _) _ s

theorem mcAgentGone_held (a : Nat) : LinksHeld s (mcAgentGone s a) := by
  unfold mcAgentGone
  split
  · exact (mcTell_held s 3).trans (.of_links (modeEnd_links ..))
  · exact .refl

/-- A link in fault is down (R54). -/
theorem linkFault_held (a : Nat) :
    LinksHeld (modLink s a fun k => { k with up := false, fault := true, idleIn := false }) (linkFault s a) := by
  unfold linkFault
  dsimp only
  generalize modLink s a _ = u
  have hlose : (loseTasks (modAgent (relayClear (raise u eTideLink none (some a)) a) a fun g => { g with relay := [] }) a).links =
      u.links := by
    rw [loseTasks_links]
    exact raise_links u eTideLink none (some a)
  generalize loseTasks _ a = v at hlose
  refine LinksHeld.trans (.of_links hlose) ?_
  split
  · exact .of_links (by rw [agtMark_links, setMeas_links])
  · split
    · refine LinksHeld.trans ?_ (.of_links (drainGone_links _ a))
      refine LinksHeld.trans (.of_links ?_) (mcAgentGone_held _ a)
      rw [audit_links, setMeas_links, agtMark_links]
    · exact .refl

theorem linkFault_up (a : Nat) : (getLink (linkFault s a) a).up = false := by
  rw [(linkFault_held s a).up, getLink_modLink_self]

theorem linkFault_fault (a : Nat) : (getLink (linkFault s a) a).fault = true := by
  rw [(linkFault_held s a).fault, getLink_modLink_self]

end
end Sys2Proof.Proofs.Links
end

