-- ==== Sys2Proof/Proofs/Flits.lean ====
section
/-! Flits received, replays and loop-back exchanges (R54, R77, R504–R510). -/

namespace Sys2Proof.Proofs.Flits
open Sys2Proof Sys2Proof.Machine Sys2Proof.Laws Sys2Proof.Proofs.Links

/-! Flits at a receiving end. -/

section
variable {d : Dir} {r : RxSide} {f : W512}

/-- The flit that ends a message which has a meaning delivers it. -/
theorem rxWanted_delivers {m : Msg} (hc : bitOf f 5 = false) (ht : fld f 0 5 ≤ 16) (hd : msgDir d m = true)
    (hm : msgDecode (fld f 0 5) (joinPayload (r.acc ++ [BitVec.ofNat 416 (fld f 64 416)])) = some m) :
    rxHeld (rxWanted d r f).1 = ((r.next + 1) % 4096, [], r.inbox ++ [m]) := by
  simp only [rxWanted, if_neg (Nat.not_lt.mpr ht), hc, Bool.false_eq_true, if_false, hm, hd, if_true, rxHeld]

variable (t : TxSide) (a : Nat)

theorem endTake_wanted (h : flitKind r f = .wanted) : (endTake d a r t f).1 = (rxWanted d r f).1 := by
  simp only [endTake, h]

/-- A flit that is bad or has come before leaves what has been received as it is. -/
theorem endTake_kept (h : flitKind r f = .old ∨ flitKind r f = .bad) : rxHeld (endTake d a r t f).1 = rxHeld r := by
  rcases h with h | h
  · simp only [endTake, h]
  · simp only [endTake, h]; rfl

end

/-- What follows a flit at the agent, whichever it was: an event, the relay, an IDLE flit. -/
theorem afterFlit_held (s : State) (a : Nat) (bad crc : Bool) (p : Prop) [Decidable p] :
    LinksHeld s (
      let s := if bad then raise s eTideProtocol none (some a) else s
      let s := if crc then relayAdd s a 4 false 1 else relayPump s a
      if p then s else modLink s a fun k => idleUp a k) := by
  dsimp only
  have hraise : LinksHeld s (if bad then raise s eTideProtocol none (some a) else s) := by
    split
    · exact .of_links (raise_links ..)
    · exact .refl
  refine hraise.trans ?_
  generalize (if bad then raise s eTideProtocol none (some a) else s) = u
  have hrelay : LinksHeld u (if crc then relayAdd u a 4 false 1 else relayPump u a) := by
    split
    · exact relayAdd_held u a 4 false 1
    · exact relayPump_held u a
  refine hrelay.trans ?_
  generalize (if crc then relayAdd u a 4 false 1 else relayPump u a) = v
  split
  · exact .refl
  · exact .modLink (idleUp_held a)

/-- What an agent has received after a flit is what its end of the link makes of the flit. -/
theorem flitTake_down_held {s : State} {a : Nat} {f : W512} (hup : (getLink s a).up = true) :
    rxHeld (getLink (flitTake s .down a f) a).downRx =
      rxHeld (endTake .down a (getLink s a).downRx (getLink s a).upTx f).1 := by
  unfold flitTake
  dsimp only
  rw [getLink_modLink_self, if_neg (by simp [hup])]
  dsimp only
  rw [(afterFlit_held _ a _ _ _).downRx a, (pumpUp_held _ a).downRx a, getLink_modLink_self]

theorem exec_flitReceive_down {s : State} {a : Nat} (h : AgLive s a = true) (f : W512) :
    exec (.flitReceive .down a f) s = .next (settle (flitTake s .down a f)) :=
  liveAgent_next h fun s => flitTake s .down a f

/-! Replays (R54). -/

/-- Counting every kept flit of a run of SEQs once more. -/
theorem tget_foldl_count (l : List (Nat × W512)) (h : (l.map Prod.fst).Nodup) (t : Tbl Nat) (n : Nat) :
    tget 0 (l.foldl (fun r x => kput r x.1 (tget 0 r x.1 + 1)) t) n =
      tget 0 t n + (if n ∈ l.map Prod.fst then 1 else 0) := by
  induction l generalizing t with
  | nil => simp
  | cons x l ih =>
    rw [List.map_cons, List.nodup_cons] at h
    rw [List.foldl_cons, ih h.2, List.map_cons]
    by_cases hn : x.1 = n
    · subst hn
      rw [tget_kput_self, if_neg h.1, if_pos List.mem_cons_self]
    · rw [tget_kput_ne hn]
      simp [List.mem_cons, Ne.symm hn]

/-- REPLAY_REQ counts one replay more of every flit kept from the named SEQ on (R54). -/
theorem tget_replayMark (k : TxSide) (seq : Nat) (h : (k.unacked.map Prod.fst).Nodup) (n : Nat) :
    tget 0 (replayMark k seq).replays n = tget 0 k.replays n +
      (if n ∈ (k.unacked.dropWhile (fun x => x.1 != seq)).map Prod.fst then 1 else 0) :=
  tget_foldl_count _ (h.sublist ((List.dropWhile_sublist _).map _)) _ n

/-- No SEQ has been replayed eight times where every count is below eight. -/
theorem replayedOut_eq_not_all (t : TxSide) : replayedOut t = !t.replays.all (fun r => decide (r.2 < 8)) := by
  simp only [replayedOut, List.not_all_eq_any_not, ← decide_not, Nat.not_lt]

theorem exec_replayReq_down {s : State} {a seq : Nat} (h : AgLive s a = true) (hh : downHead s a = some (.replayReq seq)) :
    exec (.replayReq .down a) s = .next (settle (
      let t := modLink s a fun k => { k with
        downRx := { k.downRx with inbox := k.downRx.inbox.drop 1 }, upTx := replayMark k.upTx seq }
      if (replayMark (getLink s a).upTx seq).replays.all (fun r => decide (r.2 < 8)) = true then t else linkFault t a)) := by
  show execReplayReq .down a s = _
  simp only [execReplayReq, liveAgent_next h, hh, getLink_modLink_self, replayedOut_eq_not_all]
  cases (replayMark (getLink s a).upTx seq).replays.all (fun r => decide (r.2 < 8)) <;> rfl

/-! Loop-back exchanges (R77, R504–R510). -/

section
variable {s : State} {a : Nat} {x : LbEx}

/-- The Root sends the next exchange of a run with an agent (R506). -/
theorem exec_loopbackSend {k : Nat} {body : BitVec 416} (h : Live s = true)
    (hfree : s.lb.flight.any (fun x => x.agent == a) = false) (hb : bringEx s a = none) (hbusy : s.lb.busy = true)
    (hfz : s.glb.frozen = false) (hmem : s.lb.members.contains a = true) (hk : k = tget 0 s.lb.next a) (hlt : k < s.lb.count)
    (hpt : s.lb.point = 4 ∨ s.lb.point = 5) (hbody : body = lbPayload (lbSub s.lb.point) (lbSeed s a k)) :
    exec (.loopbackSend a) s = .next (settle (sendDown (modLb s fun b => { b with
      next := tput 0 b.next a (k + 1), flight := b.flight ++ [{ agent := a, k := k, sent := body }] }) a
      (.loopback (lbSub s.lb.point) body))) := by
  subst hk hbody
  have hgo : ¬ (¬ s.lb.busy = true ∨ s.glb.frozen = true ∨ ¬ s.lb.members.contains a = true ∨
      s.lb.count ≤ tget 0 s.lb.next a) := by
    simp only [hbusy, hfz, hmem, Nat.not_le.mpr hlt, not_true_eq_false, Bool.false_eq_true, or_false, not_false_eq_true]
  show execLoopbackSend a s = _
  simp only [execLoopbackSend, liveRoot_next h, hfree, hb, if_neg hgo, Bool.false_eq_true, if_false]
  rcases hpt with hpt | hpt <;> simp [hpt]

/-- The agent sends a payload back as it came (R505). -/
theorem exec_loopback {sub : Nat} {body : BitVec 416} (h : AgLive s a = true)
    (hh : downHead s a = some (.loopback sub body)) (hsub : sub = 1 ∨ sub = 2) :
    exec (.loopback a) s = .next (settle (sendUp (takeDown s a) a (.loopback sub body))) := by
  show execLoopback a s = _
  simp only [execLoopback, liveAgent_next h, hh, if_pos hsub]

theorem exec_loopbackAnswer {sub rtt ph mhz : Nat} {bytes body : BitVec 416} (h : Live s = true)
    (hh : upHead s a = some (.loopback sub body)) (hx : s.lb.flight.find? (fun x => x.agent == a) = some x)
    (hb : bringEx s a = none) (hbusy : s.lb.busy = true) (hpt : s.lb.point = 4 ∨ s.lb.point = 5) :
    exec (.loopbackAnswer a rtt ph mhz bytes) s = .next (settle (lbAnswer (takeUp s a) x (lbDiff x.sent body) rtt)) := by
  show execLoopbackAnswer a rtt ph mhz bytes s = _
  simp only [execLoopbackAnswer, liveRoot_next h, hh, hx, hb, hbusy]
  rcases hpt with hpt | hpt <;> simp [hpt]

theorem exec_loopbackTimeout (h : Live s = true) (hx : s.lb.flight.find? (fun x => x.agent == a) = some x)
    (hb : bringEx s a = none) (hbusy : s.lb.busy = true) :
    exec (.loopbackTimeout a) s = .next (settle (lbAnswer s x (some (0x3F, 0)) 0)) := by
  show execLoopbackTimeout a s = _
  simp [execLoopbackTimeout, liveRoot_next h, hx, hb, hbusy]

/-- What came back as it was sent differs nowhere. -/
theorem lbDiff_self (p : BitVec 416) : lbDiff p p = none := by
  simp [lbDiff]

/-- What a loop-back run has counted, and the exchanges without an answer. -/
def lbCounts (b : Lb) : Nat × Nat × Nat × Nat × List LbEx := (b.exch, b.good, b.bad, b.rttSum, b.flight)

/-- The end of a run leaves its counts as they are. -/
theorem lbFinish_counts (s : State) : lbCounts (lbFinish s).lb = lbCounts s.lb := by
  unfold lbFinish
  dsimp only
  split
  · rfl
  · split
    · obtain ⟨e, l, w, hr⟩ := raise_shape (lbFree (modLb s fun b => { b with
        busy := false, done := true, mismatch := b.mismatch || decide (0 < b.bad) })) eLoopbackMismatch none _
      rw [hr]
      rfl
    · rfl

/-- An exchange leaves the run. -/
theorem lbDrop_lb (s : State) (x : LbEx) : (lbDrop s x).lb = { s.lb with flight := s.lb.flight.erase x } := by
  unfold lbDrop
  dsimp only
  split <;> split <;> rfl

/-- A good answer counts with its round trip (R506, R510). -/
theorem lbAnswer_good (s : State) (x : LbEx) (rtt : Nat) : lbCounts (lbAnswer s x none rtt).lb =
    (s.lb.exch + 1, s.lb.good + 1, s.lb.bad, s.lb.rttSum + rtt, s.lb.flight.erase x) := by
  unfold lbAnswer
  rw [lbFinish_counts]
  dsimp only [modLb]
  rw [lbDrop_lb, lbCounts]

/-- A missing or wrong answer counts as bad (R506, R510). -/
theorem lbAnswer_bad (s : State) (x : LbEx) (off diff rtt : Nat) : lbCounts (lbAnswer s x (some (off, diff)) rtt).lb =
    (s.lb.exch + 1, s.lb.good, s.lb.bad + 1, s.lb.rttSum, s.lb.flight.erase x) := by
  unfold lbAnswer
  rw [lbFinish_counts]
  dsimp only [lbBad, modLb]
  rw [lbDrop_lb, lbCounts]

end

/-- Settles O59: what each flit leaves at the agent's receiving end, the count of replays, and the exchanges of a loop-back run. -/
theorem flitsAndReplay : Obligations.FlitsAndReplay := by
  refine ⟨?_, ?_, ?_, ?_, ?_, ?_, ?_⟩
  · rintro s t a f m hl hup rfl
    have hheld := flitTake_down_held (f := f) hup
    refine ⟨exec_flitReceive_down hl f, fun hk hc ht hd hm => ?_, fun hk => ?_⟩
    · rw [endTake_wanted _ _ hk, rxWanted_delivers hc ht hd hm] at hheld
      simp only [rxHeld, Prod.mk.injEq] at hheld
      obtain ⟨hnext, hacc, hin⟩ := hheld
      exact ⟨hin, hacc, hnext⟩
    · rw [endTake_kept _ _ hk] at hheld
      simp only [rxHeld, Prod.mk.injEq] at hheld
      obtain ⟨hnext, hacc, hin⟩ := hheld
      exact ⟨hin, hacc, hnext⟩
  · rintro s t a seq hl hh rfl
    refine ⟨fun hall => ?_, fun hall => ⟨?_, linkFault_up _ a, linkFault_fault _ a⟩⟩
    · rw [exec_replayReq_down hl hh, if_pos hall]
    · rw [exec_replayReq_down hl hh, if_neg (by simp [hall])]
  · exact fun k seq hnd n => tget_replayMark k seq hnd n
  · rintro s u a k body hl hfree hb hbusy hfz hmem hk hlt hpt hbody rfl
    exact exec_loopbackSend hl hfree hb hbusy hfz hmem hk hlt hpt hbody
  · exact fun s a sub body hl hh hsub => exec_loopback hl hh hsub
  · intro s a sub rtt ph mhz bytes body x hl hh hx hb hbusy hpt
    refine ⟨exec_loopbackAnswer hl hh hx hb hbusy hpt, fun t => ⟨lbDiff_self _, ?_⟩⟩
    rintro rfl
    simpa only [lbCounts, Prod.mk.injEq] using lbAnswer_good s x rtt
  · rintro s t a x hl hx hb hbusy rfl
    obtain ⟨hexch, hgood, hbad, -, hfl⟩ : _ ∧ _ ∧ _ ∧ _ ∧ _ := by
      simpa only [lbCounts, Prod.mk.injEq] using lbAnswer_bad s x 0x3F 0 0
    exact ⟨exec_loopbackTimeout hl hx hb hbusy, hexch, hbad, hgood, hfl⟩

end Sys2Proof.Proofs.Flits
end

