-- ==== Sys2Proof/Proofs/EventPort.lean ====
section
/-! Interrupts at the event port and register messages (R43, R46–R48, R53). -/

namespace Sys2Proof.Proofs.EventPort
open Sys2Proof Sys2Proof.Machine Sys2Proof.Laws

/-! Interrupts. -/

section
variable {s : State} {v : Nat}

theorem exec_interruptPresent {rest : List Nat} (h : Live s = true) (hp : s.evt.presented = none)
    (hv : s.evt.pending = v :: rest) : exec .interruptPresent s =
      .next (settle { s with evt := { s.evt with presented := some (v, vecFn s v) } }) := by
  show execInterruptPresent s = _
  simp only [execInterruptPresent, liveRoot_next h, hp, hv]

theorem exec_interruptTransfer {fn : Nat} (h : Live s = true) (hp : s.evt.presented = some (v, fn)) :
    exec .interruptTransfer s =
      .next (settle { s with evt := { s.evt with presented := none, pending := without s.evt.pending v } }) := by
  show execInterruptTransfer s = _
  simp only [execInterruptTransfer, liveRoot_next h, hp]

theorem mem_without {l : List Nat} {w : Nat} : w ∈ without l v ↔ w ∈ l ∧ w ≠ v := by
  simp [without]

end

/-! Register messages at an agent. -/

section
variable {s : State} {a : Nat}

@[simp] theorem getAgent_takeDown (s : State) (a b : Nat) : getAgent (takeDown s a) b = getAgent s b := by
  rw [takeDown_eq]; rfl

/-- Two updates of an agent agree where they agree on its record. -/
theorem modAgent_congr {f g : Agent → Agent} (h : f (getAgent s a) = g (getAgent s a)) : modAgent s a f = modAgent s a g := by
  rw [modAgent, h, modAgent]

/-- An agent answers a read of its identity (R53, R64). -/
theorem exec_agentRegRequest_id {t : Nat} (h : AgLive s a = true) (hh : downHead s a = some (.regRead 0 t 2)) :
    exec (.agentRegRequest a) s = .next (settle (sendUp (agentOnRead (takeDown s a) a 0) a
      (.regReply 0 t 0 (BitVec.ofNat 256 (glbId (some a) % 2 ^ 32))))) := by
  show execAgentRegRequest a s = _
  simp only [execAgentRegRequest, liveAgent_next h, agentReg, hh, agentRead]
  rfl

/-- Bytes whose strobes are all set are the new ones. -/
theorem strobed_all {st n : Nat} (h : ∀ i < n, st.testBit i = true) (old d : Nat) : strobed old d st n = d % 256 ^ n := by
  induction n generalizing old d st with
  | zero => simp [strobed, Nat.mod_one]
  | succ n ih =>
    have hrest : ∀ i < n, (st / 2).testBit i = true := fun i hi => by
      rw [← Nat.testBit_succ]
      exact h (i + 1) (by omega)
    rw [strobed, if_pos (h 0 (Nat.succ_pos n)), ih hrest, Nat.pow_succ, Nat.mul_comm (256 ^ n), Nat.mod_mul]
    rfl

theorem testBit_of_nbits_full {st : Nat} (h : nbits st 0 4 = 15) : ∀ i < 4, st.testBit i = true := by
  intro i hi
  have hst : st % 2 ^ 4 = 15 := h
  have hb : (st % 2 ^ 4).testBit i = true := by rw [hst]; interval_cases i <;> rfl
  rw [Nat.testBit_mod_two_pow] at hb
  simpa [hi] using hb

/-- A word written into a bank with every strobe set is the data's (R53). -/
theorem tget_bankStore_word {b : Tbl W32} {i st d : Nat} (h : nbits st 0 4 = 15) :
    tget 0#32 (bankStore b i st d 1) i = BitVec.ofNat 32 d := by
  rw [bankStore, bankWrite, bankWrite, strobed_all (testBit_of_nbits_full h)]
  refine tget_tput_self.trans (BitVec.eq_of_toNat_eq ?_)
  simp

/-- An agent takes a write of an image word of its bank B while bank A is active (R53, R275). -/
theorem agentWrite_bankB {o t st : Nat} {d : BitVec 256} (hlo : 0x40000 ≤ o) (hhi : o < 0x60000)
    (hb : (getAgent s a).core.bankB = false) : agentWrite s a o t 2 st d =
      if (getAgent s a).core.staged = true then sendUp s a (.regReply o t 2 0)
      else sendUp (modAgent s a (fun g => { g with core := { g.core with
        imemB := bankStore g.core.imemB (o % 0x20000 / 4) st d.toNat 1, wroteInactive := true } })) a (.regReply o t 0 0) := by
  have hrange : 0x20000 ≤ o ∧ o < 0x60000 := ⟨by omega, hhi⟩
  simp only [agentWrite, if_pos hrange, hb, decide_eq_true hlo, Bool.false_eq_true, false_or]
  split
  · rfl
  · refine congrArg (fun u => sendUp u a (.regReply o t 0 0)) (modAgent_congr ?_)
    simp [setInactive, inactiveBank, hb]

theorem exec_agentRegRequest_bankB {o t st : Nat} {d : BitVec 256} (h : AgLive s a = true)
    (hh : downHead s a = some (.regWrite o t 2 st d)) (hlo : 0x40000 ≤ o) (hhi : o < 0x60000)
    (hb : (getAgent s a).core.bankB = false) : exec (.agentRegRequest a) s = .next (settle (
      if (getAgent s a).core.staged = true then sendUp (takeDown s a) a (.regReply o t 2 0)
      else sendUp (modAgent (takeDown s a) a (fun g => { g with core := { g.core with
        imemB := bankStore g.core.imemB (o % 0x20000 / 4) st d.toNat 1, wroteInactive := true } })) a (.regReply o t 0 0))) := by
  have hq : ¬ (o = 0x7000 ∨ o = 0x7008 ∨ o = 0x7010) := by omega
  have hw := agentWrite_bankB (s := takeDown s a) (t := t) (st := st) (d := d) hlo hhi (by rwa [getAgent_takeDown])
  show execAgentRegRequest a s = _
  simp only [execAgentRegRequest, liveAgent_next h, agentReg, hh, if_neg hq, hw, getAgent_takeDown]

end

/-! Answers of host accesses at the Root (R43). -/

section
variable {s : State} {a t : Nat} {h : HeldAcc}

theorem respond_held (s : State) (v : Nat) : (respond s v).port.held = s.port.held := by
  unfold respond answerOwed
  dsimp only
  split <;> rfl

theorem unhold_held (t : Nat) (s : State) : (unhold t s).port.held = s.port.held := rfl

theorem raise_port (s : State) (code : Nat) (p b : Option Nat) : (raise s code p b).port = s.port := by
  obtain ⟨e, l, w, hr⟩ := raise_shape s code p b
  rw [hr]

/-- The reply to a host access is its response. -/
theorem exec_regReply {o : Nat} {d : BitVec 256} (hl : Live s = true) (hh : upHead s a = some (.regReply o t 0 d))
    (hk : kget s.port.held t = some h) (ha : h.agent = a) (hi : h.internal = 0) :
    exec (.regReply a) s = .next (settle (respond
      (unhold t { takeUp s a with port := { (takeUp s a).port with held := kdel s.port.held t } })
      (if h.wr then 0 else d.toNat % 2 ^ 32))) := by
  have hkt : kget (takeUp s a).port.held t = some h := hk
  have habort : abortOf h = none := by simp [abortOf, hi]
  show execRegReply a s = _
  simp only [execRegReply, liveRoot_next hl, hh, hk, takeReply, hkt, ha, hi, habort, Option.filter_some, beq_self_eq_true,
    if_true, Option.bind_some, ne_eq, not_true_eq_false, if_false]
  rfl

/-- A host access without an answer in time reads 0 and raises E_AGENT_UNREACHABLE. -/
theorem exec_agentRegTimeout (hl : Live s = true) (hk : kget s.port.held t = some h) (hi : h.internal = 0) :
    exec (.agentRegTimeout t) s = .next (settle (respond (unhold t (raise
      { s with port := { s.port with held := kdel s.port.held t } } eAgentUnreachable none (some h.agent))) 0)) := by
  show execAgentRegTimeout t s = _
  simp only [execAgentRegTimeout, liveRoot_next hl, hk, if_pos hi]

end

/-- Settles O47: presentation and transfer of a vector, and the four outcomes of a register message. -/
theorem eventPort : Obligations.EventPort := by
  refine ⟨fun s v hl => ⟨fun rest hp hv => exec_interruptPresent hl hp hv, ?_⟩, ?_, ?_, ?_, ?_⟩
  · rintro fn t hp rfl
    exact ⟨exec_interruptTransfer hl hp, by simp [mem_without], fun w hw => by simp [mem_without, hw]⟩
  · intro s a t v hl hh hv
    obtain rfl : glbId (some a) = v := by simpa [regAgent] using hv
    exact exec_agentRegRequest_id hl hh
  · rintro s u a o t st d hl hh hlo hhi hb rfl
    have he := exec_agentRegRequest_bankB hl hh hlo hhi hb
    refine ⟨fun hs => by rw [he, if_pos hs], fun hs => by rw [he, if_neg (by simp [hs])], fun hst => ?_, ?_⟩
    · rw [getAgent_modAgent_self, getAgent_takeDown, tget_bankStore_word hst]
      exact BitVec.eq_of_toNat_eq (by simp [fld, nbits])
    · rw [getAgent_modAgent_self, getAgent_takeDown]
  · rintro s u a o t d h hl hh hk ha hi rfl
    exact ⟨exec_regReply hl hh hk ha hi, rfl, respond_held ..⟩
  · rintro s u t h hl hk hi rfl
    exact ⟨exec_agentRegTimeout hl hk hi, by rw [raise_port]⟩

end Sys2Proof.Proofs.EventPort
end

