-- ==== Sys2Proof/Proofs/PortAccess.lean ====
section
/-! Accesses at the subordinate port while the block is open (R39–R42), and the identities (R64). -/

namespace Sys2Proof.Proofs.PortAccess
open Sys2Proof Sys2Proof.Machine Sys2Proof.Laws

section
variable {s : State} {x : Access} {ext : W64} {flag : Bool}

theorem open_parts (h : Open s = true) : Live s = true ∧ isReady s = true ∧ s.glb.warmBegun = false := by
  have hl := Open_live h
  simp only [Open, Bool.and_eq_true, Bool.not_eq_true'] at h
  obtain ⟨⟨-, hr⟩, hw⟩ := h
  exact ⟨hl, hr, hw⟩

/-- An open port with room for one more access of the direction takes it (R39, R79). -/
theorem subAccess_open (h : Open s = true) (hx : x.addr < 2 ^ 26) (ho : owedOf s x.wr < 32) :
    subAccess s x ext flag = serveAccess (accept s x) x ext flag := by
  obtain ⟨-, -, hw⟩ := open_parts h
  rw [subAccess, if_neg]
  simp only [hw, Bool.false_eq_true, false_or, not_or, Nat.not_le]
  exact ⟨hx, ho⟩

/-- An access of the GLB region that its function may make reaches a register (R42). -/
theorem serveAccess_glb (hr : isReady s = true) (hx : x.addr < 0x1000) (ha : admits s .glb x.addr x.fn x.wr = true) :
    serveAccess s x ext flag = if x.wr = true then writeReg s .glb x.addr x ext flag else readReg s .glb x.addr x := by
  have hreg : regionOf x.addr = (.glb, x.addr) := by rw [regionOf, if_pos hx]
  simp only [serveAccess, hreg, hr, ha, not_true_eq_false, false_and, if_false]

/-- A 32-bit read of a 32-bit register answers its value (R6). -/
theorem readReg_narrow {g : Rg} {o b v : Nat} (h : regHolding s g o = some (b, false, v)) (hx : shaped x 4 = true) :
    readReg s g o x = respond (onRead s g b true false 0) v := by
  simp only [readReg, h, hx, if_true, Bool.false_eq_true, not_false_eq_true]

/-- A 32-bit write of a 32-bit register that is no doorbell acts on the register (R6, R40). -/
theorem writeReg_glb_narrow {o b v : Nat} (h : regHolding s .glb o = some (b, false, v)) (hx : shaped x 4 = true) :
    writeReg s .glb o x ext flag = respond (regWrite s .glb b
      { fn := x.fn, addr := x.addr - o + b, v := x.data.toNat % 2 ^ 32, ext := ext, flag := flag }) 0 := by
  simp only [writeReg, h, hx, Bool.not_false, Bool.and_self, if_true, Bool.false_eq_true, not_false_eq_true]

/-- Every function of the package may read GLB_ID (R42). -/
theorem admits_glb_id {fn : Nat} (h : fn ≤ 64) : admits s .glb 0 fn false = true := by
  unfold admits Config.fnManager
  by_cases h64 : fn = 0x40
  · rw [if_pos h64]
  · rw [if_neg h64, if_neg (by omega)]
    rfl

/-- Any function may read GLB_ID, and it reads the Root's identity (R42, R64). -/
theorem exec_hostAccess_id {fn : Nat} (h : Open s = true) (hfn : fn ≤ 64) (ho : owedOf s false < 32) :
    exec (.hostAccess (rd32 fn 0)) s = .next (settle (respond (accept s (rd32 fn 0)) (glbId none))) := by
  obtain ⟨hl, hr, -⟩ := open_parts h
  have hserve : serveAccess (accept s (rd32 fn 0)) (rd32 fn 0) 0 false =
      readReg (accept s (rd32 fn 0)) .glb 0 (rd32 fn 0) := by
    rw [serveAccess_glb (s := accept s (rd32 fn 0)) (x := rd32 fn 0) hr (by decide : (0 : Nat) < 0x1000) (admits_glb_id hfn)]
    exact if_neg Bool.false_ne_true
  show execHostAccess (rd32 fn 0) s = _
  rw [execHostAccess, liveRoot_next hl, if_neg (by simp [needsExt, rd32]), subAccess_open h (by decide : (0 : Nat) < 2 ^ 26) ho,
    hserve, readReg_narrow (b := 0) (v := glbId none) rfl rfl]
  rfl

end

/-! The response of the access accepted last. -/

/-- The last of the accesses owed is answered, and after the others, when no earlier one has its ID and direction (R39). -/
theorem owedSplit_getLast (l : List Owed) (e : Owed) (held : List (Nat × Bool)) (hv : e.val.isSome = true)
    (hheld : (e.id, e.wr) ∉ held) (hl : ∀ x ∈ l, (x.id, x.wr) ≠ (e.id, e.wr)) :
    (owedSplit (l ++ [e]) held).1.getLast? = some e := by
  induction l generalizing held with
  | nil => simp [owedSplit, hv, hheld]
  | cons x l ih =>
    have hrest : ∀ y ∈ l, (y.id, y.wr) ≠ (e.id, e.wr) := fun y hy => hl y (List.mem_cons_of_mem x hy)
    rw [List.cons_append, owedSplit]
    split
    · rw [List.getLast?_cons, ih held hheld hrest, Option.getD_some]
    · refine ih _ ?_ hrest
      rw [List.mem_cons, not_or]
      exact ⟨(hl x List.mem_cons_self).symm, hheld⟩

/-- The access just accepted has its response at once where no earlier one has its ID and direction (R39). -/
theorem respond_accept {s : State} {x : Access} (v : Nat)
    (h : ∀ e ∈ s.port.owed, (e.id, e.wr) ≠ (x.id % 256, x.wr)) :
    (respond (accept s x) v).port.resp = BitVec.ofNat 128 v ∧ (respond (accept s x) v).port.respId = x.id % 256 := by
  have hmap : (accept s x).port.owed.map (Owed.fill v) =
      s.port.owed.map (Owed.fill v) ++ [{ id := x.id % 256, wr := x.wr, rtag := none, val := some v }] := by
    simp [accept, Owed.fill]
  have hfill : ∀ e ∈ s.port.owed.map (Owed.fill v), (e.id, e.wr) ≠ (x.id % 256, x.wr) := by
    intro e he
    obtain ⟨e0, he0, rfl⟩ := List.mem_map.mp he
    have hid : ((Owed.fill v e0).id, (Owed.fill v e0).wr) = (e0.id, e0.wr) := by
      unfold Owed.fill; split <;> rfl
    rw [hid]
    exact h e0 he0
  have hlast := owedSplit_getLast (s.port.owed.map (Owed.fill v))
    { id := x.id % 256, wr := x.wr, rtag := none, val := some v } [] rfl List.not_mem_nil hfill
  simp only [respond, hmap, answerOwed, hlast, Option.getD_some, and_self]

/-- Settles O2: the identity as the Root answers it, and as agent a answers it in a register message. -/
theorem identityRead : Obligations.IdentityRead := by
  refine ⟨fun s fn h hfn ho howed => ⟨_, exec_hostAccess_id h hfn ho, respond_accept _ fun e he => ?_⟩, ?_⟩
  · rcases howed e he with hid | hwr <;> simp_all [rd32]
  · intro s a t hl ha hh
    have hlt : 0xE7010301 + a * 0x20000 < 2 ^ 32 := by omega
    have he := EventPort.exec_agentRegRequest_id hl hh
    rw [glbId, Nat.mod_eq_of_lt hlt] at he
    exact ⟨_, he⟩

end Sys2Proof.Proofs.PortAccess
end

