-- ==== Sys2Proof/Proofs/Resets.lean ====
section
/-! Resets of the block: its state at reset, the reset pins, warm resets from software, function-level resets (R49, R60–R73). -/

namespace Sys2Proof.Proofs.Resets
open Sys2Proof Sys2Proof.Machine Sys2Proof.Laws Sys2Proof.Proofs.PortAccess

/-- Settles O37: every table is empty at reset, and a read of an empty table answers its default. -/
theorem resetState : Obligations.ResetState :=
  ⟨rfl, rfl, rfl, rfl, fun _ => rfl, fun _ => rfl, fun _ => rfl, rfl, rfl, rfl, rfl, rfl⟩

/-! The reset pins. -/

section
variable {s : State}

theorem testBit_setBit (x i : Nat) : (setBit x i).testBit i = true := by
  unfold setBit
  split
  · assumption
  · rename_i h
    rw [Nat.add_comm, Nat.testBit_two_pow_add_eq]
    simpa using h

/-- A warm reset notes its kind in GLB_RSTCAUSE (R67). -/
theorem warmState_rstCause (s : State) {bit : Nat} (h : bit < 32) (running : Bool) :
    bitOf (warmState s bit running).glb.rstCause bit = true := by
  show (BitVec.ofNat 32 (setBit (clrMask s.glb.rstCause.toNat 1) bit)).getLsbD bit = true
  simp [BitVec.getLsbD_ofNat, h, testBit_setBit]

theorem exec_porRelease (tm : Bool) (h : s.glb.por = true) : exec (.porRelease tm) s =
    .next (if s.glb.rstn then
      { s with
        glb := { s.glb with por := false, testPin := tm }
        agents := (upTo s.par.numAgents).foldl (fun t a => tput {} t a { getAgent s a with running := !s.glb.rstn }) [] }
      else startUp { s with
        glb := { s.glb with por := false, testPin := tm }
        agents := (upTo s.par.numAgents).foldl (fun t a => tput {} t a { getAgent s a with running := !s.glb.rstn }) [] }) := by
  show execPorRelease tm s = _
  rw [execPorRelease, if_pos h]

theorem exec_rstNAssert (h : s.glb.por = false) : exec .rstNAssert s =
    .next { warmState s 1 false with glb := { (warmState s 1 false).glb with rstn := true } } := by
  show execRstNAssert s = _
  rw [execRstNAssert, if_neg (by simp [h])]

theorem exec_rstNRelease (h : s.glb.por = false) (hr : s.glb.rstn = true) : exec .rstNRelease s =
    .next (startUp { s with
      glb := { s.glb with rstn := false }
      agents := (upTo s.par.numAgents).foldl (fun t a => tput {} t a { getAgent s a with running := true }) [] }) := by
  show execRstNRelease s = _
  rw [execRstNRelease, if_pos ⟨hr, by simp [h]⟩]

end

/-! Warm resets from software. -/

section
variable {s : State} {bit : Nat}

theorem audit_glb (s : State) (o f k c w x : Nat) : (audit s o f k c w x).glb = s.glb := by
  obtain ⟨e, l, h⟩ := audit_shape s o f k c w x
  rw [h]

/-- Sending AGENT_RESET changes the links alone. -/
theorem foldl_sendDown_glb (m : Msg) (l : List Nat) (s : State) : (l.foldl (fun s a => sendDown s a m) s).glb = s.glb := by
  induction l generalizing s with
  | nil => rfl
  | cons a l ih => rw [List.foldl_cons, ih, sendDown_eq]

/-- A warm reset that begins is put down with its kind, unless one has begun before (R61). -/
theorem warmBegin_glb (s : State) (bit : Nat) : (warmBegin s bit).glb =
    if s.glb.warmBegun then s.glb else { s.glb with warmBegun := true, warmBit := bit } := by
  unfold warmBegin
  split
  · rfl
  · dsimp only [modGlb]
    rw [foldl_sendDown_glb]

theorem warmBegin_begun (s : State) (bit : Nat) : (warmBegin s bit).glb.warmBegun = true := by
  rw [warmBegin_glb]
  split
  · assumption
  · rfl

theorem warmBegin_bit (bit : Nat) (h : s.glb.warmBegun = false) : (warmBegin s bit).glb.warmBit = bit := by
  rw [warmBegin_glb, if_neg (by simp [h])]

theorem warmBegin_flrDone (s : State) (bit : Nat) : (warmBegin s bit).glb.flrDone = s.glb.flrDone := by
  rw [warmBegin_glb]
  split <;> rfl

theorem takes_parts (h : Takes s = true) : Open s = true ∧ owedOf s true < 32 := by
  simpa only [Takes, Bool.and_eq_true, decide_eq_true_eq] using h

/-- The manager's write of GLB_CTRL begins a warm reset (R61). -/
theorem exec_warmReset (h : Takes s = true) : exec (.warmReset 0x40) s =
    .next (settle (respond (warmBegin (wrLog (taken s 0x40 0x00C 1) (wrq 0x40 0x00C 1)) 2) 0)) := by
  obtain ⟨ho, hroom⟩ := takes_parts h
  obtain ⟨hl, hr, -⟩ := open_parts ho
  have hserve : serveAccess (accept s (wr32 0x40 0x00C 1)) (wr32 0x40 0x00C 1) 0 false =
      writeReg (accept s (wr32 0x40 0x00C 1)) .glb 0x00C (wr32 0x40 0x00C 1) 0 false := by
    rw [serveAccess_glb (s := accept s (wr32 0x40 0x00C 1)) (x := wr32 0x40 0x00C 1) hr (by decide : (0x00C : Nat) < 0x1000) rfl]
    exact if_pos rfl
  show execWarmReset 0x40 s = _
  rw [execWarmReset, liveRoot_next hl, subAccess_open ho (by decide : (0x00C : Nat) < 2 ^ 26) hroom, hserve,
    writeReg_glb_narrow (b := 0x00C) (v := 0) rfl rfl]
  rfl

theorem wrLog_taken_begun (h : Takes s = true) (r : WrReq) : (wrLog (taken s 0x40 0x00C 1) r).glb.warmBegun = false := by
  rw [wrLog, audit_glb]
  exact (open_parts (takes_parts h).1).2.2

theorem exec_warmResetEntry (h : Live s = true) (hw : s.glb.warmBegun = true) :
    exec .warmResetEntry s = .next (settle (startUp (warmState s s.glb.warmBit true))) := by
  show execWarmResetEntry s = _
  simp only [execWarmResetEntry, liveRoot_next h, if_pos hw]

end

/-! Function-level resets (R49). -/

section
variable {s : State}

/-- A function-level reset of the physical function is a warm reset; one in progress takes the next with it. -/
theorem exec_flrRequest_manager (h : Live s = true) : exec (.flrRequest 0x40) s = .next (settle (
    if s.glb.pfFlr = true then s
    else warmBegin { s with glb := { s.glb with flrDone := s.glb.flrDone ++ [0x40], pfFlr := true } } 3)) := by
  show execFlrRequest 0x40 s = _
  simp only [execFlrRequest, liveRoot_next h, Config.fnManager, if_true]
  rfl

/-- One of a virtual function is answered at once outside READY or with its partition FREE. -/
theorem exec_flrRequest_answered {fn : Nat} (h : Live s = true) (hfn : fn < 64)
    (hc : isReady s = false ∨ (getPart s fn).st = .free) : exec (.flrRequest fn) s =
      .next (settle { s with glb := { s.glb with flrDone := s.glb.flrDone ++ [fn] } }) := by
  have hm : fn ≠ Config.fnManager := by unfold Config.fnManager; omega
  show execFlrRequest fn s = _
  rw [execFlrRequest, liveRoot_next h]
  dsimp only
  rw [if_neg hm, if_neg (Nat.not_le.mpr hfn)]
  rcases hc with hr | hst
  · rw [if_pos (by simp [hr])]
    rfl
  · simp only [hst, ite_self]
    rfl

/-- One of a virtual function whose partition is ACTIVE resets the partition. -/
theorem exec_flrRequest_active {fn : Nat} (h : Live s = true) (hfn : fn < 64) (hr : isReady s = true)
    (hst : (getPart s fn).st = .active) : exec (.flrRequest fn) s =
      .next (settle (enterPartReset (modGlb s fun g => { g with flr := insertNat g.flr fn }) fn true)) := by
  have hm : fn ≠ Config.fnManager := by unfold Config.fnManager; omega
  show execFlrRequest fn s = _
  rw [execFlrRequest, liveRoot_next h]
  dsimp only
  rw [if_neg hm, if_neg (Nat.not_le.mpr hfn), if_neg (by simp [hr])]
  simp only [hst]

end

/-- Settles O38: the four edges of the reset pins, then the resets that software and FLR begin. -/
theorem resets : Obligations.Resets := by
  refine ⟨fun s => ⟨?_, rfl, ?_, ?_⟩, ?_, ?_, ?_, ?_⟩
  · rintro tm t hpor rfl
    refine ⟨fun hr => ?_, fun hr => ?_, rfl, rfl, rfl⟩
    · rw [exec_porRelease tm hpor, if_neg (by simp [hr])]
    · rw [exec_porRelease tm hpor, if_pos hr]
  · rintro t hpor rfl
    exact ⟨exec_rstNAssert hpor, rfl, rfl, rfl, rfl, warmState_rstCause s (by decide) false, rfl, rfl, rfl, rfl, rfl, rfl⟩
  · rintro t hpor hr rfl
    exact ⟨exec_rstNRelease hpor hr, rfl, rfl, rfl, rfl⟩
  · rintro s t h rfl
    exact ⟨exec_warmReset h, warmBegin_begun .., warmBegin_bit 2 (wrLog_taken_begun h _)⟩
  · rintro s t h hw rfl
    exact ⟨exec_warmResetEntry h hw, rfl, rfl, rfl⟩
  · rintro s t h rfl
    refine ⟨fun hp => ?_, fun hp => ?_, warmBegin_begun .., warmBegin_flrDone .., fun hw => warmBegin_bit 3 hw⟩
    · rw [exec_flrRequest_manager h, if_neg (by simp [hp])]
    · rw [exec_flrRequest_manager h, if_pos hp]
  · exact fun s fn h hfn => ⟨exec_flrRequest_answered h hfn, exec_flrRequest_active h hfn⟩

end Sys2Proof.Proofs.Resets
end

