-- ==== Sys2Proof/Proofs/BringUp.lean ====
section
/-! Bring-up of agents, and the resets and faults that take them down (R50, R54, R60, R62, R75–R77, R80, R244). -/

namespace Sys2Proof.Proofs.BringUp
open Sys2Proof Sys2Proof.Machine Sys2Proof.Laws Sys2Proof.Proofs.Links

/-! The end of an agent's initialisation. -/

section
variable {s : State} {a : Nat}

/-- What an agent keeps when its initialisation ends with its fuse inputs not sampled before (R75, R80, R244). -/
def initDoneAgent (s : State) (mon : Option W32) (fuse : BitVec 256) (image : List Byte) (g : Agent) : Agent :=
  { g with
    initDone := true, initOk := mon.isSome && (fuseGood fuse || (s.glb.testPin && bitOf fuse 0))
    fuse := fuseShadow fuse (fuseGood fuse), fuseOk := fuseGood fuse, testLatched := s.glb.testPin && bitOf fuse 0
    latchSeen := true, monBase := mon.getD g.monBase, core := { g.core with imemA := imgWords 0 image } }

/-- The agent's IDLE flit has credits when all went well (R76, R77). -/
theorem exec_agentInitDone (mon : Option W32) (fuse : BitVec 256) (image : List Byte) (h : AgLive s a = true)
    (hi : (getAgent s a).initDone = false) (hl : (getAgent s a).latchSeen = false) :
    exec (.agentInitDone a mon fuse image) s = .next (settle (sampleStart
      (modLink (modAgent s a (initDoneAgent s mon fuse image)) a fun k => { k with
        upTx := { k.upTx with control := k.upTx.control ++
          [mkFlit 0 false a 0 0 (if mon.isSome && (fuseGood fuse || (s.glb.testPin && bitOf fuse 0)) then 32 else 0) 0] } })
      fun i => decide (256 ≤ i) && decide ((i - 256) / 32 = a))) := by
  show execAgentInitDone a mon fuse image s = _
  simp only [execAgentInitDone, liveAgent_next h, hi, hl, Bool.false_eq_true, if_false]
  rw [EventPort.modAgent_congr (g := initDoneAgent s mon fuse image)]
  rw [hl, if_neg Bool.false_ne_true, initDoneAgent]

end

/-! A port's link comes up. -/

section
variable {s : State} {a : Nat}

theorem exec_tideLinkUp_waits (h : Live s = true)
    (hg : (getAgent s a).running = false ∨ (getAgent s a).initDone = false ∨ (getAgent s a).initOk = false) :
    exec (.tideLinkUp a) s =
      .next (settle (modGlb s fun g => { g with portUp := insertNat g.portUp (portOf s a) })) := by
  show execTideLinkUp a s = _
  rw [execTideLinkUp, liveRoot_next h]
  refine congrArg (fun u => Host.Outcome.next (settle u)) (if_neg ?_)
  rintro ⟨hr, hd, ho⟩
  rcases hg with hg | hg | hg
  · exact Bool.false_ne_true (hg.symm.trans hr)
  · exact Bool.false_ne_true (hg.symm.trans hd)
  · exact Bool.false_ne_true (hg.symm.trans ho)

theorem exec_tideLinkUp_brings (h : Live s = true) (hr : (getAgent s a).running = true)
    (hd : (getAgent s a).initDone = true) (ho : (getAgent s a).initOk = true) : exec (.tideLinkUp a) s =
      .next (settle (bringLinkUp (modLink (modGlb s fun g => { g with portUp := insertNat g.portUp (portOf s a) }) a
        fun k => { k with idleIn := true }) a)) := by
  show execTideLinkUp a s = _
  rw [execTideLinkUp, liveRoot_next h]
  exact congrArg (fun u => Host.Outcome.next (settle u)) (if_pos ⟨hr, hd, ho⟩)

theorem mem_insertNat_self (l : List Nat) (x : Nat) : x ∈ insertNat l x := by
  induction l with
  | nil => simp [insertNat]
  | cons y t ih =>
    unfold insertNat
    split
    · exact List.mem_cons_self
    · split
      · rename_i hxy; rw [hxy]; exact List.mem_cons_self
      · exact List.mem_cons_of_mem y ih

theorem contains_insertNat_self (l : List Nat) (x : Nat) : (insertNat l x).contains x = true :=
  List.contains_iff_mem.mpr (mem_insertNat_self l x)

/-- Sending toward an agent leaves the agent's own sending end as it is. -/
theorem getLink_sendDown_upTx (s : State) (a b : Nat) (m : Msg) :
    (getLink (sendDown s a m) b).upTx = (getLink s b).upTx := by
  unfold sendDown pumpDown
  by_cases hb : a = b
  · subst hb
    rw [getLink_modLink_self, getLink_modLink_self]
    dsimp only
    split <;> rfl
  · rw [getLink_modLink_ne hb, getLink_modLink_ne hb]

/-- A register read of the Root's own takes one RTAG, and changes the links only by what it sends. -/
theorem rootRead_sends (s : State) (a off size use : Nat) : ∃ u m, rootRead s a off size use = sendDown u a m ∧
    u.links = s.links ∧ u.glb = s.glb ∧ u.port.nextRtag = (s.port.nextRtag + 1) % 256 :=
  ⟨_, _, rfl, rfl, rfl, rfl⟩

theorem rootRead_up (s : State) (a off size use b : Nat) :
    (getLink (rootRead s a off size use) b).up = (getLink s b).up := by
  obtain ⟨u, m, h, hl, -, -⟩ := rootRead_sends s a off size use
  rw [h, (sendDown_held u a m).up, getLink, hl, getLink]

theorem rootRead_upTx (s : State) (a off size use b : Nat) :
    (getLink (rootRead s a off size use) b).upTx = (getLink s b).upTx := by
  obtain ⟨u, m, h, hl, -, -⟩ := rootRead_sends s a off size use
  rw [h, getLink_sendDown_upTx, getLink, hl, getLink]

theorem rootRead_glb (s : State) (a off size use : Nat) : (rootRead s a off size use).glb = s.glb := by
  obtain ⟨u, m, h, -, hg, -⟩ := rootRead_sends s a off size use
  rw [h, sendDown_eq, hg]

theorem rootRead_nextRtag (s : State) (a off size use : Nat) :
    (rootRead s a off size use).port.nextRtag = (s.port.nextRtag + 1) % 256 := by
  obtain ⟨u, m, h, -, -, hr⟩ := rootRead_sends s a off size use
  rw [h, sendDown_eq, hr]

/-- The streams of an agent whose step 1 has what it waits for, before its identity is read (R77, R404). -/
def streamsStarted (s : State) (a : Nat) (b : Bring) : State :=
  modGlb (modLink s a fun k => {
    up := true, idleIn := true, downTx := { credits := 32 }, upTx := { credits := upCredits s a }
    upRx := { inbox := k.upRx.inbox, used := k.upRx.used } }) fun g => { g with bring := kput g.bring a { b with step := 3 } }

theorem bringLinkUp_ready {b : Bring} (hb : kget s.glb.bring a = some b) (hs : b.step = 1) (hr : linkReady s a = true) :
    bringLinkUp s a = rootRead (rootRead (streamsStarted s a b) a 0 2 2) a 4 2 3 := by
  rw [bringLinkUp]
  simp only [hb, hs, hr, ne_eq, not_true_eq_false, or_self, if_false]
  rfl

/-- The streams start with their credits, and the reads of the identity go out (R77). -/
theorem bringLinkUp_starts {b : Bring} (hb : kget s.glb.bring a = some b) (hs : b.step = 1) (hr : linkReady s a = true) :
    (getLink (bringLinkUp s a) a).up = true ∧ (getLink (bringLinkUp s a) a).upTx.credits = upCredits s a ∧
    kget (bringLinkUp s a).glb.bring a = some { b with step := 3 } ∧
    (bringLinkUp s a).port.nextRtag = (s.port.nextRtag + 2) % 256 := by
  have hlink : getLink (streamsStarted s a b) a = {
      up := true, idleIn := true, downTx := { credits := 32 }, upTx := { credits := upCredits s a }
      upRx := { inbox := (getLink s a).upRx.inbox, used := (getLink s a).upRx.used } } := by
    rw [streamsStarted, getLink, modGlb_links, ← getLink, getLink_modLink_self]
  have hbring : kget (streamsStarted s a b).glb.bring a = some { b with step := 3 } := kget_kput_self
  have htag : (streamsStarted s a b).port.nextRtag = s.port.nextRtag := rfl
  rw [bringLinkUp_ready hb hs hr]
  refine ⟨?_, ?_, ?_, ?_⟩
  · rw [rootRead_up, rootRead_up, hlink]
  · rw [rootRead_upTx, rootRead_upTx, hlink]
  · rw [rootRead_glb, rootRead_glb, hbring]
  · rw [rootRead_nextRtag, rootRead_nextRtag, htag]
    omega

theorem exec_bringupWaitTimeout {b : Bring} (h : Live s = true) (hb : kget s.glb.bring a = some b) (hs : b.step = 1) :
    exec (.bringupWaitTimeout a) s = .next (settle (bringFail s a 1)) := by
  show execBringupWaitTimeout a s = _
  simp only [execBringupWaitTimeout, liveRoot_next h, hb, if_pos (Or.inl hs : b.step = 1 ∨ b.readmit = true)]

end

/-! Resets of an agent and faults of its link. -/

section
variable {s : State} {a : Nat}

theorem exec_agentReset {c : Nat} (h : AgLive s a = true) (hh : downHead s a = some (.agentReset c)) :
    exec (.agentReset a) s = .next (settle (modLink
      (modAgent s a fun g => { resetAgent g true with rstCauseMsg := c }) a fun k => freshLink k)) := by
  show execAgentReset a s = _
  simp only [execAgentReset, liveAgent_next h, hh]

theorem getAgent_modLink (f : Link → Link) (b : Nat) : getAgent (modLink s a f) b = getAgent s b := rfl

theorem getLink_modAgent (f : Agent → Agent) (b : Nat) : getLink (modAgent s a f) b = getLink s b := rfl

theorem exec_tideLinkFault (h : Live s = true) : exec (.tideLinkFault a) s = .next (settle (portFall s (portOf s a))) :=
  liveRoot_next h fun s => portFall s (portOf s a)

theorem exec_agentSelfReset (h : Live s = true) : exec (.agentSelfReset a) s = .next (settle (
    if (getLink s a).up = true then
      modLink (linkFault (modAgent s a fun g => resetAgent g true) a) a fun k => { freshLink k with fault := true }
    else modLink (modAgent s a fun g => resetAgent g true) a fun k => { k with idleIn := false })) := by
  show execAgentSelfReset a s = _
  rw [execAgentSelfReset, liveRoot_next h]
  dsimp only
  rw [getLink_modAgent]

end

/-- Settles O40: an agent's initialisation, the rise of its port's link, the wait that runs out, then its resets and link faults. -/
theorem agentBringUp : Obligations.AgentBringUp := by
  refine ⟨⟨?_, ?_, ?_⟩, ?_, ?_, ?_⟩
  · rintro s t a ok good latched fuse mon image hl hi hs rfl rfl rfl rfl
    refine ⟨exec_agentInitDone mon fuse image hl hi hs, ?_, fun hgood hok => ?_, ?_⟩
    · rw [getAgent_modAgent_self]
    · rw [getAgent_modAgent_self]
      simp only [hgood, hok, Bool.true_or, Bool.and_self, fuseShadow, if_true, and_self]
    · rw [getAgent_modAgent_self]
  · rintro s t a hl rfl
    refine ⟨exec_tideLinkUp_waits hl, ?_⟩
    rintro hr hd ho u rfl
    refine ⟨exec_tideLinkUp_brings hl hr hd ho, fun b hb hs => ?_⟩
    refine bringLinkUp_starts hb hs ?_
    rw [linkReady, getLink_modLink_self, Bool.and_true]
    exact contains_insertNat_self _ _
  · exact fun s a b hl hb hs => exec_bringupWaitTimeout hl hb hs
  · rintro s t a c hl hh rfl
    refine ⟨exec_agentReset hl hh, ?_, ?_, ?_⟩
    · rw [getAgent_modLink, getAgent_modAgent_self]
    · rw [getLink_modLink_self, freshLink]
    · rw [getLink_modLink_self, freshLink]
  · exact fun s a hl => exec_tideLinkFault hl
  · rintro s t a hl rfl
    refine ⟨getAgent_modAgent_self, fun hup => ?_, fun hup => ?_⟩
    · rw [exec_agentSelfReset hl, if_pos hup]
    · rw [exec_agentSelfReset hl, if_neg (by simp [hup])]

end Sys2Proof.Proofs.BringUp
end

