-- ==== Sys2Proof/Proofs/AdminRows.lean ====
section
/-! The executor's turn on an admin command (R92, R96, R98, R99): what its row comes to, and what stays as it was while the command
enters flight. -/

namespace Sys2Proof.Proofs.AdminRows
open Sys2Proof Sys2Proof.Machine Sys2Proof.Laws

section
variable (s : State) (q : Nat) (pkt : W512) (k : Nat)

/-! A command that enters flight changes the admin queues alone. -/

@[simp] theorem getQueue_flown : getQueue (Flown s q pkt) k = getQueue s k := rfl
@[simp] theorem getPart_flown : getPart (Flown s q pkt) k = getPart s k := rfl
@[simp] theorem getGctx_flown : getGctx (Flown s q pkt) k = getGctx s k := rfl
@[simp] theorem getArena_flown : getArena (Flown s q pkt) k = getArena s k := rfl
@[simp] theorem partQueues_flown : partQueues (Flown s q pkt) k = partQueues s k := rfl
@[simp] theorem partCtxs_flown : partCtxs (Flown s q pkt) k = partCtxs s k := rfl
@[simp] theorem liveParts_flown : liveParts (Flown s q pkt) = liveParts s := rfl
@[simp] theorem poolBreach_flown (x : Part) : poolBreach (Flown s q pkt) x = poolBreach s x := rfl
@[simp] theorem outstanding_flown : outstanding (Flown s q pkt) k = outstanding s k := rfl
@[simp] theorem ctxPins_flown : ctxPins (Flown s q pkt) k = ctxPins s k := rfl
@[simp] theorem gctxOwner_flown : gctxOwner (Flown s q pkt) k = gctxOwner s k := rfl
@[simp] theorem flagOwner_flown (p : Nat) : flagOwner (Flown s q pkt) p k = flagOwner s p k := rfl
@[simp] theorem flagInRange_flown (p : Nat) : flagInRange (Flown s q pkt) p k = flagInRange s p k := rfl
@[simp] theorem armedOn_flown (p : Nat) : armedOn (Flown s q pkt) p k = armedOn s p k := rfl
@[simp] theorem outsideShare_flown : outsideShare (Flown s q pkt) q pkt = outsideShare s q pkt := rfl
@[simp] theorem save_flown : (Flown s q pkt).save = s.save := rfl

end

section
variable {s : State} {op q : Nat} {pkt : W512}

/-- The executor's turn ends in what its opcode's operation makes of the state in which the command is in flight. -/
theorem admRow_next {t : State} (h : AdmTurn s op q pkt = true)
    (ht : admCheck q pkt = none → pktOp pkt = op → admPerform (Flown s q pkt) q pkt [] = t) :
    liveRoot s (fun s => admDirect s op q pkt []) = .next (settle t) := by
  obtain ⟨-, -, -, -, ho, hc⟩ := admTurn_parts h
  rw [admDirect_next h, ht hc ho]

theorem admTakes_parts (h : AdmTakes s op q pkt = true) : AdmTurn s op q pkt = true ∧ s.glb.frozen = false ∧
    outsideShare s q pkt = false ∧ (64 ≤ q ∨ (getPart s q).st ≠ .halted ∧ (getPart s q).st ≠ .resetting) := by
  simp only [AdmTakes, Bool.and_eq_true, Bool.not_eq_true', Bool.or_eq_true, decide_eq_true_eq] at h
  obtain ⟨⟨⟨ht, hf⟩, ho⟩, hp⟩ := h
  exact ⟨ht, hf, ho, hp⟩

theorem admTakes_turn (h : AdmTakes s op q pkt = true) : AdmTurn s op q pkt = true := by
  obtain ⟨ht, -, -, -⟩ := admTakes_parts h
  exact ht

theorem admTakes_share (h : AdmTakes s op q pkt = true) : outsideShare s q pkt = false := by
  obtain ⟨-, -, ho, -⟩ := admTakes_parts h
  exact ho

theorem admPlain_parts (h : AdmPlain s op q pkt = true) :
    AdmTakes s op q pkt = true ∧ objBad pkt = false ∧ badField pkt [] [] = none := by
  simp only [AdmPlain, Bool.and_eq_true, Bool.not_eq_true', decide_eq_true_eq] at h
  obtain ⟨⟨ht, ho⟩, hb⟩ := h
  exact ⟨ht, ho, hb⟩

theorem admPlain_turn (h : AdmPlain s op q pkt = true) : AdmTurn s op q pkt = true := by
  obtain ⟨ht, -, -⟩ := admPlain_parts h
  exact admTakes_turn ht

/-- The checks of the issuer's state pass (R96, R452). -/
theorem stateGate_flown {k : State → State} (h : AdmTakes s op q pkt = true) :
    stateGate (Flown s q pkt) q pkt k = k (Flown s q pkt) := by
  obtain ⟨-, hf, -, hp⟩ := admTakes_parts h
  exact stateGate_ok hf hp

/-- A command whose only operand is its object comes to its own table row (R96). -/
theorem plainOp_flown {k : State → State} (h : AdmPlain s op q pkt = true) :
    plainOp (Flown s q pkt) q pkt k = k (Flown s q pkt) := by
  obtain ⟨ht, ho, hb⟩ := admPlain_parts h
  simp only [plainOp, outsideShare_flown, admTakes_share ht, ho, hb, stateGate_flown ht, Bool.false_eq_true, if_false]

end
end Sys2Proof.Proofs.AdminRows
end

