-- ==== Sys2Proof/Proofs/AdminQueues.lean ====
section
/-! NOP, QUERY and the commands on host queues (R92, R95, R103). -/

namespace Sys2Proof.Proofs.AdminQueues
open Sys2Proof Sys2Proof.Machine Sys2Proof.Laws Sys2Proof.Proofs.AdminRows

section
variable {s : State} {q : Nat} {pkt : W512}

theorem exec_nop (h : AdmTurn s 0 q pkt = true) (hb : badField pkt [] [] = none) :
    exec (.nop q pkt) s = .next (settle (admReply (Flown s q pkt) q pkt stOk 0xFF 0)) :=
  admRow_next h fun hc ho => by simp only [admPerform, hc, ho, opNop, hb]

theorem exec_query (h : AdmTurn s 1 q pkt = true) (hclass : pktB pkt 8 1 ≤ 3) (hfar : flagFar pkt = false)
    (hshare : outsideShare s q pkt = false) (hobj : objBad pkt = false) (hb : badField pkt [(64, 8)] [] = none) :
    exec (.query q pkt) s = .next (settle (admReply (Flown s q pkt) q pkt stOk (objState (Flown s q pkt) q pkt)
      (queryDetail (Flown s q pkt) q pkt))) :=
  admRow_next h fun hc ho => by
    simp only [admPerform, hc, ho, opQuery, Nat.not_lt.mpr hclass, hfar, outsideShare_flown, hshare, hobj, hb,
      Bool.false_eq_true, if_false]

/-- The queue that Q_CREATE makes of its packet (R94, R103); what it moved before stays counted. -/
def createdQueue (s : State) (pkt : W512) : Queue :=
  setSched pkt {
    st := .created, owner := fld pkt 144 6, ringBase := BitVec.ofNat 64 (pktB pkt 8 8), log2 := pktB pkt 16 1
    ringLoc := bitOf pkt 138, moved := (getQueue s (pktObj pkt)).moved }

/-- The ranges of the fields that Q_CREATE has beside the scheduling fields (R94). -/
def createRanges (s : State) (pkt : W512) : List (Bool × Nat) :=
  [(decide (4096 ≤ pktObj pkt), 4), (decide (pktB pkt 8 8 % 64 ≠ 0), 8),
    (decide (pktB pkt 16 1 < 4) || decide (16 < pktB pkt 16 1), 16), (decide ((getPart s (fld pkt 144 6)).st = .free), 18)]

theorem getQueue_tput_self (u : State) (t : Tbl Queue) (k : Nat) (x : Queue) :
    getQueue { u with queues := tput {} t k x } k = x := tget_tput_self

theorem exec_qCreate (h : AdmTakes s 0x20 0x40 pkt = true) (hst : (getQueue s (pktObj pkt)).st = .unused)
    (hroom : (partQueues s (fld pkt 144 6)).length < (getPart s (fld pkt 144 6)).queueLimit)
    (hb : badField pkt queueFields (createRanges s pkt ++ queueRanges pkt) = none) :
    exec (.qCreate 0x40 pkt) s = .next (settle (admOk
      { Flown s 0x40 pkt with queues := tput {} s.queues (pktObj pkt) (createdQueue s pkt) } 0x40 pkt 0x01 0)) :=
  admRow_next (admTakes_turn h) fun hc ho => by
    have hfields : badField pkt queueFields (createRanges (Flown s 0x40 pkt) pkt ++ queueRanges pkt) = none := hb
    simp only [createRanges] at hfields
    simp only [admPerform, hc, ho, opQCreate, hfields, stateGate_flown h]
    simp only [getQueue_flown, getPart_flown, partQueues_flown, hst, Nat.not_le.mpr hroom, ne_self_iff_false, if_false]
    rfl

theorem exec_qEnable (h : AdmPlain s 0x21 q pkt = true)
    (hst : (getQueue s (pktObj pkt)).st = .created ∨ (getQueue s (pktObj pkt)).st = .idle) :
    exec (.qEnable q pkt) s = .next (settle (admOk
      (modQueue (Flown s q pkt) (pktObj pkt) fun x => { x with st := .enabled }) q pkt 0x02 0)) :=
  admRow_next (admPlain_turn h) fun hc ho => by
    rcases hst with hst | hst <;> simp only [admPerform, hc, ho, opQEnable, plainOp_flown h, getQueue_flown, hst]

/-- Q_DISABLE of an ENABLED queue: whether launches are outstanding decides (R103). -/
theorem exec_qDisable (h : AdmPlain s 0x22 q pkt = true) (hst : (getQueue s (pktObj pkt)).st = .enabled) :
    exec (.qDisable q pkt) s = .next (settle (if outstanding s (pktObj pkt) = 0
      then admOk (enterIdle (Flown s q pkt) (pktObj pkt)) q pkt 0x04 0
      else admOk (modQueue (Flown s q pkt) (pktObj pkt) fun x => { x with st := .draining, drainLate := false })
        q pkt 0x03 0)) :=
  admRow_next (admPlain_turn h) fun hc ho => by
    simp only [admPerform, hc, ho, opQDisable, plainOp_flown h, getQueue_flown, outstanding_flown, hst]
    rfl

theorem exec_qDestroy (h : AdmPlain s 0x23 q pkt = true) (hst : (getQueue s (pktObj pkt)).st = .idle) :
    exec (.qDestroy q pkt) s = .next (settle (admReply (admAudit (enterUnused (Flown s q pkt) (pktObj pkt)) q pkt false
      stOk 0x00 (unfetched (getQueue s (pktObj pkt)))) q pkt stOk 0x00 0)) :=
  admRow_next (admPlain_turn h) fun hc ho => by
    simp only [admPerform, hc, ho, opQDestroy, plainOp_flown h, getQueue_flown, hst]

theorem exec_qReset (h : AdmPlain s 0x24 q pkt = true)
    (hst : (getQueue s (pktObj pkt)).st = .enabled ∨ (getQueue s (pktObj pkt)).st = .halted) :
    exec (.qReset q pkt) s = .next (settle (admOk (enterResetting (Flown s q pkt) (pktObj pkt) false) q pkt 0x06 0)) :=
  admRow_next (admPlain_turn h) fun hc ho => by
    rcases hst with hst | hst <;> simp only [admPerform, hc, ho, opQReset, plainOp_flown h, getQueue_flown, hst]

theorem exec_qModify (h : AdmTakes s 0x25 q pkt = true)
    (hb : badField pkt queueFields ((objBad pkt, 4) :: queueRanges pkt) = none)
    (hst : (getQueue s (pktObj pkt)).st = .enabled) :
    exec (.qModify q pkt) s = .next (settle (admOk
      (modQueue (Flown s q pkt) (pktObj pkt) (setSched pkt)) q pkt 0x02 0)) :=
  admRow_next (admTakes_turn h) fun hc ho => by
    simp only [admPerform, hc, ho, opQModify, outsideShare_flown, admTakes_share h, hb, stateGate_flown h, getQueue_flown,
      hst, qCode, Bool.false_eq_true, if_false]

end

/-- Settles O33: the row of each command, with the state of its queue as R103 asks. -/
theorem adminQueues : Obligations.AdminQueues := by
  refine ⟨fun s q pkt => ⟨exec_nop, exec_query⟩, ?_⟩
  rintro s q pkt k owner rfl rfl
  refine ⟨?_, exec_qEnable, fun h hst => ⟨fun h0 => ?_, fun h0 => ?_⟩, exec_qDestroy, exec_qReset, exec_qModify⟩
  · rintro bad h hst hroom rfl hb u x rfl rfl
    exact ⟨exec_qCreate h hst hroom hb, getQueue_tput_self .., rfl, rfl, rfl, rfl⟩
  · rw [exec_qDisable h hst, if_pos h0]
  · rw [exec_qDisable h hst, if_neg h0]

end Sys2Proof.Proofs.AdminQueues
end

