-- ==== Sys2Proof/Proofs/AdminPartitions.lean ====
section
/-! The commands on partitions (R102), and a resetting partition that becomes FREE (R102, R472). -/

namespace Sys2Proof.Proofs.AdminPartitions
open Sys2Proof Sys2Proof.Machine Sys2Proof.Laws Sys2Proof.Proofs.AdminRows

section
variable {s : State} {q p : Nat} {pkt : W512}

/-- The ranges of the fields of PART_CREATE (R93). -/
def partRanges (s : State) (pkt : W512) : List (Bool × Nat) :=
  [(decide (64 ≤ pktObj pkt), 4),
    ((liveParts s).any (fun y => y.1 != pktObj pkt && y.2.pasid == (partOfPkt pkt).pasid), 8),
    (decide ((partOfPkt pkt).queueLimit = 0) || decide (4096 < (partOfPkt pkt).queueLimit), 12),
    (decide ((partOfPkt pkt).engineShare = 0), 14), (decide ((partOfPkt pkt).sluiceShare = 0), 15),
    (decide (65536 < (partOfPkt pkt).flagBase + (partOfPkt pkt).flagCount), 20),
    (decide (1024 < (partOfPkt pkt).gctxBase + (partOfPkt pkt).gctxCount), 26),
    (decide (2 ^ 20 < (partOfPkt pkt).htabEntries), 28), (decide ((partOfPkt pkt).htabBase.toNat % 4096 ≠ 0), 32),
    (decide (16384 < (partOfPkt pkt).waitLimit), 40), (decide (4096 < (partOfPkt pkt).basinLimit), 42)]

theorem exec_partCreate (h : AdmTakes s 0x10 0x40 pkt = true) (hst : (getPart s (pktObj pkt)).st = .free)
    (hpool : poolBreach s (partOfPkt pkt) = none) (hb : badField pkt partFields (partRanges s pkt) = none) :
    exec (.partCreate 0x40 pkt) s =
      .next (settle (admOk (createPart (Flown s 0x40 pkt) (pktObj pkt) (partOfPkt pkt)) 0x40 pkt 0x11 0)) :=
  admRow_next (admTakes_turn h) fun hc ho => by
    simp only [partRanges] at hb
    simp only [admPerform, hc, ho, opPartCreate, liveParts_flown, hb, stateGate_flown h, getPart_flown, hst,
      poolBreach_flown, hpool, ne_self_iff_false, if_false]

@[simp] theorem getPart_createPart (s : State) (p : Nat) (x : Part) : getPart (createPart s p x) p = x := tget_tput_self

/-- The partition that is activated, its cached root words dropped (R102, R382). -/
def activated (s : State) (p : Nat) : State :=
  let t := modPart s p fun x => { x with st := .active }
  { t with attn := { t.attn with roots := t.attn.roots.filter (fun r => r.1 / 65536 != p) } }

theorem getPart_activated (s : State) (p : Nat) : getPart (activated s p) p = { getPart s p with st := .active } := by
  show getPart (modPart s p fun x => { x with st := .active }) p = _
  rw [getPart_modPart_self]

theorem activated_roots (s : State) (p : Nat) : ∀ r ∈ (activated s p).attn.roots, r.1 / 65536 ≠ p := fun r hr => by
  simpa using (List.mem_filter.mp hr).2

theorem exec_partActivate (h : AdmPlain s 0x11 0x40 pkt = true) (hst : (getPart s (pktObj pkt)).st = .maint) :
    exec (.partActivate 0x40 pkt) s = .next (settle (admOk
      (pstatSet (activated (Flown s 0x40 pkt) (pktObj pkt)) (pktObj pkt) 2) 0x40 pkt 0x12 0)) :=
  admRow_next (admPlain_turn h) fun hc ho => by
    simp only [admPerform, hc, ho, opPartActivate, plainOp_flown h, getPart_flown, hst, ne_self_iff_false, if_false,
      activated]

theorem exec_partMaint (h : AdmPlain s 0x12 0x40 pkt = true) (hst : (getPart s (pktObj pkt)).st = .halted) :
    exec (.partMaint 0x40 pkt) s = .next (settle (admOk (pstatSet
      (modPart (Flown s 0x40 pkt) (pktObj pkt) fun x => { x with st := .maint }) (pktObj pkt) 1) 0x40 pkt 0x11 0)) :=
  admRow_next (admPlain_turn h) fun hc ho => by
    simp only [admPerform, hc, ho, opPartMaint, plainOp_flown h, getPart_flown, hst]

theorem exec_partHalt (h : AdmPlain s 0x13 0x40 pkt = true) (hst : (getPart s (pktObj pkt)).st = .active) :
    exec (.partHalt 0x40 pkt) s =
      .next (settle (admOk (haltPart (Flown s 0x40 pkt) (pktObj pkt) false 0) 0x40 pkt 0x13 0)) :=
  admRow_next (admPlain_turn h) fun hc ho => by
    simp only [admPerform, hc, ho, opPartHalt, plainOp_flown h, getPart_flown, hst]

theorem exec_partDestroy (h : AdmPlain s 0x14 0x40 pkt = true) (hst : (getPart s (pktObj pkt)).st = .maint)
    (hq : partQueues s (pktObj pkt) = []) (hctx : partCtxs s (pktObj pkt) = []) : exec (.partDestroy 0x40 pkt) s =
      .next (settle (admOk (freePart (Flown s 0x40 pkt) (pktObj pkt)) 0x40 pkt 0x10 0)) :=
  admRow_next (admPlain_turn h) fun hc ho => by
    simp only [admPerform, hc, ho, opPartDestroy, plainOp_flown h, getPart_flown, hst, partQueues_flown, hq,
      partCtxs_flown, hctx, List.length_nil, Nat.add_zero, ne_self_iff_false, if_false]

theorem exec_partReset (h : AdmPlain s 0x15 0x40 pkt = true) (hst : (getPart s (pktObj pkt)).st = .active) :
    exec (.partReset 0x40 pkt) s = .next (settle (enterPartReset (Flown s 0x40 pkt) (pktObj pkt) false)) :=
  admRow_next (admPlain_turn h) fun hc ho => by
    simp only [admPerform, hc, ho, opPartReset, plainOp_flown h, getPart_flown, hst]

/-- Clearing vectors changes the event port alone (R476). -/
theorem foldl_clearVec_parts (f : Nat → Nat) (l : List Nat) (s : State) :
    (l.foldl (fun s n => clearVec s (f n)) s).parts = s.parts := by
  induction l generalizing s with
  | nil => rfl
  | cons n l ih => rw [List.foldl_cons, ih]; rfl

theorem freePart_parts (s : State) (p : Nat) : (freePart s p).parts = tput {} s.parts p {} := by
  rw [freePart, foldl_clearVec_parts]

/-- A partition that reaches FREE is as at reset (R102). -/
theorem getPart_freePart (s : State) (p : Nat) : getPart (freePart s p) p = {} := by
  rw [getPart, freePart_parts, tget_tput_self]

theorem exec_partitionReachesFree (h : Live s = true) (hst : (getPart s p).st = .resetting)
    (hq : partQueues (freeUnpinned s p) p = []) (hctx : partCtxs (freeUnpinned s p) p = [])
    (hflr : (getPart (freeUnpinned s p) p).flr = false) : exec (.partitionReachesFree p) s = .next (settle
      (replyAll (freePart (freeUnpinned s p) p) 0x15 p 0x10 (getPart (freeUnpinned s p) p).lost)) := by
  show execPartitionReachesFree p s = _
  simp only [execPartitionReachesFree, liveRoot_next h, partitionFree, hst, hq, hctx, hflr, List.isEmpty_nil,
    ne_self_iff_false, not_true_eq_false, or_self, Bool.false_eq_true, if_false]

end

/-- Settles O34: the row of each command with the state of its partition as R102 asks, and the end of a reset. -/
theorem adminPartitions : Obligations.AdminPartitions := by
  refine ⟨?_, fun s p h hst hq hctx hflr => ⟨exec_partitionReachesFree h hst hq hctx hflr, getPart_freePart ..⟩⟩
  rintro s pkt p rfl
  refine ⟨?_, ?_, exec_partMaint, exec_partHalt, exec_partDestroy, exec_partReset⟩
  · rintro bad h hst hpool hb - rfl
    exact ⟨exec_partCreate h hst hpool hb, getPart_createPart .., rfl⟩
  · rintro h hst t u rfl rfl
    exact ⟨exec_partActivate h hst, getPart_activated .., activated_roots _ _⟩

end Sys2Proof.Proofs.AdminPartitions
end

