-- ==== Sys2Proof/Proofs/AdminGraphs.lean ====
section
/-! The commands on graph contexts, flags and the handle cache (R104, R105, R144, R146, R203, R324). -/

namespace Sys2Proof.Proofs.AdminGraphs
open Sys2Proof Sys2Proof.Machine Sys2Proof.Laws Sys2Proof.Proofs.AdminRows

/-! Graph contexts. -/

section
variable {s : State} {op q p : Nat} {pkt : W512}

/-- The fields of G_LOAD and G_PATCH are in range (R95). -/
def imageFieldsOk (pkt : W512) : Prop :=
  badField pkt [(64, 64), (128, 32)] [(objBad pkt, 4), (decide (pktB pkt 8 8 % 64 ≠ 0), 8),
    (decide (pktB pkt 16 4 < 64) || decide (2 ^ 24 < pktB pkt 16 4), 16)] = none

/-- A command with an image comes to its own table row (R96). -/
theorem imageOp_flown {k : State → State} (h : AdmTakes s op q pkt = true) (hb : imageFieldsOk pkt) :
    imageOp (Flown s q pkt) q pkt k = k (Flown s q pkt) := by
  simp only [imageFieldsOk] at hb
  simp only [imageOp, outsideShare_flown, admTakes_share h, hb, stateGate_flown h, Bool.false_eq_true, if_false]

/-- Iznum's queue with one more job (R324). -/
def izJoin (s : State) (j : Job) : State := { s with iz := { s.iz with queue := s.iz.queue ++ [j] } }

@[simp] theorem getGctx_izJoin (s : State) (j : Job) (c : Nat) : getGctx (izJoin s j) c = getGctx s c := rfl

/-- The context that G_LOAD leaves LOADING, with its partition (R104). -/
theorem getGctx_loading (s : State) (c p : Nat) (j : Job) :
    getGctx (izJoin (modGctx s c fun g => { g with st := 1, owner := p }) j) c = { getGctx s c with st := 1, owner := p } := by
  rw [getGctx_izJoin, getGctx_modGctx_self]

theorem exec_gLoad (h : AdmTakes s 0x30 q pkt = true) (hb : imageFieldsOk pkt)
    (hown : gctxOwner s (pktObj pkt) = some p) (hst : (getGctx s (pktObj pkt)).st = 0) (hslots : s.save.slots ≠ 0)
    (harena : (getArena s p).size ≠ 0) : exec (.gLoad q pkt) s = .next (settle (izJoin
      (modGctx (Flown s q pkt) (pktObj pkt) (fun g => { g with st := 1, owner := p }))
      { q := q, pkt := pkt, part := p, gctx := pktObj pkt, patch := false })) :=
  admRow_next (admTakes_turn h) fun hc ho => by
    simp only [admPerform, hc, ho, opGLoad, imageOp_flown h hb, getGctx_flown, hst, gctxOwner_flown, hown, save_flown,
      hslots, getArena_flown, harena, ne_self_iff_false, or_self, if_false, izJoin]

theorem exec_gPatch (h : AdmTakes s 0x31 q pkt = true) (hb : imageFieldsOk pkt) (hst : (getGctx s (pktObj pkt)).st = 2)
    (hgens : (getGctx s (pktObj pkt)).gens.length < 4) : exec (.gPatch q pkt) s = .next (settle (izJoin (Flown s q pkt)
      { q := q, pkt := pkt, part := (getGctx s (pktObj pkt)).owner, gctx := pktObj pkt, patch := true })) :=
  admRow_next (admTakes_turn h) fun hc ho => by
    simp only [admPerform, hc, ho, opGPatch, imageOp_flown h hb, getGctx_flown, hst, Nat.not_le.mpr hgens,
      ne_self_iff_false, if_false, izJoin]

theorem exec_gUnload (h : AdmPlain s 0x32 q pkt = true) (hst : (getGctx s (pktObj pkt)).st = 2)
    (hpins : ctxPins s (pktObj pkt) = 0) :
    exec (.gUnload q pkt) s = .next (settle (admOk (freeGctx (Flown s q pkt) (pktObj pkt)) q pkt 0x20 0)) :=
  admRow_next (admPlain_turn h) fun hc ho => by
    simp only [admPerform, hc, ho, opGUnload, plainOp_flown h, getGctx_flown, hst, ctxPins_flown, hpins,
      ne_self_iff_false, if_false]

end

/-! Flags and handles. -/

section
variable {s : State} {q : Nat} {pkt : W512}

/-- A handle of space 0 is not of spaces 2 and 3. -/
theorem flagFar_of_lt (h : pktObj pkt < 2 ^ 30) : flagFar pkt = false := by
  have hlt : ¬ 2 ^ 31 ≤ pktObj pkt := by omega
  simp only [flagFar, hlt, decide_false, Bool.and_false]

theorem exec_fCreate {o : Queue} (h : AdmTakes s 0x40 q pkt = true) (ho : o = getQueue s (fld pkt 128 12))
    (hst : o.st ≠ .unused) (howner : 64 ≤ q ∨ o.owner = q) (hspace : pktObj pkt < 2 ^ 30)
    (hrange : flagInRange s o.owner (pktObj pkt) = true) (hb : badField pkt [(64, 62), (128, 12)] [(objBad pkt, 4)] = none)
    (hfree : flagOwner s o.owner (pktObj pkt) = none) : exec (.fCreate q pkt) s = .next (settle (admOk
      (setFlagWord (modWeir (Flown s q pkt) fun w =>
        { w with owners := tput 0 w.owners (ownKey o.owner (pktObj pkt)) (fld pkt 128 12 + 1) })
        o.owner (pktObj pkt) (fld pkt 64 62)) q pkt 0x31 0)) :=
  admRow_next (admTakes_turn h) fun hc hop => by
    have hzero : pktObj pkt / 2 ^ 30 = 0 := Nat.div_eq_of_lt hspace
    have hmine : ¬ (q < 64 ∧ o.owner ≠ q) := by omega
    simp only [admPerform, hc, hop, opFCreate, getQueue_flown, ← ho, flagFar_of_lt hspace, hst, hmine, hzero,
      flagInRange_flown, hrange, hb, stateGate_flown h, flagOwner_flown, hfree, Bool.not_true, Option.isSome_none,
      Nat.zero_ne_one, Bool.false_eq_true, false_and, or_self, if_true, if_false]

theorem exec_fDestroy {p : Nat} (h : AdmPlain s 0x41 q pkt = true) (hfar : flagFar pkt = false)
    (hp : p = flagPart (Flown s q pkt) q pkt) (howned : (flagOwner s p (pktObj pkt)).isSome = true)
    (harmed : armedOn s p (pktObj pkt) = 0) : exec (.fDestroy q pkt) s = .next (settle (admOk
      (modWeir (Flown s q pkt) fun w => { w with owners := tput 0 w.owners (ownKey p (pktObj pkt)) 0 }) q pkt 0x30 0)) :=
  admRow_next (admPlain_turn h) fun hc ho => by
    have hsome : (flagOwner s p (pktObj pkt)).isNone = false := by rw [Option.isNone_eq_false_iff]; exact howned
    simp only [admPerform, hc, ho, opFDestroy, hfar, plainOp_flown h, ← hp, flagOwner_flown, hsome, armedOn_flown, harmed,
      ne_self_iff_false, Bool.false_eq_true, if_false]

/-- The partition whose handles H_INVAL names (R95). -/
def invalPart (q : Nat) (pkt : W512) : Nat := if q < 64 then q else fld pkt 96 6

/-- The keys of the handle cache that H_INVAL covers (R146). -/
def invalHit (q : Nat) (pkt : W512) (k : Nat) : Bool :=
  k / 2 ^ 20 == invalPart q pkt && decide (invalPart q pkt * 2 ^ 20 + pktObj pkt ≤ k) &&
    decide (k < invalPart q pkt * 2 ^ 20 + pktObj pkt + fld pkt 64 21)

/-- The handle cache without the entries that a test picks (R144, R146). -/
def dropHandles (s : State) (hit : Nat → Bool) : State :=
  { s with hcache := staleFills { s.hcache with lines := s.hcache.lines.filter (fun x => !hit x.1) } hit }

theorem dropHandles_lines (s : State) (hit : Nat → Bool) : ∀ x ∈ (dropHandles s hit).hcache.lines, hit x.1 = false :=
  fun x hx => by simpa using (List.mem_filter.mp hx).2

/-- A fill under way of an entry dropped is stale. -/
theorem dropHandles_filling (s : State) (hit : Nat → Bool) :
    ∀ f ∈ (dropHandles s hit).hcache.filling, hit f.key = true → f.stale = true := by
  intro f hf hkey
  obtain ⟨g, -, rfl⟩ := List.mem_map.mp hf
  by_cases hg : hit g.key = true
  · rw [if_pos hg]
  · rw [if_neg hg] at hkey
    exact absurd hkey hg

/-- The ranges of the fields of H_INVAL (R95). -/
def invalRanges (s : State) (q : Nat) (pkt : W512) : List (Bool × Nat) :=
  [(objBad pkt, 4), (decide (fld pkt 64 21 = 0) || decide (2 ^ 20 < fld pkt 64 21), 8),
    (if q < 64 then decide (fld pkt 96 6 ≠ 0) else decide ((getPart s (fld pkt 96 6)).st = .free), 12)]

theorem exec_hInval (h : AdmTakes s 0x48 q pkt = true)
    (hb : badField pkt [(64, 21), (96, 6)] (invalRanges s q pkt) = none) :
    exec (.hInval q pkt) s = .next (settle (admOk (dropHandles (Flown s q pkt) (invalHit q pkt)) q pkt 0xFF 0)) :=
  admRow_next (admTakes_turn h) fun hc ho => by
    have hfields : badField pkt [(64, 21), (96, 6)] (invalRanges (Flown s q pkt) q pkt) = none := hb
    simp only [invalRanges] at hfields
    simp only [admPerform, hc, ho, opHInval, outsideShare_flown, admTakes_share h, hfields, stateGate_flown h,
      Bool.false_eq_true, if_false]
    rfl

end

/-- Settles O35: graph contexts, then flags and the handle cache. -/
theorem adminGraphsAndFlags : Obligations.AdminGraphsAndFlags := by
  refine ⟨?_, fun s q pkt => ⟨?_, ?_, ?_⟩⟩
  · rintro s q p pkt c rfl
    refine ⟨?_, ?_, exec_gUnload⟩
    · rintro h hb hown hst hslots harena t u rfl rfl
      exact ⟨exec_gLoad h hb hown hst hslots harena, getGctx_loading .., rfl⟩
    · rintro h hb rfl hst hgens
      exact exec_gPatch h hb hst hgens
  · rintro k o h rfl ho hst howner hspace hrange hb hfree
    exact exec_fCreate h ho hst howner hspace hrange hb hfree
  · rintro p h hfar hp howned harmed
    exact exec_fDestroy h hfar hp howned harmed
  · rintro p h rfl hb hit u rfl rfl
    exact ⟨exec_hInval h hb, dropHandles_lines (Flown s q pkt) (invalHit q pkt),
      dropHandles_filling (Flown s q pkt) (invalHit q pkt)⟩

end Sys2Proof.Proofs.AdminGraphs
end

