-- ==== Sys2Proof/Proofs/ManagerWrites.lean ====
section
/-! 32-bit writes of the manager at the subordinate port while the block is open: what reaches the register (R39–R42). -/

namespace Sys2Proof.Proofs.ManagerWrites
open Sys2Proof Sys2Proof.Machine Sys2Proof.Laws Sys2Proof.Proofs.PortAccess Sys2Proof.Proofs.Resets

/-- Regions whose registers the manager may all write (R42). -/
def regRegion : Rg → Bool
  | .glb | .adm | .sch | .out | .watch | .log | .xing | .stew | .basin | .test => true
  | _ => false

section
variable {s : State} {g : Rg} {o addr : Nat} {d : W32} {ext : W64} {flag : Bool}

theorem takes_live (h : Takes s = true) : Live s = true := by
  obtain ⟨ho, -⟩ := takes_parts h
  obtain ⟨hl, -, -⟩ := open_parts ho
  exact hl

theorem takes_ready (h : Takes s = true) : isReady s = true := by
  obtain ⟨ho, -⟩ := takes_parts h
  obtain ⟨-, hr, -⟩ := open_parts ho
  exact hr

/-- The word at an aligned offset belongs to the register that stands there (R6). -/
theorem regHolding_of_regAt {v : Nat} (ho : o % 4 = 0) (h : regAt s g o = some (false, v)) :
    regHolding s g o = some (o, false, v) := by
  have hword : o / 4 * 4 = o := by omega
  simp only [regHolding, hword, h]

/-- The write data of a 32-bit write, as its register sees it. -/
theorem wr32_data (fn addr : Nat) (d : W32) : (wr32 fn addr d).data.toNat % 2 ^ 32 = d.toNat := by
  show (d.setWidth 128).toNat % 2 ^ 32 = d.toNat
  rw [BitVec.toNat_setWidth, Nat.mod_eq_of_lt (a := d.toNat) (by omega)]
  omega

theorem shaped_wr32 {fn : Nat} (h : addr % 4 = 0) : shaped (wr32 fn addr d) 4 = true := by
  simp [shaped, wr32, h]

/-- A 32-bit write of a 32-bit register acts on it and is answered with 0 (R6, R40). -/
theorem writeReg_narrow {fn v : Nat} (hg : regRegion g = true) (ha : addr % 4 = 0) (ho : o % 4 = 0) (hle : o ≤ addr)
    (h : regAt s g o = some (false, v)) : writeReg s g o (wr32 fn addr d) ext flag =
      respond (regWrite s g o { fn := fn, addr := addr, v := d.toNat, ext := ext, flag := flag }) 0 := by
  have haddr : (wr32 fn addr d).addr - o + o = addr := Nat.sub_add_cancel hle
  have hfn : (wr32 fn addr d).fn = fn := rfl
  cases g
  case pwin | db | flags | imem | dmem | agent | none => exact absurd hg Bool.false_ne_true
  all_goals
    simp only [writeReg, regHolding_of_regAt ho h, shaped_wr32 ha, haddr, hfn, wr32_data, Bool.not_false, Bool.and_self,
      Bool.false_eq_true, not_false_eq_true, if_true]

theorem admits_manager (hg : regRegion g = true) : admits s g o 0x40 true = true := by
  cases g
  case pwin | db | flags | imem | dmem | agent | none => exact absurd hg Bool.false_ne_true
  all_goals rfl

/-- A write of the manager to a region of registers reaches them (R42). -/
theorem serveAccess_write (hr : isReady s = true) (hreg : regionOf addr = (g, o)) (hg : regRegion g = true) :
    serveAccess s (wr32 0x40 addr d) ext flag = writeReg s g o (wr32 0x40 addr d) ext flag := by
  have hregion : regionOf (wr32 0x40 addr d).addr = (g, o) := hreg
  have hadmits : admits s g o (wr32 0x40 addr d).fn true = true := admits_manager hg
  have hwr : (wr32 0x40 addr d).wr = true := rfl
  cases g
  case pwin | db | flags | imem | dmem | agent | none => exact absurd hg Bool.false_ne_true
  all_goals
    simp only [serveAccess, hregion, hr, hadmits, hwr, not_true_eq_false, false_and, if_false, if_true]

/-- The manager's write comes to its effect on the register, and is answered with 0. -/
theorem managerWrite {u : State} (h : Takes s = true) (hreg : regionOf addr = (g, o)) (hg : regRegion g = true)
    (haddr : addr < 2 ^ 26 ∧ addr % 4 = 0 ∧ o % 4 = 0 ∧ o ≤ addr)
    (hat : ∃ v, regAt (taken s 0x40 addr d) g o = some (false, v))
    (hw : regWrite (taken s 0x40 addr d) g o { fn := 0x40, addr := addr, v := d.toNat, ext := ext, flag := flag } = u) :
    liveRoot s (fun s => subAccess s (wr32 0x40 addr d) ext flag) = .next (settle (respond u 0)) := by
  obtain ⟨hopen, hroom⟩ := takes_parts h
  obtain ⟨hmax, ha, ho, hle⟩ := haddr
  obtain ⟨v, hv⟩ := hat
  have hserve : serveAccess (taken s 0x40 addr d) (wr32 0x40 addr d) ext flag = respond u 0 := by
    have hr : isReady s = true := takes_ready h
    rw [serveAccess_write (s := taken s 0x40 addr d) hr hreg hg, writeReg_narrow hg ha ho hle hv, hw]
  rw [liveRoot_next (takes_live h), subAccess_open hopen hmax hroom]
  exact congrArg (fun u => Host.Outcome.next (settle u)) hserve

end
end Sys2Proof.Proofs.ManagerWrites
end

