-- ==== Sys2Proof/Proofs/RegisterWrites.lean ====
section
/-! Registers with a behaviour of their own, as the manager writes them (R86, R87, R210, R238, R438, R455, R460, R479, R503, R509,
R510). -/

namespace Sys2Proof.Proofs.RegisterWrites
open Sys2Proof Sys2Proof.Machine Sys2Proof.Laws Sys2Proof.Proofs.ManagerWrites

section
variable {s : State} {d : W32}

/-! Scheduler, Steward and log. -/

theorem exec_schPeriodWrite (h : Takes s = true) (hq : partsQuiet s = true) (hlo : 2000 ≤ fld d 0 21)
    (hhi : fld d 0 21 ≤ 2000000) : exec (.schPeriodWrite 0x40 d) s = .next (settle (respond (wrLog
      (if tickSent s then modSched (taken s 0x40 0x300000 d) fun c => { c with periodLate := some (fld d 0 21) }
        else modSched (taken s 0x40 0x300000 d) fun c => { c with periodNext := some (fld d 0 21) })
      (wrq 0x40 0x300000 d)) 0)) :=
  managerWrite (g := .sch) (o := 0) h rfl rfl (by decide) ⟨_, rfl⟩ (if_pos ⟨hq, hlo, hhi⟩)

theorem exec_schAccselWrite (h : Takes s = true) : exec (.schAccselWrite 0x40 d) s = .next (settle (respond
    (modSched (taken s 0x40 0x300030 d) fun c => { c with
      accsel := fld d 0 12, accdata := [(getQueue s (fld d 0 12)).engineNs, (getQueue s (fld d 0 12)).bytes,
        (getQueue s (fld d 0 12)).energyNj / 1000] }) 0)) :=
  managerWrite (g := .sch) (o := 0x30) h rfl rfl (by decide) ⟨_, rfl⟩ rfl

theorem exec_stewLedselWrite (h : Takes s = true) (w : W64) : exec (.stewLedselWrite 0x40 d w) s = .next (settle (respond
    (modStew (taken s 0x40 0x350018 d) fun x => { x with
      ledsel := BitVec.ofNat 32 (fld d 0 6 + put (fld d 8 24) 8), ledger := w }) 0)) :=
  managerWrite (g := .stew) (o := 0x18) h rfl rfl (by decide) ⟨_, rfl⟩ rfl

theorem exec_logRdselWrite (h : Takes s = true) : exec (.logRdselWrite 0x40 d) s = .next (settle (respond
    (modLog (taken s 0x40 0x330024 d) fun l => { l with
      rdsel := fld d 0 12, rddata := s.log.entries.getD (fld d 0 12) 0 }) 0)) :=
  managerWrite (g := .log) (o := 0x24) h rfl rfl (by decide) ⟨_, rfl⟩ rfl

theorem exec_logPop (h : Takes s = true) (hspill : s.log.spill = false) (hn : fld d 0 13 ≤ s.log.entries.length) :
    exec (.logPop 0x40 d) s = .next (settle (respond (audit (modLog (taken s 0x40 0x330028 d) fun l =>
      { l with entries := l.entries.drop (fld d 0 13) }) 1 0x40 0x0E 0 0 (fld d 0 13)) 0)) := by
  refine managerWrite (g := .log) (o := 0x28) h rfl rfl (by decide) ⟨_, rfl⟩ (if_neg ?_)
  rintro (hs | hlt)
  · exact absurd (hs.symm.trans hspill) Bool.noConfusion
  · exact absurd hlt (Nat.not_lt.mpr hn)

/-- With room in the log and nothing lost, an entry goes behind those that stand there (R494, R497). -/
theorem audit_entries (s : State) (o f k c w x : Nat) (hr : isReady s = true) (hroom : s.log.entries.length < 4096)
    (hlost : s.log.lostSince = 0) : ∃ e, (audit s o f k c w x).log.entries = s.log.entries ++ [e] := by
  have hput : ∀ e, (logPut s e).log.entries = s.log.entries ++ [e ||| BitVec.ofNat 256 (put s.log.seq 48)] := fun e => by
    unfold logPut
    dsimp only
    split
    · unfold reqVec
      split <;> rfl
    · rfl
  have hmax : ¬ s.log.entries.length ≥ Config.logMax := Nat.not_le.mpr hroom
  simp only [audit, hr, not_true_eq_false, if_false, hmax, hlost, gt_iff_lt, Nat.lt_irrefl, hput]
  exact ⟨_, rfl⟩

theorem exec_logHeadWrite (h : Takes s = true) (hin : fld d 0 20 < ringSize s)
    (hused : (fld d 0 20 + ringSize s - s.log.head % ringSize s) % ringSize s ≤ ringUsed s) :
    exec (.logHeadWrite 0x40 d) s =
      .next (settle (respond (modLog (taken s 0x40 0x330010 d) fun l => { l with head := fld d 0 20 }) 0)) := by
  refine managerWrite (g := .log) (o := 0x10) h rfl rfl (by decide) ⟨_, rfl⟩ (if_neg ?_)
  rintro (hout | hover)
  · exact absurd hin (Nat.not_lt.mpr hout)
  · exact absurd hover (Nat.not_lt.mpr hused)

/-! The Watch: a severe entry is cleared (R455). -/

/-- The state in which a write of WATCH_SRCSTAT has its audit entry and NOTARGET cleared where the write says so. -/
def srcStatWritten (s : State) (i : Nat) (d : W32) : State :=
  let t := wrLog (taken s 0x40 (0x321008 + i * 16) d) (wrq 0x40 (0x321008 + i * 16) d)
  if bitOf d 4 then modWatch t fun w => { w with notarget := without w.notarget i } else t

/-- A write of WATCH_SRCSTAT clears what its bits say (R455). -/
theorem wrWatch_srcStat {s : State} {r : WrReq} {i : Nat} (he : srcExists s i = true) (h0 : r.bit 0 = true)
    (h1 : r.bit 1 = false) : wrWatch s (0x1008 + i * 16) r = severeClear (if r.bit 4 then
      modWatch (wrLog s r) fun w => { w with notarget := without w.notarget i } else wrLog s r) (i * 2) := by
  have hi : (0x1008 + i * 16 - 0x1000) / 16 = i := by omega
  have hlo : ¬ 0x1008 + i * 16 < 0x1000 := by omega
  have hm : (0x1008 + i * 16) % 16 = 8 := by omega
  have hbits : r.v &&& 0x13 ≠ 0 := fun hz => by
    have h : (r.v &&& 0x13).testBit 0 = true := by rw [Nat.testBit_and, show r.v.testBit 0 = true from h0]; rfl
    rw [hz] at h
    exact absurd h (by decide)
  unfold wrWatch
  split
  case h_5 => simp only [hi, hlo, he, hm, hbits, h0, h1, not_true_eq_false, or_self, Bool.false_eq_true, ne_eq,
    not_false_eq_true, if_false, if_true]
  all_goals omega

theorem regWatch_srcStat {s : State} {i : Nat} (hi : i < 2304) (he : srcExists s i = true) :
    ∃ v, regWatch s (0x1008 + i * 16) = some (false, v) := by
  have hidx : (0x1008 + i * 16 - 0x1000) / 16 = i := by omega
  have hm : (0x1008 + i * 16) % 16 = 8 := by omega
  have hfirst : ¬ (0x100 ≤ 0x1008 + i * 16 ∧ 0x1008 + i * 16 < 0x220 ∧ (0x1008 + i * 16) % 4 = 0) := by omega
  have hrange : 0x1000 ≤ 0x1008 + i * 16 ∧ 0x1008 + i * 16 < 0xA000 ∧ (0x1008 + i * 16) % 4 = 0 := by omega
  unfold regWatch
  split
  case h_8 =>
    simp only [if_neg hfirst, if_pos hrange, hidx, he, hm, not_true_eq_false, if_false]
    exact ⟨_, rfl⟩
  all_goals omega

theorem regionOf_watch {o : Nat} (h : o < 0x10000) : regionOf (0x320000 + o) = (.watch, o) := by
  have hmod : (0x320000 + o) % 0x10000 = o := by omega
  simp only [regionOf, hmod]
  repeat rw [if_neg (by omega)]
  rw [if_pos (by omega)]

theorem exec_watchSevereClear {i : Nat} (h : Takes s = true) (hi : i < 2304) (he : srcExists s i = true)
    (h0 : bitOf d 0 = true) (h1 : bitOf d 1 = false) : exec (.watchSevereClear 0x40 i d) s =
      .next (settle (respond (severeClear (srcStatWritten s i d) (i * 2)) 0)) := by
  have hreg : regionOf (0x321008 + i * 16) = (.watch, 0x1008 + i * 16) := by
    rw [show 0x321008 + i * 16 = 0x320000 + (0x1008 + i * 16) by omega]
    exact regionOf_watch (by omega)
  show liveRoot s (fun s => subAccess s (wr32 0x40 (0x321008 + i % 2304 * 16) d) 0 false) = _
  rw [Nat.mod_eq_of_lt hi]
  exact managerWrite h hreg rfl (by omega) (regWatch_srcStat hi he) (wrWatch_srcStat (i := i) he h0 h1)

theorem audit_watch (s : State) (o f k c w x : Nat) : (audit s o f k c w x).watch = s.watch := by
  obtain ⟨e, l, h⟩ := audit_shape s o f k c w x
  rw [h]

theorem srcStatWritten_level (s : State) (i : Nat) (d : W32) : (srcStatWritten s i d).watch.level = s.watch.level := by
  simp only [srcStatWritten, wrLog]
  split
  · rw [modWatch_watch, audit_watch]; rfl
  · rw [audit_watch]; rfl

/-- Without its cause an entry that is cleared loses the windows of every key (R455). -/
theorem severeClear_ended {s : State} {i : Nat} (h : s.watch.level.contains i = false)
    (hw : ¬ (s.watch.wins.filter (fun x => x.1 / 128 == i * 2 && x.2.severe)).isEmpty = true) :
    severeClear s (i * 2) = modWatch s fun w => { w with wins := w.wins.filter (fun x => x.1 / 128 != i * 2) } := by
  have hidx : i * 2 / 2 = i := by omega
  have hwire : ¬ i * 2 % 2 = 1 := by omega
  simp only [severeClear, if_neg hw, hidx, hwire, modWatch_watch, h, decide_false, Bool.false_eq_true, not_false_eq_true,
    if_true, if_false]

/-- A severe entry whose cause has gone is severe no more once it is cleared (R455). -/
theorem entrySevere_severeClear {s : State} {i : Nat} (h : s.watch.level.contains i = false) :
    entrySevere (severeClear s (i * 2)) (i * 2) = false := by
  by_cases hw : (s.watch.wins.filter (fun x => x.1 / 128 == i * 2 && x.2.severe)).isEmpty = true
  · rw [severeClear, if_pos hw, entrySevere, List.any_eq_false]
    simpa [List.isEmpty_iff, List.filter_eq_nil_iff] using hw
  · rw [severeClear_ended h hw, entrySevere, modWatch_watch, List.any_eq_false]
    intro x hx
    have hkey : x.1 / 128 ≠ i * 2 := by simpa using (List.mem_filter.mp hx).2
    simp [hkey]

/-! Service life (R479). -/

theorem exec_svcModeWrite (h : Takes s = true) (hmc : s.svc.mc.state = 0) (hd : s.svc.draining = [])
    (hm : fld d 0 2 ≠ 3) : exec (.svcModeWrite 0x40 d) s = .next (settle (respond (wrLog
      (modSvc (taken s 0x40 0xDB00 d) fun v => { v with modeNext := some (fld d 0 2) }) (wrq 0x40 0xDB00 d)) 0)) := by
  refine managerWrite (g := .adm) (o := 0xCB00) h rfl rfl (by decide) ⟨_, rfl⟩ (if_neg ?_)
  rintro (hc | hc | hc)
  · exact hc hmc
  · exact hc (List.isEmpty_iff.mpr hd)
  · exact hm hc

/-! Loop-backs (R509, R510). -/

/-- Setting a bit of a word's number sets it in the word. -/
theorem ofNat_setBit (x : W32) (i : Nat) : BitVec.ofNat 32 (setBit x.toNat i) = x ||| BitVec.twoPow 32 i := by
  by_cases hb : x.getLsbD i = true
  · rw [setBit, if_pos (show x.toNat.testBit i = true from hb), BitVec.ofNat_toNat, BitVec.setWidth_eq]
    ext j hj
    rw [BitVec.getElem_or, BitVec.getElem_twoPow]
    by_cases hij : j = i
    · subst hij; simp [← BitVec.getLsbD_eq_getElem, hb]
    · simp [hij]
  · have hdisj : x &&& BitVec.twoPow 32 i = 0#32 := by
      ext j hj
      rw [BitVec.getElem_and, BitVec.getElem_twoPow]
      by_cases hij : j = i
      · subst hij; simpa [BitVec.getLsbD_eq_getElem, hj] using hb
      · simp [hij]
    rw [setBit, if_neg (show ¬ x.toNat.testBit i = true from hb), BitVec.ofNat_add, BitVec.ofNat_toNat, BitVec.setWidth_eq,
      ← BitVec.add_eq_or_of_and_eq_zero x _ hdisj]
    exact congrArg (x + ·) (BitVec.eq_of_toNat_eq (by simp))

/-- LB_CTRL written with a point that exists: its fields are taken, with an audit entry (R494, R509). -/
def lbTaken (s : State) (w : W32) : State :=
  wrLog (modLb (taken s 0x40 0xDC00 w) fun b => { b with
    point := fld w 0 4, agent := fld w 4 6, all := bitOf w 10, unit := fld w 11 3, count := fld w 16 12 }) (wrq 0x40 0xDC00 w)

/-- STOP goes before GO (R509, R510). -/
theorem wrLb_ctrl {w : W32} (hlo : 1 ≤ fld w 0 4) (hhi : fld w 0 4 ≤ 7) :
    wrLb (taken s 0x40 0xDC00 w) 0xCC00 (wrq 0x40 0xDC00 w) =
      if bitOf w 30 then lbHalt (lbTaken s w) else if bitOf w 31 then lbStart (lbTaken s w) else lbTaken s w := by
  have hp : (wrq 0x40 0xDC00 w).f 0 4 = fld w 0 4 := rfl
  simp only [wrLb, hp, hlo, hhi, decide_true, Bool.and_self, if_true, wrEnd]
  rfl

theorem managerWrite_lbCtrl {w : W32} {u : State} (h : Takes s = true)
    (hu : wrLb (taken s 0x40 0xDC00 w) 0xCC00 (wrq 0x40 0xDC00 w) = u) :
    liveRoot s (fun s => subAccess s (wr32 0x40 0xDC00 w) 0 false) = .next (settle (respond u 0)) :=
  managerWrite (g := .adm) (o := 0xCC00) h rfl rfl (by decide) ⟨_, rfl⟩ hu

/-- The word that LB_STOP writes, and the one that LB_GO writes of a word without STOP and GO. -/
def stopWord (d : W32) : W32 := d ||| 0x40000000#32
def goWord (d : W32) : W32 := d &&& 0x3FFFFFFF ||| 0x80000000#32

theorem bitOf_stopWord (d : W32) : bitOf (stopWord d) 30 = true := by
  simp [bitOf, stopWord]

theorem bitOf_goWord (d : W32) : bitOf (goWord d) 30 = false ∧ bitOf (goWord d) 31 = true := by
  simp [bitOf, goWord]

theorem exec_lbStop (h : Takes s = true) (hlo : 1 ≤ fld (stopWord d) 0 4) (hhi : fld (stopWord d) 0 4 ≤ 7) :
    exec (.lbStop 0x40 d) s = .next (settle (respond (lbHalt (lbTaken s (stopWord d))) 0)) := by
  have hw : BitVec.ofNat 32 (setBit d.toNat 30) = stopWord d := ofNat_setBit d 30
  show liveRoot s (fun s => subAccess s (wr32 0x40 0xDC00 (BitVec.ofNat 32 (setBit d.toNat 30))) 0 false) = _
  rw [hw]
  exact managerWrite_lbCtrl h (by rw [wrLb_ctrl hlo hhi, if_pos (bitOf_stopWord d)])

theorem exec_lbGo (h : Takes s = true) (hlo : 1 ≤ fld (goWord d) 0 4) (hhi : fld (goWord d) 0 4 ≤ 7) :
    exec (.lbGo 0x40 (d &&& 0x3FFFFFFF)) s = .next (settle (respond (lbStart (lbTaken s (goWord d))) 0)) := by
  obtain ⟨h30, h31⟩ := bitOf_goWord d
  have hw : BitVec.ofNat 32 (setBit (d &&& 0x3FFFFFFF).toNat 31) = goWord d := ofNat_setBit _ 31
  show liveRoot s (fun s => subAccess s (wr32 0x40 0xDC00 (BitVec.ofNat 32 (setBit (d &&& 0x3FFFFFFF).toNat 31))) 0 false) = _
  rw [hw]
  exact managerWrite_lbCtrl h (by rw [wrLb_ctrl hlo hhi, if_neg (by simp [h30]), if_pos h31])

/-- A run in progress ends with STOP, and a GO is refused (R509, R510). -/
theorem lb_busy {u : State} (h : u.lb.busy = true) : (lbHalt u).lb.busy = false ∧ (lbHalt u).lb.done = true ∧
    (lbHalt u).lb.aborted = true ∧ (lbStart u).lb.busy = true ∧ (lbStart u).lb.refused = true := by
  have hgo : lbMayGo u = false := by simp [lbMayGo, h]
  have hhalt : lbHalt u = lbFree (modLb u fun b => { b with busy := false, done := true, aborted := true, stopping := true }) :=
    if_neg (by simp [h])
  have hstart : lbStart u = modLb u fun b => { b with refused := true } := if_neg (by simp [hgo])
  rw [hhalt, hstart]
  exact ⟨rfl, rfl, rfl, h, rfl⟩

/-- A run of point 1 begins with the Root as its only member (R504, R509). -/
theorem lb_begins {u : State} (hr : isReady u = true) (hf : u.glb.frozen = false) (hb : u.lb.busy = false)
    (hp : u.lb.point = 1) (hc : 0 < u.lb.count) :
    (lbStart u).lb.busy = true ∧ (lbStart u).lb.exch = 0 ∧ (lbStart u).lb.members = [0] := by
  have hcount : 1 ≤ u.lb.count := hc
  have hgo : lbMayGo u = true := by simp [lbMayGo, hr, hf, hb, hp, hcount]
  rw [lbStart, if_pos hgo]
  simp [hp]

theorem lbTaken_lb (s : State) (w : W32) : (lbTaken s w).lb = { s.lb with
    point := fld w 0 4, agent := fld w 4 6, all := bitOf w 10, unit := fld w 11 3, count := fld w 16 12 } := by
  obtain ⟨e, l, hs⟩ := audit_shape (modLb (taken s 0x40 0xDC00 w) fun b => { b with
    point := fld w 0 4, agent := fld w 4 6, all := bitOf w 10, unit := fld w 11 3, count := fld w 16 12 }) 1 0x40 1 0 0xDC00 w.toNat
  rw [lbTaken, wrLog]
  exact (congrArg State.lb hs).trans rfl

theorem lbTaken_glb (s : State) (w : W32) : (lbTaken s w).glb = s.glb := by
  rw [lbTaken, wrLog, Resets.audit_glb]
  rfl

/-! Injected faults (R460). -/

/-- The audit entry of a write of a TEST register (R513). -/
def testTaken (s : State) (addr : Nat) (d : W32) : State := audit (taken s 0x40 addr d) 0x0C 0x40 1 0 addr d.toNat

theorem testTaken_test (s : State) (addr : Nat) (d : W32) : (testTaken s addr d).test = s.test := by
  obtain ⟨e, l, h⟩ := audit_shape (taken s 0x40 addr d) 0x0C 0x40 1 0 addr d.toNat
  rw [testTaken, h]
  rfl

theorem ofNat_wrq_v (fn addr : Nat) (d : W32) : BitVec.ofNat 32 (wrq fn addr d).v = d := by
  show BitVec.ofNat 32 d.toNat = d
  rw [BitVec.ofNat_toNat, BitVec.setWidth_eq]

theorem exec_testInjpair (h : Takes s = true) (ht : s.glb.testLatched = true) : exec (.testInjpair 0x40 d) s =
    .next (settle (respond (injectPair { testTaken s 0x370100 d with test := { (testTaken s 0x370100 d).test with
      injPair := BitVec.ofNat 32 (fld d 0 14) } } s.test.injPair d) 0)) := by
  refine managerWrite (g := .test) (o := 0x100) h rfl rfl (by decide) ⟨_, rfl⟩ ?_
  show wrTest (taken s 0x40 0x370100 d) 0x100 (wrq 0x40 0x370100 d) = _
  have hlatch : (taken s 0x40 0x370100 d).glb.testLatched = true := ht
  simp only [wrTest, hlatch, ofNat_wrq_v]
  rw [← testTaken_test s 0x370100 d]
  rfl

/-- TEST_INJEV written with a listed code: its fields are taken (R460). -/
def injevTaken (s : State) (d : W32) : State :=
  { testTaken s 0x370104 d with test := { (testTaken s 0x370104 d).test with
    injEv := BitVec.ofNat 32 (fld d 0 16 + put (fld d 16 14) 16) } }

theorem exec_testInjev (h : Takes s = true) (ht : s.glb.testLatched = true) (hc : codeListed (fld d 0 16) = true) :
    exec (.testInjev 0x40 d) s = .next (settle (respond (if bitOf d 31 then
      injectEvent (audit (injevTaken s d) 0x0C 0x40 1 (fld d 0 16) 0x370104 d.toNat) (fld d 0 16)
        (if bitOf d 22 then some (fld d 16 6) else none) (if bitOf d 29 then some (fld d 23 6) else none)
      else injevTaken s d) 0)) := by
  refine managerWrite (g := .test) (o := 0x104) h rfl rfl (by decide) ⟨_, rfl⟩ ?_
  show wrTest (taken s 0x40 0x370104 d) 0x104 (wrq 0x40 0x370104 d) = _
  have hlatch : (taken s 0x40 0x370104 d).glb.testLatched = true := ht
  have hcode : codeListed ((wrq 0x40 0x370104 d).f 0 16) = true := hc
  simp only [wrTest, hlatch, hcode, or_true, and_true]
  rfl

/-! The manager's admin queue (R86, R87). -/

/-- The admin queue that ADM_QCFG enables: an empty ring (R87). -/
def admEnabled (a : Adm) (d : W32) : Adm :=
  { a with
    log2 := fld d 0 4, enable := true, sqTail := 0, sqHead := 0, cqHead := 0, cqTail := 0, phase := true, read := [], owed := 0 }

theorem admSetCfg_enable {a : Adm} (ha : a.enable = false) (hlo : 4 ≤ fld d 0 4) (hhi : fld d 0 4 ≤ 12)
    (h4 : bitOf d 4 = true) : admSetCfg a d = admEnabled a d := by
  simp [admSetCfg, admEnabled, ha, hlo, hhi, h4]

/-- Nothing is read of a queue that runs with an empty ring (R87). -/
theorem admFetch_empty {q : Nat} (he : (getAdm s q).enable = true) (hr : (getAdm s q).sqHead = (getAdm s q).sqTail) :
    admFetch s q = s := by
  simp only [admFetch, he, hr, not_true_eq_false, true_or, if_false, if_true]

theorem exec_admQcfgWrite (h : Takes s = true) (he : (getAdm s 0x40).enable = false) (hlo : 4 ≤ fld d 0 4)
    (hhi : fld d 0 4 ≤ 12) (h4 : bitOf d 4 = true) : exec (.admQcfgWrite 0x40 0x40 d) s = .next (settle (respond (wrLog
      (modAdm (taken s 0x40 0x1010 d) 0x40 fun _ => admEnabled (getAdm s 0x40) d) (wrq 0x40 0x1010 d)) 0)) := by
  refine managerWrite (addr := 0x1010) (g := .adm) (o := 0x10) h rfl rfl (by decide) ⟨_, rfl⟩ ?_
  show wrAdmQ (taken s 0x40 0x1010 d) 0x40 0x10 (wrq 0x40 0x1010 d) = _
  have ha : getAdm (taken s 0x40 0x1010 d) 0x40 = getAdm s 0x40 := rfl
  have hn : (wrq 0x40 0x1010 d).f 0 4 = fld d 0 4 := rfl
  simp only [wrAdmQ, ha, hn, ofNat_wrq_v, admSetCfg_enable he hlo hhi h4, he, hlo, hhi, decide_true, Bool.and_self, wrEnd,
    Bool.false_eq_true, if_false, if_true]
  rw [admFetch_empty (by rw [getAdm_modAdm_self]; rfl) (by rw [getAdm_modAdm_self]; rfl)]

theorem exec_admSqtailWrite (h : Takes s = true) (hin : fld d 0 12 < 2 ^ (getAdm s 0x40).log2) :
    exec (.admSqtailWrite 0x40 0x40 d) s = .next (settle (respond (admFetch
      (modAdm (taken s 0x40 0x1014 d) 0x40 fun a => { a with sqTail := fld d 0 12 }) 0x40) 0)) := by
  refine managerWrite (addr := 0x1014) (g := .adm) (o := 0x14) h rfl rfl (by decide) ⟨_, rfl⟩ ?_
  show admFetch (modAdm (taken s 0x40 0x1014 d) 0x40 fun _ => admSetTail (getAdm s 0x40)
    (BitVec.ofNat 32 (wrq 0x40 0x1014 d).v)) 0x40 = _
  rw [ofNat_wrq_v, admSetTail, if_neg (Nat.not_le.mpr hin)]
  rfl

theorem exec_admCqheadWrite (h : Takes s = true) (hin : fld d 0 12 < 2 ^ (getAdm s 0x40).log2) :
    exec (.admCqheadWrite 0x40 0x40 d) s = .next (settle (respond
      (modAdm (taken s 0x40 0x101C d) 0x40 fun a => admSetHead a d) 0)) := by
  refine managerWrite (addr := 0x101C) (g := .adm) (o := 0x1C) h rfl rfl (by decide) ⟨_, rfl⟩ ?_
  show (if 2 ^ (getAdm s 0x40).log2 ≤ fld d 0 12 then taken s 0x40 0x101C d else
    modAdm (taken s 0x40 0x101C d) 0x40 fun _ => admSetHead (getAdm s 0x40) (BitVec.ofNat 32 (wrq 0x40 0x101C d).v)) = _
  rw [ofNat_wrq_v, if_neg (Nat.not_le.mpr hin)]
  rfl

theorem admSetHead_cqHead (a : Adm) (d : W32) : (admSetHead a d).cqHead = fld d 0 12 := by
  unfold admSetHead
  dsimp only
  split
  · next h => exact h.symm
  · rfl

end

/-- Settles O44: each register's row, and what its effect leaves in the register. -/
theorem registerWrites : Obligations.RegisterWrites := by
  refine ⟨fun s t r d h => ⟨?_, ?_, ?_, ?_, ?_, ?_, ?_, ?_, ?_, ?_, ?_⟩, fun s t d h => ⟨?_, fun hin => ⟨?_, ?_, ?_⟩⟩⟩
  · rintro rfl rfl hq hlo hhi
    exact exec_schPeriodWrite h hq hlo hhi
  · rintro rfl
    exact exec_schAccselWrite h
  · rintro w rfl
    exact exec_stewLedselWrite h w
  · rintro rfl
    exact exec_logRdselWrite h
  · rintro n u rfl rfl hspill hn rfl
    have hr : isReady s = true := takes_ready h
    refine ⟨exec_logPop h hspill hn, fun hroom hlost => audit_entries _ _ _ _ _ _ _ hr ?_ hlost⟩
    exact Nat.lt_of_le_of_lt (List.drop_sublist ..).length_le hroom
  · rintro rfl hin hused
    exact exec_logHeadWrite h hin hused
  · rintro i u hi he rfl rfl h0 h1 rfl
    refine ⟨exec_watchSevereClear h hi he h0 h1, fun hl => entrySevere_severeClear (s := srcStatWritten s i d) ?_⟩
    rw [srcStatWritten_level]
    exact hl
  · rintro rfl rfl hmc hd hm
    exact exec_svcModeWrite h hmc hd hm
  · rintro w u hw hlo hhi rfl rfl rfl
    have hlb := lbTaken_lb s w
    have hglb := lbTaken_glb s w
    refine ⟨fun h30 => ?_, fun h30 => ?_, fun hb => lb_busy (u := lbTaken s w) (by rw [hlb]; exact hb),
      fun hp hc hf hb => lb_begins (u := lbTaken s w) ?_ ?_ ?_ ?_ ?_⟩
    · rcases hw with rfl | rfl
      · exact absurd (h30.symm.trans (bitOf_goWord d).1) Bool.noConfusion
      · exact exec_lbStop h hlo hhi
    · rcases hw with rfl | rfl
      · exact exec_lbGo h hlo hhi
      · exact absurd ((bitOf_stopWord d).symm.trans h30) Bool.noConfusion
    · rw [isReady, hglb]; exact takes_ready h
    · rw [hglb]; exact hf
    · rw [hlb]; exact hb
    · rw [hlb]; exact hp
    · rw [hlb]; exact hc
  · rintro u rfl ht rfl
    exact exec_testInjpair h ht
  · rintro u v rfl ht hc rfl rfl
    exact ⟨fun hb => by rw [exec_testInjev h ht hc, if_neg (by simp [hb])]; rfl,
      fun hb => by rw [exec_testInjev h ht hc, if_pos hb]; rfl⟩
  · rintro a rfl he hlo hhi h4 rfl
    exact exec_admQcfgWrite h he hlo hhi h4
  · rintro rfl
    exact exec_admSqtailWrite h hin
  · rintro rfl
    exact exec_admCqheadWrite h hin
  · exact admSetHead_cqHead ..

end Sys2Proof.Proofs.RegisterWrites
end

