-- ==== Sys2Proof/Proofs/QueuesEmpty.lean ====
section
/-! Queues that empty (R102, R103, R124, R125), and host writes that meet a fault (R45). -/

namespace Sys2Proof.Proofs.QueuesEmpty
open Sys2Proof Sys2Proof.Machine Sys2Proof.Laws

/-! Queues that empty. -/

section
variable {s : State} {q : Nat}

/-- A RESETTING queue whose launches are done with settles (R102, R103, R125). -/
theorem exec_resetQueueSettles (h : Live s = true) (hst : (getQueue s q).st = .resetting)
    (hdone : (queueLaunches s q).all (fun y => isDone y.2) = true) : exec (.resetQueueSettles q) s = .next (settle
      (if (getQueue s q).toUnused = true ∨ (getPart s (getQueue s q).owner).st = .resetting then enterUnused s q
        else enterIdle s q)) := by
  have hleft : (queueLaunches s q).any (fun y => !isDone y.2) = false := by
    rw [List.any_eq_false]
    intro y hy
    simpa using List.all_eq_true.mp hdone y hy
  show execResetQueueSettles q s = _
  simp only [execResetQueueSettles, liveRoot_next h, hst, hleft, ne_self_iff_false, Bool.false_eq_true, or_self, if_false]

/-- The queue whose drain is late has its bit set (R124). -/
def drainNoted (s : State) (q : Nat) : State := modQueue s q fun x => { x with drainTmoBit := true, drainLate := true }

theorem getQueue_drainNoted (s : State) (q : Nat) :
    getQueue (drainNoted s q) q = { getQueue s q with drainTmoBit := true, drainLate := true } := by
  rw [drainNoted, getQueue_modQueue_self]

theorem exec_drainTimeout_again (h : Live s = true) (hl : (getQueue s q).drainLate = true) :
    exec (.drainTimeout q) s = .next (settle s) := by
  show execDrainTimeout q s = _
  simp only [execDrainTimeout, liveRoot_next h, hl, or_true, if_true]

theorem exec_drainTimeout_first (h : Live s = true) (hst : (getQueue s q).st = .draining)
    (hl : (getQueue s q).drainLate = false) : exec (.drainTimeout q) s = .next (settle
      (raiseOn (drainNoted s q) eDrainTimeout (some (getQueue s q).owner) none [(.queue, q)])) := by
  show execDrainTimeout q s = _
  simp only [execDrainTimeout, liveRoot_next h, hst, hl, ne_self_iff_false, Bool.false_eq_true, or_self, if_false, drainNoted]

end

/-! Writes that meet a fault. -/

section
variable {s : State} {txn : Nat} {w : Wr}

/-- The write in fault stands first of those outstanding. -/
def faultFirst (s : State) (txn : Nat) (w : Wr) : State :=
  { s with port := { s.port with writes := w :: s.port.writes.filter (fun v => v.txn != txn) } }

/-- E_HOST_WRITE_FAULT with the write's partition and address (R45). -/
def writeFault (s : State) (w : Wr) : State :=
  raiseOn s eHostWriteFault (if w.fn < 64 then some w.fn else none) none [(.addr, w.addr)]

/-- The write has met its fault and is outstanding no more (R45, R48). -/
def faulted (s : State) (txn : Nat) (w : Wr) : State :=
  vecsRelease (mgrDone (writeFault (faultFirst s txn w) w) txn) txn

/-- A fault that loses no more than the write's data (R45; log entry 57). -/
theorem exec_hostWriteFault_lost (h : Live s = true) (hw : s.port.writes.find? (fun w => w.txn == txn) = some w)
    (hk : w.kind = .stewWord ∨ w.kind = .arena ∨ (∃ p i, w.kind = .entry p i) ∨ (∃ i, w.kind = .save i)) :
    exec (.hostWriteFault txn) s = .next (settle (faulted s txn w)) := by
  show execHostWriteFault txn s = _
  rcases hk with hk | hk | ⟨p, i, hk⟩ | ⟨i, hk⟩ <;>
    simp only [execHostWriteFault, liveRoot_next h, hw, hk, faulted, writeFault, faultFirst]

theorem exec_hostWriteFault_record {id q : Nat} (h : Live s = true)
    (hw : s.port.writes.find? (fun w => w.txn == txn) = some w) (hk : w.kind = .record id q) :
    exec (.hostWriteFault txn) s = .next (settle (recordGone (faulted s txn w) id false)) := by
  show execHostWriteFault txn s = _
  simp only [execHostWriteFault, liveRoot_next h, hw, hk, faulted, writeFault, faultFirst]

theorem exec_hostWriteFault_flag {key : Nat} (h : Live s = true)
    (hw : s.port.writes.find? (fun w => w.txn == txn) = some w) (hk : w.kind = .flag key) :
    exec (.hostWriteFault txn) s = .next (settle (memWritten (faultFirst s txn w) key false)) := by
  show execHostWriteFault txn s = _
  simp only [execHostWriteFault, liveRoot_next h, hw, hk, faultFirst]

theorem exec_hostWriteFault_evac (h : Live s = true) (hw : s.port.writes.find? (fun w => w.txn == txn) = some w)
    (hk : w.kind = .evac) : exec (.hostWriteFault txn) s = .next (settle (evacEnd (writeFault
      (modGlb (mgrDone (faultFirst s txn w) txn) fun g => { g with evacWfault := true }) w))) := by
  show execHostWriteFault txn s = _
  simp only [execHostWriteFault, liveRoot_next h, hw, hk, writeFault, faultFirst]

/-- The fault changes the port, the event port, the log and the Watch alone; the other writes stay outstanding. -/
theorem faulted_shape (s : State) (txn : Nat) (w : Wr) : ∃ e l v, faulted s txn w = { s with
    port := (mgrDone (faultFirst s txn w) txn).port, evt := e, log := l, watch := v } := by
  obtain ⟨e, l, v, hr⟩ := raiseOn_shape (faultFirst s txn w) eHostWriteFault (if w.fn < 64 then some w.fn else none) none
    [(.addr, w.addr)]
  obtain ⟨e', hv⟩ := vecsRelease_shape (mgrDone (writeFault (faultFirst s txn w) w) txn) txn
  exact ⟨e', l, v, by rw [faulted, hv, writeFault, hr]; rfl⟩

theorem faulted_writes (hw : w.txn = txn) :
    (faulted s txn w).port.writes = s.port.writes.filter (fun v => v.txn != txn) := by
  obtain ⟨e, l, v, hs⟩ := faulted_shape s txn w
  rw [hs]
  simp [mgrDone, faultFirst, hw, List.filter_filter]

theorem faulted_launches (s : State) (txn : Nat) (w : Wr) : (faulted s txn w).launches = s.launches := by
  obtain ⟨e, l, v, hs⟩ := faulted_shape s txn w
  rw [hs]

theorem faulted_parts (s : State) (txn : Nat) (w : Wr) : (faulted s txn w).parts = s.parts := by
  obtain ⟨e, l, v, hs⟩ := faulted_shape s txn w
  rw [hs]

/-- The evacuation ends with its bit at step 7 (R451). -/
theorem evacEnd_watch (s : State) : (evacEnd s).watch.evacDone = true ∧ (evacEnd s).watch.failStep = 7 := by
  obtain ⟨e, h⟩ := reqVec_shape (modWatch s fun w => { w with evacDone := true, failStep := 7 }) 4359
  rw [evacEnd, h]
  exact ⟨rfl, rfl⟩

end

/-- Settles O46: the end of a reset and of a drain's time, then a fault by the kind of its write. -/
theorem queuesEmptyAndFaults : Obligations.QueuesEmptyAndFaults := by
  refine ⟨fun s q h => ⟨fun hst hdone => ⟨fun hu hp => ?_, fun hu => ?_⟩, fun hst =>
    ⟨fun hl => exec_drainTimeout_again h hl, ?_⟩⟩, ?_⟩
  · rw [exec_resetQueueSettles h hst hdone, if_neg (by simp [hu, hp])]
  · rw [exec_resetQueueSettles h hst hdone, if_pos hu]
  · rintro hl t rfl
    exact ⟨exec_drainTimeout_first h hst hl, getQueue_drainNoted .., rfl⟩
  · rintro s t u txn w h hw rfl rfl
    have htxn : w.txn = txn := by simpa using List.find?_some hw
    exact ⟨exec_hostWriteFault_lost h hw, fun id q hk => exec_hostWriteFault_record h hw hk,
      fun key hk => exec_hostWriteFault_flag h hw hk, fun hk => exec_hostWriteFault_evac h hw hk, faulted_writes htxn,
      faulted_launches s txn w, faulted_parts s txn w, evacEnd_watch⟩

end Sys2Proof.Proofs.QueuesEmpty
end

