-- ==== Sys2Proof/Proofs/InletFetch.lean ====
section
/-! The Inlet fetches: grants, timeslices, descriptors and fragment tables, and reads that meet a fault (R45, R108, R114–R116, R119,
R122, R125, R150). -/

namespace Sys2Proof.Proofs.InletFetch
open Sys2Proof Sys2Proof.Machine Sys2Proof.Laws

/-! A grant. -/

section
variable {s t : State} {p q : Nat} {be : Bool}

/-- The number of descriptors in the burst of a queue (R116). -/
def burstLen (s : State) (q : Nat) : Nat :=
  min (min (getQueue s q).burst (unissued (getQueue s q)))
    (min (2 ^ (getQueue s q).log2 - ((getQueue s q).head + (getQueue s q).issued) % 2 ^ (getQueue s q).log2) (inletRoom s q))

/-- Each descriptor that is fetched moves the fetch position by one; the first takes the broken chain's mark with it (R123, R141). -/
theorem getQueue_fetchN (s : State) (q n : Nat) : getQueue (fetchN s q n) q = { getQueue s q with
    issued := (getQueue s q).issued + n, broken := if n = 0 then (getQueue s q).broken else 0 } := by
  induction n generalizing s with
  | zero => rfl
  | succ n ih =>
    rw [fetchN, ih, getQueue_modQueue_self, if_neg (Nat.succ_ne_zero n), Nat.add_comm n 1, ← Nat.add_assoc]
    simp only [ite_self]
    rfl

/-- The reads of a burst change the manager port alone, so the queue stands as the fetch of its descriptors leaves it. -/
theorem getQueue_burst (s : State) (q : Nat) : getQueue (burst s q) q = { getQueue s q with
    issued := (getQueue s q).issued + burstLen s q
    broken := if burstLen s q = 0 then (getQueue s q).broken else 0 } := by
  have hreads : (burst s q).queues = (fetchN s q (burstLen s q)).queues :=
    List.foldlRecOn (motive := fun (u : State) => u.queues = (fetchN s q (burstLen s q)).queues) _ _ rfl fun (_ : State) h _ _ => h
  rw [← getQueue_fetchN, getQueue, hreads]
  rfl

/-- The state in which a slice holder with a credit is looked for: a round begins where none has one (R115, step 3). -/
def creditRound (t : State) (be : Bool) : State :=
  if (holders t be).any (fun h => decide (0 < tget 0 t.inlet.credit (h.1 * 2 + b2n be))) then t else newRound t be

theorem creditRound_shape (s : State) (be : Bool) : ∃ i, creditRound (passSlices s) be = { s with inlet := i } := by
  obtain ⟨h, hs⟩ := passSlices_shape s
  rw [creditRound, hs]
  split
  · exact ⟨_, rfl⟩
  · exact ⟨_, rfl⟩

/-- A grant serves the class whose turn it is, and there the first holder with a credit (R115, R116). -/
theorem fetchGrant_eq (ht : t = passSlices s) (hf : t.glb.frozen = false) (hh : holders t false ≠ [] ∨ holders t true ≠ [])
    (hbe : be = ((t.inlet.grants % 16 == 15 && !(holders t true).isEmpty) || (holders t false).isEmpty))
    (hp : (holders t be).find? (fun h => decide (0 < tget 0 (creditRound t be).inlet.credit (h.1 * 2 + b2n be))) = some (p, q)) :
    fetchGrant s = burst { creditRound t be with inlet := { (creditRound t be).inlet with
      grants := (creditRound t be).inlet.grants + 1
      credit := tput 0 (creditRound t be).inlet.credit (p * 2 + b2n be)
        (tget 0 (creditRound t be).inlet.credit (p * 2 + b2n be) - 1)
      lastLc := if be then (creditRound t be).inlet.lastLc else p
      lastBe := if be then p else (creditRound t be).inlet.lastBe } } q := by
  have hclass : (if be = true then holders t true else holders t false) = holders t be := by cases be <;> rfl
  have hserved : ¬ (t.glb.frozen = true ∨ (holders t false).isEmpty = true ∧ (holders t true).isEmpty = true) := by
    simpa [hf, imp_iff_not_or] using hh
  subst ht
  simp only [fetchGrant, if_neg hserved, ← hbe, hclass]
  rw [creditRound] at hp ⊢
  rw [hp]

end

/-! A timeslice ends. -/

/-- The slice passes to the next eligible queue (R115, step 2). -/
theorem exec_timesliceExpiry {s : State} {p h q : Nat} {be : Bool} (hl : Live s = true)
    (hh : tget 0 s.inlet.holder (p * 2 + b2n be) = h + 1) (hq : nextAfter (without (eligibleOf s p be) h) h = some q) :
    exec (.timesliceExpiry p be) s = .next (settle { s with inlet := { s.inlet with
      holder := tput 0 s.inlet.holder (p * 2 + b2n be) (q + 1) } }) := by
  show execTimesliceExpiry p be s = _
  simp only [execTimesliceExpiry, liveRoot_next hl, hh, hq]

/-! Descriptors and fragment tables arrive. -/

section
variable {s : State} {id : Nat} {l : Launch}

/-- The state in which a descriptor has come and its fragment table is still to be asked for (R108, R119). -/
def descTaken (s : State) (id : Nat) (l : Launch) (desc : W512) : State :=
  ringDone (setLaunch s id { l with desc := desc, descIn := true, stage := .fragWait }) l.queue

theorem exec_descriptorArrival {desc : W512} (h : Live s = true) (hl : kget s.launches id = some l) (hst : l.stage = .fetch) :
    exec (.descriptorArrival id desc) s = .next (settle (
      if l.aborting then leave (arriveSlot (descTaken s id l desc) l.queue l.pos) id stAborted 0
      else if dFrag desc = 0 ∨ ¬ bufHandleOk (dFrag desc) ∨ ¬ hInTable (descTaken s id l desc) l.part (hIndex (dFrag desc))
        then arrived (descTaken s id l desc) id
      else fragTry (lookupFor (descTaken s id l desc) id (hIndex (dFrag desc))) id)) := by
  show execDescriptorArrival id desc s = _
  simp only [execDescriptorArrival, liveRoot_next h, hl, if_neg (not_not.mpr hst), descTaken]
  rfl

/-- A launch whose chain is unbroken stands in the Inlet once it has arrived whole (R108, R141). -/
theorem arrived_unbroken (hl : kget s.launches id = some l) (hb : l.broken = 0) :
    arrived s id = arriveSlot (setLaunch s id { l with stage := .inlet }) l.queue l.pos := by
  simp only [arrived, hl, hb, ne_self_iff_false, if_false]

theorem kget_descTaken (s : State) (id : Nat) (l : Launch) (desc : W512) :
    kget (descTaken s id l desc).launches id = some { l with desc := desc, descIn := true, stage := .fragWait } := kget_kput_self

/-- The read of a fragment table goes out where its entries find room in the queue's and the partition's share (R116, R119). -/
theorem fragTry_room {e : BitVec 128} (hl : kget s.launches id = some l) (hst : l.stage = .fragWait) (hw : l.relWant = [])
    (he : fragEntry l = some e) (hf : s.glb.frozen = false) (hroom : min (hLen64 e) 17 ≤ inletRoom s l.queue) :
    fragTry s id = { mgrRead (setLaunch s id
        { l with stage := .fragRead, entries := 1 + min (hLen64 e) 17, fragLen := min (hLen64 e) 17 }) l.part (hAddr e)
        (64 * min (hLen64 e) 17) (.fragTable id) with
      inlet := { s.inlet with reserveWait := without (s.inlet.reserveWait.filter fun k =>
        (kget s.launches k).any fun x => decide (x.stage = .fragWait)) id } } := by
  simp only [fragTry, hl, hst, hw, he, hf, hroom, List.isEmpty_nil, ne_self_iff_false, not_true_eq_false, or_self,
    Bool.false_eq_true, if_false, if_true]
  rfl

/-- The fragment table that is kept of the words that came: those its header counts (R119, R120). -/
def keptTable (got : List W512) : List W512 := if fhCount (got.headD 0) ≤ 16 then got.take (1 + fhCount (got.headD 0)) else got

/-- The launch with its fragment table, the entries that the table leaves given back (R116, R119). -/
def withTable (l : Launch) (got : List W512) : Launch :=
  { l with
    frags := keptTable got, fragIn := true, fragCount := fhCount (got.headD 0)
    fragShort := decide (fhCount (got.headD 0) ≤ 16) && decide (l.fragLen < 1 + fhCount (got.headD 0))
    entries := if l.reserved then 1 else 1 + (keptTable got).length }

/-- The state in which a fragment table has come. -/
def tableTaken (s : State) (id : Nat) (l' : Launch) : State := readDone (setLaunch s id l') (.fragTable id)

/-- What becomes of a launch whose fragment table has come (R119, R122, R125). -/
theorem exec_fragmentTableArrival {frags got : List W512} {l' : Launch} (h : Live s = true) (hl : kget s.launches id = some l)
    (hst : l.stage = .fragRead) (hgot : got = (frags ++ List.replicate 17 0).take l.fragLen) (hl' : l' = withTable l got) :
    exec (.fragmentTableArrival id frags) s = .next (settle (
      if l.aborting then leave (arriveSlot (tableTaken s id l') l.queue l.pos) id stAborted 0
      else if l.broken = 0 ∧ fragBad l' then
        (if descBad l.desc then failIn (raise (tableTaken s id l') eDescInvalid (some l.part) none) id stBadParam eDescInvalid
        else failIn (raise (tableTaken s id l') eFragInvalid (some l.part) none) id stBadParam eFragInvalid)
      else arrived (tableTaken s id l') id)) := by
  subst hl' hgot
  show execFragmentTableArrival id frags s = _
  simp only [execFragmentTableArrival, liveRoot_next h, hl, if_neg (not_not.mpr hst), tableTaken, withTable, keptTable]
  rfl

end

/-! A read meets a fault. -/

section
variable {s : State} {id addr : Nat} {l : Launch}

/-- E_HOST_READ_FAULT names queue and address, and the queue is halted (R45). -/
def readFault (s : State) (l : Launch) (addr : Nat) : State :=
  haltQueue (raiseOn s eHostReadFault (some l.part) none [(.queue, l.queue), (.addr, addr)]) l.queue 2

theorem exec_hostReadFault (h : Live s = true) (hl : kget s.launches id = some l) (hst : l.stage = .fetch ∨ l.stage = .fragRead)
    (ha : l.aborting = false) : exec (.hostReadFault id false addr) s = .next (settle (failIn (ringDone (readDone
      (setLaunch (readFault s l addr) id { l with stage := .fragWait }) (.fragTable id)) l.queue) id stAborted eHostReadFault)) := by
  have hread : ¬ (l.stage ≠ .fetch ∧ l.stage ≠ .fragRead) := by rwa [← not_or, not_not]
  show execHostReadFault id false addr s = _
  simp only [execHostReadFault, liveRoot_next h, hl, if_neg hread, ha, Bool.false_eq_true, if_false, readFault]

theorem getQueue_raiseOn (s : State) (code : Nat) (part agent : Option Nat) (named : List (Item × Nat)) (q : Nat) :
    getQueue (raiseOn s code part agent named) q = getQueue s q := by
  obtain ⟨e, g, w, h⟩ := raiseOn_shape s code part agent named
  rw [h]
  rfl

/-- An ENABLED queue that meets a fault is HALTED with its cause (R103). -/
theorem getQueue_haltQueue_enabled {q cause : Nat} (h : (getQueue s q).st = .enabled) :
    getQueue (haltQueue s q cause) q = { getQueue s q with st := .halted, haltCause := cause } := by
  rw [haltQueue, getQueue_modQueue_self, if_pos (Or.inl h)]

theorem getQueue_readFault (h : (getQueue s l.queue).st = .enabled) :
    getQueue (readFault s l addr) l.queue = { getQueue s l.queue with st := .halted, haltCause := 2 } := by
  have hst : (getQueue (raiseOn s eHostReadFault (some l.part) none [(.queue, l.queue), (.addr, addr)]) l.queue).st = .enabled := by
    rw [getQueue_raiseOn, h]
  rw [readFault, getQueue_haltQueue_enabled hst, getQueue_raiseOn]

end

/-- Settles O26: a grant and its burst, a timeslice, and the launch by the stage in which its read returns. -/
theorem inletFetch : Obligations.InletFetch := by
  refine ⟨?_, fun s p h q be hl hh hq => exec_timesliceExpiry hl hh hq, fun s id l desc h hl => ⟨?_, ?_, ?_, ?_⟩⟩
  · intro s t u p q n be h ht hf hh hbe hu hp hn
    replace hu : u = creditRound t be := hu
    subst hu
    refine ⟨?_, fun i => ?_⟩
    · show execFetchGrant s = _
      rw [execFetchGrant, liveRoot_next h, fetchGrant_eq ht hf hh hbe hp]
    · obtain ⟨j, hj⟩ := creditRound_shape s be
      have hlen : burstLen { creditRound t be with inlet := i } q = n := by rw [ht, hj, hn]; rfl
      rw [getQueue_burst, hlen, ht, hj]
      rfl
  · intro u hst hu
    replace hu : u = descTaken s id l desc := hu
    subst hu
    have hx := exec_descriptorArrival (desc := desc) h hl hst
    refine ⟨fun ha => ?_, fun ha hno => ?_, fun ha hf hok hin => ?_, fun hb => arrived_unbroken (kget_descTaken ..) hb⟩
    · rw [hx, if_pos ha]
    · rw [hx, if_neg (by simp [ha]), if_pos (by simpa using hno)]
    · rw [hx, if_neg (by simp [ha]), if_neg (by simp [hf, hok, hin])]
  · rintro e hst hw he hf hroom t rfl
    show execFragmentTableRead id s = _
    rw [execFragmentTableRead, liveRoot_next h, fragTry_room hl hst hw he hf hroom]
    rfl
  · intro frags got kept l' u hst hgot hkept hl' hu
    replace hl' : l' = withTable l got := by rw [hl', hkept]; rfl
    replace hu : u = tableTaken s id l' := hu
    subst hu
    have hx := exec_fragmentTableArrival h hl hst hgot hl'
    refine ⟨fun ha => ?_, fun ha hok => ?_, fun ha hb hbad hd => ?_⟩
    · rw [hx, if_pos ha]
    · rw [hx, if_neg (by simp [ha]), if_neg (by rcases hok with hb | hb <;> simp [hb])]
    · rw [hx, if_neg (by simp [ha]), if_pos ⟨hb, hbad⟩, if_neg (by simp [hd])]
  · intro addr u hst ha hu
    replace hu : u = readFault s l addr := hu
    subst hu
    refine ⟨exec_hostReadFault h hl hst ha, fun hen => ?_⟩
    rw [getQueue_readFault hen]
    exact ⟨rfl, rfl⟩

end Sys2Proof.Proofs.InletFetch
end

