-- ==== Sys2Proof/Proofs/InletToWeir.lean ====
section
/-! Chains leave the Inlet, the relocation unit, and fills of the handle cache (R117, R138–R140, R144, R145, R147). -/

namespace Sys2Proof.Proofs.InletToWeir
open Sys2Proof Sys2Proof.Machine Sys2Proof.Laws

/-! Chains. -/

section
variable {s : State} {q : Nat}

/-- A run ends with its 16th descriptor at the latest (R139). -/
theorem chainRun_length_le (s : State) (n : Nat) (l : List (Nat × Launch)) : (chainRun s n l).1.length ≤ n := by
  induction n generalizing l with
  | zero => simp [chainRun]
  | succ n ih =>
    cases l with
    | nil => simp [chainRun]
    | cons x t =>
      unfold chainRun
      split
      · simp
      · split
        · simp
        · split
          · simp
          · split
            · simpa using ih _
            · simp

/-- The launches of a run with the class and the chain they leave the Inlet with (R117, R140). -/
def runLeaves (s : State) (q : Nat) (x : Nat × Launch) (run : List (Nat × Launch)) : State :=
  (x :: run).foldl (fun s' y => modLaunch s' y.1 fun l => { l with
    stage := .reloc, be := (getQueue s q).be || (x :: run).any (fun z => dClass z.2.desc)
    head := if dChain x.2.desc then x.1 else 0, chainNo := ((x :: run).takeWhile (fun z => z.1 != y.1)).length }) s

theorem exec_chainLeavesInlet {x : Nat × Launch} {run : List (Nat × Launch)} (h : Live s = true)
    (hr : chainRun s 16 (inletOf s q) = (x :: run, true)) :
    exec (.chainLeavesInlet q) s = .next (settle (runLeaves s q x run)) := by
  show execChainLeavesInlet q s = _
  simp only [execChainLeavesInlet, liveRoot_next h, hr, runLeaves]

theorem modLaunch_queues (s : State) (id : Nat) (f : Launch → Launch) : (modLaunch s id f).queues = s.queues := by
  unfold modLaunch
  split <;> rfl

/-- An update of a launch leaves the same launches outstanding. -/
theorem modLaunch_isSome (s : State) (id i : Nat) (f : Launch → Launch) :
    (kget (modLaunch s id f).launches i).isSome = (kget s.launches i).isSome := by
  unfold modLaunch
  split
  · rfl
  · next x hx =>
    by_cases hi : id = i
    · subst hi
      rw [kget_kput_self, hx]
      rfl
    · rw [kget_kput_ne hi]

theorem runLeaves_queues (s : State) (q : Nat) (x : Nat × Launch) (run : List (Nat × Launch)) :
    (runLeaves s q x run).queues = s.queues :=
  List.foldlRecOn (motive := fun (u : State) => u.queues = s.queues) _ _ rfl
    fun u (hu : u.queues = s.queues) y _ => (modLaunch_queues u y.1 _).trans hu

theorem runLeaves_isSome (s : State) (q : Nat) (x : Nat × Launch) (run : List (Nat × Launch)) (i : Nat) :
    (kget (runLeaves s q x run).launches i).isSome = (kget s.launches i).isSome :=
  List.foldlRecOn (motive := fun (u : State) => (kget u.launches i).isSome = (kget s.launches i).isSome) _ _ rfl
    fun u hu y _ => (modLaunch_isSome u y.1 i _).trans hu

/-- A run that is cut short and whose time has passed completes (R139). -/
theorem exec_chainAnnounceTimeout {run : List (Nat × Launch)} (h : Live s = true) (hne : run ≠ []) (hrun : run = inletOf s q)
    (hall : ∀ x ∈ run, x.2.descIn = true ∧ dChain x.2.desc = true) (hcut : (chainRun s 16 run).2 = false)
    (hu : unissued (getQueue s q) = 0) : exec (.chainAnnounceTimeout q) s = .next (settle (run.foldl (fun s x =>
      leaveOne (raise (arriveSlot s q x.2.pos) eChainBroken (some x.2.part) none) x.1 stTimeout eChainBroken) s)) := by
  have hin : run.takeWhile (fun x => x.2.descIn) = run := List.takeWhile_eq_self_iff.mpr fun x hx => (hall x hx).1
  have hchain : run.any (fun x => !dChain x.2.desc) = false := List.any_eq_false.mpr fun x hx => by simp [(hall x hx).2]
  show execChainAnnounceTimeout q s = _
  simp only [execChainAnnounceTimeout, liveRoot_next h, ← hrun, hin, hcut, hchain, hu, List.isEmpty_iff, hne, ne_self_iff_false,
    Bool.false_eq_true, or_self, if_false]

end

/-! The relocation unit. -/

section
variable {s : State} {q id : Nat}

theorem exec_relocation {x : Nat × Launch} (h : Live s = true) (hx : oldestIn s q .reloc = some x) : exec (.relocation q) s =
    .next (settle (relocPass ((unitOf s x).foldl (fun s y => relocGo 5 y.1 s) s) q)) := by
  show execRelocation q s = _
  simp only [execRelocation, liveRoot_next h, relocQueue, hx]

/-- A constant buffer's read returns: the launch keeps the copy, or fails with the fault (R138, R147). -/
theorem exec_constBufferReadDone {l : Launch} {ok : Bool} {data : BitVec 2048} (h : Live s = true)
    (hl : kget s.launches id = some l) (hw : l.cbWait = true) (hst : l.stage = .reloc) :
    exec (.constBufferReadDone id ok data) s = .next (settle (
      if ok then relocQueue (setLaunch (readDone s (.constBuf id)) id
        { l with cbWait := false, cbData := BitVec.ofNat 2048 (fld data 0 (64 * dCbLen l.desc)) }) l.queue
      else relocPass (failAt (readDone s (.constBuf id)) id stAborted eHostReadFault) l.queue)) := by
  show execConstBufferReadDone id ok data s = _
  simp only [execConstBufferReadDone, liveRoot_next h, hl, hw, hst, not_true_eq_false, ne_self_iff_false, or_self, if_false]

end

/-! Fills of the handle cache. -/

section
variable {s : State} {p i no : Nat} {ok : Bool} {e : BitVec 128}

theorem cacheFill_getLast (s : State) (p i : Nat) (e : BitVec 128) :
    (cacheFill s p i e).hcache.lines.getLast? = some (p * 2 ^ 20 + i, e) := List.getLast?_concat

/-- A read that no launch waits for moves no launch on. -/
theorem fillLaunches_none (h : ∀ x ∈ s.launches, ∀ w ∈ x.2.relWant, w.2 ≠ no) : fillLaunches s no i ok e = s := by
  have hnone : s.launches.filter (fun x => x.2.relWant.any (fun w => w.2 == no)) = [] := by
    rw [List.filter_eq_nil_iff]
    intro x hx
    rw [Bool.not_eq_true, List.any_eq_false]
    exact fun w hw => by simpa using h x hx w hw
  rw [fillLaunches, hnone, List.foldl_nil]

/-- A read that no push waits for moves no push on. -/
theorem fillPushes_none (h : ∀ x ∈ s.pushes, x.want ≠ no + 1) : fillPushes s no ok e = s := by
  have hnone : s.pushes.filter (fun x => x.want == no + 1) = [] := by simpa [List.filter_eq_nil_iff] using h
  rw [fillPushes, hnone, List.foldl_nil]

/-- A read that no HREL waits for moves no core on. -/
theorem fillCores_none (h : ∀ x ∈ s.ctxs, ∀ d, x.2.stall ≠ some (.hrel d no)) : fillCores s no p i ok e = s := by
  rw [fillCores, List.filter_eq_nil_iff.mpr, List.foldl_nil]
  intro x hx
  rw [Bool.and_eq_true, not_and]
  intro _
  split
  · next d n hs =>
    intro hn
    exact h x hx d (by rw [hs, beq_iff_eq.mp hn])
  · exact Bool.false_ne_true

/-- The oldest fill of a key ends: its read is outstanding no more (R145). -/
def fillTaken (s : State) (f : Fill) : State :=
  readDone { s with hcache := { s.hcache with filling := s.hcache.filling.erase f } } (.handle f.no)

/-- An entry that came, and that no invalidation has covered meanwhile, enters the cache (R144, R145). -/
def fillCached (s : State) (p i : Nat) (ok : Bool) (e : BitVec 128) (f : Fill) : State :=
  if ok = true ∧ f.stale = false then cacheFill (fillTaken s f) p i e else fillTaken s f

theorem exec_handleCacheFill {f : Fill} (h : Live s = true)
    (hf : s.hcache.filling.find? (fun f => f.key == p * 2 ^ 20 + i) = some f) :
    exec (.handleCacheFill p i ok e) s = .next (settle (pumpPushes (fillCores (fillPushes
      (fillLaunches (fillCached s p i ok e f) f.no i ok e) f.no ok e) f.no p i ok e))) := by
  show execHandleCacheFill p i ok e s = _
  simp only [execHandleCacheFill, liveRoot_next h, hf, Bool.not_eq_true, fillCached, fillTaken]

theorem fillCached_launches (f : Fill) : (fillCached s p i ok e f).launches = s.launches := by
  unfold fillCached
  split <;> rfl

theorem fillCached_pushes (f : Fill) : (fillCached s p i ok e f).pushes = s.pushes := by
  unfold fillCached
  split <;> rfl

theorem fillCached_ctxs (f : Fill) : (fillCached s p i ok e f).ctxs = s.ctxs := by
  unfold fillCached
  split <;> rfl

end

/-- Settles O27: a run that is complete or cut short, the relocation unit, and a fill by whether it is cached. -/
theorem inletToWeir : Obligations.InletToWeir := by
  refine ⟨⟨?_, fun s q run h hne hrun hall hcut hu => exec_chainAnnounceTimeout h hne hrun hall hcut hu⟩,
    fun s q x h hx => exec_relocation h hx, fun s id l data h hl hw hst =>
      ⟨exec_constBufferReadDone h hl hw hst, exec_constBufferReadDone h hl hw hst⟩, ?_⟩
  · intro s t q x run h hr ht
    replace ht : t = runLeaves s q x run := ht
    subst ht
    have hlen : (x :: run).length ≤ 16 := by
      have hle := chainRun_length_le s 16 (inletOf s q)
      rwa [hr] at hle
    exact ⟨exec_chainLeavesInlet h hr, runLeaves_isSome s q x run, runLeaves_queues s q x run, hlen⟩
  · intro s t u p i ok e f h hf ht hu
    replace ht : t = fillTaken s f := ht
    replace hu : u = fillCached s p i ok e f := by rw [hu, ht]; rfl
    subst hu
    refine ⟨exec_handleCacheFill h hf, fun hok hst => ?_, fun hno => ?_, fun hl hp hc => ?_⟩
    · rw [fillCached, if_pos ⟨hok, hst⟩, cacheFill_getLast]
    · rw [fillCached, if_neg (by rintro ⟨h1, h2⟩; simp [h1, h2] at hno)]
      rfl
    · rw [← fillCached_launches f] at hl
      rw [← fillCached_pushes f] at hp
      rw [← fillCached_ctxs f] at hc
      rw [fillLaunches_none hl, fillPushes_none hp, fillCores_none hc]

end Sys2Proof.Proofs.InletToWeir
end

