-- ==== Sys2Proof/Proofs/Doorbells.lean ====
section
/-! Doorbells at the subordinate port (R6, R40, R42, R107, R110). -/

namespace Sys2Proof.Proofs.Doorbells
open Sys2Proof Sys2Proof.Machine Sys2Proof.Laws Sys2Proof.Proofs.PortAccess Sys2Proof.Proofs.Resets Sys2Proof.Proofs.ManagerWrites

section
variable {s : State} {fn q : Nat} {d : W64}

/-- The doorbell of a queue stands at the head of its slot (R40). -/
def bellAddr (q : Nat) : Nat := 0x100000 + q * 0x40

/-- A doorbell has been accepted. It is one write of a 64-bit register, so its low word is latched as the one written last (R6). -/
def bellTaken (s : State) (fn q : Nat) (d : W64) : State :=
  { s with port := { (accept s (wr64 fn (bellAddr q) d)).port with
    wlatch := halfPut s.port.wlatch (bellAddr q) (BitVec.ofNat 32 (d.toNat % 2 ^ 32)) } }

/-- The doorbell as the Inlet sees it. -/
def bellReq (fn q : Nat) (d : W64) : WrReq := { fn := fn, addr := bellAddr q, v := d.toNat, ext := 0, flag := false }

theorem regionOf_bellAddr (hq : q < 4096) : regionOf (bellAddr q) = (.db q, 0) := by
  have hdiv : (0x100000 + q * 0x40 - 0x100000) / 0x40 = q := by omega
  have hmod : (0x100000 + q * 0x40) % 0x40 = 0 := by omega
  unfold regionOf bellAddr
  rw [if_neg (by omega), if_neg (by omega), if_neg (by omega), if_neg (by omega), if_pos (by omega), hdiv, hmod]

/-- The owner of a queue reaches its doorbell slot (R42). -/
theorem admits_bell (hfn : fn < 64) (ho : (getQueue s q).owner = fn) (hst : (getQueue s q).st ≠ .unused) :
    admits s (.db q) 0 fn true = true := by
  have hman : fn ≠ Config.fnManager := Nat.ne_of_lt hfn
  simp [admits, hman, Nat.not_le.mpr hfn, ho, hst]

theorem wr64_data (fn addr : Nat) (d : W64) : (wr64 fn addr d).data.toNat = d.toNat := by
  show (d.setWidth 128).toNat = d.toNat
  rw [BitVec.toNat_setWidth]
  omega

/-- A 64-bit write of the doorbell register rings the queue's bell, and its low word is latched (R6, R40, R107). -/
theorem writeReg_bell (s : State) (fn q : Nat) (d : W64) :
    writeReg (accept s (wr64 fn (bellAddr q) d)) (.db q) 0 (wr64 fn (bellAddr q) d) 0 false =
      respond (ringBell (bellTaken s fn q d) q (bellReq fn q d)) 0 := by
  have hreg : regHolding (accept s (wr64 fn (bellAddr q) d)) (.db q) 0 = some (0, true, 0) := rfl
  have hnarrow : shaped (wr64 fn (bellAddr q) d) 4 = false := rfl
  have hwide : shaped (wr64 fn (bellAddr q) d) 8 = true := by
    have hmod : (0x100000 + q * 0x40) % 8 = 0 := by omega
    simp [shaped, wr64, bellAddr, hmod]
  have hdata : d.toNat % 2 ^ 64 = d.toNat := Nat.mod_eq_of_lt d.isLt
  simp only [writeReg, hreg, hnarrow, hwide, wr64_data, hdata, Bool.false_and, Bool.false_eq_true, if_false, and_self, if_true]
  rfl

/-- The owner's doorbell comes to the Inlet's checks, and is answered with 0 (R110). -/
theorem exec_doorbell (h : Takes s = true) (hq : q < 4096) (hfn : fn < 64) (ho : (getQueue s q).owner = fn)
    (hst : (getQueue s q).st ≠ .unused) : exec (.doorbell fn q d) s =
      .next (settle (respond (ringBell (bellTaken s fn q d) q (bellReq fn q d)) 0)) := by
  obtain ⟨hopen, hroom⟩ := takes_parts h
  have hr : isReady (accept s (wr64 fn (bellAddr q) d)) = true := takes_ready (s := s) h
  have hadmits : admits (accept s (wr64 fn (bellAddr q) d)) (.db q) 0 (wr64 fn (bellAddr q) d).fn (wr64 fn (bellAddr q) d).wr = true :=
    admits_bell hfn ho hst
  have hregion : regionOf (wr64 fn (bellAddr q) d).addr = (.db q, 0) := regionOf_bellAddr hq
  have hmax : bellAddr q < 2 ^ 26 := by unfold bellAddr; omega
  show execDoorbell fn q d s = _
  rw [execDoorbell, Nat.mod_eq_of_lt hq, liveRoot_next (takes_live h)]
  show Host.Outcome.next (settle (subAccess s (wr64 fn (bellAddr q) d) 0 false)) = _
  rw [subAccess_open hopen hmax hroom, ← writeReg_bell]
  simp only [serveAccess, hregion, hr, hadmits, not_true_eq_false, false_and, if_false]
  rfl

end

/-! An answer and the end of a quiet command leave the latches of the port as they are. -/

section
variable {s : State}

theorem respond_wlatch (s : State) (v : Nat) : (respond s v).port.wlatch = s.port.wlatch := by
  unfold respond answerOwed
  dsimp only
  split <;> rfl

/-- With no launch outstanding and no action of the Watch put down, a command ends with the port as it is. -/
theorem settle_port (ha : s.watch.actions = []) (hl : s.launches = []) : (settle s).port = s.port := by
  have hdeps : evalDeps s = s := by rw [evalDeps, hl]; rfl
  obtain ⟨m, hm⟩ := memSweep_shape s
  obtain ⟨n, hn⟩ := passSlices_shape (memSweep s)
  obtain ⟨e, he⟩ := sigVecs_shape (passSlices (memSweep s))
  rw [settle_quiet s ha, hdeps, he, hn, hm]

end

/-- READY, with queue 3 of partition 1 ENABLED, its ring empty and no word latched at the port. -/
def ringEmpty : State := { State.reset with
  glb := { State.reset.glb with blk := .ready }
  queues := [(3, { st := .enabled, owner := 1, log2 := 4 })] }

/-- Refutes O43: on `ringEmpty` the doorbell of 2 moves TAIL, but as a 64-bit write it also latches its low word at the port (R6),
which the state of the first clause leaves out. -/
theorem not_doorbellsAndFlagRegion : ¬ Obligations.DoorbellsAndFlagRegion := by
  intro h
  obtain ⟨hbell, -⟩ := h
  have htakes : Takes ringEmpty = true := by decide +kernel
  obtain ⟨hsound, -⟩ := hbell ringEmpty _ 1 3 16 (65536 * 16) 2 2 _ htakes (by decide) rfl rfl (by decide) rfl rfl rfl rfl rfl
  obtain ⟨hahead, -⟩ := hsound rfl rfl (by decide) (by decide)
  have hclaim := hahead (by decide)
  have hmodel := exec_doorbell (d := 2) htakes (by decide : 3 < 4096) (by decide : 1 < 64) rfl (by decide)
  have hends := Host.Outcome.next.inj (hclaim.symm.trans hmodel)
  have hlatch := congrArg (fun u : State => u.port.wlatch) hends
  rw [settle_port rfl rfl, settle_port rfl rfl, respond_wlatch, respond_wlatch] at hlatch
  exact absurd hlatch (by decide)

end Sys2Proof.Proofs.Doorbells
end

