-- ==== Sys2Proof/Proofs/WaitArming.lean ====
section
/-! Arming of the waits of a launch at the Weir, and their time-outs (R165–R167, R169, R173, R177, R181). -/

namespace Sys2Proof.Proofs.WaitArming
open Sys2Proof Sys2Proof.Machine Sys2Proof.Laws

/-! Arming. -/

section
variable {s : State} {q id : Nat} {l : Launch}

/-- A launch is armed when it is the oldest of its queue at the Weir, none of the queue is armed, no chain stands before it, and
the room for its entries is there (R165, R169). -/
theorem exec_waitArm (h : Live s = true) (hfrozen : s.glb.frozen = false) (hold : oldestIn s q .weirIn = some (id, l))
    (hnone : oldestIn s q .weir = none) (hhead : l.head = 0 ∨ l.head = id) (hroom : canArm s l l.waits = true) :
    exec (.waitArm q) s = .next (settle (armLaunch s id l)) := by
  have hgo : ¬ (s.glb.frozen = true ∨ (oldestIn s q .weir).isSome = true ∨ (l.head ≠ 0 ∧ l.head ≠ id) ∨
      ¬ canArm s l l.waits = true) := by
    rintro (hf | hw | ⟨h0, hid⟩ | hc)
    · simp [hfrozen] at hf
    · simp [hnone] at hw
    · exact hhead.elim h0 hid
    · exact hc hroom
  show execWaitArm q s = _
  simp only [execWaitArm, liveRoot_next h, hold, if_neg hgo]

/-- A launch without wait entries goes on to the scheduler (R165). -/
theorem armLaunch_no_waits (hw : l.waits = []) :
    armLaunch s id l = releaseChain (setLaunch s id { l with stage := .sched }) id := by
  rw [armLaunch, hw]
  rfl

/-- The entries are armed in their order, then evaluated and checked for a cycle (R165, R174, R177). -/
theorem armLaunch_waits (hw : l.waits ≠ []) : armLaunch s id l = cycleCheck (evalDeps (l.waits.foldl (fun s e => armEntry s id e)
    (notePeak (setLaunch s id { l with
      stage := .weir, waits := l.waits.map (fun e => if e.dep then { e with below := depBelow s e.crest } else e) }))))
    l.queue false := by
  rw [armLaunch, if_neg (mt List.isEmpty_iff.mp hw)]

end

/-! Time-outs. -/

section
variable {s : State} {id entry : Nat} {l : Launch} {e : WaitE}

/-- The clock of an unmet entry at this chip ends: the launch fails, unless the flag's owner is pre-empted (R166, R167, R181). -/
theorem exec_waitTimeout (h : Live s = true) (hl : kget s.launches id = some l)
    (he : openEntry l (entry % 16) (entry / 16) = some e) (hlocal : e.dep = true ∨ e.handle / 2 ^ 30 ≠ 3)
    (hruns : e.dep = true ∨ ownerPreempted s l.part e.handle = false) :
    exec (.waitTimeout id entry) s = .next (settle (waitFail s id e eWaitTimeout stTimeout
      (flagAddr s l.part e.handle (tget {} s.weir.mem (memKey l.part e.handle)).addr))) := by
  have hhere : (!e.dep && e.handle / 2 ^ 30 == 3) = false := by
    rcases hlocal with hdep | hspace
    · rw [hdep]
      rfl
    · rw [beq_eq_false_iff_ne.mpr hspace, Bool.and_false]
  have hstands : (!e.dep && ownerPreempted s l.part e.handle) = false := by
    rcases hruns with hdep | howner
    · rw [hdep]
      rfl
    · rw [howner, Bool.and_false]
  show execWaitTimeout id entry s = _
  simp only [execWaitTimeout, liveRoot_next h, hl, he, hhere, hstands, Bool.or_self, Bool.false_eq_true, if_false]

/-- The waits at other chips that stand for an entry of a launch. -/
def remoteHits (s : State) (id : Nat) (e : WaitE) : List (Nat × RWait) :=
  s.xing.waits.filter (fun x => x.2.launch == id && x.2.entry == e.entry && x.2.node == e.node)

/-- A cancel goes to the chip of each remote wait given (R173). -/
def sendCancels (s : State) (p : Nat) (hit : List (Nat × RWait)) : State :=
  hit.foldl (fun s' x => xcSend s' x.2.chip (3 + put s'.xing.chip 4 + put x.2.chip 10 + put p 16 + put x.1 46)) s

/-- The remote waits given are outstanding no more. -/
def dropWaits (s : State) (hit : List (Nat × RWait)) : State :=
  modXing s fun x => { x with waits := x.waits.filter (fun y => !hit.any (fun z => z.1 == y.1)) }

/-- A remote wait is cancelled at its chip before the launch fails (R173). -/
theorem exec_remoteWaitTimeout (h : Live s = true) (hl : kget s.launches id = some l)
    (he : openEntry l (entry % 16) (entry / 16) = some e) (hdep : e.dep = false) (hremote : e.handle / 2 ^ 30 = 3) :
    exec (.remoteWaitTimeout id entry) s = .next (settle (
      let t := dropWaits (sendCancels s l.part (remoteHits s id e)) (remoteHits s id e)
      waitFail t id e eWaitTimeout stTimeout (flagAddr t l.part e.handle 0))) := by
  have hgo : ¬ (e.dep || e.handle / 2 ^ 30 != 3) = true := by
    rw [hdep, hremote]
    decide
  show execRemoteWaitTimeout id entry s = _
  simp only [execRemoteWaitTimeout, liveRoot_next h, hl, he, if_neg hgo, dropWaits, sendCancels, remoteHits]

end

/-- Settles O28: arming by whether the launch has entries, and the time-out of an entry by whether its flag is at another chip. -/
theorem waitArming : Obligations.WaitArming := by
  refine ⟨fun s q id l h hfrozen hold hnone hhead hroom => ?_, fun s id entry l e h hl he => ⟨?_, ?_⟩⟩
  · rw [exec_waitArm h hfrozen hold hnone hhead hroom]
    exact ⟨fun hw => by rw [armLaunch_no_waits hw], fun hw => by rw [armLaunch_waits hw]⟩
  · exact exec_waitTimeout h hl he
  · intro hit t hdep hremote hhit ht
    subst hhit ht
    refine ⟨exec_remoteWaitTimeout h hl he hdep hremote, fun hnil => ?_⟩
    rw [hnil, List.foldl_nil]

end Sys2Proof.Proofs.WaitArming
end

