-- ==== Sys2Proof/Proofs/SignalApply.lean ====
section
/-! Signal operations: the one applied next, and what each leaves in the word of its flag (R155, R159–R161). -/

namespace Sys2Proof.Proofs.SignalApply
open Sys2Proof Sys2Proof.Machine Sys2Proof.Laws Sys2Proof.Proofs.Layout Sys2Proof.Proofs.Messages

/-- The next operation that can start leaves the queue and starts on its flag; one of the Outfall (source 100) is followed by the
walk of R177 for its launch's queue. -/
theorem exec_signalApply {s : State} {g : Sig} (h : Live s = true) (hfrozen : s.glb.frozen = false)
    (hg : nextSig (s.weir.sigq.filter (sigReady s)) = some g) :
    exec .signalApply s = .next (settle (
      let t := startSignal (modWeir s fun w => { w with sigq := eraseSig w.sigq g }) g
      if g.src = 100 then cycleCheck t (g.launch % 4096) true else t)) := by
  show execSignalApply s = _
  simp only [execSignalApply, liveRoot_next h, hg, hfrozen, Bool.false_eq_true, if_false, completionWalk]

/-! The word of a flag (R155): VALUE in bits 61 to 0, SAT in bit 62, POISON in bit 63. -/

/-- A flag's word with its value, POISON and SAT. -/
def flagOf (v : Nat) (poison sat : Bool) : W64 := BitVec.ofNat 64 (v + put (b2n sat) 62 + put (b2n poison) 63)

theorem b2n_mod_two (b : Bool) : b2n b % 2 ^ 1 = b2n b := Nat.mod_eq_of_lt (Nat.lt_succ_of_le (b2n_le_one b))

section
variable {v : Nat} {poison sat : Bool}

theorem flagOf_toNat (hv : v < 2 ^ 62) : (flagOf v poison sat).toNat = pack [(62, v), (1, b2n sat), (1, b2n poison)] := by
  have hsat := b2n_le_one sat
  have hpoison := b2n_le_one poison
  simp only [flagOf, BitVec.toNat_ofNat, pack, put, Nat.shiftLeft_eq]
  omega

theorem flagOf_value (hv : v < 2 ^ 62) : fld (flagOf v poison sat) 0 62 = v := by
  rw [fld, flagOf_toNat hv, nbits_pack_head, Nat.mod_eq_of_lt hv]

theorem flagOf_sat (hv : v < 2 ^ 62) : bitOf (flagOf v poison sat) 62 = sat := by
  rw [bitOf_eq_fld, fld, flagOf_toNat hv, nbits_pack_tail (by decide), nbits_pack_head,
    b2n_mod_two, b2n_beq_one]

theorem flagOf_poison (hv : v < 2 ^ 62) : bitOf (flagOf v poison sat) 63 = poison := by
  rw [bitOf_eq_fld, fld, flagOf_toNat hv, nbits_pack_tail (by decide), nbits_pack_tail (by decide), nbits_pack_head,
    b2n_mod_two, b2n_beq_one]

end

/-! What an operation leaves in a flag (R159). -/

section
variable (w : W64) (x : Nat)

theorem value_lt : fld w 0 62 < 2 ^ 62 := Nat.mod_lt _ (Nat.two_pow_pos 62)

theorem sigResult_add : (sigResult w 0 x).1 = flagOf (min (fld w 0 62 + x) (2 ^ 62 - 1)) (bitOf w 63)
    (bitOf w 62 || decide (2 ^ 62 - 1 < fld w 0 62 + x)) := rfl

theorem sigResult_sub :
    (sigResult w 1 x).1 = flagOf (fld w 0 62 - x) (bitOf w 63) (bitOf w 62 || decide (fld w 0 62 < x)) := rfl

theorem sigResult_set : (sigResult w 2 x).1 = flagOf (x % 2 ^ 62) false false := rfl

theorem sigResult_max : (sigResult w 3 x).1 = flagOf (max (fld w 0 62) x) (bitOf w 63) (bitOf w 62) := rfl

end

/-- Settles O29: the operation that is taken, and the word that ADD, SUB, SET and MAX leave. -/
theorem signalApply : Obligations.SignalApply := by
  refine ⟨fun s g h hfrozen hg t ht => ?_, fun w x hx => ?_⟩
  · subst ht
    exact exec_signalApply h hfrozen hg
  · have hw := value_lt w
    have hadd : min (fld w 0 62 + x) (2 ^ 62 - 1) < 2 ^ 62 := by omega
    have hsub : fld w 0 62 - x < 2 ^ 62 := by omega
    have hmax : max (fld w 0 62) x < 2 ^ 62 := max_lt hw hx
    have hover : (2 ^ 62 - 1 < fld w 0 62 + x) = (2 ^ 62 ≤ fld w 0 62 + x) := propext (by omega)
    rw [sigResult_add, sigResult_sub, sigResult_set, sigResult_max, Nat.mod_eq_of_lt hx]
    refine ⟨⟨flagOf_value hadd, flagOf_poison hadd, ?_⟩, ⟨flagOf_value hsub, flagOf_poison hsub, flagOf_sat hsub⟩,
      ⟨flagOf_value hx, flagOf_sat hx, flagOf_poison hx⟩, ⟨flagOf_value hmax, flagOf_poison hmax⟩⟩
    simp only [flagOf_sat hadd, hover]

end Sys2Proof.Proofs.SignalApply
end

