-- ==== Sys2Proof/Proofs/GraphNodes.lean ====
section
/-! Nodes of a graph launch: their starts by kind, their ends, and the context that a launch is given (R191, R192, R197, R201, R252,
R270). -/

namespace Sys2Proof.Proofs.GraphNodes
open Sys2Proof Sys2Proof.Machine Sys2Proof.Laws

/-! The start of a node. -/

section
variable {s t : State} {id node : Nat} {l : Launch} {g : GNode}

/-- The start of a node may be taken up: of the nodes of its running launch it is the lowest that can start (R197). -/
structure MayStart (s : State) (id node : Nat) (l : Launch) (g : GNode) : Prop where
  live : Live s = true
  unfrozen : s.glb.frozen = false
  launch : kget s.launches id = some l
  record : nodeOf s l node = some g
  running : l.stage = .running
  unaborted : l.aborting = false
  unfailed : l.failed = false
  ready : canStart s l node g = true
  lowest : (upTo node).all (fun i => (nodeOf s l i).all (fun h => !canStart s l i h)) = true

/-- A node is started, its work ended or not. -/
def markStarted (s : State) (id node : Nat) (ended : Bool) : State :=
  modNode s id node fun x => { x with st := .started, ended := ended }

/-- A CODE node begins with cleared registers, s1 its index and PC its code, and waits for a core (R192, R197). -/
def codeContext (node : Nat) (g : GNode) (c : Ctx) : Ctx :=
  { c with
    node := node, pc := (0x80000000 + g.bodyOff) % 2 ^ 32, s := tput 0 [] 1 (BitVec.ofNat 64 node), p := [], g := [], v := []
    t := [], tfmt := 0, pend := 0, pushBad := false, lastPush := none, lastBad := false, stall := none, ready := true }

/-- The context of a CODE node's launch begins with the node (R192). -/
def startCode (s : State) (id node : Nat) (l : Launch) (g : GNode) : State :=
  match l.slot with
  | none => markStarted s id node false
  | some k => modCtx (markStarted s id node false) 0x300 k (codeContext node g)

/-- A WAIT node arms its entry, unless it names no flag (R197). -/
def startWait (s : State) (id node : Nat) (l : Launch) (g : GNode) : State :=
  if wHandle g.body.toNat = 0 then markStarted s id node true
  else armEntry (notePeak (modLaunch (markStarted s id node false) id fun k =>
    { k with waits := k.waits ++ [nodeWait s l node g] })) id (nodeWait s l node g)

/-- The SET of a SIGNAL node to a flag of another chip (R375). -/
def nodeSet (id node : Nat) (l : Launch) (g : GNode) : RSet :=
  { part := l.part, chip := nbits (sHandle g.body.toNat) 24 6, index := sHandle g.body.toNat % 65536, value := sValue g.body.toNat
    poison := false, launch := id, node := node + 1 }

/-- The operation of a SIGNAL node at this chip (R192). -/
def nodeSig (s : State) (id node : Nat) (l : Launch) (g : GNode) : Sig :=
  { src := 100, part := l.part, handle := sHandle g.body.toNat, op := sOp g.body.toNat, x := sValue g.body.toNat, launch := id
    node := node + 1, addr := memFlagAddr s l.part (sHandle g.body.toNat) (some l) true }

/-- A SIGNAL node's operation is queued, at the Crossing for a SET to another chip, unless it names no flag (R197). -/
def startSignal (s : State) (id node : Nat) (l : Launch) (g : GNode) : State :=
  let u := markStarted s id node (decide (sHandle g.body.toNat = 0))
  if sHandle g.body.toNat = 0 then u
  else if sHandle g.body.toNat / 2 ^ 30 = 3 ∧ sOp g.body.toNat = 2 then
    modXing u fun x => { x with sets := x.sets ++ [nodeSet id node l g] }
  else queueSigs u [nodeSig u id node l g]

/-- What the start of a node does once the code cache has its lines, by its kind (R192, R197). -/
def startNode (s : State) (id node : Nat) (l : Launch) (g : GNode) : State :=
  match g.kind with
  | 1 => startCode s id node l g
  | 2 => pumpPushes (pushNode (l.nodes.length + 1) s id node none)
  | 3 => startWait s id node l g
  | 4 => startSignal s id node l g
  | _ => graphSettle (completeNode (l.nodes.length + 1) s id node) id

theorem startNode_join (hk : g.kind = 5) :
    startNode s id node l g = graphSettle (completeNode (l.nodes.length + 1) s id node) id := by
  simp only [startNode, hk]

theorem startNode_code (hk : g.kind = 1) : startNode s id node l g = startCode s id node l g := by simp only [startNode, hk]

theorem startNode_mop (hk : g.kind = 2) :
    startNode s id node l g = pumpPushes (pushNode (l.nodes.length + 1) s id node none) := by
  simp only [startNode, hk]

theorem startNode_wait (hk : g.kind = 3) : startNode s id node l g = startWait s id node l g := by simp only [startNode, hk]

theorem startNode_signal (hk : g.kind = 4) : startNode s id node l g = startSignal s id node l g := by simp only [startNode, hk]

/-- A node that may start has its lines in the code cache first (R201). -/
theorem exec_nodeStart (h : MayStart s id node l g) : exec (.nodeStart id node) s = .next (settle (
    if (startLines s l node).all s.ccache.contains = true then startNode ((startLines s l node).foldl lineUsed s) id node l g
    else ((startLines s l node).filter (fun k => !s.ccache.contains k)).foldl lineWant s)) := by
  have hgo : ¬ (l.stage ≠ .running ∨ l.aborting = true ∨ l.failed = true ∨ s.glb.frozen = true ∨ ¬ canStart s l node g = true ∨
      ¬ (upTo node).all (fun i => (nodeOf s l i).all (fun h => !canStart s l i h)) = true) := by
    simp [h.running, h.unaborted, h.unfailed, h.unfrozen, h.ready, h.lowest]
  show execNodeStart id node s = _
  simp only [execNodeStart, liveRoot_next h.live, h.launch, h.record, if_neg hgo, ite_not]
  rfl

end

/-! The end of a node. -/

theorem exec_nodeComplete {s : State} {id node : Nat} {l : Launch} {g : GNode} (h : Live s = true)
    (hl : kget s.launches id = some l) (hg : nodeOf s l node = some g) (hopen : isDone l = false) (ha : l.aborting = false)
    (hwork : workDone s l node g = true) :
    exec (.nodeComplete id node) s = .next (settle (graphSettle (completeNode (l.nodes.length + 1) s id node) id)) := by
  have hgo : ¬ (isDone l = true ∨ l.aborting = true ∨ ¬ workDone s l node g = true) := by simp [hopen, ha, hwork]
  show execNodeComplete id node s = _
  simp only [execNodeComplete, liveRoot_next h, hl, hg, if_neg hgo]

/-! The context of a launch. -/

section
variable {s : State} {id k core : Nat} {l : Launch} {g : Generation}

/-- The lowest core of 0 to 6 that has the slices free, or else the lowest that can free them (R252, R270). -/
def coreFor (s : State) (k : Nat) (g : Generation) : Option Nat :=
  (((upTo 7).map (fun n => 0x300 + n)).find? (fun c => decide (g.slices ≤ (freeSlicesOf s c).length))).orElse
    (fun _ => ((upTo 7).map (fun n => 0x300 + n)).find? (fun c => canSlices s c k g.slices))

/-- The state in which the save slot is taken and the core has its slices free (R270, R281). -/
def roomMade (s : State) (k core : Nat) (g : Generation) : State := makeRoom (takeSlot s k) core k g.slices

/-- The slices that a context is given. -/
def slicesFor (s : State) (k core : Nat) (g : Generation) : List Nat := (freeSlicesOf (roomMade s k core g) core).take g.slices

/-- The context that a launch is given (R191, R252). -/
def newContext (s : State) (id k core : Nat) (l : Launch) (g : Generation) : Ctx :=
  { launch := id, part := l.part, be := l.be, core := core, nslices := g.slices, slices := slicesFor s k core g, gen := l.gen
    tick := l.admTick }

/-- The state in which a context stands in its save slot. -/
def ctxStored (s : State) (k : Nat) (c : Ctx) : State := { s with ctxs := kput s.ctxs k c }

/-- The launch with its context, those of its nodes ready that have no predecessor (R191, R197). -/
def contextGiven (s : State) (id k core : Nat) (l : Launch) (g : Generation) : State :=
  setLaunch (layOut (ctxStored (takeSlices (roomMade s k core g) core k (slicesFor s k core g)) k (newContext s id k core l g)) core
    (newContext s id k core l g) (argArea l)) id { l with
      ctxWanted := false, slot := some k
      nodes := g.nodes.map (fun n => { left := n.npred, st := if n.npred = 0 then .ready else .blocked }) }

/-- The JOIN nodes without predecessors, which complete at once (R196). -/
def joinRoots (g : Generation) : List Nat :=
  (upTo g.nodes.length).filter (fun i => (g.nodes[i]?).any (fun n => n.kind == 5 && n.npred == 0))

theorem exec_graphContextStart (h : Live s = true) (hfrozen : s.glb.frozen = false) (hl : kget s.launches id = some l)
    (hst : l.stage = .running) (hwant : l.ctxWanted = true) (ha : l.aborting = false) (hg : genOf s l = some g)
    (hslot : freeSlot s = some k) (hcore : coreFor s k g = some core) :
    exec (.graphContextStart id) s = .next (settle (graphSettle ((joinRoots g).foldl
      (fun s i => completeNode (g.nodes.length + 1) s id i) ((nodeLookups (contextGiven s id k core l g) l).foldl
        (fun s i => lookupFor s id i) (contextGiven s id k core l g))) id)) := by
  have hgo : ¬ (l.stage ≠ .running ∨ ¬ l.ctxWanted = true ∨ l.aborting = true ∨ s.glb.frozen = true) := by
    simp [hst, hwant, ha, hfrozen]
  rw [coreFor] at hcore
  show execGraphContextStart id s = _
  simp only [execGraphContextStart, liveRoot_next h, hl, if_neg hgo, hg, hslot, hcore]
  rfl

theorem modCore_ctxs (s : State) (core : Nat) (f : Core → Core) : (modCore s core f).ctxs = s.ctxs := by
  rw [modCore]
  split <;> rfl

/-- The context stands in its slot: its layout goes to the core's data memory (R252). -/
theorem kget_contextGiven : kget (contextGiven s id k core l g).ctxs k = some (newContext s id k core l g) := by
  rw [contextGiven, setLaunch_ctxs, layOut, modCore_ctxs]
  exact kget_kput_self

/-- A slice that is given was held by nobody. -/
theorem slicesFor_unowned {i : Nat} (hi : i ∈ slicesFor s k core g) : tget 0 (getCore (roomMade s k core g) core).owner i = 0 := by
  have hfree : i ∈ freeSlicesOf (roomMade s k core g) core := List.mem_of_mem_take hi
  simpa using (List.mem_filter.mp hfree).2

end

/-- Settles O31: a node's start by whether its lines are there and by its kind, its end, and the context of its launch. -/
theorem graphNodes : Obligations.GraphNodes := by
  refine ⟨?_, fun s id node l g h hl hg hopen ha hwork => exec_nodeComplete h hl hg hopen ha hwork, ?_⟩
  · intro s t id node l g hlive hfrozen hl hg hst ha hf hcan hlow
    have hx := exec_nodeStart ⟨hlive, hfrozen, hl, hg, hst, ha, hf, hcan, hlow⟩
    refine ⟨fun hmiss => ?_, fun hlines ht => ?_⟩
    · rw [hx, if_neg (by rw [hmiss]; decide)]
    · rw [if_pos hlines, ← ht] at hx
      rw [hx]
      refine ⟨fun hk => ?_, fun hk => ?_, fun k hk hslot => ?_, fun hk hh => ?_, fun hk hh => ?_, fun h u hk hh hu => ?_⟩
      · rw [startNode_join hk]
      · rw [startNode_mop hk]
      · rw [startNode_code hk, startCode, hslot]
        rfl
      · rw [startNode_wait hk, startWait, if_pos hh]
        rfl
      · rw [startNode_wait hk, startWait, if_neg hh]
        rfl
      · subst hh hu
        rw [startNode_signal hk, startSignal]
        refine ⟨fun hzero => ?_, fun hne hspace hop => ?_, fun hne hhere => ?_⟩
        · rw [if_pos hzero]
          rfl
        · rw [if_neg hne, if_pos ⟨hspace, hop⟩]
          rfl
        · rw [if_neg hne, if_neg (not_and_or.mpr hhere)]
          rfl
  · rintro s t u v id k core l g ids roots c h hfrozen hl hst hwant ha hg hslot hcore rfl rfl rfl rfl rfl rfl
    exact ⟨exec_graphContextStart h hfrozen hl hst hwant ha hg hslot hcore, kget_contextGiven, rfl, fun i => slicesFor_unowned⟩

end Sys2Proof.Proofs.GraphNodes
end

