-- ==== Sys2Proof/Proofs/Translation.lean ====
section
/-! Translation of graph images by core 7: the image is read, and its generation becomes current or the command fails (R188–R191,
R202, R324–R326). -/

namespace Sys2Proof.Proofs.Translation
open Sys2Proof Sys2Proof.Machine Sys2Proof.Laws

/-! The image is read. -/

/-- Reads of a function, one for each range of bytes given. -/
def readRanges (s : State) (fn : Nat) (k : RdKind) (ranges : List (Nat × Nat)) : State :=
  ranges.foldl (fun s x => mgrRead s fn x.1 x.2 k) s

section
variable {s : State} {fn : Nat} {k : RdKind} {ranges : List (Nat × Nat)}

/-- Reads change the manager port alone. -/
theorem readRanges_iz : (readRanges s fn k ranges).iz = s.iz :=
  List.foldlRecOn (motive := fun (u : State) => u.iz = s.iz) _ _ rfl fun (_ : State) h _ _ => h

/-- The reads that stand out are those before and reads of the function. -/
theorem mem_readRanges_reads : ∀ r ∈ (readRanges s fn k ranges).port.reads, r ∈ s.port.reads ∨ r.fn = fn :=
  List.foldlRecOn (motive := fun (u : State) => ∀ r ∈ u.port.reads, r ∈ s.port.reads ∨ r.fn = fn) _ _ (fun _ => Or.inl)
    fun (u : State) h x _ r hr => by
      rcases List.mem_append.mp hr with hold | hnew
      · exact h r hold
      · exact Or.inr (by rw [List.mem_singleton.mp hnew])

end

/-- The state in which Iznum has taken the first job of its queue (R324). -/
def jobTaken (s : State) (j : Job) (ok : Bool) (image : List Byte) (rest : List Job) : State :=
  { s with iz := { s.iz with busy := some { j with image := image, readOk := ok }, queue := rest } }

theorem exec_translationStart {s : State} {ok : Bool} {image : List Byte} {j : Job} {rest : List Job} (h : Live s = true)
    (hidle : s.iz.busy = none) (hq : s.iz.queue = j :: rest) (hfrozen : s.glb.frozen = false) (hheld : izHeld s = false)
    (hlen : ok = true → image.length = pktB j.pkt 16 4) :
    exec (.translationStart ok image) s = .next (settle (readRanges (jobTaken s j ok image rest) j.q .image
      (cutReads (pktB j.pkt 16 4 / 4096 + 2) (pktB j.pkt 8 8) (pktB j.pkt 16 4)))) := by
  have hgo : ¬ (s.glb.frozen = true ∨ izHeld s = true ∨ (ok = true ∧ image.length ≠ pktB j.pkt 16 4)) := by
    simpa [hfrozen, hheld] using hlen
  show execTranslationStart ok image s = _
  simp only [execTranslationStart, liveRoot_next h, hidle, hq, if_neg hgo]
  rfl

/-! The checks. -/

/-- The first check of R325: an image that could not be read fails with code 0x11. -/
theorem izCheck_unread {s : State} {j : Job} {parent : Option Generation} {o : TransOut} (h : j.readOk = false) :
    izCheck s j parent o = some (0x11, 0) := by
  simp only [izCheck, h, Bool.false_eq_true, not_false_eq_true, if_true]

/-! The translation ends. -/

section
variable {s t : State} {j : Job} {o : TransOut}

/-- The generation that a PATCH starts from: the current one of its context (R202). -/
def parentOf (t : State) (j : Job) : Option Generation :=
  if j.patch then (getGctx t j.gctx).gens.find? (fun g => g.num == (getGctx t j.gctx).cur) else none

/-- The partition's arena to which a job's pages go (R187). -/
def arenaOf (t : State) (j : Job) : Arena := getArena t (getGctx t j.gctx).owner

/-- The generation of a job before it has pages. -/
def draftOf (t : State) (j : Job) (o : TransOut) : Generation := draftGen t j (getGctx t j.gctx) (parentOf t j) o

/-- The pages that a job changes (R202). -/
def newPages (t : State) (j : Job) (o : TransOut) : List Nat := changedPages (parentOf t j) (draftOf t j o)

/-- The generation of a job with its pages and addresses (R190, R202). -/
def genMade (t : State) (j : Job) (o : TransOut) : Generation :=
  withAddrs (arenaOf t j) (takePages t (getGctx t j.gctx).owner (parentOf t j) (draftOf t j o) (newPages t j o)) j.gctx

/-- The arena holds the pages of the job beside those of the partition's live generations (R206). -/
def RoomFor (t : State) (j : Job) (o : TransOut) : Prop :=
  (arenaPages t (getGctx t j.gctx).owner).length + (newPages t j o).length ≤ (arenaOf t j).size * 16

/-- The state in which the pages of the job's generation have gone to the arena. -/
def pagesWritten (t : State) (j : Job) (o : TransOut) : State :=
  (newPages t j o).foldl (writePage (arenaOf t j) (genMade t j o)) t

/-- The state in which the job's generation is current (R189, R194). -/
def genCurrent (t : State) (j : Job) (o : TransOut) : State := makeCurrent (pagesWritten t j o) j (genMade t j o)

/-- The state in which core 7 is free again, the translation counted (R335). -/
def translated (t : State) (j : Job) (o : TransOut) : State :=
  tcNote { genCurrent t j o with iz := { (genCurrent t j o).iz with busy := none } } j (parentOf t j) o

/-- An image that breaks a check fails with its code and offset (R325, R326). -/
theorem exec_translationEnd_fault {code off : Nat} (h : Live s = true) (hb : s.iz.busy = some j) (ht : t = readDone s .image)
    (hc : izCheck t j (parentOf t j) o = some (code, off)) : exec (.translationEnd o) s = .next (settle (izFail
      (if code = 0x12 then raiseOn t eScIllegal none none [(.core, 0x307)] else t) j (izStatus code)
      (code + put (off % 2 ^ 31) 16 + put 1 47))) := by
  subst ht
  rw [parentOf] at hc
  show execTranslationEnd o s = _
  simp only [execTranslationEnd, liveRoot_next h, hb, hc]

/-- An image that could not be read fails with code 0x11 at offset 0 (R325). -/
theorem exec_translationEnd_unread (h : Live s = true) (hb : s.iz.busy = some j) (ht : t = readDone s .image)
    (hread : j.readOk = false) :
    exec (.translationEnd o) s = .next (settle (izFail t j stBadParam (0x11 + put 1 47))) := by
  have hstatus : izStatus 0x11 = stBadParam := rfl
  have hoff : put (0 % 2 ^ 31) 16 = 0 := rfl
  rw [exec_translationEnd_fault h hb ht (izCheck_unread hread), if_neg (by decide), hstatus, hoff, Nat.add_zero]

/-- An image without fault whose pages find no room fails with ST_NO_RESOURCE (R188). -/
theorem exec_translationEnd_full (h : Live s = true) (hb : s.iz.busy = some j) (ht : t = readDone s .image)
    (hc : izCheck t j (parentOf t j) o = none) (hroom : ¬ RoomFor t j o) :
    exec (.translationEnd o) s = .next (settle (izFail t j stNoResource 9)) := by
  subst ht
  rw [RoomFor, Nat.not_le] at hroom
  rw [parentOf] at hc
  show execTranslationEnd o s = _
  simp only [execTranslationEnd, liveRoot_next h, hb, hc]
  exact congrArg (Host.Outcome.next ∘ settle) (if_pos hroom)

/-- An image without fault whose pages find room becomes the current generation (R189, R202). -/
theorem exec_translationEnd_ok (h : Live s = true) (hb : s.iz.busy = some j) (ht : t = readDone s .image)
    (hc : izCheck t j (parentOf t j) o = none) (hroom : RoomFor t j o) :
    exec (.translationEnd o) s = .next (settle (admOk (translated t j o) j.q j.pkt (objState (translated t j o) j.q j.pkt)
      ((genMade t j o).num + put ((newPages t j o).length % 2 ^ 20) 16))) := by
  subst ht
  rw [RoomFor, ← Nat.not_lt] at hroom
  rw [parentOf] at hc
  show execTranslationEnd o s = _
  simp only [execTranslationEnd, liveRoot_next h, hb, hc]
  exact congrArg (Host.Outcome.next ∘ settle) (if_neg hroom)

/-- A generation takes its number from its context's counter (R189). -/
theorem genMade_num : (genMade t j o).num = (getGctx t j.gctx).counter := rfl

/-- Writes to the arena leave the graph contexts alone. -/
theorem getGctx_pagesWritten {c : Nat} : getGctx (pagesWritten t j o) c = getGctx t c :=
  List.foldlRecOn (motive := fun (u : State) => getGctx u c = getGctx t c) _ _ rfl fun (_ : State) h _ _ => h

/-- The job's generation is current, beside those that are pinned (R189, R204). -/
theorem getGctx_genCurrent : getGctx (genCurrent t j o) j.gctx =
    { getGctx t j.gctx with
      st := 2, cur := (genMade t j o).num, counter := nextGen (getGctx t j.gctx).counter
      gens := (getGctx t j.gctx).gens.filter (fun y => y.pins != 0) ++ [genMade t j o] } := by
  rw [genCurrent, makeCurrent, getGctx_modGctx_self, getGctx_pagesWritten]

end

/-- Settles O48: the job that is taken with its reads, then its end by the checks and the room in the arena. -/
theorem translation : Obligations.Translation := by
  refine fun s h => ⟨?_, ?_⟩
  · rintro ok image j rest t hidle hq hfrozen hheld hlen rfl
    exact ⟨exec_translationStart h hidle hq hfrozen hheld hlen, congrArg Iz.queue readRanges_iz, mem_readRanges_reads⟩
  · rintro o j t gx a parent d new hb ht rfl rfl rfl rfl rfl
    refine ⟨?_, fun hc hfull => exec_translationEnd_full h hb ht hc (Nat.not_le.mpr hfull), exec_translationEnd_unread h hb ht⟩
    intro hc hroom g u v hg hu hv
    replace hg : g = genMade t j o := hg
    subst hg
    replace hu : u = genCurrent t j o := hu
    subst hu
    replace hv : v = translated t j o := hv
    subst hv
    rw [getGctx_genCurrent]
    exact ⟨exec_translationEnd_ok h hb ht hc hroom, rfl, rfl, genMade_num, rfl, List.length_append⟩

end Sys2Proof.Proofs.Translation
end

