-- ==== Sys2Proof/Proofs/SluiceTick.lean ====
section
/-! The tick: the order of its work, and what of the scheduler and the Service each part of it leaves alone (R209–R211, R234–R237). -/

namespace Sys2Proof.Proofs.SluiceTick
open Sys2Proof Sys2Proof.Machine Sys2Proof.Laws

/-! The clock of the tick: the scheduler without the figures it keeps. -/

/-- The scheduler without the figures and the energy counts of its periods. -/
def noFigures (c : Sched) : Sched :=
  { c with figs := [], stat := 0, energy := [], eidleNj := 0, nsPart := [], nsQueue := [], remPart := [], remQueue := [] }

/-- Two states agree in the Service and in all of the scheduler but its figures. -/
structure SameClock (s t : State) : Prop where
  sched : noFigures t.sched = noFigures s.sched
  svc : t.svc = s.svc

/-- A status bit of a partition changes its record, the scheduler's summary and the event port alone (R235). -/
theorem sstatSet_shape (s : State) (p bit : Nat) :
    ∃ t e n, sstatSet s p bit = { s with parts := t, evt := e, sched := { s.sched with stat := n } } := by
  unfold sstatSet
  dsimp only
  generalize hu : (if (getPart s p).sstat.testBit bit = true then _ else _ : State) = u
  have hpart : ∃ t e, u = { s with parts := t, evt := e } := by
    subst hu
    split
    · exact ⟨_, s.evt, rfl⟩
    · obtain ⟨e, h⟩ := reqVec_shape (modPart s p fun x => { x with sstat := setBit x.sstat bit }) (4096 + 4 * p + 3)
      exact ⟨_, e, h⟩
  obtain ⟨t, e, rfl⟩ := hpart
  split
  · exact ⟨t, e, _, rfl⟩
  · obtain ⟨e', h⟩ := reqVec_shape
      (modSched { s with parts := t, evt := e } fun c => { c with stat := setBit c.stat bit }) 4354
    exact ⟨t, e', _, h⟩

namespace SameClock
variable {s t u : State}

theorem refl : SameClock s s := ⟨rfl, rfl⟩

theorem ite {c : Prop} [Decidable c] (ht : SameClock s t) (hu : SameClock s u) : SameClock s (if c then t else u) := by
  split
  · exact ht
  · exact hu

theorem foldl {α : Type} {f : State → α → State} {l : List α} (ht : SameClock s t)
    (hf : ∀ v x, SameClock s v → SameClock s (f v x)) : SameClock s (l.foldl f t) :=
  List.foldlRecOn (motive := SameClock s) l f ht fun v hv x _ => hf v x hv

theorem modSched {f : Sched → Sched} (ht : SameClock s t) (hf : ∀ c, noFigures (f c) = noFigures c) :
    SameClock s (modSched t f) := ⟨(hf _).trans ht.sched, ht.svc⟩

theorem modFig {p : Nat} {f : PFig → PFig} (ht : SameClock s t) : SameClock s (modFig t p f) := ⟨ht.sched, ht.svc⟩

theorem modPart {p : Nat} {f : Part → Part} (ht : SameClock s t) : SameClock s (modPart t p f) := ⟨ht.sched, ht.svc⟩

theorem modQueue {q : Nat} {f : Queue → Queue} (ht : SameClock s t) : SameClock s (modQueue t q f) := ⟨ht.sched, ht.svc⟩

theorem sendDown {a : Nat} {m : Msg} (ht : SameClock s t) : SameClock s (sendDown t a m) := ⟨ht.sched, ht.svc⟩

theorem sstatSet {p bit : Nat} (ht : SameClock s t) : SameClock s (sstatSet t p bit) := by
  obtain ⟨x, e, n, h⟩ := sstatSet_shape t p bit
  rw [h]
  exact ⟨ht.sched, ht.svc⟩

/-- The figures of the period close (R234). -/
theorem closeFigs {p : Nat} (ht : SameClock s t) : SameClock s (closeFigs t p) :=
  ite (modPart (modFig ht)).sstatSet (modPart (modFig ht))

/-- The energy of an engine queue is shared out between its partitions and their queues (R237). -/
theorem energyStep {eq counter : Nat} (ht : SameClock s t) : SameClock s (energyStep t eq counter) := by
  have hread : SameClock s (Machine.modSched t fun c => { c with energy := tput 0 t.sched.energy eq (counter % 2 ^ 32) }) :=
    ht.modSched fun _ => by simp only [noFigures]
  refine ite (hread.modSched fun _ => by simp only [noFigures]) (foldl (hread.modSched fun _ => by simp only [noFigures])
    fun v x hv => ite hv.modFig (foldl (hv.modFig.modSched fun _ => by simp only [noFigures]) fun w y hw => hw.modQueue))

end SameClock

/-! The tick itself. -/

/-- The tick has begun: it counts, and the PERIOD written since is in force (R209–R211, step 1). -/
def tickBegun (s : State) : State :=
  modSched s fun c => { c with
    tickNo := s.sched.tickNo + 1, elapsed := 0, period := nextPeriod s, periodNext := c.periodLate, periodLate := none }

/-- The agents in service have been sent the tick (R211, step 1). -/
def tickSent (s : State) : State :=
  (upTo s.par.numAgents).foldl
    (fun s' a => if agtUp s' a then sendDown s' a (.tick (s.sched.tickNo + 1) (nextPeriod s)) else s') (tickBegun s)

/-- The figures of the period are closed and its energy is shared out (R211, step 2; R234, R237). -/
def periodClosed (s : State) (energy : List (Nat × Nat)) : State :=
  energy.foldl (fun s (x : Nat × Nat) => energyStep s x.1 x.2) ((upTo 64).foldl closeFigs (tickSent s))

/-- The bookings of the next period are those of the period (R211, step 3). -/
def bookingsTurned (s : State) (energy : List (Nat × Nat)) : State :=
  modSched (periodClosed s energy) fun c => { c with nsPart := [], nsQueue := [], bookCur := c.bookNext, bookNext := [] }

/-- The scheduling work of a tick (R211, steps 4 to 8), none while the block is frozen. -/
def tickWork (u : State) : State :=
  if u.glb.frozen then u
  else tickPreempt (recheck (recheck (carryForward (rebook (sendBooked u))) false true fun _ => true) true true fun _ => true)

theorem exec_sluiceTick {s : State} (energy : List (Nat × Nat)) (h : s.glb.scanLost = false) (hr : s.glb.blk = .ready) :
    exec (.sluiceTick energy) s = .next (settle (takeStaged (tickWork (bookingsTurned s energy)))) := by
  have hlive : Live s = true := by simp [Live, h, hr]
  show execSluiceTick energy s = _
  simp only [execSluiceTick, liveRoot_next hlive, if_neg (not_not.mpr hr)]
  rfl

/-- The work of the tick on links, figures and energy leaves the scheduler's clock as the tick set it. -/
theorem periodClosed_sameClock (s : State) (energy : List (Nat × Nat)) : SameClock (tickBegun s) (periodClosed s energy) :=
  have hsent : SameClock (tickBegun s) (tickSent s) := SameClock.refl.foldl fun _ _ h => .ite h.sendDown h
  (hsent.foldl fun _ _ h => h.closeFigs).foldl fun _ _ h => h.energyStep

/-- The clock after the bookings have turned: as the tick set it, those of the next period in force (R211, step 3). -/
theorem bookingsTurned_clock (s : State) (energy : List (Nat × Nat)) :
    noFigures (bookingsTurned s energy).sched = noFigures
      { (tickBegun s).sched with bookCur := s.sched.bookNext, bookNext := [] } ∧ (bookingsTurned s energy).svc = s.svc := by
  obtain ⟨hsched, hsvc⟩ := periodClosed_sameClock s energy
  exact ⟨congrArg (fun c : Sched => { c with bookCur := c.bookNext, bookNext := [] }) hsched, hsvc⟩

/-- Outside a mode change the PERIOD in force is the one written last (R210). -/
theorem nextPeriod_steady {s : State} (h : s.svc.mc.state = 0) : nextPeriod s = s.sched.periodNext.getD s.sched.period := by
  simp [nextPeriod, h]

/-! The values staged. -/

/-- The mode written is in force; its change stands in the audit log (R479, R494). -/
theorem takeMode_shape (s : State) : ∃ e l, takeMode s = { s with
    svc := { s.svc with mode := s.svc.modeNext.getD s.svc.mode, modeNext := none }, evt := e, log := l } := by
  unfold takeMode
  split
  · next hm =>
    refine ⟨s.evt, s.log, ?_⟩
    rw [hm, Option.getD_none, ← hm]
  · next m hm =>
    obtain ⟨e, l, h⟩ := audit_shape (modSvc s fun v => { v with mode := m, modeNext := none }) 7 Config.fnNone 7 5 0 (put m 48)
    refine ⟨e, l, ?_⟩
    rw [h, hm]
    rfl

/-- SCH_CTRL as written takes effect (R211, step 9). -/
def ctrlTaken (c : Sched) : Sched :=
  match c.ctrlNext with
  | some w => { c with allow := fld w 0 7, slowThr := fld w 16 16, ctrlNext := none }
  | none => c

/-- SCH_FILL as written takes effect (R211, step 9). -/
def fillTaken (c : Sched) : Sched :=
  match c.fillNext with
  | some (v, src) => { c with ceil := v, source := src, fillNext := none }
  | none => c

/-- SCH_CSLICE as written takes effect (R211, step 9). -/
def csliceTaken (c : Sched) : Sched :=
  match c.csliceNext with
  | some v => { c with cslice := v, csliceNext := none }
  | none => c

/-- SCH_EQCAP as written takes effect (R211, step 9). -/
def capsTaken (c : Sched) : Sched :=
  { c with
    eqcap := c.eqcapNext.foldl (fun t (x : Nat × W32) => tput 0 t x.1 (setFld (tget 0 t x.1) 12 12 (fld x.2 12 12))) c.eqcap
    eqcapNext := [] }

/-- The clocks measured of the agents in service are in use (R57). -/
def clocksTaken (s : State) : State :=
  s.sched.measNext.foldl (fun s (x : Nat × Nat) => if agtUp s x.1 then setMeas s x.1 x.2 else s) s

theorem takeStaged_eq (s : State) : takeStaged s =
    modWatch (modSched (clocksTaken (modSched (takeMode s) fun c => capsTaken (csliceTaken (fillTaken (ctrlTaken c)))))
      fun c => { c with measNext := [] }) fun w => { w with
        cfg := w.cfgNext.foldl (fun t (x : Nat × W32) => tput 0 t x.1 x.2) w.cfg, cfgNext := [] } := rfl

section
variable (c : Sched) (s : State)

theorem ctrlTaken_cslice : (ctrlTaken c).csliceNext = c.csliceNext ∧ (ctrlTaken c).cslice = c.cslice := by
  unfold ctrlTaken
  split <;> exact ⟨rfl, rfl⟩

theorem fillTaken_cslice : (fillTaken c).csliceNext = c.csliceNext ∧ (fillTaken c).cslice = c.cslice := by
  unfold fillTaken
  split <;> exact ⟨rfl, rfl⟩

theorem csliceTaken_cslice : (csliceTaken c).cslice = c.csliceNext.getD c.cslice ∧ (csliceTaken c).csliceNext = none := by
  unfold csliceTaken
  split
  · next v hv => exact ⟨by rw [hv]; rfl, rfl⟩
  · next hv => exact ⟨by rw [hv]; rfl, hv⟩

theorem clocksTaken_shape : ∃ t, clocksTaken s = { s with sched := { s.sched with eqcap := t } } :=
  List.foldlRecOn (motive := fun (u : State) => ∃ t, u = { s with sched := { s.sched with eqcap := t } }) _ _ ⟨s.sched.eqcap, rfl⟩
    fun (u : State) hu x _ => by
      obtain ⟨t, rfl⟩ := hu
      split
      · exact ⟨_, rfl⟩
      · exact ⟨t, rfl⟩

/-- The core slice written is in force after a tick, and none is staged any more (R211, step 9). -/
theorem takeStaged_cslice : (takeStaged s).sched.cslice = s.sched.csliceNext.getD s.sched.cslice ∧
    (takeStaged s).sched.csliceNext = none := by
  obtain ⟨e, l, hmode⟩ := takeMode_shape s
  obtain ⟨t, hclocks⟩ := clocksTaken_shape (modSched (takeMode s) fun c => capsTaken (csliceTaken (fillTaken (ctrlTaken c))))
  obtain ⟨hnext, hold⟩ := ctrlTaken_cslice s.sched
  obtain ⟨hnext', hold'⟩ := fillTaken_cslice (ctrlTaken s.sched)
  obtain ⟨hslice, hnone⟩ := csliceTaken_cslice (fillTaken (ctrlTaken s.sched))
  rw [hnext', hold', hnext, hold] at hslice
  rw [takeStaged_eq, hclocks, hmode]
  exact ⟨hslice, hnone⟩

theorem takeStaged_svc : (takeStaged s).svc = { s.svc with mode := s.svc.modeNext.getD s.svc.mode, modeNext := none } := by
  obtain ⟨e, l, hmode⟩ := takeMode_shape s
  obtain ⟨t, hclocks⟩ := clocksTaken_shape (modSched (takeMode s) fun c => capsTaken (csliceTaken (fillTaken (ctrlTaken c))))
  rw [takeStaged_eq, hclocks, hmode]
  rfl

end

/-- Settles O25: the tick's work in its order, the clock it sets left alone by the rest, and the values staged taken last. -/
theorem sluiceTick : Obligations.SluiceTick := by
  intro s t u energy hscan hready ht hturned
  have hu : u = bookingsTurned s energy := by
    rw [hturned, ht]
    rfl
  subst hu
  obtain ⟨hclock, hsvc⟩ := bookingsTurned_clock s energy
  obtain ⟨hslice, hnone⟩ := takeStaged_cslice (bookingsTurned s energy)
  have hmode := takeStaged_svc (bookingsTurned s energy)
  have hstaged : (bookingsTurned s energy).sched.csliceNext = s.sched.csliceNext := (congrArg Sched.csliceNext hclock :)
  have hforce : (bookingsTurned s energy).sched.cslice = s.sched.cslice := (congrArg Sched.cslice hclock :)
  have hbooked : (bookingsTurned s energy).sched.bookCur = s.sched.bookNext := congrArg Sched.bookCur hclock
  rw [hsvc] at hmode
  rw [hstaged, hforce] at hslice
  refine ⟨exec_sluiceTick energy hscan hready, congrArg Sched.tickNo hclock, congrArg Sched.elapsed hclock, fun hsteady => ?_,
    congrArg Sched.periodNext hclock, hbooked, rfl, hslice, hnone, congrArg Svc.mode hmode, congrArg Svc.modeNext hmode⟩
  exact (congrArg Sched.period hclock).trans (nextPeriod_steady hsteady)

end Sys2Proof.Proofs.SluiceTick
end

