-- ==== Sys2Proof/Proofs/CoreGrants.lean ====
section
/-! Root cores and their contexts: grants, saves, restores, slices of core time, runaways, and lines of the code cache (R201, R231,
R270, R271). -/

namespace Sys2Proof.Proofs.CoreGrants
open Sys2Proof Sys2Proof.Machine Sys2Proof.Laws

/-! Cores 0 to 6. -/

/-- A core of 0 to 6, of a live Root (R231). -/
structure GrantCore (s : State) (core : Nat) : Prop where
  live : Live s = true
  lower : 0x300 ≤ core
  upper : core ≤ 0x306

section
variable {s : State} {core slot : Nat} {c c0 : Ctx}

theorem GrantCore.inRange (h : GrantCore s core) : ¬ (core < 0x300 ∨ 0x306 < core) := by
  have hlo := h.lower
  have hhi := h.upper
  omega

/-- The context is brought in and its grant counted (R231). -/
def grantCounted (s : State) (core slot : Nat) : State :=
  modSched (bringIn s core slot) fun k => { k with grantNo := (bringIn s core slot).sched.grantNo + 1 }

/-- The core begins with a context that was not saved (R231). -/
def grantRun (s : State) (core slot : Nat) (c : Ctx) : State :=
  modCore (setCtx (grantCounted s core slot) core slot
    { c with st := .running, ready := false, lastGrant := (bringIn s core slot).sched.grantNo + 1 }) core
    fun k => { k with run := some slot, st := 1 }

/-- The core begins to restore a context from its save slot (R270, R271). -/
def grantRestore (s : State) (core slot : Nat) (c : Ctx) : State :=
  modCore (setCtx (mgrRead (grantCounted s core slot) Config.fnManager (slotAddr (grantCounted s core slot) slot) 6144 (.restore slot))
    core slot { c with st := .restoring, ready := true, lastGrant := (bringIn s core slot).sched.grantNo + 1 }) core
    fun k => { k with run := some slot, st := 3 }

/-- What a free core is given: the best context that wants one (R231). -/
structure Grants (s : State) (core slot : Nat) (c0 c : Ctx) : Prop extends GrantCore s core where
  unfrozen : s.glb.frozen = false
  free : (getCore s core).run = none
  best : bestFor s core = some (slot, c0)
  brought : kget (bringIn s core slot).ctxs slot = some c

theorem Grants.proceeds (h : Grants s core slot c0 c) : ¬ (core < 0x300 ∨ 0x306 < core ∨ s.glb.frozen = true) := by
  rw [h.unfrozen, ← or_assoc]
  simpa using h.inRange

theorem exec_coreGrant_run (h : Grants s core slot c0 c) (hst : c0.st ≠ .saved) :
    exec (.coreGrant core) s = .next (settle (grantRun s core slot c)) := by
  have hsaved : (c0.st == CtxSt.saved) = false := by simpa using hst
  show execCoreGrant core s = _
  simp only [execCoreGrant, liveRoot_next h.live, if_neg h.proceeds, h.free, Option.isNone_none, if_true, h.best, h.brought, hsaved]
  rfl

theorem exec_coreGrant_restore (h : Grants s core slot c0 c) (hst : c0.st = .saved) :
    exec (.coreGrant core) s = .next (settle (grantRestore s core slot c)) := by
  have hsaved : (c0.st == CtxSt.saved) = true := by simpa using hst
  show execCoreGrant core s = _
  simp only [execCoreGrant, liveRoot_next h.live, if_neg h.proceeds, h.free, Option.isNone_none, if_true, h.best, h.brought, hsaved]
  rfl

/-- The save is done: the context stands saved and the core is free (R270). -/
def saveEnded (s : State) (core slot : Nat) (c : Ctx) : State :=
  modCore (setCtx (scSticky { s with
      save := { s.save with order := s.save.order + 1 }
      port := { s.port with writes := s.port.writes.filter (fun w => w.kind != WrKind.save slot) } } c.part c.fflags) core slot
    { c with st := .saved, saveOrder := s.save.order + 1 }) core fun k => { k with run := none, st := 0, saves := satN 32 (k.saves + 1) }

theorem exec_contextSaveDone (h : GrantCore s core) (hrun : running s core = some (slot, c)) (hst : c.st = .saving)
    (hx : c.xfers = []) : exec (.contextSaveDone core) s = .next (settle (saveEnded s core slot c)) := by
  have hgo : ¬ (c.st ≠ .saving ∨ ¬ c.xfers.isEmpty = true) := by simp [hst, hx]
  show execContextSaveDone core s = _
  simp only [execContextSaveDone, liveRoot_next h.live, if_neg h.inRange, hrun, if_neg hgo]
  rfl

theorem exec_contextRestoreDone (h : GrantCore s core) (hrun : running s core = some (slot, c)) (hst : c.st = .restoring) :
    exec (.contextRestoreDone core) s = .next (settle (modCore (setCtx (readDone s (.restore slot)) core slot
      { reloadGens (getCore s core) c with st := .running, ready := false }) core fun k => { k with st := 1 })) := by
  show execContextRestoreDone core s = _
  simp only [execContextRestoreDone, liveRoot_next h.live, if_neg h.inRange, hrun, if_neg (not_not.mpr hst)]
  rfl

/-- The context's slice begins again (R231). -/
def sliceAgain (s : State) (core slot : Nat) (c : Ctx) : State :=
  setCtx (modSched s fun k => { k with grantNo := s.sched.grantNo + 1 }) core slot { c with lastGrant := s.sched.grantNo + 1 }

/-- A slice that ends gives way to a context of the same rank, else it begins again (R231). -/
theorem exec_csliceExpiry (h : GrantCore s core) (hrun : running s core = some (slot, c)) (hst : c.st = .running) :
    exec (.csliceExpiry core) s = .next (settle (
      if (wantCore s).any (fun x => rankOf s x.2 == rankOf s c) then startSave s core else sliceAgain s core slot c)) := by
  show execCsliceExpiry core s = _
  simp only [execCsliceExpiry, liveRoot_next h.live, if_neg h.inRange, hrun, if_neg (not_not.mpr hst)]
  rfl

theorem exec_runaway (h : GrantCore s core) (hrun : running s core = some (slot, c)) (hst : c.st = .running) (hs : c.stall = none) :
    exec (.runaway core) s = .next (settle (endSkip s core slot scRunaway)) := by
  have hlo := h.lower
  have hhi := h.upper
  have hok : coreOk core = true := by simp only [coreOk, Bool.or_eq_true, Bool.and_eq_true, decide_eq_true_eq]; omega
  have hgo : ¬ (¬ coreOk core = true ∨ core = 0x307) := by simp only [hok, not_true_eq_false, false_or]; omega
  have hlive : CoreLive s core = true := by rw [CoreLive, if_pos hlo]; exact h.live
  show execRunaway core s = _
  simp only [execRunaway, liveCore_next hlive, if_neg hgo, hrun, if_neg (not_not.mpr hst), hs]

end

/-! The code cache. -/

section
variable {s : State} {set tag : Nat}

theorem exec_codeCacheFill (h : Live s = true)
    (hread : s.port.reads.any (fun r => r.kind == RdKind.code (tag * 256 + set)) = true) :
    exec (.codeCacheFill set tag true) s = .next (settle (linePut (readDone s (.code (tag * 256 + set))) (tag * 256 + set))) := by
  show execCodeCacheFill set tag true s = _
  simp only [execCodeCacheFill, liveRoot_next h, if_neg (not_not.mpr hread), if_true]

/-- A line that enters the code cache is its set's most recently used (R201). -/
theorem linePut_getLast (s : State) (line : Nat) : (linePut s line).ccache.getLast? = some line := List.getLast?_concat

end

/-- Settles O20: what a core of 0 to 6 does with the context it takes, saves, restores or runs, and a line that arrives. -/
theorem coreGrants : Obligations.CoreGrants := by
  refine ⟨fun s core slot c hl hlo hhi => ?_, ?_⟩
  · have h : GrantCore s core := ⟨hl, hlo, hhi⟩
    refine ⟨?_, exec_contextSaveDone h, exec_contextRestoreDone h, fun hrun hst => ?_, exec_runaway h⟩
    · rintro c0 u n hfrozen hfree hbest rfl rfl hc
      have hg : Grants s core slot c0 c := ⟨h, hfrozen, hfree, hbest, hc⟩
      exact ⟨exec_coreGrant_run hg, exec_coreGrant_restore hg⟩
    · have hx := exec_csliceExpiry h hrun hst
      refine ⟨fun hrank => ?_, fun hrank => ?_⟩
      · rwa [if_pos hrank] at hx
      · rwa [if_neg (by rw [hrank]; decide)] at hx
  · rintro s set tag line h rfl hread
    exact ⟨exec_codeCacheFill h hread, linePut_getLast _ _⟩

end Sys2Proof.Proofs.CoreGrants
end

