-- ==== Sys2Proof/Proofs/EngineStops.lean ====
section
/-! Stops and flushes of the operation presented to an engine, the commands of the internal aperture, and partial records (R226, R228,
R285, R286, R305, R306, R309, R310, R406). -/

namespace Sys2Proof.Proofs.EngineStops
open Sys2Proof Sys2Proof.Machine Sys2Proof.Laws
open Sys2Proof.Proofs.EventPort (getAgent_takeDown)

/-! Engine queues. -/

theorem getEq_modEq_ne {s : State} {a k l : Nat} {f : EqQ → EqQ} (h : k ≠ l) : getEq (modEq s a k f) a l = getEq s a l := by
  rw [getEq, modEq, getAgent_modAgent_self]
  exact tget_tput_ne h

/-- Taking a message leaves the engine queues alone. -/
theorem getEq_takeDown (s : State) (a b l : Nat) : getEq (takeDown s a) b l = getEq s b l := by
  rw [getEq, getAgent_takeDown, getEq]

/-! Stops. -/

section
variable {s u : State} {a l : Nat} {e e' : Ent}

/-- An LC operation that has spent its allowance is asked to stop, unless it is being aborted or paused already (R226). -/
theorem exec_allowanceSpent (h : AgLive s a = true) (hp : presEnt (getEq s a l) = some e) (hlc : e.be = false)
    (habort : (getEq s a l).preempt ≠ some 1) (hpaused : (tget {} (getEq s a l).recs e.launch).paused = false) :
    exec (.allowanceSpent a l) s = .next (settle (modEq s a l fun q => { q with preempt := some 0, stopFor := 0 })) := by
  have hgo : ¬ (e.be = true ∨ (getEq s a l).preempt = some 1 ∨ (tget {} (getEq s a l).recs e.launch).paused = true) := by
    simp [hlc, habort, hpaused]
  show execAllowanceSpent a l s = _
  simp only [execAllowanceSpent, liveAgent_next h, hp, if_neg hgo]

/-- The first late answer to a stop is an event (R228). -/
theorem exec_preemptLate {k : Nat} (h : AgLive s a = true) (hp : presEnt (getEq s a l) = some e)
    (hk : (getEq s a l).preempt = some k) (hlate : (getEq s a l).preemptLate = false) :
    exec (.preemptLate a l) s = .next (settle
      (raiseOn (modEq s a l fun q => { q with preemptLate := true }) ePreemptLate (some e.part) (some a)
        [(.engineQueue, a * 16 + l)])) := by
  show execPreemptLate a l s = _
  simp only [execPreemptLate, liveAgent_next h, hp, hk, hlate, Bool.false_eq_true, if_false]

/-- The tile at which a stop is taken: where the engine says, between the operation's start and its end (R286, R309). -/
def stopTile (e : Ent) (tileAt : Nat) : Nat := max e.tstart (min tileAt (mTiles e.mop))

/-- The queue has nothing presented and no stop put down; the stop counts (R309). -/
def stopTaken (s : State) (a l : Nat) : State :=
  modEq s a l fun q => { q with pres := none, preempt := none, preemptLate := false, preempts := satN 32 (q.preempts + 1) }

theorem exec_eqPreemptAck {tileAt : Nat} {rep : EngRep} (h : AgLive s a = true) (hp : presEnt (getEq s a l) = some e)
    (hk : (getEq s a l).preempt = some 0)
    (hc : countRep (tilesRun s a l e (stopTile e tileAt - e.tstart)) a l { e with tstart := stopTile e tileAt, st := .stopped } rep
      = (u, e')) :
    exec (.eqPreemptAck a l tileAt rep) s = .next (settle (settleAgent
      (if (getEq s a l).stopFor = 0 then sendPaused (stopTaken u a l) a l e' else stopTaken u a l) a)) := by
  rw [stopTile] at hc
  show execEqPreemptAck a l tileAt rep s = _
  simp only [execEqPreemptAck, liveAgent_next h, hp, hk, hc]
  rfl

/-- The counts of a report are added to those of its entry (R286). -/
theorem countRep_ent {rep : EngRep} (hc : countRep s a l e rep = (u, e')) : e' = { e with
    cycles := e.cycles + rep.cycles, ns10 := e.ns10 + rep.ns10, fflags := e.fflags ||| (rep.fflags % 16) } :=
  (congrArg Prod.snd hc).symm

end

/-! Flushes. -/

section
variable {s : State} {a l : Nat} {e : Ent}

theorem exec_eqFlushAck (h : AgLive s a = true) (hf : flushing (getEq s a l) = some e) :
    exec (.eqFlushAck a l) s = .next (settle (settleAgent
      (drainDone 64 (modEq s a l fun q => putDone q { e with st := .ended }) a l) a)) := by
  show execEqFlushAck a l s = _
  simp only [execEqFlushAck, liveAgent_next h, hf]

theorem exec_flushLate (h : AgLive s a = true) (hf : flushing (getEq s a l) = some e) (hlate : e.late = false) :
    exec (.flushLate a l) s = .next (settle
      (raiseOn (modEq s a l fun q => putDone q { e with late := true }) eFlushLate (some e.part) (some a)
        [(.engineQueue, a * 16 + l), (.launch, e.launch)])) := by
  show execFlushLate a l s = _
  simp only [execFlushLate, liveAgent_next h, hf, hlate, Bool.false_eq_true, if_false]

theorem exec_flushGiveup (h : AgLive s a = true) (hf : flushing (getEq s a l) = some e) (hlate : e.late = true) :
    exec (.flushGiveup a l) s = .next (settle (settleAgent (drainDone 64 (modEq s a l fun q => putDone q
      { e with st := .ended, fin := some (2, 0, eFlushLate, mTiles e.mop, endFlags e false, 0) }) a l) a)) := by
  show execFlushGiveup a l s = _
  simp only [execFlushGiveup, liveAgent_next h, hf, if_neg (not_not.mpr hlate)]

end

/-! The internal aperture. -/

section
variable {s : State} {a launch l mask t d : Nat}

/-- The entries and tasks of a launch at the agent are aborted (R310). -/
def launchAborted (s : State) (a launch : Nat) : State :=
  settleAgent (abortTasks ((upTo 16).foldl (fun s l => abortQueue s a launch l) s) a launch) a

theorem exec_eqxAbort (h : AgLive s a = true) (hc : apertureCmd s a 0x7000 = some (t, d)) (hd : d % 2 ^ 32 = launch) :
    exec (.eqxAbort a launch) s = .next (settle (apertureDone (launchAborted (takeDown s a) a launch) a 0x7000 t)) := by
  show execEqxAbort a launch s = _
  simp only [execEqxAbort, liveAgent_next h, hc, if_neg (not_not.mpr hd)]
  rfl

/-- The launch counts anew and its work stands at the head of the LC lane, the stopped entry first (R227, R309). -/
def resumeQueue (launch : Nat) (q : EqQ) : EqQ :=
  { q with
    recs := q.recs.map (fun (x : Nat × LRec) => if x.1 = launch then (x.1, { x.2 with paused := false, used := 0 }) else x)
    lc := q.lc.filter (fun e => e.launch == launch && e.st == EntSt.stopped)
      ++ q.lc.filter (fun e => e.launch == launch && e.st != EntSt.stopped) ++ q.lc.filter (fun e => e.launch != launch) }

theorem exec_eqxResume (h : AgLive s a = true) (hc : apertureCmd s a 0x7008 = some (t, d)) (hd : d % 2 ^ 32 = launch)
    (hl : d / 2 ^ 32 % 16 = l) : exec (.eqxResume a launch l) s = .next (settle (apertureDone
      (settleAgent (modEq (takeDown s a) a l (resumeQueue launch)) a) a 0x7008 t)) := by
  have hgo : ¬ (d % 2 ^ 32 ≠ launch ∨ d / 2 ^ 32 % 16 ≠ l) := fun hno => hno.elim (absurd hd) (absurd hl)
  show execEqxResume a launch l s = _
  simp only [execEqxResume, liveAgent_next h, hc, if_neg hgo]
  refine congrArg (fun f => Host.Outcome.next (settle (apertureDone (settleAgent (modEq (takeDown s a) a l f) a) a 0x7008 t)))
    (funext fun q => ?_)
  simp only [resumeQueue, List.filter_filter, Bool.and_comm]

theorem resumeQueue_recs {q : EqQ} : ∀ r ∈ (resumeQueue launch q).recs, r.1 = launch → r.2.paused = false ∧ r.2.used = 0 := by
  intro r hr hlaunch
  obtain ⟨x, -, rfl⟩ := List.mem_map.mp hr
  by_cases hx : x.1 = launch
  · rw [if_pos hx]
    exact ⟨rfl, rfl⟩
  · rw [if_neg hx] at hlaunch
    exact absurd hlaunch hx

/-- The lane keeps its entries: those of the launch, stopped and not, and the others. -/
theorem resumeQueue_lc_length {q : EqQ} : (resumeQueue launch q).lc.length = q.lc.length := by
  have hlane := List.length_eq_length_filter_add (l := q.lc) (fun e => e.launch == launch)
  have hmine := List.length_eq_length_filter_add (l := q.lc.filter (fun e => e.launch == launch)) (fun e => e.st == EntSt.stopped)
  simp only [List.filter_filter, Bool.and_comm] at hmine
  simp only [resumeQueue, List.length_append, bne]
  omega

/-- The queue is asked to stop its BE operation for LC work, where the mask names it (R229, R309). -/
def preemptOne (a mask : Nat) (s : State) (l : Nat) : State :=
  if mask.testBit l ∧ (presEnt (getEq s a l)).any (fun e => e.be) = true ∧ headReady s a l false = true ∧
      (getEq s a l).preempt = none then modEq s a l fun q => { q with preempt := some 0, stopFor := 1 }
  else s

theorem exec_eqxPreempt (h : AgLive s a = true) (hc : apertureCmd s a 0x7010 = some (t, d)) (hd : d % 2 ^ 16 = mask) :
    exec (.eqxPreempt a mask) s = .next (settle (apertureDone ((upTo 16).foldl (preemptOne a mask) (takeDown s a)) a 0x7010 t)) := by
  show execEqxPreempt a mask s = _
  simp only [execEqxPreempt, liveAgent_next h, hc, if_neg (not_not.mpr hd)]
  rfl

/-- A queue that the mask does not name is asked nothing. -/
theorem preemptOne_unnamed (hm : mask.testBit l = false) (s : State) (k : Nat) :
    getEq (preemptOne a mask s k) a l = getEq s a l := by
  unfold preemptOne
  split
  · next hk => exact getEq_modEq_ne (by rintro rfl; rw [hm] at hk; exact absurd hk.1 (by decide))
  · rfl

theorem preemptQueues_unnamed (hm : mask.testBit l = false) (ks : List Nat) (s : State) :
    getEq (ks.foldl (preemptOne a mask) s) a l = getEq s a l :=
  List.foldlRecOn (motive := fun (u : State) => getEq u a l = getEq s a l) ks _ rfl
    fun (u : State) hu k _ => (preemptOne_unnamed hm u k).trans hu

theorem exec_eqPart {rec : W512} {e : Ent} (h : AgLive s a = true) (hp : presEnt (getEq s a l) = some e) :
    exec (.eqPart a l rec) s = .next (settle (sendUp s a (.partialRec (a * 16 + l) e.tag e.launch rec))) := by
  show execEqPart a l rec s = _
  simp only [execEqPart, liveAgent_next h, hp]

end

/-- Settles O23: stops and flushes by what stands in the engine queue, then the commands of the aperture and the partial record. -/
theorem stopsAndAperture : Obligations.StopsAndAperture := by
  refine ⟨⟨fun s a l e h hp _ => ⟨exec_allowanceSpent h hp, fun k => exec_preemptLate h hp, ?_⟩,
    fun s a l e h hf => ⟨exec_eqFlushAck h hf, exec_flushLate h hf, exec_flushGiveup h hf⟩⟩,
    fun s a launch t d h => exec_eqxAbort h, ?_, ?_, fun s a l rec e h => exec_eqPart h⟩
  · rintro tileAt rep bnd u v e' hk rfl hc rfl
    exact ⟨exec_eqPreemptAck h hp hk hc, countRep_ent hc⟩
  · intro s a launch l t d h hc hd hl u hu
    replace hu : u = modEq (takeDown s a) a l (resumeQueue launch) := hu
    subst hu
    rw [getEq_modEq_self, getEq_takeDown]
    exact ⟨exec_eqxResume h hc hd hl, resumeQueue_recs, resumeQueue_lc_length⟩
  · intro s a mask t d h hc hd u hu
    replace hu : u = (upTo 16).foldl (preemptOne a mask) (takeDown s a) := hu
    subst hu
    refine ⟨exec_eqxPreempt h hc hd, fun l hm => ?_⟩
    rw [preemptQueues_unnamed hm, getEq_takeDown]

end Sys2Proof.Proofs.EngineStops
end

