-- ==== Sys2Proof/Proofs/Completions.lean ====
section
/-! Completions at the Root, and the record of a launch with its signals (R123, R150, R151, R226, R307). -/

namespace Sys2Proof.Proofs.Completions
open Sys2Proof Sys2Proof.Machine Sys2Proof.Laws
open Sys2Proof.Proofs.SluiceTick (sstatSet_shape)
open Sys2Proof.Proofs.BringUp (mem_insertNat_self)

/-! Completions. -/

theorem kget_modLaunch_self {s : State} {id : Nat} {l : Launch} {f : Launch → Launch} (h : kget s.launches id = some l) :
    kget (modLaunch s id f).launches id = some (f l) := by
  simp only [modLaunch, h]
  exact kget_kput_self

theorem sstatSet_launches (s : State) (p bit : Nat) : (sstatSet s p bit).launches = s.launches := by
  obtain ⟨t, e, n, h⟩ := sstatSet_shape s p bit
  rw [h]

theorem raiseOn_launches (s : State) (code : Nat) (p a : Option Nat) (n : List (Item × Nat)) :
    (raiseOn s code p a n).launches = s.launches := by
  obtain ⟨e, l, w, h⟩ := raiseOn_shape s code p a n
  rw [h]

section
variable {s u : State} {a id : Nat} {c d : Compl} {l : Launch}

/-- The launch that a completion reports on (R307). -/
def launchOf (s : State) (c : Compl) : Nat := launchNamed s c.launch fun l => l.outs.any fun o => o.eq == c.eq && o.tag == c.tag

/-- A report keeps everything but its figures, which are those beyond what was counted (R307). -/
theorem newFigures_fst (h : newFigures s c = (d, u)) : ∃ x y z, d = { c with cycles := x, ns10 := y, bytes := z } :=
  ⟨_, _, _, (congrArg Prod.fst h).symm⟩

theorem exec_completion (h : Live s = true) (hh : upHead s a = some (.completion c)) (hm : mergeHolds s c.eq c.tag = false)
    (hstew : stewId c.launch = false) (hf : newFigures (takeUp s a) c = (d, u)) (hid : id = launchOf u c)
    (hl : kget u.launches id = some l) : exec (.completion a) s = .next (settle (complTake u l { d with launch := id })) := by
  obtain ⟨x, y, z, rfl⟩ := newFigures_fst hf
  subst hid
  rw [launchOf] at hl
  show execCompletion a s = _
  simp only [execCompletion, liveRoot_next h, hh, hm, hf, hstew, Bool.false_eq_true, if_false, hl]
  rfl

/-- The engine time of a report is accounted to its partition and queue (R236). -/
theorem account_launches (s : State) (p q : Nat) (c : Compl) : (account s p (some q) c).launches = s.launches := by
  simp only [account, modSched_launches, modQueue_launches, modPart_launches, modFig_launches]

/-- The launch's record of the cycles that a report adds (R150, R226). -/
def cyclesAdded (c : Compl) (l : Launch) : Launch :=
  { l with
    cycles := tput 0 l.cycles c.eq (tget 0 l.cycles c.eq + c.cycles), used := tput 0 l.used c.eq (tget 0 l.used c.eq + c.cycles)
    actual := l.actual + c.cycles, chained := l.chained || (decide (dOpcode l.desc = 1) && c.flags % 2 == 1) }

theorem complTake_paused (h : c.status = 4) :
    complTake s l c = pausedReport (modLaunch (account s l.part (some l.queue) c) c.launch (cyclesAdded c)) l c := by
  unfold complTake
  exact if_pos h

/-- The launch stands paused on the queue of the report (R226). -/
def launchPaused (c : Compl) (l : Launch) : Launch :=
  { l with
    paused := insertNat l.paused c.eq
    outs := l.outs.map (fun o => if o.eq == c.eq && o.tag == c.tag then { o with paused := true } else o) }

theorem pausedReport_launch {k : Launch} (hk : kget s.launches c.launch = some k) :
    kget (pausedReport s l c).launches c.launch = some (launchPaused c k) := by
  refine kget_modLaunch_self ?_
  show kget (sstatSet _ l.part 1).launches c.launch = some k
  rwa [sstatSet_launches, raiseOn_launches]

/-- PAUSED leaves the launch paused on the queue, its cycles counted (R226). -/
theorem complTake_paused_launch (h : c.status = 4) (hl : kget s.launches c.launch = some l) :
    kget (complTake s l c).launches c.launch = some (launchPaused c (cyclesAdded c l)) := by
  rw [complTake_paused h]
  exact pausedReport_launch (kget_modLaunch_self (by rwa [account_launches]))

end

/-! Records. -/

section
variable {s : State} {id : Nat} {l : Launch}

/-- The record stands among the writes of the port, behind the ring of the launch's queue (R149, R150). -/
def recordOut (s : State) (id : Nat) (l : Launch) : State :=
  setLaunch (mgrWriteAs s l.part l.pasid l.recAt 16 (recordWord s id l l.status l.error l.poisoned) (.record id l.queue)).2 id
    { l with stage := .written }

/-- The record is written, its figures counted and its signals issued (R151). -/
def recordWritten (s : State) (id : Nat) (l : Launch) : State :=
  issueSignals (recordFigs (recordOut s id l) id l l.status l.error) id l

theorem mgrWriteAs_glb (fn pasid addr len data : Nat) (k : WrKind) : (mgrWriteAs s fn pasid addr len data k).2.glb = s.glb := rfl

theorem recordFigs_shape (s : State) (id : Nat) (l : Launch) (status error : Nat) :
    ∃ c t, recordFigs s id l status error = { s with sched := c, parts := t } := by
  unfold recordFigs
  split
  · split
    · exact ⟨s.sched, s.parts, rfl⟩
    · exact ⟨_, s.parts, rfl⟩
  · exact ⟨s.sched, _, rfl⟩

theorem recordFigs_glb (s : State) (id : Nat) (l : Launch) (status error : Nat) :
    (recordFigs s id l status error).glb = s.glb := by
  obtain ⟨c, t, h⟩ := recordFigs_shape s id l status error
  rw [h]

theorem exec_recordWrite (h : Live s = true) (hl : kget s.launches id = some l) (hst : l.stage = .outfall)
    (hfrozen : s.glb.frozen = false) (hw : l.relWant = []) (hsig : sigNeeds s l = []) :
    exec (.recordWrite id) s = .next (settle (cycleCheck (unpinGen (recordWritten s id l) id) (id % 4096) true)) := by
  show execRecordWrite id s = _
  simp only [execRecordWrite, liveRoot_next h, hl, if_neg (not_not.mpr hst), hw, hsig, List.isEmpty_nil, not_true_eq_false,
    and_false, if_false, hfrozen, Bool.false_eq_true, Bool.not_false, Bool.and_true, recordFigs_glb, setLaunch_glb,
    mgrWriteAs_glb, recordWritten, recordOut, completionWalk]

/-- The signals of a launch go to the Weir and the Crossing (R151). -/
theorem issueSignals_shape (s : State) (id : Nat) (l : Launch) : ∃ w x, issueSignals s id l = { s with weir := w, xing := x } :=
  List.foldlRecOn (motive := fun (u : State) => ∃ w x, u = { s with weir := w, xing := x }) _ _ ⟨s.weir, s.xing, rfl⟩
    fun (u : State) hu g _ => by
      obtain ⟨w, x, rfl⟩ := hu
      dsimp only
      split
      · exact ⟨w, x, rfl⟩
      · split
        · exact ⟨w, _, rfl⟩
        · exact ⟨_, x, rfl⟩

/-- Beside the record, only figures, partition records and signals change. -/
theorem recordWritten_shape (s : State) (id : Nat) (l : Launch) :
    ∃ c t w x, recordWritten s id l = { recordOut s id l with sched := c, parts := t, weir := w, xing := x } := by
  obtain ⟨c, t, hfigs⟩ := recordFigs_shape (recordOut s id l) id l l.status l.error
  obtain ⟨w, x, hsigs⟩ := issueSignals_shape (recordFigs (recordOut s id l) id l l.status l.error) id l
  refine ⟨c, t, w, x, ?_⟩
  rw [recordWritten, hsigs, hfigs]

theorem recordWritten_writes : (recordWritten s id l).port.writes = s.port.writes ++ [{
    txn := s.port.nextTxn, fn := l.part, pasid := l.pasid, addr := l.recAt % 2 ^ 64, len := 16
    data := recordWord s id l l.status l.error l.poisoned, kind := .record id l.queue }] := by
  obtain ⟨c, t, w, x, h⟩ := recordWritten_shape s id l
  rw [h]
  rfl

theorem recordWritten_stage : (kget (recordWritten s id l).launches id).map (·.stage) = some .written := by
  obtain ⟨c, t, w, x, h⟩ := recordWritten_shape s id l
  rw [h]
  exact congrArg (Option.map Launch.stage) kget_kput_self

/-- One SIGNAL to a flag of space 0, of a launch that succeeded, is one queued operation (R151). -/
theorem issueSignals_one {w : Nat} (hs : namedSigs l = [w]) (hspace : sHandle w / 2 ^ 30 = 0) (hok : l.status = stOk) :
    issueSignals s id l = queueSigs s [{
      src := 100, part := l.part, handle := sHandle w, op := sOp w, x := sValue w, launch := id
      addr := memFlagAddr s l.part (sHandle w) (some l) true }] := by
  have hpoison : decide (l.status ≠ stOk) = false := by rw [hok]; rfl
  have hhere : ¬ (sHandle w / 2 ^ 30 = 3 ∧ (False ∨ sOp w = 2)) := by
    rw [hspace]
    rintro ⟨h, -⟩
    exact absurd h (by decide)
  simp only [issueSignals, hs, List.foldl_cons, List.foldl_nil, hpoison, Bool.false_and, Bool.false_eq_true, if_false, if_neg hhere]

theorem recordWritten_sigq {w : Nat} (hs : namedSigs l = [w]) (hspace : sHandle w / 2 ^ 30 = 0) (hok : l.status = stOk) :
    ∃ ad, (recordWritten s id l).weir.sigq = s.weir.sigq ++ [{
      src := 100, part := l.part, handle := sHandle w, op := sOp w, x := sValue w, launch := id, addr := ad }] := by
  obtain ⟨c, t, hfigs⟩ := recordFigs_shape (recordOut s id l) id l l.status l.error
  rw [recordWritten, issueSignals_one hs hspace hok, queueSigs_shape, hfigs]
  exact ⟨_, rfl⟩

/-- With the response to its record the launch is outstanding no more (R123). -/
theorem exec_recordWriteResponse {w : Wr} (h : Live s = true) (hw : s.port.writes.find? (recordOf id) = some w) :
    exec (.recordWriteResponse id) s = .next (settle (recordGone (vecsRelease (mgrDone s w.txn) w.txn) id true)) := by
  show execRecordWriteResponse id s = _
  rw [execRecordWriteResponse, liveRoot_next h]
  show Host.Outcome.next (settle (match s.port.writes.find? (recordOf id) with
    | none => s
    | some w => recordGone (vecsRelease (mgrDone s w.txn) w.txn) id true)) = _
  rw [hw]

end

/-- Settles O45: a completion by its launch and its status, then the record, its signals and its response. -/
theorem completionAndRecord : Obligations.CompletionAndRecord := by
  refine ⟨fun s u a id c d l h hh hm hstew hf hid hl => ⟨exec_completion h hh hm hstew hf hid hl, fun hpaused => ?_⟩,
    ?_, fun s id w => exec_recordWriteResponse⟩
  · obtain ⟨x, y, z, rfl⟩ := newFigures_fst hf
    exact ⟨_, complTake_paused_launch hpaused hl, mem_insertNat_self l.paused c.eq, rfl⟩
  · intro s t u id l h hl hst hfrozen hw hsig ht hu
    replace hu : u = recordWritten s id l := by
      rw [hu, ht]
      rfl
    subst hu
    exact ⟨exec_recordWrite h hl hst hfrozen hw hsig, recordWritten_writes, recordWritten_stage, fun w => recordWritten_sigq⟩

end Sys2Proof.Proofs.Completions
end

