-- ==== Sys2Proof/Proofs/CoreIssue.lean ====
section
/-! What an instruction of a sluice core finds when it issues: the line it came from has become the code cache's most recently used,
and nothing else has changed (R201, R243, R254). -/

namespace Sys2Proof.Proofs.CoreIssue
open Sys2Proof Sys2Proof.Machine Sys2Proof.Laws

section
variable {s : State} {c : Ctx}

theorem touchCode_shape (s : State) (c : Ctx) : ∃ l, touchCode s c = { s with ccache := l } := by
  rw [touchCode]
  split
  · exact ⟨s.ccache, rfl⟩
  · cases ctxGen s c with
    | none => exact ⟨s.ccache, rfl⟩
    | some g => exact ⟨_, rfl⟩

/-- Whatever does not look at the code cache is as it was before the issue. -/
theorem touchCode_same {α : Type} (f : State → α) (hf : ∀ (u : State) l, f { u with ccache := l } = f u) :
    f (touchCode s c) = f s := by
  obtain ⟨l, h⟩ := touchCode_shape s c
  rw [h, hf]

@[simp] theorem touchCode_weir : (touchCode s c).weir = s.weir := touchCode_same State.weir fun _ _ => rfl
@[simp] theorem touchCode_sched : (touchCode s c).sched = s.sched := touchCode_same State.sched fun _ _ => rfl
@[simp] theorem touchCode_par : (touchCode s c).par = s.par := touchCode_same State.par fun _ _ => rfl
@[simp] theorem touchCode_free : (touchCode s c).free = s.free := touchCode_same State.free fun _ _ => rfl

section
variable {k : Nat}

@[simp] theorem getAgent_touchCode : getAgent (touchCode s c) k = getAgent s k := touchCode_same (getAgent · k) fun _ _ => rfl
@[simp] theorem getPart_touchCode : getPart (touchCode s c) k = getPart s k := touchCode_same (getPart · k) fun _ _ => rfl
@[simp] theorem agtExcluded_touchCode : agtExcluded (touchCode s c) k = agtExcluded s k :=
  touchCode_same (agtExcluded · k) fun _ _ => rfl
@[simp] theorem flagWord_touchCode : flagWord (touchCode s c) k = flagWord s k := touchCode_same (flagWord · k) fun _ _ => rfl
@[simp] theorem freeSlot_touchCode : freeSlot (touchCode s c) = freeSlot s := touchCode_same freeSlot fun _ _ => rfl
@[simp] theorem branchHeld_touchCode {t : Nat} : branchHeld (touchCode s c) k t = branchHeld s k t :=
  touchCode_same (branchHeld · k t) fun _ _ => rfl

end
end

/-- An instruction of a Root core, its guard set, that issues. -/
structure RootIssues (i : FR) (s : State) (slot : Nat) (c : Ctx) : Prop where
  issues : Issues s i.core slot c = true
  guard : guardOn c i.pg i.pn = true
  root : 0x300 ≤ i.core

section
variable {i : FR} {s : State} {slot : Nat} {c : Ctx} (k : State → Nat → Ctx → State)

/-- An instruction open to Root cores alone, on one of them (R249). -/
theorem issueRoot_ok {enc : Bool} (h : RootIssues i s slot c) (he : enc = true) :
    issueRoot i enc s k = .next (settle (k (touchCode s c) slot c)) := by
  rw [issueRoot, issueR_ok h.issues h.guard he, if_pos h.root]

/-- A scalar guard that does not hold: the instruction retires and changes nothing else (R248). -/
theorem issueR_off {enc : Bool} (h : Issues s i.core slot c = true) (hg : guardOn c i.pg i.pn = false) (he : enc = true) :
    issueR i enc s k = .next (settle (retired s i.core slot c c)) := by
  subst he
  rw [issueR, liveCore_next (coreLive_of h), issue_off h hg]

/-- A reserved field: the instruction is skipped with cause ENCODING, whatever its guard (R248, R274). -/
theorem issueR_badEncoding {enc : Bool} (h : Issues s i.core slot c = true) (he : enc = false) :
    issueR i enc s k = .next (settle (skipAt (touchCode s c) i.core slot scEncoding)) := by
  subst he
  obtain ⟨hruns, hfetch⟩ := Issues_parts h
  obtain ⟨hlive, hok, hrun, hst, hstall⟩ := Runs_parts hruns
  have hgo : ¬ (c.st ≠ .running ∨ c.stall.isSome = true) := by simp [hst, hstall]
  simp only [issueR, liveCore_next hlive, issue, issueV, if_neg (not_not.mpr hok), hrun, if_neg hgo, hfetch, Bool.false_eq_true, if_false]

end

/-- Settles O13: every row named is an R-format instruction, whose encoding is sound in the first case and not in the second. -/
theorem scGuardsAndEncoding : Obligations.ScGuardsAndEncoding := by
  refine ⟨fun mk hmem i s slot c h hg ha hb hd => ?_, fun mk hmem i s slot c h hd => ?_⟩
  · have hrow : ∃ enc k, enc = true ∧ exec (mk i) s = issueR i enc s k := by
      simp only [List.mem_cons, List.not_mem_nil, or_false] at hmem
      rcases hmem with rfl | rfl | rfl | rfl | rfl | rfl | rfl | rfl | rfl | rfl | rfl | rfl | rfl | rfl | rfl | rfl
      · exact ⟨_, _, rfl, rfl⟩
      · exact ⟨_, _, rfl, rfl⟩
      · exact ⟨_, _, rfl, rfl⟩
      · exact ⟨_, _, rfl, rfl⟩
      · exact ⟨_, _, rfl, rfl⟩
      · exact ⟨_, _, rfl, rfl⟩
      · exact ⟨_, _, decide_eq_true (by omega), rfl⟩
      · exact ⟨_, _, rfl, rfl⟩
      · exact ⟨_, _, rfl, rfl⟩
      · exact ⟨_, _, rfl, rfl⟩
      · exact ⟨_, _, rfl, rfl⟩
      · exact ⟨_, _, rfl, rfl⟩
      · exact ⟨_, _, rfl, rfl⟩
      · exact ⟨_, _, decide_eq_true (by omega), rfl⟩
      · exact ⟨_, _, decide_eq_true (by omega), rfl⟩
      · exact ⟨_, _, rfl, rfl⟩
    obtain ⟨enc, k, henc, hrow⟩ := hrow
    rw [hrow, issueR_off k h hg henc]
  · have hrow : ∃ enc k, enc = false ∧ exec (mk i) s = issueR i enc s k := by
      simp only [List.mem_cons, List.not_mem_nil, or_false] at hmem
      rcases hmem with rfl | rfl | rfl | rfl | rfl
      · exact ⟨_, _, decide_eq_false (by omega), rfl⟩
      · exact ⟨_, _, by simp [show ¬ i.d < 8 by omega], rfl⟩
      · exact ⟨_, _, decide_eq_false (by omega), rfl⟩
      · exact ⟨_, _, by simp [show ¬ i.d < 8 by omega], rfl⟩
      · exact ⟨_, _, decide_eq_false (by omega), rfl⟩
    obtain ⟨enc, k, henc, hrow⟩ := hrow
    rw [hrow, issueR_badEncoding k h henc]

end Sys2Proof.Proofs.CoreIssue
end

