-- ==== Sys2Proof/Proofs/ScalarResults.lean ====
section
/-! Results of the scalar and predicate instructions and the targets of branches, on the 64-bit words of the registers (R249). -/

namespace Sys2Proof.Proofs.ScalarResults
open Sys2Proof Sys2Proof.Machine Sys2Proof.Laws Sys2Proof.Proofs.CoreIssue

/-! The model's two's complement of numbers is that of words. -/

theorem sgn_toNat {w : Nat} (x : BitVec w) : sgn w x.toNat = x.toInt := by
  rw [sgn, BitVec.toInt_eq_toNat_cond]
  cases w with
  | zero => simp [BitVec.of_length_zero (x := x)]
  | succ w =>
    have hhalf : x.toNat < 2 ^ (w + 1 - 1) ↔ 2 * x.toNat < 2 ^ (w + 1) := by
      rw [Nat.add_sub_cancel, Nat.pow_succ]
      omega
    simp only [hhalf]
    push_cast
    rfl

theorem toNat_ofInt_unsgn {w : Nat} (z : Int) : (BitVec.ofInt w z).toNat = unsgn w z := by
  rw [BitVec.toNat_ofInt, unsgn]
  norm_cast

theorem ofNat_unsgn {w : Nat} (z : Int) : BitVec.ofNat w (unsgn w z) = BitVec.ofInt w z := by
  rw [← toNat_ofInt_unsgn, BitVec.ofNat_toNat, BitVec.setWidth_eq]

/-- An immediate is sign-extended (R249). -/
theorem unsgn_sgn_toNat {v w : Nat} (x : BitVec w) : unsgn v (sgn w x.toNat) = (x.signExtend v).toNat := by
  rw [sgn_toNat, BitVec.signExtend, toNat_ofInt_unsgn]

theorem ofNat_sraN (x : W64) (n : Nat) : BitVec.ofNat 64 (sraN x.toNat n) = x.sshiftRight n := by
  rw [sraN, sgn_toNat, ofNat_unsgn, BitVec.sshiftRight, Int.shiftRight_eq_div_pow]
  norm_cast

/-! Each operation on numbers computes its operation on words. -/

/-- A function on numbers gives, of the numbers of two words, the number of the word that `g` gives. -/
def Computes (f : Nat → Nat → Nat) (g : W64 → W64 → W64) : Prop := ∀ x y : W64, BitVec.ofNat 64 (f x.toNat y.toNat) = g x y

theorem computes_add : Computes (fun a b => a + b) (fun x y => x + y) := fun x y => by simp [BitVec.ofNat_add]

theorem computes_sub : Computes (fun a b => a + 2 ^ 64 - b) (fun x y => x - y) := fun x y => by
  apply BitVec.eq_of_toNat_eq
  rw [BitVec.toNat_sub, BitVec.toNat_ofNat]
  congr 1
  have hy := y.isLt
  show x.toNat + 2 ^ 64 - y.toNat = 2 ^ 64 - y.toNat + x.toNat
  omega

theorem computes_and : Computes (fun a b => a &&& b) (fun x y => x &&& y) := fun x y => by simp [BitVec.ofNat_and]
theorem computes_or : Computes (fun a b => a ||| b) (fun x y => x ||| y) := fun x y => by simp [BitVec.ofNat_or]
theorem computes_xor : Computes (fun a b => a ^^^ b) (fun x y => x ^^^ y) := fun x y => by simp [BitVec.ofNat_xor]

theorem ofNat_shiftLeft (x : W64) (n : Nat) : BitVec.ofNat 64 (x.toNat <<< n) = x <<< n :=
  BitVec.eq_of_toNat_eq (by rw [BitVec.toNat_ofNat, BitVec.toNat_shiftLeft])

theorem ofNat_shiftRight (x : W64) (n : Nat) : BitVec.ofNat 64 (x.toNat >>> n) = x >>> n := by
  rw [← BitVec.toNat_ushiftRight, BitVec.ofNat_toNat, BitVec.setWidth_eq]

theorem computes_sll : Computes (fun a b => a <<< (b % 64)) (fun x y => x <<< (y.toNat % 64)) := fun x _ => ofNat_shiftLeft x _
theorem computes_srl : Computes (fun a b => a >>> (b % 64)) (fun x y => x >>> (y.toNat % 64)) := fun x _ => ofNat_shiftRight x _
theorem computes_sra : Computes (fun a b => sraN a (b % 64)) (fun x y => x.sshiftRight (y.toNat % 64)) := fun x _ => ofNat_sraN x _

theorem ofNat_ite {p : Prop} [Decidable p] (x y : W64) :
    BitVec.ofNat 64 (if p then x.toNat else y.toNat) = if p then x else y := by
  split <;> simp

theorem computes_min : Computes (fun a b => if sgn 64 a ≤ sgn 64 b then a else b) (fun x y => if x.toInt ≤ y.toInt then x else y) :=
  fun x y => by simp only [sgn_toNat, ofNat_ite]

theorem computes_max : Computes (fun a b => if sgn 64 a ≤ sgn 64 b then b else a) (fun x y => if x.toInt ≤ y.toInt then y else x) :=
  fun x y => by simp only [sgn_toNat, ofNat_ite]

theorem computes_minu : Computes (fun a b => min a b) (fun x y => if x.toNat ≤ y.toNat then x else y) :=
  fun x y => by simp only [Nat.min_def, ofNat_ite]

theorem computes_maxu : Computes (fun a b => max a b) (fun x y => if x.toNat ≤ y.toNat then y else x) :=
  fun x y => by simp only [Nat.max_def, ofNat_ite]

theorem computes_mul : Computes (fun a b => a * b) (fun x y => x * y) := fun x y => by simp [BitVec.ofNat_mul]

theorem computes_mulhu : Computes (fun a b => a * b / 2 ^ 64) (fun x y => BitVec.ofNat 64 (x.toNat * y.toNat / 2 ^ 64)) :=
  fun _ _ => rfl

theorem toNat_eq_zero_iff (y : W64) : y.toNat = 0 ↔ y = 0 := by rw [← BitVec.toNat_inj]; rfl

theorem computes_divu : Computes (fun a b => if b = 0 then 2 ^ 64 - 1 else a / b)
    (fun x y => if y = 0 then BitVec.allOnes 64 else x / y) := fun x y => by
  by_cases hy : y = 0
  · subst hy
    rfl
  · simp only [toNat_eq_zero_iff, if_neg hy]
    rw [← BitVec.toNat_udiv, BitVec.ofNat_toNat, BitVec.setWidth_eq]

theorem computes_remu : Computes (fun a b => if b = 0 then a else a % b) (fun x y => if y = 0 then x else x % y) := fun x y => by
  by_cases hy : y = 0
  · subst hy
    simp
  · simp only [toNat_eq_zero_iff, if_neg hy]
    rw [← BitVec.toNat_umod, BitVec.ofNat_toNat, BitVec.setWidth_eq]

/-! The register instructions. -/

section
variable {s : State} {slot : Nat} {c : Ctx} {f : Nat → Nat → Nat} {g : W64 → W64 → W64}

theorem setS_computes (hf : Computes f g) (c : Ctx) (d a : Nat) (y : W64) :
    setS c d (f (sReg c a) y.toNat) = setS c d (g (sVal c a) y).toNat := by
  refine setS_congr ?_
  rw [← sVal_toNat, hf, BitVec.ofNat_toNat, BitVec.setWidth_eq]

theorem aluR_ok {i : FR} (hf : Computes f g) (h : Issues s i.core slot c = true) (hg : guardOn c i.pg i.pn = true) :
    aluR i f s = .next (settle (retired s i.core slot c (setS c i.d (g (sVal c i.a) (sVal c i.b)).toNat))) := by
  rw [aluR, issueR_ok h hg rfl, ← setS_computes hf, sVal_toNat]
  rfl

theorem aluI_ok {i : FI} (hf : Computes f g) (h : Issues s i.core slot c = true) (hg : guardOn c i.pg i.pn = true) :
    aluI i f s = .next (settle (retired s i.core slot c (setS c i.d (g (sVal c i.a) (i.imm.signExtend 64)).toNat))) := by
  rw [aluI, issueI_ok h hg rfl, ← setS_computes hf, unsgn_sgn_toNat]
  rfl

end

/-- Settles O5: each register instruction computes, on numbers, its operation on words. -/
theorem scAluResults : Obligations.ScAluResults := by
  intro mk g hmem i s slot c h hg
  have hrow : ∃ f, Computes f g ∧ exec (mk i) s = aluR i f s := by
    simp only [List.mem_cons, Prod.mk.injEq, List.not_mem_nil, or_false] at hmem
    rcases hmem with ⟨rfl, rfl⟩ | ⟨rfl, rfl⟩ | ⟨rfl, rfl⟩ | ⟨rfl, rfl⟩ | ⟨rfl, rfl⟩ | ⟨rfl, rfl⟩ | ⟨rfl, rfl⟩ | ⟨rfl, rfl⟩ |
      ⟨rfl, rfl⟩ | ⟨rfl, rfl⟩ | ⟨rfl, rfl⟩ | ⟨rfl, rfl⟩ | ⟨rfl, rfl⟩ | ⟨rfl, rfl⟩ | ⟨rfl, rfl⟩ | ⟨rfl, rfl⟩
    · exact ⟨_, computes_add, rfl⟩
    · exact ⟨_, computes_sub, rfl⟩
    · exact ⟨_, computes_and, rfl⟩
    · exact ⟨_, computes_or, rfl⟩
    · exact ⟨_, computes_xor, rfl⟩
    · exact ⟨_, computes_sll, rfl⟩
    · exact ⟨_, computes_srl, rfl⟩
    · exact ⟨_, computes_sra, rfl⟩
    · exact ⟨_, computes_min, rfl⟩
    · exact ⟨_, computes_max, rfl⟩
    · exact ⟨_, computes_minu, rfl⟩
    · exact ⟨_, computes_maxu, rfl⟩
    · exact ⟨_, computes_mul, rfl⟩
    · exact ⟨_, computes_mulhu, rfl⟩
    · exact ⟨_, computes_divu, rfl⟩
    · exact ⟨_, computes_remu, rfl⟩
  obtain ⟨f, hf, hrow⟩ := hrow
  rw [hrow, aluR_ok hf h hg]

/-! The immediate instructions. -/

section
variable {s : State} {slot : Nat} {c : Ctx}

/-- What SHI's operation field asks for (R249). -/
theorem exec_scShi {i : FI} {n : Nat} (h : Issues s i.core slot c = true) (hg : guardOn c i.pg i.pn = true)
    (hres : fld i.imm 8 4 = 0) (hop : fld i.imm 6 2 ≠ 3)
    (hn : (if fld i.imm 6 2 = 0 then sReg c i.a <<< fld i.imm 0 6 else if fld i.imm 6 2 = 1 then sReg c i.a >>> fld i.imm 0 6
      else sraN (sReg c i.a) (fld i.imm 0 6)) = n) :
    exec (.scShi i) s = .next (settle (retired s i.core slot c (setS c i.d n))) := by
  have he : (decide (fld i.imm 8 4 = 0) && fld i.imm 6 2 != 3) = true := by simp [hres, hop]
  show execScShi i s = _
  rw [execScShi, issueI_ok h hg he, ← hn]
  rfl

theorem setS_ofNat {x : Nat} {y : W64} (hxy : BitVec.ofNat 64 x = y) (d : Nat) : setS c d x = setS c d y.toNat :=
  setS_congr (by rw [hxy, BitVec.ofNat_toNat, BitVec.setWidth_eq])

theorem exec_scLi {i : FL} (h : Issues s i.core slot c = true) (hg : guardOn c i.pg i.pn = true) :
    exec (.scLi i) s = .next (settle (retired s i.core slot c (setS c i.d (i.imm.signExtend 64).toNat))) := by
  show execScLi i s = _
  rw [execScLi, liveCore_next (coreLive_of h), issue_ok h hg, unsgn_sgn_toNat]
  rfl

theorem ofNat_lsh (x : W64) (imm : BitVec 17) :
    BitVec.ofNat 64 (x.toNat * 2 ^ 17 % 2 ^ 64 ||| imm.toNat) = x <<< 17 ||| imm.setWidth 64 := by
  apply BitVec.eq_of_toNat_eq
  have himm : imm.toNat % 2 ^ 64 = imm.toNat := Nat.mod_eq_of_lt (lt_trans imm.isLt (by decide))
  rw [BitVec.toNat_ofNat, BitVec.toNat_or, BitVec.toNat_shiftLeft, BitVec.toNat_setWidth, Nat.shiftLeft_eq, Nat.or_mod_two_pow,
    Nat.mod_mod, himm]

theorem exec_scLsh {i : FL} (h : Issues s i.core slot c = true) (hg : guardOn c i.pg i.pn = true) :
    exec (.scLsh i) s = .next (settle (retired s i.core slot c (setS c i.d (sVal c i.d <<< 17 ||| i.imm.setWidth 64).toNat))) := by
  show execScLsh i s = _
  rw [execScLsh, liveCore_next (coreLive_of h), issue_ok h hg, ← setS_ofNat (ofNat_lsh (sVal c i.d) i.imm), sVal_toNat]
  rfl

end

/-- Settles O6: the immediate as the word it extends to, SHI by its operation, LI and LSH. -/
theorem scImmediateResults : Obligations.ScImmediateResults := by
  refine ⟨?_, ?_, fun i s slot c h hg => ⟨exec_scLi h hg, exec_scLsh h hg⟩⟩
  · intro mk g hmem i s slot c h hg
    have hrow : ∃ f, Computes f g ∧ exec (mk i) s = aluI i f s := by
      simp only [List.mem_cons, Prod.mk.injEq, List.not_mem_nil, or_false] at hmem
      rcases hmem with ⟨rfl, rfl⟩ | ⟨rfl, rfl⟩ | ⟨rfl, rfl⟩ | ⟨rfl, rfl⟩
      · exact ⟨_, computes_add, rfl⟩
      · exact ⟨_, computes_and, rfl⟩
      · exact ⟨_, computes_or, rfl⟩
      · exact ⟨_, computes_xor, rfl⟩
    obtain ⟨f, hf, hrow⟩ := hrow
    rw [hrow, aluI_ok hf h hg]
  · intro i s slot c f h hg hres hmem
    simp only [List.mem_cons, Prod.mk.injEq, List.not_mem_nil, or_false] at hmem
    rcases hmem with ⟨hop, rfl⟩ | ⟨hop, rfl⟩ | ⟨hop, rfl⟩
    · rw [exec_scShi h hg hres (by omega) (if_pos hop), ← sVal_toNat, setS_ofNat (ofNat_shiftLeft _ _)]
    · rw [exec_scShi h hg hres (by omega) ((if_neg (by omega)).trans (if_pos hop)), ← sVal_toNat, setS_ofNat (ofNat_shiftRight _ _)]
    · rw [exec_scShi h hg hres (by omega) ((if_neg (by omega)).trans (if_neg (by omega))), ← sVal_toNat, setS_ofNat (ofNat_sraN _ _)]

/-! Compares and predicate operations. -/

/-- A test on numbers is, of the numbers of two words, the test `g` of the words. -/
def Decides (f : Nat → Nat → Bool) (g : W64 → W64 → Bool) : Prop := ∀ x y : W64, f x.toNat y.toNat = g x y

theorem decides_eq : Decides (fun a b => a == b) (fun x y => x == y) := fun x y => by
  rw [Bool.eq_iff_iff]
  simp [BitVec.toNat_inj]

theorem decides_ne : Decides (fun a b => a != b) (fun x y => x != y) := fun x y => congrArg not (decides_eq x y)

theorem decides_lt : Decides (fun a b => decide (sgn 64 a < sgn 64 b)) (fun x y => x.slt y) := fun x y => by
  simp only [sgn_toNat]
  rfl

theorem decides_ge : Decides (fun a b => decide (sgn 64 b ≤ sgn 64 a)) (fun x y => y.sle x) := fun x y => by
  simp only [sgn_toNat]
  rfl

theorem decides_ltu : Decides (fun a b => decide (a < b)) (fun x y => x.ult y) := fun _ _ => rfl
theorem decides_geu : Decides (fun a b => decide (b ≤ a)) (fun x y => y.ule x) := fun _ _ => rfl

section
variable {s : State} {slot : Nat} {c : Ctx} {i : FR}

/-- A compare writes its result to every bit of p[D]. -/
theorem cmpR_ok {f : Nat → Nat → Bool} {g : W64 → W64 → Bool} (hf : Decides f g) (h : Issues s i.core slot c = true)
    (hg : guardOn c i.pg i.pn = true) (hd : i.d < 8) :
    cmpR i f s = .next (settle (retired s i.core slot c
      (setP c i.d (if g (sVal c i.a) (sVal c i.b) then BitVec.allOnes 64 else 0)))) := by
  rw [cmpR, issueR_ok h hg (decide_eq_true hd), ← hf, sVal_toNat, sVal_toNat]
  rfl

theorem predR_ok {f : W64 → W64 → W64} (h : Issues s i.core slot c = true) (hg : guardOn c i.pg i.pn = true) (hd : i.d < 8)
    (ha : i.a < 8) (hb : i.b < 8) :
    predR i f s = .next (settle (retired s i.core slot c (setP c i.d (f (pReg c i.a) (pReg c i.b))))) := by
  rw [predR, issueR_ok h hg (by simp [hd, ha, hb])]
  rfl

end

/-! Branches. -/

section
variable {s : State} {core slot t l : Nat} {c : Ctx}

/-- A branch that no staged switch holds goes to its target and writes its link (R265). -/
theorem jump_free (h : branchHeld s core t = false) :
    jump s core slot c t l = setCtx s core slot { setS c l (c.pc + 4) with pc := t % 2 ^ 32, stall := none } := by
  rw [jump, if_neg (by rw [h]; decide)]

/-- The target of a B-format branch is PC + 4 × OFF22 in 32 bits. -/
theorem brTarget_eq (off : BitVec 22) : brTarget c off = (BitVec.ofNat 32 c.pc + 4 * off.signExtend 32).toNat := by
  have h : BitVec.ofInt 32 ((c.pc : Int) + 4 * sgn 22 off.toNat) = BitVec.ofNat 32 c.pc + 4 * off.signExtend 32 := by
    rw [sgn_toNat, BitVec.ofInt_add, BitVec.ofInt_mul, BitVec.ofInt_natCast, BitVec.signExtend]
    rfl
  rw [brTarget, ← toNat_ofInt_unsgn, h]

theorem jump_brTarget {off : BitVec 22} {n : W32} (hn : n = BitVec.ofNat 32 c.pc + 4 * off.signExtend 32)
    (hheld : branchHeld s core n.toNat = false) :
    jump s core slot c (brTarget c off) l = setCtx s core slot { setS c l (c.pc + 4) with pc := n.toNat, stall := none } := by
  rw [brTarget_eq, ← hn, jump_free hheld, Nat.mod_eq_of_lt n.isLt]

theorem exec_scBr {i : FB} {off : W32} (h : Issues s i.core slot c = true) (hg : guardOn c i.pg i.pn = true)
    (hoff : off = BitVec.ofNat 32 c.pc + 4 * i.off.signExtend 32) (hheld : branchHeld s i.core off.toNat = false) :
    exec (.scBr i) s = .next (settle (setCtx (touchCode s c) i.core slot { c with pc := off.toNat, stall := none })) := by
  show execScBr i s = _
  rw [execScBr, liveCore_next (coreLive_of h), issue_ok h hg, jump_brTarget hoff (branchHeld_touchCode.trans hheld)]
  rfl

theorem exec_scCall {i : FB} {off : W32} (h : Issues s i.core slot c = true) (hg : guardOn c i.pg i.pn = true)
    (hoff : off = BitVec.ofNat 32 c.pc + 4 * i.off.signExtend 32) (hheld : branchHeld s i.core off.toNat = false) :
    exec (.scCall i) s = .next (settle (setCtx (touchCode s c) i.core slot
      { setS c 31 (c.pc + 4) with pc := off.toNat, stall := none })) := by
  show execScCall i s = _
  rw [execScCall, liveCore_next (coreLive_of h), issue_ok h hg, jump_brTarget hoff (branchHeld_touchCode.trans hheld)]

theorem exec_scJr {i : FR} (h : Issues s i.core slot c = true) (hg : guardOn c i.pg i.pn = true)
    (hheld : branchHeld s i.core (sReg c i.a % 2 ^ 32) = false) :
    exec (.scJr i) s = .next (settle (setCtx (touchCode s c) i.core slot { c with pc := sReg c i.a % 2 ^ 32, stall := none })) := by
  show execScJr i s = _
  rw [execScJr, issueR_ok h hg rfl, jump_free (branchHeld_touchCode.trans hheld), Nat.mod_mod]
  rfl

/-- JALR reads its target after it has written its link register. -/
theorem exec_scJalr {i : FR} {n : Nat} (h : Issues s i.core slot c = true) (hg : guardOn c i.pg i.pn = true)
    (hn : n = sReg (setS c i.d (c.pc + 4)) i.a % 2 ^ 32) (hheld : branchHeld s i.core n = false) :
    exec (.scJalr i) s = .next (settle (setCtx (touchCode s c) i.core slot
      { setS c i.d (c.pc + 4) with pc := n, stall := none })) := by
  subst hn
  show execScJalr i s = _
  rw [execScJalr, issueR_ok h hg rfl, jump_free (branchHeld_touchCode.trans hheld), Nat.mod_mod]

end

/-- Settles O7: compares by the test of the words, predicate operations word by word, branches to their targets. -/
theorem scPredicatesAndBranches : Obligations.ScPredicatesAndBranches := by
  refine ⟨⟨?_, ?_, ?_, ?_⟩, fun i s slot c off h hg ho hh => ⟨exec_scBr h hg ho hh, exec_scCall h hg ho hh⟩,
    fun i s slot c => exec_scJr, fun i s slot n c => exec_scJalr⟩
  · intro mk g hmem i s slot c h hg hd
    have hrow : ∃ f, Decides f g ∧ exec (mk i) s = cmpR i f s := by
      simp only [List.mem_cons, Prod.mk.injEq, List.not_mem_nil, or_false] at hmem
      rcases hmem with ⟨rfl, rfl⟩ | ⟨rfl, rfl⟩ | ⟨rfl, rfl⟩ | ⟨rfl, rfl⟩ | ⟨rfl, rfl⟩ | ⟨rfl, rfl⟩
      · exact ⟨_, decides_eq, rfl⟩
      · exact ⟨_, decides_ne, rfl⟩
      · exact ⟨_, decides_lt, rfl⟩
      · exact ⟨_, decides_ge, rfl⟩
      · exact ⟨_, decides_ltu, rfl⟩
      · exact ⟨_, decides_geu, rfl⟩
    obtain ⟨f, hf, hrow⟩ := hrow
    rw [hrow, cmpR_ok hf h hg hd]
  · intro mk f hmem i s slot c h hg hd ha hb
    have hrow : exec (mk i) s = predR i f s := by
      simp only [List.mem_cons, Prod.mk.injEq, List.not_mem_nil, or_false] at hmem
      rcases hmem with ⟨rfl, rfl⟩ | ⟨rfl, rfl⟩ | ⟨rfl, rfl⟩ | ⟨rfl, rfl⟩
      all_goals rfl
    rw [hrow, predR_ok h hg hd ha hb]
  · intro i s slot c h hg ha
    show execScPmov i s = _
    rw [execScPmov, issueR_ok h hg (decide_eq_true ha)]
    rfl
  · intro i s slot c h hg hd
    show execScSpmov i s = _
    rw [execScSpmov, issueR_ok h hg (decide_eq_true hd)]
    rfl

end Sys2Proof.Proofs.ScalarResults
end

