-- ==== Sys2Proof/Proofs/DataMemory.lean ====
section
/-! Data memory of a core: what its bytes read after a store, and the loads and stores of the scalar, vector and tile registers (R249,
R251, R253, R255, R256). -/

namespace Sys2Proof.Proofs.DataMemory
open Sys2Proof Sys2Proof.Machine Sys2Proof.Laws Sys2Proof.Proofs.CoreIssue

/-! Tables from which keys are taken out. -/

section
variable {α : Type} {d : α} {t : Tbl α} {f : Nat → Bool} {i j : Nat}

theorem tget_filter_keep (h : f i = true) : tget d (t.filter fun x => f x.1) i = tget d t i := by
  induction t with
  | nil => rfl
  | cons y t ih =>
    rw [List.filter_cons]
    split
    · rw [tget, tget, ih]
    · rename_i hf
      have hy : y.1 ≠ i := by rintro rfl; exact hf h
      rw [tget, if_neg hy, ih]

theorem tget_filter_drop (h : f i = false) : tget d (t.filter fun x => f x.1) i = d := by
  induction t with
  | nil => rfl
  | cons y t ih =>
    rw [List.filter_cons]
    split
    · rename_i hf
      have hy : y.1 ≠ i := by rintro rfl; exact absurd hf (by simp [h])
      rw [tget, if_neg hy, ih]
    · exact ih

theorem tblWf_filter [DecidableEq α] {p : Nat × α → Bool} {b : Nat} (h : tblWf d b t = true) : tblWf d b (t.filter p) = true := by
  induction t generalizing b with
  | nil => rfl
  | cons y t ih =>
    obtain ⟨hb, hv, ht⟩ := tblWf_cons.mp h
    by_cases hp : p y = true
    · rw [List.filter_cons_of_pos hp]
      exact tblWf_cons.mpr ⟨hb, hv, ih ht⟩
    · rw [List.filter_cons_of_neg hp]
      exact tblWf_weaken (ih ht) (Nat.le_succ_of_le hb)

end

theorem mem_insertNat {l : List Nat} {x y : Nat} : y ∈ insertNat l x ↔ y = x ∨ y ∈ l := by
  induction l with
  | nil => simp [insertNat]
  | cons z t ih =>
    rw [insertNat]
    split
    · exact List.mem_cons
    · split
      · rename_i hxz
        simp [hxz]
      · rw [List.mem_cons, ih, List.mem_cons, or_left_comm]

/-! One byte. -/

/-- What a byte of data memory reads, by its core address: 0 in a line not written since allocation (R251). -/
def byteAt (k : Core) (p : Nat) : Nat := if k.written.contains (p / 64) then (readByte k.dmem p).toNat else 0

/-- The core whose line of a byte counts as written, every byte of a line that did not reading 0 (R251). -/
def openLine (k : Core) (line : Nat) : Core :=
  if k.written.contains line then k
  else { k with dmem := k.dmem.filter (fun x => x.1 / 64 != line), written := insertNat k.written line }

/-- The core with one byte stored. -/
def putByte (k : Core) (p : Nat) (e : Byte) : Core :=
  { openLine k (p / 64) with
    dmem := writeByte (openLine k (p / 64)).dmem p e
    ecc1 := without (openLine k (p / 64)).ecc1 (p / 8 * 8), ecc2 := without (openLine k (p / 64)).ecc2 (p / 8 * 8) }

section
variable {k : Core} {line p q : Nat} {e : Byte}

theorem openLine_self : (openLine k line).written.contains line = true := by
  unfold openLine
  split
  · assumption
  · exact List.contains_iff_mem.mpr (mem_insertNat.mpr (Or.inl rfl))

/-- Opening a line changes what no byte reads. -/
theorem byteAt_openLine : byteAt (openLine k line) q = byteAt k q := by
  unfold openLine
  split
  · rfl
  · rename_i hline
    by_cases hq : q / 64 = line
    · subst hq
      have hopen : (insertNat k.written (q / 64)).contains (q / 64) = true :=
        List.contains_iff_mem.mpr (mem_insertNat.mpr (Or.inl rfl))
      have hzero : readByte (k.dmem.filter fun x => x.1 / 64 != q / 64) q = 0 :=
        tget_filter_drop (f := fun i => i / 64 != q / 64) (by simp)
      simp only [byteAt, hopen, hline, hzero, if_true, Bool.false_eq_true, if_false]
      rfl
    · have hmem : (insertNat k.written line).contains (q / 64) = k.written.contains (q / 64) := by
        rw [Bool.eq_iff_iff, List.contains_iff_mem, List.contains_iff_mem, mem_insertNat, or_iff_right hq]
      have hkeep : readByte (k.dmem.filter fun x => x.1 / 64 != line) q = readByte k.dmem q :=
        tget_filter_keep (f := fun i => i / 64 != line) (by simpa using hq)
      simp only [byteAt, hmem, hkeep]

theorem byteAt_putByte_self : byteAt (putByte k p e) p = e.toNat := by
  have hopen : (putByte k p e).written.contains (p / 64) = true := openLine_self
  rw [byteAt, if_pos hopen]
  exact congrArg BitVec.toNat readByte_writeByte_self

theorem byteAt_putByte_ne (h : p ≠ q) : byteAt (putByte k p e) q = byteAt k q := by
  have hread : readByte (putByte k p e).dmem q = readByte (openLine k (p / 64)).dmem q := readByte_writeByte_ne h
  rw [byteAt, hread]
  exact byteAt_openLine

theorem memWf_putByte (h : memWf k.dmem = true) : memWf (putByte k p e).dmem = true := by
  refine memWf_writeByte (m := (openLine k (p / 64)).dmem) ?_
  unfold openLine
  split
  · exact h
  · exact tblWf_filter h

end

/-! Stores of several bytes. -/

section
variable {k : Core} {c : Ctx} {a b v n : Nat}

theorem dmPut_succ : dmPut k c a v (n + 1) = dmPut (putByte k (coreAddr c a) (BitVec.ofNat 8 v)) c (a + 1) (v / 256) n := rfl

theorem dmBytes_one : dmBytes k c a 1 = byteAt k (coreAddr c a) := rfl

/-- A store looks at nothing of its context but the slices. -/
theorem dmPut_slices {c' : Ctx} (h : c'.slices = c.slices) : dmPut k c' a v n = dmPut k c a v n := by
  induction n generalizing k a v with
  | zero => rfl
  | succ n ih =>
    have haddr : coreAddr c' a = coreAddr c a := by rw [coreAddr, h, coreAddr]
    rw [dmPut_succ, dmPut_succ, haddr, ih]

theorem memWf_dmPut (h : memWf k.dmem = true) : memWf (dmPut k c a v n).dmem = true := by
  induction n generalizing k a v with
  | zero => exact h
  | succ n ih => exact ih (memWf_putByte h)

/-- The addresses of a context lie at different places of its core. -/
theorem coreAddr_inj (h : c.slices.Nodup) (ha : a < c.slices.length * 16384) (hb : b < c.slices.length * 16384)
    (hab : coreAddr c a = coreAddr c b) : a = b := by
  have hia : a / 16384 < c.slices.length := Nat.div_lt_of_lt_mul (by omega)
  have hib : b / 16384 < c.slices.length := Nat.div_lt_of_lt_mul (by omega)
  rw [coreAddr, coreAddr, List.getD_eq_getElem _ _ hia, List.getD_eq_getElem _ _ hib] at hab
  have hslice : a / 16384 = b / 16384 := (List.Nodup.getElem_inj_iff h).mp (by omega)
  simp only [hslice] at hab
  omega

/-- A byte after a store: the byte stored inside the range, the byte as before outside it (R251). -/
theorem dmBytes_dmPut (h : c.slices.Nodup) (hn : a + n ≤ c.slices.length * 16384) (hb : b < c.slices.length * 16384) :
    dmBytes (dmPut k c a v n) c b 1 = if a ≤ b ∧ b < a + n then v / 256 ^ (b - a) % 256 else dmBytes k c b 1 := by
  induction n generalizing k a v with
  | zero => rw [if_neg (by omega), dmPut]
  | succ n ih =>
    rw [dmPut_succ, ih (by omega)]
    by_cases hab : a = b
    · subst hab
      rw [if_neg (by omega), if_pos (by omega), dmBytes_one, byteAt_putByte_self, Nat.sub_self, Nat.pow_zero, Nat.div_one,
        BitVec.toNat_ofNat]
    · have hplace : coreAddr c a ≠ coreAddr c b := fun heq => hab (coreAddr_inj h (by omega) hb heq)
      by_cases hin : a + 1 ≤ b ∧ b < a + 1 + n
      · rw [if_pos hin, if_pos (by omega), Nat.div_div_eq_div_mul, ← Nat.pow_succ', show (b - (a + 1)).succ = b - a by omega]
      · rw [if_neg hin, if_neg (by omega), dmBytes_one, dmBytes_one, byteAt_putByte_ne hplace]

end

/-! Loads. -/

section
variable {s s' : State} {slot data n : Nat} {c : Ctx}

theorem loadI_ok {i : FI} (h : Issues s i.core slot c = true) (hg : guardOn c i.pg i.pn = true)
    (hload : dmLoad (touchCode s c) i.core c (ldAddr c i n) n = (s', 0, data)) :
    loadI i n s = .next (settle (retire s' i.core slot (setS c i.d data))) := by
  rw [loadI, issueI_ok h hg rfl]
  simp only [hload, if_true]

theorem flagsOf_eq_zero {l : List (Nat × Nat)} (h : ∀ e ∈ l, e.2 = 0) : flagsOf l = 0 := by
  induction l with
  | nil => rfl
  | cons e t ih =>
    have he : e.2 = 0 := h e List.mem_cons_self
    rw [flagsOf, List.foldl_cons, he]
    exact ih fun x hx => h x (List.mem_cons_of_mem e hx)

theorem orFlags_zero : orFlags c 0 = c := by rw [orFlags, Nat.or_zero]

/-- Lanes without flags raise none. -/
theorem laneFlags_eq_zero {i : FV} {l : List (Nat × Nat)} (h : ∀ e ∈ l, e.2 = 0) : laneFlags c i l = 0 := by
  refine flagsOf_eq_zero fun e he => ?_
  obtain ⟨k, hk, rfl⟩ := List.mem_mapIdx.mp he
  split
  · exact h _ (List.getElem_mem hk)
  · rfl

/-- Lanes that raise no flag are written as they are where they are not masked. -/
theorem putLanes_plain {i : FV} {f : Nat} {α : Type} {l : List α} {y : α → Nat} :
    putLanes s slot c i f (l.map fun x => (y x, 0)) =
      retire s i.core slot (setV c i.d (fromLanes (codeW f) (maskLanes c i (lanes f (vReg c i.d)) (l.map y)))) := by
  have hnone : ∀ e ∈ l.map fun x => (y x, 0), e.2 = 0 := by
    intro e he
    obtain ⟨x, -, rfl⟩ := List.mem_map.mp he
    rfl
  simp only [putLanes, laneFlags_eq_zero hnone, orFlags_zero, List.map_map]
  rfl

theorem exec_scVld {i : FV} (h : Issues s i.core slot c = true) (hf : laneFmt i.fmt = true) (hd : i.d < 16)
    (hload : dmLoad (touchCode s c) i.core c (vAddr c i) 64 = (s', 0, data)) :
    exec (.scVld i) s = .next (settle (retire s' i.core slot (setV c i.d (fromLanes (codeW i.fmt)
      (maskLanes c i (lanes i.fmt (vReg c i.d)) (lanes i.fmt (BitVec.ofNat 512 data))))))) := by
  show execScVld i s = _
  rw [execScVld, issueLanes_ok h (by simp [hf, hd])]
  simp only [hload, ne_eq, not_true_eq_false, if_false, putLanes_plain, List.map_id']

/-- A lane of VLDX in a plain format: expanded to FP32, or sign-extended (R256, R341). -/
def widened (e : Elem) (y : Nat) : Nat :=
  match e with
  | .flt f => expand32 f y
  | .int n => unsgn 32 (sgn n y)

theorem exec_scVldx {i : FV} (h : Issues s i.core slot c = true) (hd : i.d < 16) (hf : i.fmt < 16) (hmx : isMx i.fmt = false)
    (hload : dmLoad (touchCode s c) i.core c (vAddr c i) (2 * codeW i.fmt) = (s', 0, data)) :
    exec (.scVldx i) s = .next (settle (retire s' i.core slot (setV c i.d (fromLanes (codeW (wideFmt i.fmt))
      (maskLanes c i (lanes (wideFmt i.fmt) (vReg c i.d)) ((unpackE (codeW i.fmt) 16 data).map (widened (elemOf i.fmt false)))))))) := by
  show execScVldx i s = _
  rw [execScVldx, issueLanes_ok h (by simp [hd, hf])]
  simp only [hmx, Bool.false_eq_true, if_false, hload, ne_eq, not_true_eq_false]
  rw [← putLanes_plain]
  cases elemOf i.fmt false with
  | flt f => rfl
  | int n => rfl

theorem exec_scTld {i : FV} (h : Issues s i.core slot c = true) (hg : guardOn c i.pg i.pn = true) (hd : i.d < 4) (hf : i.fmt < 16)
    (hmx : isMx i.fmt = false) (hload : dmLoad (touchCode s c) i.core c (vAddr c i) 1024 = (s', 0, data)) :
    exec (.scTld i) s = .next (settle (retire s' i.core slot (setTag (setT c i.d (BitVec.ofNat 8192 data)) i.d i.fmt))) := by
  show execScTld i s = _
  rw [execScTld, issueWhole_ok h hg (by simp [hd, hf])]
  simp only [hmx, Bool.false_eq_true, if_false, hload, ne_eq, not_true_eq_false]

end

/-! Stores. -/

section
variable {s : State} {slot n : Nat} {c : Ctx}

theorem storeI_ok {i : FI} (h : Issues s i.core slot c = true) (hg : guardOn c i.pg i.pn = true)
    (hok : dmOk c (ldAddr c i n) n = true) :
    storeI i n s = .next (settle (retire (modCore (touchCode s c) i.core fun k =>
      dmPut k c (ldAddr c i n) (sReg c i.d) n) i.core slot c)) := by
  rw [storeI, issueI_ok h hg rfl, if_pos hok]

theorem exec_scVst {i : FV} (h : Issues s i.core slot c = true) (hf : laneFmt i.fmt = true) (hd : i.d < 16)
    (hok : dmOk c (vAddr c i) 64 = true) :
    exec (.scVst i) s = .next (settle (retire (modCore (touchCode s c) i.core fun k =>
      (lanes i.fmt (vReg c i.d)).zipIdx.foldl (fun k (x : Nat × Nat) =>
        if laneOn c i.pg i.pn x.2 then dmPut k c (vAddr c i + x.2 * (codeW i.fmt / 8)) x.1 (codeW i.fmt / 8) else k) k)
      i.core slot c)) := by
  show execScVst i s = _
  rw [execScVst, issueLanes_ok h (by simp [hf, hd])]
  simp only [if_neg (not_not.mpr hok)]

theorem exec_scVstx {i : FV} {es : List (Nat × Nat)} (h : Issues s i.core slot c = true) (hd : i.d < 16) (hf : i.fmt < 16)
    (hmx : isMx i.fmt = false) (hok : dmOk c (vAddr c i) (2 * codeW i.fmt) = true)
    (hes : es = (lanes (wideFmt i.fmt) (vReg c i.d)).map (econv (elemOf (wideFmt i.fmt) false) (elemOf i.fmt false))) :
    exec (.scVstx i) s = .next (settle (retire (modCore (touchCode s c) i.core fun k =>
      dmPut k c (vAddr c i) (packE (codeW i.fmt) (maskLanes c i
        (unpackE (codeW i.fmt) 16 (dmBytes (getCore (touchCode s c) i.core) c (vAddr c i) (2 * codeW i.fmt)))
        (es.map (·.1)))) (2 * codeW i.fmt)) i.core slot (orFlags c (laneFlags c i es)))) := by
  have hslices : (orFlags c (laneFlags c i es)).slices = c.slices := rfl
  show execScVstx i s = _
  rw [execScVstx, issueLanes_ok h (by simp [hd, hf])]
  simp only [hmx, Bool.false_eq_true, if_false, if_neg (not_not.mpr hok), ← hes, dmPut_slices hslices]
  rfl

theorem exec_scTst {i : FV} {bytes fl : Nat} (h : Issues s i.core slot c = true) (hg : guardOn c i.pg i.pn = true) (hd : i.d < 4)
    (hf : i.fmt < 16) (hdata : tstData c i.d i.fmt = (bytes, n, fl)) (hok : dmOk c (vAddr c i) n = true) :
    exec (.scTst i) s = .next (settle (retire (modCore (touchCode s c) i.core fun k =>
      dmPut k c (vAddr c i) bytes n) i.core slot (orFlags c fl))) := by
  show execScTst i s = _
  rw [execScTst, issueWhole_ok h hg (by simp [hd, hf])]
  simp only [hdata, if_neg (not_not.mpr hok)]

end

/-- Settles O8: loads and stores of each register file, and what a byte reads after a store. -/
theorem scMemory : Obligations.ScMemory := by
  refine ⟨⟨?_, fun i s s' slot data c => exec_scVld, ?_, fun i s s' slot data c => exec_scTld⟩,
    ⟨?_, fun i s slot c => exec_scVst, fun i s slot c h hd hf hmx hok => ⟨_, rfl, exec_scVstx h hd hf hmx hok rfl⟩,
      fun i s slot c bytes n fl => exec_scTst⟩,
    fun k c a v n b h hn hb => ⟨memWf_dmPut, dmBytes_dmPut h hn hb⟩⟩
  · intro mk n hmem i s s' slot data c h hg hload
    have hrow : exec (mk i) s = loadI i n s := by
      simp only [List.mem_cons, Prod.mk.injEq, List.not_mem_nil, or_false] at hmem
      rcases hmem with ⟨rfl, rfl⟩ | ⟨rfl, rfl⟩
      all_goals rfl
    rw [hrow, loadI_ok h hg hload]
  · intro i s s' slot data c h hd hf hmx hload
    rw [exec_scVldx h hd hf hmx hload]
    cases elemOf i.fmt false with
    | flt f => rfl
    | int n => rfl
  · intro mk n hmem i s slot c h hg hok
    have hrow : exec (mk i) s = storeI i n s := by
      simp only [List.mem_cons, Prod.mk.injEq, List.not_mem_nil, or_false] at hmem
      rcases hmem with ⟨rfl, rfl⟩ | ⟨rfl, rfl⟩
      all_goals rfl
    rw [hrow, storeI_ok h hg hok]

end Sys2Proof.Proofs.DataMemory
end

