-- ==== Sys2Proof/Proofs/VectorResults.lean ====
section
/-! Reductions, lane moves, compares and conversions of vector registers, and the matrix unit (R248–R250, R256, R257, R349–R354). -/

namespace Sys2Proof.Proofs.VectorResults
open Sys2Proof Sys2Proof.Machine Sys2Proof.Laws Sys2Proof.Proofs.DataMemory

/-! Lanes. -/

theorem length_unpackE (w n x : Nat) : (unpackE w n x).length = n := by
  induction n generalizing x with
  | zero => rfl
  | succ n ih => rw [unpackE, List.length_cons, ih]

theorem length_lanes (f : Nat) (v : W512) : (lanes f v).length = 512 / codeW f := length_unpackE _ _ _

/-! Reductions. -/

section
variable {s : State} {slot : Nat} {c : Ctx} {i : FV}

/-- A reduction that raises no flag writes its value to s[D]. -/
theorem reduce_ok {f : Nat → List Nat → Nat × Nat} {v : Nat} (h : Issues s i.core slot c = true) (hg : guardOn c i.pg i.pn = true)
    (hf : sumFmt i.fmt = true) (ha : i.a < 16) (hv : f i.fmt (lanes i.fmt (vReg c i.a)) = (v, 0)) :
    reduce i f s = .next (settle (retired s i.core slot c (setS c i.d v))) := by
  rw [reduce, issueWhole_ok h hg (by simp [hf, ha])]
  simp only [hv, orFlags_zero]
  rfl

end

section
variable {fmt w : Nat}

/-- VRSUM of an integer format is exact (R350). -/
theorem vrsum_int (h : elemOf fmt false = .int w) (l : List Nat) : vrsum fmt l = (unsgn 64 (l.map (sgn w)).sum, 0) := by
  rw [List.sum_eq_foldl, List.foldl_map]
  simp only [vrsum, h]

theorem vrmax_int (h : elemOf fmt false = .int w) (x : Nat) (t : List Nat) :
    vrmax fmt (x :: t) = (unsgn 64 ((t.map (sgn w)).foldl max (sgn w x)), 0) := by
  rw [List.foldl_map]
  simp only [vrmax, h]

/-- The integer formats of the reductions have lanes. -/
theorem lanes_ne_nil (hf : sumFmt fmt = true) (v : W512) : lanes fmt v ≠ [] := by
  have hfmt : fmt = 0 ∨ fmt = 8 ∨ fmt = 9 ∨ fmt = 10 := by
    simp only [sumFmt, Bool.or_eq_true, decide_eq_true_eq] at hf
    omega
  have hlen : 0 < 512 / codeW fmt := by rcases hfmt with rfl | rfl | rfl | rfl <;> decide
  rw [← length_lanes fmt v] at hlen
  exact List.ne_nil_of_length_pos hlen

/-- VRMAX of an integer format is the greatest lane. -/
theorem vrmax_greatest (h : elemOf fmt false = .int w) {l : List Nat} (hl : l ≠ []) :
    ∃ m, vrmax fmt l = (unsgn 64 m, 0) ∧ m ∈ l.map (sgn w) ∧ ∀ x ∈ l.map (sgn w), x ≤ m := by
  obtain ⟨x, t, rfl⟩ := List.exists_cons_of_ne_nil hl
  refine ⟨_, vrmax_int h x t, ?_⟩
  rw [← List.max?_eq_some_iff, List.map_cons, List.max?_cons']

end

/-! Lane moves. -/

section
variable {s : State} {slot : Nat} {c : Ctx} {i : FV}

theorem exec_scVbcast (h : Issues s i.core slot c = true) (hf : laneFmt i.fmt = true) (hd : i.d < 16) :
    exec (.scVbcast i) s = .next (settle (retired s i.core slot c (setV c i.d (fromLanes (codeW i.fmt) (maskLanes c i
      (lanes i.fmt (vReg c i.d)) ((lanes i.fmt (vReg c i.d)).map fun _ => sReg c i.a % 2 ^ codeW i.fmt)))))) := by
  show execScVbcast i s = _
  rw [execScVbcast, issueLanes_ok h (by simp [hf, hd])]
  simp only [putLanes_plain (y := fun _ => sReg c i.a % 2 ^ codeW i.fmt)]
  rfl

theorem exec_scVext {x : Nat} (h : Issues s i.core slot c = true) (hg : guardOn c i.pg i.pn = true) (hf : laneFmt i.fmt = true)
    (ha : i.a < 16) (hx : (lanes i.fmt (vReg c i.a))[sReg c i.b]? = some x) :
    exec (.scVext i) s = .next (settle (retired s i.core slot c (setS c i.d x))) := by
  show execScVext i s = _
  rw [execScVext, issueWhole_ok h hg (by simp [hf, ha])]
  simp only [hx]
  rfl

/-- Writing one lane, its flags clear, is setting it in the list of lanes. -/
theorem mapIdx_set {l : List Nat} {n v : Nat} (hn : n < l.length) :
    l.mapIdx (fun k x => (if k = n then v else x, 0)) = (l.set n v).map fun x => (id x, 0) := by
  refine List.ext_getElem? fun k => ?_
  rw [List.getElem?_mapIdx, List.getElem?_map, List.getElem?_set]
  by_cases hk : n = k
  · subst hk
    simp [hn]
  · simp [hk, Ne.symm hk]

theorem exec_scVins (h : Issues s i.core slot c = true) (hf : laneFmt i.fmt = true) (hd : i.d < 16)
    (hn : sReg c i.b < (lanes i.fmt (vReg c i.d)).length) :
    exec (.scVins i) s = .next (settle (retired s i.core slot c (setV c i.d (fromLanes (codeW i.fmt) (maskLanes c i
      (lanes i.fmt (vReg c i.d)) ((lanes i.fmt (vReg c i.d)).set (sReg c i.b) (sReg c i.a % 2 ^ codeW i.fmt))))))) := by
  show execScVins i s = _
  rw [execScVins, issueLanes_ok h (by simp [hf, hd])]
  simp only [if_pos hn, mapIdx_set hn, putLanes_plain, List.map_id]
  rfl

end

/-! Lane compares. -/

/-- A number given by its lowest bits. -/
def ofBits (f : Nat → Bool) (n : Nat) : Nat := sumBy (fun k => put (b2n (f k)) k) (upTo n)

theorem sumBy_append {α : Type} (f : α → Nat) (l m : List α) : sumBy f (l ++ m) = sumBy f l + sumBy f m := by
  induction l with
  | nil => simp [sumBy]
  | cons x t ih => rw [List.cons_append, sumBy, sumBy, ih, Nat.add_assoc]

section
variable {f : Nat → Bool} {n k : Nat}

theorem ofBits_succ : ofBits f (n + 1) = 2 ^ n * b2n (f n) + ofBits f n := by
  rw [ofBits, upTo, List.range_succ, sumBy_append, Nat.add_comm, Nat.mul_comm, ← Nat.shiftLeft_eq]
  rfl

theorem ofBits_lt : ofBits f n < 2 ^ n := by
  induction n with
  | zero => exact Nat.zero_lt_one
  | succ n ih =>
    have hbit : b2n (f n) ≤ 1 := by unfold b2n; split <;> omega
    have hmul : 2 ^ n * b2n (f n) ≤ 2 ^ n * 1 := Nat.mul_le_mul_left _ hbit
    rw [ofBits_succ, Nat.pow_succ]
    omega

theorem testBit_ofBits (hk : k < n) : (ofBits f n).testBit k = f k := by
  induction n with
  | zero => omega
  | succ n ih =>
    rw [ofBits_succ, Nat.testBit_two_pow_mul_add _ ofBits_lt]
    split
    · exact ih ‹_›
    · obtain rfl : k = n := by omega
      rw [Nat.sub_self, b2n]
      cases f k <;> rfl

theorem bitOf_ofBits (hk : k < 64) : bitOf (BitVec.ofNat 64 (ofBits f 64)) k = f k := by
  rw [bitOf, BitVec.getLsbD_ofNat, decide_eq_true hk, Bool.true_and, testBit_ofBits hk]

end

/-- The test of a lane compare on two codes of an element. -/
def laneTest (ff : Fv → Fv → Bool) (fi : Int → Int → Bool) (e : Elem) (x y : Nat) : Bool :=
  match e with
  | .flt f => ff (fdec f x) (fdec f y)
  | .int n => fi (sgn n x) (sgn n y)

section
variable {s : State} {slot : Nat} {c : Ctx} {i : FV} {ff : Fv → Fv → Bool} {fi : Int → Int → Bool}

/-- Bit k of what a lane compare writes to p[D]: the test where there is such a lane and it is not masked, else the bit as before. -/
def cmpBit (c : Ctx) (i : FV) (ff : Fv → Fv → Bool) (fi : Int → Int → Bool) (k : Nat) : Bool :=
  if k < 512 / codeW i.fmt ∧ laneOn c i.pg i.pn k then
    laneTest ff fi (elemOf i.fmt false) ((lanes i.fmt (vReg c i.a)).getD k 0) ((lanes i.fmt (vReg c i.b)).getD k 0)
  else bitOf (pReg c i.d) k

/-- A bit by the list of the lanes' tests is the bit by its own lane. -/
theorem cmpBit_eq (k : Nat) :
    (match (((lanes i.fmt (vReg c i.a)).zip (lanes i.fmt (vReg c i.b))).map
        fun x => laneTest ff fi (elemOf i.fmt false) x.1 x.2)[k]? with
      | some b => if laneOn c i.pg i.pn k then b else bitOf (pReg c i.d) k
      | none => bitOf (pReg c i.d) k) = cmpBit c i ff fi k := by
  have ha := length_lanes i.fmt (vReg c i.a)
  have hb := length_lanes i.fmt (vReg c i.b)
  by_cases hk : k < 512 / codeW i.fmt
  · have hka : k < (lanes i.fmt (vReg c i.a)).length := by omega
    have hkb : k < (lanes i.fmt (vReg c i.b)).length := by omega
    simp [cmpBit, hk, hka, hkb]
  · simp [cmpBit, hk, ha, hb]

theorem laneCmp_ok (h : Issues s i.core slot c = true) (hf : laneFmt i.fmt = true) (hd : i.d < 8) (ha : i.a < 16) (hb : i.b < 16) :
    laneCmp i ff fi s = .next (settle (retired s i.core slot c (setP c i.d (BitVec.ofNat 64 (ofBits (cmpBit c i ff fi) 64))))) := by
  rw [laneCmp, issueLanes_ok h (by simp [hf, hd, ha, hb])]
  simp only [← funext cmpBit_eq, ofBits]
  cases elemOf i.fmt false <;> rfl

end

/-! Conversion and clearing. -/

section
variable {s : State} {slot : Nat} {c : Ctx} {i : FV}

theorem exec_scVcvt {n : Nat} {r : List (Nat × Nat)} (h : Issues s i.core slot c = true) (hf : laneFmt i.fmt = true)
    (hsf : laneFmt i.b = true) (hb : i.b < 16) (hd : i.d < 16) (ha : i.a < 16) (hn : n = 512 / max (codeW i.b) (codeW i.fmt))
    (hr : r = (unpackE (codeW i.b) n (vReg c i.a).toNat).map (econv (elemOf i.b false) (elemOf i.fmt false))) :
    exec (.scVcvt i) s = .next (settle (retired s i.core slot c (orFlags (setV c i.d (fromLanes (codeW i.fmt)
      (maskLanes c i (unpackE (codeW i.fmt) n (vReg c i.d).toNat) (r.map (·.1))))) (laneFlags c i r)))) := by
  subst hr hn
  show execScVcvt i s = _
  rw [execScVcvt, issueLanes_ok h (by simp [hf, hsf, hb, hd, ha])]
  rfl

theorem exec_scTzero (h : Issues s i.core slot c = true) (hg : guardOn c i.pg i.pn = true) (hd : i.d < 4)
    (hf : i.fmt = 0 ∨ i.fmt = 8) :
    exec (.scTzero i) s = .next (settle (retired s i.core slot c (setTag (setT c i.d 0) i.d i.fmt))) := by
  have he : (decide (i.d < 4) && (i.fmt == 0 || i.fmt == 8)) = true := by simp [hd, hf]
  show execScTzero i s = _
  rw [execScTzero, issueWhole_ok h hg he]
  rfl

end

/-- Settles O11: reductions, lane moves, compares bit by bit, VCVT and TZERO. -/
theorem scReductionsAndCompares : Obligations.ScReductionsAndCompares := by
  refine ⟨⟨?_, fun i s slot c => exec_scVbcast, fun i s slot x c => exec_scVext, fun i s slot c => exec_scVins⟩, ?_,
    fun i s slot n c h hf hsf hb hd ha hn => ⟨_, rfl, exec_scVcvt h hf hsf hb hd ha hn rfl⟩, fun i s slot c => exec_scTzero⟩
  · intro i s slot w c h hg hf ha he
    obtain ⟨m, hm, hgreatest⟩ := vrmax_greatest he (lanes_ne_nil hf (vReg c i.a))
    have hsum : exec (.scVrsum i) s = reduce i vrsum s := rfl
    have hmax : exec (.scVrmax i) s = reduce i vrmax s := rfl
    exact ⟨hsum.trans (reduce_ok h hg hf ha (vrsum_int he _)), m, hmax.trans (reduce_ok h hg hf ha hm), hgreatest⟩
  · intro mk ff fi hmem i s slot c h hf hd ha hb
    have hrow : exec (mk i) s = laneCmp i ff fi s := by
      simp only [List.mem_cons, Prod.mk.injEq, List.not_mem_nil, or_false] at hmem
      rcases hmem with ⟨rfl, rfl, rfl⟩ | ⟨rfl, rfl, rfl⟩
      all_goals rfl
    refine ⟨_, hrow.trans (laneCmp_ok h hf hd ha hb), fun k hk => ?_⟩
    rw [bitOf_ofBits hk, cmpBit]
    cases elemOf i.fmt false <;> rfl

/-! The matrix unit. -/

/-- The condition on its tiles under which TMMA is skipped with TILE (R257, R351, R354). -/
def tilesBad (c : Ctx) (i : FV) (split : Nat) : Prop :=
  tileTag c i.a ≠ tileTag c i.b ∨ tileTag c i.d ≠ (if isInt (tileTag c i.a) then 8 else 0) ∨ i.d = i.a ∨ i.d = i.b ∨
    (split ≠ 0 ∧ tileTag c i.a ≠ 0)

/-- The element that TMMA gives at place n, from its row, its column and the accumulator x (R351–R354). -/
def tileElem (c : Ctx) (i : FV) (split n x : Nat) : Nat × Nat :=
  tmmaElem (tileTag c i.a) (tileMxv c i.a) (tileMxv c i.b) split x
    (((tileElems (tileTag c i.a) (tReg c i.a)).drop (n / 16 * tileK (tileTag c i.a))).take (tileK (tileTag c i.a)))
    (((tileElems (tileTag c i.a) (tReg c i.b)).drop (n % 16 * tileK (tileTag c i.a))).take (tileK (tileTag c i.a)))

/-- The 256 elements of t[D] after TMMA. -/
def tileResult (c : Ctx) (i : FV) (split : Nat) : List (Nat × Nat) :=
  (unpackE 32 256 (tReg c i.d).toNat).mapIdx (tileElem c i split)

section
variable {s : State} {slot split : Nat} {c : Ctx} {i : FV}

theorem length_tileResult : (tileResult c i split).length = 256 := by rw [tileResult, List.length_mapIdx, length_unpackE]

theorem tileResult_getD {n : Nat} (hn : n < 256) :
    (tileResult c i split).getD n (0, 0) = tileElem c i split n ((unpackE 32 256 (tReg c i.d).toNat).getD n 0) := by
  have hlen : n < (unpackE 32 256 (tReg c i.d).toNat).length := hn.trans_eq (length_unpackE _ _ _).symm
  rw [List.getD_eq_getElem _ _ hlen, List.getD_eq_getElem _ _ (hn.trans_eq length_tileResult.symm)]
  simp only [tileResult, List.getElem_mapIdx]

theorem tmma_ok (h : Issues s i.core slot c = true) (hg : guardOn c i.pg i.pn = true) (hd : i.d < 4) (ha : i.a < 4) (hb : i.b < 4)
    (ht : ¬ tilesBad c i split) :
    tmma i split s = .next (settle (retired s i.core slot c (orFlags
      (setT c i.d (BitVec.ofNat 8192 (packE 32 ((tileResult c i split).map (·.1))))) (flagsOf (tileResult c i split))))) := by
  rw [tilesBad] at ht
  rw [tmma, issueWhole_ok h hg (by simp [hd, ha, hb])]
  simp only [if_neg ht]
  rfl

theorem tmma_skipped (h : Issues s i.core slot c = true) (hg : guardOn c i.pg i.pn = true) (hd : i.d < 4) (ha : i.a < 4)
    (hb : i.b < 4) (ht : tilesBad c i split) :
    tmma i split s = .next (settle (skipAt (touchCode s c) i.core slot scTile)) := by
  rw [tilesBad] at ht
  rw [tmma, issueWhole_ok h hg (by simp [hd, ha, hb])]
  simp only [if_pos ht]

end

/-- Settles O12: TMMA writes the elements where its tiles are in order, and is skipped where they are not. -/
theorem scTmma : Obligations.ScTmma := by
  rintro mk split hmem i s slot tag c h hg hd ha hb rfl
  have hrow : exec (mk i) s = tmma i split s := by
    simp only [List.mem_cons, Prod.mk.injEq, List.not_mem_nil, or_false] at hmem
    rcases hmem with ⟨rfl, rfl⟩ | ⟨rfl, rfl⟩ | ⟨rfl, rfl⟩
    all_goals rfl
  rw [hrow]
  refine ⟨fun hab hacc hda hdb hsplit => ?_, tmma_skipped h hg hd ha hb⟩
  have ht : ¬ tilesBad c i split := by
    rintro (hne | hne | heq | heq | ⟨hs, htag⟩)
    · exact hne hab
    · exact hne hacc
    · exact hda heq
    · exact hdb heq
    · exact hsplit.elim hs htag
  exact ⟨tileResult c i split, tmma_ok h hg hd ha hb ht, length_tileResult, fun n => tileResult_getD⟩

end Sys2Proof.Proofs.VectorResults
end

