-- ==== Sys2Proof/Proofs/TransferTags.lean ====
section
/-! The tag under which a transfer's reads go out (R255). The reads carry the tag that the transfer has taken; the statement names
the tag after it, because its tag is read from the state in which the transfer has been started. -/

namespace Sys2Proof.Proofs.TransferTags
open Sys2Proof Sys2Proof.Machine

/-- A context with one slice and 64 in s1. -/
def loadCtx : Ctx := { st := .running, nslices := 1, s := [(1, 64)] }

/-- A live Root whose core 0 runs that context, with an instruction at address 0 of its active bank. -/
def loadState : State := { State.reset with
  glb := { State.reset.glb with blk := .ready, por := false }
  cores := [(0, { run := some 0, imemA := [(2, 64)] })]
  ctxs := [(0, loadCtx)] }

/-- XLD of the 64 bytes at memory address 0 to address 0 of data memory. -/
def loadInstr : FR := { core := 0x300, pg := 0, pn := false, d := 0, a := 0, b := 1 }

/-- The pieces that XLD moves: one. -/
def loadPieces : List (Nat × Nat × Nat) := [(0, 0, 64)]

/-- The reads outstanding at the manager port in a next state. -/
def readsAfter : Host.Outcome State Fault Refusal → List Rd
  | .next t => t.port.reads
  | .fault _ | .refused _ => []

/-- The state as the statement has it: each read under the tag that stands next when it goes out. -/
def loadClaimed : State :=
  loadPieces.foldl (fun s (p : Nat × Nat × Nat) =>
      mgrRead s loadCtx.part p.2.1 p.2.2 (.xfer loadInstr.core (touchCode s loadCtx).port.nextTxn))
    (retire (nextTag (touchCode loadState loadCtx)) loadInstr.core 0 { loadCtx with
      xfers := loadCtx.xfers ++
        [{ tag := (touchCode loadState loadCtx).port.nextTxn, pc := loadCtx.pc, load := true, pieces := loadPieces }] })

theorem loadInstr_issues : Issues loadState loadInstr.core 0 loadCtx = true ∧ guardOn loadCtx loadInstr.pg loadInstr.pn = true := by
  decide +kernel

theorem loadInstr_plan : xferPlan loadCtx 0 loadInstr = (0, loadPieces, none) := by decide +kernel

/-- The model's read carries tag 0, that of the transfer. -/
theorem readsAfter_scXld : (readsAfter (exec (.scXld loadInstr) loadState)).map (·.kind) = [.xfer 0x300 0] := by decide +kernel

/-- The statement's read carries tag 1. -/
theorem readsAfter_loadClaimed : (readsAfter (.next (settle loadClaimed))).map (·.kind) = [.xfer 0x300 1] := by decide +kernel

/-- Refutes O15: XLD of one piece puts its read out under the tag of its transfer, and not under the one after it. -/
theorem not_scGeneratorsAndTransfers : ¬ Obligations.ScGeneratorsAndTransfers := by
  intro h
  obtain ⟨-, htransfers, -⟩ := h
  obtain ⟨hissues, hguard⟩ := loadInstr_issues
  obtain ⟨-, hload, -⟩ := htransfers Instr.scXld 0 List.mem_cons_self loadInstr loadState 0 loadCtx loadPieces none hissues hguard
    (by decide) (by decide) loadInstr_plan
  have hnext : exec (.scXld loadInstr) loadState = .next (settle loadClaimed) := hload (by decide) (by decide)
  have htags : [RdKind.xfer 0x300 0] = [RdKind.xfer 0x300 1] := by
    rw [← readsAfter_scXld, hnext, readsAfter_loadClaimed]
  exact absurd htags (by decide)

end Sys2Proof.Proofs.TransferTags
end

