-- ==== Sys2Proof/Proofs/CoreFlags.lean ====
section
/-! Instructions on flags at a Root core: FSIG, FRD, FXADD, FCAS and SPIN on an on-chip flag (R266, R267). -/

namespace Sys2Proof.Proofs.CoreFlags
open Sys2Proof Sys2Proof.Machine Sys2Proof.Laws Sys2Proof.Proofs.CoreIssue

/-- The handle in s[A] names the on-chip flag k, which the context may use (R266, R267). -/
structure OnChip (i : FR) (s : State) (c : Ctx) (spin : Bool) (k : Nat) : Prop where
  handle : k = sReg c i.a % 2 ^ 32
  space : k < 2 ^ 30
  ok : coreFlagOk (touchCode s c) i.core c k spin = true

section
variable {i : FR} {s : State} {slot k : Nat} {c : Ctx}

theorem OnChip.space_zero {spin : Bool} (hf : OnChip i s c spin k) : k / 2 ^ 30 = 0 := Nat.div_eq_of_lt hf.space

/-- An FSIG queues its operation under the core's own source (R160, R267). -/
theorem exec_scFsig (h : RootIssues i s slot c) (hf : OnChip i s c false k) :
    exec (.scFsig i) s = .next (settle (queueSigs (retired s i.core slot c { c with unapplied := c.unapplied + 1 })
      [{ src := i.core - 0x300 + 200, part := c.part, handle := k, op := nbits (sReg c i.a) 32 2
         x := sReg c i.b % 2 ^ 62, launch := c.launch, ctx := some slot }])) := by
  show execScFsig i s = _
  rw [execScFsig, issueR_ok h.issues h.guard rfl]
  simp only [← hf.handle, if_neg (not_not.mpr hf.ok), if_pos h.root]
  rfl

theorem exec_scFrd (h : RootIssues i s slot c) (hf : OnChip i s c false k) :
    exec (.scFrd i) s = .next (settle (retired s i.core slot c (setS c i.d (flagWord s k).toNat))) := by
  have hgo : ¬ (¬ coreFlagOk (touchCode s c) i.core c k false = true ∨
      (decide (k / 2 ^ 30 = 1) && !dflagOk (touchCode s c) c.part k) = true) := by
    rw [hf.ok, hf.space_zero]
    simp
  show execScFrd i s = _
  rw [execScFrd, issueR_ok h.issues h.guard rfl]
  simp only [← hf.handle, if_neg hgo, tryFrd, if_pos h.root, if_pos hf.space_zero, flagWord_touchCode]
  rfl

/-! Atomic operations. -/

/-- No earlier operation of a context on a flag waits to be applied (R267). -/
def FlagQuiet (s : State) (slot k : Nat) : Prop := ∀ g ∈ s.weir.sigq, g.ctx = some slot → g.handle ≠ k

theorem FlagQuiet.any (hq : FlagQuiet s slot k) :
    (touchCode s c).weir.sigq.any (fun g => g.ctx == some slot && g.handle == k) = false := by
  rw [touchCode_weir, List.any_eq_false]
  intro g hg hboth
  rw [Bool.and_eq_true, beq_iff_eq, beq_iff_eq] at hboth
  obtain ⟨hctx, hhandle⟩ := hboth
  exact hq g hg hctx hhandle

/-- The flag's word as it stood is answered, and the instruction retires. -/
def atomicAnswered (i : FR) (s : State) (slot k : Nat) (c : Ctx) : State :=
  retired s i.core slot c (setS c i.d (flagWord s k).toNat)

theorem atomicFlag_applied {f : Ctx → W64 → Option (W64 × Bool)} (h : RootIssues i s slot c) (hf : OnChip i s c false k)
    (hq : FlagQuiet s slot k) :
    atomicFlag i s f = .next (settle (match f c (flagWord s k) with
      | none => atomicAnswered i s slot k c
      | some (w, cl) => evalFlag
        (if cl then clampEvent (setFlag (atomicAnswered i s slot k c) k w)
            { src := i.core - 0x300 + 200, part := c.part, handle := k, op := 0, x := 0, launch := c.launch }
          else setFlag (atomicAnswered i s slot k c) k w) c.part k w)) := by
  have hgo : ¬ (k / 2 ^ 30 ≠ 0 ∨ ¬ coreFlagOk (touchCode s c) i.core c k false = true) := by
    rw [hf.ok, hf.space_zero]
    simp
  rw [atomicFlag, issueRoot_ok _ h rfl]
  simp only [← hf.handle, if_neg hgo, hq.any, Bool.false_eq_true, if_false, flagWord_touchCode]
  cases f c (flagWord s k) <;> rfl

theorem exec_scFxadd {w : W64} {cl : Bool} (h : RootIssues i s slot c) (hf : OnChip i s c false k) (hq : FlagQuiet s slot k)
    (hadd : sigResult (flagWord s k) 0 (sReg c i.b % 2 ^ 62) = (w, cl)) :
    exec (.scFxadd i) s = .next (settle (evalFlag
      (if cl then clampEvent (setFlag (atomicAnswered i s slot k c) k w)
          { src := i.core - 0x300 + 200, part := c.part, handle := k, op := 0, x := 0, launch := c.launch }
        else setFlag (atomicAnswered i s slot k c) k w) c.part k w)) := by
  show execScFxadd i s = _
  rw [execScFxadd, atomicFlag_applied h hf hq, hadd]

/-- FCAS leaves a flag whose value is not the one compared (R267). -/
theorem exec_scFcas_differs (h : RootIssues i s slot c) (hf : OnChip i s c false k) (hq : FlagQuiet s slot k)
    (hne : fld (flagWord s k) 0 62 ≠ sReg c i.d % 2 ^ 62) :
    exec (.scFcas i) s = .next (settle (atomicAnswered i s slot k c)) := by
  have hgo : ¬ (bitOf (flagWord s k) 63 = false ∧ fld (flagWord s k) 0 62 = sReg c i.d % 2 ^ 62) := not_and_of_not_right _ hne
  show execScFcas i s = _
  rw [execScFcas, atomicFlag_applied h hf hq, if_neg hgo]

/-- FCAS exchanges the value that compares, and keeps the saturation bit (R267). -/
theorem exec_scFcas_exchanges {w : W64} (h : RootIssues i s slot c) (hf : OnChip i s c false k) (hq : FlagQuiet s slot k)
    (hpoison : bitOf (flagWord s k) 63 = false) (heq : fld (flagWord s k) 0 62 = sReg c i.d % 2 ^ 62)
    (hw : w = BitVec.ofNat 64 (sReg c i.b % 2 ^ 62 + put (b2n (bitOf (flagWord s k) 62)) 62)) :
    exec (.scFcas i) s = .next (settle (evalFlag (setFlag (atomicAnswered i s slot k c) k w) c.part k w)) := by
  show execScFcas i s = _
  rw [execScFcas, atomicFlag_applied h hf hq, if_pos ⟨hpoison, heq⟩, ← hw]
  rfl

/-! SPIN. -/

/-- SPIN waits with the outcome that the flag's word gives at once (R266). -/
theorem exec_scSpin (h : RootIssues i s slot c) (hf : OnChip i s c true k) (hd : i.d < 8) (hcut : c.spinCut = false)
    (hcmp : nbits (sReg c i.a) 32 3 ≤ 5) (hres : nbits (sReg c i.a) 35 9 = 0) :
    exec (.scSpin i) s = .next (settle (setCtx (touchCode s c) i.core slot { c with
      stall := some (.spin i.d k (nbits (sReg c i.a) 32 3) (sReg c i.b % 2 ^ 62)
        (spinOut (flagWord s k) (nbits (sReg c i.a) 32 3) (sReg c i.b % 2 ^ 62))) })) := by
  have hgo : ¬ (¬ coreFlagOk (touchCode s c) i.core c k true = true ∨ 5 < nbits (sReg c i.a) 32 3 ∨ nbits (sReg c i.a) 35 9 ≠ 0) := by
    rw [hf.ok, hres]
    simpa using hcmp
  have hhere : ¬ (0x300 ≤ i.core ∧ k / 2 ^ 30 = 1 ∧ ¬ dflagOk (touchCode s c) c.part k = true) := by
    rw [hf.space_zero]
    simp
  show execScSpin i s = _
  rw [execScSpin, issueR_ok h.issues h.guard (decide_eq_true hd)]
  simp only [← hf.handle, if_neg hgo, if_neg hhere, hcut, Bool.false_eq_true, if_false, startSpin, if_pos h.root,
    if_pos hf.space_zero, flagWord_touchCode]

end

/-- A SPIN on an on-chip flag that was met sets its predicate; SC_SPIN holds the outcome and a free value (R266, log entry 3). -/
theorem exec_spinOutcome_met {s : State} {core slot d k cmp crest : Nat} {c : Ctx} (hlive : CoreLive s core = true)
    (hcore : coreOk core = true) (hroot : 0x300 ≤ core) (hrun : running s core = some (slot, c)) (hst : c.st = .running)
    (hstall : c.stall = some (.spin d k cmp crest (some 0))) (hk : k < 2 ^ 30) :
    exec (.spinOutcome core 0) s = .next (settle (retire { s with free := s.free + 1 } core slot
      { setPAll c d true with spin := 0, spinLeft := (Config.freeWord s.free).toNat % 2 ^ 20 })) := by
  have hspace : ¬ k / 2 ^ 30 = 1 := by rw [Nat.div_eq_of_lt hk]; decide
  show execSpinOutcome core 0 s = _
  simp only [execSpinOutcome, liveCore_next hlive, if_neg (not_not.mpr hcore), hrun, if_neg (not_not.mpr hst), hstall, or_true, if_true,
    spinEnd, spinLeave, Bool.false_eq_true, if_false, if_pos hroot, if_neg hspace, takeFree]
  rfl

/-- Settles O16: FSIG, FRD, the atomic operations by what they find, and SPIN with its outcome. -/
theorem scFlagsAndSpin : Obligations.ScFlagsAndSpin := by
  refine ⟨?_, ?_, fun core slot d k cmp crest s c => exec_spinOutcome_met⟩
  · intro i s slot k c hi hg hroot hk hspace hok
    have h : RootIssues i s slot c := ⟨hi, hg, hroot⟩
    have hf : OnChip i s c false k := ⟨hk, hspace, hok⟩
    refine ⟨exec_scFsig h hf, exec_scFrd h hf, fun hq =>
      ⟨?_, fun _ => exec_scFcas_differs h hf hq, fun w => exec_scFcas_exchanges h hf hq⟩⟩
    rintro w cl u hadd rfl
    exact exec_scFxadd h hf hq hadd
  · intro i s slot k c hi hg hroot hd hk hspace hok hcut hcmp hres
    exact exec_scSpin ⟨hi, hg, hroot⟩ ⟨hk, hspace, hok⟩ hd hcut hcmp hres

end Sys2Proof.Proofs.CoreFlags
end

