-- ==== Sys2Proof/Proofs/CoreCalls.lean ====
section
/-! Agent calls, HREL and the special registers of a context, and what a skipped instruction leaves (R246, R255, R265, R268, R273, R274,
R281). -/

namespace Sys2Proof.Proofs.CoreCalls
open Sys2Proof Sys2Proof.Machine Sys2Proof.Laws Sys2Proof.Proofs.CoreIssue

/-! ACALL. -/

/-- The operand of ACALL in s[A]: agent [5:0], entry [15:8], the rest 0; the agent is in service and has the entry (R268). -/
structure CallOperand (s : State) (x : Nat) : Prop where
  reserved : nbits x 6 2 = 0
  short : x < 2 ^ 16
  agent : x % 64 < s.par.numAgents
  included : agtExcluded s (x % 64) = false
  entry : nbits x 8 8 < bankEntries (activeBank (getAgent s (x % 64)).core)

section
variable {i : FR} {s : State} {slot k : Nat} {c : Ctx}

theorem exec_scAcall (h : RootIssues i s slot c) (hb : i.b < 16) (hx : CallOperand s (sReg c i.a)) :
    exec (.scAcall i) s = .next (settle (tryAcall (touchCode s c) i.core slot c (sReg c i.a % 64) (nbits (sReg c i.a) 8 8)
      (vReg c i.b))) := by
  have hshort : sReg c i.a / 2 ^ 16 = 0 := Nat.div_eq_of_lt hx.short
  have hgo : ¬ (nbits (sReg c i.a) 6 2 ≠ 0 ∨ sReg c i.a / 2 ^ 16 ≠ 0 ∨ (touchCode s c).par.numAgents ≤ sReg c i.a % 64 ∨
      agtExcluded (touchCode s c) (sReg c i.a % 64) = true ∨
      bankEntries (activeBank (getAgent (touchCode s c) (sReg c i.a % 64)).core) ≤ nbits (sReg c i.a) 8 8) := by
    rw [hx.reserved, hshort, touchCode_par, agtExcluded_touchCode, getAgent_touchCode, hx.included]
    have hagent := hx.agent
    have hentry := hx.entry
    simp only [ne_eq, not_true_eq_false, Bool.false_eq_true, false_or]
    omega
  show execScAcall i s = _
  rw [execScAcall, issueRoot_ok _ h (decide_eq_true hb)]
  simp only [if_neg hgo]

/-- Without a free save slot the context stalls (R265, R281). -/
theorem tryAcall_noSlot {core a entry : Nat} {arg : W512} (hk : freeSlot s = none) :
    tryAcall s core slot c a entry arg = setCtx s core slot { c with stall := some (.acall a entry arg) } := by
  simp only [tryAcall, hk]

/-- With one, and fewer than 8 tasks outstanding, TASK_START goes to the agent (R268). -/
theorem tryAcall_sends {core a entry : Nat} {arg : W512} (hk : freeSlot s = some k) (htasks : c.tasks.length < 8) :
    tryAcall s core slot c a entry arg = sendDown (retire (takeSlot s k) core slot { c with tasks := c.tasks ++ [(a, k)] }) a
      (.ctxXfer 1 k c.launch 0 (taskData (retire (takeSlot s k) core slot { c with tasks := c.tasks ++ [(a, k)] }) c a entry arg)) := by
  simp only [tryAcall, hk, if_neg (Nat.not_le.mpr htasks)]

end

/-! HREL. -/

section
variable {i : FR} {s : State} {slot k : Nat} {c : Ctx}

/-- The handle k in s[A] may name a buffer of the context's partition (R142, R255). -/
structure BufHandle (i : FR) (s : State) (c : Ctx) (k : Nat) : Prop where
  handle : k = sReg c i.a % 2 ^ 32
  form : bufHandleOk k = true
  inTable : hInTable (touchCode s c) c.part k = true

theorem BufHandle.accepted (hh : BufHandle i s c k) : ¬ (¬ bufHandleOk k = true ∨ ¬ hInTable (touchCode s c) c.part k = true) := by
  rw [hh.form, hh.inTable]
  simp

theorem exec_scHrel_hit {e : BitVec 128} (h : RootIssues i s slot c) (hh : BufHandle i s c k)
    (he : cacheLookup (touchCode s c) c.part k = some e) (hv : hValid e = true) (hk : hKind e < 7) :
    exec (.scHrel i) s = .next (settle (retire (hHit (touchCode s c) c.part k) i.core slot (setS c i.d (hrel e 0).toNat))) := by
  show execScHrel i s = _
  rw [execScHrel, issueRoot_ok _ h rfl]
  simp only [← hh.handle, if_neg hh.accepted, he, hrelDone, hv, hk, and_self, if_true]

theorem exec_scHrel_miss (h : RootIssues i s slot c) (hh : BufHandle i s c k) (he : cacheLookup (touchCode s c) c.part k = none) :
    exec (.scHrel i) s = .next (settle (setCtx (hMiss (touchCode s c) c.part k).2 i.core slot
      { c with stall := some (.hrel i.d (hMiss (touchCode s c) c.part k).1) })) := by
  show execScHrel i s = _
  rw [execScHrel, issueRoot_ok _ h rfl]
  simp only [← hh.handle, if_neg hh.accepted, he]

theorem getPart_cacheTouch (s : State) (p k n : Nat) : getPart (cacheTouch s p k) n = getPart s n := by
  rw [cacheTouch]
  split <;> rfl

theorem hits_hHit (s : State) (p k : Nat) : (getPart (hHit s p k) p).hits = satN 32 ((getPart s p).hits + 1) := by
  rw [hHit, getPart_modPart_self, getPart_cacheTouch]

end

/-! Special registers. -/

section
variable {i : FI} {s : State} {slot n : Nat} {c : Ctx}

/-- A number below 64 in IMM12 is the register's number, and leaves the reserved bits 0 (R246). -/
theorem csrNumber (hn : i.imm.toNat = n) (hlt : n < 64) : fld i.imm 0 6 = n ∧ decide (fld i.imm 6 6 = 0) = true := by
  have hhigh : n / 2 ^ 6 = 0 := Nat.div_eq_of_lt hlt
  constructor
  · rw [fld, nbits, hn, Nat.shiftRight_zero]
    exact Nat.mod_eq_of_lt hlt
  · rw [fld, nbits, hn, Nat.shiftRight_eq_div_pow, hhigh]
    rfl

theorem exec_scCsrr_own {v : Nat} (h : Issues s i.core slot c = true) (hg : guardOn c i.pg i.pn = true) (hn : i.imm.toNat = n)
    (hlt : n < 64) (h4 : n ≠ 4) (h5 : n ≠ 5) (hv : ∀ gen, csrOwn slot gen c n = some v) :
    exec (.scCsrr i) s = .next (settle (retired s i.core slot c (setS c i.d v))) := by
  obtain ⟨hnum, henc⟩ := csrNumber hn hlt
  show execScCsrr i s = _
  rw [execScCsrr, issueI_ok h hg henc]
  simp only [hnum, if_neg h4, if_neg h5, hv]
  rfl

/-- SC_TICK at a Root core is the tick of the block. -/
theorem exec_scCsrr_tick (h : Issues s i.core slot c = true) (hg : guardOn c i.pg i.pn = true) (hn : i.imm.toNat = 4)
    (hroot : 0x300 ≤ i.core) :
    exec (.scCsrr i) s = .next (settle (retired s i.core slot c (setS c i.d (s.sched.tickNo % 2 ^ 48)))) := by
  obtain ⟨hnum, henc⟩ := csrNumber hn (by decide)
  show execScCsrr i s = _
  rw [execScCsrr, issueI_ok h hg henc]
  simp only [hnum, if_true, coreTick, if_pos hroot, touchCode_sched]
  rfl

/-- SC_CYCLES is a word from outside (log entry 3). -/
theorem exec_scCsrr_cycles (h : Issues s i.core slot c = true) (hg : guardOn c i.pg i.pn = true) (hn : i.imm.toNat = 5) :
    exec (.scCsrr i) s = .next (settle (retire { touchCode s c with free := s.free + 1 } i.core slot
      (setS c i.d (Config.freeWord s.free).toNat))) := by
  obtain ⟨hnum, henc⟩ := csrNumber hn (by decide)
  have h4 : ¬ (5 : Nat) = 4 := by decide
  show execScCsrr i s = _
  rw [execScCsrr, issueI_ok h hg henc]
  simp only [hnum, if_neg h4, if_true, takeFree, touchCode_free]

theorem exec_scCsrw_fflags (h : Issues s i.core slot c = true) (hg : guardOn c i.pg i.pn = true) (hn : i.imm.toNat = 6) :
    exec (.scCsrw i) s = .next (settle (retired s i.core slot c { c with fflags := sReg c i.a % 16 })) := by
  obtain ⟨hnum, henc⟩ := csrNumber hn (by decide)
  show execScCsrw i s = _
  rw [execScCsrw, issueI_ok h hg henc]
  simp only [hnum, if_true]
  rfl

theorem exec_scCsrw_tfmt (h : Issues s i.core slot c = true) (hg : guardOn c i.pg i.pn = true) (hn : i.imm.toNat = 7) :
    exec (.scCsrw i) s = .next (settle (retired s i.core slot c { c with tfmt := sReg c i.a % 2 ^ 21 })) := by
  obtain ⟨hnum, henc⟩ := csrNumber hn (by decide)
  have h6 : ¬ (7 : Nat) = 6 := by decide
  show execScCsrw i s = _
  rw [execScCsrw, issueI_ok h hg henc]
  simp only [hnum, if_neg h6, if_true]
  rfl

theorem exec_scCsrw_scratch (h : Issues s i.core slot c = true) (hg : guardOn c i.pg i.pn = true) (hn : i.imm.toNat = n)
    (hlo : 0x10 ≤ n) (hhi : n ≤ 0x17) :
    exec (.scCsrw i) s = .next (settle (retired s i.core slot c
      { c with scratch := tput 0 c.scratch n (BitVec.ofNat 64 (sReg c i.a)) })) := by
  obtain ⟨hnum, henc⟩ := csrNumber hn (by omega)
  have h6 : n ≠ 6 := by omega
  have h7 : n ≠ 7 := by omega
  show execScCsrw i s = _
  rw [execScCsrw, issueI_ok h hg henc]
  simp only [hnum, if_neg h6, if_neg h7, if_pos (And.intro hlo hhi)]
  rfl

/-- Every other number is skipped with cause CSR (R246). -/
theorem exec_scCsrw_other (h : Issues s i.core slot c = true) (hg : guardOn c i.pg i.pn = true) (hn : i.imm.toNat = n)
    (hother : n < 6 ∨ 8 ≤ n ∧ n ≤ 0xF ∨ 0x18 ≤ n ∧ n < 0x40) :
    exec (.scCsrw i) s = .next (settle (skipAt (touchCode s c) i.core slot scCsr)) := by
  obtain ⟨hnum, henc⟩ := csrNumber hn (by omega)
  have h6 : n ≠ 6 := by omega
  have h7 : n ≠ 7 := by omega
  have hscratch : ¬ (0x10 ≤ n ∧ n ≤ 0x17) := by omega
  show execScCsrw i s = _
  rw [execScCsrw, issueI_ok h hg henc]
  simp only [hnum, if_neg h6, if_neg h7, if_neg hscratch]

end

/-! Skipped instructions. -/

section
variable {s : State} {core slot : Nat} {c : Ctx}

theorem getCtx_modCtx_self {f : Ctx → Ctx} (h : getCtx? s core slot = some c) :
    getCtx? (modCtx s core slot f) core slot = some (f c) := by
  rw [modCtx, h]
  exact getCtx_setCtx_self

/-- Contexts are as before where the tables of contexts are: those of the Root, and those of the agents' tasks. -/
theorem getCtx_same {u : State} (hroot : u.ctxs = s.ctxs) (htasks : ∀ a, (getAgent u a).tasks = (getAgent s a).tasks) (k : Nat) :
    getCtx? u core k = getCtx? s core k := by
  rw [getCtx?, getCtx?, hroot, htasks]

theorem getCtx_raiseOn (code : Nat) (p a : Option Nat) (l : List (Item × Nat)) (k : Nat) :
    getCtx? (raiseOn s code p a l) core k = getCtx? s core k := by
  obtain ⟨e, g, w, h⟩ := raiseOn_shape s code p a l
  rw [h]
  rfl

theorem getCtx_modLaunch (id : Nat) (f : Launch → Launch) (k : Nat) : getCtx? (modLaunch s id f) core k = getCtx? s core k := by
  rw [modLaunch]
  split <;> rfl

theorem tasks_modAgent_core (a b : Nat) (f : Core → Core) :
    (getAgent (modAgent s a fun x => { x with core := f x.core }) b).tasks = (getAgent s b).tasks := by
  by_cases hab : a = b
  · subst hab
    rw [getAgent_modAgent_self]
  · rw [getAgent_modAgent_ne hab]

theorem getCtx_modCore (k n : Nat) (f : Core → Core) : getCtx? (modCore s k f) core n = getCtx? s core n := by
  rw [modCore]
  split
  · rfl
  · refine getCtx_same ?_ (fun b => ?_) n
    · rfl
    · exact tasks_modAgent_core _ b f

/-- A skip records its cause and PC in the context and counts (R273). -/
theorem getCtx_noteSkip (cause pc : Nat) (h : getCtx? s core slot = some c) :
    getCtx? (noteSkip s core slot cause pc) core slot = some { c with
      cause := cause, causePc := pc, skips := satN 32 (c.skips + 1)
      firstSkip := if c.firstSkip = 0 then cause else c.firstSkip } := by
  simp only [noteSkip, h]
  refine getCtx_modCtx_self ?_
  split
  · rw [getCtx_modCore, getCtx_raiseOn, h]
  · rw [getCtx_modLaunch, getCtx_modCore, getCtx_raiseOn, h]

theorem getCtx_skipAt (cause : Nat) (h : getCtx? s core slot = some c) :
    getCtx? (skipAt s core slot cause) core slot = some { c with
      pc := (c.pc + 4) % 2 ^ 32, stall := none, spinCut := false, cause := cause, causePc := c.pc, skips := satN 32 (c.skips + 1)
      firstSkip := if c.firstSkip = 0 then cause else c.firstSkip } := by
  have hpc : (getCtx s core slot).pc = c.pc := by rw [getCtx, h]; rfl
  rw [skipAt, hpc]
  exact getCtx_modCtx_self (getCtx_noteSkip cause c.pc h)

end

/-- Settles O17: ACALL by the save slots, HREL by the handle cache, each special register, and the context after a skip. -/
theorem scCallsCsrsSkips : Obligations.ScCallsCsrsSkips := by
  refine ⟨⟨?_, ?_, ?_⟩, ?_, fun s core slot cause c h => ⟨_, getCtx_skipAt cause h, rfl⟩⟩
  · intro i s slot k c hi hg hroot hb hres hshort hagent hin hentry
    rw [exec_scAcall ⟨hi, hg, hroot⟩ hb ⟨hres, hshort, hagent, hin, hentry⟩]
    refine ⟨fun hk => ?_, fun hk htasks => ?_⟩
    · rw [tryAcall_noSlot (freeSlot_touchCode.trans hk)]
    · rw [tryAcall_sends (freeSlot_touchCode.trans hk) htasks]
  · intro i s slot c e hi hg hroot hform hin he hv hk
    refine ⟨exec_scHrel_hit ⟨hi, hg, hroot⟩ ⟨rfl, hform, hin⟩ he hv hk, ?_⟩
    rw [hits_hHit, getPart_touchCode]
  · intro i s slot k c hi hg hroot hk hform hin he
    exact exec_scHrel_miss ⟨hi, hg, hroot⟩ ⟨hk, hform, hin⟩ he
  · intro i s slot n c h hg hn
    refine ⟨?_, ?_, ?_, ?_, ?_, ?_, fun hlo hhi => ⟨?_, exec_scCsrw_scratch h hg hn hlo hhi⟩, exec_scCsrw_other h hg hn⟩
    · rintro rfl
      exact exec_scCsrr_own h hg hn (by decide) (by decide) (by decide) fun _ => rfl
    · rintro rfl hroot
      exact exec_scCsrr_tick h hg hn hroot
    · rintro rfl
      exact exec_scCsrr_cycles h hg hn
    · rintro rfl
      exact ⟨exec_scCsrr_own h hg hn (by decide) (by decide) (by decide) fun _ => rfl, exec_scCsrw_fflags h hg hn⟩
    · rintro rfl
      exact ⟨exec_scCsrr_own h hg hn (by decide) (by decide) (by decide) fun _ => rfl, exec_scCsrw_tfmt h hg hn⟩
    · rintro rfl
      exact exec_scCsrr_own h hg hn (by decide) (by decide) (by decide) fun _ => rfl
    · exact exec_scCsrr_own h hg hn (by omega) (by omega) (by omega) fun _ => if_pos ⟨hlo, hhi⟩

end Sys2Proof.Proofs.CoreCalls
end

