-- ==== Sys2Proof/Proofs/AgentTasks.lean ====
section
/-! Stalled instructions that go on, and the messages of agent tasks (R53, R265, R268, R269, R519). -/

namespace Sys2Proof.Proofs.AgentTasks
open Sys2Proof Sys2Proof.Machine Sys2Proof.Laws
open Sys2Proof.Proofs.ScalarResults (jump_free)

/-! Stalls. -/

/-- A core that lives runs a context whose instruction is stalled (R265). -/
structure Stalled (s : State) (core slot : Nat) (c : Ctx) (w : Stall) : Prop where
  live : CoreLive s core = true
  inRange : coreOk core = true
  run : running s core = some (slot, c)
  st : c.st = .running
  stall : c.stall = some w

section
variable {s t : State} {core slot d n l : Nat} {c : Ctx} {w : Stall}

theorem Stalled.released (h : Stalled s core slot c w) (ht : stallTry s core = t) :
    exec (.stallRelease core) s = .next (settle t) := by
  show execStallRelease core s = _
  rw [execStallRelease, liveCore_next h.live, if_pos h.inRange, ht]

theorem stallTry_xwait (h : Stalled s core slot c .xwait) (hx : c.xfers = []) : stallTry s core = retire s core slot c := by
  simp only [stallTry, h.run, if_neg (not_not.mpr h.st), h.stall, hx, List.isEmpty_nil, if_true]

theorem stallTry_await (h : Stalled s core slot c .await) (ht : c.tasks = []) : stallTry s core = retire s core slot c := by
  simp only [stallTry, h.run, if_neg (not_not.mpr h.st), h.stall, ht, List.isEmpty_nil, if_true]

theorem stallTry_fence (h : Stalled s core slot c .fence) (hu : c.unapplied = 0) (hx : c.xfers = []) :
    stallTry s core = retire s core slot c := by
  simp only [stallTry, h.run, if_neg (not_not.mpr h.st), h.stall, hu, hx, List.isEmpty_nil, and_self, if_true]

theorem stallTry_qdrain (h : Stalled s core slot c (.qdrain d)) (hp : c.pend = 0) :
    stallTry s core = retire s core slot (setPAll c d (!c.pushBad)) := by
  simp only [stallTry, h.run, if_neg (not_not.mpr h.st), h.stall, tryDrain, if_pos hp]

theorem stallTry_branch (h : Stalled s core slot c (.branch n l)) (hheld : branchHeld s core n = false) :
    stallTry s core = setCtx s core slot { setS c l (c.pc + 4) with pc := n % 2 ^ 32, stall := none } := by
  simp only [stallTry, h.run, if_neg (not_not.mpr h.st), h.stall, hheld, Bool.false_eq_true, if_false, jump_free hheld]

end

/-! A task starts. -/

section
variable {s : State} {a slot launch off : Nat} {data : List Byte} {c : Ctx}

/-- The task stands in its slot, last among the agent's arrivals (R269). -/
def taskArrived (s : State) (a slot : Nat) (c : Ctx) : State :=
  modAgent (takeDown s a) a fun g => { g with tasks := kput g.tasks slot c, arrivals := without g.arrivals slot ++ [slot] }

theorem exec_taskStart (h : AgLive s a = true) (hhead : downHead s a = some (.ctxXfer 1 slot launch off data))
    (hc : c = taskCtx (takeDown s a) a slot launch (bytesToNat data)) :
    exec (.taskStart a) s = .next (settle (agentNext
      (if c.be then taskArrived s a slot c else agentSave (taskArrived s a slot c) a) a)) := by
  show execTaskStart a s = _
  simp only [execTaskStart, liveAgent_next h, hhead, ← hc]
  rfl

/-- Class BE is what a TASK_START carries in byte 65 (R53). -/
theorem taskCtx_be {x : Nat} : (taskCtx s a slot launch x).be = decide (nbits x (8 * 65) 8 ≠ 0) := rfl

theorem kget_taskArrived : kget (getAgent (taskArrived s a slot c) a).tasks slot = some c := by
  rw [taskArrived, getAgent_modAgent_self]
  exact kget_kput_self

theorem arrivals_taskArrived :
    (getAgent (taskArrived s a slot c) a).arrivals = without (getAgent s a).arrivals slot ++ [slot] := by
  rw [taskArrived, getAgent_modAgent_self]
  rfl

/-! Pieces of slot images. -/

/-- Bytes of the pieces of a slot image. -/
def pieceBytes (ps : List (Nat × List Byte)) : Nat := sumBy (fun (p : Nat × List Byte) => p.2.length) ps

/-- A piece of a save image is written to its place in the slot, and kept until the last is there (R53). -/
def pieceSaved (s : State) (a slot off : Nat) (data : List Byte) (ps : List (Nat × List Byte)) : State :=
  { (mgrWrite (takeUp s a) Config.fnManager (slotAddr s slot + off) data.length (bytesToNat data) (.save slot)).2 with
    save := { s.save with pieces := kput s.save.pieces slot ps } }

theorem exec_saveData {ps : List (Nat × List Byte)} (h : Live s = true)
    (hhead : upHead s a = some (.ctxXfer 2 slot launch off data))
    (htask : s.ctxs.any (fun y => y.2.tasks.contains (a, slot)) = true)
    (hps : ps = tget [] s.save.pieces slot ++ [(off, data)]) :
    exec (.saveData a) s = .next (settle (
      if pieceBytes ps < 22528 then pieceSaved s a slot off data ps
      else taskRestore { pieceSaved s a slot off data ps with
        save := { (pieceSaved s a slot off data ps).save with
          saved := (pieceSaved s a slot off data ps).save.saved ++ [(slot, a, launch)] } } a)) := by
  have hgo : ¬ ¬ (takeUp s a).ctxs.any (fun y => y.2.tasks.contains (a, slot)) = true := not_not.mpr htask
  subst hps
  show execSaveData a s = _
  simp only [execSaveData, liveRoot_next h, hhead, if_neg hgo]
  rfl

/-- The slot image that the pieces make (R53). -/
def pieceImage (ps : List (Nat × List Byte)) : Nat :=
  ps.foldl (fun n (p : Nat × List Byte) => n + put (bytesToNat p.2) (8 * p.1)) 0

/-- The agent has taken all the pieces of an image. -/
def piecesTaken (s : State) (a : Nat) : State := modAgent (takeDown s a) a fun g => { g with pieces := [] }

/-- The restored slice of a task in the agent's data memory (R271). -/
def sliceRestored (u : State) (a slot i img : Nat) (c : Ctx) : State :=
  modCore (takeSlices u (0x200 + a) slot [i]) (0x200 + a)
    fun k => dmPut k { c with slices := [i] } 0 (nbits img (8 * 0x2000) (8 * 16384)) 16384

theorem exec_restoreData_piece {ps : List (Nat × List Byte)} (h : AgLive s a = true)
    (hhead : downHead s a = some (.ctxXfer 3 slot launch off data)) (hps : ps = (getAgent s a).pieces ++ [(off, data)])
    (hmore : pieceBytes ps < 22528) :
    exec (.restoreData a) s = .next (settle (modAgent (takeDown s a) a fun g => { g with pieces := ps })) := by
  subst hps
  have hgo : sumBy (fun (p : Nat × List Byte) => p.2.length) ((getAgent (takeDown s a) a).pieces ++ [(off, data)]) < 22528 := hmore
  show execRestoreData a s = _
  simp only [execRestoreData, liveAgent_next h, hhead, if_pos hgo]
  rfl

theorem exec_restoreData_last {ps : List (Nat × List Byte)} {i : Nat} {rest : List Nat} (h : AgLive s a = true)
    (hhead : downHead s a = some (.ctxXfer 3 slot launch off data)) (hps : ps = (getAgent s a).pieces ++ [(off, data)])
    (hall : 22528 ≤ pieceBytes ps) (hc : kget (getAgent (piecesTaken s a) a).tasks slot = some c)
    (hfree : freeSlicesOf (piecesTaken s a) (0x200 + a) = i :: rest) :
    exec (.restoreData a) s = .next (settle (agentNext
      (setCtx (sliceRestored (piecesTaken s a) a slot i (pieceImage ps) c) (0x200 + a) slot
        { slotLoad (pieceImage ps) (getCore (sliceRestored (piecesTaken s a) a slot i (pieceImage ps) c) (0x200 + a))
            { c with slices := [i] } with st := .held, ready := true }) a)) := by
  subst hps
  have hgo : ¬ sumBy (fun (p : Nat × List Byte) => p.2.length) ((getAgent (takeDown s a) a).pieces ++ [(off, data)]) < 22528 :=
    Nat.not_lt.mpr hall
  rw [piecesTaken] at hc hfree
  show execRestoreData a s = _
  simp only [execRestoreData, liveAgent_next h, hhead, if_neg hgo, hc, hfree]
  rfl

end

/-! A task ends. -/

section
variable {s : State} {a slot launch off k : Nat} {data : List Byte} {c : Ctx}

/-- The task is off its caller's outstanding tasks, its slot free, its flags with the partition's (R269, R356). -/
def taskEnded (s : State) (a slot k flags : Nat) (c : Ctx) : State :=
  modAgent (scSticky { setCtx (takeUp s a) 0x300 k { c with tasks := c.tasks.filter (fun t => t != (a, slot)) } with
      save := { s.save with used := without s.save.used slot } } c.part flags) a
    fun g => { g with pushSkips := without g.pushSkips slot }

/-- A task that had no instruction skipped ends; one that had a push skipped fails its node (R262, R269, log entry 54). -/
theorem exec_taskEnd (h : Live s = true) (hhead : upHead s a = some (.ctxXfer 4 slot launch off data))
    (hcause : nbits (bytesToNat data) 32 8 = 0) (hfind : s.ctxs.find? (fun y => y.2.tasks.contains (a, slot)) = some (k, c)) :
    exec (.taskEnd a) s = .next (settle (graphSettle (taskRestore
      (if (getAgent s a).pushSkips.contains slot then
          failNode (taskEnded s a slot k (nbits (bytesToNat data) 40 4) c) c.launch c.node eScIllegal false
        else taskEnded s a slot k (nbits (bytesToNat data) 40 4) c) a) c.launch)) := by
  have hfind' : (takeUp s a).ctxs.find? (fun y => y.2.tasks.contains (a, slot)) = some (k, c) := hfind
  show execTaskEnd a s = _
  simp only [execTaskEnd, liveRoot_next h, hhead, hfind', hcause, if_true]
  rfl

/-! The report of a SPIN. -/

theorem exec_waitReport_poison (h : Live s = true) (hhead : upHead s a = some (.ctxXfer 5 slot launch off data))
    (hout : nbits (bytesToNat data) 32 8 = 1) :
    exec (.waitReport a) s = .next (settle (wstatSet (takeUp s a) (launchPart s launch) 1)) := by
  have hpoison : ¬ (1 : Nat) = 2 := by decide
  show execWaitReport a s = _
  simp only [execWaitReport, liveRoot_next h, hhead, hout, if_neg hpoison]
  rfl

theorem exec_waitReport_timeout {p n : Nat} {u : State} (h : Live s = true)
    (hhead : upHead s a = some (.ctxXfer 5 slot launch off data)) (hp : p = launchPart s launch)
    (hn : n = nbits (bytesToNat data) 0 32) (hout : nbits (bytesToNat data) 32 8 = 2)
    (hu : u = raiseOn (takeUp s a) eWaitTimeout (some p) (some a) [(.launch, launch), (.handle, n)]) :
    exec (.waitReport a) s = .next (settle (modWeir
      (wstatSet (werr u p eWaitTimeout launch n (flagAddr u p n 0) 0xC (0x200 + a) 0 0) p 0)
      fun w => { w with tmos := satN 32 (w.tmos + 1) })) := by
  subst hu hp hn
  show execWaitReport a s = _
  simp only [execWaitReport, liveRoot_next h, hhead, hout, if_true]
  rfl

end

/-- Settles O19: the stalls that end, and each message of a task by what it carries. -/
theorem coreStallsAndTasks : Obligations.CoreStallsAndTasks := by
  refine ⟨?_, ?_, ?_, ?_, ?_, ?_⟩
  · intro s core slot c hlive hcore hrun hst
    have hw : ∀ {w}, c.stall = some w → Stalled s core slot c w := fun hw => ⟨hlive, hcore, hrun, hst, hw⟩
    exact ⟨fun hs hx => (hw hs).released (stallTry_xwait (hw hs) hx), fun hs ht => (hw hs).released (stallTry_await (hw hs) ht),
      fun hs hu hx => (hw hs).released (stallTry_fence (hw hs) hu hx), fun d hs hp => (hw hs).released (stallTry_qdrain (hw hs) hp),
      fun t l hs hheld => (hw hs).released (stallTry_branch (hw hs) hheld)⟩
  · rintro s t a slot launch off data c h hhead hc rfl
    have hx := exec_taskStart h hhead hc
    have hbe : c.be = decide (nbits (bytesToNat data) (8 * 65) 8 ≠ 0) := by rw [hc, taskCtx_be]
    refine ⟨fun hclass => ?_, fun hclass => ?_, kget_taskArrived, arrivals_taskArrived⟩
    · rwa [hbe, decide_eq_true hclass, if_pos rfl] at hx
    · rwa [hbe, decide_eq_false (not_not.mpr hclass), if_neg Bool.false_ne_true] at hx
  · rintro s t a slot launch off data ps h hhead htask hps rfl
    have hx := exec_saveData h hhead htask hps
    refine ⟨fun (hmore : pieceBytes ps < 22528) => ?_, fun (hall : 22528 ≤ pieceBytes ps) => ?_⟩
    · rw [if_pos hmore] at hx
      exact hx
    · rw [if_neg (Nat.not_lt.mpr hall)] at hx
      exact hx
  · rintro s u a slot launch off data ps h hhead hps rfl
    refine ⟨exec_restoreData_piece h hhead hps, ?_⟩
    rintro c i rest img hall hc hfree rfl v rfl
    exact exec_restoreData_last h hhead hps hall hc hfree
  · rintro s t a slot launch off k data c h hhead hcause hfind rfl
    have hx := exec_taskEnd h hhead hcause hfind
    refine ⟨fun hskip => ?_, fun hskip => ?_⟩
    · rwa [hskip, if_neg Bool.false_ne_true] at hx
    · rwa [hskip, if_pos rfl] at hx
  · rintro s a slot launch off p n data h hhead hp hn
    refine ⟨fun hout => ?_, fun u hout hu => exec_waitReport_timeout h hhead hp hn hout hu⟩
    rw [hp, exec_waitReport_poison h hhead hout]

end Sys2Proof.Proofs.AgentTasks
end

