-- ==== Sys2Proof/Proofs/AdminService.lean ====
section
/-! Service commands of the manager's admin queue: mode changes, drains, re-admissions and loads of instruction memory (R277, R486,
R490–R492). -/

namespace Sys2Proof.Proofs.AdminService
open Sys2Proof Sys2Proof.Machine Sys2Proof.Laws Sys2Proof.Proofs.AdminRows

/-! A command that enters flight leaves service life, agents and cores as they are. -/

section
variable (s : State) (q : Nat) (pkt : W512) (k : Nat)

@[simp] theorem svc_flown : (Flown s q pkt).svc = s.svc := rfl
@[simp] theorem par_flown : (Flown s q pkt).par = s.par := rfl
@[simp] theorem glb_flown : (Flown s q pkt).glb = s.glb := rfl
@[simp] theorem agtUp_flown : agtUp (Flown s q pkt) k = agtUp s k := rfl
@[simp] theorem getCore_flown : getCore (Flown s q pkt) k = getCore s k := rfl

end

section
variable {s : State} {op q : Nat} {pkt : W512}

/-- The executor's turn on a command that carries an image. -/
theorem admImage_next {image : List Byte} {t : State} (h : AdmTurn s op q pkt = true)
    (ht : admCheck q pkt = none → pktOp pkt = op → admPerform (Flown s q pkt) q pkt image = t) :
    liveRoot s (fun s => admDirect s op q pkt image) = .next (settle t) := by
  obtain ⟨-, -, -, -, ho, hc⟩ := admTurn_parts h
  rw [admDirect_next h, ht hc ho]

theorem admTakes_unfrozen (h : AdmTakes s op q pkt = true) : s.glb.frozen = false := by
  obtain ⟨-, hf, -, -⟩ := admTakes_parts h
  exact hf

end

/-! Mode changes. -/

/-- The items of a MODE_STAGE (R484). -/
def stageItems (pkt : W512) : List (BitVec 128) := (upTo (pktB pkt 14 1)).map (itemAt pkt)

section
variable {s : State} {pkt : W512}

theorem exec_modeStage (h : AdmTakes s 0x50 0x40 pkt = true) (hb : stageBad (Flown s 0x40 pkt) pkt = none)
    (hbusy : mcBusy (Flown s 0x40 pkt) = false) (hdrain : s.svc.draining = []) (hmode : s.svc.mode ≠ 0)
    (hup : (stageItems pkt).all (fun i => (itemNames i).all fun b => agtUp s b) = true) :
    exec (.modeStage 0x40 pkt) s = .next (settle (stageMode (admOk (Flown s 0x40 pkt) 0x40 pkt 0xFF 0) pkt)) :=
  admRow_next (admTakes_turn h) fun hc ho => by
    simp only [admPerform, hc, ho, opModeStage, glb_flown, admTakes_unfrozen h, hb, hbusy, svc_flown, hdrain, hmode, agtUp_flown,
      List.isEmpty_nil, not_true_eq_false, Bool.false_eq_true, false_and, false_or, if_false]
    refine if_neg fun hany => ?_
    obtain ⟨i, hi, hdown⟩ := List.any_eq_true.mp hany
    have hnamed := List.all_eq_true.mp hup i hi
    split at hdown
    · rename_i b hname
      rw [hname] at hnamed
      simp only [Option.all_some] at hnamed
      simp [hnamed] at hdown
    · exact Bool.false_ne_true hdown

theorem exec_modeAbort (h : AdmTakes s 0x51 0x40 pkt = true) (hb : badField pkt [] [] = none) (hstate : s.svc.mc.state = 1)
    (hnumber : s.svc.mc.number = pktObj pkt) :
    exec (.modeAbort 0x40 pkt) s = .next (settle (mcAbort (admOk (Flown s 0x40 pkt) 0x40 pkt 0xFF 0) 4 0 0)) :=
  admRow_next (admTakes_turn h) fun hc ho => by
    simp only [admPerform, hc, ho, opModeAbort, hb, svc_flown, glb_flown, hstate, hnumber, admTakes_unfrozen h, Bool.false_eq_true,
      not_false_eq_true, and_self, if_true]

end

/-! Agents that leave and re-enter service. -/

section
variable {s : State} {pkt : W512}

/-- The drain of an agent is noted with the command that waits for it (R491). -/
def drainNoted (s : State) (pkt : W512) : State :=
  modSvc (Flown s 0x40 pkt) fun v => { v with draining := kput v.draining (pktObj pkt) { q := 0x40, tag := pktTag pkt } }

theorem exec_agentDrain (h : AdmTakes s 0x52 0x40 pkt = true) (hb : badField pkt [] [(decide (64 ≤ pktObj pkt), 4)] = none)
    (hmode : s.svc.mode ≠ 0) (hroot : pktObj pkt ≠ 0) (hup : agtUp s (pktObj pkt) = true)
    (hdrain : kget s.svc.draining (pktObj pkt) = none) (hbusy : mcBusy (Flown s 0x40 pkt) = false) :
    exec (.agentDrain 0x40 pkt) s = .next (settle (audit (drainNoted s pkt) (admOrigin 0x40) 0x40 0x0A 1 (pktObj pkt) 0)) :=
  admRow_next (admTakes_turn h) fun hc ho => by
    simp only [admPerform, hc, ho, opAgentDrain, hb, glb_flown, svc_flown, agtUp_flown, admTakes_unfrozen h, hmode, hroot, hup, hdrain,
      hbusy, Option.isSome_none, Bool.false_eq_true, not_true_eq_false, or_self, if_false]
    rfl

/-- AGENT_RESET has been sent and the command kept with its image, or without one (R492). -/
def readmitSent (s : State) (pkt : W512) (image : List Byte) : State :=
  modSvc (sendDown (Flown s 0x40 pkt) (pktObj pkt) (.agentReset 5)) fun v => { v with
    readmit := kput v.readmit (pktObj pkt) { q := 0x40, tag := pktTag pkt }
    readmitImage := if pktB pkt 16 4 = 0 then kdel v.readmitImage (pktObj pkt)
      else kput v.readmitImage (pktObj pkt) (image.take (pktB pkt 16 4)) }

/-- The ranges of the fields of AGENT_READMIT (R492). -/
def readmitRanges (pkt : W512) : List (Bool × Nat) :=
  [(decide (64 ≤ pktObj pkt), 4), (decide (pktB pkt 8 8 % 64 ≠ 0), 8), (decide (pktB pkt 16 4 ≠ 0) &&
    (decide (pktB pkt 16 4 < 64) || decide (131072 < pktB pkt 16 4) || decide (pktB pkt 16 4 % 64 ≠ 0)), 16)]

theorem exec_agentReadmit {image : List Byte} (h : AdmTakes s 0x53 0x40 pkt = true)
    (hb : badField pkt [(64, 64), (128, 32)] (readmitRanges pkt) = none) (hmode : s.svc.mode ≠ 0)
    (hagent : pktObj pkt < s.par.numAgents) (hup : agtUp s (pktObj pkt) = false)
    (hdrain : kget s.svc.draining (pktObj pkt) = none) (hbusy : mcBusy (Flown s 0x40 pkt) = false) :
    exec (.agentReadmit 0x40 pkt image) s = .next (settle (modGlb (readmitSent s pkt image)
      fun g => { g with bring := kput g.bring (pktObj pkt) { step := 1, readmit := true } })) :=
  admImage_next (admTakes_turn h) fun hc ho => by
    rw [readmitRanges] at hb
    simp only [admPerform, hc, ho, opAgentReadmit, hb, glb_flown, svc_flown, par_flown, agtUp_flown, admTakes_unfrozen h, hmode,
      Nat.not_le.mpr hagent, hup, hdrain, hbusy, Option.isSome_none, Bool.false_eq_true, or_self, if_false]
    rfl

end

/-! Instruction memory. -/

section
variable {s : State} {pkt : W512} {image : List Byte}

/-- The ranges of the fields of IMEM_LOAD (R277). -/
def imemRanges (pkt : W512) : List (Bool × Nat) :=
  [(decide (¬ ((0x300 ≤ pktObj pkt ∧ pktObj pkt ≤ 0x307) ∨ (0x200 ≤ pktObj pkt ∧ pktObj pkt < 0x240))), 4),
    (decide (pktB pkt 8 8 % 64 ≠ 0), 8),
    (decide (pktB pkt 16 4 < 64) || decide (131072 < pktB pkt 16 4) || decide (pktB pkt 16 4 % 64 ≠ 0), 16)]

/-- An IMEM_LOAD whose fields and image are sound, for a core without a staged switch (R276, R277). -/
structure ImemSound (s : State) (pkt : W512) (image : List Byte) : Prop where
  takes : AdmTakes s 0x54 0x40 pkt = true
  fields : badField pkt [(64, 64), (128, 32)] (imemRanges pkt) = none
  image : imgBad image (coreKind (pktObj pkt)) (pktB pkt 16 4) = none
  unstaged : (getCore s (pktObj pkt)).staged = false

/-- The words of the image that a command carries. -/
def imageWords (pkt : W512) (image : List Byte) : Tbl W32 := imgWords 0 (image.take (pktB pkt 16 4))

/-- The inactive bank of a Root core holds the image (R277, log entry 30). -/
def bankLoaded (s : State) (pkt : W512) (image : List Byte) : State :=
  modCore (Flown s 0x40 pkt) (pktObj pkt) fun k => setInactive k (imageWords pkt image)

theorem exec_imemLoad_root (h : ImemSound s pkt image) (hroot : 0x300 ≤ pktObj pkt) :
    exec (.imemLoad 0x40 pkt image) s = .next (settle (admOk (bankLoaded s pkt image) 0x40 pkt 0xFF
      (bankCompat (imageWords pkt image) + put (bankVersion (imageWords pkt image)) 16 +
        put (b2n (!(getCore s (pktObj pkt)).bankB)) 32))) :=
  admImage_next (admTakes_turn h.takes) fun hc ho => by
    have hfields := h.fields
    rw [imemRanges] at hfields
    simp only [admPerform, hc, ho, opImemLoad, hfields, glb_flown, agtUp_flown, getCore_flown, admTakes_unfrozen h.takes,
      Nat.not_lt.mpr hroot, h.image, h.unstaged, Bool.false_eq_true, false_and, or_self, if_false]
    rfl

/-- An agent's bank is written by messages (R277). -/
theorem exec_imemLoad_agent (h : ImemSound s pkt image) (hagent : pktObj pkt < 0x300) (hup : agtUp s (pktObj pkt - 0x200) = true) :
    exec (.imemLoad 0x40 pkt image) s = .next (settle (imemSend
      (modSvc (Flown s 0x40 pkt) fun v => { v with imem := kput v.imem (pktObj pkt - 0x200) {
        q := 0x40, tag := pktTag pkt, bankB := !(getCore s (pktObj pkt)).bankB, image := image.take (pktB pkt 16 4) } })
      (pktObj pkt - 0x200))) :=
  admImage_next (admTakes_turn h.takes) fun hc ho => by
    have hfields := h.fields
    rw [imemRanges] at hfields
    simp only [admPerform, hc, ho, opImemLoad, hfields, glb_flown, agtUp_flown, getCore_flown, admTakes_unfrozen h.takes,
      hagent, hup, h.image, h.unstaged, Bool.false_eq_true, not_true_eq_false, and_false, or_self, if_false, if_true]

theorem inactiveBank_setInactive (k : Core) (w : Tbl W32) : inactiveBank (setInactive k w) = w := by
  cases hb : k.bankB <;> simp [inactiveBank, setInactive, hb]

theorem activeBank_setInactive (k : Core) (w : Tbl W32) : activeBank (setInactive k w) = activeBank k := by
  cases hb : k.bankB <;> simp [activeBank, setInactive, hb]

theorem getCore_bankLoaded :
    getCore (bankLoaded s pkt image) (pktObj pkt) = setInactive (getCore s (pktObj pkt)) (imageWords pkt image) :=
  getCore_modCore_self

end

/-- Settles O36: each service command that its checks let pass. -/
theorem adminService : Obligations.AdminService := by
  rintro s pkt image a rfl
  refine ⟨exec_modeStage, exec_modeAbort, ?_, ?_, fun h hb himg hst => ⟨?_, ?_⟩⟩
  · rintro h hb hmode hroot hup hdrain hbusy u rfl
    exact ⟨exec_agentDrain h hb hmode hroot hup hdrain hbusy, kget_kput_self, rfl⟩
  · rintro h hb hmode hagent hup hdrain hbusy t u rfl rfl
    exact ⟨exec_agentReadmit h hb hmode hagent hup hdrain hbusy, kget_kput_self, kget_kput_self⟩
  · rintro w u hroot rfl rfl
    refine ⟨exec_imemLoad_root ⟨h, hb, himg, hst⟩ hroot, ?_, ?_⟩
    · exact (congrArg inactiveBank getCore_bankLoaded).trans (inactiveBank_setInactive _ _)
    · exact (congrArg activeBank getCore_bankLoaded).trans (activeBank_setInactive _ _)
  · intro hagent hup
    exact exec_imemLoad_agent ⟨h, hb, himg, hst⟩ hagent hup

end Sys2Proof.Proofs.AdminService
end

