-- ==== Sys2Proof/Proofs/EngineLanes.lean ====
section
/-! Entry of macro-ops into the lanes of an engine queue, and their presentation to the engine (R261, R283, R284, R300, R301, R418). -/

namespace Sys2Proof.Proofs.EngineLanes
open Sys2Proof Sys2Proof.Machine Sys2Proof.Laws
open Sys2Proof.Proofs.EngineStops (getEq_modEq_ne)

/-! Entry. -/

section
variable {s : State} {a slot target : Nat} {p : PushMsg} {m : W512} {ch : Bool} {c : Ctx}

/-- The entry that a MOP_PUSH makes (R284). -/
def pushedEnt (p : PushMsg) : Ent :=
  { be := p.be, tag := p.tag, launch := p.launch, part := p.part, maint := p.maint, chained := p.chained, predQ := p.predQ,
    predTag := p.predTag, mop := p.mop, deftmo := p.deftmo }

theorem exec_mopPush (h : AgLive s a = true) (hhead : downHead s a = some (.mopPush p)) :
    exec (.mopPush a) s = .next (settle
      (enterLane (takeDown s a) a (p.eq % 16) (pushedEnt p) true p.charge p.allow p.used0)) := by
  show execMopPush a s = _
  simp only [execMopPush, liveAgent_next h, hhead]
  rfl

/-- A QPUSH or QPUSHC of an agent's core, with every flag operation of the context applied, its target sound and a slot in the lane,
retires and enters the lane (R261, R264, R282). -/
theorem tryPush_agent (ha : a < 64) (hflags : c.unapplied = 0) (hbad : pushBad s (0x200 + a) c target = false)
    (hroom : localRoom s a (target % 1024 % 16) c.be = true) :
    tryPush s (0x200 + a) slot c target m (b2n ch) 0 =
      localEnter (retire s (0x200 + a) slot c) a slot (target % 1024 % 16) m ch := by
  have hcore : ¬ 0x300 ≤ 0x200 + a := by omega
  have hmode : ¬ b2n ch = 2 := by cases ch <;> decide
  have hchained : (b2n ch == 1) = ch := by cases ch <;> rfl
  simp only [tryPush, hbad, hcore, hflags, hmode, hchained, Nat.add_sub_cancel_left, hroom, Bool.false_eq_true, ne_eq,
    not_true_eq_false, if_false, if_true]

theorem exec_localPush (h : AgLive s a = true) (ha : a < 64) (hrun : running s (0x200 + a) = some (slot, c)) (hst : c.st = .running)
    (hstall : c.stall = some (.qpush target m ch)) (hflags : c.unapplied = 0) (hbad : pushBad s (0x200 + a) c target = false)
    (hroom : localRoom s a (target % 1024 % 16) c.be = true) :
    exec (.localPush a) s = .next (settle
      (localEnter (retire s (0x200 + a) slot c) a slot (target % 1024 % 16) m ch)) := by
  show execLocalPush a s = _
  simp only [execLocalPush, liveAgent_next h, stallTry, hrun, hst, hstall, ne_eq, not_true_eq_false, if_false,
    tryPush_agent ha hflags hbad hroom]

end

/-! Presentation. -/

section
variable {s : State} {a l b k : Nat} {be : Bool} {e : Ent}

/-- The head of a lane that the engine can be given: ready, and of an engine class (R300, R302). -/
def engineHead (s : State) (a l : Nat) (be : Bool) : Option Ent :=
  (headOf (getEq s a l) be).filter fun e => headReady s a l be && mEngine e.mop

theorem engineHead_some (hhead : headOf (getEq s a l) be = some e) (hready : headReady s a l be = true) (hm : mEngine e.mop = true) :
    engineHead s a l be = some e := by
  simp only [engineHead, hhead, Option.filter_some, hready, hm, Bool.and_self, if_true]

theorem engineHead_none (h : ∀ f, headOf (getEq s a l) be = some f → headReady s a l be = false ∨ mEngine f.mop = false) :
    engineHead s a l be = none :=
  Option.filter_eq_none_iff.mpr fun f hf => by rw [Bool.and_eq_true, not_and_or]; simpa using h f hf

/-- The entry is the one that the engine holds (R301). -/
def presented (s : State) (a l : Nat) (e : Ent) : State :=
  modEq s a l fun q => { putEnt q { e with st := .presented } with pres := some (e.be, e.seq) }

/-- A free engine whose gate is open is given the LC lane's head, else the BE lane's (R301, R418). -/
theorem exec_presentMop (h : AgLive s a = true) (hfree : (getEq s a l).pres = none) (hgate : bermShut s a l = false)
    (hhead : (engineHead s a l false).orElse (fun _ => engineHead s a l true) = some e) :
    exec (.presentMop a l) s = .next (settle (presented s a l e)) := by
  simp only [engineHead] at hhead
  show execPresentMop a l s = _
  simp only [execPresentMop, liveAgent_next h, hfree, hgate, hhead, Option.isSome_none, Bool.false_eq_true, or_self, if_false]
  rfl

/-- An update of one engine queue leaves every other as it is. -/
theorem getEq_modEq_other {f : EqQ → EqQ} (h : b ≠ a ∨ k ≠ l) : getEq (modEq s a l f) b k = getEq s b k := by
  by_cases hb : b = a
  · subst hb
    exact getEq_modEq_ne (h.resolve_left (not_not.mpr rfl)).symm
  · rw [getEq, modEq, getAgent_modAgent_ne (Ne.symm hb), getEq]

end

/-- Settles O21: the two ways into a lane, then presentation by the lane whose head the engine can be given. -/
theorem lanesAndPresentation : Obligations.LanesAndPresentation := by
  refine ⟨⟨fun s a p => exec_mopPush, fun s a slot target m ch c => exec_localPush⟩, ?_⟩
  rintro s a l e h hfree hgate hhead hm t rfl
  refine ⟨exec_presentMop h hfree hgate ?_, fun b k => getEq_modEq_other⟩
  obtain ⟨hlc, hready⟩ | ⟨hnone, hbe, hready⟩ := hhead
  · rw [engineHead_some hlc hready hm]
    rfl
  · rw [engineHead_none hnone, engineHead_some hbe hready hm]
    rfl

end Sys2Proof.Proofs.EngineLanes
end

