-- ==== Sys2Proof/Proofs/ManagerClasses.lean ====
section
/-! Macro-ops of the manager classes at the head of their lane, the outcomes of a WAIT, and the end of the macro-op that the engine
holds (R286, R302, R303, R305, R308). -/

namespace Sys2Proof.Proofs.ManagerClasses
open Sys2Proof Sys2Proof.Machine Sys2Proof.Laws
open Sys2Proof.Proofs.EngineStops (countRep_ent)

/-! Manager classes. -/

/-- The head of a lane of a live agent, queued, its chained mark answered and no skip cause found (R300, R302). -/
structure AtHead (s : State) (a l : Nat) (be : Bool) (e : Ent) : Prop where
  live : AgLive s a = true
  head : headOf (getEq s a l) be = some e
  chain : chainOpen e = true
  cause : e.cause = 0
  st : e.st = .queued

section
variable {s : State} {a l out : Nat} {be : Bool} {e : Ent} {w : MWait}

/-- The lane's generator is the stream of the macro-op (R295, R302). -/
def streamLoaded (s : State) (a l : Nat) (be : Bool) (e : Ent) : State :=
  modEq s a l fun q => setGen q be { active := true, desc := mDesc e.mop } e.launch

/-- The manager serves such a head. -/
theorem AtHead.serves (h : AtHead s a l be e) : ¬ (¬ chainOpen e = true ∨ e.cause ≠ 0 ∨ e.st ≠ .queued) := by
  simp only [h.chain, h.cause, h.st, ne_eq, not_true_eq_false, or_self, not_false_eq_true]

theorem AtHead.exec_stream (h : AtHead s a l be e) (ho : mOpc e.mop = 0x10) :
    exec (.managerClassHead a l be) s = .next (settle (mgrDoneEnt (streamLoaded s a l be e) a l e)) := by
  show execManagerClassHead a l be s = _
  simp only [execManagerClassHead, liveAgent_next h.live, h.head, if_neg h.serves, ho]
  rfl

theorem AtHead.exec_signal (h : AtHead s a l be e) (ho : mOpc e.mop = 0x13) :
    exec (.managerClassHead a l be) s = .next (settle (mgrDoneEnt s a l e)) := by
  show execManagerClassHead a l be s = _
  simp only [execManagerClassHead, liveAgent_next h.live, h.head, if_neg h.serves, ho]

/-- A WAIT that names no flag completes at once (R170, R302). -/
theorem AtHead.exec_waitNothing (h : AtHead s a l be e) (ho : mOpc e.mop = 0x11) (hflag : wHandle (fld e.mop 128 128) = 0) :
    exec (.managerClassHead a l be) s = .next (settle (mgrDoneEnt s a l e)) := by
  show execManagerClassHead a l be s = _
  simp only [execManagerClassHead, liveAgent_next h.live, h.head, if_neg h.serves, ho, if_pos hflag]

/-- A WAIT on a flag is armed while no other is (R303). -/
theorem AtHead.exec_waitFlag (h : AtHead s a l be e) (ho : mOpc e.mop = 0x11) (hflag : wHandle (fld e.mop 128 128) ≠ 0)
    (hwait : (getEq s a l).wait = none) : exec (.managerClassHead a l be) s = .next (settle (armWait s a l e)) := by
  show execManagerClassHead a l be s = _
  simp only [execManagerClassHead, liveAgent_next h.live, h.head, if_neg h.serves, ho, if_neg hflag, hwait]

theorem AtHead.exec_barrier (h : AtHead s a l be e) (ho : mOpc e.mop = 0x12) (hmet : barrierMet s a e = true) :
    exec (.managerClassHead a l be) s = .next (settle (mgrDoneEnt s a l e)) := by
  show execManagerClassHead a l be s = _
  simp only [execManagerClassHead, liveAgent_next h.live, h.head, if_neg h.serves, ho, if_pos hmet]

/-- A BARRIER whose queues are clear is a ready head (R300). -/
theorem AtHead.barrierReady (h : AtHead s a l be e) (ho : mOpc e.mop = 0x12) (hmet : barrierMet s a e = true) :
    headReady s a l be = true := by
  simp only [headReady, h.head, h.chain, h.cause, h.st, ho, hmet]
  rfl

theorem AtHead.exec_barrierSatisfied (h : AtHead s a l be e) (ho : mOpc e.mop = 0x12) (hmet : barrierMet s a e = true) :
    exec (.barrierSatisfied a l be) s = .next (settle (mgrDoneEnt s a l e)) := by
  show execBarrierSatisfied a l be s = _
  simp only [execBarrierSatisfied, liveAgent_next h.live, h.head, ho, h.barrierReady ho hmet, and_self, if_true]

/-! Outcomes of a WAIT. -/

/-- An armed WAIT ends as its flag's word has decided, or by its timeout while that decides nothing (R171). -/
theorem exec_mopWaitOutcome_armed (h : AgLive s a = true) (hwait : (getEq s a l).wait = some w)
    (hent : findEnt (getEq s a l) w.be w.seq = some e) (hout : w.out = some out ∨ (w.out = none ∧ out = 2)) :
    exec (.mopWaitOutcome a l ⟨w.be, out⟩) s = .next (settle (waitEnd s a l e out)) := by
  show execMopWaitOutcome a l ⟨w.be, out⟩ s = _
  simp only [execMopWaitOutcome, liveAgent_next h, hwait, hent, hout, and_self, if_true]

/-- A WAIT that the full mirror keeps out ends by its timeout (R172). -/
theorem exec_mopWaitOutcome_held (h : AgLive s a = true) (hwait : (getEq s a l).wait = none) (hheld : heldWait s a l be = some e) :
    exec (.mopWaitOutcome a l ⟨be, 2⟩) s = .next (settle (waitEnd s a l e 2)) := by
  show execMopWaitOutcome a l ⟨be, 2⟩ s = _
  simp only [execMopWaitOutcome, liveAgent_next h, hwait, hheld, if_true]

end

/-! EQ_DONE. -/

section
variable {s s' : State} {a l : Nat} {word : W64} {rep : EngRep} {e e' : Ent}

/-- The entry with the bytes that EQ_DONE gives (R286). -/
def bytesCounted (e : Ent) (word : W64) : Ent := { e with bytes := fld word 32 32 * 64 }

/-- A report leaves the mark of a macro-op that ran on under a granted berm as it is (R420). -/
theorem countRep_cut (hc : countRep s a l e rep = (s', e')) : e'.cut = e.cut := by rw [countRep_ent hc]

/-- Result 0: the macro-op has run all its tiles and ends with ST_OK; with REL 1 and GVIS 0 it waits for its flush (R286, R305). -/
theorem exec_eqDone_ok (h : AgLive s a = true) (hp : presEnt (getEq s a l) = some e) (hcut : e.cut = false)
    (hc : countRep s a l e rep = (s', e')) (hres : fld word 0 2 = 0) :
    exec (.eqDone a l word rep) s = .next (settle (settleAgent (endEnt
      (tilesRun s' a l (bytesCounted e' word) (mTiles e'.mop - e'.tstart)) a l (bytesCounted e' word)
      (0, 0, 0, mTiles e'.mop, endFlags (bytesCounted e' word) (mRel e'.mop && !bitOf word 2), 0)
      (mRel e'.mop && !bitOf word 2)) a)) := by
  have hkept : e'.cut = false := (countRep_cut hc).trans hcut
  show execEqDone a l word rep s = _
  simp [execEqDone, liveAgent_next h, hp, hc, hres, hkept, bytesCounted]

/-- Result 2: the macro-op ends aborted at the tile that it began with (R286, R308). -/
theorem exec_eqDone_aborted (h : AgLive s a = true) (hp : presEnt (getEq s a l) = some e) (hcut : e.cut = false)
    (hc : countRep s a l e rep = (s', e')) (hres : fld word 0 2 = 2) :
    exec (.eqDone a l word rep) s = .next (settle (settleAgent (endEnt s' a l (bytesCounted e' word)
      (3, 0, 0, e'.tstart, endFlags (bytesCounted e' word) false, 0) false) a)) := by
  have hkept : e'.cut = false := (countRep_cut hc).trans hcut
  show execEqDone a l word rep s = _
  simp [execEqDone, liveAgent_next h, hp, hc, hres, hkept, bytesCounted]

end

/-- Settles O22: each manager class at the head, the outcomes of a WAIT, and EQ_DONE by its result. -/
theorem managerClassesAndDone : Obligations.ManagerClassesAndDone := by
  constructor
  · intro s a l be e hlive hhead hchain hcause hst
    have h : AtHead s a l be e := ⟨hlive, hhead, hchain, hcause, hst⟩
    exact ⟨h.exec_stream, h.exec_signal, h.exec_waitNothing, h.exec_waitFlag,
      fun ho hmet => ⟨h.exec_barrier ho hmet, h.exec_barrierSatisfied ho hmet⟩,
      fun w out => exec_mopWaitOutcome_armed hlive, exec_mopWaitOutcome_held hlive⟩
  · rintro s a l word rep e h hp hcut e' s' u hc rfl
    refine ⟨?_, ?_, exec_eqDone_ok h hp hcut hc, exec_eqDone_aborted h hp hcut hc⟩
    · rw [countRep_ent hc]
    · rw [countRep_ent hc]

end Sys2Proof.Proofs.ManagerClasses
end

