-- ==== Sys2Proof/Proofs/LaneFunctions.lean ====
section
/-! The functions by FP32 lanes: VEXP2, VRCP, VRSQRT, and VLOG2 with its free value at zero (R350, log entry 3). -/

namespace Sys2Proof.Proofs.LaneFunctions
open Sys2Proof Sys2Proof.Machine Sys2Proof.Laws Sys2Proof.Proofs.VectorResults

theorem length_lanes_fp32 (v : W512) : (lanes 0 v).length = 16 := length_lanes 0 v

/-- What a function by FP32 lanes leaves when it retires: v[D] holds the results r of the lanes that are not masked, the flags of
those lanes are raised, and the rest of the context but the PC is as before (R248, R350). -/
def lanesRetired (s : State) (slot : Nat) (c : Ctx) (i : FV) (r : List (Nat × Nat)) : State :=
  retired s i.core slot c
    (orFlags (setV c i.d (fromLanes 32 (maskLanes c i (lanes 0 (vReg c i.d)) (r.map (·.1))))) (laneFlags c i r))

/-- The state after the issue, its FP32 lanes put. -/
theorem putLanes_fp32 {s : State} {slot : Nat} {c : Ctx} {i : FV} {r : List (Nat × Nat)} :
    putLanes (touchCode s c) slot c i 0 r = lanesRetired s slot c i r := rfl

/-- VLOG2 of a lane: the result the spec states, and for ±0, where it states none, a free value of the lane's code (log entry 3). -/
def log2Lane (x : Nat) : Nat × Nat :=
  match log232 (BitVec.ofNat 32 x) with
  | some r => r
  | none => ((Config.freeOf 10 x 0).toNat % 2 ^ 32, (Config.freeOf 10 x 1).toNat % 16)

theorem log2Lane_stated {x : Nat} {r : Nat × Nat} (h : log232 (BitVec.ofNat 32 x) = some r) : log2Lane x = r := by
  rw [log2Lane, h]

/-- Lane k of a function applied to every lane is the function of lane k. -/
theorem getElem?_map_lanes {α : Type} (f : Nat → α) (v : W512) {k : Nat} (hk : k < 16) :
    ((lanes 0 v).map f)[k]? = some (f ((lanes 0 v).getD k 0)) := by
  have hlen : k < (lanes 0 v).length := hk.trans_eq (length_lanes_fp32 v).symm
  rw [List.getElem?_map, List.getElem?_eq_getElem hlen, List.getD_eq_getElem _ _ hlen, Option.map_some]

section
variable {i : FV} {s : State} {slot : Nat} {c : Ctx}

/-- The encoding of a function by FP32 lanes is sound. -/
theorem fp32Encoding_ok (hf : i.fmt = 0) (hd : i.d < 16) (ha : i.a < 16) :
    (decide (i.fmt = 0) && decide (i.d < 16) && decide (i.a < 16)) = true := by
  simp [hf, hd, ha]

theorem laneFn_ok {f : W32 → Nat × Nat} (h : Issues s i.core slot c = true) (hf : i.fmt = 0) (hd : i.d < 16) (ha : i.a < 16) :
    laneFn i f s =
      .next (settle (lanesRetired s slot c i ((lanes 0 (vReg c i.a)).map fun x => f (BitVec.ofNat 32 x)))) := by
  rw [laneFn, issueLanes_ok h (fp32Encoding_ok hf hd ha), putLanes_fp32]

theorem exec_scVlog2 (h : Issues s i.core slot c = true) (hf : i.fmt = 0) (hd : i.d < 16) (ha : i.a < 16) :
    exec (.scVlog2 i) s = .next (settle (lanesRetired s slot c i ((lanes 0 (vReg c i.a)).map log2Lane))) := by
  show execScVlog2 i s = _
  rw [execScVlog2, issueLanes_ok h (fp32Encoding_ok hf hd ha), putLanes_fp32]
  rfl

end

/-- Settles O10: three rows are one function by lanes each; VLOG2 gives each lane the stated result where there is one. -/
theorem scLaneFunctions : Obligations.ScLaneFunctions := by
  constructor
  · intro mk f hmem i s slot c h hf hd ha
    have hrow : exec (mk i) s = laneFn i f s := by
      simp only [List.mem_cons, Prod.mk.injEq, List.not_mem_nil, or_false] at hmem
      rcases hmem with ⟨rfl, rfl⟩ | ⟨rfl, rfl⟩ | ⟨rfl, rfl⟩
      all_goals rfl
    exact ⟨_, rfl, hrow.trans (laneFn_ok h hf hd ha)⟩
  · intro i s slot c h hf hd ha
    refine ⟨(lanes 0 (vReg c i.a)).map log2Lane, ?_, fun k x hx hk => ?_, exec_scVlog2 h hf hd ha⟩
    · rw [List.length_map, length_lanes_fp32]
    · rw [getElem?_map_lanes log2Lane _ hk, log2Lane_stated hx]

end Sys2Proof.Proofs.LaneFunctions
end

