-- ==== Sys2Proof/Proofs/CrossingUnit.lean ====
section
/-! The Crossing unit: closure writes and their holds (R371–R373), remote SETs and flag messages (R374, R375), link faults (R376). -/

namespace Sys2Proof.Proofs.CrossingUnit
open Sys2Proof Sys2Proof.Machine Sys2Proof.Laws

/-! What the unit's shared operations leave. -/

/-- An entry that a table lists is what a read of its key gives. -/
theorem tget_of_kget {α : Type} {d x : α} {t : Tbl α} {k : Nat} (h : kget t k = some x) : tget d t k = x := by
  induction t with
  | nil => cases h
  | cons y t ih =>
    rw [kget] at h
    rw [tget]
    split at h
    next hk => rw [if_pos hk]; exact Option.some.inj h
    next hk => rw [if_neg hk]; exact ih h

theorem kget_setInst_self {s : State} {k : Nat} {i : Inst} (h : i ≠ {}) : kget (setInst s k i).xing.insts k = some i := by
  show kget (tput {} s.xing.insts k i) k = some i
  rw [tput, if_neg h]
  exact kget_kput_self

/-- A Crossing event changes the event port, the log and the Watch, and of the Crossing unit XING_STAT and XING_LASTERR (R379). -/
theorem xingErr_shape (s : State) (bit code link : Nat) (word : W32) : ∃ e l w, xingErr s bit code link word = { s with
    evt := e, log := l, watch := w
    xing := { s.xing with stat := setBit s.xing.stat bit, lastWord := word, lastLink := link, lastCode := code } } := by
  rw [xingErr]
  obtain ⟨e, l, w, hraise⟩ := raiseOn_shape s code none none ((.link, link) ::
    (if code = eXingLink then [] else [(.group, xwGroup word), (.chip, xwChip word), (.tag, xwTag word)]))
  rw [hraise]
  split
  · exact ⟨e, l, w, rfl⟩
  · obtain ⟨e', hvec⟩ := reqVec_shape (modXing { s with evt := e, log := l, watch := w } fun x =>
      { x with stat := setBit x.stat bit, lastWord := word, lastLink := link, lastCode := code }) 4355
    exact ⟨e', l, w, hvec⟩

theorem xingErr_xing (s : State) (bit code link : Nat) (word : W32) : (xingErr s bit code link word).xing =
    { s.xing with stat := setBit s.xing.stat bit, lastWord := word, lastLink := link, lastCode := code } := by
  obtain ⟨e, l, w, h⟩ := xingErr_shape s bit code link word
  rw [h]

theorem xingErr_weir (s : State) (bit code link : Nat) (word : W32) : (xingErr s bit code link word).weir = s.weir := by
  obtain ⟨e, l, w, h⟩ := xingErr_shape s bit code link word
  rw [h]

theorem modLaunch_xing (s : State) (l : Nat) (f : Launch → Launch) : (modLaunch s l f).xing = s.xing := by
  rw [modLaunch]
  split
  · rfl
  · rfl

/-- A SET that is sent or dropped lets its node go on and leaves the Crossing unit alone. -/
theorem setSent_xing (s : State) (r : RSet) : (setSent s r).xing = s.xing := by
  rw [setSent]
  split
  · rfl
  · exact modLaunch_xing s r.launch _

theorem foldl_setSent_xing (l : List RSet) (s : State) : (l.foldl setSent s).xing = s.xing :=
  List.foldlRecOn (motive := fun (u : State) => u.xing = s.xing) _ _ rfl fun u h r _ => (setSent_xing u r).trans h

/-! Closure writes. -/

/-- The closure write with tag n of a pair is released: it stays noted as held until its acknowledgement, and its release is
presented on the pair's link (R372, R373). -/
def presented (s : State) (k : Nat) (i : Inst) (n : Nat) : State :=
  modXing (setInst s k { i with held := some n, released := some n }) fun x => { x with rel := x.rel ++ [(i.link, n)] }

theorem releaseInst_running {s : State} {k : Nat} {i : Inst} {n : Nat} (h : s.glb.frozen = false) :
    releaseInst s k i n = presented s k i n := by
  simp only [releaseInst, h, Bool.false_eq_true, if_false, presented]

section
variable {s : State} {link : Nat} {w : W32} {i : Inst} {n : Nat}

theorem exec_xcAck (h : Live s = true) (ho : xcOpen s link = true) (hd : groupDead s w = false) :
    exec (.xcAck link w) s = .next (settle (xcAck s link w)) := by
  show execXcAck link w s = _
  simp only [execXcAck, liveRoot_next h, ho, hd, not_true_eq_false, Bool.false_eq_true, if_false]

theorem xcAck_opens (hk : kget s.xing.insts (instKey w) = none) (hroom : s.xing.insts.length < Config.instMax) :
    xcAck s link w = setInst (xcSeen s link) (instKey w) { count := 1, link := link } := by
  simp only [xcAck, hk, if_neg (Nat.not_le.mpr hroom)]

theorem xcAck_counts (hk : kget s.xing.insts (instKey w) = some i) (hheld : i.held = none) (hrel : i.released = none) :
    xcAck s link w = setInst (xcSeen s link) (instKey w) { i with count := i.count + 1 } := by
  simp only [xcAck, hk, hheld, hrel]

/-- An acknowledgement of an earlier write while the closure write with tag n is held (R373). -/
theorem xcAck_held (hk : kget s.xing.insts (instKey w) = some i) (hheld : i.held = some n) (hrel : i.released = none)
    (htag : xwTag w < n) : xcAck s link w =
      if i.count + 1 = n then releaseInst (xcSeen s link) (instKey w) { i with count := i.count + 1 } n
      else setInst (xcSeen s link) (instKey w) { i with count := i.count + 1 } := by
  simp only [xcAck, hk, hheld, hrel, if_neg (Nat.not_le.mpr htag)]

theorem xcAck_completes (hf : s.glb.frozen = false) (hk : kget s.xing.insts (instKey w) = some i) (hheld : i.held = some n)
    (hrel : i.released = none) (htag : xwTag w < n) (hn : i.count + 1 = n) :
    xcAck s link w = presented (xcSeen s link) (instKey w) { i with count := n } n := by
  have hfrozen : (xcSeen s link).glb.frozen = false := hf
  rw [xcAck_held hk hheld hrel htag, if_pos hn, releaseInst_running hfrozen, hn]

/-- A hold of an open pair that holds no other closure write, by the acknowledgements counted (R373). -/
theorem exec_xcHold (h : Live s = true) (ho : xcOpen s link = true) (hd : groupDead s w = false)
    (hk : kget s.xing.insts (instKey w) = some i) (hheld : i.held = none)
    (hsame : s.xing.insts.any (fun x => x.2.link == link && x.2.held == some (xwTag w) && x.2.released.isNone) = false) :
    exec (.xcHold link w) s = .next (settle (
      if i.count = xwTag w then releaseInst (xcSeen s link) (instKey w) { i with link := link } (xwTag w)
      else if xwTag w < i.count then
        xingErr (setInst (xcSeen s link) (instKey w) { i with link := link, held := some (xwTag w) }) 0 eXingProtocol link w
      else setInst (xcSeen s link) (instKey w) { i with link := link, held := some (xwTag w) })) := by
  show execXcHold link w s = _
  simp only [execXcHold, liveRoot_next h, tget_of_kget hk, ho, hsame, hheld, hd, hk, not_true_eq_false, Bool.false_eq_true,
    Option.isSome_none, Option.isNone_some, false_and, or_self, if_false]

end

/-! Remote SETs and flag messages. -/

section
variable {s : State} {link chip : Nat} {m : BitVec 128} {r : RSet}

theorem exec_remoteSetSend (h : Live s = true) (hf : s.glb.frozen = false)
    (ho : xcOpen s ((tget 0#32 s.xing.routes chip).toNat % 8) = true)
    (hr : s.xing.sets.find? (fun r => r.chip == chip && !setHeldBack s r.part chip) = some r) :
    exec (.remoteSetSend chip) s = .next (settle
      (setSent (xcSend (modXing s fun x => { x with sets := x.sets.erase r }) chip (setMsg s r r.poison)) r)) := by
  show execRemoteSetSend chip s = _
  simp only [execRemoteSetSend, liveRoot_next h, hf, ho, hr, Bool.false_eq_true, not_true_eq_false, or_self, if_false]

/-- A SET to a flag in its partition's range is queued as source 4 of R160 (R375). -/
theorem rxSet_inRange (hin : flagInRange s (xmPart m) (xmIndex m) = true) : rxSet s m = queueSigs s [{
    src := 400, part := xmPart m, handle := xmIndex m, op := if xmPoison m then 4 else 2, x := xmValue m, launch := 0 }] := by
  simp only [rxSet, hin, if_true]

theorem exec_xcRx_set (h : Live s = true) (hf : s.glb.frozen = false) (ho : xcOpen s link = true) (hkind : xmKind m = 1)
    (hdst : xmDst m = s.xing.chip) : exec (.xcRx link m) s = .next (settle (rxSet (xcSeen s link) m)) := by
  have hgood : ¬ (xmKind m = 0 ∨ 4 < xmKind m ∨ xmDst m ≠ s.xing.chip) := by
    rw [hkind, hdst]
    simp
  show execXcRx link m s = _
  rw [execXcRx, liveRoot_next h, if_neg (not_not.mpr ho), if_neg hgood]
  simp only [hkind, hf, Bool.false_eq_true, if_false]

theorem exec_xcRx_bad (h : Live s = true) (ho : xcOpen s link = true)
    (hbad : xmKind m = 0 ∨ 4 < xmKind m ∨ xmDst m ≠ s.xing.chip) :
    exec (.xcRx link m) s =
      .next (settle (xingErr (xcSeen s link) 0 eXingProtocol link (BitVec.ofNat 32 (fld m 0 32)))) := by
  show execXcRx link m s = _
  simp only [execXcRx, liveRoot_next h, ho, if_pos hbad, not_true_eq_false, if_false]

end

/-! Faults of a link. -/

/-- The fall of xc_up of a link is noted (R376). -/
def fallNoted (s : State) (link : Nat) : State :=
  xingErr (modXing s fun x => { x with links := tput {} x.links link { tget {} x.links link with up := false } }) 2 eXingLink link 0

/-- The chip of a queued SET is routed over the link (R381). -/
def routedOver (s : State) (link : Nat) (r : RSet) : Bool := (tget 0#32 s.xing.routes r.chip).toNat % 8 == link

/-- The SETs queued for chips routed over the link are dropped, and their nodes go on (R376, log entry 58). -/
def setsDropped (s : State) (link : Nat) : State :=
  (s.xing.sets.filter (routedOver s link)).foldl setSent
    (modXing s fun x => { x with sets := x.sets.filter fun r => !routedOver s link r })

/-- A remote wait ends with poison where its entry is still open (R376). -/
def waitPoisoned (s : State) (x : Nat × RWait) : State :=
  match (kget s.launches x.2.launch).bind (fun l => openEntry l x.2.entry x.2.node) with
  | none => s
  | some e => waitFail s x.2.launch e eWaitPoisoned stAborted (flagAddr s ((getLaunch s x.2.launch).part) e.handle 0)

/-- The remote waits sent over the link end with poison (R376). -/
def waitsEnded (s : State) (link : Nat) : State :=
  (s.xing.waits.filter (fun x => x.2.link == link)).foldl waitPoisoned
    (modXing s fun x => { x with waits := x.waits.filter fun y => y.2.link != link })

theorem fallNoted_insts (s : State) (link : Nat) : (fallNoted s link).xing.insts = s.xing.insts := by
  rw [fallNoted, xingErr_xing, modXing_xing]

theorem fallNoted_lastCode (s : State) (link : Nat) : (fallNoted s link).xing.lastCode = eXingLink := by
  rw [fallNoted, xingErr_xing]

theorem fallNoted_sets (s : State) (link : Nat) : (fallNoted s link).xing.sets = s.xing.sets := by
  rw [fallNoted, xingErr_xing, modXing_xing]

theorem routedOver_fallNoted (s : State) (link : Nat) : routedOver (fallNoted s link) link = routedOver s link := by
  funext r
  rw [routedOver, fallNoted, xingErr_xing, modXing_xing, routedOver]

theorem setsDropped_sets (s : State) (link : Nat) :
    (setsDropped s link).xing.sets = s.xing.sets.filter fun r => !routedOver s link r := by
  rw [setsDropped, foldl_setSent_xing, modXing_xing]

section
variable {s : State} {link group chip n : Nat} {i : Inst}

theorem exec_xcUpFall (h : Live s = true) (hlink : link < s.par.xingLinks) (hup : (tget {} s.xing.links link).up = true) :
    exec (.xcUpFall link) s = .next (settle (waitsEnded (setsDropped (fallNoted s link) link) link)) := by
  have hgo : ¬ (s.par.xingLinks ≤ link ∨ ¬ (tget {} s.xing.links link).up = true) := by
    simp [hup, hlink]
  show execXcUpFall link s = _
  rw [execXcUpFall, liveRoot_next h, if_neg hgo]
  rfl

theorem exec_holdTimeout (h : Live s = true) (hi : i = tget {} s.xing.insts (group * 64 + chip)) (hheld : i.held = some n)
    (hrel : i.released = none) (hlink : i.link = link) (hlate : i.late = false) :
    exec (.holdTimeout link group chip) s = .next (settle (xingErr (setInst s (group * 64 + chip) { i with late := true }) 1
      eXingHoldTimeout link (BitVec.ofNat 32 (n + put group 16 + put chip 26)))) := by
  show execHoldTimeout link group chip s = _
  simp only [execHoldTimeout, liveRoot_next h, ← hi, hheld, hrel, hlink, hlate, ne_eq, not_true_eq_false, Bool.false_eq_true,
    or_self, if_false]

end

/-- Settles O51: the closure writes by what their pair holds, then the messages and faults of the links. -/
theorem crossing : Obligations.Crossing := by
  constructor
  · rintro s t link w h ho hd rfl
    refine ⟨fun hk hroom => ?opens, fun i hk hheld hrel => ?counts, fun i n hf hk hheld hrel htag => ⟨?completes, ?more⟩,
      fun i hk hheld hsame => ⟨?reached, ?waits⟩, fun k i => ⟨rfl, kget_setInst_self⟩⟩
    case opens => rw [exec_xcAck h ho hd, xcAck_opens hk hroom]
    case counts => rw [exec_xcAck h ho hd, xcAck_counts hk hheld hrel]
    case completes =>
      rintro hn u rfl
      rw [exec_xcAck h ho hd, xcAck_completes hf hk hheld hrel htag hn]
      rfl
    case more =>
      intro hn
      rw [exec_xcAck h ho hd, xcAck_held hk hheld hrel htag, if_neg hn]
    case reached =>
      rintro hf hn u rfl
      have hfrozen : (xcSeen s link).glb.frozen = false := hf
      rw [exec_xcHold h ho hd hk hheld hsame, if_pos hn, releaseInst_running hfrozen]
      rfl
    case waits =>
      intro hn
      rw [exec_xcHold h ho hd hk hheld hsame, if_neg hn.ne, if_neg hn.not_gt]
  · intro s h
    refine ⟨?send, ?set, ?bad, ?fall, ?late⟩
    case send =>
      rintro chip r t hf ho hr rfl
      exact ⟨exec_remoteSetSend h hf ho hr, rfl, rfl⟩
    case set =>
      intro link m hf ho hkind hdst hin
      have hseen : flagInRange (xcSeen s link) (xmPart m) (xmIndex m) = true := hin
      rw [exec_xcRx_set h hf ho hkind hdst, rxSet_inRange hseen]
    case bad =>
      rintro link m t ho hbad rfl
      refine ⟨exec_xcRx_bad h ho hbad, ?_, ?_, ?_, ?_⟩
      · rw [xingErr_xing]
      · rw [xingErr_xing]
      · rw [xingErr_xing]
      · rw [xingErr_weir]
        rfl
    case fall =>
      rintro link t u gone hlink hup rfl rfl rfl
      refine ⟨exec_xcUpFall h hlink hup, fallNoted_lastCode s link, fallNoted_insts s link, ?_⟩
      calc (setsDropped (fallNoted s link) link).xing.sets
          = (fallNoted s link).xing.sets.filter fun r => !routedOver (fallNoted s link) link r := setsDropped_sets _ link
        _ = s.xing.sets.filter fun r => !routedOver s link r := by rw [routedOver_fallNoted, fallNoted_sets]
    case late =>
      rintro link group chip n i t hi hheld hrel hlink hlate rfl
      refine ⟨exec_holdTimeout h hi hheld hrel hlink hlate, ?_, ?_⟩
      · rw [xingErr_xing]
      · rw [xingErr_xing]
        rfl

end Sys2Proof.Proofs.CrossingUnit
end

