-- ==== Sys2Proof/Proofs/WatchWindows.lean ====
section
/-! Classification windows close at a tick (R445). -/

namespace Sys2Proof.Proofs.WatchWindows
open Sys2Proof Sys2Proof.Machine Sys2Proof.Laws

section
variable {s : State} {t : Tbl Win} {k j : Nat} {x : Win}

/-- An open window has run its periods. -/
abbrev HasRun (s : State) (k : Nat) (x : Win) : Prop :=
  x.open_ = true ∧ x.start + (srcCfg s (k / 128) >>> 8) % 65536 ≤ s.sched.tickNo

/-- A window as a tick leaves it: closed with its count at 0 where it has run its periods. -/
def winAtTick (s : State) (k : Nat) (x : Win) : Win :=
  if HasRun s k x then { x with open_ := false, n := 0, start := 0, code := 0 } else x

/-- A tick looks at the window under one key of the table. -/
def visitKey (s : State) (t : Tbl Win) (k : Nat) : Tbl Win :=
  if HasRun s k (tget {} t k) then tput {} t k { tget {} t k with open_ := false, n := 0, start := 0, code := 0 } else t

theorem winAtTick_run (h : HasRun s k x) : winAtTick s k x = { x with open_ := false, n := 0, start := 0, code := 0 } := if_pos h

theorem winAtTick_stays (h : ¬ HasRun s k x) : winAtTick s k x = x := if_neg h

theorem winAtTick_empty : winAtTick s k {} = {} := winAtTick_stays fun h => Bool.false_ne_true h.1

/-- A window that a tick has closed is closed once. -/
theorem winAtTick_twice : winAtTick s k (winAtTick s k x) = winAtTick s k x := by
  by_cases h : HasRun s k x
  · rw [winAtTick_run h]
    exact winAtTick_stays fun hrun => Bool.false_ne_true hrun.1
  · rw [winAtTick_stays h, winAtTick_stays h]

theorem tget_visitKey_self : tget {} (visitKey s t k) k = winAtTick s k (tget {} t k) := by
  by_cases h : HasRun s k (tget {} t k)
  · rw [visitKey, if_pos h, winAtTick_run h, tget_tput_self]
  · rw [visitKey, if_neg h, winAtTick_stays h]

theorem tget_visitKey_ne (hk : j ≠ k) : tget {} (visitKey s t j) k = tget {} t k := by
  rw [visitKey]
  split
  · exact tget_tput_ne hk
  · rfl

theorem tget_of_notMem (h : k ∉ t.map (·.1)) : tget {} t k = {} := by
  induction t with
  | nil => rfl
  | cons y t ih =>
    rw [List.map_cons, List.mem_cons, not_or] at h
    obtain ⟨hy, ht⟩ := h
    rw [tget, if_neg (Ne.symm hy), ih ht]

/-- Visiting a list of keys treats the window under each of them, whatever the order and however often it is visited. -/
theorem tget_visitKeys (l : List Nat) :
    tget {} (l.foldl (visitKey s) t) k = if k ∈ l then winAtTick s k (tget {} t k) else tget {} t k := by
  induction l generalizing t with
  | nil => rfl
  | cons j l ih =>
    rw [List.foldl_cons, ih]
    by_cases hj : j = k
    · subst hj
      rw [tget_visitKey_self, winAtTick_twice, ite_self, if_pos List.mem_cons_self]
    · rw [tget_visitKey_ne hj]
      simp only [List.mem_cons, Ne.symm hj, false_or]

/-- A tick treats every window, listed or not. -/
theorem tget_closeWindows : tget {} (closeWindows s).watch.wins k = winAtTick s k (tget {} s.watch.wins k) := by
  show tget {} ((s.watch.wins.map (·.1)).foldl (visitKey s) s.watch.wins) k = _
  rw [tget_visitKeys]
  split
  · rfl
  · rename_i hk
    rw [tget_of_notMem hk, winAtTick_empty]

theorem exec_watchWindowClose (h : Live s = true) (hr : isReady s = true) :
    exec .watchWindowClose s = .next (settle (closeWindows s)) := by
  show execWatchWindowClose s = _
  rw [execWatchWindowClose, liveRoot_next h, if_pos hr]

end

/-- Settles O55: a tick treats the window under every key by itself. -/
theorem windowsClose : Obligations.WindowsClose := by
  rintro s t ws h hr rfl rfl
  refine ⟨exec_watchWindowClose h hr, fun k => ⟨fun hopen hrun => ?closes, fun hnot => ?stays⟩⟩
  case closes =>
    have hk := tget_closeWindows.trans (winAtTick_run (s := s) (k := k) ⟨hopen, hrun⟩)
    have hsevere := congrArg Win.severe hk
    exact ⟨congrArg Win.open_ hk, congrArg Win.n hk, hsevere⟩
  case stays =>
    exact tget_closeWindows.trans (winAtTick_stays fun hrun => absurd hrun.2 (Nat.not_le.mpr hnot))

end Sys2Proof.Proofs.WatchWindows
end

