-- ==== Sys2Proof/Proofs/ObjectVectors.lean ====
section
/-! Vectors of queues and partitions that are not there (R476). -/

namespace Sys2Proof.Proofs.ObjectVectors
open Sys2Proof Sys2Proof.Machine Sys2Proof.Laws Sys2Proof.Proofs.EventPort Sys2Proof.Proofs.DataMemory

/-! What leaves every vector but that of the audit log as it was. -/

/-- Every vector but 4360, that of the audit log (R498), is pending in the second state as in the first. -/
def OnlyLogVector (s u : State) : Prop := ∀ v, v ≠ 4360 → (v ∈ u.evt.pending ↔ v ∈ s.evt.pending)

section
variable {s u : State}

theorem OnlyLogVector.of_evt (h : u.evt = s.evt) : OnlyLogVector s u := fun v _ => by rw [h]

theorem OnlyLogVector.trans {w : State} (h : OnlyLogVector s u) (h' : OnlyLogVector u w) : OnlyLogVector s w :=
  fun v hv => (h' v hv).trans (h v hv)

theorem OnlyLogVector.reqVec (s : State) : OnlyLogVector s (reqVec s 4360) := fun v hv => by
  rw [reqVec_pending]
  split
  · rw [mem_insertNat, or_iff_right hv]
  · rfl

theorem OnlyLogVector.ite_reqVec {c : Prop} [Decidable c] (h : OnlyLogVector s u) :
    OnlyLogVector s (if c then Machine.reqVec u 4360 else u) := by
  split
  · exact h.trans (.reqVec u)
  · exact h

theorem OnlyLogVector.logPut (s : State) (w : BitVec 256) : OnlyLogVector s (logPut s w) := by
  unfold Machine.logPut
  exact .ite_reqVec (.of_evt rfl)

/-- An audit entry, lost or put into the log, can raise the log's vector alone (R497, R498). -/
theorem OnlyLogVector.audit (s : State) (o f k c w x : Nat) : OnlyLogVector s (audit s o f k c w x) := by
  unfold Machine.audit
  split
  · exact .of_evt rfl
  · dsimp only
    split
    · exact .ite_reqVec (.of_evt rfl)
    · generalize hu : (if 0 < s.log.lostSince then _ else s) = u
      have hlost : OnlyLogVector s u := by
        subst hu
        split
        · exact .logPut (modLog s fun l => { l with lostSince := 0 }) _
        · exact .of_evt rfl
      split
      · exact .ite_reqVec (hlost.trans (.of_evt rfl))
      · exact hlost.trans (.logPut u _)

/-- The flags of a queue become UNOWNED with an audit entry each (R103). -/
theorem disown_onlyLogVector (s : State) (q : Nat) : OnlyLogVector s (disown s q) := by
  rw [disown]
  exact List.foldlRecOn (motive := OnlyLogVector s) _ _ (.of_evt rfl) fun u hu x _ => hu.trans (.audit u 9 Config.fnNone 0x0B 0 x.2 q)

end

/-! Vectors of queues. -/

section
variable {s : State} {q v : Nat}

theorem reqVec_closed (h : vecOpen s v = false) : reqVec s v = s := by rw [reqVec, if_neg (by simp [h])]

theorem vecOpen_unused (hq : q < 4096) (h : (getQueue s q).st = .unused) : vecOpen s q = false := by
  simp only [vecOpen, show q ≠ 4352 by omega, hq, h]
  simp

/-- The record of a queue that is UNUSED: its accounting counters alone stay (R236). -/
def unbound (x : Queue) : Queue :=
  { engineNs := x.engineNs, bytes := x.bytes, energyNj := x.energyNj, moved := x.moved + unfetched x }

theorem enterUnused_eq : enterUnused s q = clearVec (modQueue (disown s q) q unbound) q := rfl

theorem enterUnused_pending : v ∈ (enterUnused s q).evt.pending ↔ v ∈ (disown s q).evt.pending ∧ v ≠ q := mem_without

theorem enterUnused_st : (getQueue (enterUnused s q) q).st = .unused :=
  congrArg Queue.st (getQueue_modQueue_self (s := disown s q) (f := unbound))

/-- Nothing of the queue's vector is held back or owed once its pending bit is cleared. -/
theorem notMem_clearVec (s : State) (q : Nat) : (∀ x ∈ (clearVec s q).evt.waiting, x.1 ≠ q) ∧
    ∀ x ∈ (clearVec s q).evt.hostSig, x.1 ≠ q :=
  ⟨fun _ hx => by simpa using List.of_mem_filter hx, fun _ hx => by simpa using List.of_mem_filter hx⟩

end

/-! Vectors of partitions. -/

section
variable {s : State} {p n : Nat}

/-- A vector of a partition is open at READY in the states MAINT, ACTIVE and HALTED (R476). -/
theorem vecOpen_part (hp : p < 64) (hn : n < 4) : vecOpen s (4096 + 4 * p + n) = (isReady s &&
    match (getPart s p).st with
    | .maint | .active | .halted => true
    | _ => false) := by
  have hpart : (4096 + 4 * p + n - 4096) / 4 = p := by omega
  simp only [vecOpen, show 4096 + 4 * p + n ≠ 4352 by omega, show ¬ 4096 + 4 * p + n < 4096 by omega,
    show 4096 + 4 * p + n < 4352 by omega, hpart, if_false, if_true]
  cases isReady s <;> rfl

theorem reqVec_absentPart (hp : p < 64) (hn : n < 4) (hm : (getPart s p).st ≠ .maint) (ha : (getPart s p).st ≠ .active)
    (hh : (getPart s p).st ≠ .halted) : reqVec s (4096 + 4 * p + n) = s := by
  refine reqVec_closed ?_
  rw [vecOpen_part hp hn]
  cases hst : (getPart s p).st <;> simp_all

theorem reqVec_livePart (hp : p < 64) (hn : n < 4) (hr : isReady s = true)
    (hst : (getPart s p).st = .maint ∨ (getPart s p).st = .active ∨ (getPart s p).st = .halted) :
    (reqVec s (4096 + 4 * p + n)).evt.pending = insertNat s.evt.pending (4096 + 4 * p + n) := by
  rw [reqVec_pending, if_pos]
  rw [vecOpen_part hp hn, hr]
  rcases hst with h | h | h <;> rw [h] <;> rfl

end

/-- Settles O3: which vectors are open, then what entry to UNUSED clears. -/
theorem vectorsOfObjects : Obligations.VectorsOfObjects := by
  intro s q hq
  obtain ⟨hwaiting, howed⟩ := notMem_clearVec (modQueue (disown s q) q unbound) q
  refine ⟨fun h => reqVec_closed (vecOpen_unused hq h), enterUnused_st, fun v hv => ?_, fun hin => ?_, hwaiting, howed,
    fun p n hp hn => ⟨reqVec_absentPart hp hn, reqVec_livePart hp hn⟩⟩
  · rw [enterUnused_pending, disown_onlyLogVector s q v hv]
  · exact (enterUnused_pending.mp hin).2 rfl

end Sys2Proof.Proofs.ObjectVectors
end

