-- ==== Sys2Proof/Proofs/FenceAndEvacuation.lean ====
section
/-! The end of a fence and of chip-fail: AGENT_RESET (R450), the launches that are left (R451, R452), the evacuation record (R453,
R454). -/

namespace Sys2Proof.Proofs.FenceAndEvacuation
open Sys2Proof Sys2Proof.Machine Sys2Proof.Laws Sys2Proof.Proofs.QueuesEmpty

/-! Fences. -/

section
variable {s : State} {a : Nat}

/-- The agent's fence is no longer under way. -/
def fenceEnds (s : State) (a : Nat) : State := modWatch s fun w => { w with fencing := without w.fencing a }

/-- The launches that still name the agent leave with E_AGENT_FENCED (R450). -/
def launchesFenced (s : State) (a : Nat) : State := (launchesOn s a).foldl (fun s id => leave s id stAborted eAgentFenced) s

/-- What the Steward and the Outfall hold of the agent's macro-ops is gone (R430, R450). -/
def agentForgotten (s : State) (a : Nat) : State :=
  { modStew s (fun x => { x with
      lane := x.lane.filter (fun y => y.1 / 16 != a), pushq := x.pushq.filter (fun m => m.eq / 16 != a)
      copy := x.copy.map (fun k => if k.agent = a then { k with ended := true, ok := false } else k) }) with
    outf := { s.outf with counted := s.outf.counted.filter (fun y => y.1 / 2 ^ 20 != a) } }

theorem exec_fenceReset (h : Live s = true) (hf : s.watch.fencing.contains a = true) : exec (.fenceReset a) s =
    .next (settle (sendDown (agentForgotten (launchesFenced (fenceEnds s a) a) a) a (.agentReset 3))) := by
  show execFenceReset a s = _
  rw [execFenceReset, liveRoot_next h, if_pos hf]
  rfl

theorem launchesFenced_none (h : launchesOn s a = []) : launchesFenced s a = s := by rw [launchesFenced, h, List.foldl_nil]

end

/-! A launch that leaves with another status than ST_OK raises nothing. -/

section
variable {s : State}

theorem modCore_watch (core : Nat) (f : Core → Core) : (modCore s core f).watch = s.watch := by
  unfold modCore
  split
  · rfl
  · exact modAgent_watch s _ _

theorem freeCtx_watch (k : Nat) : (freeCtx s k).watch = s.watch := by
  unfold freeCtx
  split
  · rfl
  · exact (modCore_watch _ _).trans (modCore_watch _ _)

theorem unbookNext_watch (l : Launch) : (unbookNext s l).watch = s.watch := by
  unfold unbookNext
  split
  · exact modSched_watch s _
  · rfl

theorem walkEnd_watch (walk : Nat) : (walkEnd s walk).watch = s.watch := by
  unfold walkEnd
  split
  · rfl
  · rfl

theorem dropPushes_watch (id : Nat) : (dropPushes s id).watch = s.watch :=
  List.foldlRecOn (motive := fun (u : State) => u.watch = s.watch) _ _ rfl fun _ h p _ => (walkEnd_watch p.walkKey).trans h

theorem leaveOne_watch {status : Nat} (h : status ≠ stOk) (id error : Nat) : (leaveOne s id status error).watch = s.watch := by
  unfold leaveOne
  split
  · rfl
  · rename_i l _
    split
    · rfl
    · simp only [h, false_and, if_false]
      rw [setLaunch_watch]
      refine (dropPushes_watch id).trans ((unbookNext_watch l).trans ?_)
      split
      · exact freeCtx_watch _
      · rfl

/-- The launches that have not completed leave with E_CHIP_FAIL (R451, step 4). -/
def launchesFailed (s : State) : State := s.launches.foldl (fun s x => leaveOne s x.1 stAborted eChipFail) s

theorem launchesFailed_watch : (launchesFailed s).watch = s.watch :=
  List.foldlRecOn (motive := fun (u : State) => u.watch = s.watch) _ _ rfl
    fun _ h x _ => (leaveOne_watch (by decide) x.1 eChipFail).trans h

end

/-! The evacuation. -/

section
variable {s : State} {w : Wr} {ok : Bool}

/-- The reports have ended; whether a launch still had macro-ops out is noted for the record (R451, R453). -/
def reportsEnded (s : State) : State :=
  modWatch (launchesFailed s) fun w => { w with incomplete := s.launches.any (fun x => !isDone x.2 && !x.2.outs.isEmpty) }

theorem reportsEnded_evac :
    (reportsEnded s).watch.evacSize = s.watch.evacSize ∧ (reportsEnded s).watch.evacBase = s.watch.evacBase := by
  rw [reportsEnded, modWatch_watch, launchesFailed_watch]
  exact ⟨rfl, rfl⟩

theorem exec_chipFailReportsEnd (h : Live s = true) (hf : s.glb.frozen = true) (hstep : s.watch.failStep = 4) :
    exec .chipFailReportsEnd s = .next (settle (
      if s.watch.evacSize * 65536 < 675904 then evacEnd (modWatch (reportsEnded s) fun w => { w with evacNobase := true })
      else modWatch (mgrWrite (reportsEnded s) 0x40 s.watch.evacBase.toNat 675904 (evacRecord (reportsEnded s)) .evac).2
        fun w => { w with failStep := 6 })) := by
  obtain ⟨hsize, hbase⟩ := reportsEnded_evac (s := s)
  show execChipFailReportsEnd s = _
  rw [execChipFailReportsEnd, liveRoot_next h, if_neg (by simp [hf, hstep]), ← hsize, ← hbase]
  rfl

/-- The evacuation write is outstanding no more; a fault is noted and raised (R45, R451). -/
def evacAnswered (s : State) (w : Wr) (ok : Bool) : State :=
  if ok then mgrDone s w.txn
  else raiseOn (modGlb (mgrDone s w.txn) fun g => { g with evacWfault := true }) eHostWriteFault none none [(.addr, w.addr)]

theorem exec_evacWriteDone (h : Live s = true) (hw : s.port.writes.find? (fun w => decide (w.kind = .evac)) = some w) :
    exec (.evacWriteDone ok) s = .next (settle (evacEnd (evacAnswered s w ok))) := by
  show execEvacWriteDone ok s = _
  simp only [execEvacWriteDone, liveRoot_next h, hw, evacAnswered]

theorem evacAnswered_writes : (evacAnswered s w ok).port.writes = s.port.writes.filter (fun v => v.txn != w.txn) := by
  unfold evacAnswered
  split
  · rfl
  · obtain ⟨e, l, v, hr⟩ := raiseOn_shape (modGlb (mgrDone s w.txn) fun g => { g with evacWfault := true }) eHostWriteFault none none
      [(.addr, w.addr)]
    rw [hr]
    rfl

theorem evacAnswered_fault : (evacAnswered s w false).glb.evacWfault = true := by
  obtain ⟨e, l, v, hr⟩ := raiseOn_shape (modGlb (mgrDone s w.txn) fun g => { g with evacWfault := true }) eHostWriteFault none none
    [(.addr, w.addr)]
  rw [evacAnswered, if_neg Bool.false_ne_true, hr]
  rfl

end

/-- Settles O56: the fence that ends, then the evacuation with and without a buffer, and its response. -/
theorem fencesAndEvacuation : Obligations.FencesAndEvacuation := by
  intro s h
  refine ⟨?fence, ?reports, ?answer⟩
  case fence =>
    rintro a t u v hf rfl rfl rfl
    refine ⟨exec_fenceReset h hf, rfl, fun hnone => ?_⟩
    have hsame : launchesFenced (fenceEnds s a) a = fenceEnds s a := launchesFenced_none hnone
    have hlaunches := congrArg State.launches hsame
    exact hlaunches
  case reports =>
    rintro t hf hstep rfl
    refine ⟨fun hsmall => ?_, fun hroom => ?_⟩
    · rw [exec_chipFailReportsEnd h hf hstep, if_pos hsmall]
      rfl
    · rw [exec_chipFailReportsEnd h hf hstep, if_neg (Nat.not_lt.mpr hroom)]
      rfl
  case answer =>
    rintro w ok t hw rfl
    obtain ⟨hdone, hstep⟩ := evacEnd_watch (evacAnswered s w ok)
    refine ⟨exec_evacWriteDone h hw, hdone, hstep, evacAnswered_writes, ?_⟩
    rintro rfl
    exact evacAnswered_fault

end Sys2Proof.Proofs.FenceAndEvacuation
end

