-- ==== Sys2Proof/Proofs/Notes.lean ====
section
/-! Steps that are noted alone: what interrupts, audit entries and events of the Watch leave as it was. -/

namespace Sys2Proof.Proofs.Notes
open Sys2Proof Sys2Proof.Machine Sys2Proof.Laws

/-- The second state is the first but for the event port, the audit log and the Watch. -/
def Noted (s u : State) : Prop := ∃ e l w, u = { s with evt := e, log := l, watch := w }

namespace Noted
variable {s u w : State}

theorem refl : Noted s s := ⟨s.evt, s.log, s.watch, rfl⟩

theorem trans (h : Noted s u) (h' : Noted u w) : Noted s w := by
  obtain ⟨e, l, x, rfl⟩ := h
  obtain ⟨e', l', x', rfl⟩ := h'
  exact ⟨e', l', x', rfl⟩

theorem ite {c : Prop} [Decidable c] (h : Noted s u) (h' : Noted s w) : Noted s (if c then u else w) := by
  split
  · exact h
  · exact h'

theorem reqVec (h : Noted s u) (v : Nat) : Noted s (reqVec u v) := by
  obtain ⟨e, he⟩ := reqVec_shape u v
  exact h.trans ⟨e, u.log, u.watch, he⟩

theorem vecsRelease (h : Noted s u) (txn : Nat) : Noted s (vecsRelease u txn) := by
  obtain ⟨e, he⟩ := vecsRelease_shape u txn
  exact h.trans ⟨e, u.log, u.watch, he⟩

theorem audit (h : Noted s u) (o f k c x y : Nat) : Noted s (audit u o f k c x y) := by
  obtain ⟨e, l, ha⟩ := audit_shape u o f k c x y
  exact h.trans ⟨e, l, u.watch, ha⟩

theorem raiseOn (h : Noted s u) (code : Nat) (p a : Option Nat) (n : List (Item × Nat)) : Noted s (raiseOn u code p a n) :=
  h.trans (raiseOn_shape u code p a n)

theorem raise (h : Noted s u) (code : Nat) (p a : Option Nat) : Noted s (raise u code p a) := h.raiseOn code p a []

section
variable (h : Noted s u)
include h

theorem port : u.port = s.port := by obtain ⟨e, l, w, rfl⟩ := h; rfl
theorem svc : u.svc = s.svc := by obtain ⟨e, l, w, rfl⟩ := h; rfl
theorem agents : u.agents = s.agents := by obtain ⟨e, l, w, rfl⟩ := h; rfl
theorem sched : u.sched = s.sched := by obtain ⟨e, l, w, rfl⟩ := h; rfl
theorem stew : u.stew = s.stew := by obtain ⟨e, l, w, rfl⟩ := h; rfl
theorem outf : u.outf = s.outf := by obtain ⟨e, l, w, rfl⟩ := h; rfl
theorem seqs : u.seqs = s.seqs := by obtain ⟨e, l, w, rfl⟩ := h; rfl

end
end Noted
end Sys2Proof.Proofs.Notes
end

