-- ==== Sys2Proof/Proofs/ModeChanges.lean ====
section
/-! Mode changes between Root and agents, the replies of MODE_ABORT, and TICK at an agent (R28, R53, R55, R486–R490). -/

namespace Sys2Proof.Proofs.ModeChanges
open Sys2Proof Sys2Proof.Machine Sys2Proof.Laws Sys2Proof.Proofs.Layout Sys2Proof.Proofs.EventPort Sys2Proof.Proofs.AdminRows
  Sys2Proof.Proofs.AdminService Sys2Proof.Proofs.Notes

/-! The end of a mode change. -/

section
variable (s : State) (r k : Nat) (ev : Bool) (lag : W64)

/-- Telling the agents changes the links alone. -/
theorem mcTell_shape (sub : Nat) : ∃ l, mcTell s sub = { s with links := l } := by
  refine List.foldlRecOn (motive := fun (u : State) => ∃ l, u = { s with links := l }) _ _ ⟨s.links, rfl⟩ ?_
  rintro u ⟨l, rfl⟩ a -
  exact ⟨_, sendDown_eq⟩

/-- The mode change is IDLE with its result and who lagged, and no core of the Root is staged (R487). -/
def mcIdle : State :=
  { s with
    svc := { s.svc with mc := { s.svc.mc with state := 0, result := r, lag := lag, rootLag := k, acked := [] } }
    cores := s.cores.map (fun (x : Nat × Core) => (x.1, { x.2 with staged := false })) }

/-- The end of a mode change is noted, and nothing else follows. -/
theorem modeEnd_noted : Noted (mcIdle s r k lag) (modeEnd s r ev lag k) := by
  unfold modeEnd
  refine Noted.reqVec ?_ 4361
  have haudit (c : Nat) : Noted (mcIdle s r k lag) (audit (mcIdle s r k lag) 7 Config.fnNone 7 c s.svc.mc.number s.svc.mc.tick) :=
    Noted.refl.audit ..
  exact .ite ((haudit _).raise ..) (haudit _)

/-- What an abort leaves: the mode change IDLE, the links with the agents told (R487, R488). -/
theorem mcAbort_shape : ∃ l, Noted (mcIdle { s with links := l } r k lag) (mcAbort s r lag k) := by
  obtain ⟨l, hl⟩ := mcTell_shape s 3
  refine ⟨l, ?_⟩
  rw [mcAbort, hl]
  exact modeEnd_noted ..

theorem mcAbort_svc : (mcAbort s r lag k).svc =
    { s.svc with mc := { s.svc.mc with state := 0, result := r, lag := lag, rootLag := k, acked := [] } } := by
  obtain ⟨l, h⟩ := mcAbort_shape s r k lag
  exact h.svc

theorem mcAbort_port : (mcAbort s r lag k).port = s.port := by
  obtain ⟨l, h⟩ := mcAbort_shape s r k lag
  exact h.port

end

/-! Replies of the executor. -/

section
variable {s : State} {q st x d o : Nat} {pkt : W512}

/-- The reply to a command of queue q, with its status, is the one write added (R87, R89). -/
def Replied (s : State) (q : Nat) (pkt : W512) (st : Nat) (t : State) : Prop :=
  ∃ w, t.port.writes = s.port.writes ++ [w] ∧ nbits w.data 16 8 = st ∧ w.kind = .reply q (bitOf pkt 8)

/-- STATUS stands in bits 23 to 16 of a reply (R89). -/
theorem reply_status (tag : Nat) (l : List (Nat × Nat)) (h : st < 256) : nbits (pack ((16, tag) :: (8, st) :: l)) 16 8 = st := by
  rw [nbits_pack_tail (by decide), nbits_pack_head]
  exact Nat.mod_eq_of_lt h

theorem admReply_replied (h : st < 256) : Replied s q pkt st (admReply s q pkt st x d) :=
  ⟨_, rfl, reply_status _ _ h, rfl⟩

theorem admAudit_noted (rejected : Bool) : Noted s (admAudit s q pkt rejected st x d) := Noted.refl.audit ..

theorem Replied.of_noted {u t : State} (h : Noted s u) (ht : Replied u q pkt st t) : Replied s q pkt st t := by
  rwa [Replied, h.port] at ht

theorem admOk_replied : Replied s q pkt stOk (admOk s q pkt x d) :=
  (admReply_replied (by decide)).of_noted (admAudit_noted false)

theorem admReject_replied (h : st < 256) : Replied s q pkt st (admReject s q pkt st x d) :=
  (admReply_replied h).of_noted (admAudit_noted true)

theorem admReject_svc : (admReject s q pkt st x d).svc = s.svc := by
  obtain ⟨t, p, e, l, h⟩ := admReject_shape s q pkt st x d
  rw [h]

end

/-! MODE_ABORT (R490). -/

section
variable {s : State} {pkt : W512} {o : Nat}

theorem exec_modeAbort_illegal (h : AdmTakes s 0x51 0x40 pkt = true) (hb : badField pkt [] [] = none)
    (hno : s.svc.mc.state ≠ 1 ∨ s.svc.mc.number ≠ pktObj pkt) :
    exec (.modeAbort 0x40 pkt) s = .next (settle (admReject (Flown s 0x40 pkt) 0x40 pkt stIllegalState 0xFF 0)) :=
  admRow_next (admTakes_turn h) fun hc ho => by
    simp only [admPerform, hc, ho, opModeAbort, hb, svc_flown]
    exact if_neg fun ⟨hstate, hnumber, _⟩ => hno.elim (· hstate) (· hnumber)

theorem exec_modeAbort_badParam (h : AdmTakes s 0x51 0x40 pkt = true) (hb : badField pkt [] [] = some o) :
    exec (.modeAbort 0x40 pkt) s = .next (settle (admReject (Flown s 0x40 pkt) 0x40 pkt stBadParam 0xFF o)) :=
  admRow_next (admTakes_turn h) fun hc ho => by
    simp only [admPerform, hc, ho, opModeAbort, hb]

/-- A command of the manager's opcodes is denied to a partition's queue (R92, R96). -/
theorem admCheck_denied {q : Nat} (hq : q < 64) (hop : pktOp pkt = 0x51) (hf : pktFlags pkt < 4) :
    admCheck q pkt = some (stDenied, 4) := by
  rw [admCheck, hop, if_neg (by decide), if_neg (Nat.not_le.mpr hf), if_pos ⟨hq, by decide⟩]

end

/-- Settles O4: MODE_ABORT as it aborts, as it finds another state, as its PARAMS are not 0, and as a partition gives it. -/
theorem modeAbortReplies : Obligations.ModeAbortReplies := by
  refine ⟨fun s pkt h => ⟨fun hb hstate hnumber => ?aborts, fun hb hno => ?illegal, fun o hb => ?bad⟩,
    fun q pkt hq hop hf => admCheck_denied hq hop hf⟩
  case aborts =>
    obtain ⟨w, hw, hst, hk⟩ := admOk_replied (s := Flown s 0x40 pkt) (q := 0x40) (pkt := pkt) (x := 0xFF) (d := 0)
    exact ⟨_, w, exec_modeAbort h hb hstate hnumber, by rw [mcAbort_port, hw]; rfl, hst, hk, by rw [mcAbort_svc]⟩
  case illegal =>
    obtain ⟨w, hw, hst, hk⟩ := admReject_replied (s := Flown s 0x40 pkt) (q := 0x40) (pkt := pkt) (x := 0xFF) (d := 0)
      (show stIllegalState < 256 by decide)
    exact ⟨_, w, exec_modeAbort_illegal h hb hno, hw, hst, hk, admReject_svc⟩
  case bad =>
    obtain ⟨w, hw, hst, hk⟩ := admReject_replied (s := Flown s 0x40 pkt) (q := 0x40) (pkt := pkt) (x := 0xFF) (d := o)
      (show stBadParam < 256 by decide)
    exact ⟨_, w, exec_modeAbort_badParam h hb, hw, hst, hk, admReject_svc⟩

/-! Staging at an agent and its answer. -/

section
variable {s : State} {a n num tick lat r c e : Nat} {its : BitVec 384} {ok : Bool}

/-- The change is put down at the agent and its core staged (R486, R278). -/
def stagedAt (s : State) (a n num tick : Nat) (its : BitVec 384) : State :=
  modAgent (takeDown s a) a fun g => { g with
    mode := { staged := true, number := num, tick := tick, its := its, items := n }, core := { g.core with staged := true } }

/-- The agent has answered; an acknowledgement keeps the latency measured. -/
def answeredAt (s : State) (a r lat : Nat) : State :=
  let u := modAgent s a fun g => { g with mode := { g.mode with acked := true, latency := lat } }
  if r = 1 then modSvc u fun v => { v with recal := kput v.recal a lat } else u

theorem getAgent_stagedAt : getAgent (stagedAt s a n num tick its) a = { getAgent s a with
    mode := { staged := true, number := num, tick := tick, its := its, items := n }
    core := { (getAgent s a).core with staged := true } } := by
  rw [stagedAt, getAgent_modAgent_self, getAgent_takeDown]

theorem exec_stage (h : AgLive s a = true) (hhead : downHead s a = some (.modeStage 1 n num tick its)) :
    exec (.stage a ok lat) s = .next (settle (
      match agentAnswer (getAgent (stagedAt s a n num tick its) a) ok lat with
      | none => stagedAt s a n num tick its
      | some (r, c, e) => sendUp (answeredAt (stagedAt s a n num tick its) a r lat) a (.modeAck r c e num))) := by
  have hgo : ¬ (¬ (getAgent (stagedAt s a n num tick its) a).mode.staged = true ∨
      (getAgent (stagedAt s a n num tick its) a).mode.acked = true) := by
    rw [getAgent_stagedAt]
    simp
  have hnum : (getAgent (stagedAt s a n num tick its) a).mode.number = num := by rw [getAgent_stagedAt]
  show execStage a ok lat s = _
  rw [execStage, liveAgent_next h]
  simp only [hhead]
  rw [← stagedAt, if_neg hgo, hnum]
  rfl

end

/-! Acknowledgements and the deadline at the Root. -/

section
variable {s : State} {a c e num : Nat}

theorem exec_modeAck_counts (h : Live s = true) (hstate : s.svc.mc.state = 1) (hnum : s.svc.mc.number = num)
    (hhead : upHead s a = some (.modeAck 1 c e num)) : exec (.modeAck a) s = .next (settle (modSvc (takeUp s a) fun v =>
      { v with mc := { v.mc with acked := insertNat v.mc.acked a } })) := by
  have hgo : ¬ ((takeUp s a).svc.mc.state ≠ 1 ∨ (takeUp s a).svc.mc.number ≠ num) := by
    rw [takeUp_eq]
    simp [hstate, hnum]
  show execModeAck a s = _
  simp only [execModeAck, liveRoot_next h, hhead, if_neg hgo, if_true]

theorem exec_modeAck_refuses (h : Live s = true) (hstate : s.svc.mc.state = 1) (hnum : s.svc.mc.number = num)
    (hhead : upHead s a = some (.modeAck 2 c e num)) :
    exec (.modeAck a) s = .next (settle (mcAbort (takeUp s a) 3 (BitVec.ofNat 64 (2 ^ a)) 0)) := by
  have hgo : ¬ ((takeUp s a).svc.mc.state ≠ 1 ∨ (takeUp s a).svc.mc.number ≠ num) := by
    rw [takeUp_eq]
    simp [hstate, hnum]
  show execModeAck a s = _
  simp only [execModeAck, liveRoot_next h, hhead, if_neg hgo]
  rfl

/-- The agents that take part and have not acknowledged; the Root's cores that do not (R487). -/
def agentsLagging (s : State) : List Nat := (mcAgents s).filter fun a => !s.svc.mc.acked.contains a
def coresLagging (s : State) : List Nat := (mcCores s).filter fun c => !coreAcks s c

theorem exec_modeDeadline_commits (h : Live s = true) (hstate : s.svc.mc.state = 1) (ha : agentsLagging s = [])
    (hc : coresLagging s = []) : exec .modeDeadline s = .next (settle (mcTell (modeAudit
      { s with svc := { s.svc with mc := { s.svc.mc with state := 2 } } } 2) 2)) := by
  have hall : (agentsLagging s).isEmpty = true ∧ (coresLagging s).isEmpty = true := by rw [ha, hc]; exact ⟨rfl, rfl⟩
  show execModeDeadline s = _
  rw [execModeDeadline, liveRoot_next h, if_neg (not_not.mpr hstate)]
  exact congrArg (fun x => Host.Outcome.next (settle x)) (if_pos hall)

theorem exec_modeDeadline_aborts (h : Live s = true) (hstate : s.svc.mc.state = 1)
    (hlag : agentsLagging s ≠ [] ∨ coresLagging s ≠ []) : exec .modeDeadline s = .next (settle (mcAbort s 2
      (BitVec.ofNat 64 (sumBy (fun a => 2 ^ a) (agentsLagging s))) (sumBy (fun c => 2 ^ (c - 0x300)) (coresLagging s)))) := by
  have hnot : ¬ ((agentsLagging s).isEmpty = true ∧ (coresLagging s).isEmpty = true) := by
    simp only [List.isEmpty_iff, not_and_or]
    exact hlag
  show execModeDeadline s = _
  rw [execModeDeadline, liveRoot_next h, if_neg (not_not.mpr hstate)]
  exact congrArg (fun x => Host.Outcome.next (settle x)) (if_neg hnot)

end

/-! The decision at an agent. -/

section
variable {s : State} {a n num tick : Nat} {its : BitVec 384}

theorem exec_modeCommitOrAbort_commit (h : AgLive s a = true) (hst : (getAgent s a).mode.staged = true)
    (hnum : (getAgent s a).mode.number = num) (hhead : downHead s a = some (.modeStage 2 n num tick its)) :
    exec (.modeCommitOrAbort a) s = .next (settle
      (modAgent (takeDown s a) a fun g => { g with mode := { g.mode with committed := true } })) := by
  show execModeCommitOrAbort a s = _
  simp only [execModeCommitOrAbort, liveAgent_next h, hhead, getAgent_takeDown, hst, hnum, ne_eq, not_true_eq_false, or_self,
    OfNat.ofNat_ne_one, if_false, if_true]

/-- The staged change is gone from the agent (R488). -/
def unstagedAt (s : State) (a : Nat) : State :=
  modAgent (takeDown s a) a fun g => { g with mode := {}, core := { g.core with staged := false } }

theorem getAgent_unstagedAt : getAgent (unstagedAt s a) a =
    { getAgent s a with mode := {}, core := { (getAgent s a).core with staged := false } } := by
  rw [unstagedAt, getAgent_modAgent_self, getAgent_takeDown]

theorem exec_modeCommitOrAbort_abort (h : AgLive s a = true) (hst : (getAgent s a).mode.staged = true)
    (hnum : (getAgent s a).mode.number = num) (hhead : downHead s a = some (.modeStage 3 n num tick its)) :
    exec (.modeCommitOrAbort a) s = .next (settle (agentNext (unstagedAt s a) a)) := by
  show execModeCommitOrAbort a s = _
  simp only [execModeCommitOrAbort, liveAgent_next h, hhead, getAgent_takeDown, hst, hnum, ne_eq, not_true_eq_false, or_self,
    OfNat.ofNat_ne_one, Nat.reduceEqDiff, if_false, unstagedAt]

end

/-! The switch tick at the Root. -/

section
variable {s : State} {i : BitVec 128}

theorem exec_modeSwitch (h : Live s = true) (hstate : s.svc.mc.state = 2) (htick : s.svc.mc.tick ≤ s.sched.tickNo) :
    exec .modeSwitch s = .next (settle (modeEnd (modeApply s) 1 false 0 0)) := by
  show execModeSwitch s = _
  rw [execModeSwitch, liveRoot_next h, modeSwitch, if_pos ⟨hstate, htick⟩]

theorem itemCore_period (hk : itKind i = 1) (core : Nat) : itemCore i core = false := by simp only [itemCore, hk]

/-- An item of another kind than a bank of the Root's leaves the cores out. -/
theorem mcCores_period (hits : s.svc.mc.its = [i]) (hk : itKind i = 1) : mcCores s = [] := by
  rw [mcCores, hits]
  simp [itemCore_period hk]

/-- A new PERIOD is all that a change of this one item applies (R484, R489). -/
theorem modeApply_period (hits : s.svc.mc.its = [i]) (hk : itKind i = 1) :
    modeApply s = modSched s fun c => { c with period := itValue i } := by
  have hcores : mcCores (modSched s fun c => { c with period := itValue i }) = [] := mcCores_period hits hk
  have hrecal (l : List Nat) : l.filter (fun a => [i].any fun j => itKind j == 5 && itAgent j a) = [] := by simp [hk]
  simp only [modeApply, hits, List.foldl_cons, List.foldl_nil, hk, if_true, hcores, hrecal, List.contains_nil, Bool.false_eq_true,
    false_and, if_false]

end

/-! TICK at an agent. -/

section
variable {s : State} {a no period now : Nat}

/-- A TICK has been taken; one that is late is raised with its number (R55). -/
def tickTaken (s : State) (a no now : Nat) : State :=
  if tickInstant (getAgent s a) now + 50 < now then raiseOn (takeDown s a) eTickLate none (some a) [(.tick, no)] else takeDown s a

/-- The tick's number, period and instant stand at the agent, and a staged change acts (R53, R489). -/
def tickSet (s : State) (a no period now : Nat) : State :=
  modAgent (tickTaken s a no now) a fun g =>
    agentSwitch { g with tickNo := no, period := period, tickAt := some (tickInstant (getAgent s a) now) } no

theorem tickTaken_noted : Noted (takeDown s a) (tickTaken s a no now) := .ite (Noted.refl.raiseOn ..) .refl

theorem exec_tick (h : AgLive s a = true) (hhead : downHead s a = some (.tick no period)) :
    exec (.tick a now) s = .next (settle (agentNext (tickSet s a no period now) a)) := by
  show execTick a now s = _
  simp only [execTick, liveAgent_next h, hhead, getAgent_takeDown, tickSet, tickTaken]

/-- An agent that has staged no change takes the tick alone. -/
theorem getAgent_tickSet (hst : (getAgent s a).mode.staged = false) : getAgent (tickSet s a no period now) a =
    { getAgent s a with tickNo := no, period := period, tickAt := some (tickInstant (getAgent s a) now) } := by
  have hagent : getAgent (tickTaken s a no now) a = getAgent s a := by
    rw [getAgent, tickTaken_noted.agents]
    exact getAgent_takeDown s a a
  rw [tickSet, getAgent_modAgent_self, hagent, agentSwitch, if_pos (Or.inl (by simp [hst]))]

end

/-- Settles O57: staging and its answer, the acknowledgements, the deadline, the decision, the switch tick, then TICK. -/
theorem modeChange : Obligations.ModeChange := by
  refine ⟨⟨?stage, ?ack, ?deadline, ?decision, ?switch⟩, ?tick⟩
  case stage =>
    rintro s t a n num tick lat its ok h hhead rfl
    refine ⟨fun hnone => ?_, ?_, ?_, ?_⟩
    · rw [exec_stage h hhead, stagedAt, hnone]
    · rintro r c e u hsome rfl
      rw [exec_stage h hhead, stagedAt, hsome]
      rfl
    · exact congrArg (fun g : Agent => g.mode.its) getAgent_stagedAt
    · exact congrArg (fun g : Agent => g.core.staged) getAgent_stagedAt
  case ack =>
    exact fun s a c e num h hstate hnum => ⟨exec_modeAck_counts h hstate hnum, exec_modeAck_refuses h hstate hnum⟩
  case deadline =>
    rintro s lag rlag h hstate rfl rfl
    refine ⟨exec_modeDeadline_commits h hstate, exec_modeDeadline_aborts h hstate, fun r l k => ?_⟩
    rw [mcAbort_svc]
    exact ⟨rfl, rfl⟩
  case decision =>
    intro s t a n num tick its h hst hnum
    refine ⟨exec_modeCommitOrAbort_commit h hst hnum, ?_⟩
    rintro hhead rfl
    exact ⟨exec_modeCommitOrAbort_abort h hst hnum hhead, getAgent_unstagedAt⟩
  case switch =>
    intro s t h hstate htick ht
    have hend : Noted (mcIdle (modeApply s) 1 0 0) t := by
      rw [ht]
      exact modeEnd_noted ..
    refine ⟨?_, ?_, ?_, fun i hits hk => ?_⟩
    · rw [exec_modeSwitch h hstate htick, ht]
    · rw [hend.svc]
      rfl
    · rw [hend.svc]
      rfl
    · rw [hend.sched, modeApply_period hits hk]
      rfl
  case tick =>
    rintro s t u a no period now at_ h hhead rfl rfl rfl
    refine ⟨exec_tick h hhead, tickTaken_noted.sched, getAgent_tickSet, fun k hk => ?_⟩
    rw [tickInstant, hk]

end Sys2Proof.Proofs.ModeChanges
end

