-- ==== Sys2Proof/Proofs/WalkRoots.lean ====
section
/-! Walks at their start, the cache of root words, table swaps and the reclaim of old epochs (R382–R391). -/

namespace Sys2Proof.Proofs.WalkRoots
open Sys2Proof Sys2Proof.Machine Sys2Proof.Laws Sys2Proof.Proofs.EventPort Sys2Proof.Proofs.BringUp Sys2Proof.Proofs.PortAccess
  Sys2Proof.Proofs.Resets Sys2Proof.Proofs.ManagerWrites Sys2Proof.Proofs.Layout Sys2Proof.Proofs.Notes

/-! Walks at their start. -/

section
variable {s : State} {tag : Nat} {p : Push} {l : Launch} {w : W64}

/-- The root key of a walk: its partition and sequence (R382). -/
def rootKey (l : Launch) (p : Push) : Nat := l.part * 65536 + mSeq p.mop

theorem exec_walkStart (h : Live s = true)
    (hp : s.pushes.find? (fun p => p.tag == tag && isWalk p && decide (p.walked ≠ 2)) = some p) (hf : s.glb.frozen = false)
    (hwant : p.want = 0) (hroom : canPush s (aheadOf s p) { p with walked := 2 } = true) :
    exec (.walkStart tag) s = .next (settle (walkTry s p)) := by
  have hgo : ¬ (s.glb.frozen = true ∨ p.want ≠ 0 ∨ ¬ canPush s (aheadOf s p) { p with walked := 2 } = true) := by
    rw [hroom]
    simp [hf, hwant]
  show execWalkStart tag s = _
  simp only [execWalkStart, liveRoot_next h, hp, if_neg hgo]

theorem walkTry_unconfigured (hl : kget s.launches p.launch = some l) (hcnt : (getSeqs s l.part).cnt ≤ mSeq p.mop) :
    walkTry s p = walkSkip s p eAttnRoot := by
  simp only [walkTry, hl, if_pos hcnt]

/-- The read of a root word is out: the one under way, or a new one, which is a miss (R383). -/
def rootAsked (s : State) (l : Launch) (p : Push) : State :=
  if s.attn.reading.contains (rootKey l p) then s
  else mgrRead { s with attn := { s.attn with
    reading := insertNat s.attn.reading (rootKey l p), misses := satN 16 (s.attn.misses + 1) } }
    l.part ((getSeqs s l.part).base.toNat + 8 * mSeq p.mop) 8 (.root (rootKey l p))

theorem walkTry_uncached (hl : kget s.launches p.launch = some l) (hcnt : mSeq p.mop < (getSeqs s l.part).cnt)
    (hw : rootGet s (rootKey l p) = none) :
    walkTry s p = setPush (rootAsked s l p) p { p with walked := 1, want := 0 } := by
  rw [rootKey] at hw
  simp only [walkTry, hl, if_neg (Nat.not_le.mpr hcnt), hw]
  rfl

theorem mem_rootAsked : rootKey l p ∈ (rootAsked s l p).attn.reading := by
  unfold rootAsked
  split
  · rename_i hin
    exact List.contains_iff_mem.mp hin
  · exact mem_insertNat_self _ _

/-- A first start whose word is cached is a hit; bit 63 at 0 names no table (R384, R386). -/
theorem walkTry_noTable (hl : kget s.launches p.launch = some l) (hcnt : mSeq p.mop < (getSeqs s l.part).cnt)
    (hw : rootGet s (rootKey l p) = some w) (hfirst : p.walked = 0) (hbit : bitOf w 63 = false) :
    walkTry s p = walkSkip { rootPut s (rootKey l p) w with attn := { (rootPut s (rootKey l p) w).attn with
      hits := satN 16 ((rootPut s (rootKey l p) w).attn.hits + 1) } } p eAttnRoot := by
  rw [rootKey] at hw ⊢
  simp only [walkTry, hl, if_neg (Nat.not_le.mpr hcnt), hw, hfirst, hbit, Bool.false_eq_true, not_false_eq_true, if_true]

end

/-! The cache of root words. -/

section
variable {s : State} {p seq rk : Nat} {word w : W64}

/-- The read of a root word has ended. -/
def rootAnswered (s : State) (rk : Nat) : State :=
  readDone { s with attn := { s.attn with reading := without s.attn.reading rk } } (.root rk)

/-- The word read is cached, unless the cache holds one by now (R383, R390). -/
def rootCached (s : State) (rk : Nat) (word : W64) : State := if (rootGet s rk).isSome then s else rootPut s rk word

theorem exec_rootCacheFill {ok : Bool} (h : Live s = true) (hr : s.attn.reading.contains (p * 65536 + seq) = true) :
    exec (.rootCacheFill p seq ok word) s = .next (settle (
      if ok then retryRoot (rootCached (rootAnswered s (p * 65536 + seq)) (p * 65536 + seq) word) (p * 65536 + seq) true
      else retryRoot (rootAnswered s (p * 65536 + seq)) (p * 65536 + seq) false)) := by
  show execRootCacheFill p seq ok word s = _
  rw [execRootCacheFill, liveRoot_next h, if_neg (not_not.mpr hr)]
  rfl

theorem rootGet_rootPut : rootGet (rootPut s rk word) rk = some word := by
  have hfind (l : List (Nat × W64)) (hl : ∀ x ∈ l, x.1 ≠ rk) :
      ((l ++ [(rk, word)]).find? fun x => x.1 == rk).map Prod.snd = some word := by
    rw [List.find?_append, List.find?_eq_none.mpr fun x hx => by simpa using hl x hx]
    simp
  have hkeep : ∀ x ∈ s.attn.roots.filter (fun x => x.1 != rk), x.1 ≠ rk := fun x hx => by simpa using List.of_mem_filter hx
  refine hfind _ fun x hx => ?_
  split at hx
  · exact hkeep x (List.mem_of_mem_drop hx)
  · exact hkeep x hx

theorem rootGet_rootCached (hn : rootGet s rk = none) : rootGet (rootCached s rk word) rk = some word := by
  rw [rootCached, hn]
  exact rootGet_rootPut

theorem rootCached_pushes : (rootCached s rk word).pushes = s.pushes := by
  unfold rootCached
  split <;> rfl

theorem retryRoot_noPush {ok : Bool} (hp : s.pushes = []) : retryRoot s rk ok = s := by
  rw [retryRoot, hp]
  rfl

end

/-! Table swaps. -/

section
variable {s : State} {p : Nat} {table : W32} {kindOk : Bool} {root : W64}

/-- The high word of PWIN_PTSWAP of a partition (R390, R467). -/
def swapAddr (p : Nat) : Nat := 0x100E4 + p * 0x1000

/-- The sequence that the low word written last names. -/
def swapSeq (s : State) (p : Nat) : Nat := ((halfGet s.port.wlatch (0x100E0 + p * 0x1000)).getD 0).toNat % 65536

theorem regionOf_swapAddr (hp : p < 64) : regionOf (swapAddr p) = (.pwin p, 0xE4) := by
  have hdiv : (0x100E4 + p * 0x1000 - 0x10000) / 0x1000 = p := by omega
  have hmod : (0x100E4 + p * 0x1000) % 0x1000 = 0xE4 := by omega
  unfold regionOf swapAddr
  rw [if_neg (by omega), if_neg (by omega), if_pos (by omega), hdiv, hmod]

/-- The word at 0x0E4 is the high one of PWIN_PTSWAP. -/
theorem regHolding_swap (hst : (getPart s p).st = .active) : regHolding s (.pwin p) 0xE4 = some (0xE0, true, 0) := by
  have hlive : ¬ (getPart s p).st = .free := by simp [hst]
  simp only [regHolding, regAt, regPwin, if_neg hlive]
  rfl

/-- The commit of a swap takes its table from the word written and its sequence from the low word before it (R390). -/
theorem wrPwin_swap {low : W32} {addr : Nat} (hst : (getPart s p).st = .active) :
    wrPwin s p 0xE0 { fn := 0x40, addr := addr, v := low.toNat + 2 ^ 32 * table.toNat, ext := root, flag := kindOk } =
      ptSwap s p (low.toNat % 65536) table.toNat kindOk root := by
  have hlive : ¬ (getPart s p).st = .free := by simp [hst]
  have hlow : nbits (low.toNat + 2 ^ 32 * table.toNat) 0 16 = low.toNat % 65536 := by
    simp only [nbits, Nat.shiftRight_zero]
    omega
  have hhigh : nbits (low.toNat + 2 ^ 32 * table.toNat) 32 32 = table.toNat := by
    simp only [nbits, Nat.shiftRight_eq_div_pow]
    omega
  simp only [wrPwin, if_neg hlive, WrReq.f, hlow, hhigh]
  rfl

theorem writeReg_swap {s t : State} (ht : t = taken s 0x40 (swapAddr p) table) (hst : (getPart s p).st = .active) :
    writeReg t (.pwin p) 0xE4 (wr32 0x40 (swapAddr p) table) root kindOk =
      respond (ptSwap t p (swapSeq s p) table.toNat kindOk root) 0 := by
  have hactive : (getPart t p).st = .active := by rw [ht]; exact hst
  have hbase : (wr32 0x40 (swapAddr p) table).addr - 0xE4 + 0xE0 = 0x100E0 + p * 0x1000 := by
    show 0x100E4 + p * 0x1000 - 0xE4 + 0xE0 = _
    omega
  have hshape : shaped (wr32 0x40 (swapAddr p) table) 4 = true := shaped_wr32 (by unfold swapAddr; omega)
  have hlatch : t.port.wlatch = s.port.wlatch := by rw [ht]; rfl
  have hfn : (wr32 0x40 (swapAddr p) table).fn = 0x40 := rfl
  simp only [writeReg, regHolding_swap hactive, hshape, hbase, hlatch, hfn, wr32_data, Bool.not_false, Bool.and_self, if_true,
    not_true_eq_false, if_false, regWrite, show ¬ (0xE4 : Nat) = 0xE0 by decide]
  exact congrArg (respond · 0) (wrPwin_swap hactive)

theorem exec_ptSwap (h : Takes s = true) (hp : p < 64) (hst : (getPart s p).st = .active) :
    exec (.ptSwap 0x40 p table kindOk root) s = .next (settle (respond
      (ptSwap (taken s 0x40 (swapAddr p) table) p (swapSeq s p) table.toNat kindOk root) 0)) := by
  obtain ⟨hopen, hroom⟩ := takes_parts h
  have hr : isReady (taken s 0x40 (swapAddr p) table) = true := takes_ready (s := s) h
  have hregion : regionOf (wr32 0x40 (swapAddr p) table).addr = (.pwin p, 0xE4) := regionOf_swapAddr hp
  have hadmits : admits (taken s 0x40 (swapAddr p) table) (.pwin p) 0xE4 (wr32 0x40 (swapAddr p) table).fn true = true := rfl
  have hwr : (wr32 0x40 (swapAddr p) table).wr = true := rfl
  have hserve : serveAccess (taken s 0x40 (swapAddr p) table) (wr32 0x40 (swapAddr p) table) root kindOk =
      respond (ptSwap (taken s 0x40 (swapAddr p) table) p (swapSeq s p) table.toNat kindOk root) 0 := by
    rw [← writeReg_swap rfl hst]
    simp only [serveAccess, hregion, hr, hadmits, hwr, not_true_eq_false, false_and, if_false, if_true]
  have hmax : swapAddr p < 2 ^ 26 := by unfold swapAddr; omega
  show execPtSwap 0x40 p table kindOk root s = _
  rw [execPtSwap, Nat.mod_eq_of_lt hp, liveRoot_next (takes_live h)]
  exact congrArg (fun u => Host.Outcome.next (settle u)) ((subAccess_open hopen hmax hroom).trans hserve)

theorem ptSwap_busy {seq : Nat} (hb : (getSeqs s p).busy = true) :
    ptSwap s p seq table.toNat kindOk root = modSeqs s p fun q => { q with dropped := true } := by
  simp only [ptSwap, hb, if_true]

/-- A swap that passes its checks (R390): no reclaim flag named, the root word not cached, the new epoch used by no walk. -/
structure SwapPasses (s : State) (p seq : Nat) (table : W32) (kindOk : Bool) (root : W64) : Prop where
  active : (getPart s p).st = .active
  idle : (getSeqs s p).busy = false
  configured : seq < (getSeqs s p).cnt
  kind : table = 0 ∨ kindOk = true
  noReclaim : (getSeqs s p).rcl = 0
  uncached : rootGet s (p * 65536 + seq) = none
  unused : tget 0 s.attn.walks ((p * 65536 + seq) * 65536 + (fld root 32 16 + 1) % 65536) = 0

/-- The new root word is cached and its write is out (R390). -/
def swapWritten (s : State) (p seq : Nat) (table : W32) (root : W64) : State :=
  (mgrWrite (rootPut s (p * 65536 + seq) (BitVec.ofNat 64
    (table.toNat + put ((fld root 32 16 + 1) % 65536) 32 + put (b2n (decide (table.toNat ≠ 0))) 63))) p
    ((getSeqs s p).base.toNat + 8 * seq) 8
    (table.toNat + put ((fld root 32 16 + 1) % 65536) 32 + put (b2n (decide (table.toNat ≠ 0))) 63) (.root p)).2

theorem ptSwap_passes {seq : Nat} (h : SwapPasses s p seq table kindOk root) : ptSwap s p seq table.toNat kindOk root =
    modSeqs (swapWritten s p seq table root) p fun q => { q with busy := true, newEpoch := (fld root 32 16 + 1) % 65536 } := by
  have hkind : ¬ (table.toNat ≠ 0 ∧ ¬ kindOk = true) := by
    rintro ⟨hne, hbad⟩
    exact h.kind.elim (fun hz => hne (by simp [hz])) hbad
  have hstate : ¬ ((getPart s p).st ≠ .maint ∧ (getPart s p).st ≠ .active) := fun hno => hno.2 h.active
  simp only [ptSwap, h.idle, h.noReclaim, h.uncached, h.unused, if_neg hstate, if_neg (Nat.not_le.mpr h.configured), if_neg hkind,
    Bool.false_eq_true, if_false, beq_self_eq_true, Bool.true_or, not_true_eq_false, ne_eq, Option.getD_none]
  rfl

/-- The partition is busy with the new epoch, and the root word is the one write added (R390). -/
theorem ptSwap_passes_writes {seq : Nat} (h : SwapPasses s p seq table kindOk root) :
    (getSeqs (ptSwap s p seq table.toNat kindOk root) p).busy = true ∧
    (getSeqs (ptSwap s p seq table.toNat kindOk root) p).newEpoch = (fld root 32 16 + 1) % 65536 ∧
    (ptSwap s p seq table.toNat kindOk root).port.writes = s.port.writes ++ [{
      txn := s.port.nextTxn, fn := p, pasid := pasidOf s p, addr := ((getSeqs s p).base.toNat + 8 * seq) % 2 ^ 64, len := 8
      data := table.toNat + put ((fld root 32 16 + 1) % 65536) 32 + put (b2n (decide (table.toNat ≠ 0))) 63, kind := .root p }] := by
  rw [ptSwap_passes h, getSeqs_modSeqs_self]
  exact ⟨rfl, rfl, rfl⟩

end

/-! The response of a swap's write, and the reclaim of an old epoch. -/

section
variable {s : State} {p seq epoch h : Nat} {w : Wr}

theorem swapAnswer_noted : Noted (mgrDone s w.txn) (vecsRelease (mgrDone s w.txn) w.txn) := Noted.refl.vecsRelease w.txn

theorem getSeqs_swapAnswer : getSeqs (vecsRelease (mgrDone s w.txn) w.txn) p = getSeqs s p := by
  rw [getSeqs, swapAnswer_noted.seqs]
  rfl

theorem modSeqs_congr {f g : Seqs → Seqs} (h : f (getSeqs s p) = g (getSeqs s p)) : modSeqs s p f = modSeqs s p g := by
  rw [modSeqs, h, modSeqs]

theorem exec_ptSwapWriteDone (hl : Live s = true) (hw : s.port.writes.find? (fun w => w.kind == .root p) = some w)
    (hb : (getSeqs s p).busy = true) :
    exec (.ptSwapWriteDone p) s = .next (settle (modSeqs (vecsRelease (mgrDone s w.txn) w.txn) p
      fun q => { q with busy := false, result := 0, epoch := (getSeqs s p).newEpoch })) := by
  show execPtSwapWriteDone p s = _
  simp only [execPtSwapWriteDone, liveRoot_next hl, hw]
  rw [modSeqs_congr]
  rw [getSeqs_swapAnswer, if_pos hb]

theorem exec_epochReclaim (hl : Live s = true) (hr : tget 0 s.attn.reclaim ((p * 65536 + seq) * 65536 + epoch) = h + 1)
    (hw : tget 0 s.attn.walks ((p * 65536 + seq) * 65536 + epoch) = 0) :
    exec (.epochReclaim p seq epoch) s = .next (settle (queueSigs
      { s with attn := { s.attn with reclaim := tput 0 s.attn.reclaim ((p * 65536 + seq) * 65536 + epoch) 0 } }
      [{ src := 100, part := p, handle := h, op := 0, x := 1, launch := 0 }])) := by
  show execEpochReclaim p seq epoch s = _
  simp only [execEpochReclaim, liveRoot_next hl, hr, hw, ne_eq, not_true_eq_false, if_false]

end

/-- Settles O49: a walk by its root word, the fill of the cache, a swap and its response, the reclaim of an epoch. -/
theorem walksAndRoots : Obligations.WalksAndRoots := by
  refine ⟨?walk, ?fill, ?swap, ?done, fun s p seq epoch h hl hr hw => exec_epochReclaim hl hr hw⟩
  case walk =>
    intro s tag p l h hp hf hwant hroom hl
    refine ⟨fun hcnt => ?_, ?_, ?_⟩
    · rw [exec_walkStart h hp hf hwant hroom, walkTry_unconfigured hl hcnt]
    · rintro hcnt hw t rfl
      refine ⟨?_, mem_rootAsked⟩
      rw [exec_walkStart h hp hf hwant hroom, walkTry_uncached hl hcnt hw]
      rfl
    · rintro w t hcnt hw hfirst hbit rfl
      rw [exec_walkStart h hp hf hwant hroom, walkTry_noTable hl hcnt hw hfirst hbit]
      rfl
  case fill =>
    rintro s t u p seq word h hr rfl rfl
    exact ⟨exec_rootCacheFill h hr, exec_rootCacheFill h hr, rootGet_rootCached (s := rootAnswered s (p * 65536 + seq)),
      fun hp => retryRoot_noPush (rootCached_pushes.trans hp)⟩
  case swap =>
    rintro s t u p low ep table kindOk root h hp hst rfl rfl rfl rfl
    refine ⟨exec_ptSwap h hp hst, fun hb => ptSwap_busy (s := taken s 0x40 (swapAddr p) table) hb,
      fun hidle hcnt hkind hrcl hroot hwalks => ?_⟩
    have hpass : SwapPasses (taken s 0x40 (swapAddr p) table) p (swapSeq s p) table kindOk root :=
      ⟨hst, hidle, hcnt, hkind, hrcl, hroot, hwalks⟩
    exact ptSwap_passes_writes hpass
  case done =>
    rintro s t p w h hw hb rfl
    refine ⟨exec_ptSwapWriteDone h hw hb, ?_⟩
    rw [getSeqs_modSeqs_self, getSeqs_swapAnswer]

end Sys2Proof.Proofs.WalkRoots
end

