-- ==== Sys2Proof/Proofs/MergesAndBasin.lean ====
section
/-! Merges of partial records in the Outfall (R405–R411, R507) and the macro-ops that the Basin holds (R398–R402). -/

namespace Sys2Proof.Proofs.MergesAndBasin
open Sys2Proof Sys2Proof.Machine Sys2Proof.Laws Sys2Proof.Proofs.Notes

/-! A record. -/

section
variable {s : State} {a eq tag launch id : Nat} {r : W512} {m : Merge}

/-- A record counts one shard of its slot in every case of R408. -/
theorem mergeRec_n (t : MSlot) (r : W512) : (mergeRec t r).1.n = t.n + 1 := by
  unfold mergeRec
  dsimp only
  split
  next h0 => rw [h0]
  next =>
    split
    · rfl
    · split
      · rfl
      · rfl

/-- A record taken changes flags of its partition, which no merge holds. -/
theorem outFlags_shape (s : State) (m : Merge) (fl : Nat) : ∃ t, outFlags s m fl = { s with parts := t } := by
  unfold outFlags
  split
  · exact ⟨s.parts, rfl⟩
  · exact ⟨_, rfl⟩

theorem exec_partialRec (h : Live s = true) (hhead : upHead s a = some (.partialRec eq tag launch r)) (hup : agtUp s a = true)
    (hf : s.glb.frozen = false) : exec (.partialRec a) s = .next (settle (takeRec (takeUp s a) eq tag
      (launchNamed s launch fun l => l.outs.any fun o => o.eq == eq && o.tag == tag) r)) := by
  show execPartialRec a s = _
  simp only [execPartialRec, liveRoot_next h, hhead, hup, hf, Bool.false_eq_true, not_false_eq_true, and_self, if_true]

/-- The slot of a record in its merge's output (R406, R409). -/
def slotOf (r : W512) : Nat := prRow r * 64 + prSlice r

/-- A record that its slot takes without being completed by it (R408). -/
structure MergesOpen (m : Merge) (r : W512) : Prop where
  row : prRow r < m.dim0
  slice : prSlice r < m.dim1 / 8
  running : m.failed = false
  unfinished : (tget {} m.slots (slotOf r)).final = false
  more : (tget {} m.slots (slotOf r)).n + 1 < m.nshard

/-- The merge with the record in its slot. -/
def mergedInto (m : Merge) (r : W512) : Merge :=
  { m with slots := tput {} m.slots (slotOf r) (mergeRec (tget {} m.slots (slotOf r)) r).1 }

/-- The record has been counted and stands in its slot. -/
def recordTaken (s : State) (key : Nat) (m : Merge) (r : W512) : State :=
  let u := outFlags s m (mergeRec (tget {} m.slots (slotOf r)) r).2
  setMerge { u with outf := { u.outf with merged := satN 32 (u.outf.merged + 1) } } key (mergedInto m r)

theorem takeRec_open (hm : getMerge? s (mergeKeyOf id (prMid r)) = some m) (h : MergesOpen m r) :
    takeRec s eq tag id r = recordTaken s (mergeKeyOf id (prMid r)) m r := by
  have hin : ¬ (m.dim0 ≤ prRow r ∨ m.dim1 / 8 ≤ prSlice r) := by
    have := h.row
    have := h.slice
    omega
  have hmore : (mergeRec (tget {} m.slots (slotOf r)) r).1.n < m.nshard := by rw [mergeRec_n]; exact h.more
  have hfinal := h.unfinished
  have hrun : ¬ m.failed = true := by simp [h.running]
  rw [slotOf] at hmore hfinal
  simp only [takeRec, hm, if_neg hin, if_neg hrun, hfinal, if_pos hmore, Bool.false_eq_true, if_false]
  rfl

theorem getMerge_recordTaken (key : Nat) : getMerge? (recordTaken s key m r) key = some (mergedInto m r) := getMerge_setMerge_self

theorem tget_mergedInto : tget {} (mergedInto m r).slots (slotOf r) = (mergeRec (tget {} m.slots (slotOf r)) r).1 := tget_tput_self

theorem recordTaken_writes (key : Nat) : (recordTaken s key m r).port = s.port ∧
    (recordTaken s key m r).outf.merged = satN 32 (s.outf.merged + 1) := by
  obtain ⟨t, ht⟩ := outFlags_shape s m (mergeRec (tget {} m.slots (slotOf r)) r).2
  rw [recordTaken, ht]
  exact ⟨rfl, rfl⟩

theorem outErr_outf (s : State) (launch mid : Nat) : (outErr s launch mid).outf =
    { s.outf with err := true, errMid := mid, errCode := eAttnMerge, errLaunch := launch % 2 ^ 32 } := by
  unfold outErr
  dsimp only
  split
  · rfl
  · rw [(Noted.refl.reqVec 4356).outf]

/-- A record that names no reservation is counted as dropped (R408, R411). -/
theorem takeRec_unknown (hm : getMerge? s (mergeKeyOf id (prMid r)) = none) :
    (takeRec s eq tag id r).outf.drop = satN 16 (s.outf.drop + 1) ∧ (takeRec s eq tag id r).outf.merges = s.outf.merges := by
  have hraise (p : Option Nat) : (raiseOn (dropRec s) eAttnMerge p none [(.launch, id % 2 ^ 32)]).outf = (dropRec s).outf :=
    (Noted.refl.raiseOn ..).outf
  simp only [takeRec, hm, outErr_outf, hraise]
  exact ⟨rfl, rfl⟩

end

/-! The response of a merged write. -/

section
variable {s : State} {txn key k eq tag a : Nat} {w : Wr} {m : Merge}

/-- The slot's write has its response. -/
def slotWritten (m : Merge) (k : Nat) : Merge := { m with slots := tput {} m.slots k { tget {} m.slots k with written := true } }

def writeAnswered (s : State) (txn key k : Nat) (m : Merge) : State :=
  setMerge (vecsRelease (mgrDone s txn) txn) key (slotWritten m k)

theorem answer_noted : Noted (mgrDone s txn) (vecsRelease (mgrDone s txn) txn) := Noted.refl.vecsRelease txn

/-- The last response of a loop-back exchange starts the read of its output (R410, R507). -/
theorem exec_mergeWriteResponse (h : Live s = true) (hw : s.port.writes.find? (fun w => w.txn == txn) = some w)
    (hk : w.kind = .merge key k eq tag) (hm : getMerge? s key = some m) :
    exec (.mergeWriteResponse txn) s = .next (settle (
      match m.loop with
      | some a => if ((slotWritten m k).slots.filter fun y => y.2.written).length = 16 then
          mgrRead (writeAnswered s txn key k m) Config.fnManager m.mdest.toNat 512 (.loop a) else writeAnswered s txn key k m
      | none => writeAnswered s txn key k m)) := by
  have hheld : getMerge? (vecsRelease (mgrDone s txn) txn) key = some m := by
    rw [getMerge?, answer_noted.outf]
    exact hm
  show execMergeWriteResponse txn s = _
  simp only [execMergeWriteResponse, liveRoot_next h, hw, hk, hheld]
  rfl

theorem writeAnswered_writes : (writeAnswered s txn key k m).port.writes = s.port.writes.filter fun v => v.txn != txn := by
  rw [writeAnswered, setMerge_port, answer_noted.port]
  rfl

end

/-! The Basin. -/

section
variable {s : State} {tag : Nat} {p : Push} {l : Launch}

/-- The macro-op that a HOLD puts into the Basin (R398). -/
def heldBy (s : State) (p : Push) (l : Launch) : Held :=
  { part := l.part, group := mGroup p.mop, idx := mIdx p.mop, launch := p.launch, tick := s.sched.tickNo, eq := p.eq, mop := p.mop }

/-- The Basin, or the partition's share of it, is full (R402). -/
abbrev BasinFull (s : State) (part : Nat) : Prop := Config.basinMax ≤ s.basin.held.length ∨
  (getPart s part).basinLimit ≤ (s.basin.held.filter (fun e => e.part == part)).length

theorem exec_hold (h : Live s = true)
    (hp : s.pushes.find? (fun p => p.tag == tag && mOpc p.mop == 9 && mBmode p.mop == 1) = some p)
    (hl : kget s.launches p.launch = some l) (ht : basinTurn s p = true) (hb : basinTarget s p = 0) :
    exec (.hold tag) s = .next (settle (if BasinFull s l.part then
        pumpPushes (rootSkip 16 (basinErr s (mGroup p.mop) l.part eBasinFull p.launch) p 0x0D eBasinFull)
      else basinTook (modBasin s fun b => { b with held := b.held ++ [heldBy s p l], peak := max b.peak (b.held.length + 1) }) p)) := by
  show execHold tag s = _
  simp only [execHold, liveRoot_next h, hp, hl, ht, hb, not_true_eq_false, ne_eq, if_false]
  rfl

/-- The entries of a group, and those that a COMMIT pushes (R399). -/
def groupOf (s : State) (p : Push) (l : Launch) : List Held :=
  s.basin.held.filter fun e => e.part == l.part && e.group == mGroup p.mop

def committed (s : State) (p : Push) (l : Launch) : List Held := (groupOf s p l).filter fun e => decide (e.idx < mIdx p.mop)

/-- The group has left the Basin, and its entries are counted (R399). -/
def groupTaken (s : State) (p : Push) (l : Launch) : State :=
  modBasin s fun b => { b with
    held := b.held.filter (fun e => !(e.part == l.part && e.group == mGroup p.mop))
    committed := satN 32 (b.committed + (committed s p l).length)
    discarded := satN 32 (b.discarded + ((groupOf s p l).length - (committed s p l).length)) }

theorem exec_commit (h : Live s = true)
    (hp : s.pushes.find? (fun p => p.tag == tag && mOpc p.mop == 9 && mBmode p.mop == 2) = some p)
    (hl : kget s.launches p.launch = some l) (ht : basinTurn s p = true) (hb : basinTarget s p = 0) :
    exec (.commit tag) s = .next (settle (basinTook ((committed s p l).foldl (fun s e => queuePush s {
      eq := e.eq, launch := p.launch, mop := setFld e.mop 336 2 0, src := 3, be := l.be, node := p.node
      core := if p.src = 2 then p.core else 0 }) (addPend (groupTaken s p l) p (committed s p l).length)) p)) := by
  show execCommit tag s = _
  simp only [execCommit, liveRoot_next h, hp, hl, ht, hb, not_true_eq_false, ne_eq, if_false]
  rfl

theorem notMem_groupTaken : ∀ e ∈ (groupTaken s p l).basin.held, e.part = l.part → e.group ≠ mGroup p.mop := by
  intro e he hpart
  have hkeep := List.of_mem_filter he
  simpa [hpart] using hkeep

/-- An entry has been held for two ticks (R401). -/
def expired (s : State) (e : Held) : Bool := decide (e.tick + 2 ≤ s.sched.tickNo)

/-- The entries that have expired are gone, and counted (R401). -/
def expiredGone (s : State) : State :=
  modBasin s fun b => { b with
    held := b.held.filter (fun e => !expired s e), expCnt := satN 32 (b.expCnt + (s.basin.held.filter (expired s)).length) }

/-- E_BASIN_EXPIRED for one partition and group, with the last of its launches (R401, R416). -/
def expiryRaised (gone : List Held) (s : State) (g : Nat) : State :=
  raiseOn (basinErr s (g % 256) (g / 256) eBasinExpired
      ((((gone.filter fun e => e.part * 256 + e.group == g).getLast?).map (·.launch)).getD 0)) eBasinExpired (some (g / 256)) none
    [(.group, g % 256), (.count, (gone.filter fun e => e.part * 256 + e.group == g).length),
      (.launch, ((((gone.filter fun e => e.part * 256 + e.group == g).getLast?).map (·.launch)).getD 0) % 2 ^ 32)]

theorem exec_basinExpiry (h : Live s = true) (hf : s.glb.frozen = false) (hgone : s.basin.held.filter (expired s) ≠ []) :
    exec .basinExpiry s = .next (settle ((((s.basin.held.filter (expired s)).map fun e => e.part * 256 + e.group).foldl insertNat
      []).foldl (expiryRaised (s.basin.held.filter (expired s))) (expiredGone s))) := by
  have hgo : ¬ ((s.basin.held.filter (expired s)).isEmpty = true ∨ s.glb.frozen = true) := by
    simp [hf, hgone]
  show execBasinExpiry s = _
  rw [execBasinExpiry, liveRoot_next h]
  exact congrArg (fun u => Host.Outcome.next (settle u)) (if_neg hgo)

theorem young_of_mem_expiredGone : ∀ e ∈ (expiredGone s).basin.held, s.sched.tickNo < e.tick + 2 := by
  intro e he
  have hkeep := List.of_mem_filter he
  simpa [expired] using hkeep

end

/-- Settles O50: a record and the response of a merged write, then HOLD, COMMIT and the expiry of held entries. -/
theorem mergesAndBasin : Obligations.MergesAndBasin := by
  refine ⟨⟨?record, ?response⟩, ?hold, ?commit, ?expiry⟩
  case record =>
    intro s t a eq tag launch id r h hhead hup hf hid ht
    rw [ht, hid]
    refine ⟨exec_partialRec h hhead hup hf, fun m hm hrow hslice hrun hopen hmore => ?_, takeRec_unknown (s := takeUp s a)⟩
    obtain ⟨hport, hcount⟩ := recordTaken_writes (s := takeUp s a) (m := m) (r := r)
      (mergeKeyOf (launchNamed s launch fun l => l.outs.any fun o => o.eq == eq && o.tag == tag) (prMid r))
    rw [takeRec_open (s := takeUp s a) hm ⟨hrow, hslice, hrun, hopen, hmore⟩]
    exact ⟨mergedInto m r, getMerge_recordTaken _, tget_mergedInto, (congrArg MSlot.n tget_mergedInto).trans (mergeRec_n _ _),
      congrArg Port.writes hport, hcount⟩
  case response =>
    rintro s t txn key k eq tag w m h hw hk hm rfl
    have hexec := exec_mergeWriteResponse h hw hk hm
    refine ⟨fun hloop => ?_, fun a hloop => ?_, writeAnswered_writes⟩
    · rw [hloop] at hexec
      exact hexec
    · rw [hloop] at hexec
      exact hexec
  case hold =>
    intro s tag p l h hp hl ht hb
    refine ⟨fun hroom hshare => ?_, fun hfull => ?_⟩
    · rw [exec_hold h hp hl ht hb, if_neg (not_or.mpr ⟨Nat.not_le.mpr hroom, Nat.not_le.mpr hshare⟩)]
      rfl
    · rw [exec_hold h hp hl ht hb, if_pos hfull]
  case commit =>
    rintro s t tag p l mine yes h hp hl ht hb rfl rfl rfl
    exact ⟨exec_commit h hp hl ht hb, List.length_filter_le _ _, notMem_groupTaken⟩
  case expiry =>
    rintro s t old gone h hf rfl rfl hgone rfl
    exact ⟨exec_basinExpiry h hf hgone, young_of_mem_expiredGone⟩

end Sys2Proof.Proofs.MergesAndBasin
end

