-- ==== Sys2Proof/Proofs/BermGates.lean ====
section
/-! The berm gate of a stack agent (R418–R421) and what an event of the Steward leaves (R437). -/

namespace Sys2Proof.Proofs.BermGates
open Sys2Proof Sys2Proof.Machine Sys2Proof.Laws Sys2Proof.Proofs.Notes

/-! Events of the Steward (R437). -/

section
variable (s : State) (bit : Option Nat) (code : Nat) (part : Option Nat) (a : Nat) (tier : Bool) (unit : Nat) (named : List (Item × Nat))

/-- What an event of the Steward leaves in its registers: the status bit, where it has one, and STEW_LASTERR. -/
def stewMark (w : Stew) : Stew :=
  { w with
    stat := match bit with
      | some b => setBit w.stat b
      | none => w.stat
    errAgent := a, errTier := tier, errUnit := unit, errCode := code }

theorem stewNote_noted : Noted (modStew s (stewMark bit code a tier unit)) (stewNote s bit code part a tier unit named) := by
  have hmark : Noted (modStew s (stewMark bit code a tier unit))
      (modStew (raiseOn s code part (some a) named) (stewMark bit code a tier unit)) := by
    obtain ⟨e, l, w, h⟩ := raiseOn_shape s code part (some a) named
    rw [h]
    exact ⟨e, l, w, rfl⟩
  exact hmark.ite (hmark.reqVec 4357)

theorem stewNote_stew : (stewNote s bit code part a tier unit named).stew = stewMark bit code a tier unit s.stew :=
  (stewNote_noted ..).stew

theorem stewNote_getAgent (b : Nat) : getAgent (stewNote s bit code part a tier unit named) b = getAgent s b := by
  rw [getAgent, (stewNote_noted ..).agents]
  rfl

theorem stewNote_getStack (b : Nat) : getStack (stewNote s bit code part a tier unit named) b = getStack s b := by
  rw [getStack, stewNote_stew]
  rfl

end

/-! The gate's own fields. -/

section
variable {s : State} {a : Nat}

theorem getAgent_modBerm {f : Berm → Berm} : getAgent (modBerm s a f) a = { getAgent s a with berm := f (getAgent s a).berm } :=
  getAgent_modAgent_self

theorem modBerm_congr {f g : Berm → Berm} (h : f (getAgent s a).berm = g (getAgent s a).berm) : modBerm s a f = modBerm s a g := by
  simp only [modBerm, modAgent, h]

theorem getStack_modBerm {f : Berm → Berm} (b : Nat) : getStack (modBerm s a f) b = getStack s b := rfl

theorem getAgent_modStack {f : Stack → Stack} (b c : Nat) : getAgent (modStack s b f) c = getAgent s c := rfl

/-- The engines that hold a macro-op of the mask are those of before where the mask stays. -/
theorem bermBusy_modBerm {f : Berm → Berm} (hmask : (f (getAgent s a).berm).mask = (getAgent s a).berm.mask) :
    bermBusy (modBerm s a f) a = bermBusy s a := by
  simp only [bermBusy, getEq, getAgent_modBerm, hmask]

/-- Updates of the agent's engine queues leave its gate and the Steward as they are. -/
theorem foldl_modEq_keeps (f : EqQ → EqQ) (ls : List Nat) :
    (ls.foldl (fun s l => modEq s a l f) s).stew = s.stew ∧
      (getAgent (ls.foldl (fun s l => modEq s a l f) s) a).berm = (getAgent s a).berm := by
  refine List.foldlRecOn (motive := fun u => u.stew = s.stew ∧ (getAgent u a).berm = (getAgent s a).berm) _ _ ⟨rfl, rfl⟩ ?_
  rintro u ⟨hstew, hberm⟩ l -
  exact ⟨hstew, by rw [modEq, getAgent_modAgent_self]; exact hberm⟩

end

/-! Requests and deadlines (R418). -/

section
variable {s : State} {a d : Nat}

/-- The request as the gate takes it: nothing granted, forced or overlong yet. -/
def requested (s : State) (a : Nat) : State :=
  modBerm s a fun b => { b with req := true, granted := false, forced := false, overlong := false, noPresent := false }

theorem bermBusy_requested : bermBusy (requested s a) a = bermBusy s a := bermBusy_modBerm rfl

theorem berm_requested : (getAgent (requested s a) a).berm =
    { (getAgent s a).berm with req := true, granted := false, forced := false, overlong := false, noPresent := false } := by
  rw [requested, getAgent_modBerm]

/-- The deadline as the gate keeps it. -/
def timed (s : State) (a d : Nat) : State :=
  modBerm s a fun b => { b with d := d, noPresent := b.noPresent || decide (d ≤ b.hold) }

/-- What makes an engine stop (R418, R314). -/
def stopEq (q : EqQ) : EqQ := if q.preempt.isSome then q else { q with preempt := some 0, stopFor := 2 }

/-- The engines that hold a macro-op are made to stop. -/
def stopped (s : State) (a : Nat) : State := (bermBusy s a).foldl (fun s l => modEq s a l stopEq) s

theorem bermBusy_timed : bermBusy (timed s a d) a = bermBusy s a := bermBusy_modBerm rfl

/-- Outside the guard band, or with no engine to wait for, the gate keeps the deadline alone. -/
theorem bermGate_waits (h : (getAgent s a).berm.guard < d ∨ bermBusy s a = []) : bermGate s a d = timed s a d := by
  refine if_pos ?_
  rw [← timed, bermBusy_timed, List.isEmpty_iff, timed, getAgent_modBerm]
  exact h

/-- Inside the guard band the engines stop, and the force is noted the first time. -/
theorem bermGate_forces (hd : d ≤ (getAgent s a).berm.guard) (hbusy : bermBusy s a ≠ []) (hf : (getAgent s a).berm.forced = false) :
    bermGate s a d = stewNote (modStack (modBerm (stopped (timed s a d) a) a fun b => { b with forced := true }) a
      fun k => { k with forced := satN 16 (k.forced + 1) }) (some 0) eBermForced none a false 0 [(.deadline, d)] := by
  have hin : ¬ ((getAgent (timed s a d) a).berm.guard < d ∨ (bermBusy (timed s a d) a).isEmpty = true) := by
    rw [bermBusy_timed, List.isEmpty_iff, timed, getAgent_modBerm]
    exact not_or.mpr ⟨Nat.not_lt.mpr hd, hbusy⟩
  have hfirst : ¬ (getAgent (timed s a d) a).berm.forced = true := by
    rw [timed, getAgent_modBerm, Bool.not_eq_true]
    exact hf
  exact (if_neg hin).trans (if_neg hfirst)

theorem bermGate_requested_waits (h : (getAgent s a).berm.guard < d ∨ bermBusy s a = []) :
    bermGate (requested s a) a d = modBerm (requested s a) a fun b => { b with d := d, noPresent := decide (d ≤ b.hold) } := by
  rw [bermGate_waits (by rwa [bermBusy_requested, berm_requested])]
  refine modBerm_congr ?_
  rw [berm_requested]
  rfl

theorem bermGate_requested_forces (hd : d ≤ (getAgent s a).berm.guard) (hbusy : bermBusy s a ≠ []) :
    (getAgent (bermGate (requested s a) a d) a).berm.forced = true ∧
      (getStack (bermGate (requested s a) a d) a).forced = satN 16 ((getStack s a).forced + 1) ∧
      (bermGate (requested s a) a d).stew.errCode = eBermForced := by
  have hguard : d ≤ (getAgent (requested s a) a).berm.guard := by rwa [berm_requested]
  have hforced : (getAgent (requested s a) a).berm.forced = false := by rw [berm_requested]
  have hstew : (stopped (timed (requested s a) a d) a).stew = s.stew := (foldl_modEq_keeps stopEq _).1
  rw [bermGate_forces hguard (by rwa [bermBusy_requested]) hforced, stewNote_getAgent, stewNote_getStack, stewNote_stew,
    getAgent_modStack, getAgent_modBerm, getStack_modStack_self, getStack_modBerm, getStack, hstew]
  exact ⟨rfl, rfl, rfl⟩

theorem exec_stkBermReq (h : AgLive s a = true) (hl : bermLive s a = true) (hr : (getAgent s a).berm.req = false) :
    exec (.stkBermReq a d) s = .next (settle (bermGate (requested s a) a (d % 2 ^ 20))) := by
  show execStkBermReq a d s = _
  rw [execStkBermReq, liveAgent_next h]
  exact congrArg (fun u => Host.Outcome.next (settle u)) (if_neg (by simp [hl, hr]))

theorem exec_bermDeadlineBand (h : AgLive s a = true) (hl : bermLive s a = true) (hr : (getAgent s a).berm.req = true)
    (hg : (getAgent s a).berm.granted = false) :
    exec (.bermDeadlineBand a d) s = .next (settle (bermGate s a (d % 2 ^ 20))) := by
  show execBermDeadlineBand a d s = _
  rw [execBermDeadlineBand, liveAgent_next h]
  exact congrArg (fun u => Host.Outcome.next (settle u)) (if_neg (by simp [hl, hr, hg]))

end

/-! Grants and their end (R419–R421). -/

section
variable {s : State} {a ns : Nat}

/-- The grant is given and counted. -/
def granted (s : State) (a : Nat) : State :=
  modStack (modBerm s a fun b => { b with granted := true }) a fun k => { k with berms := satN 32 (k.berms + 1) }

/-- The macro-op that an engine queue has presented is cut. -/
def cutEq (q : EqQ) : EqQ :=
  match presEnt q with
  | some e => putEnt q { e with cut := true }
  | none => q

theorem getAgent_granted : getAgent (granted s a) a = { getAgent s a with berm := { (getAgent s a).berm with granted := true } } := by
  rw [granted, getAgent_modStack, getAgent_modBerm]

theorem exec_bermGrant_idle (h : AgLive s a = true) (hl : bermLive s a = true) (hr : (getAgent s a).berm.req = true)
    (hg : (getAgent s a).berm.granted = false) (hbusy : bermBusy s a = []) :
    exec (.bermGrant a) s = .next (settle (granted s a)) := by
  show execBermGrant a s = _
  rw [execBermGrant, liveAgent_next h]
  exact congrArg (fun u => Host.Outcome.next (settle u)) ((if_neg (by simp [hl, hr, hg, hbusy])).trans (if_pos (by simp [hbusy])))

theorem exec_bermGrant_miss (h : AgLive s a = true) (hl : bermLive s a = true) (hr : (getAgent s a).berm.req = true)
    (hg : (getAgent s a).berm.granted = false) (hbusy : bermBusy s a ≠ []) (hd : (getAgent s a).berm.d = 0) :
    exec (.bermGrant a) s = .next (settle (stewNote (modStack ((bermBusy s a).foldl (fun s l => modEq s a l cutEq) (granted s a)) a
      fun k => { k with misses := satN 16 (k.misses + 1) }) (some 1) eRetentionMiss none a false 0
      ((bermBusy s a).map fun l => (Item.engineQueue, a * 16 + l)))) := by
  show execBermGrant a s = _
  rw [execBermGrant, liveAgent_next h]
  exact congrArg (fun u => Host.Outcome.next (settle u)) ((if_neg (by simp [hl, hr, hg, hd])).trans (if_neg (by simp [hbusy])))

/-- The request is over, its time counted. -/
def released (s : State) (a ns : Nat) : State :=
  modStack (modBerm s a fun b => { b with req := false, granted := false, forced := false, overlong := false, noPresent := false }) a
    fun k => { k with bermTime := satN 32 (k.bermTime + ns) }

theorem getAgent_released : getAgent (released s a ns) a = { getAgent s a with
    berm := { (getAgent s a).berm with req := false, granted := false, forced := false, overlong := false, noPresent := false } } := by
  rw [released, getAgent_modStack, getAgent_modBerm]

theorem exec_bermRelease (h : AgLive s a = true) (hl : bermLive s a = true) (hr : (getAgent s a).berm.req = true)
    (hg : (getAgent s a).berm.granted = true) : exec (.bermRelease a ns) s = .next (settle (released s a ns)) := by
  show execBermRelease a ns s = _
  rw [execBermRelease, liveAgent_next h]
  exact congrArg (fun u => Host.Outcome.next (settle u)) ((if_neg (by simp [hl, hr])).trans (if_pos hg))

/-- The grant that stands too long is reported. -/
def overlong (s : State) (a : Nat) : State :=
  stewNote (modBerm s a fun b => { b with overlong := true }) none eBermOverlong none a false 0 []

theorem exec_bermOverlong (h : AgLive s a = true) (hg : (getAgent s a).berm.granted = true) (ho : (getAgent s a).berm.overlong = false) :
    exec (.bermOverlong a) s = .next (settle (overlong s a)) := by
  show execBermOverlong a s = _
  rw [execBermOverlong, liveAgent_next h]
  exact congrArg (fun u => Host.Outcome.next (settle u)) (if_neg (by simp [hg, ho]))

theorem overlong_berm : (getAgent (overlong s a) a).berm = { (getAgent s a).berm with overlong := true } := by
  rw [overlong, stewNote_getAgent, getAgent_modBerm]

theorem overlong_errCode : (overlong s a).stew.errCode = eBermOverlong := by
  rw [overlong, stewNote_stew]
  rfl

end

/-- Settles O52: the request, the deadline, the grant, the release and the grant too long, each by its own lemma. -/
theorem bermGate : Obligations.BermGate := by
  intro s a h hl
  refine ⟨fun d t hr ht => ?request, fun d hr hg => exec_bermDeadlineBand h hl hr hg,
    fun t hr hg ht => ⟨fun hbusy => ?idle, fun hbusy hd u hu => ?miss⟩, fun ns t hr hg ht => ?release, fun t hg ho ht => ?long⟩
  case request =>
    rw [ht]
    exact ⟨exec_stkBermReq h hl hr, bermGate_requested_waits, bermGate_requested_forces⟩
  case idle =>
    rw [ht]
    exact ⟨exec_bermGrant_idle h hl hr hg hbusy, getAgent_granted, getStack_modStack_self⟩
  case miss =>
    rw [hu, ht]
    exact exec_bermGrant_miss h hl hr hg hbusy hd
  case release =>
    rw [ht, ← released, getAgent_released]
    exact ⟨exec_bermRelease h hl hr hg, rfl, rfl⟩
  case long =>
    rw [ht]
    exact ⟨exec_bermOverlong h hg ho, overlong_berm, overlong_errCode⟩

end Sys2Proof.Proofs.BermGates
end

