-- ==== Sys2Proof/Proofs/StewardUnit.lean ====
section
/-! The Steward: the wear ledger, defects, relocation copies, fences and retries (R426–R434). -/

namespace Sys2Proof.Proofs.StewardUnit
open Sys2Proof Sys2Proof.Machine Sys2Proof.Laws Sys2Proof.Proofs.Notes Sys2Proof.Proofs.BermGates

/-! The wear ledger (R428–R432). -/

section
variable {s : State} {a n : Nat} {report : W64} {w : StackWord} {e : BitVec 128} {others : List StackWord}

/-- The writes of a region with those reported, as its ledger word counts them (R428). -/
def wornTo (report : W64) (w : StackWord) : Nat := min (ledWrites w.led + fld report 24 24) (2 ^ 40 - 1)

theorem exec_stkWear_bad (h : Live s = true) (ht : stewTakes s a = true) (hr : (getStack s a).nvUnits ≤ fld report 0 24) :
    exec (.stkWear a report w e others) s = .next (settle (badReport s a true (fld report 0 24))) := by
  show execStkWear a report w e others s = _
  rw [execStkWear, liveRoot_next h]
  exact congrArg (fun u => Host.Outcome.next (settle u)) ((if_neg (not_not.mpr ht)).trans (if_pos (.inl hr)))

/-- The marks of 90 % and 100 % of a region's endurance as a count of writes gives them (R428). -/
def worn90 (s : State) (a n : Nat) : Bool := decide ((getStack s a).endur ≠ 0) && decide ((getStack s a).endur * 9 ≤ n * 10)
def worn100 (s : State) (a n : Nat) : Bool := decide ((getStack s a).endur ≠ 0) && decide ((getStack s a).endur ≤ n)

theorem worn90_false (hd : (getStack s a).endur = 0 ∨ n * 10 < (getStack s a).endur * 9) : worn90 s a n = false := by
  simp only [worn90, Bool.and_eq_false_iff, decide_eq_false_iff_not]
  omega

theorem worn100_false (hd : (getStack s a).endur = 0 ∨ n * 10 < (getStack s a).endur * 9) : worn100 s a n = false := by
  simp only [worn100, Bool.and_eq_false_iff, decide_eq_false_iff_not]
  omega

theorem worn90_true (hd : (getStack s a).endur ≠ 0) (hn : (getStack s a).endur ≤ n) : worn90 s a n = true := by
  simp only [worn90, Bool.and_eq_true, decide_eq_true_eq]
  omega

theorem worn100_true (hd : (getStack s a).endur ≠ 0) (hn : (getStack s a).endur ≤ n) : worn100 s a n = true := by
  simp only [worn100, Bool.and_eq_true, decide_eq_true_eq]
  exact ⟨hd, hn⟩

section
variable (h : Live s = true) (ht : stewTakes s a = true) (hw : w.region = fld report 0 24)
  (hr : fld report 0 24 < (getStack s a).nvUnits) (hz : fld report 48 16 = 0)
  (h90 : ledWorn90 w.led = false) (h100 : ledWorn100 w.led = false)
include h ht hw hr hz h90 h100

/-- A report of a region without marks: its word is written, and what the marks that are new call for follows. -/
theorem exec_stkWear {x y : Bool} (hx : worn90 s a (wornTo report w) = x) (hy : worn100 s a (wornTo report w) = y)
    (hdir : (x || y) = true → dirValid w.dir = false) {u : State} (hu : u = writeLed s a (fld report 0 24)
      (BitVec.ofNat 64 (wornTo report w + put (b2n x) 40 + put (b2n y) 41))) :
    exec (.stkWear a report w e others) s =
      .next (settle (if y then wornOut u a (fld report 0 24) w.dir e false else u)) := by
  have hgo : ¬ ((getStack s a).nvUnits ≤ fld report 0 24 ∨ fld report 48 16 ≠ 0) := by omega
  rw [worn90, wornTo] at hx
  rw [worn100, wornTo] at hy
  rw [wornTo] at hu
  show execStkWear a report w e others s = _
  rw [execStkWear, liveRoot_next h, if_neg (not_not.mpr ht), if_neg hgo, if_neg (not_not.mpr hw)]
  simp only [h90, h100, Bool.false_or, hx, hy, ← hu]
  cases hxy : x || y with
  | true => simp [hdir hxy]
  | false => simp [(Bool.or_eq_false_iff.mp hxy).1, (Bool.or_eq_false_iff.mp hxy).2]

/-- Below 90 % of the endurance, or with none given, the ledger counts and nothing else happens. -/
theorem exec_stkWear_counts (hd : (getStack s a).endur = 0 ∨ wornTo report w * 10 < (getStack s a).endur * 9) :
    exec (.stkWear a report w e others) s = .next (settle (writeLed s a (fld report 0 24) (BitVec.ofNat 64 (wornTo report w)))) := by
  rw [exec_stkWear h ht hw hr hz h90 h100 (worn90_false hd) (worn100_false hd) (by simp) rfl]
  rfl

/-- An unmapped region that comes to its endurance has both marks set in its word and is reported (R432). -/
theorem exec_stkWear_wornOut (hd : (getStack s a).endur ≠ 0) (hn : (getStack s a).endur ≤ wornTo report w)
    (hdir : dirValid w.dir = false) : exec (.stkWear a report w e others) s = .next (settle (wornOut
      (writeLed s a (fld report 0 24) (BitVec.ofNat 64 (wornTo report w + 2 ^ 40 + 2 ^ 41))) a (fld report 0 24) w.dir e false)) := by
  have h40 : put (b2n true) 40 = 2 ^ 40 := by decide
  have h41 : put (b2n true) 41 = 2 ^ 41 := by decide
  rw [exec_stkWear h ht hw hr hz h90 h100 (worn90_true hd hn) (worn100_true hd hn) (fun _ => hdir) rfl, h40, h41, if_pos rfl]

end

/-- What E_WEAR_LIMIT of a region with no entry leaves: STEW_LASTERR, bit 2 of STEW_STAT, and no further write. -/
theorem wornOut_reports (r : Nat) (d : W64) :
    (wornOut s a r d e false).stew.errCode = eWearLimit ∧ (wornOut s a r d e false).stew.errAgent = a ∧
      (wornOut s a r d e false).stew.errTier = true ∧ (wornOut s a r d e false).stew.errUnit = r ∧
      (wornOut s a r d e false).stew.stat.testBit 2 = true ∧ (wornOut s a r d e false).port = s.port := by
  rw [wornOut, stewNote_stew, (stewNote_noted ..).port]
  exact ⟨rfl, rfl, rfl, rfl, by simp [stewMark, Resets.testBit_setBit], rfl⟩

end

/-! Defects (R433, R434). -/

section
variable {s : State} {a : Nat} {report old new : W64} {e : BitVec 128}

theorem entryOk_stewErr (bit : Option Nat) (code : Nat) (part : Option Nat) (b : Nat) (t : Bool) (v : Nat) (tier : Bool) (u : Nat) :
    entryOk (stewErr s bit code part b t v) a tier u e = entryOk s a tier u e := by
  unfold entryOk unitBase stewErr
  rw [stewNote_getStack]

/-- With no copy under way a defect drops none. -/
theorem dropCopy_none (hc : s.stew.copy = none) (u : Nat) (tier : Bool) : dropCopy s a u tier = s := by
  simp only [dropCopy, hc]

section
variable (h : Live s = true) (ht : stewTakes s a = true) (h1 : bitOf report 1 = false) (hz : fld report 51 13 = 0)
  (ho : fld report 2 24 < unitCount s a (bitOf report 0)) (hn : fld report 26 24 < unitCount s a (bitOf report 0))
  (h50 : bitOf report 50 = true) (hc : s.stew.copy = none)
include h ht h1 hz ho hn h50 hc

/-- A defect without loss of data and with no copy under way is noted, then its unit is fenced or its mapping moved. -/
theorem exec_stkDefect {t : State} (htt : t = stewErr s none eStackDefect none a (bitOf report 0) (fld report 2 24)) :
    exec (.stkDefect a report old new e) s = .next (settle (
      if ¬ dirValid old then writeDir (fenceUnit t a (bitOf report 0) (fld report 2 24) old) a (bitOf report 0) (fld report 26 24)
        (setFld new 27 1 (b2n (dirSpare old)))
      else if entryOk s a (bitOf report 0) (fld report 2 24) e then
        stewSwitch t a (bitOf report 0) (fld report 2 24) (fld report 26 24) old new e
      else dirMismatch t a (bitOf report 0) (fld report 2 24) old)) := by
  have hgo : ¬ (bitOf report 1 = true ∨ fld report 51 13 ≠ 0 ∨ unitCount s a (bitOf report 0) ≤ fld report 2 24 ∨
      unitCount s a (bitOf report 0) ≤ fld report 26 24) := by
    rw [h1]
    simp only [Bool.false_eq_true, false_or]
    omega
  have hct : t.stew.copy = none := by
    rw [htt, stewErr, stewNote_stew]
    exact hc
  have hentry : entryOk s a (bitOf report 0) (fld report 2 24) e = entryOk t a (bitOf report 0) (fld report 2 24) e := by
    rw [htt, entryOk_stewErr]
  show execStkDefect a report old new e s = _
  rw [execStkDefect, liveRoot_next h, if_neg (not_not.mpr ht), if_neg hgo]
  simp only [← htt, dropCopy_none hct, if_pos h50, hentry]

end
end

/-! Relocation copies and fences (R426, R427, R430). -/

section
variable {s : State} {k : Copy}

theorem exec_relocationCopyDone_ok (h : Live s = true) (hk : s.stew.copy = some k) (he : k.ended = true) (hok : k.ok = true)
    (hf : s.stew.fences.length < 256) : exec (.relocationCopyDone true) s = .next (settle (stewSwitch
      (modStew s fun x => { x with copy := none }) k.agent true k.region k.target k.word k.tgtWord k.entry)) := by
  show execRelocationCopyDone true s = _
  rw [execRelocationCopyDone, liveRoot_next h]
  simp only [hk]
  rw [if_neg (by simp [he, hok, Config.fenceMax, hf])]
  rfl

/-- A full list of units that await fencing holds the switch back. -/
theorem exec_relocationCopyDone_waits (h : Live s = true) (hk : s.stew.copy = some k) (hf : 256 ≤ s.stew.fences.length) :
    exec (.relocationCopyDone true) s = .next (settle s) := by
  show execRelocationCopyDone true s = _
  rw [execRelocationCopyDone, liveRoot_next h]
  simp only [hk]
  rw [if_pos (.inr (.inr ⟨by simp, hf⟩))]

theorem exec_relocationCopyDone_failed (h : Live s = true) (hk : s.stew.copy = some k) (he : k.ended = true) (hok : k.ok = false) :
    exec (.relocationCopyDone false) s = .next (settle (modStew (stewErr
      (writeDir (modStew s fun x => { x with copy := none }) k.agent true k.target (setFld k.tgtWord 27 1 1)) (some 5) eStewCopyFail none
      k.agent true k.region) fun x => { x with retry := x.retry ++ [(k.agent, k.region)] })) := by
  show execRelocationCopyDone false s = _
  rw [execRelocationCopyDone, liveRoot_next h]
  simp only [hk]
  rw [if_neg (by simp [he, hok])]
  rfl

theorem exec_unitFence {a u : Nat} {t : Bool} {f : Fence} (h : Live s = true)
    (hf : s.stew.fences.find? (fun f => f.agent == a && f.unit == u && f.tier == t) = some f)
    (hgone : f.launches.all (fun id => (kget s.launches id).isNone) = true) : exec (.unitFence a u t) s = .next (settle (stewAudit
      (fenceUnit (modStew s fun x => { x with fences := x.fences.erase f }) a t u f.word) 2 a t u f.word)) := by
  have hno : ¬ f.launches.any (fun id => (kget s.launches id).isSome) = true := by
    rw [Bool.not_eq_true, List.any_eq_not_all_not, Bool.not_eq_false']
    simpa only [Option.not_isSome] using hgone
  show execUnitFence a u t s = _
  rw [execUnitFence, liveRoot_next h]
  simp only [hf, if_neg hno]

end

/-! Sending pushes leaves the copy and the retries as they are. -/

section
variable {s : State}

/-- The Steward's copy and retries stand as before. -/
def CopyKept (s t : State) : Prop := t.stew.copy = s.stew.copy ∧ t.stew.retry = s.stew.retry

theorem sendPush_stew (p : Push) : (sendPush s p).stew = s.stew := by
  unfold sendPush
  split
  · rfl
  · rfl

theorem pumpN_stew (n : Nat) (s : State) : (pumpN n s).stew = s.stew := by
  induction n generalizing s with
  | zero => rfl
  | succ n ih =>
    rw [pumpN]
    split
    · rfl
    · rw [ih, sendPush_stew]

theorem pumpStew_copyKept (s : State) : CopyKept s (pumpStew s) := by
  unfold pumpStew
  split
  · exact ⟨rfl, rfl⟩
  · split
    · exact ⟨rfl, rfl⟩
    · exact ⟨rfl, rfl⟩

theorem pumpPushes_copyKept (s : State) : CopyKept s (pumpPushes s) := by
  unfold pumpPushes
  split
  · exact ⟨rfl, rfl⟩
  · obtain ⟨hc, hr⟩ := pumpStew_copyKept (pumpN s.pushes.length s)
    obtain ⟨hc', hr'⟩ := pumpStew_copyKept (pumpStew (pumpN s.pushes.length s))
    exact ⟨by rw [hc', hc, pumpN_stew], by rw [hr', hr, pumpN_stew]⟩

end

/-! Retries (R430, R431). -/

section
variable {s : State} {a : Nat} {w : StackWord} {e : BitVec 128} {os : List StackWord} {o : StackWord}

section
variable (h : Live s = true) (ht : stewTakes s a = true) (hc : s.stew.copy = none)
  (hp : s.stew.pend.contains (dirPart w.dir, a, w.region) = false) (hr : s.stew.retry.contains (a, w.region) = true)
include h ht hc hp hr

/-- A retry that is not pending goes on by the region's word. -/
theorem exec_stewRetry : exec (.stewRetry a w e os) s = .next (settle (
    if ¬ dirValid w.dir then modStew s fun x => { x with retry := x.retry.filter (fun y => y != (a, w.region)) }
    else if ¬ entryOk s a true w.region e then
      dirMismatch (modStew s fun x => { x with retry := x.retry.filter (fun y => y != (a, w.region)) }) a true w.region w.dir
    else startCopy s a w.region w.dir e os)) := by
  have hgo : ¬ (¬ stewTakes s a = true ∨ s.stew.copy.isSome = true ∨
      ¬ (if s.stew.pend.contains (dirPart w.dir, a, w.region) = true then
      decide ((getPart s (dirPart w.dir)).st = .maint) && !s.launches.any (fun x => x.2.part == dirPart w.dir)
      else s.stew.retry.contains (a, w.region)) = true) := by
    rw [ht, hc, hp, hr]
    simp
  show execStewRetry a w e os s = _
  rw [execStewRetry, liveRoot_next h]
  exact congrArg (fun u => Host.Outcome.next (settle u)) (if_neg hgo)

end

/-- A region of the stack to which the copy of region r may go (R430). -/
def Fits (s : State) (a r : Nat) (o : StackWord) : Prop :=
  o.region < (getStack s a).nvUnits ∧ o.region ≠ r ∧ dirSpare o.dir = true ∧ dirFenced o.dir = false ∧ ledWorn90 o.led = false ∧
    ledWorn100 o.led = false

/-- A copy to a region that fits is put down, no retry with it, before its macro-ops are pushed. -/
theorem startCopy_pumps {r : Nat} {d : W64} (hc : s.stew.copy = none) (hfits : Fits s a r o) :
    ∃ u, startCopy s a r d e [o] = pumpPushes u ∧ u.stew.retry = s.stew.retry.filter (fun y => y != (a, r)) ∧
      ∃ k, u.stew.copy = some k ∧ k.agent = a ∧ k.region = r ∧ k.target = o.region := by
  obtain ⟨hn, hne, hs, hf, h90, h100⟩ := hfits
  have hfit : [o].filter (fun o => decide (o.region < (getStack s a).nvUnits) && o.region != r && dirSpare o.dir && !dirFenced o.dir
      && !ledWorn90 o.led && !ledWorn100 o.led) = [o] := by
    simp [hn, hne, hs, hf, h90, h100]
  unfold startCopy
  simp only [hc, hfit]
  exact ⟨_, if_neg Bool.false_ne_true, rfl, _, rfl, rfl, rfl, rfl⟩

theorem startCopy_starts {r : Nat} {d : W64} (hc : s.stew.copy = none) (hfits : Fits s a r o) :
    ∃ k, (startCopy s a r d e [o]).stew.copy = some k ∧ k.agent = a ∧ k.region = r ∧ k.target = o.region ∧
      (a, r) ∉ (startCopy s a r d e [o]).stew.retry := by
  obtain ⟨u, hu, hretry, k, hk, hagent, hregion, htarget⟩ := startCopy_pumps (e := e) (d := d) hc hfits
  obtain ⟨hcopy', hretry'⟩ := pumpPushes_copyKept u
  rw [hu, hcopy', hretry', hretry]
  exact ⟨k, hk, hagent, hregion, htarget, by simp⟩

end

/-- Settles O53: reports of wear and of defects; the end of a copy, a fence and a retry, each by its own lemma. -/
theorem steward : Obligations.Steward := by
  refine ⟨fun s a report h ht => ⟨?wear, fun w e others hr => exec_stkWear_bad h ht hr, ?defect⟩,
    fun s h => ⟨?copyDone, fun a u t f hf hgone => exec_unitFence h hf hgone, ?retry⟩⟩
  case wear =>
    intro w e others n hw hr hz hn h90 h100
    subst hn
    refine ⟨exec_stkWear_counts h ht hw hr hz h90 h100, fun t hd hle hdir htt => ?_⟩
    obtain ⟨hcode, hagent, htier, hunit, hstat, hport⟩ := wornOut_reports
      (s := writeLed s a (fld report 0 24) (BitVec.ofNat 64 (wornTo report w + 2 ^ 40 + 2 ^ 41))) (a := a) (e := e) (fld report 0 24) w.dir
    rw [htt]
    exact ⟨exec_stkWear_wornOut h ht hw hr hz h90 h100 hd hle hdir, hcode, hagent, htier, hunit, hstat,
      (congrArg (·.writes.length) hport).trans (by simp [writeLed, mgrWrite, mgrWriteAs])⟩
  case defect =>
    intro old new e h1 hz ho hn h50 hc
    rw [exec_stkDefect h ht h1 hz ho hn h50 hc rfl]
    exact ⟨fun hdir => by rw [if_pos (by simp [hdir])], fun hdir he => by rw [if_neg (by simp [hdir]), if_pos he]⟩
  case copyDone =>
    intro k t hk he htt
    rw [htt]
    exact ⟨exec_relocationCopyDone_ok h hk he, fun _ => exec_relocationCopyDone_waits h hk, exec_relocationCopyDone_failed h hk he⟩
  case retry =>
    intro a w e os ht hc hp hr
    rw [exec_stewRetry h ht hc hp hr]
    refine ⟨fun hdir => by rw [if_pos (by simp [hdir])], fun hdir he =>
      ⟨by rw [if_neg (by simp [hdir]), if_neg (by simp [he])], fun o ho hn hne hs hf h90 h100 => ?_⟩⟩
    rw [ho]
    exact startCopy_starts hc ⟨hn, hne, hs, hf, h90, h100⟩

end Sys2Proof.Proofs.StewardUnit
end

