-- ==== Sys2Proof/Proofs/ServiceLives.lean ====
section
/-! The end of a drain, ageing evaluations and the spill of the audit log (R481–R483, R491, R498–R500). -/

namespace Sys2Proof.Proofs.ServiceLives
open Sys2Proof Sys2Proof.Machine Sys2Proof.Laws Sys2Proof.Proofs.Notes

/-! Drains (R491). -/

section
variable {s : State} {a : Nat} {d : Drain}

/-- An agent table entry as the end of service marks it: not UP, EXCLUDED, with REASON 7 (R84). -/
theorem endMark_fields (w : W64) :
    bitOf (setFld (setFld (setFld w 0 1 (b2n false)) 1 1 (b2n true)) 40 4 7) 0 = false ∧
      bitOf (setFld (setFld (setFld w 0 1 (b2n false)) 1 1 (b2n true)) 40 4 7) 1 = true ∧
      fld (setFld (setFld (setFld w 0 1 (b2n false)) 1 1 (b2n true)) 40 4 7) 40 4 = 7 := by
  have hw := w.isLt
  simp only [setFld, fld, bitOf, nbits, b2n, BitVec.getLsbD, BitVec.toNat_ofNat, Nat.shiftLeft_eq, Nat.shiftRight_eq_div_pow,
    Nat.testBit_eq_decide_div_mod_eq, decide_eq_true_eq, decide_eq_false_iff_not]
  norm_num
  omega

/-- The agent is reset and out of service, its drain over (R491). -/
def drainLeft (s : State) (a : Nat) : State :=
  modSvc (setMeas (agtMark (sendDown s a (.agentReset 4)) a false true 7) a 0) fun v => { v with draining := kdel v.draining a }

/-- Its relay is cleared and the end put into the audit log. -/
def drainNoted (s : State) (a : Nat) : State := relayClear (audit (drainLeft s a) 9 Config.fnNone 0x0A 2 a 7) a

theorem drainFinish_reply :
    drainFinish s a d = drainNoted s a ∨ ∃ p, drainFinish s a d = admOk (drainNoted s a) d.q p 0xFF d.failed := by
  unfold drainFinish
  dsimp only
  split
  · exact .inr ⟨_, rfl⟩
  · exact .inl rfl

/-- The relay's end and the reply leave the tables as the agent's reset put them. -/
theorem drainFinish_keeps : (drainFinish s a d).glb = (drainLeft s a).glb ∧ (drainFinish s a d).svc = (drainLeft s a).svc := by
  have hnoted : (drainNoted s a).glb = (drainLeft s a).glb ∧ (drainNoted s a).svc = (drainLeft s a).svc := by
    obtain ⟨e, l, haudit⟩ := audit_shape (drainLeft s a) 9 Config.fnNone 0x0A 2 a 7
    rw [drainNoted, haudit]
    exact ⟨rfl, rfl⟩
  rcases drainFinish_reply (s := s) (a := a) (d := d) with h | ⟨p, h⟩
  · rw [h]
    exact hnoted
  · obtain ⟨t, q, e, l, hok⟩ := admOk_shape (drainNoted s a) d.q p 0xFF d.failed
    rw [h, hok]
    exact hnoted

theorem drainLeft_glb : (drainLeft s a).glb = (agtMark s a false true 7).glb := rfl

theorem agtEntry_drainFinish : agtEntry (drainFinish s a d) a =
    setFld (setFld (setFld (agtEntry s a) 0 1 (b2n false)) 1 1 (b2n true)) 40 4 7 := by
  have hmark : agtEntry (drainFinish s a d) a = agtEntry (agtMark s a false true 7) a := by
    rw [agtEntry, drainFinish_keeps.1, drainLeft_glb, ← agtEntry]
  rw [hmark, agtMark, agtEntry_setAgt_self]

theorem draining_drainFinish : (drainFinish s a d).svc.draining = kdel s.svc.draining a := by
  rw [drainFinish_keeps.2, drainLeft, modSvc_svc, setMeas, modSched_svc, agtMark, setAgt, modGlb_svc, sendDown_eq]

theorem exec_drainEnd (h : Live s = true) (hd : kget s.svc.draining a = some d) (hclear : drainClear s a = true) :
    exec (.drainEnd a) s = .next (settle (drainFinish s a d)) := by
  show execDrainEnd a s = _
  simp only [execDrainEnd, liveRoot_next h, hd, if_pos hclear]

/-- The drain is late, with the launches then on its agent counted (R491). -/
def drainLate (s : State) (a : Nat) (d : Drain) : State :=
  modSvc s fun v => { v with draining := kput v.draining a { d with late := true, failed := (workOn s a).length } }

theorem exec_drainTmoExpiry (h : Live s = true) (hd : kget s.svc.draining a = some d) (hl : d.late = false) :
    exec (.drainTmoExpiry a) s = .next (settle (loseTasks
      ((workOn s a).foldl (fun s id => sendAbort s a id) (stewAbort (drainLate s a d) (some a))) a)) := by
  have hno : ¬ d.late = true := by rw [hl]; decide
  show execDrainTmoExpiry a s = _
  simp only [execDrainTmoExpiry, liveRoot_next h, hd, if_neg hno]
  rfl

end

/-! Ageing evaluations (R481, R482). -/

section
variable {s : State} {src b : Nat} {w : W32}

theorem ageSet_svc : (ageSet s b).svc = { s.svc with ageBits := setBit s.svc.ageBits b } := by
  have hset := Noted.refl (s := modSvc s fun v => { v with ageBits := setBit v.ageBits b })
  exact (hset.ite (hset.reqVec 4362)).svc

theorem testBit_setBit_of {x i j : Nat} (h : i < j) (hx : x.testBit i = true) : (setBit x j).testBit i = true := by
  unfold setBit
  split
  · exact hx
  · rwa [Nat.add_comm, Nat.testBit_two_pow_add_gt h]

/-- The source of an evaluation as events name it: an agent, or none for the Root's. -/
def ageAgent (src : Nat) : Option Nat := if src < 64 then some src else none

/-- A drift that comes to the warning level is reported, and its source is above it from now on (R482). -/
def ageWarned (s : State) (src : Nat) (w : W32) : State :=
  modSvc (if s.svc.driftWarn ≤ fld w 0 12 ∧ ¬ s.svc.wasAbove.contains src
      then ageSet (raise s eAgeDrift none (ageAgent src)) 21 else s) fun v =>
    { v with wasAbove := if s.svc.driftWarn ≤ fld w 0 12 then insertNat v.wasAbove src else without v.wasAbove src }

/-- The source is at the limit of its ageing (R482). -/
def AgeLimit (s : State) (src : Nat) (w : W32) : Prop :=
  s.svc.driftLimit ≤ fld w 0 12 ∨
    (fld w 12 8 < s.svc.slackMin ∧ (s.svc.levelMax ≤ dieLevel s (if src < 64 then src else 0) ∨ ¬ replanOn s))

theorem ageEvents_of_limit (h : AgeLimit (ageWarned s src w) src w) :
    ageEvents s src w = ageSet (raise (ageWarned s src w) eAgeLimit none (ageAgent src)) 22 := by
  unfold ageEvents
  simp only [decide_eq_true_eq]
  exact if_pos h

theorem ageEvents_of_not_limit (h : ¬ AgeLimit (ageWarned s src w) src w) : ageEvents s src w = ageWarned s src w := by
  unfold ageEvents
  simp only [decide_eq_true_eq]
  exact if_neg h

/-- The bits of SVC_AGESTAT once the drift is looked at. -/
def warnBits (v : Svc) (src : Nat) (w : W32) : Nat :=
  if v.driftWarn ≤ fld w 0 12 ∧ ¬ v.wasAbove.contains src then setBit v.ageBits 21 else v.ageBits

theorem raise_svc (s : State) (code : Nat) (part agent : Option Nat) : (raise s code part agent).svc = s.svc :=
  (Noted.refl.raise ..).svc

theorem ageWarned_svc : ∃ x, (ageWarned s src w).svc = { s.svc with ageBits := warnBits s.svc src w, wasAbove := x } := by
  unfold ageWarned warnBits
  split
  · exact ⟨_, by rw [modSvc_svc, ageSet_svc, raise_svc]⟩
  · exact ⟨_, rfl⟩

/-- The events of a source change the bits of SVC_AGESTAT and who was above the warning level; at the limit bit 22 stands too. -/
theorem ageEvents_svc : ∃ x y, (ageEvents s src w).svc = { s.svc with ageBits := y, wasAbove := x } ∧
    (y = warnBits s.svc src w ∨ y = setBit (warnBits s.svc src w) 22) := by
  obtain ⟨x, hx⟩ := ageWarned_svc (s := s) (src := src) (w := w)
  by_cases h : AgeLimit (ageWarned s src w) src w
  · refine ⟨x, _, ?_, .inr rfl⟩
    rw [ageEvents_of_limit h, ageSet_svc, raise_svc, hx]
  · refine ⟨x, _, ?_, .inl rfl⟩
    rw [ageEvents_of_not_limit h, hx]

/-- A drift that comes to the warning level leaves bit 21 of SVC_AGESTAT set. -/
theorem ageEvents_warns (hw : s.svc.driftWarn ≤ fld w 0 12) (hs : s.svc.wasAbove.contains src = false) :
    (ageEvents s src w).svc.ageBits.testBit 21 = true := by
  obtain ⟨x, y, hsvc, hy⟩ := ageEvents_svc (s := s) (src := src) (w := w)
  have hbits : warnBits s.svc src w = setBit s.svc.ageBits 21 := if_pos ⟨hw, by rw [hs]; decide⟩
  have hset : (setBit s.svc.ageBits 21).testBit 21 = true := Resets.testBit_setBit _ 21
  rw [hsvc]
  rw [hbits] at hy
  rcases hy with rfl | rfl
  · exact hset
  · exact testBit_setBit_of (by decide) hset

/-- Below the warning level and the limit SVC_AGESTAT stays as it was. -/
theorem ageEvents_quiet (hw : fld w 0 12 < s.svc.driftWarn) (hl : fld w 0 12 < s.svc.driftLimit) (hm : s.svc.slackMin ≤ fld w 12 8) :
    (ageEvents s src w).svc.ageBits = s.svc.ageBits := by
  obtain ⟨x, hx⟩ := ageWarned_svc (s := s) (src := src) (w := w)
  have hbits : warnBits s.svc src w = s.svc.ageBits := if_neg fun hc => absurd hc.1 (Nat.not_le.mpr hw)
  have hno : ¬ AgeLimit (ageWarned s src w) src w := by
    rintro (hlimit | ⟨hslack, -⟩)
    · rw [hx] at hlimit
      exact absurd hlimit (Nat.not_le.mpr hl)
    · rw [hx] at hslack
      exact absurd hslack (Nat.not_lt.mpr hm)
  rw [ageEvents_of_not_limit hno, hx, ← hbits]

/-- The Root's reading is kept, and is the highest drift (R481). -/
def rootRead (s : State) (w : W32) : State :=
  { s with svc := { s.svc with ageRoot := w, driftMax := fld w 0 12, driftAgent := 0, driftRoot := true } }

theorem exec_ageEvaluation_root (h : Live s = true) (hready : isReady s = true) (hmode : s.svc.mode = 1)
    (htick : s.sched.tickNo % max 1 s.svc.interval = 0) (hvalid : bitOf w 20 = true) :
    exec (.ageEvaluation [(64, w)]) s = .next (settle (ageEvents (rootRead s w) 64 w)) := by
  have hgo : ¬ (¬ isReady s = true ∨ s.sched.tickNo % max 1 s.svc.interval ≠ 0) := by simp [hready, htick]
  have hoff : replanOn (ageEvents (rootRead s w) 64 w) = false := by
    obtain ⟨x, y, hsvc, -⟩ := ageEvents_svc (s := rootRead s w) (src := 64) (w := w)
    rw [replanOn, hsvc]
    exact decide_eq_false (not_not.mpr hmode)
  have hno : ¬ replanOn (ageEvents (rootRead s w) 64 w) = true := by rw [hoff]; decide
  show execAgeEvaluation [(64, w)] s = _
  rw [execAgeEvaluation, liveRoot_next h, if_neg hgo]
  simp only [List.foldl_cons, List.foldl_nil, List.filter_cons, List.filter_nil, hvalid, maxDrift]
  exact congrArg (fun u => Host.Outcome.next (settle u)) (if_neg hno)

end

/-! Dies that change their level (R483). -/

section
variable {s : State} {die lv mhz : Nat}

/-- The die stands at the level asked for. -/
def dieMoved (s : State) (die lv : Nat) : State :=
  modSvc s fun v => { v with dieLevel := tput 0 v.dieLevel die lv, pmOut := kdel v.pmOut die }

/-- The move is put into the audit log. -/
def dieNoted (s : State) (die lv : Nat) : State :=
  audit (dieMoved s die lv) 10 0x7F 8 3 die (tget 0 (tput 0 s.svc.dieLevel die lv) die)

theorem dieNoted_svc : (dieNoted s die lv).svc = (dieMoved s die lv).svc := (Noted.refl.audit ..).svc

theorem exec_pmDone (h : Live s = true) (hp : kget s.svc.pmOut die = some lv) {u : State}
    (hu : u = if die = 0 then modGlb (dieNoted s die lv) fun g => { g with rootMhz := mhz % 4096 } else dieNoted s die lv) :
    exec (.pmDone die mhz) s = .next (settle
      (if agtUp u die then modSched u fun c => { c with measNext := kput c.measNext die mhz } else u)) := by
  rw [hu]
  show execPmDone die mhz s = _
  simp only [execPmDone, liveRoot_next h, hp]
  rfl

end

/-! The spill of the audit log (R498–R500). -/

section
variable {s t u : State} {n : Nat} {w : Wr}

/-- Where the ring goes on and whether its spill has failed stand as before. -/
def RingKept (s t : State) : Prop := t.log.tail = s.log.tail ∧ t.log.spillFault = s.log.spillFault

theorem RingKept.refl : RingKept s s := ⟨rfl, rfl⟩

theorem RingKept.trans (h : RingKept s t) (h' : RingKept t u) : RingKept s u := ⟨h'.1.trans h.1, h'.2.trans h.2⟩

theorem RingKept.ite {c : Prop} [Decidable c] (ht : RingKept s t) (hu : RingKept s u) : RingKept s (if c then t else u) := by
  split
  · exact ht
  · exact hu

theorem RingKept.of_log (h : t.log = s.log) : RingKept s t := ⟨by rw [h], by rw [h]⟩

theorem reqVec_log (s : State) (v : Nat) : (reqVec s v).log = s.log := by
  obtain ⟨e, h⟩ := reqVec_shape s v
  rw [h]

theorem vecsRelease_log (s : State) (txn : Nat) : (vecsRelease s txn).log = s.log := by
  obtain ⟨e, h⟩ := vecsRelease_shape s txn
  rw [h]

theorem logPut_ringKept (s : State) (e : BitVec 256) : RingKept s (logPut s e) := by
  unfold logPut
  dsimp only
  split
  · rw [RingKept, reqVec_log]
    exact ⟨rfl, rfl⟩
  · exact ⟨rfl, rfl⟩

/-- An entry that finds no room is counted as lost, and no part of the ring moves. -/
theorem lostEntry_ringKept {f : Log → Log} (h : RingKept s t)
    (hf : (f t.log).tail = t.log.tail ∧ (f t.log).spillFault = t.log.spillFault) :
    RingKept s (if (!t.log.lostFlag) = true then reqVec (modLog t f) 4360 else modLog t f) :=
  have hlost : RingKept s (modLog t f) := h.trans hf
  .ite (hlost.trans (.of_log (reqVec_log _ 4360))) hlost

theorem audit_ringKept (s : State) (o f k c x y : Nat) : RingKept s (audit s o f k c x y) := by
  unfold audit
  refine .ite .refl (.ite (lostEntry_ringKept .refl ⟨rfl, rfl⟩) ?_)
  dsimp only
  generalize hu : ite (s.log.lostSince > 0) _ s = u
  have hmark : RingKept s u := by
    rw [← hu]
    exact .ite (.trans ⟨rfl, rfl⟩ (logPut_ringKept ..)) .refl
  exact .ite (lostEntry_ringKept hmark ⟨rfl, rfl⟩) (hmark.trans (logPut_ringKept ..))

theorem takeAction_log (s : State) (act : Nat) (v : Ev) : (takeAction s act v).log = s.log := by
  obtain ⟨e, w, h⟩ := takeAction_shape s act v
  rw [h]

theorem watchCount_ringKept (s : State) (v : Ev) : RingKept s (watchCount s v) := by
  unfold watchCount
  refine .ite .refl ?_
  dsimp only
  generalize hm : modWatch s _ = m
  have hcounted : RingKept s m := by
    rw [← hm]
    exact .refl
  generalize hl : @ite State (_ = true) (instDecidableEqBool _ _) (audit m _ _ _ _ _ _) m = u
  have hlogged : RingKept s u := by
    rw [← hl]
    exact .ite (hcounted.trans (audit_ringKept ..)) hcounted
  exact .ite (hlogged.trans (.of_log (takeAction_log ..))) hlogged

theorem raiseOn_ringKept (s : State) (code : Nat) (p a : Option Nat) (named : List (Item × Nat)) :
    RingKept s (raiseOn s code p a named) := by
  unfold raiseOn
  split
  · exact .refl
  · exact watchCount_ringKept ..

/-- The burst's entries are out of the log, none in flight. -/
def spillTaken (s : State) (txn n : Nat) : State :=
  modLog (mgrDone s txn) fun l => { l with entries := l.entries.drop n, inflight := 0 }

/-- Its entries are counted as lost (R499). -/
def spillLost (s : State) (txn n : Nat) : State :=
  modLog (spillTaken s txn n) fun l => { l with lost := satN 32 (l.lost + n), spillFault := true }

theorem spillDone_ok (s : State) (txn n : Nat) {u : State}
    (hu : u = modLog (spillTaken s txn n) fun l => { l with tail := (l.tail + n) % 2 ^ l.ringLog2 }) :
    spillDone s txn n true = vecsRelease (if u.log.thresh ≤ ringUsed u then reqVec u 4360 else u) txn := by
  rw [hu]
  rfl

/-- A spill that fails says so, and TAIL stays where it was (R499). -/
theorem spillDone_fault (s : State) (txn n : Nat) :
    (spillDone s txn n false).log.spillFault = true ∧ (spillDone s txn n false).log.tail = s.log.tail := by
  have hraised := raiseOn_ringKept (spillLost s txn n) eHostWriteFault none none
    [(.addr, ((s.port.writes.find? (fun w => w.txn == txn)).map (·.addr)).getD 0)]
  obtain ⟨htail, hfault⟩ : RingKept (spillLost s txn n) (spillDone s txn n false) :=
    .trans (.ite (hraised.trans (.of_log (reqVec_log _ 4360))) hraised) (.of_log (vecsRelease_log _ txn))
  exact ⟨hfault, htail⟩

theorem exec_logSpillResponse (h : Live s = true) (hw : s.port.writes.find? spillOf = some w) (hk : w.kind = .spill n) (ok : Bool) :
    exec (.logSpillResponse ok) s = .next (settle (spillDone s w.txn n ok)) := by
  show execLogSpillResponse ok s = _
  rw [execLogSpillResponse, liveRoot_next h]
  change Host.Outcome.next (settle (match s.port.writes.find? spillOf with
    | some w => match w.kind with
      | .spill n => spillDone s w.txn n ok
      | _ => s
    | none => s)) = _
  simp only [hw, hk]

/-- The entries that a burst takes: at most 32, those there are, those to the ring's end and those for which it has room (R499). -/
def burst (s : State) : Nat :=
  min 32 (min s.log.entries.length (min (ringSize s - s.log.tail % ringSize s) (ringSize s - 1 - ringUsed s)))

theorem exec_logSpillWrite (h : Live s = true) (hready : isReady s = true) (hs : s.log.spill = true) (hi : s.log.inflight = 0)
    (hn : 0 < burst s) {t : State} (ht : t = (mgrWrite s 0x40 (s.log.ringBase.toNat + s.log.tail * 32) (32 * burst s)
      (pack ((s.log.entries.take (burst s)).map fun e => (256, e.toNat))) (.spill (burst s))).2) :
    exec .logSpillWrite s = .next (settle { t with log := { t.log with inflight := burst s } }) := by
  rw [ht]
  show execLogSpillWrite s = _
  rw [execLogSpillWrite, liveRoot_next h]
  exact congrArg (fun u => Host.Outcome.next (settle u)) (if_neg (by
    rw [← burst]
    simp [hready, hs, hi, hn.ne']))

end

/-- Settles O58: the end of a drain and its time-out, an evaluation of the Root's reading and a die's move, a burst of the audit log and
its response, each by its own lemma. -/
theorem serviceLife : Obligations.ServiceLife := by
  refine ⟨fun s a d h hd => ⟨fun hclear => ?drainEnd, fun n t hl hn ht => ?drainTmo⟩, fun s h => ⟨?ageing, ?pmDone⟩,
    fun s n h => ⟨?spillWrite, ?spillResponse⟩⟩
  case drainEnd =>
    obtain ⟨hup, hexcluded, hreason⟩ := endMark_fields (agtEntry s a)
    refine ⟨exec_drainEnd h hd hclear, fun _ => ?_, draining_drainFinish⟩
    rw [agtUp, agtExcluded, agtEntry_drainFinish]
    exact ⟨hup, hexcluded, hreason⟩
  case drainTmo =>
    rw [ht, hn]
    exact ⟨exec_drainTmoExpiry h hd hl, kget_kput_self⟩
  case ageing =>
    intro w t hready hmode htick hvalid ht
    obtain ⟨x, y, hsvc, -⟩ := ageEvents_svc (s := rootRead s w) (src := 64) (w := w)
    rw [ht, ← rootRead]
    exact ⟨exec_ageEvaluation_root h hready hmode htick hvalid, by rw [hsvc]; rfl, by rw [hsvc]; rfl, by rw [hsvc]; rfl,
      ageEvents_warns (s := rootRead s w), ageEvents_quiet (s := rootRead s w)⟩
  case pmDone =>
    intro die lv mhz t u hp ht hu
    rw [ht] at hu ⊢
    exact ⟨exec_pmDone h hp hu, congrArg (·.dieLevel) dieNoted_svc, congrArg (·.pmOut) dieNoted_svc⟩
  case spillWrite =>
    intro hready hs hi hpos hn t ht
    rw [← burst] at hn
    rw [hn] at hpos ht ⊢
    exact ⟨exec_logSpillWrite h hready hs hi hpos ht, Nat.min_le_left 32 _⟩
  case spillResponse =>
    intro w t hw hk ht
    rw [ht, exec_logSpillResponse h hw hk, exec_logSpillResponse h hw hk]
    refine ⟨fun u hu => ⟨?_, ?_⟩, rfl, spillDone_fault s w.txn n⟩
    · rw [spillDone_ok s w.txn n hu]
    · rw [hu]
      rfl

end Sys2Proof.Proofs.ServiceLives
end
